-- ==== Sys2Proof/Word.lean ====
section
/-! DEFINITION. Sys2Proof/Word.lean: the words of the UX3240 and their plainest arithmetic. -/

namespace Sys2Proof

/-- One byte of a frame, a record or the dump store. -/
abbrev Byte := BitVec 8

/-- Part time: a 48-bit count of microseconds since power-on, wrapping (00_scope.md 5.2). -/
abbrev PartTime := BitVec 48

/-- The eleven trigger source bits T0 to T7, POWER, HOST, MANUAL (01 1.3). -/
abbrev TrigSet := BitVec 11

end Sys2Proof
end

