-- ==== Sys2Proof/Syntax.lean ====
section
/-! DEFINITION. Sys2Proof/Syntax.lean: the commands of the UX3240, one constructor per row of spec/opcode_table.json.
A command is an event on a board signal, a bus, a line or a flash cell, a timer that runs out, a step of the store or
engine that the table lists, or a request whose frame has been received whole with a good CRC (R167, R168). -/

namespace Sys2Proof

/-- The three ports of the Link Interface, in the index order of 11.7 item 29. -/
inductive PortId
  | host | management | service
  deriving DecidableEq, Repr

/-- What one word of a page holds instead of what the operation should have left there:
`data` is the stored word and `check` the difference of its check byte from the code's (log 4, log 6). -/
structure WordFault where
  word  : Fin 64
  data  : BitVec 64
  check : BitVec 8
  deriving DecidableEq, Repr

/-- A `WordFault` in page `page` of an erase block. -/
structure BlockFault where
  page  : Fin 128
  fault : WordFault
  deriving DecidableEq, Repr

/-- A `WordFault` in page `page` of the store. -/
structure StoreFault where
  page  : Fin 8192
  fault : WordFault
  deriving DecidableEq, Repr

/-- The bytes that have arrived at a port since the command before. -/
structure Arrival where
  port  : PortId
  bytes : List Byte
  deriving DecidableEq, Repr

/-- The answer wire of a fetch channel, with the bytes that have arrived on it since the answer message before (log 48). -/
structure AnswerWire where
  ch     : Fin 4
  before : List Byte
  deriving DecidableEq, Repr

/-- The commands. Request rows carry the port, the tag and the payload bytes of the frame (12.1). -/
inductive Instr
  /-- RAW_LEVEL_CHANGE (R1): the raw input of a fault line takes a level. -/
  | rawLevelChange (line : Fin 16) (level : Bool)
  /-- FILTERED_LEVEL_CHANGE (R1): the candidate of a line has held for the filter width. -/
  | filteredLevelChange (line : Fin 16)
  /-- REARM_TIMER_EXPIRY (R8): a term's re-arm timer runs out. -/
  | rearmTimerExpiry (term : Fin 8)
  /-- HOST_HOLDOFF_EXPIRY (R11): the host hold-off timer runs out. -/
  | hostHoldoffExpiry
  /-- SYNC_ASSERT (R32): SYNC of a stream line is asserted. -/
  | syncAssert (ch : Fin 4)
  /-- SYNC_RELEASE (R34): SYNC of a stream line is released. -/
  | syncRelease (ch : Fin 4)
  /-- STREAM_STALL (R36): no clock edge has arrived for 10 ms. -/
  | streamStall (ch : Fin 4)
  /-- FETCH_ANSWER (R50): an answer message (mark 0xC9, then these fields) arrives on a fetch channel, after the bytes that the
wire carried before it. -/
  | fetchAnswer (wire : AnswerWire) (tag result count : Byte) (data : List Byte) (crc : BitVec 16)
  /-- FETCH_TIMEOUT (R51): the deadline of the attempt in flight passes. -/
  | fetchTimeout (ch : Fin 4)
  /-- TAKE_PIECE (R87): the engine takes the piece or omission its fetch channel holds. -/
  | takePiece
  /-- TAKE_RECORD (R88): the engine looks at the head record of its stream channel. -/
  | takeRecord
  /-- QUIET_TIME_EXPIRY (R89): the FIFO has stayed empty for the effective quiet time. -/
  | quietTimeExpiry
  /-- STREAM_WINDOW_EXPIRY (R89): the window of the STREAM entry, from capture open, runs out. -/
  | streamWindowExpiry
  /-- RETAIN_LAPSED (R99): the retain timer runs out. -/
  | retainLapsed
  /-- PFAIL_ASSERT (R106): PFAIL is asserted, with VHOLD at the given level in mV. -/
  | pfailAssert (vhold : Nat)
  /-- PFAIL_RELEASE (R107): PFAIL is released. -/
  | pfailRelease
  /-- POWER_RESTORED (R107): the restore debounce runs out. -/
  | powerRestored
  /-- HOLDUP_RESAMPLE (R110): VHOLD is sampled again after 32 programs. -/
  | holdupResample (vhold : Nat)
  /-- QUEUE_START (R129): with the engine free, the Store Controller starts the next request. -/
  | queueStart
  /-- PROGRAM_COMPLETE (R123): the program in flight completes; `faults` are the words that came out otherwise. -/
  | programComplete (faults : List WordFault)
  /-- ERASE_COMPLETE (R127): the erase in flight completes; `faults` are the words that came out otherwise. -/
  | eraseComplete (faults : List BlockFault)
  /-- RELOCATION_START (R162): the Integrity Unit starts relocating the head of the scrub queue. -/
  | relocationStart
  /-- POWER_ON (R176): power comes on, with VHOLD at the given level in mV; `worn` says which words have come to hold
  something else since the last power-on (log 4). -/
  | powerOn (vhold : Nat) (worn : List StoreFault)
  /-- JOURNAL_FORMAT (R142): the journal blocks are erased and a checkpoint is written; the operands are the words that
  the two erases and each page program in turn left otherwise. -/
  | journalFormat (erase0 erase1 : List BlockFault) (programs : List (List WordFault))
  /-- REPLAY_END (R144): replay completes. -/
  | replayEnd
  /-- RESTART_EFFECT (R177): a decided restart takes effect, with VHOLD at the given level in mV. -/
  | restartEffect (vhold : Nat)
  /-- LINE_RATE_CHANGE (R174): a changed line rate takes effect on a line. -/
  | lineRateChange (port : PortId)
  /-- SVC_STRAP_CHANGE (R166): SVC_STRAP has held a new level for 10 ms. -/
  | svcStrapChange (asserted : Bool)
  /-- LINE_ERROR (R166): a character with a low stop bit arrives. -/
  | lineError (port : PortId)
  /-- INTERBYTE (R167): the bytes arrive, and more than 20 ms then pass with a frame in reception. -/
  | interbyte (arrival : Arrival)
  /-- LENGTH_ERRORS (R167): a frame's length field, low byte first, is out of range. -/
  | lengthErrors (port : PortId) (lo hi : Byte)
  /-- CRC_ERRORS (R167): the bytes arrive, and the last of them completes a frame whose CRC does not match. -/
  | crcErrors (arrival : Arrival)
  /-- UNKNOWN_KIND (R178): a request whose kind names no request. -/
  | unknownKind (port : PortId) (kind tag : Byte) (payload : List Byte)
  | identify (port : PortId) (tag : Byte) (payload : List Byte)
  | status (port : PortId) (tag : Byte) (payload : List Byte)
  | ackRestart (port : PortId) (tag : Byte) (payload : List Byte)
  | restart (port : PortId) (tag : Byte) (payload : List Byte)
  | readSettings (port : PortId) (tag : Byte) (payload : List Byte)
  | writeSettings (port : PortId) (tag : Byte) (payload : List Byte)
  | storeSettings (port : PortId) (tag : Byte) (payload : List Byte)
  | setTime (port : PortId) (tag : Byte) (payload : List Byte)
  | postEvent (port : PortId) (tag : Byte) (payload : List Byte)
  | readEvents (port : PortId) (tag : Byte) (payload : List Byte)
  | panicNote (port : PortId) (tag : Byte) (payload : List Byte)
  | capture (port : PortId) (tag : Byte) (payload : List Byte)
  | abortCapture (port : PortId) (tag : Byte) (payload : List Byte)
  | readLines (port : PortId) (tag : Byte) (payload : List Byte)
  | clearLatches (port : PortId) (tag : Byte) (payload : List Byte)
  | arm (port : PortId) (tag : Byte) (payload : List Byte)
  | disarm (port : PortId) (tag : Byte) (payload : List Byte)
  | driveIndicators (port : PortId) (tag : Byte) (payload : List Byte)
  | readPlan (port : PortId) (tag : Byte) (payload : List Byte)
  /-- WRITE_PLAN with selector ENTRY, or with no selector or an unknown one, which no form admits (R68). -/
  | writePlanEntry (port : PortId) (tag : Byte) (payload : List Byte)
  /-- WRITE_PLAN with selector PAGE_CAP. -/
  | writePlanPageCap (port : PortId) (tag : Byte) (payload : List Byte)
  | probeReach (port : PortId) (tag : Byte) (payload : List Byte)
  | listCaptures (port : PortId) (tag : Byte) (payload : List Byte)
  | readCapture (port : PortId) (tag : Byte) (payload : List Byte)
  | readHead (port : PortId) (tag : Byte) (payload : List Byte)
  | readSection (port : PortId) (tag : Byte) (payload : List Byte)
  | readErrors (port : PortId) (tag : Byte) (payload : List Byte)
  | ackErrors (port : PortId) (tag : Byte) (payload : List Byte)
  | hold (port : PortId) (tag : Byte) (payload : List Byte)
  | release (port : PortId) (tag : Byte) (payload : List Byte)
  | delete (port : PortId) (tag : Byte) (payload : List Byte)
  | stageNote (port : PortId) (tag : Byte) (payload : List Byte)
  | commitNote (port : PortId) (tag : Byte) (payload : List Byte)
  | eraseAll (port : PortId) (tag : Byte) (payload : List Byte)
  /-- CLK_RISING_EDGE (R33): a rising edge of CLK with the levels of DA and DB. -/
  | clkRisingEdge (ch : Fin 4) (da db : Bool)
  /-- POWER_LOSS (R131): power is lost; `torn` says what words of the operation in flight came to hold. -/
  | powerLoss (torn : List BlockFault)
  /-- REPLY_TRANSMITTED (R169): the last byte of a port's oldest reply frame has been transmitted. -/
  | replyTransmitted (port : PortId)
  deriving DecidableEq, Repr

end Sys2Proof
end

