-- ==== Sys2Proof/Decode.lean ====
section
/-! DEFINITION. Sys2Proof/Decode.lean: the commands that the table spells as words of bits.
The part is a block: no row of spec/opcode_table.json gives bits, so no word spells a command. -/

namespace Sys2Proof

/-- The command a word of `nbits` bits spells by the table's bits: none, for the table gives no row bits. -/
def decodeTableWord (_nbits _w : Nat) : Option Instr := none

end Sys2Proof
end

