-- ==== Sys2Proof/Machine/Bytes.lean ====
section
/-! DEFINITION. Sys2Proof/Machine/Bytes.lean: byte order, the CRC-16, saturating counters and times. -/

namespace Sys2Proof.Machine

/-- The largest value of a 32-bit counter (00_scope.md 5.3). -/
def counterMax : Nat := 4294967295

/-- A counter's increment by `n`: 32 bits, saturating (00_scope.md 5.3). -/
def satAdd (c n : Nat) : Nat := min (c + n) counterMax

/-- A counter's increment by one. -/
def satInc (c : Nat) : Nat := satAdd c 1

/-- `v` rounded up to a whole number of `d`s (00_scope.md 5.1). -/
def ceilDiv (v d : Nat) : Nat := (v + d - 1) / d

/-- The nearest value of a range (00_scope.md 5.6). -/
def clampTo (lo hi v : Nat) : Nat := max lo (min hi v)

/-- A number in `n` bytes, little-endian (00_scope.md 5.4). -/
def leBytes : Nat → Nat → List Byte
  | 0, _ => []
  | n + 1, v => BitVec.ofNat 8 v :: leBytes n (v / 256)

/-- The number that little-endian bytes hold. -/
def leNat : List Byte → Nat
  | [] => 0
  | b :: bs => b.toNat + 256 * leNat bs

/-- The field of `n` bytes at offset `i` of a payload or record. -/
def fieldAt (bs : List Byte) (i n : Nat) : Nat := leNat ((bs.drop i).take n)

/-- A mark: 1 when set, 0 when clear (R182). -/
def markByte (b : Bool) : Byte := if b then 1 else 0

/-- `bs` cut or filled with `fill` to `n` bytes. -/
def padTo (fill : Byte) (n : Nat) (bs : List Byte) : List Byte :=
  bs.take n ++ List.replicate (n - bs.length) fill

/-- A part time or other bit vector as a number in `n` bytes. -/
def leBits (n : Nat) {w : Nat} (v : BitVec w) : List Byte := leBytes n v.toNat

/-! ## CRC-16 (00_scope.md 5.5) -/

/-- One bit of the division by x^16 + x^12 + x^5 + 1. -/
def crcBit (r : BitVec 16) : BitVec 16 :=
  if r.getLsbD 15 then (r <<< 1) ^^^ 0x1021#16 else r <<< 1

/-- One byte, most significant bit first ("no reflection"). -/
def crcByte (r : BitVec 16) (b : Byte) : BitVec 16 :=
  crcBit (crcBit (crcBit (crcBit (crcBit (crcBit (crcBit (crcBit (r ^^^ (b.setWidth 16 <<< 8)))))))))

/-- The transmitted CRC of some bytes: initial value all ones, final remainder complemented. -/
def crc16 (bs : List Byte) : BitVec 16 := ~~~ (bs.foldl crcByte 0xFFFF#16)

/-- The transmitted CRC as bytes, low byte first. -/
def crcBytes (bs : List Byte) : List Byte := leBits 2 (crc16 bs)

/-- `bs` followed by its CRC. -/
def withCrc (bs : List Byte) : List Byte := bs ++ crcBytes bs

/-! ## Times (00_scope.md 5.2) -/

/-- Part time has reached `t`: `t` lies at most half the range behind `now` (log 2). -/
def reached (now t : PartTime) : Bool := (now - t).toNat < 2 ^ 47

def usPerMs : Nat := 1000
def usPerS : Nat := 1000000

/-- A start time plus a duration in µs, modulo 2^48. -/
def after (start : PartTime) (us : Nat) : PartTime := start + BitVec.ofNat 48 us

/-- What remains until `t`, in µs, 0 once reached. -/
def usLeft (now t : PartTime) : Nat := if reached now t then 0 else (t - now).toNat

/-- What remains of a timer in whole units of `us` µs, rounded up, 0 when it is stopped. -/
def timerLeft (us : Nat) (now : PartTime) : Option PartTime → Nat
  | none => 0
  | some t => ceilDiv (usLeft now t) us

/-! ## Sets of lines and vectors -/

/-- A vector with `f` applied to every element. -/
def vmap {α β : Type} {n : Nat} (f : α → β) (v : Vector α n) : Vector β n := Vector.ofFn fun i => f v[i]

/-- A vector with the element at `i` replaced. -/
def vset {α : Type} {n : Nat} (v : Vector α n) (i : Fin n) (a : α) : Vector α n := v.set i.val a i.isLt

/-- A vector with `f` applied to the element at `i`. -/
def vmod {α : Type} {n : Nat} (v : Vector α n) (i : Fin n) (f : α → α) : Vector α n := vset v i (f v[i])

/-- A bit vector with bit `i` set to `b`. -/
def setBit {w : Nat} (v : BitVec w) (i : Nat) (b : Bool) : BitVec w :=
  if b then v ||| BitVec.twoPow w i else v &&& ~~~ BitVec.twoPow w i

/-- The numbers of the bits set, in ascending order. -/
def bitsOf {w : Nat} (v : BitVec w) : List Nat := (List.range w).filter fun i => v.getLsbD i

end Sys2Proof.Machine
end

