-- ==== Sys2Proof/Machine/Types.lean ====
section
/-! DEFINITION. Sys2Proof/Machine/Types.lean: the data that the blocks of the UX3240 hold, as inductive types and
structures that follow the manual's tables. The codes that replies and records carry stand in Machine/Codes.lean. -/

namespace Sys2Proof.Machine

/-! ## Links (chapter 11) -/

/-- Access levels (00_scope.md 3, R168). -/
inductive Level
  | host | viewer | manager | technician
  deriving DecidableEq, Repr

/-- Reply statuses (R169, 12.1). -/
inductive Status
  | ok | busy | denied | unknownKind | badLength | badValue | notFound | gone | inProgress | refusedState
  | held | authMismatch | full | holdup | starting
  deriving DecidableEq, Repr

/-- The notice flags of R170, in bit order. -/
inductive Notice
  | captureOpened | captureClosed | holdupEntered | errorCaptured | streamOverrun | accessDenied | settingsLost | restarted
  deriving DecidableEq, Repr

/-! ## Event History Ring (chapter 2) -/

/-- Who posted an event (R17). -/
inductive Origin
  | term (n : Fin 8) | stream (n : Fin 4) | fetch (n : Fin 4) | port (p : PortId)
  | engine | holdup | store | directory | integrity | ring
  deriving DecidableEq, Repr

/-- An event record (R17). The kind is the code of R18 or a host event's code. -/
structure EventRec where
  seq    : BitVec 32
  time   : PartTime
  origin : Origin
  kind   : Byte
  args   : List (BitVec 32)
  deriving DecidableEq, Repr

/-- The ring: records oldest first, the sequence counter, the pin and the lost-count (chapter 2). -/
structure Ring where
  records : List EventRec
  counter : BitVec 32
  pin     : Option (BitVec 32)
  lost    : Nat
  deriving DecidableEq, Repr

/-! ## Trigger Unit (chapter 1) -/

/-- A candidate level and the part time it came up (R1). -/
structure Candidate where
  level : Bool
  start : PartTime
  deriving DecidableEq, Repr

inductive TermState
  | disabled | armed | fired
  deriving DecidableEq, Repr

/-- What a term reads of a line (R4). -/
inductive Source
  | level | latch
  deriving DecidableEq, Repr

/-- How a term combines its lines (R4). -/
inductive Combine
  | any | all
  deriving DecidableEq, Repr

/-- A term's definition, a working setting (1.2). The re-arm hold-off is in seconds. -/
structure TermDef where
  mask       : BitVec 16
  polarity   : BitVec 16
  source     : Source
  combine    : Combine
  rearm      : Nat
  startArmed : Bool
  deriving DecidableEq, Repr

/-- A term's working state (1.2). -/
structure Term where
  state     : TermState
  qualified : Bool
  assoc     : Option Nat
  rearmAt   : Option PartTime
  fires     : Nat
  deriving DecidableEq, Repr

structure TrigUnit where
  filtered     : BitVec 16
  cands        : Vector (Option Candidate) 16
  latches      : BitVec 16
  terms        : Vector Term 8
  hostTimer    : Option PartTime
  hostRefusals : Nat
  indicators   : BitVec 4
  deriving DecidableEq, Repr

/-! ## Capture Plan (chapter 5) -/

inductive SecKind
  | stream | fetch | history | note
  deriving DecidableEq, Repr

inductive SecClass
  | critical | essential | extended
  deriving DecidableEq, Repr

/-- The spaces of a sideband bus (R49). -/
inductive Space
  | config | errbank | trace | mailbox
  deriving DecidableEq, Repr

/-- A plan entry (R66). A field the kind does not use is `none`. Lengths in bytes, quiet time in ms, window in s. -/
structure PlanEntry where
  enabled : Bool
  kind    : SecKind
  cls     : SecClass
  order   : Nat
  trig    : TrigSet
  chan    : Option (Fin 4)
  space   : Option Space
  base    : Option Nat
  limit   : Nat
  quiet   : Option Nat
  window  : Option Nat
  retain  : Option (Fin 8)
  deriving DecidableEq, Repr

/-- The working plan or a snapshot: entries, page cap and revision (chapter 5). -/
structure Plan where
  entries  : Vector PlanEntry 48
  pageCap  : Nat
  revision : Nat
  deriving DecidableEq, Repr

/-! ## Stream Channels (chapter 3) -/

inductive StreamMode
  | single | paired
  deriving DecidableEq, Repr

structure StreamCfg where
  enabled : Bool
  mode    : StreamMode
  wordLen : Nat
  packing : Bool
  deriving DecidableEq, Repr

inductive RxState
  | disabled | idle | receiving | waitRelease
  deriving DecidableEq, Repr

/-- The record in assembly (R32 to R37). `bits` of the current word have been delivered into `word`;
`held` is the DA word of a PAIRED frame whose DB word is not complete. -/
structure Assembly where
  arrival    : BitVec 32
  paired     : Bool
  packed     : Bool
  words      : List (BitVec 32)
  frameCount : Nat
  truncated  : Bool
  held       : Option (BitVec 32)
  word       : BitVec 32
  bits       : Nat
  lastEdge   : PartTime
  deriving DecidableEq, Repr

/-- A completed record (3.3). -/
structure StreamRec where
  arrival     : BitVec 32
  wordCount   : Nat
  dropsBefore : Nat
  syncError   : Bool
  truncated   : Bool
  packed      : Bool
  paired      : Bool
  channel     : Fin 4
  frameCount  : Nat
  containers  : List (BitVec 32)
  deriving DecidableEq, Repr

/-- A capture's claim on a channel (R44). -/
structure Claim where
  capture : Nat
  count   : Nat
  deriving DecidableEq, Repr

structure StreamChan where
  rx         : RxState
  assembly   : Option Assembly
  fifo       : List StreamRec
  pendDrops  : Nat
  claim      : Option Claim
  noticed    : Nat
  received   : Nat
  taken      : Nat
  aged       : Nat
  overrun    : Nat
  syncErrors : Nat
  truncated  : Nat
  deriving DecidableEq, Repr

/-! ## Fetch Channels (chapter 4) -/

inductive Permit
  | read | deny
  deriving DecidableEq, Repr

/-- A reach window (4.2). -/
structure Window where
  enabled : Bool
  space   : Space
  base    : Nat
  limit   : Nat
  permit  : Permit
  deriving DecidableEq, Repr

/-- A fetch channel's settings; the timeout is in ms (4.3). -/
structure FetchCfg where
  enabled : Bool
  timeout : Nat
  retries : Nat
  windows : Vector Window 4
  deriving DecidableEq, Repr

inductive FetchState
  | disabled | idle | asking | delivering
  deriving DecidableEq, Repr

/-- A run of consecutive bytes with one deciding window (R57); `window = none` is NONE. -/
structure Run where
  start  : Nat
  len    : Nat
  window : Option (Fin 4)
  permit : Permit
  deriving DecidableEq, Repr

/-- A region in progress (R57, R58): what is left of it in `runs`, and whether its source was declared silent. -/
structure Region where
  space  : Space
  base   : Nat
  len    : Nat
  runs   : List Run
  silent : Bool
  deriving DecidableEq, Repr

/-- The transaction in progress and its attempt in flight (R49); `sent` is the request message on the request wire. -/
structure Txn where
  space    : Space
  addr     : Nat
  count    : Nat
  attempt  : Nat
  tag      : Byte
  sent     : List Byte
  deadline : PartTime
  deriving DecidableEq, Repr

/-- What a channel hands on: bytes, READABLE or UNREADABLE, or an omission of a length (R58). -/
inductive Piece
  | data (readable : Bool) (bytes : List Byte)
  | omission (len : Nat)
  deriving DecidableEq, Repr

/-- A fetch channel (chapter 4); `rx` holds the bytes of the answer in reception after its mark, none while the channel hunts (R50). -/
structure FetchChan where
  state        : FetchState
  rx           : Option (List Byte)
  region       : Option Region
  txn          : Option Txn
  piece        : Option Piece
  nextTag      : Byte
  failures     : Nat
  silent       : Option Nat
  transactions : Nat
  attempts     : Nat
  timeouts     : Nat
  naks         : Nat
  failed       : Nat
  abandoned    : Nat
  stale        : Nat
  badAnswers   : Nat
  silents      : Nat
  bytesRead    : Nat
  deriving DecidableEq, Repr

/-! ## Working settings (11.7) -/

structure Settings where
  filterWidth : Vector Nat 16
  terms       : Vector TermDef 8
  hostHoldoff : Nat
  preCount    : Nat
  postCount   : Nat
  stream      : Vector StreamCfg 4
  fetch       : Vector FetchCfg 4
  retainTime  : Nat
  cuf         : Nat
  vmin        : Nat
  eff         : Nat
  epage       : Nat
  debounce    : Nat
  lineRate    : Vector Nat 3
  noticeMask  : BitVec 8
  deriving DecidableEq, Repr

/-! ## Outcomes, journal records and the directory (chapters 6, 9, 12.2) -/

/-- Section and capture outcomes and section statuses, one code space (12.2). -/
inductive OutcomeCode
  | complete | limited | sourceSilent | deniedAll | storeFault | aborted
  | skippedSpace | skippedBudget | skippedPower | skippedAbort
  | partialDone | truncatedPower | truncatedSpace | truncatedBudget
  | inProgress | interrupted
  deriving DecidableEq, Repr

inductive DeleteReason
  | delete | reclaim | eraseAll
  deriving DecidableEq, Repr

inductive RetireCause
  | programFail | eraseFail
  deriving DecidableEq, Repr

/-- The journal records (R138, 12.3). -/
inductive JRec
  | captureOpen (cap : Nat) (trig : TrigSet) (first : Nat) (valid : Bool) (openTime : PartTime) (epoch : BitVec 64)
  | blockAllot (cap block : Nat)
  | blockList (cap position : Nat) (blocks : List Nat)
  | sectionBegin (cap index entry : Nat) (kind : SecKind) (first : Nat) (start : PartTime) (head : Option Nat)
  | sectionDone (cap index entry : Nat) (kind : SecKind) (outcome : OutcomeCode) (len first pages gaps : Nat)
      (head : Option Nat)
  | captureClose (cap : Nat) (outcome : OutcomeCode) (closeTime : PartTime) (trig : TrigSet) (head : Option Nat)
  | captureSummary (cap : Nat) (closed : Bool) (outcome : Option OutcomeCode) (trig : TrigSet) (closeTime : PartTime)
      (head : Option Nat) (held : Bool) (slots : BitVec 4)
  | hold (cap : Nat)
  | release (cap : Nat)
  | delete (cap : Nat) (reason : DeleteReason)
  | annotate (cap slot len : Nat)
  | relocate (source pool : Nat) (poisoned : BitVec 64)
  | retirePage (pages : List Nat)
  | retireBlock (block : Nat) (cause : RetireCause)
  | checkpointBegin (gen : BitVec 32) (last : Nat)
  | checkpointEnd (gen : BitVec 32) (count : Nat)
  deriving DecidableEq, Repr

/-- Who is answered when a journal record is accepted or refused (R139). -/
inductive Who
  | engine | port (p : PortId) | retirement | reclaim | eraseAll | relocation | snapshot
  deriving DecidableEq, Repr

/-- A record with a slot, not yet accepted (R139); `flying` while the program carrying it is in flight. -/
structure Slotted where
  block  : Nat
  slot   : Nat
  seq    : BitVec 32
  record : JRec
  who    : Who
  flying : Bool
  deriving DecidableEq, Repr

/-- States of a directory entry (R136). -/
inductive CapState
  | opening | gathering | closing | closed | interrupted
  deriving DecidableEq, Repr

/-- A directory entry (R136). `epoch` is present when it was valid at open; `head` is the head page's logical page. A place of the
block list whose record was lost holds no block (R138, log 65). -/
structure DirEntry where
  cap       : Nat
  state     : CapState
  outcome   : Option OutcomeCode
  trig      : TrigSet
  first     : Nat
  openTime  : PartTime
  closeTime : Option PartTime
  epoch     : Option (BitVec 64)
  head      : Option Nat
  blocks    : List (Option Nat)
  sections  : List Nat
  held      : Bool
  slots     : BitVec 4
  damaged   : Nat
  deriving DecidableEq, Repr

inductive DirSlot
  | free | reserved (cap : Nat) | entry (e : DirEntry)
  deriving DecidableEq, Repr

/-- A section (R137). `start` is the start time of its SECTION_BEGIN record, which a snapshot writes again (log 15). -/
structure SecEntry where
  cap    : Nat
  index  : Nat
  entry  : Nat
  kind   : SecKind
  status : OutcomeCode
  len    : Nat
  first  : Nat
  pages  : Nat
  gaps   : Nat
  start  : PartTime
  deriving DecidableEq, Repr

inductive SecSlot
  | reserved (cap : Nat) | entry (e : SecEntry)
  deriving DecidableEq, Repr

/-- A relocation map entry (R152). `pool` is the page within block 3. -/
structure MapEntry where
  source   : Nat
  pool     : Nat
  poisoned : BitVec 64
  deriving DecidableEq, Repr

inductive CompState
  | none | clearing | writing
  deriving DecidableEq, Repr

/-- A compaction's own steps (R140, R141). `all` marks the checkpoint of ERASE_ALL (R150); `held` that a snapshot program
was returned with HOLDUP; `paused` that an abandoned compaction waits for the next slot given; `last` is the last capture
number its checkpoint carries. -/
structure Compaction where
  state       : CompState
  all         : Bool
  eraseQueued : Bool
  held        : Bool
  paused      : Bool
  last        : Nat
  count       : Nat
  deriving DecidableEq, Repr

/-- Steps of ERASE_ALL (R150). -/
inductive EraseStep
  | waiting | deleting | pool | checkpoint | erases
  deriving DecidableEq, Repr

/-- ERASE_ALL in progress: its port, its step, the blocks whose erases it still waits for, and its two counts. -/
structure EraseAll where
  port     : PortId
  step     : EraseStep
  blocks   : List Nat
  captures : Nat
  erased   : Nat
  deriving DecidableEq, Repr

/-- Whether the trailer of an ended section was written (R85, R152). No record carries it, so it is known until the next start-up
(log 42). -/
structure TrailerMark where
  cap     : Nat
  index   : Nat
  written : Bool
  deriving DecidableEq, Repr

structure Directory where
  slots    : Vector DirSlot 32
  sections : List (Nat × SecSlot)
  map      : List MapEntry
  active   : Nat
  gen      : BitVec 32
  nextSlot : Nat
  nextSeq  : BitVec 32
  lastCap  : Nat
  slotted  : List Slotted
  comp     : Compaction
  pending  : List (JRec × Who)
  taken    : Nat
  torn     : Nat
  reclaim  : Option Nat
  eraseAll : Option EraseAll
  trailers : List TrailerMark
  deriving DecidableEq, Repr

/-! ## Capture Engine (chapter 6) -/

inductive EngState
  | idle | opening | gathering | closing | erasing
  deriving DecidableEq, Repr

/-- Who sent a trigger and is told the engine's answer (R10). -/
inductive Sender
  | term (n : Fin 8) | monitor | port (p : PortId)
  deriving DecidableEq, Repr

/-- Where the engine stands within its state: the step that it next takes or the event it waits for.
`openSlot` to `headWait` belong to OPENING (R80, R81); `secBegin` to `secRecord` to one walk entry, where `secSkip` and `secEnter`
hold what was decided when the cursor reached it (R84, R85, R96); the rest to CLOSING (R102). -/
inductive Phase
  | rest
  | openSlot | openRecord | openHead | headWait
  | secBegin | secSkip | secEnter | gather | trailer | placeTrailer | drain | secEnd | secRecord
  | skips | closeRecord | closeWait
  deriving DecidableEq, Repr

inductive CloseCause
  | none | space | budget | power | abort
  deriving DecidableEq, Repr

inductive GapReason
  | denied | unreadable | overrun
  deriving DecidableEq, Repr

/-- A recorded hole in a section's data (R59, R85, R88). -/
structure Gap where
  offset : Nat
  len    : Nat
  reason : GapReason
  deriving DecidableEq, Repr

/-- One entry of the walk: the plan entry, its section index when given, and its RETAIN_LAPSED mark (R82, R99). -/
structure WalkItem where
  entry  : Fin 48
  secIdx : Option Nat
  lapsed : Bool
  deriving DecidableEq, Repr

/-- What a staging buffer holds of its section: its target page and the part of the image, from `start` to before `stop` (R92). -/
structure Placed where
  page  : Nat
  start : Nat
  stop  : Nat
  deriving DecidableEq, Repr

/-- The current section (R84, R85). `img` counts the image bytes placed in buffers, `toPlace` holds bytes taken and not
yet placed, `items` the HISTORY records or NOTE items still to place, `quietAt` the start of a quiet period (R89),
`ended` the outcome with which gathering ends once `toPlace` is placed, `len` the captured data length and `outcome` the
outcome once gathering has ended, `early` that it ended early, `pages` the page count where it is not simply the logical
pages given since `first`, `done` what its accepted pages hold, and `stop` where its data ended in the image when gathering
ended. -/
structure Section where
  index   : Nat
  first   : Nat
  start   : PartTime
  img     : Nat
  toPlace : List Byte
  items   : List (List Byte)
  records : Nat
  gaps    : List Gap
  quietAt : Option PartTime
  ended   : Option OutcomeCode
  len     : Nat
  outcome : OutcomeCode
  early   : Bool
  pages   : Option Nat
  done    : List Placed
  stop    : Nat
  deriving DecidableEq, Repr

/-- A capture in progress (R80). `owed` are close-class records that were returned with HOLDUP and go first at the close
(R113); `clean` that every section so far ended COMPLETE or LIMITED (R103); `unrecorded` that the rest of the walk is
left unrecorded (R95); `head` the head page once accepted; `closeOn` that a close under holdup has been tested and started
(R113); `asked` that the engine has asked for the reclamation its present need calls for (R93); `noReclaim` that the DELETE
record of that reclamation was returned with HOLDUP (R145). -/
structure Capture where
  number     : Nat
  slot       : Option Nat
  first      : Nat
  openTime   : PartTime
  trigOpen   : TrigSet
  trig       : TrigSet
  trigSeq    : BitVec 32
  preCount   : Nat
  postCount  : Nat
  retainTime : Nat
  epoch      : Option (BitVec 64)
  sender     : Sender
  snapshot   : Plan
  walk       : List WalkItem
  cursor     : Option Nat
  current    : Option Section
  nextPage   : Nat
  nextIndex  : Nat
  head       : Option Nat
  blocks     : List Nat
  owed       : List JRec
  clean      : Bool
  unrecorded : Bool
  closeOn    : Bool
  asked      : Bool
  noReclaim  : Bool
  deriving DecidableEq, Repr

inductive BufState
  | empty | filling | queued | programming
  deriving DecidableEq, Repr

/-- A staging buffer (6.5). `bytes` are the bytes placed, so its end offset is `start + bytes.length`; `isHead` marks the
head page, `retried` that this content has failed once (R92), `flush` that it is the final flush (R112). -/
structure Buf where
  state    : BufState
  cap      : Nat
  page     : Nat
  start    : Nat
  bytes    : List Byte
  part     : Bool
  accepted : Bool
  isHead   : Bool
  retried  : Bool
  flush    : Bool
  deriving DecidableEq, Repr

/-- A host note (R100). -/
structure Note where
  time : PartTime
  text : List Byte
  deriving DecidableEq, Repr

inductive RetainTimer
  | stopped | running (expiry : PartTime) | ranOut
  deriving DecidableEq, Repr

structure Engine where
  state        : EngState
  phase        : Phase
  capture      : Option Capture
  retain       : BitVec 8
  retainCount  : Vector Nat 8
  retainTimer  : RetainTimer
  bufs         : Vector Buf 4
  notes        : List Note
  pendingPower : Bool
  cause        : CloseCause
  stall        : Bool
  refFull      : Nat
  refNumbers   : Nat
  refPower     : Nat
  refErasing   : Nat
  deriving DecidableEq, Repr

/-- Why a trigger is refused (R18, R79, 12.2). -/
inductive Refuse
  | holdoff | full | numbers | power | erasing
  deriving DecidableEq, Repr

/-! ## Holdup Monitor (chapter 7) -/

inductive MonState
  | normal | holdup | exhausted | recovering
  deriving DecidableEq, Repr

structure Monitor where
  state      : MonState
  lastVh     : Nat
  lastVhTime : PartTime
  entry      : Nat
  remaining  : Nat
  programs   : Nat
  sinceVh    : Nat
  debounceAt : Option PartTime
  episodes   : Nat
  exhaustOn  : Bool
  deriving DecidableEq, Repr

/-! ## Store Controller (chapter 8) -/

inductive BlockState
  | free | allotted (cap : Nat) | dirty | erasing | retired
  deriving DecidableEq, Repr

/-- Who asked for an erase (8.4). -/
inductive Eraser
  | area | journal | pool | settings
  deriving DecidableEq, Repr

/-- A waiting request other than a journal append (8.4). -/
inductive QReq
  | buf (i : Fin 4)
  | erase (who : Eraser) (block : Nat)
  | relocation
  | commit (p : PortId)
  | settings
  deriving DecidableEq, Repr

/-- Who asked for the program in flight. -/
inductive Programmer
  | buf (i : Fin 4) | journal | relocation | commit (p : PortId) | settings
  deriving DecidableEq, Repr

/-- The operation in flight (R123, R127): a program with its page and new content, or an erase. -/
inductive Flight
  | program (who : Programmer) (page : Nat) (content : List Byte)
  | erase (who : Eraser) (block : Nat)
  deriving DecidableEq, Repr

/-- The Store Controller's tables and queue. `unjournaled` holds the retirement records not yet handed over; the mark says
that a record was returned with HOLDUP and waits for NORMAL (R124), and without it that it waits for room (R141). -/
structure StoreCtl where
  blocks      : Vector BlockState 60
  retPages    : List Nat
  retBlocks   : List (Nat × RetireCause)
  unjournaled : List (JRec × Bool)
  queue       : List QReq
  flight      : Option Flight
  deriving DecidableEq, Repr

/-- The dump store's contents as two sparse lists (log 6): data bytes by byte address, unlisted 0xFF; and for each word,
by word number, the difference between its stored check byte and the code's check byte of its stored data, unlisted 0. -/
structure Flash where
  data  : List Host.Cell
  check : List Host.Cell
  deriving DecidableEq, Repr

/-! ## Integrity and Retrieval Units (chapter 10) -/

inductive WordClass
  | clean | corrected | poisoned
  deriving DecidableEq, Repr

/-- A word as read: the data delivered and its class (R153). -/
structure WordRead where
  data : BitVec 64
  cls  : WordClass
  deriving DecidableEq, Repr

/-- A page read ahead for a port (R160). -/
structure ReadAhead where
  cap   : Nat
  sec   : Nat
  lpage : Nat
  ppage : Nat
  words : List WordRead
  deriving DecidableEq, Repr

/-- Steps of a relocation (R162); in `reading` its read waits for an operation in flight (R129). -/
inductive RelocStep
  | reading | needPage | queued | programming | record (handed : Bool)
  deriving DecidableEq, Repr

/-- The relocation in progress, of the page at the head of the scrub queue (R162). `pool` is the pool page that its program
takes when it starts. -/
structure Reloc where
  page     : Nat
  content  : List Byte
  poisoned : BitVec 64
  pool     : Nat
  step     : RelocStep
  deriving DecidableEq, Repr

inductive PoolErase
  | none | queued | erasing
  deriving DecidableEq, Repr

inductive ErrKind
  | corrected | poisoned | programFail | eraseFail | journalTorn
  deriving DecidableEq, Repr

inductive Operation
  | retrieve | replay | relocate | verify | settings
  deriving DecidableEq, Repr

/-- The error capture record's contents (R164). -/
structure ErrRec where
  kind : ErrKind
  page : Nat
  word : Nat
  op   : Operation
  time : PartTime
  deriving DecidableEq, Repr

structure Integrity where
  scrub          : List Nat
  reloc          : Option Reloc
  nextPool       : Nat
  poolErase      : PoolErase
  error          : Option ErrRec
  overflow       : Bool
  corrected      : Nat
  poisoned       : Nat
  correctedAhead : Nat
  programFail    : Nat
  eraseFail      : Nat
  torn           : Nat
  scrubDropped   : Nat
  deriving DecidableEq, Repr

/-! ## Ports (chapter 11) -/

/-- What a request in service waits for (R168): nothing, a journal record (handed over or not), a note commit program,
the engine's answer to a trigger, a capture's close, the end of an operation of its own, or the operation in flight on a
page that it is to read, with its payload (R129). -/
inductive Wait
  | none
  | record (r : JRec) (handed : Bool)
  | commit
  | trigger
  | close (cap : Nat)
  | restartClose (cap : Nat)
  | settings
  | eraseAll
  | read (payload : List Byte)
  deriving DecidableEq, Repr

/-- The request in service (R168). -/
structure InService where
  kind  : Byte
  tag   : Byte
  level : Level
  wait  : Wait
  deriving DecidableEq, Repr

/-- A reply frame's contents (R169); its bytes are `Reply.frame`. `restarts` marks the reply that a restart waits for. -/
structure Reply where
  kind     : Byte
  tag      : Byte
  payload  : List Byte
  restarts : Bool
  deriving DecidableEq, Repr

/-- A note pad (R148): target (capture number, slot), text, end offset and the flags PF, LOCKED and AA. `gone` marks a pad whose
target ERASE_ALL erased: its capture number may be given anew (R150). -/
structure Pad where
  target : Option (Nat × Nat)
  text   : List Byte
  pf     : Bool
  locked : Bool
  aa     : Bool
  gone   : Bool := false
  deriving DecidableEq, Repr

/-- A port. `rx` is none in HUNTING and otherwise the bytes of the frame in reception (R167). `rate` is the rate in effect.
The host link's pad and read-ahead buffer exist for none and stay empty. -/
structure Port where
  rx           : Option (List Byte)
  service      : Option InService
  tx           : List Reply
  notices      : BitVec 8
  pad          : Pad
  ahead        : Option ReadAhead
  rate         : Nat
  requests     : Nat
  lineErrors   : Nat
  interbyte    : Nat
  lengthErrors : Nat
  crcErrors    : Nat
  busyReplies  : Nat
  denied       : Nat
  deriving DecidableEq, Repr

inductive StoreStep
  | erasing | programming (page : Nat) (k : Nat)
  deriving DecidableEq, Repr

/-- STORE_SETTINGS in progress (R176): the image copied at the start, the step, and whether a FAIL has sent it back. -/
structure StoreOp where
  port   : PortId
  image  : List Byte
  step   : StoreStep
  failed : Bool
  deriving DecidableEq, Repr

/-- A restart that has been answered OK (R177); `sent` once its reply has been transmitted. -/
structure RestartOp where
  port  : PortId
  force : Bool
  sent  : Bool
  deriving DecidableEq, Repr

structure Link where
  ports    : Vector Port 3
  svcStrap : Bool
  store    : Option StoreOp
  restart  : Option RestartOp
  deriving DecidableEq, Repr

/-- Levels on the input pins, outside the part and kept when it has no power. -/
structure Pins where
  raw   : BitVec 16
  sync  : BitVec 4
  pfail : Bool
  deriving DecidableEq, Repr

end Sys2Proof.Machine
end

