-- ==== Sys2Proof/Machine/Defaults.lean ====
section
/-! DEFINITION. Sys2Proof/Machine/Defaults.lean: the default settings and plan, and what each block holds after power-on. -/

namespace Sys2Proof.Machine

/-- Defaults of a term's definition (1.2). -/
def TermDef.initial : TermDef :=
  { mask := 0, polarity := 0, source := .level, combine := .any, rearm := 0, startArmed := false }

/-- Defaults of a stream channel's settings (3.6). -/
def StreamCfg.initial : StreamCfg := { enabled := false, mode := .single, wordLen := 32, packing := false }

/-- Defaults of a reach window (4.2). -/
def Window.initial : Window := { enabled := false, space := .config, base := 0, limit := 0, permit := .deny }

/-- Defaults of a fetch channel's settings (R56). -/
def FetchCfg.initial : FetchCfg :=
  { enabled := false, timeout := 10, retries := 1, windows := Vector.replicate 4 Window.initial }

/-- Defaults of the working settings (11.7). -/
def Settings.initial : Settings :=
  { filterWidth := Vector.replicate 16 8
    terms := Vector.replicate 8 TermDef.initial
    hostHoldoff := 300
    preCount := 256
    postCount := 64
    stream := Vector.replicate 4 StreamCfg.initial
    fetch := Vector.replicate 4 FetchCfg.initial
    retainTime := 60
    cuf := 2200
    vmin := 9000
    eff := 70
    epage := 500
    debounce := 100
    lineRate := Vector.replicate 3 115200
    noticeMask := 0xFF }

/-- The bit numbers of the trigger sources (1.3). -/
def sourcePower : Nat := 8
def sourceHost : Nat := 9
def sourceManual : Nat := 10

/-- The default plan entry (R66). -/
def PlanEntry.initial : PlanEntry :=
  { enabled := false, kind := .history, cls := .extended, order := 255, trig := 0x400, chan := none, space := none
    base := none, limit := 4096, quiet := none, window := none, retain := none }

/-- The default plan (R66, R67, R77). -/
def Plan.initial : Plan := { entries := Vector.replicate 48 PlanEntry.initial, pageCap := 1920, revision := 0 }

/-- A term entering its start state (R16): qualified when ARMED. -/
def Term.start (d : TermDef) : Term :=
  { state := if d.startArmed then .armed else .disabled, qualified := d.startArmed, assoc := none, rearmAt := none, fires := 0 }

/-- The Trigger Unit after power-on and RESTART (R16), with the raw levels at the first sample. -/
def TrigUnit.start (raw : BitVec 16) (s : Settings) : TrigUnit :=
  { filtered := raw, cands := Vector.replicate 16 none, latches := 0, terms := Vector.ofFn fun i => Term.start s.terms[i]
    hostTimer := none, hostRefusals := 0, indicators := 0 }

/-- A stream channel with everything discarded and its counters zero (R46, R47). -/
def StreamChan.start (rx : RxState) (claim : Option Claim) : StreamChan :=
  { rx := rx, assembly := none, fifo := [], pendDrops := 0, claim := claim, noticed := 0, received := 0, taken := 0
    aged := 0, overrun := 0, syncErrors := 0, truncated := 0 }

/-- The receiver state that enabling a channel leaves (R46). -/
def rxEnabled (enabled sync : Bool) : RxState :=
  if enabled then (if sync then .waitRelease else .idle) else .disabled

/-- A fetch channel after a channel reset (R64, R65). An answer partly received is discarded and the channel hunts: the model's
choice, since neither rule names the receiver's position (log 48). -/
def FetchChan.start (enabled : Bool) : FetchChan :=
  { state := if enabled then .idle else .disabled, rx := none, region := none, txn := none, piece := none, nextTag := 0, failures := 0
    silent := none, transactions := 0, attempts := 0, timeouts := 0, naks := 0, failed := 0, abandoned := 0, stale := 0
    badAnswers := 0, silents := 0, bytesRead := 0 }

def Buf.initial : Buf :=
  { state := .empty, cap := 0, page := 0, start := 0, bytes := [], part := false, accepted := false, isHead := false
    retried := false, flush := false }

/-- The Capture Engine after power-on and RESTART (R105). -/
def Engine.initial : Engine :=
  { state := .idle, phase := .rest, capture := none, retain := 0, retainCount := Vector.replicate 8 0
    retainTimer := .stopped, bufs := Vector.replicate 4 Buf.initial, notes := [], pendingPower := false, cause := .none
    stall := false, refFull := 0, refNumbers := 0, refPower := 0, refErasing := 0 }

/-- The Holdup Monitor after power-on and RESTART, before it looks at PFAIL (R119). -/
def Monitor.initial : Monitor :=
  { state := .normal, lastVh := 0, lastVhTime := 0, entry := 0, remaining := 0, programs := 0, sinceVh := 0
    debounceAt := none, episodes := 0, exhaustOn := false }

/-- The Store Controller's working state before replay rebuilds it (R134, log 7). -/
def StoreCtl.initial : StoreCtl :=
  { blocks := Vector.replicate 60 .free, retPages := [], retBlocks := [], unjournaled := [], queue := [], flight := none }

def Compaction.initial : Compaction :=
  { state := .none, all := false, eraseQueued := false, held := false, paused := false, last := 0, count := 0 }

/-- The Directory Manager's working state before replay rebuilds it (log 7). -/
def Directory.initial : Directory :=
  { slots := Vector.replicate 32 .free, sections := [], map := [], active := 0, gen := 0, nextSlot := 0, nextSeq := 0
    lastCap := 0, slotted := [], comp := Compaction.initial, pending := [], taken := 0, torn := 0, reclaim := none
    eraseAll := none, trailers := [] }

/-- The Integrity Unit after power-on and RESTART (R165). -/
def Integrity.initial : Integrity :=
  { scrub := [], reloc := none, nextPool := 0, poolErase := .none, error := none, overflow := false, corrected := 0
    poisoned := 0, correctedAhead := 0, programFail := 0, eraseFail := 0, torn := 0, scrubDropped := 0 }

def Pad.initial : Pad := { target := none, text := [], pf := false, locked := false, aa := false }

/-- A port after power-on and RESTART, with RESTARTED alone among its notice flags (chapter 11). -/
def Port.initial (rate : Nat) : Port :=
  { rx := none, service := none, tx := [], notices := 0x80, pad := Pad.initial, ahead := none, rate := rate
    requests := 0, lineErrors := 0, interbyte := 0, lengthErrors := 0, crcErrors := 0, busyReplies := 0, denied := 0 }

/-- The Link Interface after power-on and RESTART; the debounced strap level is kept by RESTART (R166). -/
def Link.start (s : Settings) (strap : Bool) : Link :=
  { ports := Vector.ofFn fun i => Port.initial s.lineRate[i], svcStrap := strap, store := none, restart := none }

def Ring.empty : Ring := { records := [], counter := 0, pin := none, lost := 0 }

def Flash.erased : Flash := { data := [], check := [] }

/-- All input levels at rest: fault lines low, SYNC and PFAIL released (log 7). -/
def Pins.atRest : Pins := { raw := 0, sync := 0, pfail := false }

end Sys2Proof.Machine
end

