-- ==== Sys2Proof/Machine/State.lean ====
section
/-! DEFINITION. Sys2Proof/Machine/State.lean: the whole state of the part, as plain data, and the state after power-on. -/

namespace Sys2Proof.Machine

/-- The part: the queue of waiting commands (the model's own field), power, times, pins, and one field for each block. -/
structure State where
  pending    : List Instr
  powered    : Bool
  ready      : Bool
  time       : PartTime
  epoch      : BitVec 64
  epochValid : Bool
  pins       : Pins
  settings   : Settings
  plan       : Plan
  trig       : TrigUnit
  ring       : Ring
  streams    : Vector StreamChan 4
  fetches    : Vector FetchChan 4
  engine     : Engine
  monitor    : Monitor
  store      : StoreCtl
  flash      : Flash
  dir        : Directory
  integ      : Integrity
  link       : Link
  deriving DecidableEq, Repr

/-- The part raises no fault: every command has an effect or leaves the state unchanged, and a request that is not
carried out is answered with a status. So no constructor stands here. -/
inductive Fault
  deriving DecidableEq, Repr

/-- The reasons for which a command has no meaning. -/
inductive Refusal
  /-- Raised by `exec` alone, for a command whose meaning is not written yet; safe. -/
  | notModelled (mnemonic : String)
  deriving DecidableEq, Repr

/-- The two records the ring holds right after power-on with an erased store: RESTARTED with cause POWER_ON (R31) and
SETTINGS_LOST with cause ERASED (R176). -/
def resetRecords : List EventRec :=
  [{ seq := 0, time := 0, origin := .ring, kind := 0x20, args := [0] },
   { seq := 1, time := 0, origin := .store, kind := 0x1F, args := [1] }]

/-- The part right after power-on with its store erased and every input at rest (R176, log 7): STARTING, the defaults
loaded, SETTINGS_LOST noticed beside RESTARTED. -/
def State.reset : State :=
  { pending := []
    powered := true
    ready := false
    time := 0
    epoch := 0
    epochValid := false
    pins := Pins.atRest
    settings := Settings.initial
    plan := Plan.initial
    trig := TrigUnit.start 0 Settings.initial
    ring := { records := resetRecords, counter := 2, pin := none, lost := 0 }
    streams := Vector.replicate 4 (StreamChan.start .disabled none)
    fetches := Vector.replicate 4 (FetchChan.start false)
    engine := Engine.initial
    monitor := Monitor.initial
    store := StoreCtl.initial
    flash := Flash.erased
    dir := Directory.initial
    integ := Integrity.initial
    link :=
      { ports := Vector.replicate 3 { Port.initial 115200 with notices := 0xC0 }
        svcStrap := false, store := none, restart := none } }

end Sys2Proof.Machine
end

