-- ==== Sys2Proof/Machine/Codes.lean ====
section
/-! DEFINITION. Sys2Proof/Machine/Codes.lean: the codes of the named values (12.1, 12.2, R18) and, where those give none, the
positions of R182 (log 10). -/

namespace Sys2Proof.Machine

/-! ## Request kinds and access levels (12.1, 11.4) -/

def kIdentify : Byte := 0x01
def kStatus : Byte := 0x02
def kAckRestart : Byte := 0x03
def kRestart : Byte := 0x04
def kReadSettings : Byte := 0x05
def kWriteSettings : Byte := 0x06
def kStoreSettings : Byte := 0x07
def kSetTime : Byte := 0x08
def kPostEvent : Byte := 0x09
def kReadEvents : Byte := 0x0A
def kPanicNote : Byte := 0x0B
def kCapture : Byte := 0x0C
def kAbortCapture : Byte := 0x0D
def kReadLines : Byte := 0x0E
def kClearLatches : Byte := 0x0F
def kArm : Byte := 0x10
def kDisarm : Byte := 0x11
def kDriveIndicators : Byte := 0x12
def kReadPlan : Byte := 0x13
def kWritePlan : Byte := 0x14
def kProbeReach : Byte := 0x15
def kListCaptures : Byte := 0x16
def kReadCapture : Byte := 0x17
def kReadHead : Byte := 0x18
def kReadSection : Byte := 0x19
def kReadErrors : Byte := 0x1A
def kAckErrors : Byte := 0x1B
def kHold : Byte := 0x1C
def kRelease : Byte := 0x1D
def kDelete : Byte := 0x1E
def kStageNote : Byte := 0x1F
def kCommitNote : Byte := 0x20
def kEraseAll : Byte := 0x21

/-- The levels that admit a request (11.4), as `[HOST, VIEWER, MANAGER, TECHNICIAN]`; none for a kind that names no request. -/
def admission (kind : Byte) : Option (List Bool) :=
  match kind.toNat with
  | 0x01 | 0x02 => some [true, true, true, true]
  | 0x03 | 0x04 | 0x06 | 0x07 => some [false, false, true, true]
  | 0x05 | 0x0A | 0x0E | 0x13 | 0x16 | 0x17 | 0x18 | 0x19 | 0x1A => some [false, true, true, true]
  | 0x08 => some [false, false, true, false]
  | 0x09 | 0x0C => some [true, false, true, true]
  | 0x0B => some [true, false, false, false]
  | 0x0D | 0x0F | 0x10 | 0x11 | 0x12 | 0x14 | 0x15 | 0x1B | 0x1C | 0x1D | 0x1E | 0x1F | 0x20 =>
    some [false, false, true, true]
  | 0x21 => some [false, false, false, true]
  | _ => none

/-- The code of an access level, by the order of the rows of 11.4 (log 10). -/
def Level.code : Level → Nat
  | .host => 0 | .viewer => 1 | .manager => 2 | .technician => 3

/-- A kind is admitted at a level. -/
def admits (kind : Byte) (l : Level) : Bool :=
  match admission kind with
  | none => false
  | some row => row.getD l.code false

def Status.code : Status → Byte
  | .ok => 0x00 | .busy => 0x01 | .denied => 0x02 | .unknownKind => 0x03 | .badLength => 0x04 | .badValue => 0x05
  | .notFound => 0x06 | .gone => 0x07 | .inProgress => 0x08 | .refusedState => 0x09 | .held => 0x0A
  | .authMismatch => 0x0B | .full => 0x0C | .holdup => 0x0D | .starting => 0x0E

def portIndex : PortId → Fin 3
  | .host => 0 | .management => 1 | .service => 2

def Notice.bit : Notice → Nat
  | .captureOpened => 0 | .captureClosed => 1 | .holdupEntered => 2 | .errorCaptured => 3 | .streamOverrun => 4
  | .accessDenied => 5 | .settingsLost => 6 | .restarted => 7

/-! ## Events (R18) -/

def evTermFired : Byte := 0x01
def evTriggerJoined : Byte := 0x02
def evTriggerRefused : Byte := 0x03
def evCaptureOpened : Byte := 0x04
def evSectionBegun : Byte := 0x05
def evSectionDone : Byte := 0x06
def evCaptureClosed : Byte := 0x07
def evRetainAsserted : Byte := 0x08
def evRetainReleased : Byte := 0x09
def evRetainLapsed : Byte := 0x0A
def evStreamOverrun : Byte := 0x0B
def evFrameSyncError : Byte := 0x0C
def evFetchSilent : Byte := 0x0D
def evHoldupEntered : Byte := 0x0E
def evHoldupResampled : Byte := 0x0F
def evHoldupExhausted : Byte := 0x10
def evPowerRestored : Byte := 0x11
def evPageRetired : Byte := 0x12
def evBlockRetired : Byte := 0x13
def evErrorCorrected : Byte := 0x14
def evErrorPoisoned : Byte := 0x15
def evScrubDone : Byte := 0x16
def evScrubDropped : Byte := 0x17
def evReclaimed : Byte := 0x18
def evHoldSet : Byte := 0x19
def evHoldReleased : Byte := 0x1A
def evDeleted : Byte := 0x1B
def evAnnotated : Byte := 0x1C
def evAccessDenied : Byte := 0x1D
def evSettingsStored : Byte := 0x1E
def evSettingsLost : Byte := 0x1F
def evRestarted : Byte := 0x20
def evJournalCompacted : Byte := 0x21
def evTimeSet : Byte := 0x22
def evPanicNoteTaken : Byte := 0x23
def evEventsLost : Byte := 0x24

/-- The origin byte: class in the high four bits, index in the low four (12.2). -/
def Origin.code : Origin → Byte
  | .term n => BitVec.ofNat 8 (0x10 + n.val)
  | .stream n => BitVec.ofNat 8 (0x20 + n.val)
  | .fetch n => BitVec.ofNat 8 (0x30 + n.val)
  | .port p => BitVec.ofNat 8 (0x40 + (portIndex p).val)
  | .engine => 0x50 | .holdup => 0x60 | .store => 0x70 | .directory => 0x80 | .integrity => 0x90 | .ring => 0xA0

/-! ## Codes of 12.2 -/

def OutcomeCode.code : OutcomeCode → Byte
  | .complete => 0x00 | .limited => 0x01 | .sourceSilent => 0x02 | .deniedAll => 0x03 | .storeFault => 0x04
  | .aborted => 0x05 | .skippedSpace => 0x06 | .skippedBudget => 0x07 | .skippedPower => 0x08 | .skippedAbort => 0x09
  | .partialDone => 0x10 | .truncatedPower => 0x11 | .truncatedSpace => 0x12 | .truncatedBudget => 0x13
  | .inProgress => 0x20 | .interrupted => 0x21

def outcomeOfCode (b : Byte) : Option OutcomeCode :=
  match b.toNat with
  | 0x00 => some .complete | 0x01 => some .limited | 0x02 => some .sourceSilent | 0x03 => some .deniedAll
  | 0x04 => some .storeFault | 0x05 => some .aborted | 0x06 => some .skippedSpace | 0x07 => some .skippedBudget
  | 0x08 => some .skippedPower | 0x09 => some .skippedAbort | 0x10 => some .partialDone | 0x11 => some .truncatedPower
  | 0x12 => some .truncatedSpace | 0x13 => some .truncatedBudget | 0x20 => some .inProgress | 0x21 => some .interrupted
  | _ => none

def Refuse.code : Refuse → Nat
  | .holdoff => 0 | .full => 1 | .numbers => 2 | .power => 3 | .erasing => 4

def ErrKind.code : ErrKind → Byte
  | .corrected => 0 | .poisoned => 1 | .programFail => 2 | .eraseFail => 3 | .journalTorn => 4

def Operation.code : Operation → Byte
  | .retrieve => 0 | .replay => 1 | .relocate => 2 | .verify => 3 | .settings => 4

def CapState.code : CapState → Byte
  | .opening => 0 | .gathering => 1 | .closing => 2 | .closed => 3 | .interrupted => 4

def DeleteReason.code : DeleteReason → Byte
  | .delete => 0 | .reclaim => 1 | .eraseAll => 2

def RetireCause.code : RetireCause → Byte
  | .programFail => 0 | .eraseFail => 1

def GapReason.code : GapReason → Byte
  | .denied => 1 | .unreadable => 2 | .overrun => 3

def SecKind.code : SecKind → Byte
  | .stream => 0 | .fetch => 1 | .history => 2 | .note => 3

def secKindOfCode (b : Byte) : Option SecKind :=
  match b.toNat with
  | 0 => some .stream | 1 => some .fetch | 2 => some .history | 3 => some .note | _ => none

def SecClass.code : SecClass → Byte
  | .critical => 0 | .essential => 1 | .extended => 2

def secClassOfCode (b : Byte) : Option SecClass :=
  match b.toNat with
  | 0 => some .critical | 1 => some .essential | 2 => some .extended | _ => none

def Space.code : Space → Byte
  | .config => 0 | .errbank => 1 | .trace => 2 | .mailbox => 3

def spaceOfCode (n : Nat) : Option Space :=
  match n with
  | 0 => some .config | 1 => some .errbank | 2 => some .trace | 3 => some .mailbox | _ => none

/-! ## Positions (R182, log 10) -/

def TermState.code : TermState → Byte
  | .disabled => 0 | .armed => 1 | .fired => 2

def RxState.code : RxState → Byte
  | .disabled => 0 | .idle => 1 | .receiving => 2 | .waitRelease => 3

def FetchState.code : FetchState → Byte
  | .disabled => 0 | .idle => 1 | .asking => 2 | .delivering => 3

def EngState.code : EngState → Byte
  | .idle => 0 | .opening => 1 | .gathering => 2 | .closing => 3 | .erasing => 4

def MonState.code : MonState → Byte
  | .normal => 0 | .holdup => 1 | .exhausted => 2 | .recovering => 3

def BufState.code : BufState → Byte
  | .empty => 0 | .filling => 1 | .queued => 2 | .programming => 3

def CloseCause.code : CloseCause → Byte
  | .none => 0 | .space => 1 | .budget => 2 | .power => 3 | .abort => 4

def CompState.code : CompState → Byte
  | .none => 0 | .clearing => 1 | .writing => 2

def PoolErase.code : PoolErase → Byte
  | .none => 0 | .queued => 1 | .erasing => 2

/-- READ or DENY, in the order of the table of 4.2. -/
def Permit.code : Permit → Byte
  | .read => 0 | .deny => 1

/-- Producers of the program queue, in the order of the table of 8.4. -/
def Programmer.producer : Programmer → Byte
  | .buf _ => 0 | .journal => 1 | .relocation => 3 | .commit _ => 4 | .settings => 5

def Eraser.producer : Eraser → Byte
  | .journal => 1 | .area => 2 | .pool => 3 | .settings => 5

end Sys2Proof.Machine
end

