-- ==== Sys2Proof/Machine/Ops.lean ====
section
/-! DEFINITION. Sys2Proof/Machine/Ops.lean: the named operations over the parts of the state: updating one block, a port,
a channel, a buffer; forming a reply and answering the request in service (R169). -/

namespace Sys2Proof.Machine

/-! ## One block at a time -/

def State.onTrig (f : TrigUnit → TrigUnit) (s : State) : State := { s with trig := f s.trig }
def State.onRing (f : Ring → Ring) (s : State) : State := { s with ring := f s.ring }
def State.onEngine (f : Engine → Engine) (s : State) : State := { s with engine := f s.engine }
def State.onMonitor (f : Monitor → Monitor) (s : State) : State := { s with monitor := f s.monitor }
def State.onStore (f : StoreCtl → StoreCtl) (s : State) : State := { s with store := f s.store }
def State.onFlash (f : Flash → Flash) (s : State) : State := { s with flash := f s.flash }
def State.onDir (f : Directory → Directory) (s : State) : State := { s with dir := f s.dir }
def State.onInteg (f : Integrity → Integrity) (s : State) : State := { s with integ := f s.integ }
def State.onLink (f : Link → Link) (s : State) : State := { s with link := f s.link }
def State.onPins (f : Pins → Pins) (s : State) : State := { s with pins := f s.pins }

/-- `f` on the blocks alone: the queue, power, the controller state, the clock, the pins, the working settings and plan and
the contents of the dump store are those of `s`, whatever `f` answers for them. -/
def keeping (f : State → State) (s : State) : State :=
  { f s with
    pending := s.pending, powered := s.powered, ready := s.ready, time := s.time, epoch := s.epoch
    epochValid := s.epochValid, pins := s.pins, settings := s.settings, plan := s.plan, flash := s.flash }

/-- `f` on the blocks and on what `take` takes of its answer beside them. -/
def keepingBut (take : State → State → State) (f : State → State) (s : State) : State := take (f s) (keeping f s)

def takeEpoch (t s : State) : State := { s with epoch := t.epoch, epochValid := t.epochValid }
def takeWorking (t s : State) : State := { s with settings := t.settings, plan := t.plan }
def takeFlash (t s : State) : State := { s with flash := t.flash }
def takeReady (t s : State) : State := { s with ready := t.ready }

/-- A command of a part with power, whose effect is on the blocks; a part without power has none (log 5). -/
def whenPowered (f : State → State) (s : State) : State := if s.powered then keeping f s else s

/-- A command of a part with power, whose effect goes beyond the blocks by what `take` takes (log 5). -/
def whenPoweredBut (take : State → State → State) (f : State → State) (s : State) : State :=
  if s.powered then keepingBut take f s else s

/-- One after the other. -/
def chain (fs : List (State → State)) (s : State) : State := fs.foldl (fun t f => f t) s

/-- `f` for every element of a list, in its order. -/
def forEach {α : Type} (xs : List α) (f : α → State → State) (s : State) : State := xs.foldl (fun t x => f x t) s

/-! ## Ports -/

def State.port (s : State) (p : PortId) : Port := s.link.ports[portIndex p]

def State.onPort (p : PortId) (f : Port → Port) (s : State) : State :=
  s.onLink fun l => { l with ports := vmod l.ports (portIndex p) f }

def allPorts : List PortId := [.host, .management, .service]

/-- The access level of a port now (R168 step 4). -/
def portLevel (p : PortId) (s : State) : Level :=
  match p with
  | .host => .host
  | .management => .manager
  | .service => if s.link.svcStrap then .technician else .viewer

/-- A reply frame's contents: the kind of its request plus 0x80, the tag, then status, flags byte and fields (R169). -/
def mkReply (kind tag : Byte) (st : Status) (clamped : Bool) (fields : List Byte) : Reply :=
  { kind := kind + 0x80, tag := tag, payload := st.code :: markByte clamped :: fields, restarts := false }

/-- The bytes of a reply frame (12.1). -/
def Reply.frame (r : Reply) : List Byte :=
  0xD3 :: withCrc (leBytes 2 (r.payload.length + 2) ++ [r.kind, r.tag] ++ r.payload)

/-- The port's request in service is answered: the reply joins the frames awaiting transmission and the request in service
becomes none (R169). Nothing is answered where no request is in service. -/
def answer (p : PortId) (st : Status) (clamped : Bool) (fields : List Byte) (s : State) : State :=
  s.onPort p fun q =>
    match q.service with
    | none => q
    | some r => { q with service := none, tx := q.tx ++ [mkReply r.kind r.tag st clamped fields] }

/-- Answered with the status alone (R169). -/
def refuse (p : PortId) (st : Status) (s : State) : State := answer p st false [] s

/-- The kind of the request in service of a port. -/
def serviceKind (p : PortId) (s : State) : Option Byte := (s.port p).service.map fun r => r.kind

/-- What the request in service of a port waits for. -/
def waitOf (p : PortId) (s : State) : Wait :=
  match (s.port p).service with
  | none => .none
  | some r => r.wait

/-- The request in service of a port waits (R168). -/
def setWait (p : PortId) (w : Wait) (s : State) : State :=
  s.onPort p fun q => { q with service := q.service.map fun r => { r with wait := w } }

/-! ## Channels, buffers and the capture in progress -/

def State.onStream (i : Fin 4) (f : StreamChan → StreamChan) (s : State) : State :=
  { s with streams := vmod s.streams i f }

def State.onFetch (i : Fin 4) (f : FetchChan → FetchChan) (s : State) : State :=
  { s with fetches := vmod s.fetches i f }

def State.onBuf (i : Fin 4) (f : Buf → Buf) (s : State) : State :=
  s.onEngine fun e => { e with bufs := vmod e.bufs i f }

def State.onCapture (f : Capture → Capture) (s : State) : State :=
  s.onEngine fun e => { e with capture := e.capture.map f }

def State.onSection (f : Section → Section) (s : State) : State :=
  s.onCapture fun c => { c with current := c.current.map f }

def setPhase (ph : Phase) (s : State) : State := s.onEngine fun e => { e with phase := ph }

def setEngState (es : EngState) (s : State) : State := s.onEngine fun e => { e with state := es }

/-- A capture is in progress (R78). -/
def inProgress (s : State) : Bool :=
  match s.engine.state with
  | .opening | .gathering | .closing => true
  | .idle | .erasing => false

/-- The number of the capture in progress, or 0. -/
def captureNumber (s : State) : Nat :=
  if inProgress s then (match s.engine.capture with | some c => c.number | none => 0) else 0

def isNormal (s : State) : Bool := s.monitor.state = .normal

end Sys2Proof.Machine
end

