-- ==== Sys2Proof/Machine/Flags.lean ====
section
/-! DEFINITION. Sys2Proof/Machine/Flags.lean: the notice flags of the three ports and the ATTN output (R170). -/

namespace Sys2Proof.Machine

/-- A notice flag is raised: set in all three ports' copies (R170). -/
def raise (n : Notice) (s : State) : State :=
  s.onLink fun l => { l with ports := vmap (fun q => { q with notices := setBit q.notices n.bit true }) l.ports }

/-- A STATUS has taken a port's copy: all of it is cleared except RESTARTED (R171). -/
def clearNotices (p : PortId) (s : State) : State :=
  s.onPort p fun q => { q with notices := q.notices &&& BitVec.twoPow 8 Notice.restarted.bit }

/-- ACK_RESTART: RESTARTED is cleared in all three copies (R170). -/
def clearRestarted (s : State) : State :=
  s.onLink fun l =>
    { l with ports := vmap (fun q => { q with notices := setBit q.notices Notice.restarted.bit false }) l.ports }

/-- ATTN is high while the management link's copy holds a flag that the mask enables (R170). -/
def attn (s : State) : Bool := s.powered && ((s.port .management).notices &&& s.settings.noticeMask) ≠ 0

/-- A port's copy as a field of a reply: a set in two bytes (R182). -/
def noticeField (p : PortId) (s : State) : List Byte := leBits 2 (s.port p).notices

end Sys2Proof.Machine
end

