-- ==== Sys2Proof/Machine/Layouts.lean ====
section
/-! DEFINITION. Sys2Proof/Machine/Layouts.lean: the byte layouts of chapter 12: event, stream, section, head page and journal
records, and the 21-byte plan entry of 5.2. -/

namespace Sys2Proof.Machine

/-- An absent one-byte field (R182, 12.2). -/
def absent : Byte := 0xFF

/-- The event record, 25 bytes (12.2). -/
def EventRec.bytes (e : EventRec) : List Byte :=
  leBits 4 e.seq ++ leBits 6 e.time ++ [e.origin.code, e.kind, BitVec.ofNat 8 e.args.length] ++
    padTo 0 12 (e.args.flatMap fun a => leBits 4 a)

/-- The size of a stream record (R38). -/
def StreamRec.size (r : StreamRec) : Nat := 12 + 4 * r.containers.length

/-- The stream record (12.2). -/
def StreamRec.bytes (r : StreamRec) : List Byte :=
  let flags := (if r.syncError then 1 else 0) + (if r.truncated then 2 else 0) + (if r.packed then 4 else 0) +
    (if r.paired then 8 else 0)
  leBits 4 r.arrival ++ leBytes 2 r.wordCount ++ leBytes 2 r.dropsBefore ++
    [BitVec.ofNat 8 flags, BitVec.ofNat 8 r.channel.val] ++ leBytes 2 r.frameCount ++
    r.containers.flatMap fun c => leBits 4 c

/-- An optional index or code in one byte, 0xFF when absent. -/
def optByte (o : Option Nat) : Byte :=
  match o with
  | some n => BitVec.ofNat 8 n
  | none => absent

def chanByte (o : Option (Fin 4)) : Byte := optByte (o.map fun c => c.val)

def spaceByte (o : Option Space) : Byte :=
  match o with
  | some sp => sp.code
  | none => absent

/-- The section header, 32 bytes (12.2). -/
def sectionHeader (index : Nat) (entryIdx : Nat) (e : PlanEntry) (start : PartTime) (cap : Nat) : List Byte :=
  [BitVec.ofNat 8 index, BitVec.ofNat 8 entryIdx, e.kind.code, e.cls.code, chanByte e.chan, spaceByte e.space, 0, 0] ++
    leBytes 4 (e.base.getD 0) ++ leBytes 4 e.limit ++ leBits 6 start ++ leBytes 4 cap ++ List.replicate 6 0

/-- The gaps a trailer lists (R85). -/
def gapsListed (gapCount : Nat) : Nat := min 16 gapCount

/-- The size of a trailer (R85). -/
def trailerSize (gapCount : Nat) : Nat := 16 + 8 * gapsListed gapCount

/-- The trailer (12.2). -/
def trailerBytes (o : OutcomeCode) (lapsed : Bool) (len records : Nat) (gaps : List Gap) : List Byte :=
  [o.code, markByte lapsed, BitVec.ofNat 8 (gapsListed gaps.length), 0] ++ leBytes 4 len ++ leBytes 4 records ++
    leBytes 4 gaps.length ++
    (gaps.take 16).flatMap fun g => leBytes 4 g.offset ++ leBytes 3 g.len ++ [g.reason.code]

/-- The identity block of the head page, 32 bytes (12.2). -/
def identityBlock (cap : Nat) (trig : TrigSet) (first : Nat) (openTime : PartTime) (epoch : Option (BitVec 64)) :
    List Byte :=
  leBytes 4 cap ++ leBits 2 trig ++ [BitVec.ofNat 8 first, markByte epoch.isSome] ++ leBits 6 openTime ++
    leBits 8 (epoch.getD 0) ++ List.replicate 10 0

/-- A NOTE item: 6 bytes of part time, 2 of text length, the text (R91). -/
def Note.item (n : Note) : List Byte := leBits 6 n.time ++ leBytes 2 n.text.length ++ n.text

/-! ## Plan entries (5.2) -/

def PlanEntry.bytes (e : PlanEntry) : List Byte :=
  [markByte e.enabled, e.kind.code, e.cls.code, BitVec.ofNat 8 e.order] ++ leBits 2 e.trig ++
    [chanByte e.chan, spaceByte e.space] ++ leBytes 4 (e.base.getD 0) ++ leBytes 4 e.limit ++
    leBytes 2 (e.quiet.getD 0) ++ leBytes 2 (e.window.getD 0) ++ [optByte (e.retain.map fun k => k.val)]

def finOf (n v : Nat) : Option (Fin n) := if h : v < n then some ⟨v, h⟩ else none

/-- The checks of R68 on the 21 bytes of an entry; the fields as carried, those the kind does not use absent (R70). -/
def parseEntry (bs : List Byte) : Option PlanEntry :=
  let code := fun i => bs.getD i 0
  let chan := (code 6).toNat
  match secKindOfCode (code 1), secClassOfCode (code 2) with
  | some kind, some cls =>
    let usesChan := kind = .stream || kind = .fetch
    let trig := BitVec.ofNat 11 (fieldAt bs 4 2)
    if 1 < (code 0).toNat then none
    else if usesChan && 4 ≤ chan then none
    else if !usesChan && chan ≠ 0xFF then none
    else if kind = .fetch && (spaceOfCode (code 7).toNat).isNone then none
    else if 8 ≤ (code 20).toNat && code 20 ≠ absent then none
    else if trig = 0 then none
    else some
      { enabled := code 0 = 1, kind := kind, cls := cls, order := (code 3).toNat, trig := trig
        chan := if usesChan then finOf 4 chan else none
        space := if kind = .fetch then spaceOfCode (code 7).toNat else none
        base := if kind = .fetch then some (fieldAt bs 8 4) else none
        limit := fieldAt bs 12 4
        quiet := if kind = .stream then some (fieldAt bs 16 2) else none
        window := if kind = .stream then some (fieldAt bs 18 2) else none
        retain := finOf 8 (code 20).toNat }
  | _, _ => none

/-! ## Journal records (12.3) -/

def headByte (h : Option Nat) : Byte := optByte h

/-- A head page's byte: a value other than 0, 1 and 128 reads as absent (log 58). -/
def headOfByte (b : Byte) : Option Nat := if b = 0 then some 0 else if b = 1 then some 1 else if b = 128 then some 128 else none

def outcomeByte (o : Option OutcomeCode) : Byte :=
  match o with
  | some c => c.code
  | none => absent

/-- The type code of a journal record. -/
def JRec.code : JRec → Byte
  | .captureOpen .. => 0x01 | .blockAllot .. => 0x02 | .blockList .. => 0x03 | .sectionBegin .. => 0x04
  | .sectionDone .. => 0x05 | .captureClose .. => 0x06 | .captureSummary .. => 0x07 | .hold .. => 0x08
  | .release .. => 0x09 | .delete .. => 0x0A | .annotate .. => 0x0B | .relocate .. => 0x0C | .retirePage .. => 0x0D
  | .retireBlock .. => 0x0E | .checkpointBegin .. => 0x0F | .checkpointEnd .. => 0x10

/-- The fields of a journal record. -/
def JRec.fields : JRec → List Byte
  | .captureOpen cap trig first valid openTime epoch =>
    leBytes 4 cap ++ leBits 2 trig ++ [BitVec.ofNat 8 first, markByte valid] ++ leBits 6 openTime ++ leBits 8 epoch
  | .blockAllot cap block => leBytes 4 cap ++ leBytes 1 block
  | .blockList cap position blocks =>
    leBytes 4 cap ++ leBytes 1 position ++ leBytes 1 blocks.length ++ padTo 0 12 (blocks.map (BitVec.ofNat 8))
  | .sectionBegin cap index entry kind first start head =>
    leBytes 4 cap ++ leBytes 1 index ++ leBytes 1 entry ++ [kind.code] ++ leBytes 2 first ++ leBits 6 start ++
      [headByte head]
  | .sectionDone cap index entry kind outcome len first pages gaps head =>
    leBytes 4 cap ++ leBytes 1 index ++ leBytes 1 entry ++ [kind.code, outcome.code] ++ leBytes 4 len ++
      leBytes 2 first ++ leBytes 2 pages ++ leBytes 2 (min gaps 65535) ++ [headByte head]
  | .captureClose cap outcome closeTime trig head =>
    leBytes 4 cap ++ [outcome.code] ++ leBits 6 closeTime ++ leBits 2 trig ++ [headByte head]
  | .captureSummary cap closed outcome trig closeTime head held slots =>
    leBytes 4 cap ++ [if closed then 3 else 5, outcomeByte outcome] ++ leBits 2 trig ++ leBits 6 closeTime ++
      [headByte head, markByte held] ++ leBits 1 slots
  | .hold cap => leBytes 4 cap
  | .release cap => leBytes 4 cap
  | .delete cap reason => leBytes 4 cap ++ [reason.code]
  | .annotate cap slot len => leBytes 4 cap ++ leBytes 1 slot ++ leBytes 1 len
  | .relocate source pool poisoned => leBytes 2 source ++ leBytes 1 pool ++ leBits 8 poisoned
  | .retirePage pages => leBytes 1 pages.length ++ padTo 0 8 (pages.flatMap (leBytes 2))
  | .retireBlock block cause => leBytes 1 block ++ [cause.code]
  | .checkpointBegin gen last => leBits 4 gen ++ leBytes 4 last
  | .checkpointEnd gen count => leBits 4 gen ++ leBytes 2 count

/-- The 32 bytes of a journal slot (12.3, R180). -/
def slotBytes (seq : BitVec 32) (r : JRec) : List Byte :=
  withCrc ([r.code, 0] ++ leBits 4 seq ++ padTo 0 24 r.fields)

/-- The slot's CRC is good. -/
def slotGood (bs : List Byte) : Bool := bs.drop 30 = crcBytes (bs.take 30)

def slotSeq (bs : List Byte) : BitVec 32 := BitVec.ofNat 32 (fieldAt bs 2 4)

/-- The blocks, or page numbers, that a record lists. -/
def listAt (bs : List Byte) (i size n : Nat) : List Nat := (List.range n).map fun j => fieldAt bs (i + size * j) size

def areaBlock (b : Nat) : Bool := 4 ≤ b && b < 64

/-- The record in a slot with a good CRC; none where it has no effect: a type of 0x00 or above 0x10, or a page count, block count or
position out of its range (R180), and a block, page, entry, index, slot, source or code out of its range (log 58). -/
def parseSlot (bs : List Byte) : Option JRec :=
  let fs := (bs.drop 6).take 24
  let cap := fieldAt fs 0 4
  let at1 := fun i => fs.getD i 0
  match (bs.getD 0 0).toNat with
  | 0x01 =>
    if fieldAt fs 6 1 ≤ 10 then
      some (.captureOpen cap (BitVec.ofNat 11 (fieldAt fs 4 2)) (fieldAt fs 6 1) (at1 7 = 1)
        (BitVec.ofNat 48 (fieldAt fs 8 6)) (BitVec.ofNat 64 (fieldAt fs 14 8)))
    else none
  | 0x02 => if areaBlock (fieldAt fs 4 1) then some (.blockAllot cap (fieldAt fs 4 1)) else none
  | 0x03 =>
    let n := fieldAt fs 5 1
    let bl := listAt fs 6 1 n
    if 1 ≤ n && n ≤ 12 && fieldAt fs 4 1 + n ≤ 60 && bl.all areaBlock then some (.blockList cap (fieldAt fs 4 1) bl)
    else none
  | 0x04 =>
    match secKindOfCode (at1 6) with
    | some kind =>
      if fieldAt fs 4 1 < 48 && fieldAt fs 5 1 < 48 then
        some (.sectionBegin cap (fieldAt fs 4 1) (fieldAt fs 5 1) kind (fieldAt fs 7 2) (BitVec.ofNat 48 (fieldAt fs 9 6))
          (headOfByte (at1 15)))
      else none
    | none => none
  | 0x05 =>
    match secKindOfCode (at1 6), outcomeOfCode (at1 7) with
    | some kind, some o =>
      if fieldAt fs 4 1 < 48 && fieldAt fs 5 1 < 48 then
        some (.sectionDone cap (fieldAt fs 4 1) (fieldAt fs 5 1) kind o (fieldAt fs 8 4) (fieldAt fs 12 2) (fieldAt fs 14 2)
          (fieldAt fs 16 2) (headOfByte (at1 18)))
      else none
    | _, _ => none
  | 0x06 =>
    match outcomeOfCode (at1 4) with
    | some o =>
      some (.captureClose cap o (BitVec.ofNat 48 (fieldAt fs 5 6)) (BitVec.ofNat 11 (fieldAt fs 11 2)) (headOfByte (at1 13)))
    | none => none
  | 0x07 =>
    if at1 4 = 3 || at1 4 = 5 then
      some (.captureSummary cap (at1 4 = 3) (outcomeOfCode (at1 5)) (BitVec.ofNat 11 (fieldAt fs 6 2))
        (BitVec.ofNat 48 (fieldAt fs 8 6)) (headOfByte (at1 14)) (at1 15 = 1) (BitVec.ofNat 4 (fieldAt fs 16 1)))
    else none
  | 0x08 => some (.hold cap)
  | 0x09 => some (.release cap)
  | 0x0A =>
    match (at1 4).toNat with
    | 0 => some (.delete cap .delete)
    | 1 => some (.delete cap .reclaim)
    | 2 => some (.delete cap .eraseAll)
    | _ => none
  | 0x0B => if fieldAt fs 4 1 < 4 then some (.annotate cap (fieldAt fs 4 1) (fieldAt fs 5 1)) else none
  | 0x0C =>
    if areaBlock (fieldAt fs 0 2 / 128) && fieldAt fs 2 1 < 128 then
      some (.relocate (fieldAt fs 0 2) (fieldAt fs 2 1) (BitVec.ofNat 64 (fieldAt fs 3 8)))
    else none
  | 0x0D =>
    let n := fieldAt fs 0 1
    let ps := listAt fs 1 2 n
    if 1 ≤ n && n ≤ 4 && ps.all (fun p => p < 8192) then some (.retirePage ps) else none
  | 0x0E =>
    if areaBlock (fieldAt fs 0 1) && (at1 1 = 0 || at1 1 = 1) then
      some (.retireBlock (fieldAt fs 0 1) (if at1 1 = 0 then .programFail else .eraseFail))
    else none
  | 0x0F => some (.checkpointBegin (BitVec.ofNat 32 (fieldAt fs 0 4)) (fieldAt fs 4 4))
  | 0x10 => some (.checkpointEnd (BitVec.ofNat 32 (fieldAt fs 0 4)) (fieldAt fs 4 2))
  | _ => none

end Sys2Proof.Machine
end

