-- ==== Sys2Proof/Machine/Operands.lean ====
section
/-! DEFINITION. Sys2Proof/Machine/Operands.lean: what requests carry: settings items (11.7, R174), plan entries and their clamps
(R69), and the settings image (R176). -/

namespace Sys2Proof.Machine

/-! ## Vectors by number -/

def vgetD {α : Type} {n : Nat} (v : Vector α n) (i : Nat) (d : α) : α := if h : i < n then v[i] else d

def vmodNat {α : Type} {n : Nat} (v : Vector α n) (i : Nat) (f : α → α) : Vector α n :=
  if h : i < n then vmod v ⟨i, h⟩ f else v

/-! ## Settings items (11.7) -/

/-- How many indices an item code has; none for a code that is not in the table. -/
def itemCount (code : Nat) : Option Nat :=
  match code with
  | 1 => some 16
  | 2 | 3 | 4 | 5 | 6 | 7 => some 8
  | 8 | 9 | 10 => some 1
  | 11 | 12 | 13 | 14 | 15 | 16 | 17 => some 4
  | 18 | 19 | 20 | 21 | 22 => some 16
  | 23 | 24 | 25 | 26 | 27 | 28 => some 1
  | 29 => some 3
  | 30 => some 1
  | _ => none

def itemKnown (code index : Nat) : Bool :=
  match itemCount code with
  | some n => index < n
  | none => false

/-- Items 11 to 22 are the channel configuration items. -/
def isChannelItem (code : Nat) : Bool := 11 ≤ code && code ≤ 22

/-- The values that cannot be clamped are legal (R174 check 3, but for the shape of windows). -/
def itemLegal (code v : Nat) : Bool :=
  match code with
  | 4 | 5 | 7 | 11 | 12 | 14 | 15 | 18 | 22 => v ≤ 1
  | 19 => v ≤ 3
  | _ => true

def legalRates : List Nat := [9600, 19200, 38400, 57600, 115200, 230400, 460800, 921600]

def distanceTo (a b : Nat) : Nat := if a ≤ b then b - a else a - b

/-- The nearest legal rate, the higher of two at equal distance (R174). -/
def nearestRate (v : Nat) : Nat :=
  legalRates.foldl (fun best r => if distanceTo r v ≤ distanceTo best v then r else best) 9600

/-- The next legal word length above, or 32 (R45). -/
def clampWordLen (v : Nat) : Nat :=
  if v ≤ 8 then 8 else if v ≤ 12 then 12 else if v ≤ 16 then 16 else if v ≤ 20 then 20 else if v ≤ 24 then 24 else 32

/-- The value an item takes (R3, R9, R11, R23, R45, R56, R80, R108, R174). -/
def clampItem (code v : Nat) : Nat :=
  match code with
  | 1 => clampTo 1 255 v
  | 2 | 3 => v % 65536
  | 6 | 8 => min v 3600
  | 9 => clampTo 1 1024 v
  | 10 => min v 512
  | 13 => clampWordLen v
  | 16 => clampTo 1 1000 v
  | 17 => min v 3
  | 23 => clampTo 1 600 v
  | 24 => clampTo 100 65000 v
  | 25 => clampTo 3000 12000 v
  | 26 => clampTo 50 100 v
  | 27 => clampTo 1 4095 v
  | 28 => clampTo 10 1000 v
  | 29 => nearestRate v
  | 30 => v % 256
  | _ => v

def boolNat (b : Bool) : Nat := if b then 1 else 0

def Settings.term (s : Settings) (i : Nat) : TermDef := vgetD s.terms i TermDef.initial
def Settings.streamCfg (s : Settings) (i : Nat) : StreamCfg := vgetD s.stream i StreamCfg.initial
def Settings.fetchCfg (s : Settings) (i : Nat) : FetchCfg := vgetD s.fetch i FetchCfg.initial

/-- Window `i` of 11.7: 4 × channel + window. -/
def Settings.windowAt (s : Settings) (i : Nat) : Window := vgetD (s.fetchCfg (i / 4)).windows (i % 4) Window.initial

/-- An item's working value. -/
def Settings.item (s : Settings) (code i : Nat) : Nat :=
  match code with
  | 1 => vgetD s.filterWidth i 0
  | 2 => (s.term i).mask.toNat
  | 3 => (s.term i).polarity.toNat
  | 4 => match (s.term i).source with | .level => 0 | .latch => 1
  | 5 => match (s.term i).combine with | .any => 0 | .all => 1
  | 6 => (s.term i).rearm
  | 7 => boolNat (s.term i).startArmed
  | 8 => s.hostHoldoff
  | 9 => s.preCount
  | 10 => s.postCount
  | 11 => boolNat (s.streamCfg i).enabled
  | 12 => match (s.streamCfg i).mode with | .single => 0 | .paired => 1
  | 13 => (s.streamCfg i).wordLen
  | 14 => boolNat (s.streamCfg i).packing
  | 15 => boolNat (s.fetchCfg i).enabled
  | 16 => (s.fetchCfg i).timeout
  | 17 => (s.fetchCfg i).retries
  | 18 => boolNat (s.windowAt i).enabled
  | 19 => (s.windowAt i).space.code.toNat
  | 20 => (s.windowAt i).base
  | 21 => (s.windowAt i).limit
  | 22 => match (s.windowAt i).permit with | .deny => 0 | .read => 1
  | 23 => s.retainTime
  | 24 => s.cuf
  | 25 => s.vmin
  | 26 => s.eff
  | 27 => s.epage
  | 28 => s.debounce
  | 29 => vgetD s.lineRate i 0
  | 30 => s.noticeMask.toNat
  | _ => 0

def Settings.onTerm (i : Nat) (f : TermDef → TermDef) (s : Settings) : Settings := { s with terms := vmodNat s.terms i f }
def Settings.onStreamCfg (i : Nat) (f : StreamCfg → StreamCfg) (s : Settings) : Settings :=
  { s with stream := vmodNat s.stream i f }
def Settings.onFetchCfg (i : Nat) (f : FetchCfg → FetchCfg) (s : Settings) : Settings :=
  { s with fetch := vmodNat s.fetch i f }
def Settings.onWindow (i : Nat) (f : Window → Window) (s : Settings) : Settings :=
  s.onFetchCfg (i / 4) fun c => { c with windows := vmodNat c.windows (i % 4) f }

/-- An item set to a value that has been checked and clamped. -/
def Settings.setItem (s : Settings) (code i v : Nat) : Settings :=
  match code with
  | 1 => { s with filterWidth := vmodNat s.filterWidth i fun _ => v }
  | 2 => s.onTerm i fun t => { t with mask := BitVec.ofNat 16 v }
  | 3 => s.onTerm i fun t => { t with polarity := BitVec.ofNat 16 v }
  | 4 => s.onTerm i fun t => { t with source := if v = 0 then .level else .latch }
  | 5 => s.onTerm i fun t => { t with combine := if v = 0 then .any else .all }
  | 6 => s.onTerm i fun t => { t with rearm := v }
  | 7 => s.onTerm i fun t => { t with startArmed := v = 1 }
  | 8 => { s with hostHoldoff := v }
  | 9 => { s with preCount := v }
  | 10 => { s with postCount := v }
  | 11 => s.onStreamCfg i fun c => { c with enabled := v = 1 }
  | 12 => s.onStreamCfg i fun c => { c with mode := if v = 0 then .single else .paired }
  | 13 => s.onStreamCfg i fun c => { c with wordLen := v }
  | 14 => s.onStreamCfg i fun c => { c with packing := v = 1 }
  | 15 => s.onFetchCfg i fun c => { c with enabled := v = 1 }
  | 16 => s.onFetchCfg i fun c => { c with timeout := v }
  | 17 => s.onFetchCfg i fun c => { c with retries := v }
  | 18 => s.onWindow i fun w => { w with enabled := v = 1 }
  | 19 => s.onWindow i fun w => { w with space := (spaceOfCode v).getD w.space }
  | 20 => s.onWindow i fun w => { w with base := v }
  | 21 => s.onWindow i fun w => { w with limit := v }
  | 22 => s.onWindow i fun w => { w with permit := if v = 0 then .deny else .read }
  | 23 => { s with retainTime := v }
  | 24 => { s with cuf := v }
  | 25 => { s with vmin := v }
  | 26 => { s with eff := v }
  | 27 => { s with epage := v }
  | 28 => { s with debounce := v }
  | 29 => { s with lineRate := vmodNat s.lineRate i fun _ => v }
  | 30 => { s with noticeMask := BitVec.ofNat 8 v }
  | _ => s

/-- An item of a WRITE_SETTINGS: code, index, value as carried. -/
structure Item where
  code  : Nat
  index : Nat
  value : Nat
  deriving DecidableEq, Repr

/-- The `n` items of 6 bytes in a payload. -/
def itemsOf (payload : List Byte) : List Item :=
  (List.range (payload.length / 6)).map fun k =>
    { code := fieldAt payload (6 * k) 1, index := fieldAt payload (6 * k + 1) 1, value := fieldAt payload (6 * k + 2) 4 }

/-- The 6 bytes of an item with its working value. -/
def Settings.itemBytes (s : Settings) (code i : Nat) : List Byte :=
  leBytes 1 code ++ leBytes 1 i ++ leBytes 4 (s.item code i)

/-- Items set in the order listed (R174); packing above 16 bits is then set off (R45). -/
def Settings.withItems (s : Settings) (items : List Item) : Settings :=
  let s := items.foldl (fun t it => t.setItem it.code it.index (clampItem it.code it.value)) s
  { s with stream := vmap (fun c => if 16 < c.wordLen then { c with packing := false } else c) s.stream }

/-- Packing would be on with a word length above 16 after the items (R45). -/
def packingClamped (s : Settings) (items : List Item) : Bool :=
  let t := items.foldl (fun t it => t.setItem it.code it.index (clampItem it.code it.value)) s
  t.stream.toList.any fun c => c.packing && 16 < c.wordLen

/-- A clamp changes a value of the request (R174). -/
def itemsClamped (s : Settings) (items : List Item) : Bool :=
  items.any (fun it => clampItem it.code it.value ≠ it.value) || packingClamped s items

/-- A window is well formed: its base does not lie above its limit (R55). -/
def Window.shaped (w : Window) : Bool := w.base ≤ w.limit

/-- Every window that the items touch is well formed in the form it will have (R55, R174). -/
def windowsShaped (s : Settings) (items : List Item) : Bool :=
  items.all fun it => !(18 ≤ it.code && it.code ≤ 22) || ((s.withItems items).windowAt it.index).shaped

/-! ## Plan writes (R69) -/

/-- The most bytes a region from `base` can have (R69 step 3). -/
def roomAbove (base : Nat) : Nat := 0xFFFFFFFF - base + 1

/-- The clamps of R69 steps 2 to 4. -/
def PlanEntry.clamped (e : PlanEntry) : PlanEntry :=
  let limit := clampTo 1 1048576 e.limit
  { e with
    limit := match e.base with
      | some b => min limit (roomAbove b)
      | none => limit
    quiet := e.quiet.map (clampTo 1 10000)
    window := e.window.map (clampTo 1 600) }

/-- A clamp of R69 changes a value of the 21 bytes as carried. -/
def entryClamped (bs : List Byte) (e : PlanEntry) : Bool :=
  decide (2048 ≤ fieldAt bs 4 2) || e.clamped ≠ e

def clampPageCap (cap : Nat) : Nat := clampTo 2 7680 cap

/-! ## The settings image (R176, log 8) -/

/-- Every item, in the order of the table of 11.7. -/
def allItems : List (Nat × Nat) :=
  (List.range 31).flatMap fun code => (List.range ((itemCount code).getD 0)).map fun i => (code, i)

/-- The image: the items' values, the 48 entries, the page cap and the CRC. -/
def settingsImage (s : Settings) (p : Plan) : List Byte :=
  withCrc (allItems.flatMap (fun (code, i) => leBytes 4 (s.item code i)) ++
    p.entries.toList.flatMap PlanEntry.bytes ++ leBytes 2 p.pageCap)

def itemsSize : Nat := 4 * 185
def imageSize : Nat := itemsSize + 48 * 21 + 2

/-- The image's CRC is good. -/
def imageGood (bs : List Byte) : Bool := (bs.drop imageSize).take 2 = crcBytes (bs.take imageSize)

/-- The settings an image holds. -/
def imageSettings (bs : List Byte) : Settings :=
  (allItems.mapIdx fun k it => (it, fieldAt bs (4 * k) 4)).foldl
    (fun s x => s.setItem x.1.1 x.1.2 x.2) Settings.initial

/-- The plan an image holds; its revision is 0 (R77). -/
def imagePlan (bs : List Byte) : Plan :=
  { entries := Vector.ofFn fun i =>
      (parseEntry ((bs.drop (itemsSize + 21 * i.val)).take 21)).getD PlanEntry.initial
    pageCap := fieldAt bs (itemsSize + 48 * 21) 2
    revision := 0 }

end Sys2Proof.Machine
end

