-- ==== Sys2Proof/Machine/RingOps.lean ====
section
/-! DEFINITION. Sys2Proof/Machine/RingOps.lean: posting events, the pin and the sequence comparison (chapter 2). -/

namespace Sys2Proof.Machine

/-- The ring's capacity (R17). -/
def ringMax : Nat := 1024

/-- The oldest sequence held; the sequence counter when nothing is held. -/
def Ring.oldest (r : Ring) : BitVec 32 :=
  match r.records with
  | [] => r.counter
  | e :: _ => e.seq

/-- The distance of a sequence number forward from the oldest held, modulo 2^32 (R27). -/
def Ring.distance (r : Ring) (s : BitVec 32) : Nat := (s - r.oldest).toNat

/-- A sequence number is held (R27). -/
def Ring.holds (r : Ring) (s : BitVec 32) : Bool := r.distance s < r.records.length

/-- The oldest record is protected: its distance, 0, is at least the pin's (R27). -/
def Ring.oldestProtected (r : Ring) : Bool :=
  match r.pin with
  | none => false
  | some p => r.distance p = 0

/-- There is room for an event (R19). -/
def Ring.hasRoom (r : Ring) : Bool := r.records.length < ringMax || !r.oldestProtected

/-- Steps 1, 3 and 4 of R19: the oldest record leaves a full ring, the new one takes the sequence counter's value. -/
def Ring.insert (r : Ring) (time : PartTime) (o : Origin) (kind : Byte) (args : List (BitVec 32)) : Ring :=
  { r with
    records := (if r.records.length < ringMax then r.records else r.records.drop 1) ++
      [{ seq := r.counter, time := time, origin := o, kind := kind, args := args }]
    counter := r.counter + 1 }

/-- The EVENTS_LOST record that precedes the next event taken while lost-count is not 0 (R22). -/
def Ring.markLost (r : Ring) (time : PartTime) : Ring :=
  if r.lost = 0 then r
  else { r.insert time .ring evEventsLost [BitVec.ofNat 32 r.lost] with lost := 0 }

/-- An event arrives: it is inserted (R19, R22) or lost and counted (R21). -/
def Ring.post (r : Ring) (time : PartTime) (o : Origin) (kind : Byte) (args : List (BitVec 32)) : Ring :=
  if r.hasRoom then (r.markLost time).insert time o kind args
  else { r with lost := satInc r.lost }

/-- A block posts an event, with its arguments as numbers (R18, R20). -/
def post (o : Origin) (kind : Byte) (args : List Nat) (s : State) : State :=
  s.onRing fun r => r.post s.time o kind (args.map fun n => BitVec.ofNat 32 n)

/-- The later of a sequence number and the oldest held; one not held lies before the oldest (R24, R27). -/
def Ring.pinAt (r : Ring) (want : BitVec 32) : BitVec 32 := if r.holds want then want else r.oldest

/-- The engine sets the pin for trigger sequence `f` and a pre-count (R24, R25); a standing pin is left (R25). -/
def setPin (f : BitVec 32) (preCount : Nat) (s : State) : State :=
  match s.ring.pin with
  | some _ => s
  | none => s.onRing fun r => { r with pin := some (r.pinAt (f - BitVec.ofNat 32 preCount + 1)) }

/-- The pin is released (R26). -/
def releasePin (s : State) : State := s.onRing fun r => { r with pin := none }

/-- The records of a HISTORY section, from the pin to the earlier of F + post-count and the newest held (R28). -/
def Ring.historyRange (r : Ring) (f : BitVec 32) (postCount : Nat) : List EventRec :=
  match r.pin with
  | none => []
  | some p =>
    let u := f + BitVec.ofNat 32 postCount
    if !r.holds f && !r.holds u then []
    else
      let last := if r.holds u then r.distance u + 1 else r.records.length
      (r.records.take last).drop (r.distance p)

/-- READ_EVENTS: the held records from a point fixed by `s` (R30). -/
def Ring.readFrom (r : Ring) (s : BitVec 32) : List EventRec :=
  if r.holds s then r.records.drop (r.distance s)
  else if (s - r.counter).toNat < 2 ^ 31 then []
  else r.records

end Sys2Proof.Machine
end

