-- ==== Sys2Proof/Machine/Fetches.lean ====
section
/-! DEFINITION. Sys2Proof/Machine/Fetches.lean: the fetch channels: reach windows, regions, attempts, and the commands
FETCH_ANSWER and FETCH_TIMEOUT (chapter 4). -/

namespace Sys2Proof.Machine

def pieceMax : Nat := 64
def silentAfter : Nat := 4

/-- The time a request message of 10 bytes takes at 1,000,000 bits per second, ten bits to a byte (R49, log 21). -/
def requestUs : Nat := 100

/-! ## Reach windows (R54) -/

def Window.covers (w : Window) (sp : Space) (a : Nat) : Bool :=
  w.enabled && w.space = sp && decide (w.base ≤ a) && decide (a ≤ w.limit)

/-- The deciding window of a byte; none for NONE. -/
def decidingWindow (cfg : FetchCfg) (sp : Space) (a : Nat) : Option (Fin 4) :=
  (List.finRange 4).find? fun i => (cfg.windows[i]).covers sp a

/-- The permit a deciding window gives. -/
def permitOf (cfg : FetchCfg) (w : Option (Fin 4)) : Permit :=
  match w with
  | some i => (cfg.windows[i]).permit
  | none => .deny

/-- The addresses above `a` at which a decision may change. -/
def edgesAbove (cfg : FetchCfg) (sp : Space) (a : Nat) : List Nat :=
  (cfg.windows.toList.flatMap fun w => if w.enabled && w.space = sp then [w.base, w.limit + 1] else []).filter (a < ·)

/-- The nearest of these, or `stop`. -/
def nextEdge (cfg : FetchCfg) (sp : Space) (a stop : Nat) : Nat := (edgesAbove cfg sp a).foldl min stop

/-- Where the run of bytes with deciding window `w` ends, at most `stop`; four windows have at most eight edges. -/
def runEnd (cfg : FetchCfg) (sp : Space) (w : Option (Fin 4)) (stop : Nat) : Nat → Nat → Nat
  | 0, _ => stop
  | fuel + 1, a =>
    let b := nextEdge cfg sp a stop
    if stop ≤ b then stop
    else if decidingWindow cfg sp b = w then runEnd cfg sp w stop fuel b
    else b

def runStop (cfg : FetchCfg) (sp : Space) (a stop : Nat) : Nat :=
  runEnd cfg sp (decidingWindow cfg sp a) stop 9 a

/-- The split of a region from `a` to `stop` into runs (R57); a region has at most nine. -/
def splitRuns (cfg : FetchCfg) (sp : Space) (stop : Nat) : Nat → Nat → List Run
  | 0, _ => []
  | fuel + 1, a =>
    if stop ≤ a then []
    else
      let b := runStop cfg sp a stop
      let w := decidingWindow cfg sp a
      { start := a, len := b - a, window := w, permit := permitOf cfg w } :: splitRuns cfg sp stop fuel b

def regionRuns (cfg : FetchCfg) (sp : Space) (base len : Nat) : List Run := splitRuns cfg sp (base + len) 9 base

/-! ## Attempts and pieces -/

/-- The request message of an attempt (R49): mark, tag, space, address, count, and the CRC-16 over tag to count. -/
def requestMessage (tag : Byte) (sp : Space) (addr count : Nat) : List Byte :=
  0xC6 :: withCrc ([tag, sp.code] ++ leBytes 4 addr ++ leBytes 1 count)

/-- An attempt is started: its request is sent under the next tag (R49). -/
def startAttempt (ch : Fin 4) (sp : Space) (addr count attempt : Nat) (s : State) : State :=
  let cfg := s.settings.fetch[ch]
  s.onFetch ch fun c =>
    { c with
      state := .asking
      txn := some { space := sp, addr := addr, count := count, attempt := attempt, tag := c.nextTag
                    sent := requestMessage c.nextTag sp addr count
                    deadline := after s.time (requestUs + usPerMs * cfg.timeout) }
      nextTag := c.nextTag + 1
      attempts := satInc c.attempts
      transactions := if attempt = 1 then satInc c.transactions else c.transactions }

/-- The channel goes on with its region: an omission, the next transaction, or the region's end (R58). -/
def advanceRegion (ch : Fin 4) (s : State) : State :=
  match (s.fetches[ch]).region with
  | none => s.onFetch ch fun c => { c with state := .idle }
  | some r =>
    match r.runs with
    | [] => s.onFetch ch fun c => { c with state := .idle, region := none }
    | x :: rest =>
      match x.permit with
      | .deny =>
        s.onFetch ch fun c =>
          { c with state := .delivering, piece := some (.omission x.len), region := some { r with runs := rest } }
      | .read =>
        let n := min pieceMax x.len
        let left := if x.len ≤ n then rest else { x with start := x.start + n, len := x.len - n } :: rest
        startAttempt ch r.space x.start n 1 (s.onFetch ch fun c => { c with region := some { r with runs := left } })

/-- A transaction's piece is formed and the channel waits in DELIVERING (R58). -/
def deliver (ch : Fin 4) (p : Piece) (s : State) : State :=
  s.onFetch ch fun c => { c with state := .delivering, txn := none, piece := some p }

def onesPiece (n : Nat) : Piece := .data false (List.replicate n 0xFF)

/-- The source is declared silent (R53 steps 2 to 5): the rest of the region, from `addr`, is not fetched. Where the failed
piece ends at the last address of the space, FETCH_SILENT carries the address modulo 2^32, 0; the region is in progress until its last piece is taken (log 37). -/
def declareSilent (ch : Fin 4) (cap addr : Nat) (s : State) : State :=
  match (s.fetches[ch]).region with
  | none => s
  | some r =>
    let s := s.onFetch ch fun c =>
      { c with region := some { r with runs := [], silent := true }, silent := some cap, silents := satInc c.silents }
    post (.fetch ch) evFetchSilent [r.space.code.toNat, addr, r.base + r.len - addr] s

/-- A transaction failed after its last attempt (R51, R53). -/
def failTransaction (ch : Fin 4) (t : Txn) (s : State) : State :=
  let s := deliver ch (onesPiece t.count) s
  let s := s.onFetch ch fun c => { c with failed := satInc c.failed, failures := c.failures + 1 }
  if silentAfter ≤ (s.fetches[ch]).failures then declareSilent ch (captureNumber s) (t.addr + t.count) s else s

/-- The engine withdraws the region (R61). -/
def withdrawRegion (ch : Fin 4) (s : State) : State :=
  s.onFetch ch fun c =>
    match c.state with
    | .disabled | .idle => c
    | .asking => { c with state := .idle, region := none, txn := none, piece := none, abandoned := satInc c.abandoned }
    | .delivering => { c with state := .idle, region := none, txn := none, piece := none }

/-- The fetch channels clear their silent marks at a capture's close (R60, R102). -/
def clearSilent (s : State) : State := { s with fetches := vmap (fun c => { c with silent := none }) s.fetches }

/-! ## The commands -/

def badAnswer (ch : Fin 4) (s : State) : State := s.onFetch ch fun c => { c with badAnswers := satInc c.badAnswers }

/-- A good data answer (R50). -/
def goodData (ch : Fin 4) (count : Byte) (data : List Byte) (s : State) : State :=
  deliver ch (.data true data) (s.onFetch ch fun c => { c with bytesRead := satAdd c.bytesRead count.toNat, failures := 0 })

/-- A NAK (R52). -/
def nakAnswer (ch : Fin 4) (t : Txn) (s : State) : State :=
  deliver ch (onesPiece t.count) (s.onFetch ch fun c => { c with naks := satInc c.naks, failures := 0 })

/-- An answer whose CRC matches (R50). -/
def judgeAnswer (ch : Fin 4) (tag result count : Byte) (data : List Byte) (s : State) : State :=
  match (s.fetches[ch]).state, (s.fetches[ch]).txn with
  | .asking, some t =>
    if tag ≠ t.tag then s.onFetch ch fun c => { c with stale := satInc c.stale }
    else if result = 0 && count.toNat = t.count then goodData ch count data s
    else if result = 1 && count = 0 then nakAnswer ch t s
    else badAnswer ch s
  | _, _ => s.onFetch ch fun c => { c with stale := satInc c.stale }

/-- Where the channel stands in the byte stream: hunting, or with these bytes after a mark (R50). -/
def setRx (ch : Fin 4) (rx : Option (List Byte)) (s : State) : State := s.onFetch ch fun c => { c with rx := rx }

/-- An answer whose last CRC byte has arrived: `rest` holds its data bytes and its CRC (R49, R50). -/
def answerWhole (ch : Fin 4) (tag result count : Byte) (rest : List Byte) (s : State) : State :=
  let data := rest.take count.toNat
  if rest.drop count.toNat = crcBytes ([tag, result, count] ++ data) then judgeAnswer ch tag result count data s
  else badAnswer ch s

/-- The answer in reception, the byte just received its last: a count above 64 ends it at the count byte, the second CRC byte
makes it whole, and hunting resumes after either (R50). -/
def answerRx (ch : Fin 4) (got : List Byte) (s : State) : State :=
  match got with
  | tag :: result :: count :: rest =>
    if 64 < count.toNat then badAnswer ch (setRx ch none s)
    else if rest.length < count.toNat + 2 then setRx ch (some got) s
    else answerWhole ch tag result count rest (setRx ch none s)
  | _ => setRx ch (some got) s

/-- A byte arrives on the answer wire: a hunting channel ignores every byte but the mark (R50). -/
def answerByte (ch : Fin 4) (b : Byte) (s : State) : State :=
  match (s.fetches[ch]).rx with
  | none => if b = 0xC9 then setRx ch (some []) s else s
  | some bs => answerRx ch (bs ++ [b]) s

/-- The bytes of an answer message (R49); a sender whose count is above 64 has sent no CRC that the channel reads. -/
def answerMessage (tag result count : Byte) (data : List Byte) (crc : BitVec 16) : List Byte :=
  0xC9 :: tag :: result :: count :: (data ++ if 64 < count.toNat then [] else leBits 2 crc)

/-- The bytes of the wire arrive, one after another, in every state except DISABLED (R50). -/
def fetchAnswered (w : AnswerWire) (tag result count : Byte) (data : List Byte) (crc : BitVec 16) (s : State) : State :=
  if (s.fetches[w.ch]).state = .disabled then s
  else forEach (w.before ++ answerMessage tag result count data crc) (answerByte w.ch) s

def execFetchAnswer (w : AnswerWire) (tag result count : Byte) (data : List Byte) (crc : BitVec 16) (s : State) :
    Host.Outcome State Fault Refusal :=
  .next (whenPowered (fetchAnswered w tag result count data crc) s)

/-- The deadline of the attempt in flight has passed (R51). -/
def fetchTimedOut (ch : Fin 4) (s : State) : State :=
  match (s.fetches[ch]).state, (s.fetches[ch]).txn with
  | .asking, some t =>
    if reached s.time t.deadline then
      let s := s.onFetch ch fun c => { c with timeouts := satInc c.timeouts }
      if t.attempt < 1 + (s.settings.fetch[ch]).retries then startAttempt ch t.space t.addr t.count (t.attempt + 1) s
      else failTransaction ch t s
    else s
  | _, _ => s

def execFetchTimeout (ch : Fin 4) (s : State) : Host.Outcome State Fault Refusal := .next (whenPowered (fetchTimedOut ch) s)

end Sys2Proof.Machine
end

