-- ==== Sys2Proof/Machine/HoldupOps.lean ====
section
/-! DEFINITION. Sys2Proof/Machine/HoldupOps.lean: the allowance, the tests on programs and the exhaustion test (chapter 7). -/

namespace Sys2Proof.Machine

/-- The close reserve (R111). -/
def closeReserve : Nat := 6

/-- Programs between two samples (R110). -/
def resampleEvery : Nat := 32

/-- A sample as taken (R109 step 1). -/
def sampleMv (vhold : Nat) : Nat := min vhold 15000

/-- The allowance for a VHOLD level (R109). -/
def allowanceFor (st : Settings) (vhold : Nat) : Nat :=
  let vh := sampleMv vhold
  let d := if st.vmin < vh then vh * vh - st.vmin * st.vmin else 0
  let e := st.cuf * d / 2000000
  let eu := e * st.eff / 100
  min (eu / st.epage) 65535

/-- A program of either class may start, by the test of R111. -/
def programMayStart (close : Bool) (s : State) : Bool :=
  match s.monitor.state with
  | .normal => true
  | .exhausted => false
  | .holdup | .recovering => if close then 1 ≤ s.monitor.remaining else closeReserve < s.monitor.remaining

/-- The engine's own question, by the ordinary test (R111). -/
def ordinaryOk (s : State) : Bool := programMayStart false s

/-- A capture in progress must close, by R113, and the close has not been started (log 16). -/
def closeUnpaid (s : State) : Bool :=
  inProgress s && (s.engine.stall || match s.engine.capture with | some c => !c.closeOn | none => false)

/-- The exhaustion test (R114). -/
def exhaustionHolds (s : State) : Bool :=
  s.monitor.remaining = 0 || (closeUnpaid s && s.monitor.remaining < closeReserve)

/-- The test is applied (R114): in HOLDUP it takes the monitor to EXHAUSTED; it is posted once each time it comes to hold;
a capture in progress then has its power stall set. -/
def applyExhaustion (s : State) : State :=
  let holds := exhaustionHolds s
  let was := s.monitor.exhaustOn
  match s.monitor.state with
  | .normal | .exhausted => s
  | .holdup | .recovering =>
    let s := s.onMonitor fun m =>
      { m with exhaustOn := holds, state := if holds && m.state = .holdup then .exhausted else m.state }
    if !holds then s
    else
      let s := if inProgress s then s.onEngine fun e => { e with stall := true } else s
      if was then s else post .holdup evHoldupExhausted [s.monitor.remaining, captureNumber s] s

/-- A program starts (R110): outside NORMAL it draws one from the allowance and is counted; the test of R114 follows, and a
re-sample that has come due waits behind it, with its count past the table's range (log 39). -/
def drawProgram (s : State) : State :=
  if isNormal s then s
  else applyExhaustion (s.onMonitor fun m =>
    { m with remaining := m.remaining - 1, programs := satInc m.programs, sinceVh := m.sinceVh + 1 })

/-- A re-sample is due: 32 programs since the last sample, and no re-sample in NORMAL or EXHAUSTED (R110, log 39). -/
def resampleDue (s : State) : Bool :=
  (s.monitor.state = .holdup || s.monitor.state = .recovering) && resampleEvery ≤ s.monitor.sinceVh

/-- The re-sample of R110. -/
def resample (vhold : Nat) (s : State) : State :=
  let s := s.onMonitor fun m =>
    { m with lastVh := sampleMv vhold, lastVhTime := s.time, sinceVh := 0
             remaining := min m.remaining (allowanceFor s.settings vhold) }
  applyExhaustion (post .holdup evHoldupResampled [s.monitor.lastVh, s.monitor.remaining] s)

end Sys2Proof.Machine
end

