-- ==== Sys2Proof/Config.lean ====
section
/-! DEFINITION. Sys2Proof/Config.lean: what the part fixes and the manual leaves open, as constants without a body. -/

namespace Sys2Proof

/-- The error-correcting code of a stored word: the check byte of 64 data bits.
"The code is fixed by the part and is not given here" (08 8.1.1). No proof can know it (log 6). -/
opaque Config.eccCheck : BitVec 64 → BitVec 8

/-- The class, as 0 CLEAN, 1 CORRECTED, 2 POISONED, that a stored pair of data and check byte gets when no codeword
lies within two flipped bits of it (R153, "may be classified as any of the three"; log 6). -/
opaque Config.farClass : BitVec 64 → BitVec 8 → Fin 3

/-- The data delivered for such a pair when it is classified CORRECTED (R153; log 6). -/
opaque Config.farData : BitVec 64 → BitVec 8 → BitVec 64

/-- The word a section read delivers for a logical page without a physical page (R152 "is not read", and no rule says
what the reply then holds), by capture number, logical page and word index (log 20). -/
opaque Config.unmappedWord : Nat → Nat → Nat → BitVec 64

end Sys2Proof
end

