-- ==== Sys2Proof/Machine/Cells.lean ====
section
/-! DEFINITION. Sys2Proof/Machine/Cells.lean: a sparse list of (address, byte) pairs in one canonical form, addresses strictly
rising and no entry equal to what an unlisted address reads as, with reading and writing of ranges. -/

namespace Sys2Proof.Machine

/-- What address `a` reads as; `d` is what an unlisted address reads as. -/
def cellGet (d : Byte) : List Host.Cell → Nat → Byte
  | [], _ => d
  | (k, v) :: r, a => if k = a then v else cellGet d r a

/-- The entries with addresses from `lo` up to, but not including, `hi`. -/
def cellsIn (m : List Host.Cell) (lo hi : Nat) : List Host.Cell := m.filter fun c => lo ≤ c.1 && c.1 < hi

/-- `n` bytes from `base`. -/
def readRange (d : Byte) (m : List Host.Cell) (base n : Nat) : List Byte :=
  let near := cellsIn m base (base + n)
  (List.range n).map fun i => cellGet d near (base + i)

/-- The entries that `bytes` from `base` need in canonical form. -/
def cellsOf (d : Byte) : Nat → List Byte → List Host.Cell
  | _, [] => []
  | base, b :: bs => if b = d then cellsOf d (base + 1) bs else (base, b) :: cellsOf d (base + 1) bs

/-- `bytes` written from `base`. -/
def writeRange (d : Byte) (m : List Host.Cell) (base : Nat) (bytes : List Byte) : List Host.Cell :=
  m.filter (fun c => c.1 < base) ++ cellsOf d base bytes ++ m.filter (fun c => base + bytes.length ≤ c.1)

/-- `n` addresses from `base` unlisted again. -/
def clearRange (m : List Host.Cell) (base n : Nat) : List Host.Cell :=
  m.filter fun c => c.1 < base || base + n ≤ c.1

/-- The canonical form, for addresses below `top`. -/
def cellsWf (d : Byte) (top : Nat) (m : List Host.Cell) : Bool :=
  decide (m.Pairwise fun a b => a.1 < b.1) && m.all fun c => c.2 ≠ d && c.1 < top

end Sys2Proof.Machine
end

