-- ==== Sys2Proof/Machine/FlashOps.lean ====
section
/-! DEFINITION. Sys2Proof/Machine/FlashOps.lean: words and check bytes, reading, programming and erasing the dump store
(8.1, 8.2, 8.3, R153). -/

namespace Sys2Proof.Machine

def pageBytes : Nat := 512
def pageWords : Nat := 64
def blockPages : Nat := 128
def storePages : Nat := 8192
def firstAreaBlock : Nat := 4
def poolBase : Nat := 384

/-- The erased word (R121). -/
def erasedWord : BitVec 64 := BitVec.allOnes 64

/-- The check byte of 64 data bits; the erased pair is a codeword (R121, log 6). -/
def checkByte (d : BitVec 64) : Byte := if d = erasedWord then 0xFF else Config.eccCheck d

/-- A stored word: its data and the difference of its check byte from the code's (log 6). -/
structure Stored where
  data : BitVec 64
  diff : Byte
  deriving DecidableEq, Repr

def Stored.erased : Stored := { data := erasedWord, diff := 0 }

def oneBit (b : Byte) : Bool := (bitsOf b).length = 1

/-- The data bit whose flip makes the pair a codeword. -/
def fixingBit (d : BitVec 64) (c : Byte) : Option Nat :=
  (List.range 64).find? fun i => checkByte (d ^^^ BitVec.twoPow 64 i) = c

/-- Some codeword lies at two flipped bits from the pair. -/
def twoBitsOff (d : BitVec 64) (c : Byte) : Bool :=
  (bitsOf (checkByte d ^^^ c)).length = 2 ||
  (List.range 64).any fun i =>
    oneBit (checkByte (d ^^^ BitVec.twoPow 64 i) ^^^ c) ||
    (List.range i).any fun j => checkByte (d ^^^ BitVec.twoPow 64 i ^^^ BitVec.twoPow 64 j) = c

/-- The class of a stored word and the data delivered (R153). -/
def classify (w : Stored) : WordRead :=
  if w.diff = 0 then { data := w.data, cls := .clean }
  else if oneBit w.diff then { data := w.data, cls := .corrected }
  else
    let c := checkByte w.data ^^^ w.diff
    match fixingBit w.data c with
    | some i => { data := w.data ^^^ BitVec.twoPow 64 i, cls := .corrected }
    | none =>
      if twoBitsOff w.data c then { data := w.data, cls := .poisoned }
      else match Config.farClass w.data c with
        | 0 => { data := w.data, cls := .clean }
        | 1 => { data := Config.farData w.data c, cls := .corrected }
        | 2 => { data := w.data, cls := .poisoned }

/-! ## The canonical form and one byte of the store -/

def storeBytes : Nat := 4194304
def storeWords : Nat := 524288

/-- The store's two lists are in canonical form, within the 4 MiB and the 524,288 check bytes of 8.1. -/
def Memory.wf (f : Flash) : Bool := cellsWf 0xFF storeBytes f.data && cellsWf 0 storeWords f.check

/-- What a byte of the store reads as: data byte `a` (8.1.1). -/
def readByte (f : Flash) (a : Nat) : Byte := cellGet 0xFF f.data a

/-- The difference of a word's stored check byte from the code's (log 6). -/
def readCheck (f : Flash) (w : Nat) : Byte := cellGet 0 f.check w

/-! ## Words and bytes -/

def wordBytes (w : BitVec 64) : List Byte := leBits 8 w

/-- The `n` words that bytes hold, word w in bytes 8w to 8w+7 (8.1.1). -/
def wordsOf (n : Nat) (bs : List Byte) : List (BitVec 64) :=
  (List.range n).map fun i => BitVec.ofNat 64 (fieldAt bs (8 * i) 8)

/-- The stored words of a page. -/
def storedPage (f : Flash) (p : Nat) : List Stored :=
  List.zipWith (fun d c => { data := d, diff := c })
    (wordsOf pageWords (readRange 0xFF f.data (pageBytes * p) pageBytes))
    (readRange 0 f.check (pageWords * p) pageWords)

/-- A page's words stored. A page outside the store does not exist and nothing is stored. -/
def storePage (p : Nat) (ws : List Stored) (f : Flash) : Flash :=
  if p < storePages then
    { data := writeRange 0xFF f.data (pageBytes * p) (ws.flatMap fun w => wordBytes w.data)
      check := writeRange 0 f.check (pageWords * p) (ws.map fun w => w.diff) }
  else f

/-- Word `i` of a page as an operation leaves it: `w`, or what a fault says it holds (log 4). -/
def withFaults (faults : List WordFault) (ws : List Stored) : List Stored :=
  ws.mapIdx fun i w =>
    match faults.find? fun f => f.word.val = i with
    | some f => { data := f.data, diff := f.check }
    | none => w

/-! ## Programming and erasing -/

/-- Programming a word: the AND of old and new with its check byte; new content of all ones leaves it (R122). -/
def programWord (old : Stored) (new : BitVec 64) : Stored :=
  if new = erasedWord then old else { data := old.data &&& new, diff := 0 }

/-- Word `i` of a page after a program, or what a fault says of it, short of the bits that it did not hold: programming sets no
bit (R122, log 4). -/
def withProgramFaults (old : List Stored) (faults : List WordFault) (ws : List Stored) : List Stored :=
  ws.mapIdx fun i w =>
    match faults.find? fun f => f.word.val = i with
    | some f => { data := (old.getD i Stored.erased).data &&& f.data, diff := f.check }
    | none => w

/-- The faults of words that a program of `content` writes: a word whose new content is all ones is left as it was (R122). -/
def writtenFaults (content : List Byte) (faults : List WordFault) : List WordFault :=
  faults.filter fun f => (wordsOf pageWords content).getD f.word.val erasedWord ≠ erasedWord

/-- A page after a program of `content` that leaves the words of `faults` otherwise (R122, log 4). -/
def programPage (p : Nat) (content : List Byte) (faults : List WordFault) (f : Flash) : Flash :=
  storePage p (withProgramFaults (storedPage f p) (writtenFaults content faults)
    (List.zipWith programWord (storedPage f p) (wordsOf pageWords content))) f

/-- The first word that fails the verify of a program: its new content has a zero bit and it does not read CLEAN and equal
to it (R123). -/
def verifyFails (p : Nat) (content : List Byte) (f : Flash) : Option Nat :=
  ((storedPage f p).zip (wordsOf pageWords content)).findIdx? fun (w, new) =>
    new ≠ erasedWord && !(classify w = { data := new, cls := .clean })

/-- Every word of a page is erased (R121). -/
def pageErased (f : Flash) (p : Nat) : Bool :=
  (cellsIn f.data (pageBytes * p) (pageBytes * (p + 1))).all (fun c => c.2 = 0xFF) &&
  (cellsIn f.check (pageWords * p) (pageWords * (p + 1))).all (fun c => c.2 = 0)

/-- The pages of a block. -/
def blockPageList (b : Nat) : List Nat := (List.range blockPages).map fun i => blockPages * b + i

/-- The words of a block that `faults` name hold what they say. -/
def placeFaults (b : Nat) (faults : List BlockFault) (f : Flash) : Flash :=
  faults.foldl (fun g x =>
    let p := blockPages * b + x.page.val
    storePage p (withFaults [x.fault] (storedPage g p)) g) f

/-- An erase of a block (R127): every word erased, but for what `faults` say (log 4). -/
def eraseBlock (b : Nat) (faults : List BlockFault) (f : Flash) : Flash :=
  placeFaults b faults
    { data := clearRange f.data (pageBytes * blockPages * b) (pageBytes * blockPages)
      check := clearRange f.check (pageWords * blockPages * b) (pageWords * blockPages) }

/-- The pages of a block that are not in the retired-page table and do not read erased (R127, R134). -/
def unerasedPages (retired : List Nat) (b : Nat) (f : Flash) : List Nat :=
  (blockPageList b).filter fun p => !retired.contains p && !pageErased f p

/-- The first word of a page that does not read erased, or 0. -/
def firstUnerased (f : Flash) (p : Nat) : Nat :=
  ((storedPage f p).findIdx? fun w => w ≠ Stored.erased).getD 0

/-! ## Power loss in an operation (R131) -/

/-- A word torn during a program: any value between its old content and the AND of old and new, and any check byte. -/
def tornProgram (old : Stored) (new : BitVec 64) (t : WordFault) : Stored :=
  if new = erasedWord then old
  else { data := (old.data &&& new) ||| (old.data &&& t.data), diff := t.check }

/-- A word torn during an erase: anywhere between its old content and erased, and any check byte. -/
def tornErase (old : Stored) (t : WordFault) : Stored := { data := old.data ||| t.data, diff := t.check }

/-- The store after power was lost with an operation in flight; a word that `torn` does not name is unchanged. -/
def tearFlash (fl : Option Flight) (torn : List BlockFault) (f : Flash) : Flash :=
  match fl with
  | none => f
  | some (.program _ p content) =>
    storePage p
      ((List.zipWith (fun (iw : Nat × Stored) new =>
        match torn.find? fun t => t.fault.word.val = iw.1 with
        | some t => tornProgram iw.2 new t.fault
        | none => iw.2) ((storedPage f p).mapIdx fun i w => (i, w)) (wordsOf pageWords content))) f
  | some (.erase _ b) =>
    torn.foldl (fun g x =>
      let p := blockPages * b + x.page.val
      storePage p ((storedPage g p).mapIdx fun i w => if i = x.fault.word.val then tornErase w x.fault else w) g) f

/-- The store with the words that `worn` names as it says: cells may return a flipped bit after many writes or months
(8.1, log 4). -/
def wearFlash (worn : List StoreFault) (f : Flash) : Flash :=
  worn.foldl (fun g x => storePage x.page.val (withFaults [x.fault] (storedPage g x.page.val)) g) f

/-! ## Reading -/

/-- A page as read: 64 words with their classes. -/
def readPhys (f : Flash) (p : Nat) : List WordRead := (storedPage f p).map classify

/-- Words as the bytes they deliver. -/
def bytesOfWords (ws : List WordRead) : List Byte := ws.flatMap fun w => wordBytes w.data

/-- Where reads and programs of a capture's page go: its pool copy where the map names it (R152). -/
def mapped (map : List MapEntry) (p : Nat) : Nat :=
  match map.find? fun m => m.source = p with
  | some m => poolBase + m.pool
  | none => p

/-- A capture's page read through the map, with the words of the entry's set POISONED (R152). -/
def readMapped (s : State) (p : Nat) : List WordRead :=
  let poisoned := match s.dir.map.find? fun m => m.source = p with
    | some m => m.poisoned
    | none => 0
  (readPhys s.flash (mapped s.dir.map p)).mapIdx fun i w =>
    if poisoned.getLsbD i then
      { data := ((storedPage s.flash (mapped s.dir.map p)).getD i Stored.erased).data, cls := .poisoned }
    else w

/-- The set of words of a page with a class. -/
def classSet (c : WordClass) (ws : List WordRead) : BitVec 64 :=
  (ws.mapIdx fun i w => if w.cls = c then BitVec.twoPow 64 i else 0).foldl (· ||| ·) 0

def countClass (c : WordClass) (ws : List WordRead) : Nat := (ws.filter fun w => w.cls = c).length

end Sys2Proof.Machine
end

