-- ==== Sys2Proof/Machine/IntegrityOps.lean ====
section
/-! DEFINITION. Sys2Proof/Machine/IntegrityOps.lean: counting and logging errors, the error capture record and the scrub
queue (R154, R161, R164). -/

namespace Sys2Proof.Machine

def scrubMax : Nat := 8

/-- An error is offered to the error capture record (R164). -/
def offerError (kind : ErrKind) (page word : Nat) (op : Operation) (s : State) : State :=
  match s.integ.error with
  | some _ => s.onInteg fun g => { g with overflow := true }
  | none =>
    raise .errorCaptured (s.onInteg fun g =>
      { g with error := some { kind := kind, page := page, word := word, op := op, time := s.time } })

/-- A page is offered to the scrub queue (R161). The relocation in progress is the queue's head. -/
def offerScrub (page : Nat) (s : State) : State :=
  if s.integ.scrub.contains page then s
  else if s.integ.scrub.length < scrubMax then s.onInteg fun g => { g with scrub := g.scrub ++ [page] }
  else
    let n := satInc s.integ.scrubDropped
    post .integrity evScrubDropped [page, n] (s.onInteg fun g => { g with scrubDropped := n })

/-- The words of one page are taken by an operation (R154). `phys` is the page read and `source` its source page. -/
def takePage (op : Operation) (source phys : Nat) (ws : List WordRead) (s : State) : State :=
  let nc := countClass .corrected ws
  let np := countClass .poisoned ws
  let s := s.onInteg fun g => { g with corrected := satAdd g.corrected nc, poisoned := satAdd g.poisoned np }
  let s := if nc = 0 then s else post .integrity evErrorCorrected [phys, nc, op.code.toNat] s
  let s := if np = 0 then s else post .integrity evErrorPoisoned [phys, np, op.code.toNat] s
  let s := match ws.findIdx? fun w => w.cls = .corrected with
    | some i => offerError .corrected phys i op s
    | none => s
  let s := match ws.findIdx? fun w => w.cls = .poisoned with
    | some i => offerError .poisoned phys i op s
    | none => s
  if op = .retrieve && (nc ≠ 0 || np ≠ 0) then offerScrub source s else s

/-- A program failure is reported to the Integrity Unit (R133, R164). -/
def reportProgramFail (op : Operation) (page word : Nat) (s : State) : State :=
  offerError .programFail page word op (s.onInteg fun g => { g with programFail := satInc g.programFail })

/-- The operation an erase failure is reported with (R133). -/
def eraseOperation (block : Nat) : Operation := if block = 2 then .settings else if block = 3 then .relocate else .verify

/-- The operation a program failure is reported with (R133). -/
def programOperation (who : Programmer) : Operation :=
  match who with
  | .settings => .settings
  | .relocation => .relocate
  | .buf _ | .journal | .commit _ => .verify

/-- An erase failure is reported to the Integrity Unit (R133, R164). -/
def reportEraseFail (page word : Nat) (s : State) : State :=
  offerError .eraseFail page word (eraseOperation (page / blockPages))
    (s.onInteg fun g => { g with eraseFail := satInc g.eraseFail })

end Sys2Proof.Machine
end

