-- ==== Sys2Proof/Machine/DirOps.lean ====
section
/-! DEFINITION. Sys2Proof/Machine/DirOps.lean: the capture directory, the section table, finding pages, and the effect of
journal records (R136 to R138, R145, R152). -/

namespace Sys2Proof.Machine

def dirSlots : Nat := 32
def sectionTableSize : Nat := 1024
def mapMax : Nat := 128

/-! ## The directory -/

/-- The entries held, in slot order. -/
def entriesOf (d : Directory) : List DirEntry :=
  d.slots.toList.filterMap fun x => match x with
    | .entry e => some e
    | .free | .reserved _ => none

def findEntry (d : Directory) (cap : Nat) : Option DirEntry := (entriesOf d).find? fun e => e.cap = cap

/-- The entries in capture number order. -/
def insertByCap (e : DirEntry) : List DirEntry → List DirEntry
  | [] => [e]
  | x :: xs => if e.cap ≤ x.cap then e :: x :: xs else x :: insertByCap e xs

def entriesByCap (d : Directory) : List DirEntry := (entriesOf d).foldr insertByCap []

def slotIsFree : DirSlot → Bool
  | .free => true
  | .reserved _ | .entry _ => false

/-- The lowest-numbered FREE directory slot (R80). -/
def lowestFreeSlot (d : Directory) : Option Nat := d.slots.toList.findIdx? slotIsFree

def setSlot (i : Nat) (x : DirSlot) (d : Directory) : Directory :=
  { d with slots := if h : i < 32 then vset d.slots ⟨i, h⟩ x else d.slots }

def modEntry (cap : Nat) (f : DirEntry → DirEntry) (d : Directory) : Directory :=
  { d with slots := vmap (fun x => match x with
      | .entry e => if e.cap = cap then .entry (f e) else .entry e
      | .free => .free
      | .reserved c => .reserved c) d.slots }

/-- The slot a CAPTURE_OPEN record fills: the one reserved for its capture, else the lowest FREE one. -/
def slotForOpen (d : Directory) (cap : Nat) : Option Nat :=
  match d.slots.toList.findIdx? fun x => x = .reserved cap with
  | some i => some i
  | none => lowestFreeSlot d

/-- Captures held, in the directory (R146). -/
def heldCount (d : Directory) : Nat := ((entriesOf d).filter fun e => e.held).length

/-! ## The section table (R137) -/

def sectionOf (d : Directory) (i : Nat) : Option SecEntry :=
  match d.sections.find? fun x => x.1 = i with
  | some (_, .entry e) => some e
  | some (_, .reserved _) | none => none

/-- The sections of a capture, in section index order (R136). -/
def sectionsOf (d : Directory) (e : DirEntry) : List SecEntry := e.sections.filterMap (sectionOf d)

/-- The lowest FREE section-table entry (log 14). -/
def lowestFreeSection (d : Directory) : Option Nat :=
  (List.range sectionTableSize).find? fun i => !(d.sections.any fun x => x.1 = i)

def reserveSection (cap : Nat) (d : Directory) : Directory :=
  match lowestFreeSection d with
  | some i => { d with sections := d.sections ++ [(i, .reserved cap)] }
  | none => d

/-- The table entry of a capture's section, by its index. -/
def sectionIndexOf (d : Directory) (cap index : Nat) : Option Nat :=
  (d.sections.find? fun x => match x.2 with
    | .entry e => e.cap = cap && e.index = index
    | .reserved _ => false).map fun x => x.1

/-- The table entry a section's first record fills: its own, one reserved for its capture, or the lowest FREE one. -/
def sectionPlace (d : Directory) (cap index : Nat) : Option Nat :=
  match sectionIndexOf d cap index with
  | some i => some i
  | none =>
    match d.sections.find? fun x => x.2 = .reserved cap with
    | some x => some x.1
    | none => lowestFreeSection d

def putSection (i : Nat) (e : SecEntry) (d : Directory) : Directory :=
  let rest := d.sections.filter fun x => x.1 ≠ i
  modEntry e.cap (fun c => if c.sections.contains i then c else { c with sections := c.sections ++ [i] })
    { d with sections := rest ++ [(i, .entry e)] }

/-! ## Pages -/

/-- A logical page's physical page through a block list (R152); none beyond the list, and none where its block is lost. -/
def physOf (blocks : List (Option Nat)) (n : Nat) : Option Nat :=
  (blocks.getD (n / blockPages) none).map fun b => blockPages * b + n % blockPages

/-- The number of words in a poisoned-word set. -/
def setSize (v : BitVec 64) : Nat := (bitsOf v).length

def inBlocks (blocks : List (Option Nat)) (p : Nat) : Bool := blocks.contains (some (p / blockPages))

/-- The capture whose blocks hold a physical page. -/
def ownerOf (d : Directory) (p : Nat) : Option DirEntry := (entriesOf d).find? fun e => inBlocks e.blocks p

/-! ## The effect of journal records (R138) -/

def freshEntry (cap : Nat) (trig : TrigSet) (first : Nat) (valid : Bool) (openTime : PartTime) (epoch : BitVec 64) :
    DirEntry :=
  { cap := cap, state := .opening, outcome := none, trig := trig, first := first, openTime := openTime, closeTime := none
    epoch := if valid then some epoch else none, head := none, blocks := [], sections := [], held := false, slots := 0
    damaged := 0 }

/-- Blocks placed in a block list at a position (R138). The places that a shorter list lacks before it hold no block: their record
was lost (log 65). -/
def placeBlocks (old : List (Option Nat)) (position : Nat) (bl : List Nat) : List (Option Nat) :=
  old.take position ++ List.replicate (position - old.length) none ++ bl.map some ++ old.drop (position + bl.length)

/-- A capture leaves the directory: steps 1, 2 and 4 of R145 on the Directory Manager's tables. -/
def dropCapture (cap : Nat) (d : Directory) : Directory :=
  match findEntry d cap with
  | none => d
  | some e =>
    { d with
      slots := vmap (fun x => match x with
        | .entry y => if y.cap = cap then .free else .entry y
        | .free => .free
        | .reserved c => .reserved c) d.slots
      sections := d.sections.filter fun x => match x.2 with
        | .entry y => y.cap ≠ cap
        | .reserved c => c ≠ cap
      map := d.map.filter fun m => !inBlocks e.blocks m.source
      trailers := d.trailers.filter fun m => m.cap ≠ cap }

/-- It is kept whether a section's trailer was written (R85, R152, log 42). -/
def noteTrailer (cap index : Nat) (written : Bool) (d : Directory) : Directory :=
  { d with trailers := d.trailers ++ [{ cap := cap, index := index, written := written }] }

/-- Whether a section's trailer was written, for a section that ended since the start-up (log 42). -/
def trailerKnown (d : Directory) (x : SecEntry) : Option Bool :=
  (d.trailers.find? fun m => m.cap = x.cap && m.index = x.index).map fun m => m.written

/-- A map entry replaced or added, with the owner's damaged-word count (R162 step 4). -/
def putMap (m : MapEntry) (d : Directory) : Directory :=
  let old := match d.map.find? fun x => x.source = m.source with
    | some x => setSize x.poisoned
    | none => 0
  let d := match ownerOf d m.source with
    | some e => modEntry e.cap (fun c => { c with damaged := min (c.damaged - old + setSize m.poisoned) counterMax }) d
    | none => d
  { d with map := d.map.filter (fun x => x.source ≠ m.source) ++ [m] }

/-- A record's effect on the directory (R138). A record naming a capture that is not in the directory has none. The
retirement records and the checkpoint records change nothing here. A CAPTURE_OPEN that finds no slot, as replay can, has none either,
and neither have the later records of its capture (log 67, the model's choice). -/
def recordEffect (r : JRec) (d : Directory) : Directory :=
  match r with
  | .captureOpen cap trig first valid openTime epoch =>
    match slotForOpen d cap with
    | some i => setSlot i (.entry (freshEntry cap trig first valid openTime epoch)) d
    | none => d
  | .blockAllot cap block => modEntry cap (fun e => { e with blocks := e.blocks ++ [some block] }) d
  | .blockList cap position bl => modEntry cap (fun e => { e with blocks := placeBlocks e.blocks position bl }) d
  | .sectionBegin cap index entry kind first start head =>
    match findEntry d cap, sectionPlace d cap index with
    | some _, some i =>
      putSection i { cap := cap, index := index, entry := entry, kind := kind, status := .inProgress, len := 0
                     first := first, pages := 0, gaps := 0, start := start }
        (modEntry cap (fun e => { e with head := head }) d)
    | _, _ => d
  | .sectionDone cap index entry kind outcome len first pages gaps head =>
    match findEntry d cap, sectionPlace d cap index with
    | some _, some i =>
      let start := match sectionOf d i with | some e => e.start | none => 0
      putSection i { cap := cap, index := index, entry := entry, kind := kind, status := outcome, len := len
                     first := first, pages := pages, gaps := min gaps 65535, start := start }
        (modEntry cap (fun e => { e with head := head }) d)
    | _, _ => d
  | .captureClose cap outcome closeTime trig head =>
    modEntry cap (fun e => { e with state := .closed, outcome := some outcome, closeTime := some closeTime, trig := trig
                                    head := head }) d
  | .captureSummary cap closed outcome trig closeTime head held slots =>
    modEntry cap (fun e =>
      let e := { e with trig := trig, head := head, held := held, slots := slots }
      if closed then { e with state := .closed, outcome := outcome, closeTime := some closeTime } else e) d
  | .hold cap => modEntry cap (fun e => { e with held := true }) d
  | .release cap => modEntry cap (fun e => { e with held := false }) d
  | .delete cap _ => dropCapture cap d
  | .annotate cap slot _ => modEntry cap (fun e => { e with slots := setBit e.slots slot true }) d
  | .relocate source pool poisoned => putMap { source := source, pool := pool, poisoned := poisoned } d
  | .retirePage _ | .retireBlock _ _ | .checkpointBegin _ _ | .checkpointEnd _ _ => d

/-! ## Records on their way -/

/-- The record is a HOLD, RELEASE or DELETE of a capture. -/
def touchesHold (cap : Nat) (r : JRec) : Bool :=
  match r with
  | .hold c | .release c | .delete c _ => c = cap
  | _ => false

/-- The records slotted or pending, and those that a port's request still waits to hand over (R139). -/
def recordsOnWay (s : State) : List JRec :=
  s.dir.slotted.map (fun x => x.record) ++ s.dir.pending.map (fun x => x.1) ++
    allPorts.filterMap fun p => match waitOf p s with
      | .record r false => some r
      | _ => none

/-- The capture has a HOLD, RELEASE or DELETE record slotted or pending (R145, R146). -/
def holdPending (cap : Nat) (s : State) : Bool := (recordsOnWay s).any (touchesHold cap)

def deletePending (cap : Nat) (s : State) : Bool :=
  (recordsOnWay s).any fun r => match r with
    | .delete c _ => c = cap
    | _ => false

/-- HOLD records slotted or pending (R146). -/
def holdsPending (s : State) : Nat :=
  ((recordsOnWay s).filter fun r => match r with
    | .hold _ => true
    | _ => false).length

/-- The target of a COMMIT_NOTE in progress on a port (R149); one that waits to look at its slot is in progress too
(log 19). It is in progress until it is answered, after the page is accepted too, as R149 says and worked example 9.10 does not (log
62). -/
def committing (p : PortId) (s : State) : Option (Nat × Nat) :=
  match waitOf p s with
  | .commit => (s.port p).pad.target
  | .read _ => if serviceKind p s = some kCommitNote then (s.port p).pad.target else none
  | .record (.annotate c n _) _ => some (c, n)
  | _ => none

/-- A COMMIT_NOTE is in progress for a capture (R145, R147). -/
def committingCap (cap : Nat) (s : State) : Bool :=
  allPorts.any fun p => match committing p s with
    | some t => t.1 = cap
    | none => false

/-! ## The capture in progress as the directory shows it (R78) -/

/-- A directory entry as it is reported: the capture in progress shows the engine's state, its head page once accepted and
its blocks. -/
def shown (s : State) (e : DirEntry) : DirEntry :=
  match s.engine.capture with
  | none => e
  | some c =>
    if inProgress s && c.number = e.cap && e.state ≠ .closed then
      { e with
        state := match s.engine.state with
          | .gathering => .gathering
          | .closing => .closing
          | .opening | .idle | .erasing => .opening
        head := c.head }
    else e

/-- The capture named is the one in progress. -/
def isCurrent (cap : Nat) (s : State) : Bool :=
  inProgress s && match s.engine.capture with
    | some c => c.number = cap
    | none => false

/-- A logical page of a capture lies in a page of the retired-page table or in a block of the retired-block table. -/
def pageRetired (s : State) (e : DirEntry) (n : Nat) : Bool :=
  match physOf e.blocks n with
  | some p => s.store.retPages.contains p || s.store.retBlocks.any fun b => b.1 = p / blockPages
  | none => false

/-- The pages that the head page's failures skipped, for a capture without a head page: those before its first section, or the
first ones that are retired while it has none (R86, R92, log 17). -/
def headlessPages (s : State) (e : DirEntry) : Nat :=
  match sectionsOf s.dir e with
  | x :: _ => x.first
  | [] => ((List.range (blockPages * e.blocks.length)).takeWhile (pageRetired s e)).length

/-- A capture's pages: its head page, with any page skipped before it, and the pages of its sections (R86, R136, log 17). -/
def capturePages (s : State) (e : DirEntry) : Nat :=
  (match e.head with | some h => h + 1 | none => headlessPages s e) + ((sectionsOf s.dir e).map fun x => x.pages).sum

end Sys2Proof.Machine
end

