-- ==== Sys2Proof/Machine/JournalOps.lean ====
section
/-! DEFINITION. Sys2Proof/Machine/JournalOps.lean: handing records to the journal, slots and sequence numbers, when a compaction
starts, what a failed or refused journal program does to the records, and the snapshot of a compaction (R139 to R141). -/

namespace Sys2Proof.Machine

def journalSlots : Nat := 2048
def slotsPerPage : Nat := 16
def pendingMax : Nat := 16

/-- The physical page of a slot (R139). -/
def slotPage (block slot : Nat) : Nat := blockPages * block + slot / slotsPerPage

/-- The journal block that is not active. -/
def otherBlock (d : Directory) : Nat := 1 - d.active

/-- A record can be handed over now: outside a compaction while a slot remains and nothing is pending (R139), in one while
the pending list holds fewer than 16 (R141). -/
def journalRoom (s : State) : Bool :=
  match s.dir.comp.state with
  | .none => s.dir.pending.isEmpty && s.dir.nextSlot < journalSlots
  | .clearing | .writing => s.dir.pending.length < pendingMax

/-- A record receives the next slot and the next sequence number (R139). -/
def giveSlot (r : JRec) (who : Who) (d : Directory) : Directory :=
  { d with
    slotted := d.slotted ++
      [{ block := d.active, slot := d.nextSlot, seq := d.nextSeq, record := r, who := who, flying := false }]
    nextSlot := d.nextSlot + 1
    nextSeq := d.nextSeq + 1
    comp := { d.comp with paused := false } }

/-- Slots that remain in the active block (R140). -/
def freeSlots (d : Directory) : Nat := journalSlots - d.nextSlot

/-- Fewer free slots than this start a compaction (R140). -/
def compactBelow : Nat := 64

/-- A compaction is to start (R140): fewer than 64 slots are free, the monitor is in NORMAL, and neither a compaction nor ERASE_ALL
is in progress. An abandoned one waits for the next slot given, unless no slot remains (R141). -/
def compactionDue (s : State) : Bool :=
  s.dir.comp.state = .none && s.ready && isNormal s && s.dir.eraseAll.isNone && freeSlots s.dir < compactBelow &&
    (!s.dir.comp.paused || journalSlots ≤ s.dir.nextSlot)

/-- A compaction that is to start becomes CLEARING (R140 step 1). -/
def startCompaction (s : State) : State :=
  s.onDir fun d => if compactionDue s then { d with comp := { Compaction.initial with state := .clearing } } else d

/-- A record receives the next slot, or in a compaction a place at the end of the pending list (R139, R140 step 1). -/
def takeRecord (r : JRec) (who : Who) (d : Directory) : Directory :=
  match d.comp.state with
  | .none => giveSlot r who d
  | .clearing | .writing => { d with pending := d.pending ++ [(r, who)] }

/-- A record is handed to the Directory Manager (R139, R140 step 1). The slot that leaves fewer than 64 free starts the compaction at
once, so that the next record handed goes to the pending list (R139). -/
def hand (r : JRec) (who : Who) (s : State) : State := startCompaction (s.onDir (takeRecord r who))

/-- The records of the pending list receive slots while any remain (R140 step 6, R141). -/
def givePending : Nat → Directory → Directory
  | 0, d => d
  | n + 1, d =>
    match d.pending with
    | [] => d
    | (r, who) :: rest =>
      if d.nextSlot < journalSlots then givePending n (giveSlot r who { d with pending := rest }) else d

def givePendingAll (d : Directory) : Directory := givePending d.pending.length d

/-! ## Placing records after a failure -/

/-- The first slot of the first page of a block at or after page `page` (of 128) that is not retired. -/
def firstSlotFrom (retired : List Nat) (block page : Nat) : Option Nat :=
  ((List.range blockPages).find? fun i => page ≤ i && !retired.contains (blockPages * block + i)).map (slotsPerPage * ·)

/-- The slot after `slot`; the snapshot passes over retired pages (R141). -/
def slotAfter (retired : List Nat) (pass : Bool) (block slot : Nat) : Nat :=
  let n := slot + 1
  if pass && n % slotsPerPage = 0 then (firstSlotFrom retired block (n / slotsPerPage)).getD journalSlots else n

/-- Slots for records in their order, from `slot`; none if the block has too few. -/
def layOut (retired : List Nat) (pass : Bool) (block : Nat) : Nat → List Slotted → Option (List Slotted)
  | _, [] => some []
  | slot, x :: xs =>
    if slot < journalSlots then
      (layOut retired pass block (slotAfter retired pass block slot) xs).map
        ({ x with block := block, slot := slot, flying := false } :: ·)
    else none

def lastSlot (xs : List Slotted) : Option Nat := xs.getLast?.map fun x => x.slot

/-- An abandoned compaction (R141): the old block stays active and the pending records receive slots in it while any
remain; it starts again at the next slot given, or at once when no slot remains. The sequence numbers that records of its
snapshot took stay used (log 52). -/
def abandonCompaction (d : Directory) : Directory :=
  let d := { d with slotted := d.slotted.filter fun x => x.who ≠ .snapshot
                    comp := { Compaction.initial with all := false } }
  let d := givePendingAll d
  { d with comp := { d.comp with paused := d.nextSlot < journalSlots } }

/-- A journal program of page `page` failed: the records it carried and every slotted record after them move on (R139). Where
the later pages have too few slots for them all, all go to the pending list (log 41). A slot given lets an abandoned compaction
start again (R141). -/
def moveOn (retired : List Nat) (page : Nat) (d : Directory) : Directory :=
  let block := page / blockPages
  match d.comp.state with
  | .writing =>
    match firstSlotFrom retired block (page % blockPages + 1) with
    | none => abandonCompaction d
    | some slot =>
      match layOut retired true block slot d.slotted with
      | some xs => { d with slotted := xs }
      | none => abandonCompaction d
  | .none | .clearing =>
    match firstSlotFrom retired block (page % blockPages + 1) with
    | some slot =>
      match layOut retired false block slot d.slotted with
      | some xs =>
        { d with slotted := xs, nextSlot := slot + xs.length
                 comp := { d.comp with paused := d.comp.paused && xs.isEmpty } }
      | none =>
        { d with slotted := [], pending := d.slotted.map (fun x => (x.record, x.who)) ++ d.pending, nextSlot := journalSlots }
    | none =>
      { d with slotted := [], pending := d.slotted.map (fun x => (x.record, x.who)) ++ d.pending, nextSlot := journalSlots }

/-- Slots and sequence numbers for records in their order, the lowest of those that stood before (R139, HOLDUP). -/
def repack (slots : List (Nat × BitVec 32)) (xs : List Slotted) : List Slotted :=
  List.zipWith (fun p x => { x with slot := p.1, seq := p.2, flying := false }) slots xs

/-- A journal program was refused by the holdup test: `keep` are the slotted records that it did not carry (R139). A record that
takes a slot given back is no slot given to it, so an abandoned compaction goes on waiting for one (R141, log 52). -/
def giveBack (keep : List Slotted) (d : Directory) : Directory :=
  let all := d.slotted.map fun x => (x.slot, x.seq)
  let xs := repack all keep
  let next := match xs.getLast? with
    | some x => (x.slot + 1, x.seq + 1)
    | none => all.headD (d.nextSlot, d.nextSeq)
  { d with slotted := xs, nextSlot := next.1, nextSeq := next.2 }

/-! ## The snapshot (R140 steps 3 to 5) -/

/-- A list in groups of `n`. -/
def groupsOf {α : Type} (n : Nat) : Nat → List α → List (List α)
  | 0, _ => []
  | fuel + 1, xs => if xs.isEmpty then [] else xs.take n :: groupsOf n fuel (xs.drop n)

/-- The head page of a capture as it stands: the engine's for the capture in progress. -/
def headNow (s : State) (e : DirEntry) : Option Nat := (shown s e).head

def sectionRecord (head : Option Nat) (x : SecEntry) : JRec :=
  match x.status with
  | .inProgress | .interrupted => .sectionBegin x.cap x.index x.entry x.kind x.first x.start head
  | _ => .sectionDone x.cap x.index x.entry x.kind x.status x.len x.first x.pages x.gaps head

/-- The runs of blocks in a block list, each with its position; the places between them hold none (log 65). -/
def blockRuns (position : Nat) : List (Option Nat) → List (Nat × List Nat)
  | [] => []
  | none :: xs => blockRuns (position + 1) xs
  | some b :: xs =>
    match blockRuns (position + 1) xs with
    | [] => [(position, [b])]
    | (q, bl) :: rest => if q = position + 1 then (position, b :: bl) :: rest else (position, [b]) :: (q, bl) :: rest

/-- The BLOCK_LIST records of a capture: up to 12 blocks each, at their positions (R138). -/
def blockLists (e : DirEntry) : List JRec :=
  (blockRuns 0 e.blocks).flatMap fun r => (groupsOf 12 6 r.2).mapIdx fun i bl => .blockList e.cap (r.1 + 12 * i) bl

/-- A capture's records in a snapshot. -/
def captureRecords (s : State) (e : DirEntry) : List JRec :=
  let head := headNow s e
  let closed : Bool := e.state = .closed
  [.captureOpen e.cap e.trig e.first e.epoch.isSome e.openTime (e.epoch.getD 0)] ++ blockLists e ++
    (sectionsOf s.dir e).map (sectionRecord head) ++
    [.captureSummary e.cap closed (if closed then e.outcome else none) e.trig (e.closeTime.getD 0) head e.held e.slots]

/-- The records of the retired tables. -/
def retiredRecords (s : State) : List JRec :=
  (groupsOf 4 64 s.store.retPages).map JRec.retirePage ++ s.store.retBlocks.map fun x => .retireBlock x.1 x.2

/-- The snapshot records between CHECKPOINT_BEGIN and CHECKPOINT_END; those of ERASE_ALL hold the retired tables alone. -/
def snapshotRecords (s : State) : List JRec :=
  retiredRecords s ++
    if s.dir.comp.all then []
    else (entriesByCap s.dir).flatMap (captureRecords s) ++
      s.dir.map.map fun m => .relocate m.source m.pool m.poisoned

/-- Records of the snapshot with sequence numbers from `seq`. -/
def numbered (seq : BitVec 32) (rs : List JRec) : List Slotted :=
  rs.mapIdx fun i r =>
    { block := 0, slot := 0, seq := seq + BitVec.ofNat 32 i, record := r, who := .snapshot, flying := false }

/-- Compaction becomes WRITING: the snapshot is taken and its records are appended in the other block (R140 steps 3 to 5). One that
does not fit is abandoned before its records take sequence numbers (log 52). -/
def beginSnapshot (s : State) : State :=
  let d := s.dir
  let body := snapshotRecords s
  let last := if d.comp.all then 0 else d.lastCap
  let rs := [.checkpointBegin (d.gen + 1) last] ++ body ++ [.checkpointEnd (d.gen + 1) body.length]
  let xs := numbered d.nextSeq rs
  let placed :=
    match firstSlotFrom s.store.retPages (otherBlock d) 0 with
    | none => none
    | some slot => layOut s.store.retPages true (otherBlock d) slot xs
  s.onDir fun d =>
    match placed with
    | some ys =>
      { d with slotted := ys, nextSeq := d.nextSeq + BitVec.ofNat 32 rs.length
               comp := { d.comp with state := .writing, last := last, count := body.length } }
    | none => abandonCompaction d

/-- CHECKPOINT_END is accepted at slot `slot` (R140 step 6). -/
def finishCompaction (gen : BitVec 32) (slot : Nat) (s : State) : State :=
  let count := s.dir.comp.count
  let s := s.onDir fun d =>
    givePendingAll { d with active := otherBlock d, gen := gen, nextSlot := slot + 1, comp := Compaction.initial }
  post .directory evJournalCompacted [gen.toNat, count] s

/-! ## Groups of records in one page (R130) -/

/-- A slotted record that a journal program may carry now; those of a snapshot returned with HOLDUP wait (R116). -/
def mayCarry (d : Directory) : Bool := !d.comp.held

/-- The page of the oldest pending record. -/
def journalPage (d : Directory) : Option Nat :=
  if mayCarry d then d.slotted.head?.map fun x => slotPage x.block x.slot else none

def inPage (page : Nat) (x : Slotted) : Bool := slotPage x.block x.slot = page

/-- The records that a journal program of a page carries. -/
def carried (page : Nat) (d : Directory) : List Slotted := d.slotted.filter (inPage page)

/-- A record of the close class (R111). -/
def closeClass (x : Slotted) : Bool :=
  x.who = .engine && match x.record with
    | .captureOpen .. | .sectionDone .. | .captureClose .. => true
    | _ => false

/-- The content of a journal program: each record in its slot and all ones elsewhere (R130). -/
def journalContent (xs : List Slotted) : List Byte :=
  (List.range slotsPerPage).flatMap fun i =>
    match xs.find? fun x => x.slot % slotsPerPage = i with
    | some x => slotBytes x.seq x.record
    | none => List.replicate 32 0xFF

end Sys2Proof.Machine
end

