-- ==== Sys2Proof/Machine/StoreOps.lean ====
section
/-! DEFINITION. Sys2Proof/Machine/StoreOps.lean: block states, retirement, the program queue's requests, and what the removal of
a capture does to the store and the Integrity Unit (R124 to R129, R145). -/

namespace Sys2Proof.Machine

def retiredMax : Nat := 256

/-- The position of a capture-area block in the block states. -/
def areaIndex (block : Nat) : Nat := block - firstAreaBlock

/-- The state of a capture-area block; none for a fixed block. -/
def blockState (s : State) (block : Nat) : Option BlockState :=
  if areaBlock block then (s.store.blocks.toList[areaIndex block]?) else none

def setBlock (block : Nat) (b : BlockState) (s : State) : State :=
  if h : areaBlock block && areaIndex block < 60 then
    s.onStore fun t => { t with blocks := vset t.blocks ⟨areaIndex block, by simp at h; exact h.2⟩ b }
  else s

/-- The capture-area blocks in a state that `p` picks, ascending. -/
def blocksWhere (p : BlockState → Bool) (s : State) : List Nat :=
  (List.range 60).filterMap fun i =>
    match s.store.blocks.toList[i]? with
    | some b => if p b then some (firstAreaBlock + i) else none
    | none => none

def lowestFreeBlock (s : State) : Option Nat := (blocksWhere (· = .free) s).head?

def blockRetired (s : State) (block : Nat) : Bool := blockState s block = some .retired

/-! ## Requests waiting (8.4) -/

def enqueue (q : QReq) (s : State) : State := s.onStore fun t => { t with queue := t.queue ++ [q] }

/-- A request that has not started leaves the queue without effect (R129). -/
def withdraw (q : QReq) (s : State) : State := s.onStore fun t => { t with queue := t.queue.filter fun x => x ≠ q }

/-- A read of a page waits: its program is in flight, or the erase of its block (R129). -/
def pageBusy (s : State) (page : Nat) : Bool :=
  match s.store.flight with
  | some (.program _ p _) => p = page
  | some (.erase _ block) => block = page / blockPages
  | none => false

def enqueueErases (who : Eraser) (blocks : List Nat) (s : State) : State :=
  forEach blocks (fun b => enqueue (.erase who b)) s

/-- An erase of a capture-area block is queued or, by `flying`, in flight. -/
def areaEraseQueued (s : State) : Bool :=
  s.store.queue.any fun q => match q with
    | .erase .area _ => true
    | _ => false

def areaEraseFlying (s : State) : Bool :=
  match s.store.flight with
  | some (.erase .area _) => true
  | _ => false

/-- An erase of a journal block is in flight. -/
def journalEraseFlying (s : State) : Bool :=
  match s.store.flight with
  | some (.erase .journal _) => true
  | _ => false

/-- An erase is pending for the engine: one in flight or, while the monitor is in NORMAL, one queued (R93). -/
def erasePending (s : State) : Bool := areaEraseFlying s || (isNormal s && areaEraseQueued s)

/-! ## Retirement (R124, R125, R127) -/

/-- A retirement record is handed over, or kept as an unjournaled retirement until there is room (R124, R141). -/
def handRetirement (r : JRec) (s : State) : State :=
  if journalRoom s then hand r .retirement s
  else s.onStore fun t => { t with unjournaled := t.unjournaled ++ [(r, false)] }

/-- Steps 1 to 3 of R124. -/
def retirePage (page : Nat) (s : State) : State :=
  let s := s.onStore fun t => { t with retPages := t.retPages ++ [page] }
  post .store evPageRetired [page, s.store.retPages.length] (handRetirement (.retirePage [page]) s)

/-- The capture that owns a block, or 0. -/
def ownerNumber (s : State) (block : Nat) : Nat :=
  match blockState s block with
  | some (.allotted cap) => cap
  | _ => 0

/-- A capture-area block is retired (R125, R127). -/
def retireBlock (block : Nat) (cause : RetireCause) (s : State) : State :=
  let owner := ownerNumber s block
  let s := setBlock block .retired (s.onStore fun t => { t with retBlocks := t.retBlocks ++ [(block, cause)] })
  post .store evBlockRetired [block, cause.code.toNat, owner] (handRetirement (.retireBlock block cause) s)

/-- A program failed its verify: the page or its block is retired (R124, R125), but for a page already in the table. -/
def retireForProgram (page : Nat) (s : State) : State :=
  if s.store.retPages.contains page then s
  else if s.store.retPages.length < retiredMax then retirePage page s
  else if areaBlock (page / blockPages) then retireBlock (page / blockPages) .programFail s
  else s

/-- A record takes its place behind the first `k` of the pending list. -/
def insertPending (k : Nat) (r : JRec) (s : State) : State :=
  s.onDir fun d => { d with pending := d.pending.take k ++ [(r, .retirement)] ++ d.pending.drop k }

/-- A page of the journal is retired whose `k` records had no later page and went to the head of the pending list: its
RETIRE_PAGE record stands after them (R139). -/
def retireBehind (k page : Nat) (s : State) : State :=
  if s.store.retPages.contains page || retiredMax ≤ s.store.retPages.length then s
  else
    let s := s.onStore fun t => { t with retPages := t.retPages ++ [page] }
    post .store evPageRetired [page, s.store.retPages.length] (insertPending k (.retirePage [page]) s)

/-- The pages of a fixed block whose erase failed are retired while the table has room, the lowest first (R127, log 40). -/
def retireForErase (pages : List Nat) (s : State) : State :=
  forEach pages (fun p s => if s.store.retPages.length < retiredMax then retirePage p s else s) s

/-- The first pool page from `n` that is not retired; 128 when the pool is full (R162, R163). -/
def poolFrom (retired : List Nat) (n : Nat) : Nat :=
  ((List.range blockPages).find? fun i => n ≤ i && !retired.contains (poolBase + i)).getD blockPages

/-- A program to this page is answered FAIL without being started (R126). -/
def targetRetired (s : State) (page : Nat) : Bool :=
  s.store.retPages.contains page || blockRetired s (page / blockPages)

/-! ## A capture leaves the directory (R145 steps 1 to 4, R160 to R162) -/

/-- A port without a page read ahead for a capture. -/
def Port.withoutAhead (cap : Nat) (q : Port) : Port :=
  match q.ahead with
  | some a => if a.cap = cap then { q with ahead := none } else q
  | none => q

/-- The read-ahead buffers drop what they hold for a capture (R160). -/
def dropAhead (cap : Nat) (s : State) : State :=
  s.onLink fun l => { l with ports := vmap (Port.withoutAhead cap) l.ports }

/-- The Integrity Unit drops the pages of some blocks; a relocation whose record has not been handed over is abandoned
(R161, R162). -/
def dropScrub (blocks : List (Option Nat)) (s : State) : State :=
  let keep := fun p => !inBlocks blocks p
  match s.integ.reloc with
  | none => s.onInteg fun g => { g with scrub := g.scrub.filter keep }
  | some r =>
    if r.step = .record true then
      s.onInteg fun g => { g with scrub := g.scrub.filter fun p => p = r.page || keep p }
    else if inBlocks blocks r.page then
      withdraw .relocation (s.onInteg fun g => { g with scrub := g.scrub.filter keep, reloc := none })
    else s.onInteg fun g => { g with scrub := g.scrub.filter keep }

/-- The blocks of a capture that are not RETIRED, in ascending order. -/
def liveBlocks (s : State) (e : DirEntry) : List Nat :=
  (blocksWhere (fun b => b = .allotted e.cap) s).filter fun b => e.blocks.contains (some b)

/-- Steps 1 to 4 of R145, with the erases of step 3 queued in ascending block order (R128). -/
def removeCapture (e : DirEntry) (s : State) : State :=
  let live := liveBlocks s e
  let s := s.onDir (dropCapture e.cap)
  let s := forEach live (fun b => setBlock b .dirty) s
  dropAhead e.cap (dropScrub e.blocks (enqueueErases .area live s))

/-! ## Reclamation (R145) -/

/-- Reclamation may choose the capture. -/
def isReclaimable (s : State) (e : DirEntry) : Bool :=
  (e.state = .closed || e.state = .interrupted) && !isCurrent e.cap s && !e.held && !holdPending e.cap s &&
    !committingCap e.cap s

/-- The capture that reclamation would choose. -/
def reclaimable (s : State) : Option DirEntry := (entriesByCap s.dir).find? (isReclaimable s)

/-- The DELETE record of a reclamation is handed over. -/
def startReclaim (cap : Nat) (s : State) : State :=
  hand (.delete cap .reclaim) .reclaim (s.onDir fun d => { d with reclaim := some cap })

end Sys2Proof.Machine
end

