-- ==== Sys2Proof/Machine/WalkOps.lean ====
section
/-! DEFINITION. Sys2Proof/Machine/WalkOps.lean: the walk's order and growth, the entry at the cursor, claims and retain counts
(R44, R74, R75, R83, R98). -/

namespace Sys2Proof.Machine

/-- A class's rank (R74). -/
def SecClass.rank : SecClass → Nat
  | .critical => 0 | .essential => 1 | .extended => 2

/-- Entry `a` comes before entry `b`: class rank, order field, index (R74). -/
def keyLess (p : Plan) (a b : Fin 48) : Bool :=
  let x := p.entries[a]
  let y := p.entries[b]
  decide (x.cls.rank < y.cls.rank) || (x.cls.rank = y.cls.rank &&
    (decide (x.order < y.order) || (x.order = y.order && decide (a.val < b.val))))

/-- The entries that a trigger set selects (R75). -/
def selected (p : Plan) (x : TrigSet) (i : Fin 48) : Bool :=
  p.entries[i].enabled && (p.entries[i].trig &&& x) ≠ 0

def freshItem (i : Fin 48) : WalkItem := { entry := i, secIdx := none, lapsed := false }

/-- An item placed just before the first whose sort key is greater, or at the end (R83 step 2). -/
def insertByKey (p : Plan) (i : WalkItem) : List WalkItem → List WalkItem
  | [] => [i]
  | x :: xs => if keyLess p i.entry x.entry then i :: x :: xs else x :: insertByKey p i xs

/-- The entries in `is` in sort order. -/
def sortEntries (p : Plan) (is : List (Fin 48)) : List WalkItem :=
  (is.map freshItem).foldr (insertByKey p) []

def allEntries : List (Fin 48) := List.finRange 48

/-- The walk for a trigger set (R75). -/
def walkFor (p : Plan) (x : TrigSet) : List WalkItem := sortEntries p (allEntries.filter (selected p x))

def sourceSet (src : Nat) : TrigSet := BitVec.twoPow 11 src

/-- The entries that a joining source adds (R83 step 2). -/
def addedEntries (p : Plan) (walk : List WalkItem) (src : Nat) : List (Fin 48) :=
  allEntries.filter fun i => selected p (sourceSet src) i && !(walk.any fun w => w.entry = i)

/-- The walk with the added entries in it: those whose key is above the cursor entry's among the entries after the cursor,
the rest at the end; without a cursor entry all are inserted (R83 step 2). -/
def growWalk (p : Plan) (walk : List WalkItem) (cursor : Option Nat) (added : List WalkItem) : List WalkItem :=
  match cursor with
  | none => added.foldl (fun w i => insertByKey p i w) walk
  | some c =>
    match walk[c]? with
    | none => walk ++ added
    | some here =>
      let past := added.filter fun i => keyLess p here.entry i.entry
      let rest := added.filter fun i => !keyLess p here.entry i.entry
      walk.take (c + 1) ++ past.foldl (fun w i => insertByKey p i w) (walk.drop (c + 1)) ++ rest

/-! ## The entry at the cursor -/

def Capture.entryOf (c : Capture) (i : WalkItem) : PlanEntry := c.snapshot.entries[i.entry]

/-- The walk position of the next entry to be reached. -/
def Capture.position (c : Capture) : Nat := c.cursor.getD 0

def Capture.itemHere (c : Capture) : Option WalkItem := c.walk[c.position]?

/-- The snapshot entry at the cursor. -/
def Capture.entryHere (c : Capture) : Option PlanEntry := c.itemHere.map c.entryOf

/-- The walk entries that have not ended: those at and after the cursor (R82). -/
def Capture.unfinished (c : Capture) : List WalkItem := c.walk.drop c.position

/-- The capture in progress. -/
def current (s : State) : Option Capture := if inProgress s then s.engine.capture else none

/-- The current section while it gathers, with its capture and entry. -/
def gathering (s : State) : Option (Capture × Section × PlanEntry) :=
  match current s with
  | some c =>
    match c.current, c.entryHere with
    | some sec, some e => if s.engine.phase = .gather then some (c, sec, e) else none
    | _, _ => none
  | none => none

/-- The bytes of data placed or about to be placed in a section (R84). -/
def Section.dataSoFar (sec : Section) : Nat := sec.img + sec.toPlace.length - 32

/-! ## Claims (R44) -/

def streamCount (c : Capture) (items : List WalkItem) (ch : Fin 4) : Nat :=
  (items.filter fun i => (c.entryOf i).kind = .stream && (c.entryOf i).chan = some ch).length

def allChannels : List (Fin 4) := List.finRange 4

/-- The channels named by STREAM entries among `items` are claimed, or their counts rise (R44). -/
def claimFor (c : Capture) (items : List WalkItem) (s : State) : State :=
  forEach allChannels (fun ch s =>
    let k := streamCount c items ch
    if k = 0 then s
    else s.onStream ch fun x =>
      { x with claim := match x.claim with
          | none => some { capture := c.number, count := k }
          | some y => some { y with count := y.count + k } }) s

/-- A STREAM section ends: its channel's count falls, and at 0 the channel is UNCLAIMED (R44). -/
def unclaimOne (e : PlanEntry) (s : State) : State :=
  match e.kind, e.chan with
  | .stream, some ch =>
    s.onStream ch fun x =>
      { x with claim := match x.claim with
          | none => none
          | some y => if y.count ≤ 1 then none else some { y with count := y.count - 1 } }
  | _, _ => s

/-- Every claim is released (R44, R102 step 4). -/
def unclaimAll (s : State) : State :=
  { s with streams := vmap (fun x => { x with claim := none }) s.streams }

/-! ## Retain lines (R98) -/

def lineCount (c : Capture) (items : List WalkItem) (k : Fin 8) : Nat :=
  (items.filter fun i => (c.entryOf i).retain = some k).length

def allLines : List (Fin 8) := List.finRange 8

/-- The lines that `items` name. -/
def namedLines (c : Capture) (items : List WalkItem) : BitVec 8 :=
  allLines.foldl (fun v k => if lineCount c items k = 0 then v else setBit v k.val true) 0

/-- The counts rise by the entries of `items` (R80 step 6, R83 step 4). -/
def countLines (c : Capture) (items : List WalkItem) (s : State) : State :=
  s.onEngine fun e => { e with retainCount := Vector.ofFn fun k => e.retainCount[k] + lineCount c items k }

/-- Lines are asserted, and RETAIN_ASSERTED is posted for those that were not asserted (R80 step 6, R83 step 4). -/
def assertLines (cap : Nat) (lines : BitVec 8) (s : State) : State :=
  let newly := lines &&& ~~~ s.engine.retain
  if newly = 0 then s
  else post .engine evRetainAsserted [cap, newly.toNat] (s.onEngine fun e => { e with retain := e.retain ||| newly })

/-- A section of an entry ends: its line's count falls, and an asserted line is released at 0 (R85 step 4, R98). -/
def releaseOne (cap : Nat) (e : PlanEntry) (s : State) : State :=
  match e.retain with
  | none => s
  | some k =>
    let n := s.engine.retainCount[k] - 1
    let s := s.onEngine fun x => { x with retainCount := vset x.retainCount k n }
    if n = 0 && s.engine.retain.getLsbD k.val then
      post .engine evRetainReleased [cap, k.val] (s.onEngine fun x => { x with retain := setBit x.retain k.val false })
    else s

/-- Every line still asserted is released, in ascending order (R98). -/
def releaseAll (cap : Nat) (s : State) : State :=
  forEach allLines (fun k s =>
    if s.engine.retain.getLsbD k.val then
      post .engine evRetainReleased [cap, k.val] (s.onEngine fun x => { x with retain := setBit x.retain k.val false })
    else s) s

end Sys2Proof.Machine
end

