-- ==== Sys2Proof/Machine/EngineOps.lean ====
section
/-! DEFINITION. Sys2Proof/Machine/EngineOps.lean: the Capture Engine's operations: answering triggers, opening, joining, ending a
section, closing early, the final flush and the close (R79 to R83, R92 to R103, R112). -/

namespace Sys2Proof.Machine

/-! ## Answering a trigger's sender (R8, R79, R80, R83, R100) -/

def onTerm (n : Fin 8) (f : Term → Term) (s : State) : State := s.onTrig fun t => { t with terms := vmod t.terms n f }

/-- A duration of whole seconds from now; a timer of 0 seconds is not started. -/
def secondsFrom (now : PartTime) (seconds : Nat) : Option PartTime :=
  if seconds = 0 then none else some (after now (usPerS * seconds))

/-- The term's re-arm timer starts when the term is FIRED and its hold-off is not 0 (R8). -/
def startRearm (n : Fin 8) (s : State) : State :=
  onTerm n (fun t =>
    if t.state = .fired && (s.settings.terms[n]).rearm ≠ 0 then
      { t with rearmAt := secondsFrom s.time (s.settings.terms[n]).rearm }
    else t) s

/-- The sender is told that its trigger opened or joined capture `cap`; `mark` is 0 OPENED or 1 JOINED (log 10). A term that
was armed or disarmed while its opening waited for a directory slot takes the number all the same (log 22). -/
def tellTaken (who : Sender) (mark : Byte) (cap : Nat) (s : State) : State :=
  match who with
  | .term n => onTerm n (fun t => { t with assoc := some cap }) s
  | .monitor => s
  | .port p => answer p .ok false (mark :: leBytes 4 cap) s

/-- The status of a CAPTURE reply for a refusal (R79). -/
def Refuse.status : Refuse → Status
  | .erasing => .inProgress
  | .numbers | .full => .full
  | .power => .holdup
  | .holdoff => .refusedState

/-- The refusal counter of a reason (R79). -/
def countRefusal (r : Refuse) (e : Engine) : Engine :=
  match r with
  | .full => { e with refFull := satInc e.refFull }
  | .numbers => { e with refNumbers := satInc e.refNumbers }
  | .power => { e with refPower := satInc e.refPower }
  | .erasing => { e with refErasing := satInc e.refErasing }
  | .holdoff => e

/-- The sender is told that its trigger was refused. -/
def tellRefused (who : Sender) (r : Refuse) (s : State) : State :=
  match who with
  | .term n => startRearm n (onTerm n (fun t => { t with assoc := none }) s)
  | .monitor => s
  | .port p => refuse p r.status s

/-- A trigger is refused (R79). -/
def refuseTrigger (src : Nat) (who : Sender) (r : Refuse) (s : State) : State :=
  tellRefused who r (post .engine evTriggerRefused [r.code, src] (s.onEngine (countRefusal r)))

/-! ## Testing a trigger in IDLE (R79) -/

def lastNumber : Nat := 4294967294

/-- Eight programs pay for an opening and leave the close reserve (R115). -/
def openingPrograms : Nat := 8

/-- A directory slot is FREE or can be freed (R79). -/
def slotToHave (s : State) : Bool := (lowestFreeSlot s.dir).isSome || (reclaimable s).isSome

/-- A capture-area block is FREE, being erased or can be freed; outside NORMAL a DIRTY block does not count (R79). -/
def blockToHave (s : State) : Bool :=
  !(blocksWhere (fun b => b = .free || b = .erasing || (isNormal s && b = .dirty)) s).isEmpty ||
    (entriesByCap s.dir).any fun e => isReclaimable s e && !(liveBlocks s e).isEmpty

/-- The first reason of R79 that applies in IDLE. -/
def refusalReason (s : State) : Option Refuse :=
  if lastNumber ≤ s.dir.lastCap then some .numbers
  else if !isNormal s && s.monitor.remaining < openingPrograms then some .power
  else if !slotToHave s then some .full
  else if !blockToHave s then some .full
  else none

/-! ## Opening (R80) -/

/-- The capture that a trigger sets up: snapshot, walk and number, and the settings of the moment, which a later write does not
change for it (R80 steps 1 and 2, R76). -/
def newCapture (src : Nat) (who : Sender) (s : State) : Capture :=
  { number := s.dir.lastCap + 1, slot := none, first := src, openTime := s.time, trigOpen := sourceSet src
    trig := sourceSet src, trigSeq := 0, preCount := s.settings.preCount, postCount := s.settings.postCount
    retainTime := s.settings.retainTime, epoch := none, sender := who, snapshot := s.plan
    walk := walkFor s.plan (sourceSet src), cursor := none, current := none
    nextPage := 0, nextIndex := 0, head := none, blocks := [], owed := [], clean := true, unrecorded := false
    closeOn := false, asked := false, noReclaim := false }

def hasHistory (c : Capture) (items : List WalkItem) : Bool := items.any fun i => (c.entryOf i).kind = .history

/-- Steps 2 to 7 of R80, with directory slot `slot`. -/
def openCapture (slot : Nat) (s : State) : State :=
  match s.engine.capture with
  | none => s
  | some c =>
    let s := s.onDir fun d => setSlot slot (.reserved c.number) { d with lastCap := c.number }
    let s := s.onCapture fun c =>
      { c with slot := some slot, openTime := s.time, asked := false, noReclaim := false
               epoch := if s.epochValid then some s.epoch else none }
    let s := raise .captureOpened (post .engine evCaptureOpened [c.number, c.first, c.trigOpen.toNat] s)
    let f := s.ring.counter - 1
    let s := s.onCapture fun c => { c with trigSeq := f }
    let s := if hasHistory c c.walk then setPin f c.preCount s else s
    let s := claimFor c c.walk s
    let s := countLines c c.walk s
    let s := assertLines c.number (namedLines c c.walk) s
    let s := s.onEngine fun e => { e with retainTimer := .running (after s.time (usPerS * c.retainTime)) }
    setPhase .openRecord (tellTaken c.sender 0 c.number s)

/-- A trigger that passes the tests opens a capture; without a FREE slot the opening waits for a reclamation (R80). -/
def beginOpening (src : Nat) (who : Sender) (s : State) : State :=
  let c := newCapture src who s
  let s := s.onEngine fun e =>
    { e with state := .opening, phase := .openSlot, capture := some c, cause := .none, stall := false }
  match lowestFreeSlot s.dir with
  | some slot => openCapture slot s
  | none => s

/-- The capture is discarded and the engine returns to IDLE. -/
def discardCapture (s : State) : State :=
  s.onEngine fun e => { e with state := .idle, phase := .rest, capture := none, cause := .none, stall := false }

/-! ## Joining (R83) -/

/-- The entries that a join adds, with the RETAIN_LAPSED mark where the retain timer has run out (R83 step 4). -/
def addedItems (c : Capture) (src : Nat) (s : State) : List WalkItem :=
  (sortEntries c.snapshot (addedEntries c.snapshot c.walk src)).map fun i =>
    { i with lapsed := s.engine.retainTimer = .ranOut && (c.entryOf i).retain.isSome }

/-- Steps 2 to 5 of R83. Before the opening has its slot, only the walk grows, and R80 acts on all of it (log 22). -/
def extendWalk (src : Nat) (s : State) : State :=
  match s.engine.capture with
  | none => s
  | some c =>
    let added := addedItems c src s
    let s := s.onCapture fun c => { c with walk := growWalk c.snapshot c.walk c.cursor added }
    if s.engine.phase = .openSlot then s
    else
      let s := claimFor c added s
      let s := match s.engine.retainTimer with
        | .running _ => assertLines c.number (namedLines c added) (countLines c added s)
        | .stopped | .ranOut => s
      if hasHistory c added then setPin c.trigSeq c.preCount s else s

/-- A trigger joins the capture in progress (R83). -/
def joinCapture (src : Nat) (who : Sender) (s : State) : State :=
  match s.engine.capture with
  | none => s
  | some c =>
    let trig := c.trig ||| sourceSet src
    let s := post .engine evTriggerJoined [c.number, src, trig.toNat] (s.onCapture fun c => { c with trig := trig })
    let s := if s.engine.state = .closing then s else extendWalk src s
    tellTaken who 1 c.number s

/-- A trigger arrives at the engine (R10, R78, R79, R83). While the controller is STARTING only a POWER trigger can arrive,
and it is kept as the pending POWER trigger. -/
def trigger (src : Nat) (who : Sender) (s : State) : State :=
  match s.engine.state with
  | .erasing => refuseTrigger src who .erasing s
  | .opening | .gathering | .closing => joinCapture src who s
  | .idle =>
    if !s.ready then (if src = sourcePower then s.onEngine fun e => { e with pendingPower := true } else s)
    else match refusalReason s with
      | some r => refuseTrigger src who r s
      | none => beginOpening src who s

/-! ## Staging buffers (R92) -/

def bufList (s : State) : List (Fin 4 × Buf) := (List.finRange 4).map fun i => (i, s.engine.bufs[i])

def bufWhere (p : Buf → Bool) (s : State) : Option (Fin 4) := ((bufList s).find? fun x => p x.2).map (·.1)

/-- FILLING or QUEUED: not started. -/
def Buf.unstarted (b : Buf) : Bool := b.state = .filling || b.state = .queued

/-- A buffer returns to EMPTY without programming. -/
def dropBuf (i : Fin 4) (s : State) : State := withdraw (.buf i) (s.onBuf i fun b => { b with state := .empty })

def dropBufs (is : List (Fin 4)) (s : State) : State := forEach is dropBuf s

/-- The unstarted buffer with the lowest logical page. -/
def lowestBuf (xs : List (Fin 4 × Buf)) : Option (Fin 4 × Buf) :=
  xs.foldl (fun best x => match best with
    | none => some x
    | some y => if x.2.page < y.2.page then some x else best) none

/-- The buffer's target lies in a block that is not in the capture's block list. -/
def Capture.unallotted (c : Capture) (b : Buf) : Bool := c.blocks.length ≤ b.page / blockPages

/-- The buffer joins the program queue (R92). -/
def queueBuf (i : Fin 4) (s : State) : State :=
  enqueue (.buf i) (s.onBuf i fun b => { b with state := .queued, part := b.bytes.length < pageBytes })

/-! ## Ending a section's gathering -/

def entryChannel (e : PlanEntry) : Option (Fin 4) := if e.kind = .fetch then e.chan else none

/-- A FETCH section's region is withdrawn (R61, R87). -/
def withdrawFor (c : Capture) (s : State) : State :=
  match c.entryHere.bind entryChannel with
  | some ch => withdrawRegion ch s
  | none => s

/-- The current section's gathering ends with outcome `o` and the data placed so far (R85). -/
def endGathering (o : OutcomeCode) (early : Bool) (s : State) : State :=
  match s.engine.capture with
  | none => s
  | some c =>
    let s := if early then withdrawFor c s else s
    setPhase .trailer (s.onSection fun x =>
      { x with toPlace := [], items := [], quietAt := none, ended := none, len := x.img - 32, outcome := o, early := early, stop := x.img })

/-- The current section's gathering has met its end, with bytes of it still to be placed. -/
def gatheringEnded (s : State) : Bool :=
  match s.engine.capture.bind fun c => c.current with
  | some x => x.ended.isSome
  | none => false

/-! ## Closing early (R93 to R96, R101, R102) -/

/-- The first early close decided sets the close cause (R102). -/
def setCause (k : CloseCause) (s : State) : State :=
  s.onEngine fun e => { e with cause := if e.cause = .none then k else e.cause }

/-- The outcome that the close gives later walk entries. -/
def CloseCause.skip : CloseCause → OutcomeCode
  | .space => .skippedSpace | .budget => .skippedBudget | .power => .skippedPower
  | .abort => .skippedAbort | .none => .skippedAbort

/-- A close is decided while the capture is opening: the engine is in CLOSING at once, so that joins add no entry, and what the
opening still does, up to the head page, comes first (6.1, R101, R102, log 22). -/
def closeOpening (k : CloseCause) (s : State) : State := setEngState .closing (setCause k s)

/-- The close comes for want of a page, which the section itself lacks (R93, R94). -/
def CloseCause.lacksPage (k : CloseCause) : Bool := k = .space || k = .budget

/-- An early close is decided: the current section's gathering ends with `o`, and the engine enters CLOSING (R102). A gathering
that has met its end keeps its outcome, but where the close comes because the section lacks a page: for its data, or for its
trailer (log 18). An entry at the cursor that has not begun is skipped by the close, one already due to be skipped for power
too (log 43). -/
def closeEarly (k : CloseCause) (o : OutcomeCode) (s : State) : State :=
  let s := setEngState .closing (setCause k s)
  match s.engine.phase with
  | .gather => if gatheringEnded s && !k.lacksPage then s else endGathering o true s
  | .trailer => if k.lacksPage then s.onSection fun x => { x with outcome := o, early := true } else s
  | .secBegin | .secSkip | .secEnter => setPhase .skips s
  | .openSlot | .openRecord | .openHead | .headWait => setPhase .drain s
  | .placeTrailer =>
    if !k.lacksPage then s
    else setPhase .drain (s.onSection fun x => { x with toPlace := [], outcome := o, early := true })
  | .rest | .drain | .secEnd | .secRecord | .skips | .closeRecord | .closeWait => s

/-- Where the section's data ends in its image. -/
def dataEnd (ph : Phase) (x : Section) : Nat := if ph = .gather then x.img else x.stop

def Buf.placed (b : Buf) : Placed := { page := b.page, start := b.start, stop := b.start + b.bytes.length }

/-- The data bytes among some parts of an image: after the header of 32 bytes, before the trailer at `stop` (R84, R85). -/
def dataIn (stop : Nat) (ps : List Placed) : Nat := (ps.map fun p => min stop p.stop - max 32 p.start).sum

/-- The logical page after these, at least `n`. -/
def pageAfter (ps : List Placed) (n : Nat) : Nat := ps.foldl (fun m p => max m (p.page + 1)) n

/-- What the section's accepted pages and its buffers that are not EMPTY hold (R112). -/
def Section.kept (s : State) (x : Section) : List Placed :=
  x.done ++ ((bufList s).filter fun y => y.2.state ≠ .empty && !y.2.isHead).map fun y => y.2.placed

/-- The section as an end leaves it that cuts its image: outcome `o`, `len` bytes of data, and the page count `pages` where it is
fixed. -/
def Section.cut (ph : Phase) (o : OutcomeCode) (len : Nat) (pages : Option Nat) (x : Section) : Section :=
  { x with toPlace := [], items := [], quietAt := none, ended := none, len := len, outcome := o, early := true, pages := pages
           stop := dataEnd ph x }

/-- A page number that counts no page at or past the cap (R94). -/
def Capture.capped (c : Capture) (page : Nat) : Nat := min page c.snapshot.pageCap

/-- A head page that returns to EMPTY leaves the next logical page where it would have gone: only skipped pages stand before it
(R86, log 17). -/
def Capture.headDropped (b : Buf) (c : Capture) : Capture :=
  if c.current.isNone then { c with nextPage := c.capped b.page } else c

/-- Buffers that `drop` picks return to EMPTY; the section is cut and ends with `o` (R92, R94). Its data is what its other pages
hold, and bytes of a trailer are none; it counts the pages before the lowest buffer dropped, and none at or past the cap; gaps
and records of data that is cut off stay counted (log 45). -/
def cutSection (k : CloseCause) (o : OutcomeCode) (drop : Buf → Bool) (s : State) : State :=
  match s.engine.capture with
  | none => s
  | some c =>
    let ph := s.engine.phase
    let gone := (bufList s).filter fun x => x.2.unstarted && drop x.2
    let s := withdrawFor c (dropBufs (gone.map (·.1)) s)
    let s := setEngState .closing (setCause k (s.onCapture fun c => { c with nextPage := c.capped c.nextPage }))
    let s := match lowestBuf gone with
      | none => s
      | some (_, b) => (s.onCapture (Capture.headDropped b)).onSection fun x =>
        x.cut ph o (dataIn (dataEnd ph x) (x.kept s)) (some (pageAfter (x.kept s) (c.capped b.page) - x.first))
    setPhase .drain s

/-! ## The capture's outcome (R96, R103) -/

/-- The capture's outcome (R103). -/
def captureOutcome (cause : CloseCause) (c : Capture) : OutcomeCode :=
  match cause with
  | .power => .truncatedPower
  | .space => .truncatedSpace
  | .budget => .truncatedBudget
  | .abort => .aborted
  | .none => if c.clean then .complete else .partialDone

/-- A CAPTURE_CLOSE record of capture `cap` with outcome `o`; another record as it is. -/
def JRec.reclosed (cap : Nat) (o : OutcomeCode) : JRec → JRec
  | .captureClose n old t trig head => .captureClose n (if n = cap then o else old) t trig head
  | r => r

/-- A CAPTURE_CLOSE record on its way, but for one in flight, takes the outcome that the close has now: a stalled capture closes
TRUNCATED_POWER whatever its record was formed with (R96, R107, R114). -/
def reformClose (s : State) : State :=
  match s.engine.capture with
  | none => s
  | some c =>
    let o := captureOutcome s.engine.cause c
    s.onDir fun d =>
      { d with
        slotted := d.slotted.map fun x => if x.flying then x else { x with record := x.record.reclosed c.number o }
        pending := d.pending.map fun x => (x.1.reclosed c.number o, x.2) }

/-! ## The final flush (R112) -/

/-- The trailer that a section's facts give. -/
def Section.trailer (x : Section) (o : OutcomeCode) (lapsed : Bool) (len : Nat) : List Byte :=
  trailerBytes o lapsed len x.records x.gaps

/-- A buffer as the final flush, of a section with `len` bytes of data that end at `stop` in the image: cut at the end of the data,
with the trailer where it fits in the room left. One that held bytes of a trailer alone holds the whole trailer (log 18). One whose
content had failed once keeps that mark (log 60). -/
def flushBuf (lapsed : Bool) (x : Section) (stop len : Nat) (b : Buf) : Buf :=
  let kept := b.bytes.take (stop - b.start)
  let room := kept.length + trailerSize x.gaps.length ≤ pageBytes
  { b with state := .filling, flush := true
           bytes := if room then kept ++ x.trailer .skippedPower lapsed len else kept }

/-- The page count that a refused program leaves: the pages before the lowest of the buffers dropped, `cut`, and as far as the last
page that is kept beyond it (R86, R112, log 31). -/
def Section.pagesForPower (s : State) (cut : Option Buf) (x : Section) : Option Nat :=
  match cut with
  | some o => some (pageAfter (x.kept s) o.page - x.first)
  | none => x.pages

/-- The section has ended and the close's records are being handed over, or the section's own is next (R85, R113). -/
def Phase.recording : Phase → Bool
  | .secRecord | .skips | .closeRecord | .closeWait => true
  | _ => false

/-- The capture closes for power. A CAPTURE_CLOSE record on its way takes the outcome of the cause that now stands (log 43). -/
def closeForPower (s : State) : State := reformClose (setEngState .closing (setCause .power s))

/-- The capture's unstarted buffers end with a refused program (R112): the lowest in an allotted block becomes the final flush,
the others return to EMPTY, and the section ends with the data of the pages accepted, in flight and in the final flush. Gaps and
records of data that is cut off stay counted (log 45). -/
def flushForPower (c : Capture) (s : State) : State :=
  let ph := s.engine.phase
  let lapsed := match c.itemHere with | some i => i.lapsed | none => false
  let waiting := (bufList s).filter fun x => x.2.unstarted
  let pick := lowestBuf (waiting.filter fun x => !c.unallotted x.2)
  let dropped := waiting.filter fun x => some x.1 ≠ pick.map (·.1)
  let cut := (lowestBuf dropped).map (·.2)
  let left := withdrawFor c (dropBufs (dropped.map (·.1)) s)
  let s := match pick with
    | none => left
    | some (i, b) => withdraw (.buf i) (left.onBuf i fun _ =>
      match c.current with
      | some x => flushBuf lapsed x (dataEnd ph x) (dataIn (dataEnd ph x) (x.kept left)) b
      | none => { b with state := .filling, flush := true })
  let s := match cut with
    | some o => s.onCapture (Capture.headDropped o)
    | none => s
  s.onSection fun x => x.cut ph .skippedPower (dataIn (dataEnd ph x) (x.kept left)) (x.pagesForPower left cut)

/-- An ordinary program of the capture is refused (R112), and the capture closes. Once the records of the close are being handed
over, no page and no section is left to end, and the close goes on where it stands (R113, log 43). -/
def powerClose (s : State) : State :=
  match s.engine.capture with
  | none => s
  | some c =>
    if s.engine.phase.recording then closeForPower s
    else setPhase .drain (closeForPower (flushForPower c s))

/-- The SECTION_BEGIN record of section `index` is returned with HOLDUP (R112): the section ends with no pages. A section whose
record has been formed already keeps it (log 43). -/
def refuseSectionBegin (index : Nat) (s : State) : State :=
  match s.engine.capture with
  | none => s
  | some c =>
    if s.engine.phase.recording || (c.current.map fun x => x.index) ≠ some index then powerClose s
    else
      let waiting := (bufList s).filter fun x => x.2.unstarted
      let s := withdrawFor c (dropBufs (waiting.map (·.1)) s)
      let s := match lowestBuf waiting with
        | some (_, b) => s.onCapture fun c => { c with nextPage := b.page }
        | none => s
      let s := s.onSection fun x => { x.cut s.engine.phase .skippedPower 0 (some 0) with gaps := [], records := 0 }
      setPhase .drain (closeForPower s)

/-- A BLOCK_ALLOT record is returned with HOLDUP (R112): the block stays FREE. -/
def refuseAllot (block : Nat) (s : State) : State :=
  let s := setBlock block .free s
  powerClose (s.onCapture fun c => { c with blocks := c.blocks.filter fun b => b ≠ block })

/-! ## Results of buffer programs (R92) -/

/-- The head page stands at logical page `head`, or failed twice: the opening that waited for it goes on to GATHERING, or to the
close that has been decided or that an empty walk brings (R81, R92, R101). A head page that ended as the final flush is waited
for by the close itself. -/
def headSettled (head : Option Nat) (s : State) : State :=
  let s := s.onCapture fun c => { c with head := head }
  match s.engine.phase, s.engine.capture with
  | .headWait, some c =>
    let first := s.onCapture fun c => { c with cursor := some 0 }
    if s.engine.state = .closing then setPhase .skips first
    else if c.walk.isEmpty then setPhase .closeRecord (setEngState .closing s)
    else setPhase .secBegin (setEngState .gathering first)
  | _, _ => s

/-- A buffer's program is accepted. -/
def bufAccepted (i : Fin 4) (s : State) : State :=
  let b := s.engine.bufs[i]
  let s := s.onBuf i fun b => { b with state := .empty, accepted := true }
  if b.isHead then headSettled (some b.page) s else s.onSection fun x => { x with done := x.done ++ [b.placed] }

/-- The logical page after a failed one, or the first of the next block when the failure retired the block. -/
def retryPage (c : Capture) (page : Nat) (s : State) : Nat :=
  match c.blocks[page / blockPages]? with
  | some block => if blockRetired s block then blockPages * (page / blockPages + 1) else page + 1
  | none => page + 1

/-- The section's page count where it is fixed, after a failure that moved its pages on (R86, R92, R113). -/
def Section.movePages (shift : Nat) (c : Capture) (x : Section) : Section :=
  { x with pages := x.pages.map fun n => min (n + shift) (c.snapshot.pageCap - x.first) }

/-- The first failure of a content: it is retried at the next page, and later targets move on (R92, R94). -/
def retryBuf (i : Fin 4) (c : Capture) (s : State) : State :=
  let b := s.engine.bufs[i]
  let shift := retryPage c b.page s - b.page
  let s := forEach (List.finRange 4) (fun j s =>
    s.onBuf j fun x => if x.unstarted && b.page < x.page then { x with page := x.page + shift } else x) s
  let s := (s.onCapture fun c => { c with nextPage := c.nextPage + shift }).onSection (Section.movePages shift c)
  let s := s.onBuf i fun x => { x with state := .queued, accepted := false, retried := true, page := x.page + shift }
  let s := enqueue (.buf i) s
  if (bufList s).any fun x => x.2.unstarted && decide (c.snapshot.pageCap ≤ x.2.page) then
    cutSection .budget .skippedBudget (fun x => c.snapshot.pageCap ≤ x.page) s
  else s

/-- The second failure of a content: the section ends STORE_FAULT with the data accepted before it, or the capture goes on without
a head page (R92). Its page count goes as far as the failed page, the buffers dropped and the pages accepted beyond (log 31).
Gaps and records of data that is cut off stay counted (log 45). -/
def faultBuf (i : Fin 4) (c : Capture) (s : State) : State :=
  let b := s.engine.bufs[i]
  let s := s.onBuf i fun x => { x with state := .empty, accepted := false }
  let next := retryPage c b.page s
  if b.isHead then headSettled none (s.onCapture fun c => { c with nextPage := c.capped (max c.nextPage next) })
  else
    let gone := (bufList s).filter fun x => x.2.unstarted
    let s := withdrawFor c (dropBufs (gone.map (·.1)) s)
    let s := s.onCapture fun c => { c with nextPage := c.capped (max c.nextPage next) }
    let last := match lowestBuf gone with
      | some (_, x) => max x.page next
      | none => max c.nextPage next
    setPhase .secEnd (s.onSection fun x =>
      let before := x.done.filter fun p => p.start < b.start
      { x.cut s.engine.phase .storeFault (dataIn (dataEnd s.engine.phase x) before)
          (some (c.capped (pageAfter x.done last) - x.first)) with done := before })

/-- A buffer's program failed (R92). A final flush whose content had failed once before it became the final flush is not retried
again (R113, log 60, the model's choice). -/
def bufFailed (i : Fin 4) (s : State) : State :=
  match s.engine.capture with
  | none => s
  | some c => if (s.engine.bufs[i]).retried then faultBuf i c s else retryBuf i c s

/-- The power stall is set, and the monitor applies its test (R113, R114). -/
def setStall (s : State) : State := applyExhaustion (s.onEngine fun e => { e with stall := true })

/-- A buffer's program is returned with HOLDUP: the final flush waits with the stall, any other is handled by R112. -/
def bufRefused (i : Fin 4) (s : State) : State :=
  if (s.engine.bufs[i]).flush then setStall (s.onBuf i fun b => { b with state := .filling }) else powerClose s

/-! ## The close (R102 steps 3 to 6, R103) -/

/-- The re-arm timers of the terms that the capture's close starts (R8). -/
def rearmForClose (cap : Nat) (s : State) : State :=
  forEach allLines (fun n s => if (s.trig.terms[n]).assoc = some cap then startRearm n s else s) s

/-- The host hold-off starts when the trigger set includes HOST and the setting is not 0 (R11). -/
def holdoffForClose (trig : TrigSet) (s : State) : State :=
  if trig.getLsbD sourceHost && s.settings.hostHoldoff ≠ 0 then
    s.onTrig fun t => { t with hostTimer := secondsFrom s.time s.settings.hostHoldoff }
  else s

/-- A RESTART is answered OK (R177); the first answered of several stands. -/
def answerRestart (p : PortId) (force : Bool) (cap : Nat) (o : Byte) (s : State) : State :=
  match s.link.restart with
  | some _ => answer p .ok false (markByte force :: leBytes 4 cap ++ [o]) s
  | none =>
    let s := s.onPort p fun q =>
      match q.service with
      | none => q
      | some r =>
        { q with service := none
                 tx := q.tx ++ [{ mkReply r.kind r.tag .ok false (markByte force :: leBytes 4 cap ++ [o]) with restarts := true }] }
    s.onLink fun l => { l with restart := some { port := p, force := force, sent := false } }

/-- The requests that wait for a capture's close are answered (R101, R177). -/
def answerClose (cap : Nat) (o : OutcomeCode) (s : State) : State :=
  forEach allPorts (fun p s =>
    match waitOf p s with
    | .close n => if n = cap then answer p .ok false (leBytes 4 cap ++ [o.code]) s else s
    | .restartClose n => if n = cap then answerRestart p true cap o.code s else s
    | _ => s) s

/-- A capture that never opened closes for nobody: an abort of it finds the engine in IDLE, and a forced RESTART has no
capture left to abort (log 22). -/
def answerUnopened (cap : Nat) (s : State) : State :=
  forEach allPorts (fun p s =>
    match waitOf p s with
    | .close n => if n = cap then refuse p .refusedState s else s
    | .restartClose n => if n = cap then answerRestart p true 0 0xFF s else s
    | _ => s) s

/-- An opening whose slot cannot be had is refused (R145). Only its own sender is told: a term that joined it keeps the number
as its associated capture (log 22). -/
def refuseOpening (r : Refuse) (s : State) : State :=
  match s.engine.capture with
  | none => s
  | some c => answerUnopened c.number (refuseTrigger c.first c.sender r (discardCapture s))

/-- Steps 4 to 6 of R102: the CAPTURE_CLOSE record has been programmed. -/
def finishClose (s : State) : State :=
  match s.engine.capture with
  | none => s
  | some c =>
    let o := match findEntry s.dir c.number with
      | some e => e.outcome.getD (captureOutcome s.engine.cause c)
      | none => captureOutcome s.engine.cause c
    let pages := match findEntry s.dir c.number with
      | some e => c.capped (capturePages s e)
      | none => 0
    let s := releaseAll c.number (unclaimAll (releasePin s))
    let s := clearSilent (s.onEngine fun e => { e with retainTimer := .stopped, retainCount := Vector.replicate 8 0 })
    let s := raise .captureClosed (post .engine evCaptureClosed [c.number, o.code.toNat, pages] s)
    let s := holdoffForClose c.trig (rearmForClose c.number s)
    answerClose c.number o (discardCapture s)

end Sys2Proof.Machine
end

