-- ==== Sys2Proof/Machine/Streams.lean ====
section
/-! DEFINITION. Sys2Proof/Machine/Streams.lean: the stream channels: receiving, completing and offering records, and the
commands SYNC_ASSERT, SYNC_RELEASE, STREAM_STALL and CLK_RISING_EDGE (chapter 3). -/

namespace Sys2Proof.Machine

def fifoMax : Nat := 16384
def wordsMax : Nat := 256
def stallUs : Nat := 10000

/-- The bytes held (R39). -/
def StreamChan.bytesHeld (c : StreamChan) : Nat := (c.fifo.map StreamRec.size).sum

/-- The record that SYNC opens (R32). -/
def openAssembly (now : PartTime) (cfg : StreamCfg) : Assembly :=
  { arrival := now.setWidth 32, paired := cfg.mode = .paired, packed := cfg.packing, words := [], frameCount := 0
    truncated := false, held := none, word := 0, bits := 0, lastEdge := now }

/-- Two words to a container, the earlier one low (R38). -/
def packWords : List (BitVec 32) → List (BitVec 32)
  | [] => []
  | [a] => [a]
  | a :: b :: rest => (a ||| (b <<< 16)) :: packWords rest

/-- The containers of a record (R38). -/
def containersOf (packed : Bool) (ws : List (BitVec 32)) : List (BitVec 32) := if packed then packWords ws else ws

/-- Some bit of a frame has been delivered and its last word is not complete (R35). -/
def Assembly.incomplete (a : Assembly) : Bool := a.bits ≠ 0 || a.held.isSome

/-- A completed frame: counted, and its words appended while they fit in 256 (R33, R37). -/
def Assembly.frame (a : Assembly) (ws : List (BitVec 32)) : Assembly :=
  let a := { a with frameCount := min (a.frameCount + 1) 65535, held := none, word := 0, bits := 0 }
  if a.words.length + ws.length ≤ wordsMax then { a with words := a.words ++ ws } else { a with truncated := true }

/-- One bit delivered (R33). -/
def Assembly.bit (a : Assembly) (wordLen : Nat) (now : PartTime) (da db : Bool) : Assembly :=
  let lane := if a.paired && a.held.isSome then db else da
  let a := { a with word := setBit a.word (wordLen - 1 - a.bits) lane, bits := a.bits + 1, lastEdge := now }
  if a.bits < wordLen then a
  else if a.paired then
    match a.held with
    | none => { a with held := some a.word, word := 0, bits := 0 }
    | some first => a.frame [first, a.word]
  else a.frame [a.word]

/-- The completed record (3.3). -/
def Assembly.record (a : Assembly) (ch : Fin 4) (syncError : Bool) : StreamRec :=
  { arrival := a.arrival, wordCount := a.words.length, dropsBefore := 0, syncError := syncError, truncated := a.truncated
    packed := a.packed, paired := a.paired, channel := ch, frameCount := a.frameCount
    containers := containersOf a.packed a.words }

def StreamChan.fits (c : StreamChan) (r : StreamRec) : Bool := c.bytesHeld + r.size ≤ fifoMax

/-- A record that fits is appended with the pending drop count (R40). -/
def StreamChan.append (c : StreamChan) (r : StreamRec) : StreamChan :=
  { c with fifo := c.fifo ++ [{ r with dropsBefore := min c.pendDrops 65535 }], pendDrops := 0 }

/-- The oldest records are removed, one at a time, until `size` bytes fit (R41). -/
def ageFifo (size : Nat) : List StreamRec → List StreamRec
  | [] => []
  | x :: xs => if ((x :: xs).map StreamRec.size).sum + size ≤ fifoMax then x :: xs else ageFifo size xs

def StreamChan.age (c : StreamChan) (r : StreamRec) : StreamChan :=
  let kept := ageFifo r.size c.fifo
  { c with fifo := kept, aged := satAdd c.aged (c.fifo.length - kept.length) }

/-- A record entered the FIFO of a channel: a quiet period of its section ends (R89). -/
def endQuiet (ch : Fin 4) (s : State) : State :=
  match gathering s with
  | some (_, _, e) =>
    if e.kind = .stream && e.chan = some ch then s.onSection fun sec => { sec with quietAt := none } else s
  | none => s

/-- A record that does not fit on a claimed channel is dropped (R42). -/
def dropRecord (ch : Fin 4) (cl : Claim) (r : StreamRec) (s : State) : State :=
  let s := s.onStream ch fun c => { c with overrun := satInc c.overrun, pendDrops := satInc c.pendDrops }
  if (s.streams[ch]).noticed = cl.capture then s
  else
    raise .streamOverrun (post (.stream ch) evStreamOverrun [cl.capture, r.size]
      (s.onStream ch fun c => { c with noticed := cl.capture }))

/-- A completed record is offered to the FIFO (R40 to R42). -/
def offerRecord (ch : Fin 4) (r : StreamRec) (s : State) : State :=
  let s := s.onStream ch fun c => { c with received := satInc c.received }
  let c := s.streams[ch]
  if c.fits r then endQuiet ch (s.onStream ch fun c => c.append r)
  else match c.claim with
    | some cl => dropRecord ch cl r s
    | none => endQuiet ch (s.onStream ch fun c => (c.age r).append r)

/-- The record in assembly is completed (R34 to R36); the receiver then stands in `next`. -/
def completeRecord (ch : Fin 4) (stall : Bool) (next : RxState) (s : State) : State :=
  match (s.streams[ch]).assembly with
  | none => s
  | some a =>
    let err := stall || a.incomplete
    let s := s.onStream ch fun c => { c with assembly := none, rx := next }
    let s := if err then s.onStream ch fun c => { c with syncErrors := satInc c.syncErrors } else s
    let s := if err then post (.stream ch) evFrameSyncError [a.words.length, (s.streams[ch]).syncErrors] s else s
    offerRecord ch (a.record ch err) s

/-! ## The commands -/

def syncLevel (ch : Fin 4) (b : Bool) (s : State) : State := s.onPins fun p => { p with sync := setBit p.sync ch.val b }

/-- SYNC is asserted (R32). -/
def syncAsserted (ch : Fin 4) (s : State) : State :=
  match (s.streams[ch]).rx with
  | .idle =>
    s.onStream ch fun c => { c with rx := .receiving, assembly := some (openAssembly s.time s.settings.stream[ch]) }
  | .disabled | .receiving | .waitRelease => s

def execSyncAssert (ch : Fin 4) (s : State) : Host.Outcome State Fault Refusal :=
  .next (whenPowered (syncAsserted ch) (syncLevel ch true s))

/-- SYNC is released (R32, R34, R35). -/
def syncReleased (ch : Fin 4) (s : State) : State :=
  match (s.streams[ch]).rx with
  | .receiving => completeRecord ch false .idle s
  | .waitRelease => s.onStream ch fun c => { c with rx := .idle }
  | .disabled | .idle => s

def execSyncRelease (ch : Fin 4) (s : State) : Host.Outcome State Fault Refusal :=
  .next (whenPowered (syncReleased ch) (syncLevel ch false s))

/-- The 10 ms without an edge have run out (R36, log 2). -/
def stallDue (ch : Fin 4) (s : State) : Bool :=
  (s.streams[ch]).rx = .receiving &&
    match (s.streams[ch]).assembly with
    | some a => reached s.time (after a.lastEdge stallUs)
    | none => false

/-- The stall completes the record; SYNC still asserted leaves the receiver waiting for its release (R36). -/
def streamStalled (ch : Fin 4) (s : State) : State :=
  if stallDue ch s then completeRecord ch true (if s.pins.sync.getLsbD ch.val then .waitRelease else .idle) s else s

def execStreamStall (ch : Fin 4) (s : State) : Host.Outcome State Fault Refusal := .next (whenPowered (streamStalled ch) s)

/-- A rising edge of CLK (R33, R37). -/
def clkEdge (ch : Fin 4) (da db : Bool) (s : State) : State :=
  if (s.streams[ch]).rx = .receiving then
    s.onStream ch fun c =>
      match c.assembly with
      | none => c
      | some a =>
        let b := a.bit (s.settings.stream[ch]).wordLen s.time da db
        { c with assembly := some b
                 truncated := if b.truncated && !a.truncated then satInc c.truncated else c.truncated }
  else s

def execClkRisingEdge (ch : Fin 4) (da db : Bool) (s : State) : Host.Outcome State Fault Refusal :=
  .next (whenPowered (clkEdge ch da db) s)

end Sys2Proof.Machine
end

