-- ==== Sys2Proof/Machine/EngineSteps.lean ====
section
/-! DEFINITION. Sys2Proof/Machine/EngineSteps.lean: the Capture Engine's own next step, taken as soon as what it needs is there
(R81 to R96, R102, R113, log 11). -/

namespace Sys2Proof.Machine

/-- A step was taken, or the engine waits for an event. -/
inductive Act
  | did (s : State)
  | wait
  deriving DecidableEq, Repr

/-- What came of asking for a reclamation. -/
inductive Sought
  | did (s : State)
  | wait
  | nothing
  deriving DecidableEq, Repr

/-! ## Reclaiming (R93, R145) -/

/-- The engine asks the Directory Manager to reclaim: once for its need, and again while the need is unmet and no erase is
pending (log 13). Once its DELETE record has been returned with HOLDUP nothing can be reclaimed, and the engine acts on that at
once (R145). `forBlock`: a pending erase may meet the need. -/
def seekReclaim (forBlock : Bool) (s : State) : Sought :=
  match s.engine.capture with
  | none => .wait
  | some c =>
    if s.dir.reclaim.isSome then .wait
    else if c.asked && !c.noReclaim && erasePending s then .wait
    else
      match (if c.noReclaim then none else reclaimable s) with
      | some e =>
        if journalRoom s then .did (startReclaim e.cap (s.onCapture fun c => { c with asked := true })) else .wait
      | none => if forBlock && erasePending s then .wait else .nothing

/-- The engine's need is met: a later need is asked for anew. -/
def needMet (s : State) : State := s.onCapture fun c => { c with asked := false, noReclaim := false }

/-! ## Blocks and pages (R92 to R94) -/

/-- The next block is allotted (R93); `dry` is what happens when no space can be had. -/
def allotBlock (dry : State → State) (s : State) : Act :=
  match s.engine.capture with
  | none => .wait
  | some c =>
    if !ordinaryOk s then .did (powerClose s)
    else match lowestFreeBlock s with
      | some b =>
        if journalRoom s then
          .did (hand (.blockAllot c.number b) .engine
            (setBlock b (.allotted c.number) (needMet (s.onCapture fun c => { c with blocks := c.blocks ++ [b] }))))
        else .wait
      | none =>
        match seekReclaim true s with
        | .did t => .did t
        | .wait => .wait
        | .nothing => .did (dry s)

/-- The next logical page cannot be given yet: it lies at the cap, or its block is still to be allotted. -/
def pageNeeds (c : Capture) (s : State) : Option Act :=
  if c.snapshot.pageCap ≤ c.nextPage then some (.did (closeEarly .budget .skippedBudget s))
  else if c.blocks.length ≤ c.nextPage / blockPages then
    some (allotBlock (closeEarly .space .skippedSpace) s)
  else none

/-- The lowest-numbered EMPTY buffer is set FILLING with the next logical page (R92). -/
def giveBuffer (c : Capture) (start : Nat) (bytes : List Byte) (isHead : Bool) (s : State) : Act :=
  match bufWhere (fun b => b.state = .empty) s with
  | none => .wait
  | some i =>
    match pageNeeds c s with
    | some a => a
    | none =>
      .did (s.onCapture (fun c => { c with nextPage := c.nextPage + 1 }) |>.onBuf i fun _ =>
        { state := .filling, cap := c.number, page := c.nextPage, start := start, bytes := bytes, part := false
          accepted := false, isHead := isHead, retried := false, flush := false })

def fillingBuf (s : State) : Option (Fin 4) := bufWhere (fun b => b.state = .filling) s

/-- The room left in a buffer (R92). -/
def Buf.room (b : Buf) : Nat := pageBytes - b.bytes.length

/-- The room left in the buffer being filled. -/
def fillRoom (s : State) : Nat :=
  match fillingBuf s with
  | some i => (s.engine.bufs[i]).room
  | none => 0

/-- The buffers that are EMPTY. -/
def emptyBufs (s : State) : Nat := ((bufList s).filter fun x => x.2.state = .empty).length

/-- The logical pages that can be given at once: under the page cap, in a block allotted or in the FREE block that can be
allotted now (R93, R94). -/
def pagesToGive (c : Capture) (s : State) : Nat :=
  let next := if (lowestFreeBlock s).isSome && journalRoom s && ordinaryOk s then 1 else 0
  min c.snapshot.pageCap (blockPages * (c.blocks.length + next)) - c.nextPage

/-- The room for data: in the buffer being filled and in the EMPTY buffers that can be given a page (R87, R88, log 12). -/
def roomNow (s : State) : Nat :=
  fillRoom s + match s.engine.capture with
    | some c => pageBytes * min (emptyBufs s) (pagesToGive c s)
    | none => 0

/-- A buffer of section data is queued after the engine's question to the monitor (R111, R112). -/
def queueData (i : Fin 4) (s : State) : State :=
  if (s.engine.bufs[i]).flush || (s.engine.bufs[i]).isHead || ordinaryOk s then queueBuf i s else powerClose s

/-- Bytes taken and not yet placed go into the buffer being filled, or into a new one. -/
def placeStep (c : Capture) (x : Section) (s : State) : Act :=
  match fillingBuf s with
  | none =>
    let part := x.toPlace.take pageBytes
    match giveBuffer c x.img part false s with
    | .did t =>
      if t.engine.phase = s.engine.phase && (fillingBuf t).isSome then
        .did (t.onSection fun y => { y with toPlace := y.toPlace.drop pageBytes, img := y.img + part.length })
      else .did t
    | .wait => .wait
  | some i =>
    let room := (s.engine.bufs[i]).room
    if room = 0 then .did (queueData i s)
    else
      let part := x.toPlace.take room
      .did ((s.onBuf i fun b => { b with bytes := b.bytes ++ part }).onSection fun y =>
        { y with toPlace := y.toPlace.drop room, img := y.img + part.length })

/-! ## Gathering (R84, R87 to R91) -/

/-- The effective quiet time in ms (R89). -/
def effectiveQuiet (c : Capture) (e : PlanEntry) (s : State) : Nat :=
  if !isNormal s || reached s.time (after c.openTime (usPerS * e.window.getD 0)) then 0 else e.quiet.getD 0

/-- The FIFO of an entry's channel is empty. -/
def fifoEmpty (e : PlanEntry) (s : State) : Bool :=
  match e.chan with
  | some ch => (s.streams[ch]).fifo.isEmpty
  | none => true

def pieceLen : Piece → Nat
  | .data _ bytes => bytes.length
  | .omission _ => 0

/-- The size of what the section's channel holds for it: the head record, where it is within the length limit (R88), or the
piece (R87). -/
def waitingSize (x : Section) (e : PlanEntry) (s : State) : Option Nat :=
  match e.kind, e.chan with
  | .stream, some ch =>
    match (s.streams[ch]).fifo with
    | r :: _ => if e.limit < x.dataSoFar + r.size then none else some r.size
    | [] => none
  | .fetch, some ch => (s.fetches[ch]).piece.map pieceLen
  | _, _ => none

/-- What waits has no room, for want of a page: it stays where it is, and the gathering ends at the page cap, or the engine gets
the next block (R93, R94). While too few buffers are EMPTY the engine waits for them. -/
def pageLack (c : Capture) (size : Nat) (s : State) : Act :=
  let lack := ceilDiv (size - fillRoom s) pageBytes
  if emptyBufs s < lack then .wait
  else if c.snapshot.pageCap < c.nextPage + lack then .did (closeEarly .budget .skippedBudget s)
  else allotBlock (closeEarly .space .skippedSpace) s

/-- The FIFO is empty and the effective quiet time is 0, so the gathering ends, whatever is still to be placed (R89). -/
def endsQuiet (c : Capture) (x : Section) (e : PlanEntry) (s : State) : Bool :=
  e.kind = .stream && x.ended.isNone && fifoEmpty e s && effectiveQuiet c e s = 0

/-- The step of a section that gathers with nothing left to place. -/
def gatherStep (c : Capture) (x : Section) (e : PlanEntry) (s : State) : Act :=
  match x.ended with
  | some o => .did (endGathering o false s)
  | none =>
    match e.kind with
    | .history | .note =>
      match x.items with
      | [] => .did (endGathering .complete false s)
      | y :: ys => .did (s.onSection fun x => { x with toPlace := y, items := ys, records := x.records + 1 })
    | .stream | .fetch =>
      match waitingSize x e s with
      | some n => if roomNow s < n then pageLack c n s else .wait
      | none => .wait

/-- Records within the length limit (R90). -/
def fitItems (limit : Nat) : Nat → List (List Byte) → List (List Byte)
  | _, [] => []
  | used, y :: ys => if used + y.length ≤ limit then y :: fitItems limit (used + y.length) ys else []

/-- The items of a HISTORY section (R28, R90). -/
def historyItems (c : Capture) (e : PlanEntry) (s : State) : List (List Byte) :=
  fitItems e.limit 0 ((s.ring.historyRange c.trigSeq c.postCount).map EventRec.bytes)

/-- A NOTE section takes its notes (R91). -/
def takeNotes (e : PlanEntry) (s : State) : List (List Byte) × State :=
  let items := fitItems e.limit 0 (s.engine.notes.map Note.item)
  (items, s.onEngine fun g => { g with notes := g.notes.drop items.length })

def freshSection (c : Capture) (now : PartTime) (header : List Byte) (items : List (List Byte)) : Section :=
  { index := c.nextIndex, first := c.nextPage, start := now, img := 0, toPlace := header, items := items, records := 0
    gaps := [], quietAt := none, ended := none, len := 0, outcome := .complete, early := false, pages := none
    done := [], stop := 0 }

/-- A FETCH section asks its channel for the region (R57, R60, R87). -/
def beginRegion (c : Capture) (e : PlanEntry) (s : State) : State :=
  match e.chan with
  | none => s
  | some ch =>
    let sp := e.space.getD .config
    let base := e.base.getD 0
    let runs := regionRuns s.settings.fetch[ch] sp base e.limit
    let s := s.onFetch ch fun f => { f with failures := 0 }
    if runs.all fun r => r.permit = .deny then
      s.onSection fun x => { x with gaps := [{ offset := 0, len := e.limit, reason := .denied }], ended := some .deniedAll }
    else if (s.fetches[ch]).state = .disabled || (s.fetches[ch]).silent = some c.number then
      post (.fetch ch) evFetchSilent [sp.code.toNat, base, e.limit]
        (s.onSection fun x => { x with ended := some .sourceSilent })
    else
      advanceRegion ch (s.onFetch ch fun f =>
        { f with region := some { space := sp, base := base, len := e.limit, runs := runs, silent := false } })

/-- A STREAM section begins: its quiet period starts if the FIFO is empty (R89). -/
def beginStream (e : PlanEntry) (s : State) : State :=
  if fifoEmpty e s then s.onSection fun x => { x with quietAt := some s.time } else s

/-- The section at the cursor begins (R84). -/
def beginSection (c : Capture) (item : WalkItem) (e : PlanEntry) (s : State) : State :=
  let history := if e.kind = .history then historyItems c e s else []
  let taken := if e.kind = .note then takeNotes e s else ([], s)
  let s := taken.2
  let header := sectionHeader c.nextIndex item.entry.val e s.time c.number
  let sec := freshSection c s.time header (history ++ taken.1)
  let s := s.onDir (reserveSection c.number)
  let s := hand (.sectionBegin c.number c.nextIndex item.entry.val e.kind c.nextPage s.time c.head) .engine s
  let s := post .engine evSectionBegun [c.number, c.nextIndex, item.entry.val] s
  let s := needMet (s.onCapture fun c =>
    { c with current := some sec, nextIndex := c.nextIndex + 1
             walk := c.walk.modify c.position fun i => { i with secIdx := some sec.index } })
  let s := setPhase .gather s
  match e.kind with
  | .fetch => beginRegion c e s
  | .stream => beginStream e s
  | .history | .note => s

/-! ## The end of a section (R85) and skipped entries (R82, R96, R102) -/

/-- No other HISTORY section of the walk is unfinished (R26). -/
def lastHistory (c : Capture) : Bool := !hasHistory c (c.walk.drop (c.position + 1))

/-- Steps 1 and 2 of R85. -/
def releaseForEnd (c : Capture) (e : PlanEntry) (s : State) : State :=
  let s := unclaimOne e s
  if e.kind = .history && lastHistory c then releasePin s else s

/-- The cursor moves (R82). -/
def advanceCursor (s : State) : State := s.onCapture fun c => { c with cursor := some (c.position + 1), current := none }

/-- The page count of the current section (R86). -/
def Section.pageCount (x : Section) (c : Capture) : Nat := x.pages.getD (c.nextPage - x.first)

/-- After a section: the next one begins, or the walk has ended, or the close goes on. -/
def afterSection (s : State) : State :=
  match s.engine.capture with
  | none => s
  | some c =>
    if s.engine.state = .closing then setPhase .skips s
    else if c.walk.length ≤ c.position then setPhase .closeRecord (setEngState .closing s)
    else setPhase .secBegin s

def endedWell (o : OutcomeCode) : Bool := o = .complete || o = .limited

/-- Steps 1 and 2 of R85 and the event of step 3. -/
def sectionEnd (c : Capture) (x : Section) (e : PlanEntry) (s : State) : State :=
  setPhase .secRecord (post .engine evSectionDone [x.index, x.outcome.code.toNat, x.len] (releaseForEnd c e s))

/-- The whole trailer stands in the section's accepted pages, behind its data (R85). -/
def Section.trailerDone (x : Section) : Bool := x.done.any fun p => x.stop + trailerSize x.gaps.length ≤ p.stop

/-- The SECTION_DONE record of step 3 of R85, and steps 4 and 5. Whether the trailer was written is kept beside it (R152, log 42). -/
def sectionRecordStep (c : Capture) (x : Section) (item : WalkItem) (e : PlanEntry) (s : State) : State :=
  let s := hand (.sectionDone c.number x.index item.entry.val e.kind x.outcome x.len x.first (x.pageCount c)
    x.gaps.length c.head) .engine (s.onDir (noteTrailer c.number x.index x.trailerDone))
  let s := s.onCapture fun c => { c with clean := c.clean && endedWell x.outcome }
  afterSection (advanceCursor (releaseOne c.number e s))

/-- A walk entry is skipped with outcome `o`: index, section-table entry, events and record (R82, R85, R102 step 2). -/
def skipEntry (o : OutcomeCode) (c : Capture) (item : WalkItem) (e : PlanEntry) (s : State) : State :=
  let s := releaseForEnd c e (s.onDir (reserveSection c.number))
  let s := post .engine evSectionDone [c.nextIndex, o.code.toNat, 0] s
  let s := hand (.sectionDone c.number c.nextIndex item.entry.val e.kind o 0 c.nextPage 0 0 c.head) .engine s
  let s := needMet (s.onCapture fun c =>
    { c with clean := false, nextIndex := c.nextIndex + 1
             walk := c.walk.modify c.position fun i => { i with secIdx := some c.nextIndex } })
  advanceCursor (releaseOne c.number e s)

/-- The rest of the walk is left unrecorded (R95, R102 step 2); the claim and retain counts of its entries stand until the close
releases them (log 49). -/
def leaveUnrecorded (s : State) : State := s.onCapture fun c => { c with unrecorded := true, clean := false }

/-- A section-table entry and journal room are there for `f`; else the engine reclaims, and `dry` if nothing can be had. -/
def withTableEntry (f dry : State → State) (s : State) : Act :=
  match lowestFreeSection s.dir with
  | some _ => if journalRoom s then .did (f s) else .wait
  | none =>
    match seekReclaim false s with
    | .did t => .did t
    | .wait => .wait
    | .nothing => .did (dry s)

/-- No section-table entry can be had for a section that is to begin (R95). -/
def outOfTable (s : State) : State := closeEarly .space .skippedSpace (leaveUnrecorded s)

/-- The cursor reaches an entry: at that moment it is decided whether power skips it (R96). -/
def reachEntry (e : PlanEntry) (s : State) : State :=
  setPhase (if e.cls = .extended && !isNormal s then .secSkip else .secEnter) s

/-- An EXTENDED entry reached outside NORMAL is skipped, though NORMAL may have returned while the engine waited (R96). Where no
section-table entry can be had for its record, the capture has run out of space, as for a section (log 49). -/
def sectionSkip (c : Capture) (item : WalkItem) (e : PlanEntry) (s : State) : Act :=
  withTableEntry (fun s => afterSection (skipEntry .skippedPower c item e s)) outOfTable s

/-- An entry that is not skipped begins its section (R84, R94, R95, R112). The page cap is tested before the monitor (log 55). -/
def sectionStart (c : Capture) (item : WalkItem) (e : PlanEntry) (s : State) : Act :=
  if c.snapshot.pageCap ≤ c.nextPage then .did (closeEarly .budget .skippedBudget s)
  else if !ordinaryOk s then .did (powerClose s)
  else withTableEntry (beginSection c item e) outOfTable s

/-! ## Closing (R102, R113) -/

/-- A compaction waits for NORMAL: a program of it was returned, or its erase may not start (R116, R141). -/
def compactionWaits (s : State) : Bool :=
  !isNormal s && (s.dir.comp.held || (s.dir.comp.state = .clearing && !journalEraseFlying s))

/-- The capture's CAPTURE_CLOSE record has its slot, so no compaction holds it up. -/
def closeSlotted (c : Capture) (s : State) : Bool :=
  s.dir.slotted.any fun x => match x.record with
    | .captureClose n .. => n = c.number
    | _ => false

/-- Outside NORMAL the capture must close: its close is on, or no data program can start (R113). -/
def mustClose (s : State) : Bool := !isNormal s && (s.engine.state = .closing || !ordinaryOk s)

/-- A close under holdup is tested before it starts, at the moment the capture must close (R113, log 16); and while a compaction
waits for NORMAL, no new record can be appended, so the close cannot be paid (R116). -/
def gateNeeded (c : Capture) (s : State) : Bool :=
  mustClose s && (!c.closeOn || (compactionWaits s && !closeSlotted c s))

/-- The test of a close: the power stall, or the close may go on (R113, R116). -/
def closeGate (c : Capture) (s : State) : State :=
  if s.monitor.remaining < closeReserve || (compactionWaits s && !closeSlotted c s) then setStall s
  else s.onCapture fun c => { c with closeOn := true }

/-- No data program can start, and buffers of a capture that is not closing yet wait to start: they end at once as refused
programs do (R112, R113, log 16). -/
def buffersRefused (s : State) : Bool :=
  s.engine.state ≠ .closing && !ordinaryOk s && (bufList s).any fun x => x.2.unstarted

/-- One entry skipped by the close (R102 step 2); entries left unrecorded decrease no count here (log 49). -/
def skipStep (c : Capture) (s : State) : Act :=
  match c.itemHere with
  | none => .did (setPhase .closeRecord s)
  | some item =>
    if c.unrecorded then .did (setPhase .closeRecord s)
    else withTableEntry (skipEntry s.engine.cause.skip c item (c.entryOf item)) leaveUnrecorded s

/-- Step 3 of R102. The record keeps the trigger set and close time of this moment where a trigger joins later (log 38). -/
def closeRecordStep (c : Capture) (s : State) : Act :=
  if journalRoom s then
    .did (setPhase .closeWait
      (hand (.captureClose c.number (captureOutcome s.engine.cause c) s.time c.trig c.head) .engine s))
  else .wait

/-- The buffers that are not EMPTY. -/
def busyBuf (s : State) : Bool := (bufList s).any fun x => x.2.state ≠ .empty

/-- The pages of a section that has ended its gathering are queued (R85, R112). -/
def drainStep (s : State) : Act :=
  match fillingBuf s with
  | some i => .did (queueData i s)
  | none => .did (setPhase .secEnd s)

/-- The wait for the last page of the section (R85). -/
def sectionEndStep (c : Capture) (s : State) : Act :=
  if (fillingBuf s).isSome then .did (setPhase .drain s)
  else if busyBuf s then .wait
  else match c.current, c.entryHere with
    | some x, some e => .did (sectionEnd c x e s)
    | _, _ => .did (setPhase .skips s)

/-- The trailer is placed, or left out of a section that ended early without room for it (R85). -/
def trailerStep (c : Capture) (x : Section) (s : State) : Act :=
  let lapsed := match c.itemHere with | some i => i.lapsed | none => false
  let bytes := x.trailer x.outcome lapsed x.len
  let place := .did (setPhase .placeTrailer (s.onSection fun y => { y with toPlace := bytes }))
  if bytes.length ≤ fillRoom s then place
  else if x.early then .did (setPhase .drain s)
  else match pageNeeds c s with
    | some a => a
    | none => place

/-- An opening that waits for a directory slot (R80 step 2, R145). One that finds nothing to reclaim is refused FULL, but for
POWER after a HOLDUP (log 22). -/
def openSlotStep (c : Capture) (s : State) : Act :=
  match lowestFreeSlot s.dir with
  | some slot => .did (openCapture slot s)
  | none =>
    match seekReclaim false s with
    | .did t => .did t
    | .wait => .wait
    | .nothing => .did (refuseOpening (if c.noReclaim then .power else .full) s)

/-- The CAPTURE_OPEN record of R81. -/
def openRecordStep (c : Capture) (s : State) : Act :=
  if journalRoom s then
    .did (setPhase .openHead
      (hand (.captureOpen c.number c.trigOpen c.first c.epoch.isSome c.openTime (c.epoch.getD 0)) .engine s))
  else .wait

/-- The head page is filled and queued (R81). -/
def openHeadStep (c : Capture) (s : State) : Act :=
  match giveBuffer c 0 (identityBlock c.number c.trigOpen c.first c.openTime c.epoch) true s with
  | .wait => .wait
  | .did t =>
    match t.engine.phase, fillingBuf t with
    | .openHead, some i => .did (setPhase .headWait (queueBuf i t))
    | _, _ => .did t

/-- A moved target that lies in a block still to be allotted (R92, R93). -/
def movedNeedsBlock (c : Capture) (s : State) : Bool := (bufList s).any fun x => x.2.unstarted && c.unallotted x.2

/-- An EXTENDED section is gathering while the monitor is not in NORMAL: it ends at once, with the power stall set or not (R96,
R115). One whose gathering has met its end while its header still waits for a block ends so too, and its header is dropped
(log 43). -/
def extendedEnds (c : Capture) (s : State) : Bool :=
  s.engine.phase = .gather && !isNormal s && c.current.isSome && match c.entryHere with
    | some e => e.cls = .extended
    | none => false

/-- The ends of a gathering that wait for nothing and program nothing, so that the power stall does not hold them up: of an
EXTENDED section outside NORMAL (R96, R115), of a STREAM section whose effective quiet time is 0 (R89, R115), and, in a stalled
engine, of a gathering that has met its end with nothing left to place. -/
def endsAtOnce (c : Capture) (s : State) : Option State :=
  if extendedEnds c s then some (endGathering .skippedPower true s)
  else match gathering s with
    | some (_, x, e) =>
      if endsQuiet c x e s then some (s.onSection fun y => { y with ended := some .complete })
      else if s.engine.stall && x.toPlace.isEmpty then x.ended.map fun o => endGathering o false s
      else none
    | none => none

/-- A section that is gathering: a close with no data program able to start (R113), placing, or its kind's step. -/
def gatheringStep (c : Capture) (x : Section) (e : PlanEntry) (s : State) : Act :=
  if !ordinaryOk s then .did (powerClose s)
  else if !x.toPlace.isEmpty then placeStep c x s
  else match fillingBuf s with
    | some i => if (s.engine.bufs[i]).room = 0 then .did (queueData i s) else gatherStep c x e s
    | none => gatherStep c x e s

/-- The step of a phase that has a current section. -/
def sectionStep (c : Capture) (s : State) : Act :=
  match c.current, c.itemHere with
  | some x, some item =>
    let e := c.entryOf item
    match s.engine.phase with
    | .gather => gatheringStep c x e s
    | .trailer => trailerStep c x s
    | .placeTrailer => if x.toPlace.isEmpty then .did (setPhase .drain s) else placeStep c x s
    | .secRecord => if journalRoom s then .did (sectionRecordStep c x item e s) else .wait
    | _ => .wait
  | _, _ => .wait

/-- The step of each phase; the wait for a directory slot is `engineStep`'s own. -/
def phaseStep (c : Capture) (s : State) : Act :=
  match s.engine.phase with
  | .rest | .openSlot | .headWait | .closeWait => .wait
  | .openRecord => openRecordStep c s
  | .openHead => openHeadStep c s
  | .secBegin =>
    match c.itemHere with
    | some item => .did (reachEntry (c.entryOf item) s)
    | none => .wait
  | .secSkip =>
    match c.itemHere with
    | some item => sectionSkip c item (c.entryOf item) s
    | none => .wait
  | .secEnter =>
    match c.itemHere with
    | some item => sectionStart c item (c.entryOf item) s
    | none => .wait
  | .gather | .trailer | .placeTrailer | .secRecord => sectionStep c s
  | .drain => drainStep s
  | .secEnd => sectionEndStep c s
  | .skips => skipStep c s
  | .closeRecord => closeRecordStep c s

/-- The engine's next step: an end that waits for nothing comes first. An opening without its directory slot has nothing to program
and nothing to close, so that no stall holds it up (R145). A stalled engine programs nothing; close records that were returned go
first (R113). -/
def engineStep (s : State) : Act :=
  match current s with
  | none => .wait
  | some c =>
    match endsAtOnce c s with
    | some t => .did t
    | none =>
      if s.engine.phase = .openSlot then openSlotStep c s
      else if s.engine.stall then .wait
      else match c.owed with
        | r :: rest =>
          if journalRoom s then .did (hand r .engine (s.onCapture fun c => { c with owed := rest })) else .wait
        | [] =>
          if gateNeeded c s then .did (closeGate c s)
          else if buffersRefused s then .did (powerClose s)
          else if movedNeedsBlock c s then allotBlock (cutSection .space .skippedSpace c.unallotted) s
          else phaseStep c s

end Sys2Proof.Machine
end

