-- ==== Sys2Proof/Machine/Results.lean ====
section
/-! DEFINITION. Sys2Proof/Machine/Results.lean: what the acceptance, failure or refusal of a program, a journal record or an
erase does for its requester (R112, R124, R127, R139, R145 to R150, R162, R163, R176). -/

namespace Sys2Proof.Machine

/-! ## Note pads (R148) -/

def Pad.statusByte (p : Pad) : Byte :=
  BitVec.ofNat 8 ((if p.pf then 1 else 0) + (if p.locked then 2 else 0) + (if p.aa then 4 else 0))

def Pad.endOffset (p : Pad) : Nat := p.text.length - 1

def onPad (p : PortId) (f : Pad → Pad) (s : State) : State := s.onPort p fun q => { q with pad := f q.pad }

def lockPad (p : PortId) (s : State) : State := onPad p (fun d => { d with locked := true }) s

/-! ## Journal records accepted (R138, R139) -/

/-- A capture's DELETE record is accepted: it is removed (R145, R147), and `k` is told how many blocks became DIRTY. -/
def deleteAccepted (cap : Nat) (k : Nat → State → State) (s : State) : State :=
  match findEntry s.dir cap with
  | some e => k (liveBlocks s e).length (removeCapture e s)
  | none => s

/-- A port's HOLD, RELEASE, DELETE or ANNOTATE record is accepted (R146, R147, R149). -/
def portRecordAccepted (p : PortId) (r : JRec) (s : State) : State :=
  match r with
  | .hold cap =>
    let s := s.onDir (recordEffect r)
    let n := heldCount s.dir
    answer p .ok false (leBytes 4 cap ++ leBytes 4 n) (post .directory evHoldSet [cap, n] s)
  | .release cap =>
    let s := s.onDir (recordEffect r)
    let n := heldCount s.dir
    answer p .ok false (leBytes 4 cap ++ leBytes 4 n) (post .directory evHoldReleased [cap, n] s)
  | .delete cap _ =>
    answer p .ok false (leBytes 4 cap)
      (deleteAccepted cap (fun n => post .directory evDeleted [cap, n]) s)
  | .annotate cap slot len =>
    let s := post .directory evAnnotated [cap, slot, len] (s.onDir (recordEffect r))
    let s := onPad p (fun _ => { Pad.initial with aa := true }) s
    answer p .ok false [(s.port p).pad.statusByte] s
  | _ => s

/-- A pad with a target has lost it to ERASE_ALL (R150). -/
def Pad.forget (d : Pad) : Pad := { d with gone := d.target.isSome }

/-- The note pads that target an erased capture keep that it is gone (R150). -/
def forgetPads (s : State) : State :=
  s.onLink fun l => { l with ports := vmap (fun q => { q with pad := q.pad.forget }) l.ports }

/-- Associated captures, noticed captures and note pads' targets of numbers that ERASE_ALL gives anew are forgotten (R8, R42,
R150). -/
def forgetNumbers (s : State) : State :=
  let s := s.onDir fun d => { d with lastCap := 0 }
  let s := s.onTrig fun t => { t with terms := vmap (fun x => { x with assoc := none }) t.terms }
  forgetPads { s with streams := vmap (fun c => { c with noticed := 0 }) s.streams }

/-- CHECKPOINT_END is accepted (R140 step 6); for ERASE_ALL the last number assigned becomes 0 (R150 step 4). -/
def checkpointAccepted (gen : BitVec 32) (slot : Nat) (s : State) : State :=
  let all := s.dir.comp.all
  let s := finishCompaction gen slot s
  if all then
    (forgetNumbers s).onDir fun d => { d with eraseAll := d.eraseAll.map fun e => { e with step := .erases } }
  else s

/-- A RELOCATE record is accepted (R162 step 4). -/
def relocateAccepted (m : MapEntry) (s : State) : State :=
  let s := s.onDir (putMap m)
  let s := s.onInteg fun g => { g with scrub := g.scrub.filter (fun p => p ≠ m.source), reloc := none }
  post .integrity evScrubDone [m.source, m.pool] s

/-- A record takes its effect and its requester is answered (R139). -/
def recordAccepted (x : Slotted) (s : State) : State :=
  match x.who, x.record with
  | .snapshot, .checkpointEnd gen _ => checkpointAccepted gen x.slot s
  | .snapshot, _ => s
  | .engine, .captureClose .. => finishClose (s.onDir (recordEffect x.record))
  | .engine, r => s.onDir (recordEffect r)
  | .retirement, _ => s
  | .port p, r => portRecordAccepted p r s
  | .reclaim, .delete cap _ =>
    deleteAccepted cap (fun n => post .directory evReclaimed [cap, n]) (s.onDir fun d => { d with reclaim := none })
  | .reclaim, _ => s
  | .eraseAll, .delete cap _ =>
    let live := match findEntry s.dir cap with | some e => liveBlocks s e | none => []
    deleteAccepted cap (fun n s =>
      post .directory evDeleted [cap, n] (s.onDir fun d =>
        { d with eraseAll := d.eraseAll.map fun e =>
            { e with captures := e.captures + 1, blocks := e.blocks ++ live } })) s
  | .eraseAll, _ => s
  | .relocation, .relocate source pool poisoned => relocateAccepted { source := source, pool := pool, poisoned := poisoned } s
  | .relocation, _ => s

/-! ## Journal records returned with HOLDUP (R112, R113, R117, R124, R145, R149, R162) -/

/-- HOLDUP is handed to a record's requester. A CAPTURE_CLOSE record is formed anew when the close goes on (R96, R102). -/
def recordRefused (x : Slotted) (s : State) : State :=
  match x.who, x.record with
  | .engine, .sectionBegin _ index _ _ _ _ _ => refuseSectionBegin index s
  | .engine, .blockAllot _ block => refuseAllot block s
  | .engine, .captureClose .. => setStall (setPhase .closeRecord s)
  | .engine, r => setStall (s.onCapture fun c => { c with owed := c.owed ++ [r] })
  | .retirement, r => s.onStore fun t => { t with unjournaled := t.unjournaled ++ [(r, true)] }
  | .port p, .annotate .. => refuse p .holdup (lockPad p s)
  | .port p, _ => refuse p .holdup s
  | .reclaim, _ => (s.onDir fun d => { d with reclaim := none }).onCapture fun c => { c with noReclaim := true }
  | .relocation, _ => s.onInteg fun g => { g with reloc := none }
  | .eraseAll, _ => s
  | .snapshot, _ => s

/-! ## Programs -/

/-- The note text's place in a head page (R148). -/
def slotOffset (slot : Nat) : Nat := 32 + 120 * slot

/-- The ANNOTATE record follows the accepted program of a commit (R149). -/
def commitAccepted (p : PortId) (s : State) : State :=
  match (s.port p).pad.target with
  | some (cap, slot) => setWait p (.record (.annotate cap slot (s.port p).pad.text.length) false) s
  | none => s

/-- The settings store's pages (R176). -/
def settingsBlock : Nat := 2
def positionPages : Nat := 4

/-- The lowest position none of whose pages is retired (R176 step 2). -/
def lowestPosition (retired : List Nat) : Option Nat :=
  (List.range 32).find? fun k =>
    (List.range positionPages).all fun j => !retired.contains (blockPages * settingsBlock + positionPages * k + j)

def endStore (st : Status) (fields : List Byte) (s : State) : State :=
  match s.link.store with
  | none => s
  | some op => answer op.port st false fields (s.onLink fun l => { l with store := none })

/-- A FAIL of the settings store: once back to its erase, then the end (R176). Outside NORMAL the second erase would be held, so
the request is answered HOLDUP (R116). -/
def storeFailed (s : State) : State :=
  match s.link.store with
  | none => s
  | some op =>
    if op.failed then endStore .refusedState [] s
    else if !isNormal s then endStore .holdup [] s
    else enqueue (.erase .settings settingsBlock)
      (s.onLink fun l => { l with store := some { op with step := .erasing, failed := true } })

/-- A page of the image is accepted: the next one follows, or the store is done (R176 steps 2 and 3). The position used is sent in one
byte, as an index (log 10). -/
def storePageAccepted (s : State) : State :=
  match s.link.store with
  | none => s
  | some op =>
    match op.step with
    | .erasing => s
    | .programming page k =>
      if k + 1 < positionPages then
        enqueue .settings (s.onLink fun l => { l with store := some { op with step := .programming page (k + 1) } })
      else
        endStore .ok (leBytes 1 ((page - blockPages * settingsBlock) / positionPages))
          (post (.port op.port) evSettingsStored [] s)

/-- The erase of block 2 is done: the image goes to the lowest usable position (R176 step 2, log 23). -/
def storeErased (s : State) : State :=
  match s.link.store, lowestPosition s.store.retPages with
  | some op, some k =>
    enqueue .settings (s.onLink fun l =>
      { l with store := some { op with step := .programming (blockPages * settingsBlock + positionPages * k) 0 } })
  | some _, none => endStore .refusedState [] s
  | none, _ => s

/-- The relocation in progress is the one whose program into `page` was in flight. -/
def relocFlying (page : Nat) (s : State) : Bool :=
  match s.integ.reloc with
  | some r => r.step = .programming && poolBase + r.pool = page
  | none => false

def setRelocStep (k : RelocStep) (s : State) : State :=
  s.onInteg fun g => { g with reloc := g.reloc.map fun r => { r with step := k } }

/-- Records carried by the program in flight are accepted, in their order (R130, R139). -/
def journalAccepted (s : State) : State :=
  let flying := s.dir.slotted.filter fun x => x.flying
  forEach flying recordAccepted (s.onDir fun d => { d with slotted := d.slotted.filter fun x => !x.flying })

/-- ACCEPTED is handed to the requester (R123). -/
def programAccepted (who : Programmer) (page : Nat) (s : State) : State :=
  match who with
  | .buf i => bufAccepted i s
  | .journal => journalAccepted s
  | .relocation => if relocFlying page s then setRelocStep (.record false) s else s
  | .commit p => commitAccepted p s
  | .settings => storePageAccepted s

/-- FAIL is handed to the requester (R124's table). The new slots of the records of a failed journal program can leave fewer than 64
free, or none, and then start a compaction before its RETIRE_PAGE record is handed over (R139). -/
def programFailed (who : Programmer) (page : Nat) (s : State) : State :=
  match who with
  | .buf i => bufFailed i s
  | .journal => reformClose (startCompaction (s.onDir (moveOn s.store.retPages page)))
  | .relocation => if relocFlying page s then setRelocStep .needPage s else s
  | .commit p => refuse p .refusedState (lockPad p s)
  | .settings => storeFailed s

/-- Between two states the slotted records have left for the pending list, for want of a later page (R139). -/
def leftSlots (s t : State) : Bool :=
  s.dir.comp.state ≠ .writing && !s.dir.slotted.isEmpty && t.dir.slotted.isEmpty

/-- A program failed its verify at word `word` (R124, R125); the records of a failed journal program move on before the
RETIRE_PAGE record is appended (R139). -/
def verifyFailed (who : Programmer) (page word : Nat) (s : State) : State :=
  let report := reportProgramFail (programOperation who) page word
  match who with
  | .journal =>
    let t := programFailed .journal page s
    report (if leftSlots s t then retireBehind s.dir.slotted.length page t else retireForProgram page t)
  | .buf _ | .relocation | .commit _ | .settings => programFailed who page (report (retireForProgram page s))

/-- A program whose target is retired is answered FAIL without being started (R126). -/
def targetFailed (who : Programmer) (page : Nat) (s : State) : State :=
  programFailed who page (reportProgramFail (programOperation who) page 0 s)

/-! ## Erases (R127) -/

/-- ERASE_ALL waits for one erase less. -/
def EraseAll.ended (block : Nat) (done : Bool) (e : EraseAll) : EraseAll :=
  if e.blocks.contains block then
    { e with blocks := e.blocks.filter fun b => b ≠ block, erased := if done then e.erased + 1 else e.erased }
  else e

/-- An erase of ERASE_ALL has ended (R150 step 5). -/
def noteErase (block : Nat) (done : Bool) (s : State) : State :=
  s.onDir fun d => { d with eraseAll := d.eraseAll.map (EraseAll.ended block done) }

/-- DONE or FAIL is handed to the requester of an erase. The next pool page is the first that is not retired, after DONE too (R163,
log 54). -/
def eraseHanded (who : Eraser) (done : Bool) (s : State) : State :=
  match who with
  | .area => s
  | .journal => if s.dir.comp.state = .clearing then beginSnapshot s else s
  | .pool => s.onInteg fun g => { g with nextPool := poolFrom s.store.retPages 0, poolErase := .none }
  | .settings => if done then storeErased s else storeFailed s

/-- The erase of a block has ended with the pages `bad` not reading erased (R127, R128); the report names the lowest of them
(R133, log 40). -/
def eraseEnded (who : Eraser) (block : Nat) (bad : List Nat) (s : State) : State :=
  match bad with
  | [] => noteErase block true (eraseHanded who true (if areaBlock block then setBlock block .free s else s))
  | p :: _ =>
    let s := reportEraseFail p (firstUnerased s.flash p) s
    let s := if areaBlock block then retireBlock block .eraseFail s else retireForErase bad s
    noteErase block false (eraseHanded who false s)

end Sys2Proof.Machine
end

