-- ==== Sys2Proof/Machine/Pump.lean ====
section
/-! DEFINITION. Sys2Proof/Machine/Pump.lean: the steps that blocks take at once when what they wait for is there, and their
repetition within one command (95_what_each_step_holds.md, log 11). -/

namespace Sys2Proof.Machine

/-- A request's record that waited for room is handed over (R139, R141). Of several ports that wait, HOST comes before MANAGEMENT
and MANAGEMENT before SERVICE, whichever began to wait first (log 56). -/
def portStep (s : State) : Act :=
  if !journalRoom s then .wait
  else match allPorts.findSome? fun p => match waitOf p s with
    | .record r false => some (p, r)
    | _ => none with
  | some (p, r) => .did (setWait p (.record r true) (hand r (.port p) s))
  | none => .wait

/-- An unjournaled retirement's record is handed over when room returns, or at NORMAL if it was returned (R124, R141). -/
def retirementStep (s : State) : Act :=
  if !journalRoom s then .wait
  else match s.store.unjournaled.findIdx? fun x => !x.2 || isNormal s with
  | some i =>
    match s.store.unjournaled[i]? with
    | some (r, _) => .did (hand r .retirement (s.onStore fun t => { t with unjournaled := t.unjournaled.eraseIdx i }))
    | none => .wait
  | none => .wait

/-- Step 1 of R162: the source page is read and taken, and the copy waits for its pool page. -/
def readSource (page : Nat) (s : State) : State :=
  let ws := readMapped s page
  (takePage .relocate page (mapped s.dir.map page) ws s).onInteg fun g =>
    { g with reloc := some { page := page, content := bytesOfWords ws, poisoned := classSet .poisoned ws, pool := 0
                             step := .needPage } }

/-- A relocation reads its source once no operation is in flight on it (R129), queues its program, or hands over its record (R162). One whose program failed at the last pool page ends, and starts
again from step 1 later (log 63, the model's choice). -/
def relocateStep (s : State) : Act :=
  match s.integ.reloc with
  | none => .wait
  | some r =>
    match r.step with
    | .reading => if pageBusy s (mapped s.dir.map r.page) then .wait else .did (readSource r.page s)
    | .needPage =>
      let p := poolFrom s.store.retPages s.integ.nextPool
      if p < blockPages then
        .did (enqueue .relocation (setRelocStep .queued s))
      else .did (s.onInteg fun g => { g with nextPool := blockPages, reloc := none })
    | .record false =>
      let dying := match ownerOf s.dir r.page with | some e => deletePending e.cap s | none => false
      if journalRoom s && !dying then
        .did (setRelocStep (.record true) (hand (.relocate r.page r.pool r.poisoned) .relocation s))
      else .wait
    | .queued | .programming | .record true => .wait

/-- Compaction starts where no slot given starts it, as at the return to NORMAL, or queues its erase once every slotted record is
accepted or answered (R140 steps 1 and 2). -/
def compactStep (s : State) : Act :=
  match s.dir.comp.state with
  | .none => if compactionDue s then .did (startCompaction s) else .wait
  | .clearing =>
    if s.dir.slotted.isEmpty && !s.dir.comp.eraseQueued then
      .did (enqueue (.erase .journal (otherBlock s.dir)) (s.onDir fun d => { d with comp := { d.comp with eraseQueued := true } }))
    else .wait
  | .writing => .wait

/-- The pool is full and nothing in it is in use: its erase is queued (R163, log 24). -/
def poolStep (s : State) : Act :=
  if s.ready && s.dir.map.isEmpty && s.integ.reloc.isNone && s.integ.poolErase = .none &&
      poolFrom s.store.retPages s.integ.nextPool = blockPages then
    .did (enqueue (.erase .pool 3) (s.onInteg fun g => { g with nextPool := blockPages, poolErase := .queued }))
  else .wait

/-! ## ERASE_ALL (R150) -/

/-- The captures whose DELETE record for ERASE_ALL is on its way. -/
def erasing (s : State) (cap : Nat) : Bool :=
  (s.dir.slotted.any fun x => x.who = .eraseAll && x.record = .delete cap .eraseAll) ||
    s.dir.pending.any fun x => x.2 = .eraseAll && x.1 = .delete cap .eraseAll

def setEraseStep (k : EraseStep) (s : State) : State :=
  s.onDir fun d => { d with eraseAll := d.eraseAll.map fun e => { e with step := k } }

/-- A block's erase is one that ERASE_ALL waits for. -/
def awaitErase (block : Nat) (s : State) : State :=
  s.onDir fun d => { d with eraseAll := d.eraseAll.map fun e => { e with blocks := e.blocks ++ [block] } }

def anyCommit (s : State) : Bool := allPorts.any fun p => (committing p s).isSome

/-- The next step of ERASE_ALL (R150). Its DELETE records are handed over while an ordinary program may start. The pool's erase is
queued whatever the map holds (log 57). The checkpoint becomes CLEARING outside NORMAL too, and one that was abandoned starts
again at once (log 46). -/
def eraseAllStep (s : State) : Act :=
  match s.dir.eraseAll with
  | none => .wait
  | some e =>
    match e.step with
    | .waiting => if s.dir.comp.state = .none && !anyCommit s then .did (setEraseStep .deleting s) else .wait
    | .deleting =>
      if (entriesOf s.dir).isEmpty then .did (setEraseStep .pool s)
      else match (entriesByCap s.dir).find? fun x => !erasing s x.cap with
        | some x =>
          if journalRoom s && ordinaryOk s then .did (hand (.delete x.cap .eraseAll) .eraseAll s) else .wait
        | none => .wait
    | .pool =>
      let s := awaitErase 3 (setEraseStep .checkpoint s)
      if s.integ.poolErase = .none then
        .did (enqueue (.erase .pool 3) (s.onInteg fun g => { g with poolErase := .queued }))
      else .did s
    | .checkpoint =>
      if s.dir.comp.state = .none then
        .did (awaitErase (otherBlock s.dir)
          (s.onDir fun d => { d with comp := { Compaction.initial with state := .clearing, all := true } }))
      else .wait
    | .erases =>
      if e.blocks.isEmpty then
        .did (answer e.port .ok false (leBytes 4 e.captures ++ leBytes 4 e.erased)
          (setEngState .idle (s.onDir fun d => { d with eraseAll := none })))
      else .wait

/-! ## Repetition -/

/-- The blocks' steps in the order in which the first that can be taken is. A compaction comes first, so that it starts before any
block hands a record over (R140 step 1, log 11). -/
def blockSteps : List (State → Act) :=
  [compactStep, engineStep, portStep, retirementStep, relocateStep, eraseAllStep, poolStep]

def firstStep : List (State → Act) → State → Act
  | [], _ => .wait
  | f :: fs, s =>
    match f s with
    | .did t => .did t
    | .wait => firstStep fs s

/-- Steps are taken until none can be, at most `n`. -/
def pump : Nat → State → State
  | 0, s => s
  | n + 1, s =>
    match firstStep blockSteps s with
    | .did t => pump n t
    | .wait => s

/-- More steps than one command can bring (log 11). -/
def pumpFuel : Nat := 4096

/-- Every block takes the steps that it can take at once. -/
def settle (s : State) : State := keeping (pump pumpFuel) s

end Sys2Proof.Machine
end

