-- ==== Sys2Proof/Machine/Requests.lean ====
section
/-! DEFINITION. Sys2Proof/Machine/Requests.lean: taking a request at its port (R168, R169, R181), and the sizes of reply fields
(R182). -/

namespace Sys2Proof.Machine

/-! ## Fields (R182, log 10) -/

/-- A number in 4 bytes. -/
def num (n : Nat) : List Byte := leBytes 4 n

/-- An optional number, absent as 0. -/
def optNum (o : Option Nat) : List Byte := num (o.getD 0)

/-- A list whose number of elements the rule does not carry as a field of its own. -/
def listField (xs : List (List Byte)) : List Byte := leBytes 2 xs.length ++ xs.flatten

/-- A part time in 6 bytes, absent as 0. -/
def timeField (t : PartTime) : List Byte := leBits 6 t

/-- A set in 2 bytes. -/
def setField {w : Nat} (v : BitVec w) : List Byte := leBits 2 v

/-- The controller state: STARTING 0, READY 1. -/
def readyCode (s : State) : Byte := markByte s.ready

/-! ## Taking a request (R168) -/

/-- Step 1: BUSY at once, with the request's own kind and tag. -/
def busyReply (p : PortId) (kind tag : Byte) (s : State) : State :=
  s.onPort p fun q =>
    { q with tx := q.tx ++ [mkReply kind tag .busy false []], busyReplies := satInc q.busyReplies, rx := none }

/-- The read-ahead buffer outlives the request (R160). -/
def keepsAhead (kind : Byte) : Bool := kind = kListCaptures || kind = kReadSection

/-- Steps 2 and 4: the request becomes the port's request in service, with the level sampled. -/
def accept (p : PortId) (kind tag : Byte) (s : State) : State :=
  s.onPort p fun q =>
    { q with rx := none, service := some { kind := kind, tag := tag, level := portLevel p s, wait := .none }
             requests := satInc q.requests, ahead := if keepsAhead kind then q.ahead else none }

/-- Step 4: DENIED, counted, posted and noticed. -/
def deny (p : PortId) (kind : Byte) (level : Level) (s : State) : State :=
  let s := s.onPort p fun q => { q with denied := satInc q.denied }
  refuse p .denied (raise .accessDenied (post (.port p) evAccessDenied [kind.toNat, level.code] s))

/-- A request that the controller answers while it is STARTING (R168 step 5). -/
def answeredEarly (kind : Byte) : Bool := kind = kIdentify || kind = kStatus

/-- A request is taken at its port (R168); `body` is what its owning block does. -/
def takeRequest (p : PortId) (kind tag : Byte) (body : State → State) (s : State) : State :=
  match (s.port p).service with
  | some _ => busyReply p kind tag s
  | none =>
    let level := portLevel p s
    let t := accept p kind tag s
    if (admission kind).isNone then refuse p .unknownKind t
    else if !admits kind level then deny p kind level t
    else if !s.ready && !answeredEarly kind then refuse p .starting t
    else body t

/-- A request's meaning: taken where the part has power. -/
def request (p : PortId) (kind tag : Byte) (body : State → State) (s : State) : Host.Outcome State Fault Refusal :=
  .next (whenPowered (takeRequest p kind tag body) s)

/-- The meaning of a request that changes more than the blocks. -/
def requestBut (take : State → State → State) (p : PortId) (kind tag : Byte) (body : State → State) (s : State) :
    Host.Outcome State Fault Refusal :=
  .next (whenPoweredBut take (takeRequest p kind tag body) s)

/-- The payload has one length, else BAD_LENGTH (R181). -/
def withLength (n : Nat) (p : PortId) (payload : List Byte) (f : State → State) (s : State) : State :=
  if payload.length = n then f s else refuse p .badLength s

/-- A kind that names no request (R178); the row's command has no effect for a kind that names one. -/
def execUnknownKind (p : PortId) (kind tag : Byte) (_payload : List Byte) (s : State) : Host.Outcome State Fault Refusal :=
  if (admission kind).isNone then request p kind tag id s else .next s

end Sys2Proof.Machine
end

