-- ==== Sys2Proof/Machine/Captures.lean ====
section
/-! DEFINITION. Sys2Proof/Machine/Captures.lean: the Capture Engine's commands TAKE_PIECE, TAKE_RECORD, QUIET_TIME_EXPIRY,
STREAM_WINDOW_EXPIRY and RETAIN_LAPSED, and its requests PANIC_NOTE, CAPTURE and ABORT_CAPTURE (chapter 6). -/

namespace Sys2Proof.Machine

/-! ## Taking pieces and records -/

/-- The section that may take more: gathering, with nothing left to place, its end not reached and no power stall, under which no
piece and no record is taken (log 50). -/
def takingSection (kind : SecKind) (s : State) : Option (Capture × Section × PlanEntry × Fin 4) :=
  match gathering s with
  | some (c, x, e) =>
    match e.chan with
    | some ch =>
      if e.kind = kind && x.toPlace.isEmpty && x.ended.isNone && !s.engine.stall then some (c, x, e, ch) else none
    | none => none
  | none => none

/-- A gap that directly continues the one before it with the same reason is joined to it (R59). -/
def joinGap (gaps : List Gap) (g : Gap) : List Gap :=
  match gaps.getLast? with
  | none => [g]
  | some h =>
    let continues : Bool := match g.reason with
      | .denied => g.offset = h.offset
      | .unreadable => g.offset = h.offset + h.len
      | .overrun => false
    if h.reason = g.reason && continues then gaps.dropLast ++ [{ h with len := h.len + g.len }] else gaps ++ [g]

/-- A piece as data and gaps of the section (R59). -/
def placePiece (piece : Piece) (x : Section) : Section :=
  let at' := x.dataSoFar
  match piece with
  | .omission len => { x with gaps := joinGap x.gaps { offset := at', len := len, reason := .denied } }
  | .data true bytes => { x with toPlace := bytes }
  | .data false bytes =>
    { x with toPlace := bytes, gaps := joinGap x.gaps { offset := at', len := bytes.length, reason := .unreadable } }

/-- The region has ended with the piece just taken: its outcome (R58, R60). -/
def regionEnd (r : Region) : Option OutcomeCode :=
  if r.runs.isEmpty then some (if r.silent then .sourceSilent else .complete) else none

/-- The engine takes the waiting piece or omission (R58, R87); where it has no room, it sees to the page that it lacks. -/
def pieceTaken (s : State) : State :=
  match takingSection .fetch s with
  | none => s
  | some (_, _, _, ch) =>
    match (s.fetches[ch]).piece, (s.fetches[ch]).region with
    | some piece, some r =>
      if roomNow s < pieceLen piece then settle s
      else
        let s := s.onSection fun x => { placePiece piece x with ended := regionEnd r }
        settle (advanceRegion ch (s.onFetch ch fun c => { c with piece := none }))
    | _, _ => s

def execTakePiece (s : State) : Host.Outcome State Fault Refusal := .next (whenPowered pieceTaken s)

/-- The gap of a record with drops before it (R88). -/
def overrunGap (offset : Nat) (r : StreamRec) : List Gap :=
  if r.dropsBefore = 0 then [] else [{ offset := offset, len := r.dropsBefore, reason := .overrun }]

/-- The engine takes the head record, or leaves it at the length limit (R43, R88); where it has no room, it sees to the page
that it lacks. -/
def recordTaken (s : State) : State :=
  match takingSection .stream s with
  | none => s
  | some (_, x, e, ch) =>
    match (s.streams[ch]).fifo with
    | [] => s
    | r :: rest =>
      if e.limit < x.dataSoFar + r.size then settle (s.onSection fun x => { x with ended := some .limited })
      else if roomNow s < r.size then settle s
      else
        let s := s.onStream ch fun c => { c with fifo := rest, taken := satInc c.taken }
        settle (s.onSection fun x =>
          { x with toPlace := r.bytes, records := x.records + 1, gaps := x.gaps ++ overrunGap x.dataSoFar r
                   quietAt := if rest.isEmpty then some s.time else none })

def execTakeRecord (s : State) : Host.Outcome State Fault Refusal := .next (whenPowered recordTaken s)

/-! ## Timers -/

/-- A STREAM section in a quiet period, with its end not reached; bytes of it may still be to place. -/
def quietSection (s : State) : Option (Capture × PlanEntry × PartTime) :=
  match gathering s with
  | some (c, x, e) =>
    match x.quietAt with
    | some t => if e.kind = .stream && x.ended.isNone && fifoEmpty e s then some (c, e, t) else none
    | none => none
  | none => none

def endComplete (s : State) : State := settle (s.onSection fun x => { x with ended := some .complete })

/-- The effective quiet time has passed with the FIFO empty (R89). -/
def quietExpired (s : State) : State :=
  match quietSection s with
  | some (c, e, t) => if reached s.time (after t (usPerMs * effectiveQuiet c e s)) then endComplete s else s
  | none => s

def execQuietTimeExpiry (s : State) : Host.Outcome State Fault Refusal := .next (whenPowered quietExpired s)

/-- The window from the capture's open time has run out (R89). -/
def windowExpired (s : State) : State :=
  match quietSection s with
  | some (c, e, _) => if reached s.time (after c.openTime (usPerS * e.window.getD 0)) then endComplete s else s
  | none => s

def execStreamWindowExpiry (s : State) : Host.Outcome State Fault Refusal := .next (whenPowered windowExpired s)

/-- The unfinished entries that name a released line receive the mark (R99). A trailer that has been placed already keeps none
(log 38). -/
def markLapsed (lines : BitVec 8) (c : Capture) : Capture :=
  let names := fun i => match (c.entryOf i).retain with
    | some k => lines.getLsbD k.val
    | none => false
  { c with walk := c.walk.take c.position ++
      (c.walk.drop c.position).map fun i => if names i then { i with lapsed := true } else i }

def retainDue (s : State) : Bool :=
  match s.engine.retainTimer with
  | .running t => reached s.time t
  | .stopped | .ranOut => false

/-- The retain timer runs out (R99). -/
def retainExpired (s : State) : State :=
  if retainDue s then
    let lines := s.engine.retain
    let s := s.onEngine fun e => { e with retainTimer := .ranOut, retain := 0 }
    if lines = 0 then s
    else (post .engine evRetainLapsed [captureNumber s, lines.toNat] s).onCapture (markLapsed lines)
  else s

def execRetainLapsed (s : State) : Host.Outcome State Fault Refusal := .next (whenPowered retainExpired s)

/-! ## PANIC_NOTE (R100) -/

def noteMax : Nat := 240
def notesHeld : Nat := 4

def panicNote (p : PortId) (payload : List Byte) (s : State) : State :=
  let text := payload.take noteMax
  let full := notesHeld ≤ s.engine.notes.length
  let kept := if full then s.engine.notes.drop 1 else s.engine.notes
  let s := s.onEngine fun e => { e with notes := kept ++ [{ time := s.time, text := text }] }
  let n := s.engine.notes.length
  let s := post .engine evPanicNoteTaken [text.length, n, if full then 1 else 0] s
  answer p .ok (noteMax < payload.length) (num n) s

def execPanicNote (p : PortId) (tag : Byte) (payload : List Byte) (s : State) : Host.Outcome State Fault Refusal :=
  request p kPanicNote tag (panicNote p payload) s

/-! ## CAPTURE (R11, R100) -/

/-- The seconds that a refused host CAPTURE reports, at least one while the timer runs (R11). -/
def holdoffSeconds (t : PartTime) (s : State) : Nat := max 1 (timerLeft usPerS s.time (some t))

/-- A host CAPTURE during the hold-off (R11). -/
def refuseHoldoff (p : PortId) (t : PartTime) (s : State) : State :=
  let s := s.onTrig fun u => { u with hostRefusals := satInc u.hostRefusals }
  refuse p .refusedState (post (.port .host) evTriggerRefused [Refuse.holdoff.code, holdoffSeconds t s] s)

/-- A CAPTURE as a trigger; it is answered when the engine answers (R100). -/
def sendCapture (p : PortId) (src : Nat) (s : State) : State := settle (trigger src (.port p) (setWait p .trigger s))

def captureNow (p : PortId) (payload : List Byte) (s : State) : State :=
  withLength 0 p payload (fun s =>
    match p with
    | .host =>
      match s.trig.hostTimer with
      | some t => refuseHoldoff p t s
      | none => sendCapture p sourceHost s
    | .management | .service => sendCapture p sourceManual s) s

def execCapture (p : PortId) (tag : Byte) (payload : List Byte) (s : State) : Host.Outcome State Fault Refusal :=
  request p kCapture tag (captureNow p payload) s

/-! ## ABORT_CAPTURE (R101) -/

/-- The capture in progress is aborted (R101). In CLOSING the close goes on unchanged. -/
def abortNow (s : State) : State :=
  match s.engine.state with
  | .gathering => closeEarly .abort .aborted s
  | .opening => closeOpening .abort s
  | .closing | .idle | .erasing => s

def abortCapture (p : PortId) (payload : List Byte) (s : State) : State :=
  withLength 4 p payload (fun s =>
    let n := fieldAt payload 0 4
    match current s with
    | none => refuse p .refusedState s
    | some c =>
      if n ≠ 0 && n ≠ c.number then refuse p .notFound s
      else if s.monitor.state = .exhausted then refuse p .holdup s
      else settle (abortNow (setWait p (.close c.number) s))) s

def execAbortCapture (p : PortId) (tag : Byte) (payload : List Byte) (s : State) : Host.Outcome State Fault Refusal :=
  request p kAbortCapture tag (abortCapture p payload) s

end Sys2Proof.Machine
end

