-- ==== Sys2Proof/Machine/Retrieval.lean ====
section
/-! DEFINITION. Sys2Proof/Machine/Retrieval.lean: section images, reading ahead, and LIST_CAPTURES, READ_CAPTURE, READ_HEAD,
READ_SECTION, READ_ERRORS and ACK_ERRORS (chapter 10). -/

namespace Sys2Proof.Machine

/-! ## Section images (R152) -/

/-- A logical page of a capture is in the retired-page table. -/
def pageInTable (s : State) (e : DirEntry) (n : Nat) : Bool :=
  match physOf e.blocks n with
  | some p => s.store.retPages.contains p
  | none => false

/-- The logical pages of a section's range. -/
def sectionRange (x : SecEntry) : List Nat := (List.range x.pages).map fun i => x.first + i

/-- The pages of a section's range that are not in the retired-page table. -/
def pagesLeft (s : State) (e : DirEntry) (x : SecEntry) : Nat := ((sectionRange x).filter fun n => !pageInTable s e n).length

/-- A logical page of a capture lies in a RETIRED block. -/
def inRetiredBlock (s : State) (e : DirEntry) (n : Nat) : Bool :=
  match e.blocks.getD (n / blockPages) none with
  | some b => blockRetired s b
  | none => false

/-- A section's range lies in one block. -/
def oneBlock (x : SecEntry) : Bool := x.first / blockPages = (x.first + x.pages - 1) / blockPages

/-- A page of a section without data was written: one that its failures did not skip. Header and trailer need one page alone, so
more pages in one RETIRED block, or pages up to its end, are those that the block's failure skipped (R92, R94, log 42). An ABORTED
section drops no page: where it was given one, that page was accepted (R92, R101). -/
def headerWritten (s : State) (e : DirEntry) (x : SecEntry) : Bool :=
  if x.status = .aborted then 0 < x.pages
  else if (sectionRange x).any (inRetiredBlock s e) && oneBlock x then
    pagesLeft s e x = 1 && (x.first + x.pages) % blockPages ≠ 0
  else 0 < pagesLeft s e x

/-- A section's range holds the last page of a RETIRED block, as it does when the block's failure skipped its tail (R92). -/
def endsRetiredBlock (s : State) (e : DirEntry) (x : SecEntry) : Bool :=
  (sectionRange x).any fun n => inRetiredBlock s e n && n % blockPages = blockPages - 1

/-- A section whose `n` data pages are full has its trailer in a page of its own. Of the sections that ended early only one that
ended for power can, as its final flush (R112): R85 places the trailer of the others in the room after their data alone. A page is
then left for it. In a RETIRED block one page is left, and none of the block's tail lies in the range, so the block was retired
after the page was written. A page that failed unjournaled before a power loss (R124) is told from no trailer page, and counts
as one (log 42). -/
def trailerPage (s : State) (e : DirEntry) (x : SecEntry) (n : Nat) : Bool :=
  x.status = .skippedPower &&
    if (sectionRange x).any (inRetiredBlock s e) then pagesLeft s e x = n + 1 && !endsRetiredBlock s e x
    else n < pagesLeft s e x

/-- The trailer of a section that ended early was written, as its record and the retired pages tell it after a start-up (R85): it
fitted in the room left in its last data page. Data that ends with its page leaves no such room, and the trailer then has a page
of its own. Where every page of a section without data was skipped, nothing was written (log 42). -/
def trailerDerived (s : State) (e : DirEntry) (x : SecEntry) : Bool :=
  let body := 32 + x.len
  if body % pageBytes = 0 then trailerPage s e x (body / pageBytes)
  else if body % pageBytes + trailerSize x.gaps ≤ pageBytes then
    x.len ≠ 0 || headerWritten s e x
  else false

/-- The trailer of a section that ended early was written (R85, R152): as is known since its end, or else as its record and the
retired pages tell it (log 42). -/
def trailerWritten (s : State) (e : DirEntry) (x : SecEntry) : Bool := (trailerKnown s.dir x).getD (trailerDerived s e x)

/-- A section given a skipped outcome that occupies no page: a skipped section (R86, R157, log 42). One that ended ABORTED before it
was given a page is none. -/
def skippedSection (x : SecEntry) : Bool := x.pages = 0 && x.status ≠ .aborted

/-- The image length of a section, by whether its trailer was written (R85, R152); of a skipped or INTERRUPTED one 0 (R157). -/
def imageLength (s : State) (e : DirEntry) (x : SecEntry) : Nat :=
  let body := 32 + x.len
  match x.status with
  | .complete | .limited | .sourceSilent | .deniedAll => body + trailerSize x.gaps
  | .storeFault | .inProgress => body
  | .interrupted => 0
  | _ =>
    if skippedSection x then 0
    else if trailerWritten s e x then body + trailerSize x.gaps
    else body

/-- The last pages of one RETIRED block are taken out, at most `tail` of them, with what is left of the count. -/
def dropTail (position : Nat) (st : Nat × List Nat) : Nat × List Nat :=
  let own := st.2.filter fun n => n / blockPages = position
  let k := min st.1 own.length
  let gone := own.drop (own.length - k)
  (st.1 - k, st.2.filter fun n => !gone.contains n)

/-- The positions of a capture's RETIRED blocks, last first. -/
def retiredPositions (s : State) (e : DirEntry) : List Nat :=
  ((List.range e.blocks.length).filter fun i => inRetiredBlock s e (blockPages * i)).reverse

/-- The logical pages of a section's image pages, in order (R152). -/
def imagePages (s : State) (e : DirEntry) (x : SecEntry) : List Nat :=
  let good := (sectionRange x).filter fun n => !pageInTable s e n
  let n := ceilDiv (imageLength s e x) pageBytes
  let tail := x.pages - n - (x.pages - good.length)
  (((retiredPositions s e).foldl (fun st i => dropTail i st) (tail, good)).2).take n

/-- A page as a read delivers it: its source page and the page read, and the words. -/
structure PageRead where
  source : Option Nat
  phys   : Nat
  words  : List WordRead
  deriving DecidableEq, Repr

/-- The words of a page that does not exist, which no rule gives (log 20). -/
def unmappedPage (cap n : Nat) : PageRead :=
  { source := none, phys := 0
    words := (List.range pageWords).map fun w => { data := Config.unmappedWord cap n w, cls := .clean } }

/-- Image page `k` of a section, read through the map (R152). -/
def readImagePage (s : State) (e : DirEntry) (x : SecEntry) (k : Nat) : PageRead :=
  match (imagePages s e x)[k]? with
  | none => unmappedPage e.cap (8192 + k)
  | some n =>
    match physOf e.blocks n with
    | some p => { source := some p, phys := mapped s.dir.map p, words := readMapped s p }
    | none => unmappedPage e.cap n

/-- The port's read-ahead buffer where it holds image page `k` of the capture and section (R159). -/
def heldAhead (p : PortId) (s : State) (e : DirEntry) (x : SecEntry) (k : Nat) : Option ReadAhead :=
  (s.port p).ahead.filter fun a => a.cap = e.cap && a.sec = x.index && (imagePages s e x)[k]? = some a.lpage

/-- The image page from the port's read-ahead buffer where it holds it, else read (R159). -/
def fetchImagePage (p : PortId) (s : State) (e : DirEntry) (x : SecEntry) (k : Nat) : PageRead :=
  match heldAhead p s e x k with
  | some a => { source := physOf e.blocks a.lpage, phys := a.ppage, words := a.words }
  | none => readImagePage s e x k

/-- A delivered page is taken with operation RETRIEVE (R154). -/
def takeRead (r : PageRead) (s : State) : State :=
  match r.source with
  | some src => takePage .retrieve src r.phys r.words s
  | none => s

def setAhead (p : PortId) (a : Option ReadAhead) (s : State) : State := s.onPort p fun q => { q with ahead := a }

/-- The page after image page `k` is read ahead, if the image has one (R160). -/
def readAhead (p : PortId) (e : DirEntry) (x : SecEntry) (k : Nat) (s : State) : State :=
  match (imagePages s e x)[k + 1]? with
  | none => setAhead p none s
  | some n =>
    let r := readImagePage s e x (k + 1)
    let s := s.onInteg fun g => { g with correctedAhead := satAdd g.correctedAhead (countClass .corrected r.words) }
    setAhead p (some { cap := e.cap, sec := x.index, lpage := n, ppage := r.phys, words := r.words }) s

/-! ## Finding a capture (R155) -/

/-- The capture found, or the status that refuses the request. -/
def lookUp (cap : Nat) (s : State) : Except Status DirEntry :=
  match findEntry s.dir cap with
  | some e => .ok (shown s e)
  | none => .error (if cap = 0 || s.dir.lastCap < cap then .notFound else .gone)

/-- `f` for the capture named by the first field of a payload. -/
def withCapture (p : PortId) (payload : List Byte) (f : DirEntry → State → State) (s : State) : State :=
  match lookUp (fieldAt payload 0 4) s with
  | .ok e => f e s
  | .error st => refuse p st s

/-! ## LIST_CAPTURES and READ_CAPTURE (R156, R157) -/

/-- The outcome of a CLOSED capture, else absent. -/
def outcomeField (e : DirEntry) : Byte := if e.state = .closed then outcomeByte e.outcome else absent

/-- A capture's summary (R156); the annotation slots used are a set of two bytes (R182, log 10). -/
def summaryOf (s : State) (e : DirEntry) : List Byte :=
  num e.cap ++ [e.state.code, outcomeField e] ++ setField e.trig ++ leBytes 1 e.first ++ timeField e.openTime ++
    timeField (e.closeTime.getD 0) ++ leBits 8 (e.epoch.getD 0) ++ [markByte e.epoch.isSome, markByte e.held] ++
    setField e.slots ++ num e.sections.length ++ num (capturePages s e) ++ num e.damaged

/-- The captures at or above a number, as they are shown. -/
def listedFrom (start : Nat) (s : State) : List DirEntry :=
  ((entriesByCap s.dir).filter fun e => start ≤ e.cap).map (shown s)

def listMax : Nat := 16

def listCaptures (p : PortId) (payload : List Byte) (s : State) : State :=
  withLength 4 p payload (fun s =>
    let all := listedFrom (fieldAt payload 0 4) s
    let xs := all.take listMax
    answer p .ok false (xs.flatMap (summaryOf s) ++ num xs.length ++ [markByte (listMax < all.length)]) s) s

def execListCaptures (p : PortId) (tag : Byte) (payload : List Byte) (s : State) : Host.Outcome State Fault Refusal :=
  request p kListCaptures tag (listCaptures p payload) s

/-- A section's record in a READ_CAPTURE reply (R157). -/
def sectionFields (s : State) (e : DirEntry) (x : SecEntry) : List Byte :=
  leBytes 1 x.entry ++ [x.kind.code, x.status.code] ++ num x.len ++ num x.first ++ num x.pages ++ num x.gaps ++
    num (imageLength s e x)

/-- The reply to READ_CAPTURE (R136, R157); an index has one byte, the set of annotation slots used two (R182, log 10), and a place of
the block list that holds no block is sent as 0 (log 65). -/
def captureReply (s : State) (e : DirEntry) : List Byte :=
  num e.cap ++ [e.state.code, outcomeField e] ++ setField e.trig ++ leBytes 1 e.first ++ timeField e.openTime ++
    timeField (e.closeTime.getD 0) ++ leBits 8 (e.epoch.getD 0) ++ optNum e.head ++ listField (e.blocks.map optNum) ++
    listField (e.sections.map (leBytes 1)) ++ [markByte e.held] ++ setField e.slots ++ num e.damaged ++
    listField ((sectionsOf s.dir e).map (sectionFields s e))

def readCapture (p : PortId) (payload : List Byte) (s : State) : State :=
  withLength 4 p payload (withCapture p payload fun e s => answer p .ok false (captureReply s e) s) s

def execReadCapture (p : PortId) (tag : Byte) (payload : List Byte) (s : State) : Host.Outcome State Fault Refusal :=
  request p kReadCapture tag (readCapture p payload) s

/-! ## READ_HEAD (R158) -/

/-- The byte offsets of the POISONED words of a page (R158). -/
def poisonOffsets (ws : List WordRead) : List Nat :=
  (List.range ws.length).filterMap fun i => match ws[i]? with
    | some w => if w.cls = .poisoned then some (8 * i) else none
    | none => none

/-- A head page as read through the map; none where there is none or its block is missing from the block list (log 47). -/
def readHeadPage (s : State) (e : DirEntry) : Option PageRead :=
  (e.head.bind (physOf e.blocks)).map fun p =>
    { source := some p, phys := mapped s.dir.map p, words := readMapped s p }

/-- An operation is in flight on the head page, so a read of it waits (R129). -/
def headFlying (s : State) (e : DirEntry) : Bool :=
  (e.head.bind (physOf e.blocks)).any fun p => pageBusy s (mapped s.dir.map p)

def headReply (e : DirEntry) (ws : List WordRead) : List Byte :=
  num e.cap ++ bytesOfWords ws ++ num (countClass .corrected ws) ++ listField ((poisonOffsets ws).map num)

/-- The head page is read and delivered. -/
def deliverHead (p : PortId) (e : DirEntry) (s : State) : State :=
  match readHeadPage s e with
  | none => refuse p .refusedState s
  | some r => answer p .ok false (headReply e r.words) (takeRead r s)

def readHead (p : PortId) (payload : List Byte) (s : State) : State :=
  withLength 4 p payload (withCapture p payload fun e s =>
    if headFlying s e then setWait p (.read payload) s else deliverHead p e s) s

def execReadHead (p : PortId) (tag : Byte) (payload : List Byte) (s : State) : Host.Outcome State Fault Refusal :=
  request p kReadHead tag (readHead p payload) s

/-! ## READ_SECTION (R159, R160) -/

/-- The words of consecutive image pages that hold the bytes from `off`, `len` of them, by word number from page `k0`. -/
def touched (off len : Nat) : List Nat :=
  let first := off % pageBytes / 8
  (List.range (ceilDiv (off % 8 + len) 8)).map fun i => first + i

/-- The offset within the bytes returned of the first returned byte of a touched word (R159). -/
def firstReturned (off word : Nat) : Nat := 8 * word - off % pageBytes

def pickWords (ws : List WordRead) (is : List Nat) : List (Nat × WordRead) :=
  is.filterMap fun i => ws[i]?.map fun w => (i, w)

/-- The reply to READ_SECTION, from the words of the pages it touches (R159). -/
def sectionReply (s : State) (e : DirEntry) (x : SecEntry) (off len : Nat) (ws : List WordRead) : List Byte :=
  let used := pickWords ws (touched off len)
  let bad := used.filter fun w => w.2.cls = .poisoned
  num e.cap ++ leBytes 1 x.index ++ num off ++ num len ++ num (imageLength s e x) ++
    num (used.filter fun w => w.2.cls = .corrected).length ++ num bad.length ++
    listField ((bad.take 64).map fun w => num (firstReturned off w.1)) ++
    ((bytesOfWords ws).drop (off % pageBytes)).take len

/-- The section of a capture with an index. -/
def sectionNumbered (d : Directory) (e : DirEntry) (index : Nat) : Option SecEntry :=
  (sectionsOf d e).find? fun x => x.index = index

/-- The bytes that a request returns: what is asked for, clamped, and no more than the image holds (R159). -/
def servedLength (s : State) (e : DirEntry) (x : SecEntry) (off asked : Nat) : Nat :=
  min (clampTo 1 512 asked) (imageLength s e x - off)

/-- An operation is in flight on image page `k`, so a read of it waits (R129). -/
def imageBusy (s : State) (e : DirEntry) (x : SecEntry) (k : Nat) : Bool :=
  (((imagePages s e x)[k]?).bind (physOf e.blocks)).any fun p => pageBusy s (mapped s.dir.map p)

/-- An operation is in flight on a page that the request reads from the store: one that it touches and the buffer does not hold, or
the one that it reads ahead (R129, log 64). -/
def sectionWaits (p : PortId) (e : DirEntry) (x : SecEntry) (off asked : Nat) (s : State) : Bool :=
  let k0 := off / pageBytes
  let k1 := (off + servedLength s e x off asked - 1) / pageBytes
  ([k0, k1].any fun k => imageBusy s e x k && (heldAhead p s e x k).isNone) || imageBusy s e x (k1 + 1)

/-- The image bytes are served and the next page is read ahead (R159, R160). -/
def serveSection (p : PortId) (e : DirEntry) (x : SecEntry) (off asked : Nat) (s : State) : State :=
  let len := servedLength s e x off asked
  let k0 := off / pageBytes
  let k1 := (off + len - 1) / pageBytes
  let r0 := fetchImagePage p s e x k0
  let r1 := fetchImagePage p s e x k1
  let ws := if k0 = k1 then r0.words else r0.words ++ r1.words
  let reply := sectionReply s e x off len ws
  let s := takeRead r0 s
  let s := if k0 = k1 then s else takeRead r1 s
  let s := answer p .ok (len ≠ asked) reply s
  readAhead p e x k1 s

def readSectionOf (p : PortId) (payload : List Byte) (e : DirEntry) (s : State) : State :=
  let gone := fun st s => setAhead p none (refuse p st s)
  match sectionNumbered s.dir e (fieldAt payload 4 1) with
  | none => gone .notFound s
  | some x =>
    let off := fieldAt payload 5 4
    if x.status = .inProgress then gone .inProgress s
    else if imageLength s e x ≤ off then gone .badValue s
    else if sectionWaits p e x off (fieldAt payload 9 2) s then setWait p (.read payload) s
    else serveSection p e x off (fieldAt payload 9 2) s

def readSection (p : PortId) (payload : List Byte) (s : State) : State :=
  if payload.length = 11 then
    match lookUp (fieldAt payload 0 4) s with
    | .ok e => readSectionOf p payload e s
    | .error st => setAhead p none (refuse p st s)
  else setAhead p none (refuse p .badLength s)

def execReadSection (p : PortId) (tag : Byte) (payload : List Byte) (s : State) : Host.Outcome State Fault Refusal :=
  request p kReadSection tag (readSection p payload) s

/-! ## READ_ERRORS and ACK_ERRORS (R165) -/

/-- The error capture record in a reply: kind, page, word, operation, time, its present mark, OVERFLOW (R165, R182, log 10). -/
def errorFields (g : Integrity) : List Byte :=
  (match g.error with
    | some r => [r.kind.code] ++ num r.page ++ leBytes 1 r.word ++ [r.op.code] ++ timeField r.time ++ [1]
    | none => [absent] ++ num 0 ++ [0, absent] ++ timeField 0 ++ [0]) ++ [markByte g.overflow]

def errorsReply (s : State) : List Byte :=
  let g := s.integ
  errorFields g ++ num g.corrected ++ num g.poisoned ++ num g.correctedAhead ++ num g.programFail ++ num g.eraseFail ++
    num g.torn ++ num g.scrubDropped ++ num g.scrub.length ++ optNum (g.reloc.map fun r => r.page) ++ num g.nextPool ++
    [g.poolErase.code] ++ num s.dir.map.length

def readErrors (p : PortId) (payload : List Byte) (s : State) : State :=
  withLength 0 p payload (fun s => answer p .ok false (errorsReply s) s) s

def execReadErrors (p : PortId) (tag : Byte) (payload : List Byte) (s : State) : Host.Outcome State Fault Refusal :=
  request p kReadErrors tag (readErrors p payload) s

def ackErrors (p : PortId) (payload : List Byte) (s : State) : State :=
  withLength 0 p payload (fun s =>
    answer p .ok false (errorFields s.integ) (s.onInteg fun g => { g with error := none, overflow := false })) s

def execAckErrors (p : PortId) (tag : Byte) (payload : List Byte) (s : State) : Host.Outcome State Fault Refusal :=
  request p kAckErrors tag (ackErrors p payload) s

end Sys2Proof.Machine
end

