-- ==== Sys2Proof/Machine/Store.lean ====
section
/-! DEFINITION. Sys2Proof/Machine/Store.lean: the commands QUEUE_START and RELOCATION_START, and the results of a program and of
an erase (chapters 8 and 10). -/

namespace Sys2Proof.Machine

/-! ## What a request would program -/

/-- A program as it would start: who asked, the physical page, the content and whether it is of the close class (R111). -/
structure Job where
  who     : Programmer
  page    : Nat
  content : List Byte
  close   : Bool
  deriving DecidableEq, Repr

/-- The physical page of a capture's logical page, through the map (R152). -/
def physMapped (d : Directory) (blocks : List Nat) (n : Nat) : Option Nat :=
  (physOf (blocks.map some) n).map (mapped d.map)

/-- The source page of a capture's head page. -/
def headSource (e : DirEntry) : Option Nat := e.head.bind (physOf e.blocks)

/-- A note commit's content: all ones but the text in its slot (R149). -/
def noteContent (slot : Nat) (text : List Byte) : List Byte :=
  padTo 0xFF pageBytes (List.replicate (slotOffset slot) 0xFF ++ text)

/-- The source page of the commit in progress on a port. -/
def commitSource (p : PortId) (s : State) : Option Nat :=
  match (s.port p).pad.target with
  | some (cap, _) => (findEntry s.dir cap).bind headSource
  | none => none

/-- The program of a waiting request as it stands now (R123); none where its target has no page yet. -/
def jobOf (q : QReq) (s : State) : Option Job :=
  match q with
  | .buf i =>
    let b := s.engine.bufs[i]
    match s.engine.capture with
    | some c => (physMapped s.dir c.blocks b.page).map fun p =>
        { who := .buf i, page := p, content := padTo 0xFF pageBytes b.bytes, close := b.flush }
    | none => none
  | .relocation =>
    match s.integ.reloc with
    | some r =>
      let p := poolFrom s.store.retPages s.integ.nextPool
      if p < blockPages then some { who := .relocation, page := poolBase + p, content := r.content, close := false } else none
    | none => none
  | .commit p =>
    match (s.port p).pad.target, commitSource p s with
    | some (_, slot), some src =>
      some { who := .commit p, page := mapped s.dir.map src, content := noteContent slot (s.port p).pad.text, close := false }
    | _, _ => none
  | .settings =>
    match s.link.store with
    | some op =>
      match op.step with
      | .programming page k =>
        some { who := .settings, page := page + k
               content := padTo 0xFF pageBytes ((op.image.drop (pageBytes * k)).take pageBytes), close := false }
      | .erasing => none
    | none => none
  | .erase _ _ => none

/-- A commit whose head page is being relocated waits (R162). -/
def commitWaits (p : PortId) (s : State) : Bool :=
  match s.integ.reloc, commitSource p s with
  | some r, some src => r.page = src
  | _, _ => false

/-- The BLOCK_ALLOT record of a buffer's block has not been journaled: a page of the block may not be programmed (R132). -/
def allotOnWay (i : Fin 4) (s : State) : Bool :=
  match s.engine.capture with
  | some c =>
    match c.blocks[(s.engine.bufs[i]).page / blockPages]? with
    | some b => (s.dir.slotted.any fun x => x.record = .blockAllot c.number b) ||
        s.dir.pending.any fun x => x.1 = .blockAllot c.number b
    | none => false
  | none => false

/-- A request that may be taken now (R129, R116, R132). -/
def startable (s : State) (q : QReq) : Bool :=
  match q with
  | .erase _ _ => isNormal s
  | .commit p => (jobOf q s).isSome && !commitWaits p s
  | .buf i => (jobOf q s).isSome && !allotOnWay i s
  | .relocation | .settings => (jobOf q s).isSome

/-! ## Starting (R129, R130) -/

/-- The relocation's program starts in pool page `p`, and the next pool page advances (R162 step 2). -/
def takePoolPage (p : Nat) (s : State) : State :=
  s.onInteg fun g =>
    { g with nextPool := poolFrom s.store.retPages (p + 1)
             reloc := g.reloc.map fun r => { r with pool := p, step := .programming } }

/-- The requester's own mark that its program is in flight. -/
def markStarted (who : Programmer) (page : Nat) (s : State) : State :=
  match who with
  | .buf i => s.onBuf i fun b => { b with state := .programming }
  | .journal => s.onDir fun d => { d with slotted := d.slotted.map fun x => { x with flying := inPage page x } }
  | .relocation => takePoolPage (page - poolBase) s
  | .commit _ | .settings => s

/-- A program starts (R123, R110). -/
def startProgram (j : Job) (s : State) : State :=
  drawProgram (markStarted j.who j.page (s.onStore fun t => { t with flight := some (.program j.who j.page j.content) }))

/-- An erase starts (R127, R128). -/
def startErase (who : Eraser) (block : Nat) (s : State) : State :=
  let s := s.onStore fun t => { t with flight := some (.erase who block) }
  match who with
  | .area => setBlock block .erasing s
  | .pool => s.onInteg fun g => { g with poolErase := .erasing }
  | .journal | .settings => s

/-- HOLDUP is handed to the requester of a program other than a journal program (R112, R116, R117, R162). -/
def programRefused (who : Programmer) (s : State) : State :=
  match who with
  | .buf i => bufRefused i s
  | .journal => s
  | .relocation => s.onInteg fun g => { g with reloc := none }
  | .commit p => refuse p .holdup s
  | .settings => endStore .holdup [] s

/-- A journal program is refused: the records it would carry are returned (R139), and a compaction's wait (R116, R141); a close
that has started can then not be paid (R113, R116). -/
def journalRefused (page : Nat) (s : State) : State :=
  if s.dir.comp.state = .writing then
    let s := s.onDir fun d => { d with comp := { d.comp with held := true } }
    if s.engine.state = .closing then setStall s else s
  else
    let xs := carried page s.dir
    let keep := s.dir.slotted.filter fun x => !inPage page x
    forEach xs recordRefused (s.onDir (giveBack keep))

/-- The journal program of a page. -/
def journalJob (page : Nat) (s : State) : Job :=
  { who := .journal, page := page, content := journalContent (carried page s.dir)
    close := (carried page s.dir).any closeClass }

/-- A program at the head of the queue: answered FAIL for a retired target, started, or answered HOLDUP. -/
inductive Chosen
  | started (s : State)
  | again (s : State)
  deriving DecidableEq, Repr

def tryJob (j : Job) (refused : State → State) (s : State) : Chosen :=
  if targetRetired s j.page then .again (targetFailed j.who j.page s)
  else if programMayStart j.close s then .started (startProgram j s)
  else .again (refused s)

/-- A request other than a journal append leaves the queue and is tried. -/
def tryRequest (q : QReq) (s : State) : Chosen :=
  let t := withdraw q s
  match q with
  | .erase who b => .started (startErase who b t)
  | .buf _ | .relocation | .commit _ | .settings =>
    match jobOf q s with
    | some j => tryJob j (programRefused j.who) t
    | none => .again t

/-- The Store Controller's choice, repeated until something starts or nothing may (R129). -/
def startNext : Nat → State → State
  | 0, s => s
  | n + 1, s =>
    let c := match journalPage s.dir with
      | some page => some (tryJob (journalJob page s) (journalRefused page) s)
      | none => (s.store.queue.find? (startable s)).map fun q => tryRequest q s
    match c with
    | some (.started t) => t
    | some (.again t) => startNext n t
    | none => s

/-- A restart that only waits for the operation in flight (R135, R177). -/
def restartDue (s : State) : Bool :=
  match s.link.restart with
  | some r => r.sent
  | none => false

def queueStarted (s : State) : State :=
  if s.store.flight.isSome || resampleDue s || restartDue s then s else settle (startNext pumpFuel s)

def execQueueStart (s : State) : Host.Outcome State Fault Refusal := .next (whenPowered queueStarted s)

/-! ## Completion (R123, R127) -/

def landed (f : Flash → Flash) (s : State) : State := (s.onStore fun t => { t with flight := none }).onFlash f

/-- What the verify of a program answers goes to its requester (R123). -/
def programResult (who : Programmer) (page : Nat) (content : List Byte) (s : State) : State :=
  match verifyFails page content s.flash with
  | none => settle (programAccepted who page s)
  | some w => settle (verifyFailed who page w s)

/-- What the verify of an erase answers goes to its requester (R127). -/
def eraseResult (who : Eraser) (block : Nat) (s : State) : State :=
  settle (eraseEnded who block (unerasedPages s.store.retPages block s.flash) s)

/-! ## Relocation (R162) -/

/-- The page that a relocation may start on now. -/
def relocatable (s : State) : Option Nat :=
  match s.integ.scrub with
  | [] => none
  | p :: _ =>
    if s.ready && isNormal s && s.integ.reloc.isNone && poolFrom s.store.retPages s.integ.nextPool < blockPages &&
        !(allPorts.any fun q => (committing q s).isSome && commitSource q s = some p) then some p
    else none

/-- A relocation that waits to read its source (R129, R162 step 1). -/
def waitForSource (page : Nat) (s : State) : State :=
  s.onInteg fun g => { g with reloc := some { page := page, content := [], poisoned := 0, pool := 0, step := .reading } }

/-- A relocation starts: its source is read, at once but for an operation in flight on it (R129, R162). -/
def relocationStarted (s : State) : State :=
  match relocatable s with
  | none => s
  | some p => settle (if pageBusy s (mapped s.dir.map p) then waitForSource p s else readSource p s)

def execRelocationStart (s : State) : Host.Outcome State Fault Refusal := .next (whenPowered relocationStarted s)

end Sys2Proof.Machine
end

