-- ==== Sys2Proof/Machine/DirectoryRequests.lean ====
section
/-! DEFINITION. Sys2Proof/Machine/DirectoryRequests.lean: HOLD, RELEASE, DELETE, STAGE_NOTE, COMMIT_NOTE and ERASE_ALL
(chapter 9). -/

namespace Sys2Proof.Machine

/-! ## HOLD, RELEASE and DELETE (R146, R147) -/

def heldMax : Nat := 16

/-- The checks that HOLD, RELEASE and DELETE share, in their order (R146). -/
def holdRefused (cap : Nat) (s : State) : Option Status :=
  if s.engine.state = .erasing then some .inProgress
  else if s.monitor.state = .exhausted then some .holdup
  else if (findEntry s.dir cap).isNone then some .notFound
  else if holdPending cap s then some .inProgress
  else none

/-- The port waits for a record of its request (R139, R168). -/
def awaitRecord (p : PortId) (r : JRec) (s : State) : State := settle (setWait p (.record r false) s)

/-- A capture's held mark in the directory. -/
def isHeld (cap : Nat) (s : State) : Bool :=
  match findEntry s.dir cap with
  | some e => e.held
  | none => false

/-- The mark UNCHANGED (R146, log 10). -/
def unchangedMark : List Byte := [1]

def holdCapture (p : PortId) (payload : List Byte) (s : State) : State :=
  withLength 4 p payload (fun s =>
    let cap := fieldAt payload 0 4
    match holdRefused cap s with
    | some st => refuse p st s
    | none =>
      if heldMax ≤ heldCount s.dir + holdsPending s then refuse p .full s
      else if isHeld cap s then answer p .ok false unchangedMark s
      else awaitRecord p (.hold cap) s) s

def execHold (p : PortId) (tag : Byte) (payload : List Byte) (s : State) : Host.Outcome State Fault Refusal :=
  request p kHold tag (holdCapture p payload) s

def releaseCapture (p : PortId) (payload : List Byte) (s : State) : State :=
  withLength 4 p payload (fun s =>
    let cap := fieldAt payload 0 4
    match holdRefused cap s with
    | some st => refuse p st s
    | none => if isHeld cap s then awaitRecord p (.release cap) s else answer p .ok false unchangedMark s) s

def execRelease (p : PortId) (tag : Byte) (payload : List Byte) (s : State) : Host.Outcome State Fault Refusal :=
  request p kRelease tag (releaseCapture p payload) s

def deleteCapture (p : PortId) (payload : List Byte) (s : State) : State :=
  withLength 4 p payload (fun s =>
    let cap := fieldAt payload 0 4
    match holdRefused cap s with
    | some st => refuse p st s
    | none =>
      if isCurrent cap s || committingCap cap s then refuse p .inProgress s
      else if isHeld cap s then refuse p .held s
      else awaitRecord p (.delete cap .delete) s) s

def execDelete (p : PortId) (tag : Byte) (payload : List Byte) (s : State) : Host.Outcome State Fault Refusal :=
  request p kDelete tag (deleteCapture p payload) s

/-! ## STAGE_NOTE (R148) -/

def noteSlots : Nat := 4
def slotBytesMax : Nat := 120

/-- The 120 bytes of an annotation slot in a page's bytes. -/
def slotArea (slot : Nat) (bytes : List Byte) : List Byte := (bytes.drop (slotOffset slot)).take slotBytesMax

/-- A slot's text: the bytes up to its last byte that is not 0xFF. -/
def slotText (area : List Byte) : List Byte := (area.reverse.dropWhile fun b => b = 0xFF).reverse

/-- A slot is used: marked so, or it reads other than all ones. -/
def slotUsed (e : DirEntry) (slot : Nat) (area : List Byte) : Bool := e.slots.getLsbD slot || area.any fun b => b ≠ 0xFF

/-- A COMMIT_NOTE of another port is in progress for the target. -/
def otherCommit (p : PortId) (cap slot : Nat) (s : State) : Bool :=
  allPorts.any fun q => q ≠ p && committing q s = some (cap, slot)

/-- The pad that a STAGE_NOTE loads (R148). -/
def stagedPad (e : DirEntry) (cap slot : Nat) (text bytes : List Byte) : Pad :=
  let area := slotArea slot bytes
  if slotUsed e slot area then { target := some (cap, slot), text := slotText area, pf := false, locked := true, aa := false }
  else { target := some (cap, slot), text := text.take slotBytesMax, pf := slotBytesMax < text.length, locked := false, aa := false }

/-- A pad in a reply: target, end offset, status byte. -/
def padFields (d : Pad) : List Byte :=
  (match d.target with
    | some (cap, slot) => num cap ++ leBytes 1 slot
    | none => num 0 ++ [0]) ++ leBytes 1 d.endOffset ++ [d.statusByte]

/-- The head page is read and the pad loaded. -/
def loadPad (p : PortId) (payload : List Byte) (e : DirEntry) (s : State) : State :=
  match readHeadPage s (shown s e) with
  | none => refuse p .refusedState s
  | some r =>
    let pad := stagedPad e (fieldAt payload 0 4) (fieldAt payload 4 1) (payload.drop 5) (bytesOfWords r.words)
    answer p .ok pad.pf (padFields pad) (onPad p (fun _ => pad) (takeRead r s))

def stageNote (p : PortId) (payload : List Byte) (s : State) : State :=
  let cap := fieldAt payload 0 4
  let slot := fieldAt payload 4 1
  if payload.length < 5 then refuse p .badLength s
  else if noteSlots ≤ slot then refuse p .badValue s
  else if (payload.drop 5).isEmpty then refuse p .badLength s
  else if s.engine.state = .erasing then refuse p .inProgress s
  else match findEntry s.dir cap with
    | none => refuse p .notFound s
    | some e =>
      if (headSource (shown s e)).isNone then refuse p .refusedState s
      else if otherCommit p cap slot s then refuse p .inProgress s
      else if headFlying s (shown s e) then setWait p (.read payload) s
      else loadPad p payload e s

def execStageNote (p : PortId) (tag : Byte) (payload : List Byte) (s : State) : Host.Outcome State Fault Refusal :=
  request p kStageNote tag (stageNote p payload) s

/-! ## COMMIT_NOTE (R149) -/

/-- The echo equals what the pad holds. -/
def echoMatches (d : Pad) (payload : List Byte) : Bool :=
  d.target = some (fieldAt payload 0 4, fieldAt payload 4 1) && fieldAt payload 5 1 = d.endOffset &&
    payload.getD 6 0 = d.statusByte

/-- The slot of a capture reads or is marked used. -/
def slotUsedNow (s : State) (e : DirEntry) (slot : Nat) : Bool :=
  match readHeadPage s (shown s e) with
  | some r => slotUsed e slot (slotArea slot (bytesOfWords r.words))
  | none => true

/-- The slot is looked at, and the commit queued. -/
def queueCommit (p : PortId) (slot : Nat) (e : DirEntry) (s : State) : State :=
  if slotUsedNow s e slot then refuse p .refusedState (lockPad p s)
  else enqueue (.commit p) (setWait p .commit s)

def commitNote (p : PortId) (payload : List Byte) (s : State) : State :=
  withLength 7 p payload (fun s =>
    let d := (s.port p).pad
    let cap := fieldAt payload 0 4
    let slot := fieldAt payload 4 1
    if !echoMatches d payload then refuse p .authMismatch s
    else if d.pf || d.locked then refuse p .refusedState s
    else if s.engine.state = .erasing then refuse p .inProgress s
    else if d.gone then refuse p .gone s
    else if isCurrent cap s || deletePending cap s || otherCommit p cap slot s then refuse p .inProgress s
    else match findEntry s.dir cap with
      | none => refuse p .gone s
      | some e =>
        if s.monitor.state = .exhausted then refuse p .holdup s
        else if headFlying s (shown s e) then setWait p (.read payload) s
        else queueCommit p slot e s) s

def execCommitNote (p : PortId) (tag : Byte) (payload : List Byte) (s : State) : Host.Outcome State Fault Refusal :=
  request p kCommitNote tag (commitNote p payload) s

/-! ## ERASE_ALL (R150) -/

def eraseEverything (p : PortId) (payload : List Byte) (s : State) : State :=
  withLength 0 p payload (fun s =>
    if !isNormal s then refuse p .holdup s
    else if inProgress s then refuse p .inProgress s
    else
      let op : EraseAll := { port := p, step := .waiting, blocks := [], captures := 0, erased := 0 }
      settle (setWait p .eraseAll (setEngState .erasing (s.onDir fun d => { d with eraseAll := some op })))) s

def execEraseAll (p : PortId) (tag : Byte) (payload : List Byte) (s : State) : Host.Outcome State Fault Refusal :=
  request p kEraseAll tag (eraseEverything p payload) s

end Sys2Proof.Machine
end

