-- ==== Sys2Proof/Machine/Completion.lean ====
section
/-! DEFINITION. Sys2Proof/Machine/Completion.lean: the commands PROGRAM_COMPLETE and ERASE_COMPLETE, and the reads that waited for
the operation (R123, R127, R129). -/

namespace Sys2Proof.Machine

/-- The capture that a waiting read names has left the directory. -/
def readGone (p : PortId) (kind : Byte) (cap : Nat) (s : State) : State :=
  if kind = kReadHead then refuse p (if cap = 0 || s.dir.lastCap < cap then .notFound else .gone) s
  else refuse p (if kind = kCommitNote then .gone else .notFound) s

/-- A request that waited for the operation reads the page as the operation left it and goes on (R129); READ_SECTION is looked at
anew, from the tables as they then stand (log 19). -/
def resumeRead (p : PortId) (s : State) : State :=
  match (s.port p).service with
  | none => s
  | some r =>
    match r.wait with
    | .read payload =>
      let t := setWait p .none s
      if r.kind = kReadSection then readSection p payload t
      else match findEntry t.dir (fieldAt payload 0 4) with
      | none => readGone p r.kind (fieldAt payload 0 4) t
      | some e =>
        if r.kind = kReadHead then deliverHead p (shown t e) t
        else if r.kind = kStageNote then loadPad p payload e t
        else queueCommit p (fieldAt payload 4 1) e t
    | _ => s

def resumeReads (s : State) : State := forEach allPorts resumeRead s

/-- The program in flight completes and is verified (R123), and then the reads of its page go on (R129). -/
def programCompleted (faults : List WordFault) (s : State) : State :=
  match s.store.flight with
  | some (.program who page content) =>
    keeping (fun t => resumeReads (programResult who page content t)) (landed (programPage page content faults) s)
  | _ => s

def execProgramComplete (faults : List WordFault) (s : State) : Host.Outcome State Fault Refusal :=
  .next (whenPoweredBut takeFlash (programCompleted faults) s)

/-- The erase in flight completes and is verified (R127), and then the reads of the block's pages go on (R129). -/
def eraseCompleted (faults : List BlockFault) (s : State) : State :=
  match s.store.flight with
  | some (.erase who block) =>
    keeping (fun t => resumeReads (eraseResult who block t)) (landed (eraseBlock block faults) s)
  | _ => s

def execEraseComplete (faults : List BlockFault) (s : State) : Host.Outcome State Fault Refusal :=
  .next (whenPoweredBut takeFlash (eraseCompleted faults) s)

end Sys2Proof.Machine
end

