-- ==== Sys2Proof/Machine/History.lean ====
section
/-! DEFINITION. Sys2Proof/Machine/History.lean: POST_EVENT and READ_EVENTS (2.5), SET_TIME (R173). -/

namespace Sys2Proof.Machine

/-- A host event's code: below 0x80 it is clamped (R29). -/
def hostCode (b : Byte) : Byte := if b.toNat < 0x80 then 0x80 else b

/-- The argument words of a POST_EVENT. -/
def eventWords (payload : List Byte) : List Nat :=
  (List.range ((payload.length - 1) / 4)).map fun i => fieldAt payload (1 + 4 * i) 4

def eventLengthOk (n : Nat) : Bool := n = 1 || n = 5 || n = 9 || n = 13

/-- A host event is posted (R29). -/
def postEvent (p : PortId) (payload : List Byte) (s : State) : State :=
  if !eventLengthOk payload.length then refuse p .badLength s
  else
    let code := hostCode (payload.getD 0 0)
    let taken := s.ring.hasRoom
    let s := post (.port p) code (eventWords payload) s
    let seq := if taken then s.ring.counter - 1 else s.ring.counter
    answer p .ok (code ≠ payload.getD 0 0) (markByte taken :: leBits 4 seq) s

def execPostEvent (p : PortId) (tag : Byte) (payload : List Byte) (s : State) : Host.Outcome State Fault Refusal :=
  request p kPostEvent tag (postEvent p payload) s

/-- The reply to READ_EVENTS (R30). -/
def eventsReply (s : State) (start : BitVec 32) (count : Nat) : List Byte :=
  let rs := (s.ring.readFrom start).take count
  leBits 4 s.ring.oldest ++ leBits 4 s.ring.counter ++ leBits 4 (s.ring.pin.getD 0) ++ [markByte s.ring.pin.isSome] ++
    num s.ring.lost ++ num rs.length ++ rs.flatMap EventRec.bytes

def readEvents (p : PortId) (payload : List Byte) (s : State) : State :=
  withLength 5 p payload (fun s =>
    let m := fieldAt payload 4 1
    let count := clampTo 1 40 m
    answer p .ok (count ≠ m) (eventsReply s (BitVec.ofNat 32 (fieldAt payload 0 4)) count) s) s

def execReadEvents (p : PortId) (tag : Byte) (payload : List Byte) (s : State) : Host.Outcome State Fault Refusal :=
  request p kReadEvents tag (readEvents p payload) s

/-- The epoch offset that a wall-clock time gives (R173). -/
def epochFor (wall : BitVec 64) (now : PartTime) : BitVec 64 := wall - now.setWidth 64

def setTime (p : PortId) (payload : List Byte) (s : State) : State :=
  withLength 8 p payload (fun s =>
    let offset := epochFor (BitVec.ofNat 64 (fieldAt payload 0 8)) s.time
    let was := s.epochValid
    let s := { s with epoch := offset, epochValid := true }
    let s := post (.port .management) evTimeSet
      [(offset.setWidth 32).toNat, (offset >>> 32).toNat, if was then 1 else 0] s
    answer p .ok false (leBits 8 offset) s) s

def execSetTime (p : PortId) (tag : Byte) (payload : List Byte) (s : State) : Host.Outcome State Fault Refusal :=
  requestBut takeEpoch p kSetTime tag (setTime p payload) s

end Sys2Proof.Machine
end

