-- ==== Sys2Proof/Machine/Holdup.lean ====
section
/-! DEFINITION. Sys2Proof/Machine/Holdup.lean: the commands PFAIL_ASSERT, PFAIL_RELEASE, POWER_RESTORED and HOLDUP_RESAMPLE
(chapter 7). -/

namespace Sys2Proof.Machine

/-- Step 1 and 2 of R106. -/
def enterHoldup (vhold : Nat) (s : State) : State :=
  let a := allowanceFor s.settings vhold
  s.onMonitor fun m =>
    { m with state := .holdup, lastVh := sampleMv vhold, lastVhTime := s.time, entry := a, remaining := a, programs := 0
             sinceVh := 0, episodes := satInc m.episodes, debounceAt := none, exhaustOn := false }

/-- A settings store whose erase has not started is answered HOLDUP (R116). -/
def holdStore (s : State) : State :=
  if s.store.queue.contains (.erase .settings settingsBlock) then
    endStore .holdup [] (withdraw (.erase .settings settingsBlock) s)
  else s

/-- A forced RESTART whose close has not completed is cancelled (R177). -/
def cancelRestart (s : State) : State :=
  forEach allPorts (fun p s =>
    match waitOf p s with
    | .restartClose _ => refuse p .holdup s
    | _ => s) s

/-- A holdup episode begins (R106). -/
def beginEpisode (vhold : Nat) (s : State) : State :=
  let s := enterHoldup vhold s
  let s := raise .holdupEntered (post .holdup evHoldupEntered [s.monitor.lastVh, s.monitor.remaining] s)
  let s := trigger sourcePower .monitor s
  let s := applyExhaustion s
  settle (cancelRestart (holdStore s))

/-- PFAIL is asserted (R106, R107). -/
def pfailAsserted (vhold : Nat) (s : State) : State :=
  match s.monitor.state with
  | .normal => beginEpisode vhold s
  | .recovering => settle (applyExhaustion (s.onMonitor fun m => { m with state := .holdup, debounceAt := none }))
  | .holdup | .exhausted => s

def setPfail (b : Bool) (s : State) : State := s.onPins fun p => { p with pfail := b }

def execPfailAssert (vhold : Nat) (s : State) : Host.Outcome State Fault Refusal :=
  .next (whenPowered (pfailAsserted vhold) (setPfail true s))

/-- PFAIL is released (R107). -/
def pfailReleased (s : State) : State :=
  match s.monitor.state with
  | .holdup | .exhausted =>
    s.onMonitor fun m => { m with state := .recovering, debounceAt := some (after s.time (usPerMs * s.settings.debounce)) }
  | .normal | .recovering => s

def execPfailRelease (s : State) : Host.Outcome State Fault Refusal := .next (whenPowered pfailReleased (setPfail false s))

/-- The restore debounce has run out (R107). -/
def debounceDue (s : State) : Bool :=
  s.monitor.state = .recovering && match s.monitor.debounceAt with
    | some t => reached s.time t
    | none => false

/-- The power stall is cleared, and a stalled capture closes TRUNCATED_POWER, whatever cause it was closing for and whatever it
was doing: opening, gathering or closing (R96, R107, logs 16, 18 and 22). -/
def clearStall (s : State) : State :=
  let s := s.onCapture fun c => { c with closeOn := false }
  if s.engine.stall then
    let s := reformClose (s.onEngine fun e => { e with stall := false, cause := .power })
    match s.engine.state with
    | .opening => closeOpening .power s
    | .gathering => closeEarly .power .skippedPower s
    | .closing | .idle | .erasing => s
  else s

/-- What waited for NORMAL may go on (R116, R124). -/
def releaseWaits (s : State) : State :=
  let s := s.onDir fun d => { d with comp := { d.comp with held := false } }
  s.onStore fun t => { t with unjournaled := t.unjournaled.map fun x => (x.1, false) }

/-- The monitor enters NORMAL (R107). -/
def powerRestored (s : State) : State :=
  if debounceDue s then
    let s := s.onMonitor fun m => { m with state := .normal, debounceAt := none, exhaustOn := false }
    let s := post .holdup evPowerRestored [s.monitor.programs, s.monitor.remaining] s
    settle (releaseWaits (clearStall s))
  else s

def execPowerRestored (s : State) : Host.Outcome State Fault Refusal := .next (whenPowered powerRestored s)

/-- The re-sample after 32 programs (R110). -/
def holdupResampled (vhold : Nat) (s : State) : State := if resampleDue s then settle (resample vhold s) else s

def execHoldupResample (vhold : Nat) (s : State) : Host.Outcome State Fault Refusal :=
  .next (whenPowered (holdupResampled vhold) s)

end Sys2Proof.Machine
end

