-- ==== Sys2Proof/Machine/TermOps.lean ====
section
/-! DEFINITION. Sys2Proof/Machine/TermOps.lean: filtered levels, latches and the evaluation of trigger terms (1.1, 1.2). -/

namespace Sys2Proof.Machine

/-- A term's condition from the filtered levels and the latches (R4). -/
def condition (d : TermDef) (filtered latches : BitVec 16) : Bool :=
  let value := match d.source with | .level => filtered | .latch => latches
  let differs := value ^^^ d.polarity
  match d.combine with
  | .any => (d.mask &&& ~~~ differs) ≠ 0
  | .all => d.mask ≠ 0 && (d.mask &&& differs) = 0

def termCondition (n : Fin 8) (s : State) : Bool := condition s.settings.terms[n] s.trig.filtered s.trig.latches

/-- A term fires (R6). -/
def fireTerm (n : Fin 8) (s : State) : State :=
  let s := onTerm n (fun t => { t with state := .fired, fires := satInc t.fires }) s
  trigger n.val (.term n) (post (.term n) evTermFired [s.trig.filtered.toNat, s.trig.latches.toNat] s)

/-- An evaluation of a term (R5, R6); no term is evaluated while the controller is STARTING. -/
def evaluate (n : Fin 8) (s : State) : State :=
  let t := s.trig.terms[n]
  if !s.ready || t.state ≠ .armed then s
  else if termCondition n s then (if t.qualified then fireTerm n s else s)
  else onTerm n (fun t => { t with qualified := true }) s

/-- The terms with a line of `lines` in their mask are evaluated, in ascending order (R5, R6). -/
def evaluateLines (lines : BitVec 16) (s : State) : State :=
  forEach allLines (fun n s => if ((s.settings.terms[n]).mask &&& lines) = 0 then s else evaluate n s) s

/-- A term goes to ARMED with its mark cleared and is evaluated at once (R7). -/
def rearm (n : Fin 8) (s : State) : State := evaluate n (onTerm n (fun t => { t with state := .armed, qualified := false }) s)

/-- The filtered-level change of a line (R1, R2). -/
def filteredChange (line : Fin 16) (level : Bool) (s : State) : State :=
  let s := s.onTrig fun t =>
    { t with filtered := setBit t.filtered line.val level, latches := setBit t.latches line.val true
             cands := vset t.cands line none }
  evaluateLines (BitVec.twoPow 16 line.val) s

/-- The candidate of a line has held for the filter width (R1). -/
def candidateDue (line : Fin 16) (s : State) : Option Bool :=
  match s.trig.cands[line] with
  | some c => if reached s.time (after c.start s.settings.filterWidth[line]) then some c.level else none
  | none => none

/-- A due candidate becomes the filtered level. -/
def takeCandidate (line : Fin 16) (s : State) : State :=
  match candidateDue line s with
  | some level => filteredChange line level s
  | none => s

/-- The candidate that a raw level leaves (R1). -/
def nextCandidate (line : Fin 16) (level : Bool) (now : PartTime) (t : TrigUnit) : Option Candidate :=
  if t.filtered.getLsbD line.val = level then none
  else match t.cands[line] with
    | some c => some c
    | none => some { level := level, start := now }

end Sys2Proof.Machine
end

