-- ==== Sys2Proof/Machine/LineRequests.lean ====
section
/-! DEFINITION. Sys2Proof/Machine/LineRequests.lean: READ_LINES, CLEAR_LATCHES, ARM, DISARM and DRIVE_INDICATORS (1.5). -/

namespace Sys2Proof.Machine

/-- A term in a READ_LINES reply (R12). -/
def termFields (s : State) (t : Term) : List Byte :=
  [t.state.code, markByte t.qualified] ++ optNum t.assoc ++ num (timerLeft usPerS s.time t.rearmAt) ++ num t.fires

/-- The reply to READ_LINES (R12). -/
def linesReply (s : State) : List Byte :=
  setField s.trig.filtered ++ setField s.trig.latches ++ s.trig.terms.toList.flatMap (termFields s) ++
    num (timerLeft usPerS s.time s.trig.hostTimer) ++ num s.trig.hostRefusals ++ setField s.trig.indicators

def readLines (p : PortId) (payload : List Byte) (s : State) : State :=
  withLength 0 p payload (fun s => answer p .ok false (linesReply s) s) s

def execReadLines (p : PortId) (tag : Byte) (payload : List Byte) (s : State) : Host.Outcome State Fault Refusal :=
  request p kReadLines tag (readLines p payload) s

/-- The latches of a mask are cleared, and the terms whose lines changed are evaluated once (R13). -/
def clearMask (mask : BitVec 16) (s : State) : State :=
  let changed := s.trig.latches &&& mask
  evaluateLines changed (s.onTrig fun t => { t with latches := t.latches &&& ~~~ mask })

def clearLatches (p : PortId) (payload : List Byte) (s : State) : State :=
  withLength 2 p payload (fun s =>
    let s := clearMask (BitVec.ofNat 16 (fieldAt payload 0 2)) s
    settle (answer p .ok false (setField s.trig.latches) s)) s

def execClearLatches (p : PortId) (tag : Byte) (payload : List Byte) (s : State) : Host.Outcome State Fault Refusal :=
  request p kClearLatches tag (clearLatches p payload) s

/-- The state of every term (R14). -/
def termStates (s : State) : List Byte := s.trig.terms.toList.map fun t => t.state.code

/-- A named term that is DISABLED or FIRED is armed (R14). -/
def armTerm (n : Fin 8) (s : State) : State :=
  match (s.trig.terms[n]).state with
  | .armed => s
  | .disabled | .fired => rearm n (onTerm n (fun t => { t with rearmAt := none, assoc := none }) s)

/-- A named term is disarmed (R14). -/
def disarmTerm (n : Fin 8) (s : State) : State :=
  onTerm n (fun t => { t with state := .disabled, qualified := false, assoc := none, rearmAt := none }) s

/-- What a mask of terms names, in ascending order. -/
def namedTerms (mask : BitVec 8) : List (Fin 8) := allLines.filter fun n => mask.getLsbD n.val

def termMask (payload : List Byte) : BitVec 8 := BitVec.ofNat 8 (fieldAt payload 0 1)

def arm (p : PortId) (payload : List Byte) (s : State) : State :=
  withLength 1 p payload (fun s =>
    let s := forEach (namedTerms (termMask payload)) armTerm s
    answer p .ok false (termStates s) s) s

def execArm (p : PortId) (tag : Byte) (payload : List Byte) (s : State) : Host.Outcome State Fault Refusal :=
  request p kArm tag (arm p payload) s

def disarm (p : PortId) (payload : List Byte) (s : State) : State :=
  withLength 1 p payload (fun s =>
    let s := forEach (namedTerms (termMask payload)) disarmTerm s
    answer p .ok false (termStates s) s) s

def execDisarm (p : PortId) (tag : Byte) (payload : List Byte) (s : State) : Host.Outcome State Fault Refusal :=
  request p kDisarm tag (disarm p payload) s

/-- The outputs are set from the value's low bits and confirmed (R15). -/
def driveIndicators (p : PortId) (payload : List Byte) (s : State) : State :=
  withLength 2 p payload (fun s =>
    let v := payload.getD 0 0
    if payload.getD 1 0 ≠ ~~~ v then refuse p .badValue s
    else
      let s := s.onTrig fun t => { t with indicators := v.setWidth 4 }
      answer p .ok (16 ≤ v.toNat) (0x5A :: setField s.trig.indicators ++ setField s.pins.raw) s) s

def execDriveIndicators (p : PortId) (tag : Byte) (payload : List Byte) (s : State) : Host.Outcome State Fault Refusal :=
  request p kDriveIndicators tag (driveIndicators p payload) s

end Sys2Proof.Machine
end

