-- ==== Sys2Proof/Machine/Lines.lean ====
section
/-! DEFINITION. Sys2Proof/Machine/Lines.lean: the commands RAW_LEVEL_CHANGE, FILTERED_LEVEL_CHANGE, REARM_TIMER_EXPIRY and
HOST_HOLDOFF_EXPIRY (chapter 1). -/

namespace Sys2Proof.Machine

/-- A raw level comes to a line of a part with power (R1); a candidate that has held its width is taken first (log 2). -/
def rawChanged (line : Fin 16) (level : Bool) (s : State) : State :=
  let s := takeCandidate line s
  settle (s.onTrig fun t => { t with cands := vset t.cands line (nextCandidate line level s.time t) })

def setRaw (line : Fin 16) (level : Bool) (s : State) : State :=
  s.onPins fun p => { p with raw := setBit p.raw line.val level }

def execRawLevelChange (line : Fin 16) (level : Bool) (s : State) : Host.Outcome State Fault Refusal :=
  .next (setRaw line level (whenPowered (rawChanged line level) s))

/-- The filter width has passed (R1). -/
def filterPassed (line : Fin 16) (s : State) : State :=
  match candidateDue line s with
  | some level => settle (filteredChange line level s)
  | none => s

def execFilteredLevelChange (line : Fin 16) (s : State) : Host.Outcome State Fault Refusal :=
  .next (whenPowered (filterPassed line) s)

/-- A term's re-arm timer has run out (R8). -/
def rearmDue (n : Fin 8) (s : State) : Bool :=
  match (s.trig.terms[n]).rearmAt with
  | some t => reached s.time t
  | none => false

/-- The timer stops, and a term still FIRED is re-armed (R8). -/
def rearmExpired (n : Fin 8) (s : State) : State :=
  if rearmDue n s then
    let s := onTerm n (fun t => { t with rearmAt := none }) s
    if (s.trig.terms[n]).state = .fired then rearm n s else s
  else s

def execRearmTimerExpiry (n : Fin 8) (s : State) : Host.Outcome State Fault Refusal := .next (whenPowered (rearmExpired n) s)

/-- The host hold-off timer stops (R11). -/
def holdoffExpired (s : State) : State :=
  match s.trig.hostTimer with
  | some t => if reached s.time t then s.onTrig fun u => { u with hostTimer := none } else s
  | none => s

def execHostHoldoffExpiry (s : State) : Host.Outcome State Fault Refusal := .next (whenPowered holdoffExpired s)

end Sys2Proof.Machine
end

