-- ==== Sys2Proof/Machine/StatusGroups.lean ====
section
/-! DEFINITION. Sys2Proof/Machine/StatusGroups.lean: what the groups of the STATUS reply carry (R48, R63, R104, R118, R133, R151,
R171; field sizes by R182 and log 10). -/

namespace Sys2Proof.Machine

/-- GENERAL (R171). -/
def generalGroup (p : PortId) (s : State) : List Byte :=
  [readyCode s, s.monitor.state.code, s.engine.state.code] ++ num (captureNumber s) ++ timeField s.time ++
    leBits 8 s.epoch ++ [markByte s.epochValid, markByte s.link.svcStrap, BitVec.ofNat 8 (portLevel p s).code]

/-- The request in service of a port: its kind alone, or none (log 10). -/
def serviceByte (q : Port) : Byte :=
  match q.service with
  | some r => r.kind
  | none => absent

/-- A port in LINKS; its rate is the one in effect (log 10). -/
def portGroup (q : Port) : List Byte :=
  num q.rate ++ [serviceByte q] ++ num q.requests ++ num q.lineErrors ++ num q.interbyte ++ num q.lengthErrors ++
    num q.crcErrors ++ num q.busyReplies ++ num q.denied

/-- LINKS (R171). -/
def linksGroup (s : State) : List Byte :=
  s.link.ports.toList.flatMap portGroup ++ setField s.settings.noticeMask ++ [markByte (attn s)]

/-- A stream channel (R48). -/
def streamGroup (g : StreamCfg) (c : StreamChan) : List Byte :=
  [markByte g.enabled, match g.mode with | .single => 0 | .paired => 1] ++ num g.wordLen ++ [markByte g.packing, c.rx.code] ++
    num c.bytesHeld ++ num c.fifo.length ++ num c.pendDrops ++ [markByte c.claim.isSome] ++
    optNum (c.claim.map fun x => x.capture) ++ optNum (c.claim.map fun x => x.count) ++ num c.received ++ num c.taken ++
    num c.aged ++ num c.overrun ++ num c.syncErrors ++ num c.truncated

def streamsGroup (s : State) : List Byte := allChannels.flatMap fun i => streamGroup s.settings.stream[i] s.streams[i]

/-- The address of the next byte to be fetched (R63): of the transaction in flight, or of the next READ run, since a DENY run
is not fetched (R58); with no byte left to fetch, the address after the region (log 37). -/
def nextFetch (c : FetchChan) : Nat :=
  match c.txn, c.region with
  | some t, _ => t.addr
  | none, some r => match r.runs.find? fun x => x.permit = .read with
    | some x => x.start
    | none => r.base + r.len
  | none, none => 0

/-- A fetch channel (R63). -/
def fetchGroup (g : FetchCfg) (c : FetchChan) : List Byte :=
  [markByte g.enabled] ++ num g.timeout ++ num g.retries ++ [c.state.code, markByte c.region.isSome] ++ num (nextFetch c) ++
    num c.failures ++ [markByte c.silent.isSome] ++ optNum c.silent ++ num c.transactions ++ num c.attempts ++
    num c.timeouts ++ num c.naks ++ num c.failed ++ num c.abandoned ++ num c.stale ++ num c.badAnswers ++ num c.silents ++
    num c.bytesRead

def fetchesGroup (s : State) : List Byte := allChannels.flatMap fun i => fetchGroup s.settings.fetch[i] s.fetches[i]

/-- A staging buffer (R104): all its fields before the next buffer's, as for every group of several instances (log 10). -/
def bufGroup (b : Buf) : List Byte := [b.state.code] ++ num b.cap ++ num b.page ++ [markByte b.accepted]

/-- The retain time remaining. -/
def retainLeft (s : State) : Nat :=
  match s.engine.retainTimer with
  | .running t => timerLeft usPerS s.time (some t)
  | .stopped | .ranOut => 0

/-- ENGINE (R104). In OPENING no entry stands at the cursor. The cursor position is sent in 1 byte, as an index (log 10). -/
def engineGroup (s : State) : List Byte :=
  let c := current s
  let e := s.engine
  [e.state.code] ++ num (captureNumber s) ++ setField ((c.map fun c => c.trig).getD 0) ++
    leBytes 1 ((c.bind fun c => c.cursor).getD 0) ++
    leBytes 1 ((c.bind fun c => c.cursor.bind fun k => c.walk[k]?.map fun i => i.entry.val).getD 0) ++
    leBytes 1 (((c.bind fun c => c.current).map fun x => x.index).getD 0) ++
    num ((c.map fun c => c.nextPage).getD 0) ++ num ((c.map fun c => c.snapshot.pageCap).getD 0) ++
    setField e.retain ++ num (retainLeft s) ++ e.bufs.toList.flatMap bufGroup ++ [markByte e.stall, e.cause.code] ++
    num e.notes.length ++ num e.refFull ++ num e.refNumbers ++ num e.refPower ++ num e.refErasing

/-- HOLDUP (R118). -/
def holdupGroup (s : State) : List Byte :=
  let m := s.monitor
  [m.state.code] ++ num m.lastVh ++ timeField m.lastVhTime ++ num m.entry ++ num m.remaining ++ num m.programs ++
    num m.sinceVh ++ num (timerLeft usPerMs s.time m.debounceAt) ++ num m.episodes

/-- The operation in flight: kind, requester, page or block (R133). -/
def flightFields (f : Option Flight) : List Byte :=
  match f with
  | none => [absent, absent] ++ num 0
  | some (.program who page _) => [0, who.producer] ++ num page
  | some (.erase who block) => [1, who.producer] ++ num block

/-- The producer of a waiting request, by its position in the table of 8.4. -/
def QReq.producer : QReq → Nat
  | .buf _ => 0
  | .erase who _ => who.producer.toNat
  | .relocation => 3
  | .commit _ => 4
  | .settings => 5

/-- Requests waiting for a producer; a journal append waits until its program starts (R133). -/
def waitingFor (k : Nat) (s : State) : Nat :=
  (s.store.queue.filter fun q => q.producer = k).length +
    (if k = 1 then (s.dir.slotted.filter fun x => !x.flying).length else 0)

def blocksIn (p : BlockState → Bool) (s : State) : Nat := (blocksWhere p s).length

/-- The unjournaled retirements: those whose record is still to be programmed (8, R124), kept back, pending or slotted. -/
def unjournaledCount (s : State) : Nat :=
  s.store.unjournaled.length + (s.dir.slotted.filter fun x => x.who = .retirement).length +
    (s.dir.pending.filter fun x => x.2 = .retirement).length

/-- STORE (R133). -/
def storeGroup (s : State) : List Byte :=
  num (blocksIn (· = .free) s) ++
    num (blocksIn (fun b => match b with | .allotted _ => true | _ => false) s) ++ num (blocksIn (· = .dirty) s) ++
    num (blocksIn (· = .erasing) s) ++ num (blocksIn (· = .retired) s) ++ optNum (lowestFreeBlock s) ++
    num s.store.retPages.length ++ num s.store.retBlocks.length ++ num (unjournaledCount s) ++
    flightFields s.store.flight ++ (List.range 6).flatMap fun k => num (waitingFor k s)

/-- DIRECTORY (R151), with the asking port's pad; reserved section-table entries are in use (log 53), and the next slot is a
number (log 10). -/
def directoryGroup (p : PortId) (s : State) : List Byte :=
  let d := s.dir
  num (entriesOf d).length ++ num (heldCount d) ++ num (captureNumber s) ++ num d.sections.length ++ num d.map.length ++
    num d.active ++ leBits 4 d.gen ++ num d.nextSlot ++ num (freeSlots d) ++ num d.slotted.length ++ [d.comp.state.code] ++
    num d.pending.length ++ num d.lastCap ++ num d.taken ++ num d.torn ++ padFields (s.port p).pad

/-- The contents of a group; none for a group not in the table of R171. -/
def statusGroup (g : Nat) (p : PortId) (s : State) : Option (List Byte) :=
  match g with
  | 0 => some (generalGroup p s)
  | 1 => some (linksGroup s)
  | 2 => some (streamsGroup s)
  | 3 => some (fetchesGroup s)
  | 4 => some (engineGroup s)
  | 5 => some (holdupGroup s)
  | 6 => some (storeGroup s)
  | 7 => some (directoryGroup p s)
  | _ => none

/-- The reduced form of the host link (R171). -/
def reducedStatus (s : State) : List Byte :=
  [readyCode s, s.monitor.state.code, markByte (inProgress s)] ++ num (timerLeft usPerS s.time s.trig.hostTimer) ++
    num s.engine.notes.length ++ noticeField .host s

end Sys2Proof.Machine
end

