-- ==== Sys2Proof/WellFormed.lean ====
section
/-! DEFINITION. Sys2Proof/WellFormed.lean: which commands can occur as their row describes them. -/

namespace Sys2Proof

/-- A request's payload is at most 1,024 bytes (11.2, R167). -/
def payloadFits (payload : List Byte) : Bool := payload.length ≤ 1024

/-- The length field of a frame, low byte first, lies outside 2 to 1,026 (R167). -/
def lengthIsBad (lo hi : Byte) : Bool :=
  let n := lo.toNat + 256 * hi.toNat
  n < 2 || 1026 < n

/-- A frame, from its start mark to its CRC, is at most 1,031 bytes (R167). -/
def receptionFits (bytes : List Byte) : Bool := bytes.length ≤ 1031

/-- The kind byte names no request of 12.1 (R178). -/
def kindIsUnknown (kind : Byte) : Bool := kind.toNat = 0 || 0x22 ≤ kind.toNat

/-- An answer with a possible count carries that many data bytes (4.1). -/
def answerFits (count : Byte) (data : List Byte) : Bool := 64 < count.toNat || data.length = count.toNat

/-- The payload has selector PAGE_CAP (5.2). -/
def selectsPageCap (payload : List Byte) : Bool := payload.head? = some 1

/-- A command as its row describes it. Every value of an operand without a check here can occur. -/
def Instr.wellFormed : Instr → Bool
  | .fetchAnswer _ _ _ count data _ => answerFits count data
  | .lengthErrors _ lo hi => lengthIsBad lo hi
  | .interbyte a | .crcErrors a => receptionFits a.bytes
  | .unknownKind _ kind _ payload => kindIsUnknown kind && payloadFits payload
  | .writePlanEntry _ _ payload => payloadFits payload && !selectsPageCap payload
  | .writePlanPageCap _ _ payload => payloadFits payload && selectsPageCap payload
  | .identify _ _ p | .status _ _ p | .ackRestart _ _ p | .restart _ _ p | .readSettings _ _ p
  | .writeSettings _ _ p | .storeSettings _ _ p | .setTime _ _ p | .postEvent _ _ p | .readEvents _ _ p
  | .panicNote _ _ p | .capture _ _ p | .abortCapture _ _ p | .readLines _ _ p | .clearLatches _ _ p
  | .arm _ _ p | .disarm _ _ p | .driveIndicators _ _ p | .readPlan _ _ p | .probeReach _ _ p
  | .listCaptures _ _ p | .readCapture _ _ p | .readHead _ _ p | .readSection _ _ p | .readErrors _ _ p
  | .ackErrors _ _ p | .hold _ _ p | .release _ _ p | .delete _ _ p | .stageNote _ _ p | .commitNote _ _ p
  | .eraseAll _ _ p => payloadFits p
  | .rawLevelChange _ _ | .filteredLevelChange _ | .rearmTimerExpiry _ | .hostHoldoffExpiry | .syncAssert _
  | .syncRelease _ | .streamStall _ | .fetchTimeout _ | .takePiece | .takeRecord | .quietTimeExpiry
  | .streamWindowExpiry | .retainLapsed | .pfailAssert _ | .pfailRelease | .powerRestored | .holdupResample _
  | .queueStart | .programComplete _ | .eraseComplete _ | .relocationStart | .powerOn _ _ | .journalFormat _ _ _
  | .replayEnd | .restartEffect _ | .lineRateChange _ | .svcStrapChange _ | .lineError _ | .clkRisingEdge _ _ _
  | .powerLoss _ | .replyTransmitted _ => true

end Sys2Proof
end

