-- ==== Sys2Proof/Machine/Links.lean ====
section
/-! DEFINITION. Sys2Proof/Machine/Links.lean: the line events, IDENTIFY, STATUS, ACK_RESTART and RESTART (chapter 11). -/

namespace Sys2Proof.Machine

/-! ## Reception (R167) -/

/-- Where hunting stands after it resumed with the two length bytes: a start mark among them begins a frame (R167). -/
def huntAgain (lo hi : Byte) : Option (List Byte) :=
  if lo = 0xD3 then some [0xD3, hi] else if hi = 0xD3 then some [0xD3] else none

/-- What a received byte brings about beside the frame in reception. -/
inductive Received
  | nothing | badLength | badCrc
  | frame (kind tag : Byte) (payload : List Byte)
  deriving DecidableEq, Repr

/-- A frame in reception, the byte just received its last: start mark, two length bytes, kind, tag, length − 2 payload bytes,
two CRC bytes (12.1, R167). -/
def frameByte (rx : List Byte) : Option (List Byte) × Received :=
  let n := fieldAt rx 1 2
  if rx.length < 3 then (some rx, .nothing)
  else if lengthIsBad (rx.getD 1 0) (rx.getD 2 0) then (huntAgain (rx.getD 1 0) (rx.getD 2 0), .badLength)
  else if rx.length < n + 5 then (some rx, .nothing)
  else if rx.drop (n + 3) = crcBytes ((rx.drop 1).take (n + 2)) then
    (none, .frame (rx.getD 3 0) (rx.getD 4 0) ((rx.drop 5).take (n - 2)))
  else (none, .badCrc)

/-- A byte arrives: HUNTING ignores every byte but the start mark (R167). -/
def receiveByte (rx : Option (List Byte)) (b : Byte) : Option (List Byte) × Received :=
  match rx with
  | none => (if b = 0xD3 then some [0xD3] else none, .nothing)
  | some bs => frameByte (bs ++ [b])

/-- Bytes arrive one after another: where reception stands, and what the last of them brought about. -/
def receiveBytes (rx : Option (List Byte)) (bytes : List Byte) : Option (List Byte) × Received :=
  bytes.foldl (fun r b => receiveByte r.1 b) (rx, .nothing)

/-- The frame of a request (12.1, R167). -/
def requestFrame (kind tag : Byte) (payload : List Byte) : List Byte :=
  0xD3 :: withCrc (leBytes 2 (payload.length + 2) ++ [kind, tag] ++ payload)

/-! ## Line events (R166, R167, R169, R174) -/

/-- A line error abandons any frame in reception (R166). -/
def lineErred (p : PortId) (s : State) : State :=
  s.onPort p fun q => { q with rx := none, lineErrors := satInc q.lineErrors }

def execLineError (p : PortId) (s : State) : Host.Outcome State Fault Refusal := .next (whenPowered (lineErred p) s)

/-- The bytes arrive, and the 20 ms gap abandons the frame that they leave in reception: the next byte is a hunting byte (R167).
Without a frame in reception no gap can pass (log 3). -/
def gapPassed (a : Arrival) (s : State) : State :=
  match (receiveBytes (s.port a.port).rx a.bytes).1 with
  | some _ => s.onPort a.port fun q => { q with rx := none, interbyte := satInc q.interbyte }
  | none => s

def execInterbyte (a : Arrival) (s : State) : Host.Outcome State Fault Refusal := .next (whenPowered (gapPassed a) s)

/-- A length out of range abandons the frame, and hunting resumes with the byte after the start mark (R167). -/
def lengthErred (p : PortId) (lo hi : Byte) (s : State) : State :=
  if lengthIsBad lo hi then
    s.onPort p fun q => { q with rx := huntAgain lo hi, lengthErrors := satInc q.lengthErrors }
  else s

def execLengthErrors (p : PortId) (lo hi : Byte) (s : State) : Host.Outcome State Fault Refusal :=
  .next (whenPowered (lengthErred p lo hi) s)

/-- The bytes arrive, and the frame that the last of them completes is discarded for its CRC (R167). -/
def crcErred (a : Arrival) (s : State) : State :=
  if (receiveBytes (s.port a.port).rx a.bytes).2 = .badCrc then
    s.onPort a.port fun q => { q with rx := none, crcErrors := satInc q.crcErrors }
  else s

def execCrcErrors (a : Arrival) (s : State) : Host.Outcome State Fault Refusal := .next (whenPowered (crcErred a) s)

/-- The oldest reply frame has been transmitted (R169); the restart that waits for it may take effect (R177). -/
def replySent (p : PortId) (s : State) : State :=
  match (s.port p).tx with
  | [] => s
  | r :: rest =>
    let s := s.onPort p fun q => { q with tx := rest }
    if r.restarts then s.onLink fun l => { l with restart := l.restart.map fun x => { x with sent := true } } else s

def execReplyTransmitted (p : PortId) (s : State) : Host.Outcome State Fault Refusal := .next (whenPowered (replySent p) s)

/-- The rate that a line is to take. -/
def wantedRate (p : PortId) (s : State) : Nat := s.settings.lineRate[portIndex p]

/-- A changed line rate takes effect in HUNTING with no frame awaiting transmission (R174). -/
def rateChanged (p : PortId) (s : State) : State :=
  if (s.port p).rx.isNone && (s.port p).tx.isEmpty then s.onPort p fun q => { q with rate := wantedRate p s } else s

def execLineRateChange (p : PortId) (s : State) : Host.Outcome State Fault Refusal := .next (whenPowered (rateChanged p) s)

/-- The debounced SVC_STRAP level (R166). -/
def strapChanged (b : Bool) (s : State) : State := s.onLink fun l => { l with svcStrap := b }

def execSvcStrapChange (b : Bool) (s : State) : Host.Outcome State Fault Refusal := .next (whenPowered (strapChanged b) s)

/-! ## IDENTIFY (R172) -/

/-- "Olpimar UX3240" -/
def identityText : List Byte :=
  [0x4F, 0x6C, 0x70, 0x69, 0x6D, 0x61, 0x72, 0x20, 0x55, 0x58, 0x33, 0x32, 0x34, 0x30]

def identityReply (p : PortId) (s : State) : List Byte :=
  identityText ++ num 1 ++ num 64 ++ num 128 ++ num 512 ++ num 32 ++ num 48 ++ num 1024 ++
    [BitVec.ofNat 8 (portLevel p s).code, readyCode s] ++ timeField s.time

def identify (p : PortId) (payload : List Byte) (s : State) : State :=
  withLength 0 p payload (fun s => answer p .ok false (identityReply p s) s) s

def execIdentify (p : PortId) (tag : Byte) (payload : List Byte) (s : State) : Host.Outcome State Fault Refusal :=
  request p kIdentify tag (identify p payload) s

/-! ## STATUS (R171) -/

/-- STATUS is answered with the state as it stands, and then clears the port's copy of the flags. -/
def statusAnswer (p : PortId) (fields : List Byte) (s : State) : State := clearNotices p (answer p .ok false fields s)

def status (p : PortId) (payload : List Byte) (s : State) : State :=
  if 1 < payload.length then refuse p .badLength s
  else match p with
    | .host => statusAnswer p (reducedStatus s) s
    | .management | .service =>
      match statusGroup (fieldAt payload 0 1) p s with
      | some g => statusAnswer p (readyCode s :: noticeField p s ++ g) s
      | none => refuse p .badValue s

def execStatus (p : PortId) (tag : Byte) (payload : List Byte) (s : State) : Host.Outcome State Fault Refusal :=
  request p kStatus tag (status p payload) s

/-! ## ACK_RESTART (R170) and RESTART (R177) -/

def ackRestart (p : PortId) (payload : List Byte) (s : State) : State :=
  withLength 0 p payload (fun s => answer p .ok false [] (clearRestarted s)) s

def execAckRestart (p : PortId) (tag : Byte) (payload : List Byte) (s : State) : Host.Outcome State Fault Refusal :=
  request p kAckRestart tag (ackRestart p payload) s

/-- A RESTART whose checks have passed: answered, or with a capture in progress aborted first (R101, R177). -/
def decideRestart (p : PortId) (force : Bool) (s : State) : State :=
  match current s with
  | some c => settle (abortNow (setWait p (.restartClose c.number) s))
  | none => answerRestart p force 0 absent s

def restart (p : PortId) (payload : List Byte) (s : State) : State :=
  withLength 1 p payload (fun s =>
    let force : Bool := fieldAt payload 0 1 = 1
    if 1 < fieldAt payload 0 1 then refuse p .badValue s
    else if !isNormal s then refuse p .holdup s
    else if s.dir.eraseAll.isSome || s.link.store.isSome || (!force && inProgress s) then refuse p .inProgress s
    else decideRestart p force s) s

def execRestart (p : PortId) (tag : Byte) (payload : List Byte) (s : State) : Host.Outcome State Fault Refusal :=
  request p kRestart tag (restart p payload) s

end Sys2Proof.Machine
end

