-- ==== Sys2Proof/Machine/PlanRequests.lean ====
section
/-! DEFINITION. Sys2Proof/Machine/PlanRequests.lean: READ_PLAN, the two forms of WRITE_PLAN (chapter 5) and PROBE_REACH (R62). -/

namespace Sys2Proof.Machine

/-! ## READ_PLAN (R72, R73) -/

/-- The plan that a source names, with the capture number reported for it. -/
def planOf (source : Nat) (s : State) : Option (Plan × Nat) :=
  if source = 0 then some (s.plan, 0) else (current s).map fun c => (c.snapshot, c.number)

/-- The entries from `first`, at most `count`. -/
def planSlice (pl : Plan) (first count : Nat) : List PlanEntry := (pl.entries.toList.drop first).take count

def planReply (source first : Nat) (count : Nat) (pl : Plan) (cap : Nat) : List Byte :=
  let es := planSlice pl first count
  leBytes 1 source ++ num pl.revision ++ num pl.pageCap ++ num cap ++ leBytes 1 first ++ num es.length ++
    es.flatMap PlanEntry.bytes

/-- READ_PLAN (R72, R73). The first index is looked at before the want of a snapshot (log 59, the model's choice). -/
def readPlan (p : PortId) (payload : List Byte) (s : State) : State :=
  withLength 3 p payload (fun s =>
    let source := fieldAt payload 0 1
    let first := fieldAt payload 1 1
    let m := fieldAt payload 2 1
    let count := clampTo 1 16 m
    if 1 < source || 47 < first then refuse p .badValue s
    else match planOf source s with
      | none => refuse p .refusedState s
      | some (pl, cap) => answer p .ok (count ≠ m) (planReply source first count pl cap) s) s

def execReadPlan (p : PortId) (tag : Byte) (payload : List Byte) (s : State) : Host.Outcome State Fault Refusal :=
  request p kReadPlan tag (readPlan p payload) s

/-! ## WRITE_PLAN (R68 to R71) -/

def Plan.setEntry (pl : Plan) (i : Fin 48) (e : PlanEntry) : Plan :=
  { pl with entries := vset pl.entries i e, revision := satInc pl.revision }

def Plan.setPageCap (pl : Plan) (cap : Nat) : Plan := { pl with pageCap := cap, revision := satInc pl.revision }

/-- The ENTRY form (R68 to R70). -/
def writeEntry (p : PortId) (payload : List Byte) (s : State) : State :=
  if payload.length ≠ 23 then refuse p .badLength s
  else match finOf 48 (fieldAt payload 1 1), parseEntry (payload.drop 2) with
    | some i, some e =>
      let s := { s with plan := s.plan.setEntry i e.clamped }
      answer p .ok (entryClamped (payload.drop 2) e) (num s.plan.revision ++ leBytes 1 i.val ++ e.clamped.bytes) s
    | _, _ => refuse p .badValue s

/-- The PAGE_CAP form (R67 to R70). -/
def writePageCap (p : PortId) (payload : List Byte) (s : State) : State :=
  if payload.length ≠ 3 then refuse p .badLength s
  else
    let v := fieldAt payload 1 2
    let cap := clampPageCap v
    let s := { s with plan := s.plan.setPageCap cap }
    answer p .ok (cap ≠ v) (num s.plan.revision ++ num cap) s

/-- A WRITE_PLAN by its selector (R68). -/
def writePlan (p : PortId) (payload : List Byte) (s : State) : State :=
  match payload.map (·.toNat) with
  | [] => refuse p .badLength s
  | 0 :: _ => writeEntry p payload s
  | 1 :: _ => writePageCap p payload s
  | _ => refuse p .badValue s

def execWritePlanEntry (p : PortId) (tag : Byte) (payload : List Byte) (s : State) : Host.Outcome State Fault Refusal :=
  requestBut takeWorking p kWritePlan tag (writePlan p payload) s

def execWritePlanPageCap (p : PortId) (tag : Byte) (payload : List Byte) (s : State) : Host.Outcome State Fault Refusal :=
  requestBut takeWorking p kWritePlan tag (writePlan p payload) s

/-! ## PROBE_REACH (R62) -/

/-- The deciding window as an index, or NONE. -/
def windowByte (w : Option (Fin 4)) : Byte := optByte (w.map fun i => i.val)

/-- The reply to a probe of `len` bytes. A change of deciding window just at the cap is reported as the cap (log 44). -/
def probeReply (cfg : FetchCfg) (sp : Space) (addr len : Nat) : List Byte :=
  let w := decidingWindow cfg sp addr
  let stop := runStop cfg sp addr (addr + len)
  [windowByte w, (permitOf cfg w).code] ++ num (stop - addr) ++ [markByte (stop < addr + len)]

def probeReach (p : PortId) (payload : List Byte) (s : State) : State :=
  withLength 10 p payload (fun s =>
    let addr := fieldAt payload 2 4
    let v := fieldAt payload 6 4
    let len := min (max 1 v) (roomAbove addr)
    match finOf 4 (fieldAt payload 0 1), spaceOfCode (fieldAt payload 1 1) with
    | some ch, some sp => answer p .ok (len ≠ v) (probeReply s.settings.fetch[ch] sp addr len) s
    | _, _ => refuse p .badValue s) s

def execProbeReach (p : PortId) (tag : Byte) (payload : List Byte) (s : State) : Host.Outcome State Fault Refusal :=
  request p kProbeReach tag (probeReach p payload) s

end Sys2Proof.Machine
end

