-- ==== Sys2Proof/Machine/Power.lean ====
section
/-! DEFINITION. Sys2Proof/Machine/Power.lean: the commands POWER_ON, POWER_LOSS and RESTART_EFFECT, and the settings load
(R16, R31, R47, R65, R77, R105, R119, R131, R135, R165, R176, R177). -/

namespace Sys2Proof.Machine

/-! ## What a reset leaves before the settings load -/

/-- Every block takes its values after a reset, with the defaults as working settings until the load. The ring, part time,
the epoch offset, the pins and the store are left. -/
def resetBlocks (strap : Bool) (s : State) : State :=
  { s with
    ready := false
    settings := Settings.initial
    plan := Plan.initial
    trig := TrigUnit.start s.pins.raw Settings.initial
    streams := Vector.replicate 4 (StreamChan.start .disabled none)
    fetches := Vector.replicate 4 (FetchChan.start false)
    engine := Engine.initial
    monitor := Monitor.initial
    store := StoreCtl.initial
    dir := Directory.initial
    integ := Integrity.initial
    link := Link.start Settings.initial strap }

/-- What power-on resets beside the blocks: part time, the epoch offset and the ring (00_scope.md 5.2, R31). -/
def resetClock (s : State) : State := { s with time := 0, epoch := 0, epochValid := false, ring := Ring.empty }

/-! ## The settings load (R176) -/

/-- The pages of position `k` of block 2. -/
def positionPageList (k : Nat) : List Nat :=
  (List.range positionPages).map fun j => blockPages * settingsBlock + positionPages * k + j

/-- Every page of a position reads erased. Such a position holds no good image, for the CRC of an image of all ones is
not all ones. -/
def positionErased (f : Flash) (k : Nat) : Bool := (positionPageList k).all (pageErased f)

/-- The bytes that a position delivers. -/
def positionBytes (f : Flash) (k : Nat) : List Byte := (positionPageList k).flatMap fun p => bytesOfWords (readPhys f p)

/-- A position's pages are taken with operation SETTINGS (R154). -/
def takePosition (k : Nat) (s : State) : State :=
  forEach (positionPageList k) (fun p s => takePage .settings p p (readPhys s.flash p) s) s

/-- The settings and the plan take an image's values (R176, R77). -/
def adoptImage (bs : List Byte) (s : State) : State := { s with settings := imageSettings bs, plan := imagePlan bs }

/-- No position holds a good image: the defaults stand, and SETTINGS_LOST is posted and noticed (R176). -/
def settingsLost (s : State) : State :=
  let cause := if (blockPageList settingsBlock).all (pageErased s.flash) then 1 else 0
  raise .settingsLost (post .store evSettingsLost [cause] s)

/-- The positions from those listed are read in order until one holds a good image. -/
def loadFrom : List Nat → State → State
  | [], s => settingsLost s
  | k :: ks, s =>
    if positionErased s.flash k then loadFrom ks s
    else
      let t := takePosition k s
      if imageGood (positionBytes s.flash k) then adoptImage (positionBytes s.flash k) t else loadFrom ks t

def loadSettings (s : State) : State := loadFrom (List.range 32) s

/-- Each block takes its settings as its chapter states (R16, R47, R65, R166). -/
def takeSettings (s : State) : State :=
  { s with
    trig := TrigUnit.start s.pins.raw s.settings
    streams := Vector.ofFn fun i =>
      StreamChan.start (rxEnabled s.settings.stream[i].enabled (s.pins.sync.getLsbD i.val)) none
    fetches := Vector.ofFn fun i => FetchChan.start s.settings.fetch[i].enabled
    link := { s.link with ports := Vector.ofFn fun i => { s.link.ports[i] with rate := s.settings.lineRate[i] } } }

/-- With its settings loaded, the monitor looks at PFAIL (R119). -/
def lookAtPfail (vhold : Nat) (s : State) : State := if s.pins.pfail then keeping (beginEpisode vhold) s else s

/-- The start of STARTING: RESTARTED is posted first (R31), then the settings are loaded and taken. -/
def startUp (args : List Nat) (vhold : Nat) (s : State) : State :=
  lookAtPfail vhold (takeSettings (keepingBut takeWorking loadSettings (post .ring evRestarted args s)))

/-! ## POWER_LOSS (R131) -/

/-- A position holds a good image. -/
def positionGood (f : Flash) (k : Nat) : Bool := !positionErased f k && imageGood (positionBytes f k)

/-- The pages of a position read erased. -/
def clearPosition (k : Nat) (f : Flash) : Flash :=
  let p := blockPages * settingsBlock + positionPages * k
  { data := clearRange f.data (pageBytes * p) (pageBytes * positionPages)
    check := clearRange f.check (pageWords * p) (pageWords * positionPages) }

/-- The store after power was lost. An operation of STORE_SETTINGS in flight leaves no good image (R77, R176): of the outcomes
that R131 allows, a torn erase leaves erased each position that would hold one, and a torn program that would complete one leaves
its page as it was. Between its operations the block stays as it stands, and an image that is good in it is loaded (log 4). -/
def storeAfterLoss (fl : Option Flight) (torn : List BlockFault) (f : Flash) : Flash :=
  let t := tearFlash fl torn f
  match fl with
  | some (.erase .settings b) =>
    if b = settingsBlock then
      ((List.range 32).filter (positionGood t)).foldl (fun g k => clearPosition k g) t
    else t
  | some (.program .settings p _) => if positionGood t (p % blockPages / positionPages) then f else t
  | _ => t

/-- Everything volatile is gone; the operation in flight leaves its words torn. A part without power has nothing to lose. -/
def powerLost (torn : List BlockFault) (s : State) : State :=
  if !s.powered then s
  else { resetClock (resetBlocks false (s.onFlash (storeAfterLoss s.store.flight torn))) with powered := false }

def execPowerLoss (torn : List BlockFault) (s : State) : Host.Outcome State Fault Refusal := .next (powerLost torn s)

/-! ## POWER_ON (R176) -/

/-- Power comes on; a part that had power loses it first (log 5), and cells may have worn (log 4). -/
def poweredOn (vhold : Nat) (worn : List StoreFault) (s : State) : State :=
  startUp [0] vhold { resetClock (resetBlocks false ((powerLost [] s).onFlash (wearFlash worn))) with powered := true }

def execPowerOn (vhold : Nat) (worn : List StoreFault) (s : State) : Host.Outcome State Fault Refusal :=
  .next (poweredOn vhold worn s)

/-! ## RESTART_EFFECT (R135, R177) -/

/-- A decided restart whose reply has been transmitted takes effect with no operation in flight. A capture that a trigger opened since
the restart was answered is discarded with the engine, without a close, and its pin goes (log 66, the model's choice). -/
def restarted (vhold : Nat) (s : State) : State :=
  match s.link.restart, s.store.flight with
  | some r, none =>
    if s.powered && r.sent then
      let s := resetBlocks s.link.svcStrap (releasePin s)
      startUp [1, (portIndex r.port).val, boolNat r.force] vhold s
    else s
  | _, _ => s

def execRestartEffect (vhold : Nat) (s : State) : Host.Outcome State Fault Refusal := .next (restarted vhold s)

end Sys2Proof.Machine
end

