-- ==== Sys2Proof/Machine/Replay.lean ====
section
/-! DEFINITION. Sys2Proof/Machine/Replay.lean: the commands JOURNAL_FORMAT and REPLAY_END: start-up replay, the rebuild of the
store's tables and the format of the journal (R134, R142 to R144, R163). -/

namespace Sys2Proof.Machine

/-! ## Slots as replay reads them (R143, R180) -/

/-- A slot that does not read erased: its place, its bytes as delivered, and whether its CRC holds (a POISONED word makes
it fail). -/
structure SlotRead where
  slot  : Nat
  bytes : List Byte
  good  : Bool
  deriving DecidableEq, Repr

def SlotRead.seq (x : SlotRead) : BitVec 32 := slotSeq x.bytes

def SlotRead.record (x : SlotRead) : Option JRec := parseSlot x.bytes

/-- The words of slot `i` of a page. -/
def slotWords (ws : List WordRead) (i : Nat) : List WordRead := (ws.drop (4 * i)).take 4

/-- A slot whose 32 bytes all read 0xFF is erased (R180). -/
def readsErased (bs : List Byte) : Bool := bs.all fun b => b = 0xFF

/-- Slot `i` of a page, as block slot `slot`; none where it reads erased. -/
def readSlot (ws : List WordRead) (slot i : Nat) : Option SlotRead :=
  let bs := bytesOfWords (slotWords ws i)
  if readsErased bs then none
  else some { slot := slot, bytes := bs, good := slotGood bs && countClass .poisoned (slotWords ws i) = 0 }

/-- The slots of a page of a journal block that do not read erased, in slot order. -/
def pageSlots (ws : List WordRead) (pageInBlock : Nat) : List SlotRead :=
  (List.range slotsPerPage).filterMap fun i => readSlot ws (slotsPerPage * pageInBlock + i) i

/-- The pages of a block that hold something. -/
def writtenPages (f : Flash) (block : Nat) : List Nat := (blockPageList block).filter fun p => !pageErased f p

/-- The slots of a block that do not read erased, in slot order. -/
def blockSlots (f : Flash) (block : Nat) : List SlotRead :=
  (writtenPages f block).flatMap fun p => pageSlots (readPhys f p) (p % blockPages)

/-! ## The checkpoint (R142) -/

/-- A complete checkpoint: its generation, the slot and sequence number of its CHECKPOINT_BEGIN, and the last capture
number that it carries. -/
structure Checkpoint where
  gen  : BitVec 32
  slot : Nat
  seq  : BitVec 32
  last : Nat
  deriving DecidableEq, Repr

/-- Generation `a` is later than generation `b` (R142). -/
def laterGen (a b : BitVec 32) : Bool := 1 ≤ (a - b).toNat && (a - b).toNat ≤ 2147483647

/-- Some CHECKPOINT_END of a generation stands among slots. -/
def endsCheckpoint (gen : BitVec 32) (xs : List SlotRead) : Bool :=
  xs.any fun x => x.good && match x.record with
    | some (.checkpointEnd g _) => g = gen
    | _ => false

/-- The complete checkpoints that begin among slots, in slot order. -/
def checkpoints : List SlotRead → List Checkpoint
  | [] => []
  | x :: xs =>
    match x.good, x.record with
    | true, some (.checkpointBegin gen last) =>
      if endsCheckpoint gen xs then { gen := gen, slot := x.slot, seq := x.seq, last := last } :: checkpoints xs
      else checkpoints xs
    | _, _ => checkpoints xs

/-- The one with the latest generation; of two copies of one, the one in the later slot (log 26). -/
def latestCheckpoint (cs : List Checkpoint) : Option Checkpoint :=
  cs.foldl (fun best c => match best with
    | none => some c
    | some b => if laterGen b.gen c.gen then some b else some c) none

def blockCheckpoint (f : Flash) (block : Nat) : Option Checkpoint := latestCheckpoint (checkpoints (blockSlots f block))

/-- The block that replay uses, with its checkpoint (R142). -/
def chosenBlock (f : Flash) : Option (Nat × Checkpoint) :=
  match blockCheckpoint f 0, blockCheckpoint f 1 with
  | none, none => none
  | some a, none => some (0, a)
  | none, some b => some (1, b)
  | some a, some b => if laterGen b.gen a.gen then some (1, b) else some (0, a)

/-! ## Reading the chosen block (R143) -/

/-- A torn slot is counted and reported. -/
def reportTorn (block : Nat) (x : SlotRead) (s : State) : State :=
  offerError .journalTorn (slotPage block x.slot) (4 * (x.slot % slotsPerPage)) .replay
    ((s.onInteg fun g => { g with torn := satInc g.torn }).onDir fun d => { d with torn := satInc d.torn })

/-- One page of the chosen block is taken, and then its torn slots are reported (the order: log 26, the model's reading). -/
def replayPage (block p : Nat) (s : State) : State :=
  let ws := readPhys s.flash p
  let torn := (pageSlots ws (p % blockPages)).filter fun x => !x.good
  forEach torn (reportTorn block) (takePage .replay p p ws s)

def replayReads (block : Nat) (s : State) : State := forEach (writtenPages s.flash block) (replayPage block) s

/-- The pages of a block that the search for its checkpoints reads are taken with operation REPLAY (R142, R153, R154, log 26). -/
def searchReads (block : Nat) (s : State) : State :=
  forEach (writtenPages s.flash block) (fun p s => takePage .replay p p (readPhys s.flash p) s) s

/-- How far a slot's sequence number lies from that of CHECKPOINT_BEGIN. -/
def seqDistance (c : Checkpoint) (x : SlotRead) : Nat := (x.seq - c.seq).toNat

/-- A slot that is taken: its CRC is good and it does not lie outside the checkpoint. -/
def slotTaken (c : Checkpoint) (x : SlotRead) : Bool := x.good && c.slot ≤ x.slot && seqDistance c x < 2048

/-- A taken slot among those in the order of their distances; a later slot replaces one with the same number. -/
def keepSlot (c : Checkpoint) (x : SlotRead) : List SlotRead → List SlotRead
  | [] => [x]
  | y :: ys =>
    if seqDistance c x < seqDistance c y then x :: y :: ys
    else if seqDistance c x = seqDistance c y then x :: ys
    else y :: keepSlot c x ys

/-- The kept records in the order of their sequence numbers. -/
def keptSlots (c : Checkpoint) (xs : List SlotRead) : List SlotRead := xs.foldl (fun ks x => keepSlot c x ks) []

/-! ## Applying the records (R138, R143, R144) -/

/-- A page joins the retired-page table: no page stands in it twice, and it holds at most 256 (8.2.1). -/
def addRetiredPage (ps : List Nat) (p : Nat) : List Nat :=
  if ps.contains p || retiredMax ≤ ps.length then ps else ps ++ [p]

/-- A block joins the retired-block table, in which each block stands at most once (R125). -/
def addRetiredBlock (b : Nat) (cause : RetireCause) (bs : List (Nat × RetireCause)) : List (Nat × RetireCause) :=
  if bs.any fun x => x.1 = b then bs else bs ++ [(b, cause)]

/-- A record has its effect again at replay (R138, R143). A retirement made during a compaction stands in the snapshot and in
its own record after it; the table takes it once. -/
def applyRecord (r : JRec) (s : State) : State :=
  match r with
  | .retirePage ps => s.onStore fun t => { t with retPages := ps.foldl addRetiredPage t.retPages }
  | .retireBlock b cause => s.onStore fun t => { t with retBlocks := addRetiredBlock b cause t.retBlocks }
  | _ => s.onDir (recordEffect r)

/-- The highest capture number among CAPTURE_OPEN records and `last`. -/
def highestCapture (last : Nat) (rs : List JRec) : Nat :=
  rs.foldl (fun n r => match r with
    | .captureOpen cap .. => max n cap
    | _ => n) last

/-- The head page that a record carries for a capture (R138, log 27). -/
def carriedHead (cap : Nat) (r : JRec) : Option Nat :=
  match r with
  | .sectionBegin c _ _ _ _ _ head => if c = cap then head else none
  | .sectionDone c _ _ _ _ _ _ _ _ head => if c = cap then head else none
  | .captureClose c _ _ _ head => if c = cap then head else none
  | .captureSummary c _ _ _ _ head _ _ => if c = cap then head else none
  | _ => none

/-- Step 2 of R144: the last head page carried, else logical page 0 when it has a page that is not retired. -/
def interruptedHead (retPages : List Nat) (retBlocks : List (Nat × RetireCause)) (rs : List JRec) (e : DirEntry) : Option Nat :=
  match (rs.filterMap (carriedHead e.cap)).getLast? with
  | some h => some h
  | none =>
    match physOf e.blocks 0 with
    | some p =>
      if retPages.contains p || (retBlocks.any fun b => b.1 = p / blockPages) then none else some 0
    | none => none

/-- Steps 1 and 2 of R144 for an entry. -/
def interruptEntry (rs : List JRec) (t : StoreCtl) (e : DirEntry) : DirEntry :=
  if e.state = .closed then e
  else { e with state := .interrupted, outcome := none, closeTime := none
                head := interruptedHead t.retPages t.retBlocks rs e }

/-- A section still IN_PROGRESS becomes INTERRUPTED (R144 step 1). -/
def interruptSection (x : SecEntry) : SecEntry :=
  if x.status = .inProgress then { x with status := .interrupted, len := 0, pages := 0, gaps := 0 } else x

/-- Step 3 of R144: sections in the order of their captures take table entries from `n`. One still IN_PROGRESS becomes INTERRUPTED,
in a CLOSED capture too (log 51). -/
def renumber (d : Directory) : Nat → List DirEntry → List DirEntry × List (Nat × SecSlot)
  | _, [] => ([], [])
  | n, e :: es =>
    let secs := (sectionsOf d e).map interruptSection
    let rest := renumber d (n + secs.length) es
    ({ e with sections := (List.range secs.length).map (n + ·) } :: rest.1,
      (secs.mapIdx fun i x => (n + i, SecSlot.entry x)) ++ rest.2)

/-- The directory as replay completes it (R144 steps 1 to 3). -/
def completeDirectory (rs : List JRec) (t : StoreCtl) (d : Directory) : Directory :=
  let r := renumber d 0 ((entriesByCap d).map (interruptEntry rs t))
  { d with
    slots := Vector.ofFn fun i => match r.1[i.val]? with
      | some e => .entry e
      | none => .free
    sections := r.2 }

/-! ## The store's rebuild and the pool scan (R134, R163) -/

/-- The state of a capture-area block after start-up, and whether its erase is queued (R134). A block in the lists of two captures is
the lowest-numbered one's (log 61, the model's choice). -/
def rebuiltBlock (s : State) (block : Nat) : BlockState :=
  if s.store.retBlocks.any fun b => b.1 = block then .retired
  else match (entriesByCap s.dir).find? fun e => e.blocks.contains (some block) with
    | some e => .allotted e.cap
    | none => if (unerasedPages s.store.retPages block s.flash).isEmpty then .free else .dirty

/-- The block states are rebuilt and the erases of DIRTY blocks queued in ascending order (R134). -/
def rebuildBlocks (s : State) : State :=
  let t := s.onStore fun c => { c with blocks := Vector.ofFn fun i => rebuiltBlock s (firstAreaBlock + i.val) }
  enqueueErases .area (blocksWhere (· = .dirty) t) t

/-- One more than the highest pool page that does not read erased, or 0 (R163). -/
def scannedPool (f : Flash) : Nat :=
  ((List.range blockPages).filter fun i => !pageErased f (poolBase + i)).foldl (fun _ i => i + 1) 0

def scanPool (s : State) : State := s.onInteg fun g => { g with nextPool := scannedPool s.flash }

/-! ## REPLAY_END -/

/-- The journal block `block` is replayed from checkpoint `c` (R143, R144); the pages of the other block were read by the search, and
are taken before those of this one (log 26, the model's reading). -/
def replayBlock (block : Nat) (c : Checkpoint) (s : State) : State :=
  let all := blockSlots s.flash block
  let taken := all.filter (slotTaken c)
  let kept := keptSlots c taken
  let rs := kept.filterMap SlotRead.record
  let s := replayReads block (searchReads (1 - block) s)
  let s := forEach rs applyRecord s
  s.onDir fun d =>
    { completeDirectory rs s.store d with
      active := block
      gen := c.gen
      nextSlot := match all.getLast? with | some x => x.slot + 1 | none => 0
      nextSeq := match kept.getLast? with | some x => x.seq + 1 | none => c.seq + 1
      lastCap := highestCapture c.last rs
      taken := taken.length }

/-- The journal has been formatted in this start-up: the directory already stands as R142 gives it (log 28). -/
def formatted (s : State) : Bool := s.dir.gen ≠ 0

/-- The end of replay: every ARMED term is evaluated once, and then a pending POWER trigger is taken (R5, R78); the rules leave
their order open (log 36). -/
def endReplay (s : State) : State :=
  let s := forEach allLines evaluate { scanPool (rebuildBlocks s) with ready := true }
  let s :=
    if s.engine.pendingPower then trigger sourcePower .monitor (s.onEngine fun e => { e with pendingPower := false }) else s
  settle s

def replayEnded (s : State) : State :=
  if s.ready then s
  else if formatted s then endReplay s
  else match chosenBlock s.flash with
    | some (block, c) => endReplay (replayBlock block c s)
    | none => s

def execReplayEnd (s : State) : Host.Outcome State Fault Refusal := .next (whenPoweredBut takeReady replayEnded s)

/-! ## JOURNAL_FORMAT (R142) -/

/-- A page that failed its erase or program in the format is retired; its RETIRE_PAGE record waits until after
CHECKPOINT_END (R142). -/
def retireInFormat (page : Nat) (s : State) : State :=
  if s.store.retPages.length < retiredMax && !s.store.retPages.contains page then
    let s := s.onStore fun t =>
      { t with retPages := t.retPages ++ [page], unjournaled := t.unjournaled ++ [(.retirePage [page], false)] }
    post .store evPageRetired [page, s.store.retPages.length] s
  else s

/-- The erase of a journal block in the format (R127, R142). -/
def eraseInFormat (block : Nat) (faults : List BlockFault) (s : State) : State :=
  let s := s.onFlash (eraseBlock block faults)
  match unerasedPages s.store.retPages block s.flash with
  | [] => s
  | p :: ps => forEach (p :: ps) retireInFormat (reportEraseFail p (firstUnerased s.flash p) s)

/-- The checkpoint that the format writes in the first two slots of a page. -/
def formatContent : List Byte :=
  padTo 0xFF pageBytes (slotBytes 0 (.checkpointBegin 1 0) ++ slotBytes 1 (.checkpointEnd 1 0))

/-- The format is done, with its checkpoint in page `page` of block 0 (R142). -/
def formatDone (page : Nat) (s : State) : State :=
  let s := s.onDir fun _ =>
    { Directory.initial with active := 0, gen := 1, nextSlot := slotsPerPage * page + 2, nextSeq := 2 }
  post .directory evJournalCompacted [1, 0] s

/-- The checkpoint is programmed in the first page that takes it; each failing page is retired (R142). Where no page takes
it the store is left without a checkpoint (log 28). -/
def formatPages : List Nat → List (List WordFault) → State → State
  | [], _, s => s.onStore fun t => { t with unjournaled := [] }
  | page :: pages, faults, s =>
    if s.store.retPages.contains page then formatPages pages faults s
    else
      let s := s.onFlash (programPage page formatContent (faults.headD []))
      match verifyFails page formatContent s.flash with
      | none => formatDone page s
      | some w => formatPages pages (faults.drop 1) (reportProgramFail .verify page w (retireInFormat page s))

/-- The store is formatted: no complete checkpoint was found and the monitor is in NORMAL (R142). -/
def journalFormatted (erase0 erase1 : List BlockFault) (programs : List (List WordFault)) (s : State) : State :=
  if s.ready || formatted s || (chosenBlock s.flash).isSome || !isNormal s then s
  else
    let s := (searchReads 1 (searchReads 0 s)).onStore fun t => { t with retPages := [], retBlocks := [], unjournaled := [] }
    settle (formatPages (blockPageList 0) programs (eraseInFormat 1 erase1 (eraseInFormat 0 erase0 s)))

def execJournalFormat (erase0 erase1 : List BlockFault) (programs : List (List WordFault)) (s : State) :
    Host.Outcome State Fault Refusal :=
  .next (whenPoweredBut takeFlash (journalFormatted erase0 erase1 programs) s)

end Sys2Proof.Machine
end

