-- ==== Sys2Proof/Machine/SettingsRequests.lean ====
section
/-! DEFINITION. Sys2Proof/Machine/SettingsRequests.lean: READ_SETTINGS, WRITE_SETTINGS and STORE_SETTINGS (11.7, 11.8). -/

namespace Sys2Proof.Machine

/-! ## READ_SETTINGS (R175) -/

/-- The selectors of a payload: code and index. -/
def selectorsOf (payload : List Byte) : List (Nat × Nat) :=
  (List.range (payload.length / 2)).map fun k => (fieldAt payload (2 * k) 1, fieldAt payload (2 * k + 1) 1)

def selectorsLengthOk (n : Nat) : Bool := n ≠ 0 && n % 2 = 0 && n ≤ 340

def readSettings (p : PortId) (payload : List Byte) (s : State) : State :=
  if !selectorsLengthOk payload.length then refuse p .badLength s
  else
    let xs := selectorsOf payload
    if xs.all fun x => itemKnown x.1 x.2 then
      answer p .ok false (num xs.length ++ xs.flatMap fun x => s.settings.itemBytes x.1 x.2) s
    else refuse p .badValue s

def execReadSettings (p : PortId) (tag : Byte) (payload : List Byte) (s : State) : Host.Outcome State Fault Refusal :=
  request p kReadSettings tag (readSettings p payload) s

/-! ## WRITE_SETTINGS (R174) -/

def itemsLengthOk (n : Nat) : Bool := n ≠ 0 && n % 6 = 0 && n ≤ 1020

/-- The first check of R174 that fails. -/
def itemsRefused (items : List Item) (s : State) : Option Status :=
  if !(items.all fun it => itemKnown it.code it.index) then some .badValue
  else if (items.any fun it => isChannelItem it.code) && inProgress s then some .refusedState
  else if !(items.all fun it => itemLegal it.code it.value) then some .badValue
  else if !windowsShaped s.settings items then some .badValue
  else none

/-- A candidate that has held for a changed filter width ends (R3). -/
def applyFilters (old : Settings) (s : State) : State :=
  forEach (List.finRange 16) (fun i s =>
    if old.filterWidth[i] = s.settings.filterWidth[i] then s else takeCandidate i s) s

/-- A stream channel acts on its changed items (R46). -/
def applyStream (old new : StreamCfg) (sync : Bool) (c : StreamChan) : StreamChan :=
  if old = new then c
  else if old.enabled && !new.enabled then StreamChan.start .disabled c.claim
  else if !old.enabled && !new.enabled then c
  else StreamChan.start (rxEnabled true sync) c.claim

def applyStreams (old : Settings) (s : State) : State :=
  { s with streams := Vector.ofFn fun i =>
      applyStream old.stream[i] s.settings.stream[i] (s.pins.sync.getLsbD i.val) s.streams[i] }

/-- A fetch channel acts on its enabled setting (R64). -/
def applyFetch (old new : FetchCfg) (c : FetchChan) : FetchChan :=
  if old.enabled = new.enabled then c else FetchChan.start new.enabled

def applyFetches (old : Settings) (s : State) : State :=
  { s with fetches := Vector.ofFn fun i => applyFetch old.fetch[i] s.settings.fetch[i] s.fetches[i] }

/-- A write changes what a term's condition is computed from (R9). -/
def conditionChanged (a b : TermDef) : Bool :=
  a.mask ≠ b.mask || a.polarity ≠ b.polarity || a.source ≠ b.source || a.combine ≠ b.combine

/-- An ARMED term whose condition changes is re-armed (R9). -/
def applyTerms (old : Settings) (s : State) : State :=
  forEach allLines (fun n s =>
    if conditionChanged old.terms[n] s.settings.terms[n] && (s.trig.terms[n]).state = .armed then rearm n s else s) s

/-- The items take effect together, and each block acts on what changed (R174): terms are re-armed first, and then the lines
take their widths in ascending order (log 36). -/
def applyItems (items : List Item) (s : State) : State :=
  let old := s.settings
  let s := { s with settings := old.withItems items }
  applyFilters old (applyTerms old (applyFetches old (applyStreams old s)))

def writeSettings (p : PortId) (payload : List Byte) (s : State) : State :=
  if !itemsLengthOk payload.length then refuse p .badLength s
  else
    let items := itemsOf payload
    match itemsRefused items s with
    | some st => refuse p st s
    | none =>
      let clamped := itemsClamped s.settings items
      let s := applyItems items s
      settle (answer p .ok clamped (listField (items.map fun it => s.settings.itemBytes it.code it.index)) s)

def execWriteSettings (p : PortId) (tag : Byte) (payload : List Byte) (s : State) : Host.Outcome State Fault Refusal :=
  requestBut takeWorking p kWriteSettings tag (writeSettings p payload) s

/-! ## STORE_SETTINGS (R176) -/

def storeSettings (p : PortId) (payload : List Byte) (s : State) : State :=
  withLength 0 p payload (fun s =>
    if !isNormal s then refuse p .holdup s
    else if s.dir.eraseAll.isSome || s.link.store.isSome then refuse p .inProgress s
    else
      let op : StoreOp := { port := p, image := settingsImage s.settings s.plan, step := .erasing, failed := false }
      enqueue (.erase .settings settingsBlock) (setWait p .settings (s.onLink fun l => { l with store := some op }))) s

def execStoreSettings (p : PortId) (tag : Byte) (payload : List Byte) (s : State) : Host.Outcome State Fault Refusal :=
  request p kStoreSettings tag (storeSettings p payload) s

end Sys2Proof.Machine
end

