-- ==== Sys2Proof/Machine/Dispatch.lean ====
section
/-! DEFINITION. Sys2Proof/Machine/Dispatch.lean: one arm for each command, each one call of its meaning. -/

namespace Sys2Proof.Machine

/-- The effect of a command on everything but the queue. -/
def exec (i : Instr) (s : State) : Host.Outcome State Fault Refusal :=
  match i with
  | .rawLevelChange line level => Sys2Proof.Machine.execRawLevelChange line level s
  | .filteredLevelChange line => Sys2Proof.Machine.execFilteredLevelChange line s
  | .rearmTimerExpiry term => Sys2Proof.Machine.execRearmTimerExpiry term s
  | .hostHoldoffExpiry => Sys2Proof.Machine.execHostHoldoffExpiry s
  | .syncAssert ch => Sys2Proof.Machine.execSyncAssert ch s
  | .syncRelease ch => Sys2Proof.Machine.execSyncRelease ch s
  | .streamStall ch => Sys2Proof.Machine.execStreamStall ch s
  | .fetchAnswer wire tag result count data crc => Sys2Proof.Machine.execFetchAnswer wire tag result count data crc s
  | .fetchTimeout ch => Sys2Proof.Machine.execFetchTimeout ch s
  | .takePiece => Sys2Proof.Machine.execTakePiece s
  | .takeRecord => Sys2Proof.Machine.execTakeRecord s
  | .quietTimeExpiry => Sys2Proof.Machine.execQuietTimeExpiry s
  | .streamWindowExpiry => Sys2Proof.Machine.execStreamWindowExpiry s
  | .retainLapsed => Sys2Proof.Machine.execRetainLapsed s
  | .pfailAssert vhold => Sys2Proof.Machine.execPfailAssert vhold s
  | .pfailRelease => Sys2Proof.Machine.execPfailRelease s
  | .powerRestored => Sys2Proof.Machine.execPowerRestored s
  | .holdupResample vhold => Sys2Proof.Machine.execHoldupResample vhold s
  | .queueStart => Sys2Proof.Machine.execQueueStart s
  | .programComplete faults => Sys2Proof.Machine.execProgramComplete faults s
  | .eraseComplete faults => Sys2Proof.Machine.execEraseComplete faults s
  | .relocationStart => Sys2Proof.Machine.execRelocationStart s
  | .powerOn vhold worn => Sys2Proof.Machine.execPowerOn vhold worn s
  | .journalFormat erase0 erase1 programs => Sys2Proof.Machine.execJournalFormat erase0 erase1 programs s
  | .replayEnd => Sys2Proof.Machine.execReplayEnd s
  | .restartEffect vhold => Sys2Proof.Machine.execRestartEffect vhold s
  | .lineRateChange port => Sys2Proof.Machine.execLineRateChange port s
  | .svcStrapChange asserted => Sys2Proof.Machine.execSvcStrapChange asserted s
  | .lineError port => Sys2Proof.Machine.execLineError port s
  | .interbyte arrival => Sys2Proof.Machine.execInterbyte arrival s
  | .lengthErrors port lo hi => Sys2Proof.Machine.execLengthErrors port lo hi s
  | .crcErrors arrival => Sys2Proof.Machine.execCrcErrors arrival s
  | .unknownKind port kind tag payload => Sys2Proof.Machine.execUnknownKind port kind tag payload s
  | .identify port tag payload => Sys2Proof.Machine.execIdentify port tag payload s
  | .status port tag payload => Sys2Proof.Machine.execStatus port tag payload s
  | .ackRestart port tag payload => Sys2Proof.Machine.execAckRestart port tag payload s
  | .restart port tag payload => Sys2Proof.Machine.execRestart port tag payload s
  | .readSettings port tag payload => Sys2Proof.Machine.execReadSettings port tag payload s
  | .writeSettings port tag payload => Sys2Proof.Machine.execWriteSettings port tag payload s
  | .storeSettings port tag payload => Sys2Proof.Machine.execStoreSettings port tag payload s
  | .setTime port tag payload => Sys2Proof.Machine.execSetTime port tag payload s
  | .postEvent port tag payload => Sys2Proof.Machine.execPostEvent port tag payload s
  | .readEvents port tag payload => Sys2Proof.Machine.execReadEvents port tag payload s
  | .panicNote port tag payload => Sys2Proof.Machine.execPanicNote port tag payload s
  | .capture port tag payload => Sys2Proof.Machine.execCapture port tag payload s
  | .abortCapture port tag payload => Sys2Proof.Machine.execAbortCapture port tag payload s
  | .readLines port tag payload => Sys2Proof.Machine.execReadLines port tag payload s
  | .clearLatches port tag payload => Sys2Proof.Machine.execClearLatches port tag payload s
  | .arm port tag payload => Sys2Proof.Machine.execArm port tag payload s
  | .disarm port tag payload => Sys2Proof.Machine.execDisarm port tag payload s
  | .driveIndicators port tag payload => Sys2Proof.Machine.execDriveIndicators port tag payload s
  | .readPlan port tag payload => Sys2Proof.Machine.execReadPlan port tag payload s
  | .writePlanEntry port tag payload => Sys2Proof.Machine.execWritePlanEntry port tag payload s
  | .writePlanPageCap port tag payload => Sys2Proof.Machine.execWritePlanPageCap port tag payload s
  | .probeReach port tag payload => Sys2Proof.Machine.execProbeReach port tag payload s
  | .listCaptures port tag payload => Sys2Proof.Machine.execListCaptures port tag payload s
  | .readCapture port tag payload => Sys2Proof.Machine.execReadCapture port tag payload s
  | .readHead port tag payload => Sys2Proof.Machine.execReadHead port tag payload s
  | .readSection port tag payload => Sys2Proof.Machine.execReadSection port tag payload s
  | .readErrors port tag payload => Sys2Proof.Machine.execReadErrors port tag payload s
  | .ackErrors port tag payload => Sys2Proof.Machine.execAckErrors port tag payload s
  | .hold port tag payload => Sys2Proof.Machine.execHold port tag payload s
  | .release port tag payload => Sys2Proof.Machine.execRelease port tag payload s
  | .delete port tag payload => Sys2Proof.Machine.execDelete port tag payload s
  | .stageNote port tag payload => Sys2Proof.Machine.execStageNote port tag payload s
  | .commitNote port tag payload => Sys2Proof.Machine.execCommitNote port tag payload s
  | .eraseAll port tag payload => Sys2Proof.Machine.execEraseAll port tag payload s
  | .clkRisingEdge ch da db => Sys2Proof.Machine.execClkRisingEdge ch da db s
  | .powerLoss torn => Sys2Proof.Machine.execPowerLoss torn s
  | .replyTransmitted port => Sys2Proof.Machine.execReplyTransmitted port s

end Sys2Proof.Machine
end

