-- ==== Sys2Proof/Machine/Step.lean ====
section
/-! DEFINITION. Sys2Proof/Machine/Step.lean: one step of the part: the command at the front of the queue, or an idle tick. -/

namespace Sys2Proof.Machine

/-- The part idles: part time counts one microsecond (00_scope.md 5.2, log 1). -/
def idle (s : State) : State := { s with time := if s.powered then s.time + 1 else s.time }

/-- The command at the front of the queue has its effect on the rest of the state; an empty queue idles (log 1). -/
def step (s : State) : Host.Outcome State Fault Refusal :=
  match s.pending with
  | [] => .next (idle s)
  | c :: rest => exec c { s with pending := rest }

/-- The command that a word spells, put at the front of the queue; the table gives no row bits, so no word spells one. -/
def State.withFetchWord (s : State) (nbits w : Nat) : State :=
  match decodeTableWord nbits w with
  | some c => { s with pending := c :: s.pending }
  | none => s

end Sys2Proof.Machine
end

