-- ==== Sys2Proof/Safety.lean ====
section
/-! DEFINITION. Sys2Proof/Safety.lean: which states are sound, which runs are safe, and the words the statements are made of: a
port that can serve a request, a request answered or waiting at its port, a part at rest, and which commands may change
what lies outside the blocks. -/

namespace Sys2Proof.Machine

/-- A sound state: the store is in canonical form, and a part without power is not READY. -/
def State.sound (s : State) : Bool := Memory.wf s.flash && (s.powered || !s.ready)

/-- A run of `n` steps is safe: it ends, without a fault or a refusal, in a sound state. -/
def Safe (n : Nat) (s : State) : Prop :=
  ∃ t : State, Host.Core.run Sys2Proof.core n s = .next t ∧ t.sound = true

/-! ## Requests at their port (R168, R169) -/

/-- The port can serve a request of a kind: the part has power, the port has no request in service, the port's level admits
the kind, and the controller is READY or the kind is one that STARTING answers (R168). -/
def servable (p : PortId) (kind : Byte) (s : State) : Bool :=
  s.powered && (s.port p).service.isNone && admits kind (portLevel p s) && (s.ready || answeredEarly kind)

/-- A request has been taken and answered at its port: the port hunts again, REQUESTS counts it, the reply joins the frames
awaiting transmission, no request is in service, and the read-ahead buffer is kept for two kinds alone (R160, R168, R169). -/
def replied (p : PortId) (kind tag : Byte) (st : Status) (clamped : Bool) (fields : List Byte) (s : State) : State :=
  s.onPort p fun q =>
    { q with rx := none, service := none, tx := q.tx ++ [mkReply kind tag st clamped fields]
             requests := satInc q.requests, ahead := if keepsAhead kind then q.ahead else none }

/-- A request has been taken at its port and waits (R168). -/
def inService (p : PortId) (kind tag : Byte) (w : Wait) (s : State) : State :=
  s.onPort p fun q =>
    { q with rx := none, service := some { kind := kind, tag := tag, level := portLevel p s, wait := w }
             requests := satInc q.requests, ahead := if keepsAhead kind then q.ahead else none }

/-- The length that a request's payload must have, where the table of R181 admits one length alone. -/
def soleLength (kind : Byte) : Option Nat :=
  match kind.toNat with
  | 0x01 | 0x03 | 0x07 | 0x0C | 0x0E | 0x1A | 0x1B | 0x21 => some 0
  | 0x04 | 0x10 | 0x11 => some 1
  | 0x08 => some 8
  | 0x0A => some 5
  | 0x0D | 0x16 | 0x17 | 0x18 | 0x1C | 0x1D | 0x1E => some 4
  | 0x0F | 0x12 => some 2
  | 0x13 => some 3
  | 0x15 => some 10
  | 0x19 => some 11
  | 0x20 => some 7
  | _ => none

/-- No block has a step that it can take at once. -/
def quiet (s : State) : Bool :=
  match firstStep blockSteps s with
  | .wait => true
  | .did _ => false

/-! ## The ring (R19) -/

/-- The records' sequence numbers are consecutive, and the sequence counter follows the newest, modulo 2^32 (R19). -/
def Ring.consecutive (r : Ring) : Prop :=
  ∀ (i : Nat) (h : i < r.records.length), (r.records[i]'h).seq = r.counter - BitVec.ofNat 32 (r.records.length - i)

/-- The ring and the stream FIFOs within their bounds: at most 1,024 records with consecutive numbers (R17, R19), at most 16,384
bytes in each FIFO (R39), and at most 256 words in each record in assembly (R37). -/
def State.bounded (s : State) : Prop :=
  s.ring.records.length ≤ 1024 ∧ s.ring.consecutive ∧
    ∀ ch : Fin 4, ((s.streams[ch]).fifo.map fun r => 12 + 4 * r.containers.length).sum ≤ 16384 ∧
      ∀ a : Assembly, (s.streams[ch]).assembly = some a → a.words.length ≤ 256

/-! ## Records of a capture (R138) -/

/-- The capture that a record names and changes the entry of; none for one that opens a capture or names none. -/
def JRec.names : JRec → Option Nat
  | .blockAllot cap _ | .blockList cap _ _ | .sectionBegin cap _ _ _ _ _ _ | .sectionDone cap _ _ _ _ _ _ _ _ _
  | .captureClose cap _ _ _ _ | .captureSummary cap _ _ _ _ _ _ _ | .hold cap | .release cap | .delete cap _
  | .annotate cap _ _ => some cap
  | _ => none

end Sys2Proof.Machine

namespace Sys2Proof

open Sys2Proof.Machine

/-! ## Commands as requests -/

/-- The request that a command carries: its port, kind, tag and payload (12.1). -/
def Instr.request? : Instr → Option (PortId × Byte × Byte × List Byte)
  | .unknownKind p k t d => some (p, k, t, d)
  | .identify p t d => some (p, kIdentify, t, d)
  | .status p t d => some (p, kStatus, t, d)
  | .ackRestart p t d => some (p, kAckRestart, t, d)
  | .restart p t d => some (p, kRestart, t, d)
  | .readSettings p t d => some (p, kReadSettings, t, d)
  | .writeSettings p t d => some (p, kWriteSettings, t, d)
  | .storeSettings p t d => some (p, kStoreSettings, t, d)
  | .setTime p t d => some (p, kSetTime, t, d)
  | .postEvent p t d => some (p, kPostEvent, t, d)
  | .readEvents p t d => some (p, kReadEvents, t, d)
  | .panicNote p t d => some (p, kPanicNote, t, d)
  | .capture p t d => some (p, kCapture, t, d)
  | .abortCapture p t d => some (p, kAbortCapture, t, d)
  | .readLines p t d => some (p, kReadLines, t, d)
  | .clearLatches p t d => some (p, kClearLatches, t, d)
  | .arm p t d => some (p, kArm, t, d)
  | .disarm p t d => some (p, kDisarm, t, d)
  | .driveIndicators p t d => some (p, kDriveIndicators, t, d)
  | .readPlan p t d => some (p, kReadPlan, t, d)
  | .writePlanEntry p t d => some (p, kWritePlan, t, d)
  | .writePlanPageCap p t d => some (p, kWritePlan, t, d)
  | .probeReach p t d => some (p, kProbeReach, t, d)
  | .listCaptures p t d => some (p, kListCaptures, t, d)
  | .readCapture p t d => some (p, kReadCapture, t, d)
  | .readHead p t d => some (p, kReadHead, t, d)
  | .readSection p t d => some (p, kReadSection, t, d)
  | .readErrors p t d => some (p, kReadErrors, t, d)
  | .ackErrors p t d => some (p, kAckErrors, t, d)
  | .hold p t d => some (p, kHold, t, d)
  | .release p t d => some (p, kRelease, t, d)
  | .delete p t d => some (p, kDelete, t, d)
  | .stageNote p t d => some (p, kStageNote, t, d)
  | .commitNote p t d => some (p, kCommitNote, t, d)
  | .eraseAll p t d => some (p, kEraseAll, t, d)
  | _ => none

/-! ## What commands may change outside the blocks -/

def Instr.writesFlash : Instr → Bool
  | .programComplete _ | .eraseComplete _ | .journalFormat _ _ _ | .powerLoss _ | .powerOn _ _ => true
  | _ => false

def Instr.writesWorking : Instr → Bool
  | .writeSettings _ _ _ | .writePlanEntry _ _ _ | .writePlanPageCap _ _ _ | .powerOn _ _ | .powerLoss _ | .restartEffect _ => true
  | _ => false

def Instr.writesEpoch : Instr → Bool
  | .setTime _ _ _ | .powerOn _ _ | .powerLoss _ => true
  | _ => false

def Instr.writesReady : Instr → Bool
  | .replayEnd | .powerOn _ _ | .powerLoss _ | .restartEffect _ => true
  | _ => false

/-- Part time and power. -/
def Instr.writesPower : Instr → Bool
  | .powerOn _ _ | .powerLoss _ => true
  | _ => false

def Instr.writesPins : Instr → Bool
  | .rawLevelChange _ _ | .syncAssert _ | .syncRelease _ | .pfailAssert _ | .pfailRelease => true
  | _ => false

end Sys2Proof
end

