-- ==== Sys2Proof/Certificates/Slice0/Obligations.lean ====
section
/-! DEFINITION. Sys2Proof/Certificates/Slice0/Obligations.lean: the statements for the provers, about every command, every block's
state, the dump store and the invariants.
Where a command's own effect is followed by the blocks' immediate steps, the next state is `settle u` for the `u` that
the rule gives: SettleRestsWhenQuiet says what `settle` leaves and when it changes nothing (log 11). A reply field whose
size R182 does not give stands as log 10 says. -/

open Sys2Proof Sys2Proof.Machine

/-! ## The machine -/

/-- A step takes the command at the front of the queue and gives it its effect on the rest of the state. -/
def Obligations.StepRunsTheFrontCommand : Prop :=
  ∀ (c : Instr) (rest : List Instr) (s : State), s.pending = c :: rest → step s = exec c { s with pending := rest }

/-- MODEL'S CHOICE (log 1): a step on an empty queue counts one microsecond of part time, and nothing in a part
without power. MODEL'S CHOICE (log 5): a part without power takes the levels of its pins and POWER_ON, and nothing
else. -/
def Obligations.IdleTicksAndUnpoweredParts : Prop :=
  (∀ s : State, s.pending = [] → step s = .next { s with time := if s.powered then s.time + 1 else s.time }) ∧
  (∀ (c : Instr) (s : State), s.powered = false → (∀ (v : Nat) (ws : List StoreFault), c ≠ .powerOn v ws) →
     (c.writesPins = false → exec c s = .next s) ∧
     ∃ p : Pins, exec c s = .next { s with pins := p })

/-- Every command answers with a next state, and leaves the queue. -/
def Obligations.EveryCommandAnswersAndKeepsTheQueue : Prop :=
  ∀ (c : Instr) (s : State), ∃ t : State, exec c s = .next t ∧ t.pending = s.pending

/-- The state after reset is sound, and its ring and FIFOs are within their bounds. -/
def Obligations.ResetIsSound : Prop := State.reset.sound = true ∧ State.reset.bounded

/-- Every step of a sound state leaves a sound state: the store in canonical form, and no part READY without power. -/
def Obligations.StepKeepsTheStateSound : Prop :=
  ∀ s t : State, s.sound = true → step s = .next t → t.sound = true

/-- R17, R19, R39, R37: every step keeps the ring at no more than 1,024 records of consecutive numbers, each stream FIFO at no
more than 16,384 bytes and each record in assembly at no more than 256 words. -/
def Obligations.StepKeepsTheBuffersBounded : Prop :=
  ∀ s t : State, s.bounded → step s = .next t → t.bounded

/-- What lies outside the blocks changes by the commands alone that are named for it. -/
def Obligations.CommandsLeaveWhatTheyAreNotNamedFor : Prop :=
  ∀ (c : Instr) (s t : State), exec c s = .next t →
    (c.writesFlash = false → t.flash = s.flash) ∧
    (c.writesWorking = false → t.settings = s.settings ∧ t.plan = s.plan) ∧
    (c.writesEpoch = false → t.epoch = s.epoch ∧ t.epochValid = s.epochValid) ∧
    (c.writesReady = false → t.ready = s.ready) ∧
    (c.writesPower = false → t.powered = s.powered ∧ t.time = s.time) ∧
    (c.writesPins = false → t.pins = s.pins)

/-- The blocks' immediate steps leave everything outside the blocks, and where none can be taken nothing changes (log
11). -/
def Obligations.SettleRestsWhenQuiet : Prop :=
  ∀ s : State,
    (quiet s = true → settle s = s) ∧
    (settle s).pending = s.pending ∧ (settle s).powered = s.powered ∧ (settle s).ready = s.ready ∧
    (settle s).time = s.time ∧ (settle s).epoch = s.epoch ∧ (settle s).epochValid = s.epochValid ∧
    (settle s).pins = s.pins ∧ (settle s).settings = s.settings ∧ (settle s).plan = s.plan ∧
    (settle s).flash = s.flash

/-! ## Fault lines and trigger terms (chapter 1) -/

/-- R1: a raw level that equals the filtered level leaves no candidate; one that differs starts a candidate now,
unless one is running. A candidate that has already held its width is taken first (log 2). R1, R2, R5: a candidate
that has held for the filter width becomes the filtered level, the latch is set, the candidate ends, and the terms
with the line in their mask are evaluated in ascending order. Otherwise nothing happens (log 2). -/
def Obligations.RawLevelsAreFiltered : Prop :=
  (∀ (line : Fin 16) (level : Bool) (s : State), s.powered = true →
     let u := match candidateDue line s with
       | some held => filteredChange line held s
       | none => s
     let cand : Option Candidate :=
       if u.trig.filtered.getLsbD line.val = level then none
       else match u.trig.cands[line] with
         | some c => some c
         | none => some { level := level, start := s.time }
     let v := u.onTrig fun t => { t with cands := vset t.cands line cand }
     exec (.rawLevelChange line level) s =
       .next { settle v with pins := { s.pins with raw := setBit s.pins.raw line.val level } }) ∧
  (∀ (line : Fin 16) (s : State), s.powered = true →
     (∀ c : Candidate, s.trig.cands[line] = some c →
       reached s.time (after c.start s.settings.filterWidth[line]) = true →
       exec (.filteredLevelChange line) s = .next (settle (forEach allLines
         (fun n u => if ((u.settings.terms[n]).mask &&& BitVec.twoPow 16 line.val) = 0 then u else evaluate n u)
         (s.onTrig fun t =>
           { t with filtered := setBit t.filtered line.val c.level, latches := setBit t.latches line.val true
                    cands := vset t.cands line none })))) ∧
     (∀ c : Candidate, s.trig.cands[line] = some c →
       reached s.time (after c.start s.settings.filterWidth[line]) = false → exec (.filteredLevelChange line) s = .next s) ∧
     (s.trig.cands[line] = none → exec (.filteredLevelChange line) s = .next s))

/-- R4: the condition of a term. -/
def Obligations.TermConditionReadsTheMaskedLines : Prop :=
  ∀ (d : TermDef) (filtered latches : BitVec 16),
    let value := fun i : Nat => match d.source with
      | .level => filtered.getLsbD i
      | .latch => latches.getLsbD i
    condition d filtered latches = true ↔
      match d.combine with
      | .any => ∃ i : Nat, d.mask.getLsbD i = true ∧ value i = d.polarity.getLsbD i
      | .all => d.mask ≠ 0 ∧ ∀ i : Nat, d.mask.getLsbD i = true → value i = d.polarity.getLsbD i

/-- R5, R6: what an evaluation does to a term, by its state, its qualified mark and its condition. R7, R8: a re-arm timer
that has run out takes a term that is still FIRED to ARMED, unqualified, and evaluates it; a term in another state only
loses its timer; a timer that has not run out does nothing (log 2). R11: when part time has reached the expiry time, the
host hold-off timer stops. -/
def Obligations.TermsFireAndTheirTimersRunOut : Prop :=
  (∀ (n : Fin 8) (s : State),
     (s.ready = false → evaluate n s = s) ∧
     ((s.trig.terms[n]).state ≠ .armed → evaluate n s = s) ∧
     (s.ready = true → (s.trig.terms[n]).state = .armed →
       (termCondition n s = false → evaluate n s = onTerm n (fun t => { t with qualified := true }) s) ∧
       (termCondition n s = true → (s.trig.terms[n]).qualified = false → evaluate n s = s) ∧
       (termCondition n s = true → (s.trig.terms[n]).qualified = true →
         evaluate n s = trigger n.val (.term n) (post (.term n) 0x01 [s.trig.filtered.toNat, s.trig.latches.toNat]
           (onTerm n (fun t => { t with state := .fired, fires := satInc t.fires }) s))))) ∧
  (∀ (n : Fin 8) (s : State), s.powered = true →
     (∀ t : PartTime, (s.trig.terms[n]).rearmAt = some t → reached s.time t = true →
       ((s.trig.terms[n]).state = .fired → exec (.rearmTimerExpiry n) s = .next (evaluate n
         (onTerm n (fun x => { x with rearmAt := none, state := .armed, qualified := false }) s))) ∧
       ((s.trig.terms[n]).state ≠ .fired →
         exec (.rearmTimerExpiry n) s = .next (onTerm n (fun x => { x with rearmAt := none }) s))) ∧
     (∀ t : PartTime, (s.trig.terms[n]).rearmAt = some t → reached s.time t = false →
       exec (.rearmTimerExpiry n) s = .next s) ∧
     ((s.trig.terms[n]).rearmAt = none → exec (.rearmTimerExpiry n) s = .next s)) ∧
  (∀ s : State, s.powered = true →
     (∀ t : PartTime, s.trig.hostTimer = some t → reached s.time t = true →
       exec .hostHoldoffExpiry s = .next (s.onTrig fun u => { u with hostTimer := none })) ∧
     (∀ t : PartTime, s.trig.hostTimer = some t → reached s.time t = false → exec .hostHoldoffExpiry s = .next s) ∧
     (s.trig.hostTimer = none → exec .hostHoldoffExpiry s = .next s))

/-- R13: CLEAR_LATCHES. The terms with a latch in their mask that went from set to clear are evaluated once, after all
named latches are cleared. -/
def Obligations.ClearLatchesClearsTheMask : Prop :=
  ∀ (p : PortId) (tag : Byte) (lo hi : Byte) (s : State), servable p kClearLatches s = true →
    let mask : BitVec 16 := lo.setWidth 16 ||| (hi.setWidth 16 <<< 8)
    let changed := s.trig.latches &&& mask
    let u := forEach allLines (fun n u => if ((u.settings.terms[n]).mask &&& changed) = 0 then u else evaluate n u)
      ((inService p kClearLatches tag .none s).onTrig fun t => { t with latches := t.latches &&& ~~~ mask })
    exec (.clearLatches p tag [lo, hi]) s =
      .next (settle (answer p .ok false (leBytes 2 u.trig.latches.toNat) u))

/-- R14: ARM and DISARM. R15: DRIVE_INDICATORS; the reply's two sets are in the encoding of log 10, the model's reading. -/
def Obligations.ArmDisarmAndIndicatorsAct : Prop :=
  (∀ (p : PortId) (tag mask : Byte) (s : State),
     (servable p kArm s = true →
       let u := forEach (allLines.filter fun n => mask.getLsbD n.val)
         (fun n u => if (u.trig.terms[n]).state = .armed then u
           else evaluate n (onTerm n (fun t =>
             { t with state := .armed, qualified := false, rearmAt := none, assoc := none }) u))
         (inService p kArm tag .none s)
       exec (.arm p tag [mask]) s = .next (answer p .ok false (u.trig.terms.toList.map fun t => t.state.code) u)) ∧
     (servable p kDisarm s = true →
       let u := forEach (allLines.filter fun n => mask.getLsbD n.val)
         (fun n u => onTerm n (fun t =>
           { t with state := .disabled, qualified := false, assoc := none, rearmAt := none }) u)
         (inService p kDisarm tag .none s)
       exec (.disarm p tag [mask]) s = .next (answer p .ok false (u.trig.terms.toList.map fun t => t.state.code) u))) ∧
  (∀ (p : PortId) (tag v w : Byte) (s : State), servable p kDriveIndicators s = true →
     (w ≠ ~~~ v → exec (.driveIndicators p tag [v, w]) s = .next (replied p kDriveIndicators tag .badValue false [] s)) ∧
     (w = ~~~ v → exec (.driveIndicators p tag [v, w]) s = .next
       (replied p kDriveIndicators tag .ok (decide (16 ≤ v.toNat))
         (0x5A :: leBytes 2 (v.toNat % 16) ++ leBytes 2 s.pins.raw.toNat)
         (s.onTrig fun t => { t with indicators := v.setWidth 4 }))))

/-! ## The Event History Ring (chapter 2) -/

/-- R19, with the EVENTS_LOST record of R22: an event that the ring has room for. R21: an event for a full ring whose oldest
record is protected. -/
def Obligations.RingTakesOrCountsAnEvent : Prop :=
  (∀ (r : Ring) (time : PartTime) (o : Origin) (kind : Byte) (args : List (BitVec 32)),
     r.records.length ≤ 1024 → (r.records.length < 1024 ∨ r.oldestProtected = false) →
     let cut := fun xs : List EventRec => if xs.length < 1024 then xs else xs.drop 1
     let lost : EventRec := { seq := r.counter, time := time, origin := .ring, kind := 0x24, args := [BitVec.ofNat 32 r.lost] }
     let new := fun c : BitVec 32 => ({ seq := c, time := time, origin := o, kind := kind, args := args } : EventRec)
     (r.lost = 0 → r.post time o kind args =
       { r with records := cut r.records ++ [new r.counter], counter := r.counter + 1 }) ∧
     (r.lost ≠ 0 → r.post time o kind args =
       { r with records := cut (cut r.records ++ [lost]) ++ [new (r.counter + 1)], counter := r.counter + 2, lost := 0 }) ∧
     (r.consecutive → (r.post time o kind args).consecutive) ∧ (r.post time o kind args).records.length ≤ 1024) ∧
  (∀ (r : Ring) (time : PartTime) (o : Origin) (kind : Byte) (args : List (BitVec 32)),
     r.records.length = 1024 → r.oldestProtected = true →
     r.post time o kind args = { r with lost := min (r.lost + 1) 4294967295 })

/-- R29: POST_EVENT. R30: READ_EVENTS. -/
def Obligations.RingRequestsPostAndRead : Prop :=
  (∀ (p : PortId) (tag : Byte) (code : Byte) (words : List Byte) (s : State), servable p kPostEvent s = true →
       let taken := s.ring.hasRoom
       let kind : Byte := if code.toNat < 0x80 then 0x80 else code
       let args := (List.range (words.length / 4)).map fun i => fieldAt words (4 * i) 4
       let u := post (.port p) kind args s
       ((words.length = 0 ∨ words.length = 4 ∨ words.length = 8 ∨ words.length = 12) →
         exec (.postEvent p tag (code :: words)) s = .next (replied p kPostEvent tag .ok (decide (code.toNat < 0x80))
           ((if taken then 1 else 0) :: leBytes 4 (if taken then u.ring.counter - 1 else s.ring.counter).toNat) u)) ∧
       (¬ (words.length = 0 ∨ words.length = 4 ∨ words.length = 8 ∨ words.length = 12) →
         exec (.postEvent p tag (code :: words)) s = .next (replied p kPostEvent tag .badLength false [] s)) ∧
       exec (.postEvent p tag []) s = .next (replied p kPostEvent tag .badLength false [] s)) ∧
  (∀ (p : PortId) (tag : Byte) (payload : List Byte) (s : State), servable p kReadEvents s = true →
       payload.length = 5 →
       let r := s.ring
       let start := BitVec.ofNat 32 (leNat (payload.take 4))
       let m := leNat (payload.drop 4)
       let count := if m = 0 then 1 else if 40 < m then 40 else m
       let held := (start - r.oldest).toNat < r.records.length
       let from' := if held then r.records.drop (start - r.oldest).toNat
         else if (start - r.counter).toNat < 2147483648 then [] else r.records
       let rs := from'.take count
       exec (.readEvents p tag payload) s = .next (replied p kReadEvents tag .ok (decide (count ≠ m))
         (leBytes 4 r.oldest.toNat ++ leBytes 4 r.counter.toNat ++ leBytes 4 (r.pin.getD 0).toNat ++
           [if r.pin.isSome then 1 else 0] ++ leBytes 4 r.lost ++ leBytes 4 rs.length ++ rs.flatMap EventRec.bytes) s))

/-! ## Stream channels (chapter 3) -/

/-- R32: an assertion of SYNC opens a record in IDLE. R32, R34, R35: a release of SYNC completes the record in assembly,
with SYNC_ERROR where a frame is incomplete; it ends a wait for the release. MODEL'S CHOICE (log 3): in a state where the
event cannot happen SYNC only sets or clears its level, and a stall does nothing. R36: after 10 ms without an edge the
record is completed with SYNC_ERROR, and the receiver waits for a release of SYNC that is still asserted; before that
nothing happens (log 2). R33, R37: an edge delivers one bit to the record in assembly, and TRUNCATED counts a record
once; edges are ignored outside RECEIVING. -/
def Obligations.StreamLineCommandsBuildRecords : Prop :=
  (∀ (ch : Fin 4) (s : State), s.powered = true →
     let u := { s with pins := { s.pins with sync := setBit s.pins.sync ch.val true } }
     let cfg := s.settings.stream[ch]
     let a : Assembly :=
       { arrival := s.time.setWidth 32, paired := decide (cfg.mode = .paired), packed := cfg.packing, words := []
         frameCount := 0, truncated := false, held := none, word := 0, bits := 0, lastEdge := s.time }
     ((s.streams[ch]).rx = .idle →
       exec (.syncAssert ch) s = .next (u.onStream ch fun c => { c with rx := .receiving, assembly := some a })) ∧
     ((s.streams[ch]).rx ≠ .idle → exec (.syncAssert ch) s = .next u)) ∧
  (∀ (ch : Fin 4) (s : State), s.powered = true →
     let u := { s with pins := { s.pins with sync := setBit s.pins.sync ch.val false } }
     (∀ a : Assembly, (s.streams[ch]).rx = .receiving → (s.streams[ch]).assembly = some a →
       let v := u.onStream ch fun c => { c with assembly := none, rx := .idle }
       (a.bits = 0 ∧ a.held = none → exec (.syncRelease ch) s = .next (offerRecord ch (a.record ch false) v)) ∧
       (¬ (a.bits = 0 ∧ a.held = none) → exec (.syncRelease ch) s = .next (offerRecord ch (a.record ch true)
         (post (.stream ch) 0x0C [a.words.length, satInc (s.streams[ch]).syncErrors]
           (v.onStream ch fun c => { c with syncErrors := satInc c.syncErrors }))))) ∧
     ((s.streams[ch]).rx = .waitRelease →
       exec (.syncRelease ch) s = .next (u.onStream ch fun c => { c with rx := .idle })) ∧
     ((s.streams[ch]).rx = .idle ∨ (s.streams[ch]).rx = .disabled → exec (.syncRelease ch) s = .next u)) ∧
  (∀ (ch : Fin 4) (s : State), s.powered = true →
     (∀ a : Assembly, (s.streams[ch]).rx = .receiving → (s.streams[ch]).assembly = some a →
       (reached s.time (after a.lastEdge 10000) = true → exec (.streamStall ch) s =
         .next (offerRecord ch (a.record ch true)
           (post (.stream ch) 0x0C [a.words.length, satInc (s.streams[ch]).syncErrors]
             (s.onStream ch fun c =>
               { c with assembly := none, rx := if s.pins.sync.getLsbD ch.val then .waitRelease else .idle
                        syncErrors := satInc c.syncErrors })))) ∧
       (reached s.time (after a.lastEdge 10000) = false → exec (.streamStall ch) s = .next s)) ∧
     ((s.streams[ch]).rx ≠ .receiving → exec (.streamStall ch) s = .next s)) ∧
  (∀ (ch : Fin 4) (da db : Bool) (s : State), s.powered = true →
     (∀ a : Assembly, (s.streams[ch]).rx = .receiving → (s.streams[ch]).assembly = some a →
       let b := a.bit (s.settings.stream[ch]).wordLen s.time da db
       exec (.clkRisingEdge ch da db) s = .next (s.onStream ch fun c =>
         { c with assembly := some b
                  truncated := if b.truncated = true ∧ a.truncated = false then satInc c.truncated else c.truncated })) ∧
     ((s.streams[ch]).rx ≠ .receiving → exec (.clkRisingEdge ch da db) s = .next s))

/-- R33, R37: the bits of a word fill it from its most significant bit down: from DA in SINGLE mode, and in PAIRED mode from
DA for the first word of a frame, which is held, and from DB for the second. The completed frame is counted, and its words
are appended, DA word first, where the record then holds at most 256 words; otherwise they are dropped and the record is
TRUNCATED. R38: the containers of the completed record. -/
def Obligations.FramesFillFromTheTopBit : Prop :=
  (∀ (a : Assembly) (ch : Fin 4) (err : Bool),
     let r := a.record ch err
     r.wordCount = a.words.length ∧ r.frameCount = a.frameCount ∧ r.arrival = a.arrival ∧ r.channel = ch ∧ r.dropsBefore = 0 ∧
     r.syncError = err ∧ r.truncated = a.truncated ∧ r.packed = a.packed ∧ r.paired = a.paired ∧
     r.size = 12 + 4 * r.containers.length ∧ (a.packed = false → r.containers = a.words) ∧
     (a.packed = true → (∀ w ∈ a.words, w.toNat < 65536) → r.containers.length = (a.words.length + 1) / 2 ∧
       ∀ k : Nat, k < (a.words.length + 1) / 2 →
         r.containers[k]? = some (a.words.getD (2 * k) 0 ||| (a.words.getD (2 * k + 1) 0 <<< 16)))) ∧
  (∀ (a : Assembly) (bits : List (Bool × Bool)) (now : PartTime), 0 < bits.length → bits.length ≤ 32 → a.word = 0 → a.bits = 0 →
    let b := bits.foldl (fun (b : Assembly) da_db => b.bit bits.length now da_db.1 da_db.2) a
    let filled := fun (w : BitVec 32) (lane : Bool × Bool → Bool) => ∀ i : Nat,
      w.getLsbD i = if i < bits.length then (bits.map lane).getD (bits.length - 1 - i) false else false
    let framed := fun (ws : List (BitVec 32)) =>
      (a.words.length + ws.length ≤ 256 → b =
        { a with words := a.words ++ ws, frameCount := min (a.frameCount + 1) 65535, held := none, lastEdge := now }) ∧
      (256 < a.words.length + ws.length → b =
        { a with truncated := true, frameCount := min (a.frameCount + 1) 65535, held := none, lastEdge := now })
    (a.paired = false → ∃ w : BitVec 32, filled w Prod.fst ∧ framed [w]) ∧
    (a.paired = true → a.held = none → ∃ w : BitVec 32, filled w Prod.fst ∧ b = { a with held := some w, lastEdge := now }) ∧
    (∀ first : BitVec 32, a.paired = true → a.held = some first → ∃ w : BitVec 32, filled w Prod.snd ∧ framed [first, w]))

/-- R39 to R42: a record offered to the FIFO is appended, or ages the oldest records out, or is dropped. -/
def Obligations.OfferedRecordEntersAgesOrDrops : Prop :=
  ∀ (ch : Fin 4) (r : StreamRec) (s : State),
    let c := s.streams[ch]
    let u := offerRecord ch r s
    let d := u.streams[ch]
    let size := fun xs : List StreamRec => (xs.map fun x => 12 + 4 * x.containers.length).sum
    let entered : StreamRec := { r with dropsBefore := min c.pendDrops 65535 }
    (size c.fifo + size [r] ≤ 16384 →
      d = { c with received := satInc c.received, fifo := c.fifo ++ [entered], pendDrops := 0 } ∧ u.ring = s.ring) ∧
    (16384 < size c.fifo + size [r] → size [r] ≤ 1036 → c.claim = none →
      u.ring = s.ring ∧ ∃ k : Nat, k ≤ c.fifo.length ∧ size (c.fifo.drop k) + size [r] ≤ 16384 ∧
        (∀ j : Nat, j < k → 16384 < size (c.fifo.drop j) + size [r]) ∧
        d = { c with received := satInc c.received, aged := satAdd c.aged k, fifo := c.fifo.drop k ++ [entered], pendDrops := 0 }) ∧
    (∀ cl : Claim, 16384 < size c.fifo + size [r] → c.claim = some cl →
      d = { c with received := satInc c.received, overrun := satInc c.overrun, pendDrops := satInc c.pendDrops
                   noticed := cl.capture } ∧
      (c.noticed = cl.capture → u.ring = s.ring ∧ u.link = s.link) ∧
      (c.noticed ≠ cl.capture →
        u.ring = s.ring.post s.time (.stream ch) 0x0B [BitVec.ofNat 32 cl.capture, BitVec.ofNat 32 (size [r])] ∧
        ∀ p : PortId, (u.port p).notices = setBit (s.port p).notices 4 true))

/-! ## Fetch channels (chapter 4) -/

/-- R50 and R52: the answer wire is read as a byte stream: a hunting channel ignores all but the mark, an answer ends at a count
byte above 64 or at its last CRC byte, and is then judged. R51 and R53: a deadline that has passed starts the next attempt, or
fails the transaction and, at the fourth consecutive failure, declares the source silent; one that has not passed does nothing
(log 2). R49: an attempt sends its request message: mark, tag, space, address, count and CRC. MODEL'S CHOICES: the deadline of an
attempt adds the request message's own 100 µs (log 21), and FETCH_SILENT carries the address modulo 2^32 (log 37). -/
def Obligations.FetchAttemptsEndByAnswerOrDeadline : Prop :=
  (∀ (w : AnswerWire) (tag result count : Byte) (data : List Byte) (crc : BitVec 16) (s : State), s.powered = true →
     let received := fun (t : State) (rx : Option (List Byte)) => t.onFetch w.ch fun f => { f with rx := rx }
     let bad := fun t : State => t.onFetch w.ch fun f => { f with badAnswers := satInc f.badAnswers }
     let byte := fun (t : State) (b : Byte) => match (t.fetches[w.ch]).rx with
       | none => if b = 0xC9 then received t (some []) else t
       | some bs =>
         let got := bs ++ [b]
         let n := (got.getD 2 0).toNat
         let answer := (got.drop 3).take n
         if got.length < 3 then received t (some got)
         else if 64 < n then bad (received t none)
         else if got.length < n + 5 then received t (some got)
         else if got.drop (n + 3) = leBytes 2 (crc16 (got.take 3 ++ answer)).toNat then
           judgeAnswer w.ch (got.getD 0 0) (got.getD 1 0) (got.getD 2 0) answer (received t none)
         else bad (received t none)
     let message := [0xC9, tag, result, count] ++ data ++ if 64 < count.toNat then [] else leBytes 2 crc.toNat
     ((s.fetches[w.ch]).state = .disabled → exec (.fetchAnswer w tag result count data crc) s = .next s) ∧
     ((s.fetches[w.ch]).state ≠ .disabled →
       exec (.fetchAnswer w tag result count data crc) s = .next ((w.before ++ message).foldl byte s))) ∧
  (∀ (w : AnswerWire) (tag result count : Byte) (data : List Byte) (crc : BitVec 16) (s : State), s.powered = true →
     let ch := w.ch
     let c := s.fetches[ch]
     let whole := crc = crc16 (tag :: result :: count :: data)
     let answer' := exec (.fetchAnswer w tag result count data crc) s
     let bad := s.onFetch ch fun f => { f with badAnswers := satInc f.badAnswers }
     let stale := s.onFetch ch fun f => { f with stale := satInc f.stale }
     c.state ≠ .disabled → c.rx = none → 0xC9 ∉ w.before →
     (64 < count.toNat → 0xC9 ∉ data → answer' = .next bad) ∧
     (count.toNat ≤ 64 → data.length = count.toNat →
     (¬ whole → answer' = .next bad) ∧
     (c.state = .idle ∨ c.state = .delivering → whole → answer' = .next stale) ∧
     (∀ t : Txn, c.state = .asking → c.txn = some t → whole →
       (tag ≠ t.tag → answer' = .next stale) ∧
       (tag = t.tag → result = 0 → count.toNat = t.count → answer' = .next (s.onFetch ch fun f =>
         { f with state := .delivering, txn := none, piece := some (.data true data)
                  bytesRead := satAdd f.bytesRead count.toNat, failures := 0 })) ∧
       (tag = t.tag → result = 1 → count = 0 → answer' = .next (s.onFetch ch fun f =>
         { f with state := .delivering, txn := none, piece := some (.data false (List.replicate t.count 0xFF))
                  naks := satInc f.naks, failures := 0 })) ∧
       (tag = t.tag → ¬ (result = 0 ∧ count.toNat = t.count) → ¬ (result = 1 ∧ count = 0) → answer' = .next bad)))) ∧
  (∀ (ch : Fin 4) (t : Txn) (s : State), s.powered = true → (s.fetches[ch]).state = .asking → (s.fetches[ch]).txn = some t →
     let c := s.fetches[ch]
     let cfg := s.settings.fetch[ch]
     let ones : Piece := .data false (List.replicate t.count 0xFF)
     let request := fun (tag : Byte) (sp : Space) (addr count : Nat) =>
       let covered := [tag, sp.code] ++ leBytes 4 addr ++ leBytes 1 count
       0xC6 :: covered ++ leBytes 2 (crc16 covered).toNat
     (reached s.time t.deadline = false → exec (.fetchTimeout ch) s = .next s) ∧
     (reached s.time t.deadline = true →
       (t.attempt < 1 + cfg.retries → exec (.fetchTimeout ch) s = .next (s.onFetch ch fun f =>
         { f with timeouts := satInc f.timeouts, attempts := satInc f.attempts, nextTag := f.nextTag + 1
                  transactions := if t.attempt = 0 then satInc f.transactions else f.transactions
                  txn := some { t with attempt := t.attempt + 1, tag := f.nextTag
                                       sent := request f.nextTag t.space t.addr t.count
                                       deadline := after s.time (100 + 1000 * cfg.timeout) } })) ∧
       (¬ t.attempt < 1 + cfg.retries → c.failures + 1 < 4 → exec (.fetchTimeout ch) s = .next (s.onFetch ch fun f =>
         { f with timeouts := satInc f.timeouts, state := .delivering, txn := none, piece := some ones
                  failed := satInc f.failed, failures := f.failures + 1 })) ∧
       (∀ r : Region, ¬ t.attempt < 1 + cfg.retries → 4 ≤ c.failures + 1 → c.region = some r →
         exec (.fetchTimeout ch) s = .next (post (.fetch ch) 0x0D
           [r.space.code.toNat, t.addr + t.count, r.base + r.len - (t.addr + t.count)]
           (s.onFetch ch fun f =>
             { f with timeouts := satInc f.timeouts, state := .delivering, txn := none, piece := some ones
                      failed := satInc f.failed, failures := f.failures + 1, silents := satInc f.silents
                      silent := some (captureNumber s), region := some { r with runs := [], silent := true } })))))

/-- R54: the deciding window of a byte is the first that is enabled, names its space and contains its address, and
gives the permit; without one the permit is DENY. -/
def Obligations.FirstCoveringWindowDecides : Prop :=
  ∀ (cfg : FetchCfg) (sp : Space) (a : Nat),
    let covers := fun i : Fin 4 => (cfg.windows[i]).enabled = true ∧ (cfg.windows[i]).space = sp ∧
      (cfg.windows[i]).base ≤ a ∧ a ≤ (cfg.windows[i]).limit
    (∀ i : Fin 4, decidingWindow cfg sp a = some i ↔ covers i ∧ ∀ j : Fin 4, j < i → ¬ covers j) ∧
    (decidingWindow cfg sp a = none ↔ ∀ i : Fin 4, ¬ covers i) ∧
    (∀ i : Fin 4, permitOf cfg (some i) = (cfg.windows[i]).permit) ∧ permitOf cfg none = .deny

/-- R57, R62: a run is the longest one from its first byte with one deciding window, up to the end of the region or probe. R62:
PROBE_REACH; its code for no deciding window and its mark are those of log 10 (DEDUCED). MODEL'S CHOICE (log 44): where the run is
as long as the clamped length, the mark says that it ended at the cap, whether or not the deciding window changes there. -/
def Obligations.RunsEndAtTheFirstChange : Prop :=
  (∀ (cfg : FetchCfg) (sp : Space) (a stop : Nat), a < stop →
     let b := runStop cfg sp a stop
     a < b ∧ b ≤ stop ∧ (∀ k : Nat, a ≤ k → k < b → decidingWindow cfg sp k = decidingWindow cfg sp a) ∧
       (b < stop → decidingWindow cfg sp b ≠ decidingWindow cfg sp a)) ∧
  (∀ (p : PortId) (tag ch sp : Byte) (rest : List Byte) (s : State), servable p kProbeReach s = true → rest.length = 8 →
     let addr := leNat (rest.take 4)
     let asked := leNat (rest.drop 4)
     let len := min (max 1 asked) (0xFFFFFFFF - addr + 1)
     (∀ (c : Fin 4) (space : Space), ch.toNat = c.val → spaceOfCode sp.toNat = some space →
       let cfg := s.settings.fetch[c]
       let w := decidingWindow cfg space addr
       let b := runStop cfg space addr (addr + len)
       exec (.probeReach p tag (ch :: sp :: rest)) s = .next (replied p kProbeReach tag .ok (decide (len ≠ asked))
         ([match w with | some i => BitVec.ofNat 8 i.val | none => 0xFF, (permitOf cfg w).code] ++ leBytes 4 (b - addr) ++
           [if b < addr + len then 1 else 0]) s)) ∧
     (4 ≤ ch.toNat ∨ 4 ≤ sp.toNat → exec (.probeReach p tag (ch :: sp :: rest)) s =
       .next (replied p kProbeReach tag .badValue false [] s)))

/-! ## The Capture Plan (chapter 5) -/

/-- R72, R73: READ_PLAN; the first index is checked before the want of a snapshot (log 59, the model's choice). R68 to R70:
the ENTRY form of WRITE_PLAN replaces one working entry with the clamped values, counts the revision and echoes the entry;
where a check fails it is refused and nothing changes. R67 to R70: the PAGE_CAP form of WRITE_PLAN. Both replies send the page cap
in 4 bytes, a size that R182 does not list (log 10, DEDUCED). -/
def Obligations.PlanIsReadAndWritten : Prop :=
  (∀ (p : PortId) (tag src first m : Byte) (s : State), servable p kReadPlan s = true →
     let count := if m.toNat = 0 then 1 else if 16 < m.toNat then 16 else m.toNat
     let reply := fun (pl : Plan) (cap : Nat) =>
       let es := (pl.entries.toList.drop first.toNat).take count
       replied p kReadPlan tag .ok (decide (count ≠ m.toNat))
         (src :: leBytes 4 pl.revision ++ leBytes 4 pl.pageCap ++ leBytes 4 cap ++ [first] ++ leBytes 4 es.length ++
           es.flatMap PlanEntry.bytes) s
     (1 < src.toNat ∨ 47 < first.toNat → exec (.readPlan p tag [src, first, m]) s =
       .next (replied p kReadPlan tag .badValue false [] s)) ∧
     (src = 0 → first.toNat ≤ 47 → exec (.readPlan p tag [src, first, m]) s = .next (reply s.plan 0)) ∧
     (∀ c : Capture, src = 1 → first.toNat ≤ 47 → inProgress s = true → s.engine.capture = some c →
       exec (.readPlan p tag [src, first, m]) s = .next (reply c.snapshot c.number)) ∧
     (src = 1 → first.toNat ≤ 47 → inProgress s = false →
       exec (.readPlan p tag [src, first, m]) s = .next (replied p kReadPlan tag .refusedState false [] s))) ∧
  (∀ (p : PortId) (tag : Byte) (s : State), servable p kWritePlan s = true →
     (∀ (i : Fin 48) (idx : Byte) (bs : List Byte) (e : PlanEntry), idx.toNat = i.val → bs.length = 21 →
       parseEntry bs = some e →
       let limit := clampTo 1 1048576 e.limit
       let held : PlanEntry :=
         { e with
           limit := match e.base with
             | some b => min limit (0xFFFFFFFF - b + 1)
             | none => limit
           quiet := e.quiet.map (clampTo 1 10000), window := e.window.map (clampTo 1 600) }
       let rev := min (s.plan.revision + 1) 4294967295
       exec (.writePlanEntry p tag (0 :: idx :: bs)) s = .next
         { replied p kWritePlan tag .ok (decide (2048 ≤ fieldAt bs 4 2) || decide (held ≠ e))
             (leBytes 4 rev ++ [idx] ++ held.bytes) s with
           plan := { s.plan with entries := vset s.plan.entries i held, revision := rev } }) ∧
     (∀ (idx : Byte) (bs : List Byte), bs.length = 21 → (48 ≤ idx.toNat ∨ parseEntry bs = none) →
       exec (.writePlanEntry p tag (0 :: idx :: bs)) s = .next (replied p kWritePlan tag .badValue false [] s)) ∧
     (∀ bs : List Byte, bs.length ≠ 22 →
       exec (.writePlanEntry p tag (0 :: bs)) s = .next (replied p kWritePlan tag .badLength false [] s)) ∧
     exec (.writePlanEntry p tag []) s = .next (replied p kWritePlan tag .badLength false [] s) ∧
     (∀ (sel : Byte) (bs : List Byte), 1 < sel.toNat →
       exec (.writePlanEntry p tag (sel :: bs)) s = .next (replied p kWritePlan tag .badValue false [] s))) ∧
  (∀ (p : PortId) (tag : Byte) (s : State), servable p kWritePlan s = true →
     (∀ lo hi : Byte,
       let v := lo.toNat + 256 * hi.toNat
       let cap := if v < 2 then 2 else if 7680 < v then 7680 else v
       let rev := min (s.plan.revision + 1) 4294967295
       exec (.writePlanPageCap p tag [1, lo, hi]) s = .next
         { replied p kWritePlan tag .ok (decide (cap ≠ v)) (leBytes 4 rev ++ leBytes 4 cap) s with
           plan := { s.plan with pageCap := cap, revision := rev } }) ∧
     (∀ bs : List Byte, bs.length ≠ 2 →
       exec (.writePlanPageCap p tag (1 :: bs)) s = .next (replied p kWritePlan tag .badLength false [] s)))

/-! ## The Capture Engine (chapter 6) -/

/-- R79: a trigger in ERASING is refused, and one in IDLE by the first test that applies: the numbers are used up; the
monitor is outside NORMAL with an allowance below 8; no directory slot is FREE or can be freed; no capture-area block is
FREE, being erased, DIRTY in NORMAL, or can be freed. R145: what reclamation may free. The reason's counter and
TRIGGER_REFUSED, and the sender is told: a term loses its associated capture and a FIRED one starts its re-arm timer (R8),
a port's CAPTURE is answered with the reason's status. -/
def Obligations.TriggerIsRefusedForTheFirstReason : Prop :=
  ∀ (src : Nat) (who : Sender) (s : State),
    let refused := fun (reason : Nat) (status : Status) (count : Engine → Engine) =>
      let u := post .engine 0x03 [reason, src] (s.onEngine count)
      (who = .monitor → trigger src who s = u) ∧
      (∀ p : PortId, who = .port p → trigger src who s = answer p status false [] u) ∧
      (∀ n : Fin 8, who = .term n → trigger src who s = onTerm n (fun t =>
        { t with assoc := none
                 rearmAt := if t.state = .fired ∧ (s.settings.terms[n]).rearm ≠ 0
                   then some (after s.time (1000000 * (s.settings.terms[n]).rearm)) else t.rearmAt }) u)
    let spare := fun e : DirEntry => e ∈ entriesOf s.dir ∧ (e.state = .closed ∨ e.state = .interrupted) ∧ e.held = false ∧
      holdPending e.cap s = false ∧ committingCap e.cap s = false
    let numbers := 4294967294 ≤ s.dir.lastCap
    let power := s.monitor.state ≠ .normal ∧ s.monitor.remaining < 8
    let slot := (∃ i : Fin 32, s.dir.slots[i] = .free) ∨ ∃ e : DirEntry, spare e
    let block := (∃ i : Fin 60, s.store.blocks[i] = .free ∨ s.store.blocks[i] = .erasing ∨
        (s.monitor.state = .normal ∧ s.store.blocks[i] = .dirty)) ∨
      ∃ (e : DirEntry) (i : Fin 60), spare e ∧ s.store.blocks[i] = .allotted e.cap ∧ some (4 + i.val) ∈ e.blocks
    (s.engine.state = .erasing → refused 4 .inProgress fun e => { e with refErasing := satInc e.refErasing }) ∧
    (s.engine.state = .idle → s.ready = true →
      (numbers → refused 2 .full fun e => { e with refNumbers := satInc e.refNumbers }) ∧
      (¬ numbers → power → refused 3 .holdup fun e => { e with refPower := satInc e.refPower }) ∧
      (¬ numbers → ¬ power → ¬ slot → refused 1 .full fun e => { e with refFull := satInc e.refFull }) ∧
      (¬ numbers → ¬ power → slot → ¬ block → refused 1 .full fun e => { e with refFull := satInc e.refFull }) ∧
      (refusalReason s = none ↔ ¬ numbers ∧ ¬ power ∧ slot ∧ block))

/-- R74: the order of walk entries. R75, R76, R80: a trigger that R79 admits opens a capture: the working plan as snapshot,
the enabled entries of its source in order as walk, the next number in the lowest FREE directory slot, CAPTURE_OPENED and its
notice, the pin (R24) where the walk holds a HISTORY entry, the claims (R44), the retain lines with RETAIN_ASSERTED and their
timer, and the sender's answer, in which OPENED is sent as 0 (log 10, DEDUCED). Without a FREE slot the opening waits for a
reclamation. -/
def Obligations.AdmittedTriggerOpensACapture : Prop :=
  (∀ (p : Plan) (a b : Fin 48),
     let x := p.entries[a]
     let y := p.entries[b]
     let rank := fun k : SecClass => match k with
       | .critical => 0
       | .essential => 1
       | .extended => 2
     keyLess p a b = true ↔ rank x.cls < rank y.cls ∨
       (rank x.cls = rank y.cls ∧ (x.order < y.order ∨ (x.order = y.order ∧ a.val < b.val)))) ∧
  (∀ (src : Nat) (who : Sender) (s : State), src < 11 → s.ready = true → s.engine.state = .idle → refusalReason s = none →
     let u := trigger src who s
     let n := s.dir.lastCap + 1
     let bit : TrigSet := BitVec.twoPow 11 src
     let opened := s.ring.post s.time .engine 0x04 [BitVec.ofNat 32 n, BitVec.ofNat 32 src, BitVec.ofNat 32 bit.toNat]
     let first := opened.counter - 1
     ∃ walk : List WalkItem,
       (∀ i : Fin 48, (∃ x ∈ walk, x.entry = i) ↔ (s.plan.entries[i]).enabled = true ∧ (s.plan.entries[i]).trig.getLsbD src = true) ∧
       walk.Pairwise (fun x y => keyLess s.plan x.entry y.entry = true) ∧
       (∀ x ∈ walk, x.secIdx = none ∧ x.lapsed = false) ∧
       let fresh : Capture :=
         { number := n, slot := none, first := src, openTime := s.time, trigOpen := bit, trig := bit, trigSeq := 0
           preCount := s.settings.preCount, postCount := s.settings.postCount, retainTime := s.settings.retainTime
           epoch := none, sender := who, snapshot := s.plan, walk := walk, cursor := none, current := none, nextPage := 0
           nextIndex := 0, head := none, blocks := [], owed := [], clean := true, unrecorded := false, closeOn := false
           asked := false, noReclaim := false }
       let naming := fun k : Fin 8 => (walk.filter fun x => (s.plan.entries[x.entry]).retain = some k).length
       let claims := fun ch : Fin 4 => (walk.filter fun x =>
         (s.plan.entries[x.entry]).kind = .stream && (s.plan.entries[x.entry]).chan = some ch).length
       let want := first - BitVec.ofNat 32 s.settings.preCount + 1
       let pinned : Ring :=
         if (walk.any fun x => (s.plan.entries[x.entry]).kind = .history) && opened.pin.isNone then
           { opened with pin := some (if (want - opened.oldest).toNat < opened.records.length then want else opened.oldest) }
         else opened
       (∀ slot : Fin 32, s.dir.slots[slot] = .free → (∀ j : Fin 32, j < slot → s.dir.slots[j] ≠ .free) →
         u.dir = { s.dir with lastCap := n, slots := vset s.dir.slots slot (.reserved n) } ∧
         (∃ lines : BitVec 8,
           (∀ k : Fin 8, lines.getLsbD k.val = (decide (0 < naming k) && !s.engine.retain.getLsbD k.val)) ∧
           u.engine = { s.engine with
             state := .opening, phase := .openRecord, cause := .none, stall := false
             capture := some { fresh with slot := some slot.val, trigSeq := first
                                          epoch := if s.epochValid then some s.epoch else none }
             retain := s.engine.retain ||| lines
             retainCount := Vector.ofFn fun k => s.engine.retainCount[k] + naming k
             retainTimer := .running (after s.time (1000000 * s.settings.retainTime)) } ∧
           u.ring = if lines = 0 then pinned
             else pinned.post s.time .engine 0x08 [BitVec.ofNat 32 n, BitVec.ofNat 32 lines.toNat]) ∧
         (∀ ch : Fin 4, (claims ch = 0 → u.streams[ch] = s.streams[ch]) ∧
           (0 < claims ch → (s.streams[ch]).claim = none →
             u.streams[ch] = { s.streams[ch] with claim := some { capture := n, count := claims ch } })) ∧
         (∀ p : PortId, (u.port p).notices = setBit (s.port p).notices 0 true) ∧
         (∀ m : Fin 8, u.trig.terms[m] = if who = .term m then { s.trig.terms[m] with assoc := some n } else s.trig.terms[m]) ∧
         (∀ (p : PortId) (r : InService), who = .port p → (s.port p).service = some r → (u.port p).service = none ∧
           (u.port p).tx = (s.port p).tx ++ [mkReply r.kind r.tag .ok false (0 :: leBytes 4 n)]) ∧
         u.monitor = s.monitor ∧ u.store = s.store ∧ u.fetches = s.fetches ∧ u.integ = s.integ) ∧
       ((∀ i : Fin 32, s.dir.slots[i] ≠ .free) → u = s.onEngine fun e =>
         { e with state := .opening, phase := .openSlot, capture := some fresh, cause := .none, stall := false }))

/-- R83: a trigger that arrives while a capture is in progress joins it: TRIGGER_JOINED; in OPENING and GATHERING the entries that
it adds, inserted after the cursor by their order or appended, their claims, retain lines and marks, and the pin; in CLOSING no
entry. The sender is told joined; JOINED is sent to a port as 1 (log 10, DEDUCED). MODEL'S CHOICE (log 22): in an opening that
waits for a directory slot only the walk grows. R78: in STARTING a POWER trigger is kept pending, and taken at the end of replay,
after the terms (log 36, the model's choice of the order). -/
def Obligations.JoiningTriggerExtendsTheCapture : Prop :=
  (∀ (src : Nat) (who : Sender) (c : Capture) (s : State), src < 11 → s.engine.capture = some c →
     (s.engine.state = .opening ∨ s.engine.state = .gathering ∨ s.engine.state = .closing) →
     let u := trigger src who s
     let trig := c.trig ||| BitVec.twoPow 11 src
     let joined := s.ring.post s.time .engine 0x02
       [BitVec.ofNat 32 c.number, BitVec.ofNat 32 src, BitVec.ofNat 32 trig.toNat]
     u.dir = s.dir ∧ u.store = s.store ∧ u.fetches = s.fetches ∧ u.monitor = s.monitor ∧ u.integ = s.integ ∧
     (who = .monitor → u.link = s.link ∧ u.trig = s.trig) ∧
     (∀ m : Fin 8, who = .term m → u.link = s.link ∧
       u.trig = { s.trig with terms := vmod s.trig.terms m fun t => { t with assoc := some c.number } }) ∧
     (∀ p : PortId, who = .port p → u.trig = s.trig ∧ u.link = (answer p .ok false (1 :: leBytes 4 c.number) s).link) ∧
     (s.engine.state = .closing →
       u.ring = joined ∧ u.streams = s.streams ∧ u.engine = { s.engine with capture := some { c with trig := trig } }) ∧
     (s.engine.state ≠ .closing → ∃ added : List WalkItem,
       (∀ i : Fin 48, (∃ x ∈ added, x.entry = i) ↔ (c.snapshot.entries[i]).enabled = true ∧
         (c.snapshot.entries[i]).trig.getLsbD src = true ∧ ∀ w ∈ c.walk, w.entry ≠ i) ∧
       added.Pairwise (fun x y => keyLess c.snapshot x.entry y.entry = true) ∧
       (∀ x ∈ added, x.secIdx = none ∧ x.lapsed =
         (decide (s.engine.retainTimer = .ranOut) && (c.snapshot.entries[x.entry]).retain.isSome)) ∧
       let insert := fun (w : List WalkItem) (x : WalkItem) =>
         w.takeWhile (fun y => !keyLess c.snapshot x.entry y.entry) ++
           x :: w.dropWhile (fun y => !keyLess c.snapshot x.entry y.entry)
       let walk := match c.cursor with
         | none => added.foldl insert c.walk
         | some k => match c.walk[k]? with
           | none => c.walk ++ added
           | some here =>
             c.walk.take (k + 1) ++
               (added.filter fun x => keyLess c.snapshot here.entry x.entry).foldl insert (c.walk.drop (k + 1)) ++
               added.filter fun x => !keyLess c.snapshot here.entry x.entry
       let grown : Capture := { c with trig := trig, walk := walk }
       let naming := fun k : Fin 8 => (added.filter fun x => (c.snapshot.entries[x.entry]).retain = some k).length
       let claims := fun ch : Fin 4 => (added.filter fun x =>
         (c.snapshot.entries[x.entry]).kind = .stream && (c.snapshot.entries[x.entry]).chan = some ch).length
       let want := c.trigSeq - BitVec.ofNat 32 c.preCount + 1
       let pinned := fun r : Ring =>
         if (added.any fun x => (c.snapshot.entries[x.entry]).kind = .history) && r.pin.isNone then
           { r with pin := some (if (want - r.oldest).toNat < r.records.length then want else r.oldest) }
         else r
       (s.engine.phase = .openSlot →
         u.ring = joined ∧ u.streams = s.streams ∧ u.engine = { s.engine with capture := some grown }) ∧
       (s.engine.phase ≠ .openSlot →
         (∀ ch : Fin 4, u.streams[ch] = if claims ch = 0 then s.streams[ch] else
           { s.streams[ch] with claim := match (s.streams[ch]).claim with
               | none => some { capture := c.number, count := claims ch }
               | some y => some { y with count := y.count + claims ch } }) ∧
         ((∀ t : PartTime, s.engine.retainTimer ≠ .running t) →
           u.ring = pinned joined ∧ u.engine = { s.engine with capture := some grown }) ∧
         (∀ t : PartTime, s.engine.retainTimer = .running t → ∃ lines : BitVec 8,
           (∀ k : Fin 8, lines.getLsbD k.val = (decide (0 < naming k) && !s.engine.retain.getLsbD k.val)) ∧
           u.engine = { s.engine with
             capture := some grown, retain := s.engine.retain ||| lines
             retainCount := Vector.ofFn fun k => s.engine.retainCount[k] + naming k } ∧
           u.ring = pinned (if lines = 0 then joined
             else joined.post s.time .engine 0x08 [BitVec.ofNat 32 c.number, BitVec.ofNat 32 lines.toNat]))))) ∧
  (∀ s : State, s.ready = false → s.engine.state = .idle →
     trigger 8 .monitor s = s.onEngine fun e => { e with pendingPower := true }) ∧
  (∀ s : State,
     let t := forEach allLines evaluate { scanPool (rebuildBlocks s) with ready := true }
     (t.engine.pendingPower = true →
       endReplay s = settle (trigger 8 .monitor (t.onEngine fun e => { e with pendingPower := false }))) ∧
     (t.engine.pendingPower = false → endReplay s = settle t))

/-- R87, R58: with room, the engine takes the waiting piece or omission, the section ends with the region, and the channel
goes on. R59: what a piece or omission adds to the section. R58, R49: how the channel goes on, in pieces of at most 64 bytes.
R88, R43: the engine takes the head record of the FIFO, or leaves it and ends the section LIMITED. MODEL'S CHOICES: without
room the piece or record stays and the engine sees to the page that it lacks (log 12); without a section that takes, or with
nothing waiting, nothing happens (log 3); a stalled engine takes nothing (log 50), and the deadline adds the request's own 100
µs (log 21). -/
def Obligations.EngineTakesPiecesAndRecords : Prop :=
  (∀ s : State, s.powered = true →
     (∀ (c : Capture) (x : Section) (e : PlanEntry) (ch : Fin 4) (piece : Piece) (r : Region),
       takingSection .fetch s = some (c, x, e, ch) → (s.fetches[ch]).piece = some piece → (s.fetches[ch]).region = some r →
       (pieceLen piece ≤ roomNow s → exec .takePiece s = .next (settle (advanceRegion ch
         ((s.onSection fun y => { placePiece piece y with
             ended := if r.runs.isEmpty then some (if r.silent then .sourceSilent else .complete) else none }).onFetch ch
           fun f => { f with piece := none })))) ∧
       (roomNow s < pieceLen piece → exec .takePiece s = .next (settle s))) ∧
     (takingSection .fetch s = none → exec .takePiece s = .next s)) ∧
  (∀ s : State, s.powered = true →
     (∀ (c : Capture) (x : Section) (e : PlanEntry) (ch : Fin 4) (r : StreamRec) (rest : List StreamRec),
       takingSection .stream s = some (c, x, e, ch) → (s.streams[ch]).fifo = r :: rest →
       (e.limit < x.dataSoFar + r.size →
         exec .takeRecord s = .next (settle (s.onSection fun y => { y with ended := some .limited }))) ∧
       (x.dataSoFar + r.size ≤ e.limit → r.size ≤ roomNow s →
         exec .takeRecord s = .next (settle
           ((s.onStream ch fun f => { f with fifo := rest, taken := satInc f.taken }).onSection fun y =>
             { y with toPlace := r.bytes, records := y.records + 1
                      gaps := y.gaps ++ (if r.dropsBefore = 0 then []
                        else [{ offset := x.dataSoFar, len := r.dropsBefore, reason := .overrun }])
                      quietAt := if rest.isEmpty then some s.time else none }))) ∧
       (x.dataSoFar + r.size ≤ e.limit → roomNow s < r.size → exec .takeRecord s = .next (settle s))) ∧
     (∀ (c : Capture) (x : Section) (e : PlanEntry) (ch : Fin 4), takingSection .stream s = some (c, x, e, ch) →
       (s.streams[ch]).fifo = [] → exec .takeRecord s = .next s) ∧
     (takingSection .stream s = none → exec .takeRecord s = .next s)) ∧
  (∀ (x : Section) (n : Nat) (bytes : List Byte),
     let here := x.img + x.toPlace.length - 32
     let last := x.gaps.getLast?
     let joined := fun (h : Gap) (len : Nat) => x.gaps.dropLast ++ [{ h with len := h.len + len }]
     placePiece (.data true bytes) x = { x with toPlace := bytes } ∧
     (∀ h : Gap, last = some h → h.reason = .denied → h.offset = here →
       placePiece (.omission n) x = { x with gaps := joined h n }) ∧
     ((∀ h : Gap, last = some h → h.reason ≠ .denied ∨ h.offset ≠ here) →
       placePiece (.omission n) x = { x with gaps := x.gaps ++ [{ offset := here, len := n, reason := .denied }] }) ∧
     (∀ h : Gap, last = some h → h.reason = .unreadable → h.offset + h.len = here →
       placePiece (.data false bytes) x = { x with toPlace := bytes, gaps := joined h bytes.length }) ∧
     ((∀ h : Gap, last = some h → h.reason ≠ .unreadable ∨ h.offset + h.len ≠ here) →
       placePiece (.data false bytes) x =
         { x with toPlace := bytes, gaps := x.gaps ++ [{ offset := here, len := bytes.length, reason := .unreadable }] })) ∧
  (∀ (ch : Fin 4) (s : State),
     let c := s.fetches[ch]
     (c.region = none → advanceRegion ch s = s.onFetch ch fun f => { f with state := .idle }) ∧
     (∀ r : Region, c.region = some r → r.runs = [] →
       advanceRegion ch s = s.onFetch ch fun f => { f with state := .idle, region := none }) ∧
     (∀ (r : Region) (x : Run) (rest : List Run), c.region = some r → r.runs = x :: rest →
       (x.permit = .deny → advanceRegion ch s = s.onFetch ch fun f =>
         { f with state := .delivering, piece := some (.omission x.len), region := some { r with runs := rest } }) ∧
       (x.permit = .read →
         let n := if x.len < 64 then x.len else 64
         let covered := [c.nextTag, r.space.code] ++ leBytes 4 x.start ++ leBytes 1 n
         advanceRegion ch s = s.onFetch ch fun f =>
           { f with state := .asking, nextTag := f.nextTag + 1, attempts := satInc f.attempts
                    transactions := satInc f.transactions
                    region := some { r with runs :=
                      if x.len ≤ 64 then rest else { x with start := x.start + 64, len := x.len - 64 } :: rest }
                    txn := some { space := r.space, addr := x.start, count := n, attempt := 1, tag := c.nextTag
                                  sent := 0xC6 :: covered ++ leBytes 2 (crc16 covered).toNat
                                  deadline := after s.time (100 + 1000 * (s.settings.fetch[ch]).timeout) } })))

/-- R89: a STREAM section whose FIFO has stayed empty ends COMPLETE when the effective quiet time has passed, and when
the entry's window from the capture's open time has run out; not before (log 2). R99: the retain timer runs out. -/
def Obligations.EngineTimersRunOut : Prop :=
  (∀ s : State, s.powered = true →
     let done := settle (s.onSection fun y => { y with ended := some .complete })
     (∀ (c : Capture) (e : PlanEntry) (t : PartTime), quietSection s = some (c, e, t) →
       let window := after c.openTime (1000000 * e.window.getD 0)
       let quietMs := if s.monitor.state = .normal ∧ reached s.time window = false then e.quiet.getD 0 else 0
       (reached s.time (after t (1000 * quietMs)) = true → exec .quietTimeExpiry s = .next done) ∧
       (reached s.time (after t (1000 * quietMs)) = false → exec .quietTimeExpiry s = .next s) ∧
       (reached s.time window = true → exec .streamWindowExpiry s = .next done) ∧
       (reached s.time window = false → exec .streamWindowExpiry s = .next s)) ∧
     (quietSection s = none → exec .quietTimeExpiry s = .next s ∧ exec .streamWindowExpiry s = .next s)) ∧
  (∀ s : State, s.powered = true →
     (∀ t : PartTime, s.engine.retainTimer = .running t → reached s.time t = true →
       let u := s.onEngine fun e => { e with retainTimer := .ranOut, retain := 0 }
       (s.engine.retain = 0 → exec .retainLapsed s = .next u) ∧
       (s.engine.retain ≠ 0 → exec .retainLapsed s = .next
         ((post .engine 0x0A [captureNumber s, s.engine.retain.toNat] u).onCapture fun c =>
           { c with walk := c.walk.take c.position ++ (c.walk.drop c.position).map fun i =>
               match (c.entryOf i).retain with
               | some k => if s.engine.retain.getLsbD k.val then { i with lapsed := true } else i
               | none => i }))) ∧
     (∀ t : PartTime, s.engine.retainTimer = .running t → reached s.time t = false → exec .retainLapsed s = .next s) ∧
     (s.engine.retainTimer = .stopped ∨ s.engine.retainTimer = .ranOut → exec .retainLapsed s = .next s))

/-- R100: PANIC_NOTE keeps the newest four notes, each of at most 240 bytes. R100, R11: CAPTURE is a trigger with source HOST
or MANUAL, answered when the engine answers; on the host link it is refused while the host hold-off runs. R101: ABORT_CAPTURE;
in OPENING it takes the engine to CLOSING at once, and the steps up to the head page go on before the close (log 22, the
model's choice). -/
def Obligations.EngineRequestsAct : Prop :=
  (∀ (p : PortId) (tag : Byte) (payload : List Byte) (s : State), servable p kPanicNote s = true →
     let full := 4 ≤ s.engine.notes.length
     let text := payload.take 240
     let notes := (if full then s.engine.notes.drop 1 else s.engine.notes) ++ [{ time := s.time, text := text }]
     exec (.panicNote p tag payload) s = .next (replied p kPanicNote tag .ok (decide (240 < payload.length))
       (leBytes 4 notes.length)
       (post .engine 0x23 [text.length, notes.length, if full then 1 else 0] (s.onEngine fun e => { e with notes := notes })))) ∧
  (∀ (p : PortId) (tag : Byte) (s : State), servable p kCapture s = true →
     (p = .host → s.trig.hostTimer = none → exec (.capture p tag []) s =
       .next (settle (trigger 9 (.port p) (inService p kCapture tag .trigger s)))) ∧
     (p ≠ .host → exec (.capture p tag []) s = .next (settle (trigger 10 (.port p) (inService p kCapture tag .trigger s)))) ∧
     (∀ t : PartTime, p = .host → s.trig.hostTimer = some t → exec (.capture p tag []) s = .next
       (replied p kCapture tag .refusedState false []
         (post (.port .host) 0x03 [0, max 1 (timerLeft 1000000 s.time (some t))]
           (s.onTrig fun u => { u with hostRefusals := satInc u.hostRefusals }))))) ∧
  (∀ (p : PortId) (tag : Byte) (payload : List Byte) (s : State), servable p kAbortCapture s = true → payload.length = 4 →
     let n := leNat payload
     (∀ c : Capture, current s = some c → (n = 0 ∨ n = c.number) → s.monitor.state ≠ .exhausted →
       let u := inService p kAbortCapture tag (.close c.number) s
       (s.engine.state = .gathering → exec (.abortCapture p tag payload) s = .next (settle (closeEarly .abort .aborted u))) ∧
       (s.engine.state = .opening → exec (.abortCapture p tag payload) s = .next (settle
         (u.onEngine fun e => { e with state := .closing, cause := if e.cause = .none then .abort else e.cause }))) ∧
       (s.engine.state = .closing → exec (.abortCapture p tag payload) s = .next (settle u))) ∧
     (∀ c : Capture, current s = some c → n ≠ 0 → n ≠ c.number → exec (.abortCapture p tag payload) s =
       .next (replied p kAbortCapture tag .notFound false [] s)) ∧
     (∀ c : Capture, current s = some c → (n = 0 ∨ n = c.number) → s.monitor.state = .exhausted →
       exec (.abortCapture p tag payload) s = .next (replied p kAbortCapture tag .holdup false [] s)) ∧
     (current s = none → exec (.abortCapture p tag payload) s = .next (replied p kAbortCapture tag .refusedState false [] s)))

/-- R84, R96: a walk entry reached is skipped or begins. R94, R95, R112: what a beginning meets first: the page cap, then the
test of the monitor (that order is the model's choice, log 55), the section-table entry, of which the lowest FREE one is taken
(log 14, the model's choice), and the journal room. R93, R95, R145: `seeks` says what the engine does for want of a table
entry or of a block; that it asks for a reclamation again after one, unless it was told that nothing can be had, is log 13
(DEDUCED). R84: a section begins with its table entry, its SECTION_BEGIN record and event, and its header. R28, R90: what a
HISTORY section takes; R91: a NOTE section; R89: a STREAM section's quiet period; R57, R60: a FETCH section's region, its
runs, and the ends DENIED_ALL and SOURCE_SILENT. R85: the steps and the end of a gathering. R93, R94, R96, R102: an early
close, in each phase; one decided while an entry waits to be skipped or to begin goes to the skips (log 43, the model's
choice); a gathering that has met its end keeps its outcome, but where the section itself lacks a page (log 18, DEDUCED). R85,
R86, R92, R112: the staging buffers: which buffer is given the next page, where bytes are placed, when a full one is queued
and the test that it meets, where the trailer goes (none is begun by a section that ended early and has no room in its last
page, log 18), and when the drain ends. R93: the allotment of a block (log 12, DEDUCED). MODEL'S CHOICES: an entry that finds
no table entry leaves the walk unrecorded, whatever it was to be (log 49), and a step is taken as soon as what it needs is
there (log 11). -/
def Obligations.SectionsBeginAndGather : Prop :=
  let seeks := fun (c : Capture) (s : State) (stillWaits : Bool) (dry run : Act) =>
    let pending := erasePending s = true
    (s.dir.reclaim ≠ none → run = .wait) ∧
    (s.dir.reclaim = none → c.asked = true → c.noReclaim = false → pending → run = .wait) ∧
    (s.dir.reclaim = none → c.asked = false ∨ c.noReclaim = true ∨ ¬ pending →
      (∀ d : DirEntry, c.noReclaim = false → reclaimable s = some d → run =
        if journalRoom s then .did (startReclaim d.cap (s.onCapture fun x => { x with asked := true })) else .wait) ∧
      (c.noReclaim = true ∨ reclaimable s = none →
        (stillWaits = true → pending → run = .wait) ∧ (stillWaits = false ∨ ¬ pending → run = dry)))
  (∀ (c : Capture) (item : WalkItem) (e : PlanEntry) (s : State),
     reachEntry e s = s.onEngine (fun g =>
       { g with phase := if e.cls = .extended ∧ s.monitor.state ≠ .normal then .secSkip else .secEnter }) ∧
     (c.snapshot.pageCap ≤ c.nextPage → sectionStart c item e s = .did (closeEarly .budget .skippedBudget s)) ∧
     (c.nextPage < c.snapshot.pageCap → ordinaryOk s = false → sectionStart c item e s = .did (powerClose s)) ∧
     (s.engine.capture = some c → c.nextPage < c.snapshot.pageCap → ordinaryOk s = true →
       (lowestFreeSection s.dir ≠ none → sectionStart c item e s =
         if journalRoom s then .did (beginSection c item e s) else .wait) ∧
       (lowestFreeSection s.dir = none → seeks c s false (.did (closeEarly .space .skippedSpace
         (s.onCapture fun x => { x with unrecorded := true, clean := false }))) (sectionStart c item e s))) ∧
     (∀ (i : Nat), lowestFreeSection s.dir = some i ↔ i < 1024 ∧ (∀ x ∈ s.dir.sections, x.1 ≠ i) ∧
       ∀ j : Nat, j < i → ∃ x ∈ s.dir.sections, x.1 = j)) ∧
  (∀ (k : CloseCause) (o : OutcomeCode) (s : State),
     let decided := s.onEngine fun g => { g with state := .closing, cause := if g.cause = .none then k else g.cause }
     (s.engine.phase = .secBegin ∨ s.engine.phase = .secSkip ∨ s.engine.phase = .secEnter →
       closeEarly k o s = decided.onEngine fun g => { g with phase := .skips }) ∧
     (∀ (c : Capture) (x : Section), s.engine.phase = .gather → s.engine.capture = some c → c.current = some x →
       (x.ended ≠ none → k ≠ .space → k ≠ .budget → closeEarly k o s = decided) ∧
       (x.ended = none ∨ k = .space ∨ k = .budget → closeEarly k o s = endGathering o true decided))) ∧
  (∀ (c : Capture) (item : WalkItem) (k i : Nat) (s : State), s.engine.capture = some c → c.cursor = some k →
     c.walk[k]? = some item → lowestFreeSection s.dir = some i →
     let e := c.snapshot.entries[item.entry]
     let u := beginSection c item e s
     let begun := s.ring.post s.time .engine 0x05
       [BitVec.ofNat 32 c.number, BitVec.ofNat 32 c.nextIndex, BitVec.ofNat 32 item.entry.val]
     let byte := fun o : Option Nat => match o with
       | some n => BitVec.ofNat 8 n
       | none => 0xFF
     let fresh : Section :=
       { index := c.nextIndex, first := c.nextPage, start := s.time, img := 0
         toPlace := [BitVec.ofNat 8 c.nextIndex, BitVec.ofNat 8 item.entry.val, e.kind.code, e.cls.code,
             byte (e.chan.map fun ch => ch.val), byte (e.space.map fun sp => sp.code.toNat), 0, 0] ++
           leBytes 4 (e.base.getD 0) ++ leBytes 4 e.limit ++ leBytes 6 s.time.toNat ++ leBytes 4 c.number ++ List.replicate 6 0
         items := [], records := 0, gaps := [], quietAt := none, ended := none, len := 0, outcome := .complete, early := false
         pages := none, done := [], stop := 0 }
     let started := fun x : Section => u.engine.capture = some { c with
       current := some x, nextIndex := c.nextIndex + 1, asked := false, noReclaim := false
       walk := c.walk.modify k fun y => { y with secIdx := some c.nextIndex } }
     let longest := fun (all took : List (List Byte)) => ∃ n : Nat, took = all.take n ∧ took.flatten.length ≤ e.limit ∧
       (n < all.length → e.limit < (all.take (n + 1)).flatten.length)
     u.dir = (hand (.sectionBegin c.number c.nextIndex item.entry.val e.kind c.nextPage s.time c.head) .engine
       (s.onDir fun d => { d with sections := d.sections ++ [(i, .reserved c.number)] })).dir ∧
     u.engine.phase = .gather ∧ u.engine.state = s.engine.state ∧ u.engine.bufs = s.engine.bufs ∧
     u.streams = s.streams ∧ u.store = s.store ∧ u.monitor = s.monitor ∧ u.link = s.link ∧
     (e.kind ≠ .fetch → u.ring = begun ∧ u.fetches = s.fetches) ∧ (e.kind ≠ .note → u.engine.notes = s.engine.notes) ∧
     (e.kind = .history → ∃ items : List (List Byte), started { fresh with items := items } ∧
       longest ((s.ring.historyRange c.trigSeq c.postCount).map EventRec.bytes) items) ∧
     (e.kind = .note → ∃ items : List (List Byte), started { fresh with items := items } ∧
       longest (s.engine.notes.map fun n => leBytes 6 n.time.toNat ++ leBytes 2 n.text.length ++ n.text) items ∧
       u.engine.notes = s.engine.notes.drop items.length) ∧
     (∀ ch : Fin 4, e.kind = .stream → e.chan = some ch →
       started { fresh with quietAt := if (s.streams[ch]).fifo = [] then some s.time else none }) ∧
     (∀ (ch : Fin 4) (sp : Space) (base : Nat), e.kind = .fetch → e.chan = some ch → e.space = some sp → e.base = some base →
       let runs := regionRuns s.settings.fetch[ch] sp base e.limit
       let denied := ∀ r ∈ runs, r.permit = .deny
       let mute := (s.fetches[ch]).state = .disabled ∨ (s.fetches[ch]).silent = some c.number
       let asked := s.onFetch ch fun f => { f with failures := 0 }
       (denied → u.ring = begun ∧ u.fetches = asked.fetches ∧
         started { fresh with gaps := [{ offset := 0, len := e.limit, reason := .denied }], ended := some .deniedAll }) ∧
       (¬ denied → mute → u.fetches = asked.fetches ∧ started { fresh with ended := some .sourceSilent } ∧
         u.ring = begun.post s.time (.fetch ch) 0x0D
           [BitVec.ofNat 32 sp.code.toNat, BitVec.ofNat 32 base, BitVec.ofNat 32 e.limit]) ∧
       (¬ denied → ¬ mute → u.ring = begun ∧ started fresh ∧ u.fetches = (advanceRegion ch (s.onFetch ch fun f =>
         { f with failures := 0
                  region := some { space := sp, base := base, len := e.limit, runs := runs, silent := false } })).fetches))) ∧
  (∀ (r : Ring) (f p : BitVec 32) (post : Nat), r.consecutive → r.pin = some p →
     let far := fun q : BitVec 32 => (q - r.oldest).toNat
     let held := fun q : BitVec 32 => decide (far q < r.records.length)
     let last := f + BitVec.ofNat 32 post
     r.historyRange f post = r.records.filter fun y =>
       (held f || held last) && decide (far p ≤ far y.seq) && (!held last || decide (far y.seq ≤ far last))) ∧
  (∀ (cfg : FetchCfg) (sp : Space) (base len : Nat),
     let runs := regionRuns cfg sp base len
     runs.length ≤ 9 ∧ (runs.map fun r => r.len).sum = len ∧ (len ≠ 0 → (runs.head?.map fun r => r.start) = some base) ∧
     (∀ (i : Nat) (x y : Run), runs[i]? = some x → runs[i + 1]? = some y → y.start = x.start + x.len) ∧
     ∀ x ∈ runs, 0 < x.len ∧ x.window = decidingWindow cfg sp x.start ∧ x.permit = permitOf cfg x.window ∧
       x.start + x.len = runStop cfg sp x.start (base + len)) ∧
  (∀ (c : Capture) (x : Section) (e : PlanEntry) (o : OutcomeCode) (s : State), s.engine.capture = some c →
     c.current = some x →
     let ended := fun o : OutcomeCode => s.onEngine fun g => { g with
       phase := .trailer
       capture := some { c with current := some { x with
         toPlace := [], items := [], quietAt := none, ended := none, len := x.img - 32, outcome := o, early := false
         stop := x.img } } }
     (x.ended = some o → gatherStep c x e s = .did (ended o)) ∧
     (x.ended = none → e.kind = .history ∨ e.kind = .note →
       (x.items = [] → gatherStep c x e s = .did (ended .complete)) ∧
       (∀ (y : List Byte) (ys : List (List Byte)), x.items = y :: ys → gatherStep c x e s =
         .did (s.onSection fun z => { z with toPlace := y, items := ys, records := z.records + 1 })))) ∧
  (∀ s : State, erasePending s = true ↔ (∃ b : Nat, s.store.flight = some (.erase .area b)) ∨
     (s.monitor.state = .normal ∧ ∃ b : Nat, .erase .area b ∈ s.store.queue)) ∧
  (∀ (k : CloseCause) (o : OutcomeCode) (s : State),
     let decided := s.onEngine fun g => { g with state := .closing, cause := if g.cause = .none then k else g.cause }
     let lacks := k = .space ∨ k = .budget
     (s.engine.phase = .openSlot ∨ s.engine.phase = .openRecord ∨ s.engine.phase = .openHead ∨ s.engine.phase = .headWait →
       closeEarly k o s = decided.onEngine fun g => { g with phase := .drain }) ∧
     (∀ (c : Capture) (x : Section), s.engine.capture = some c → c.current = some x →
       let short := fun (ph : Phase) (y : Section) => closeEarly k o s = decided.onEngine fun g =>
         { g with phase := ph, capture := some { c with current := some { y with outcome := o, early := true } } }
       (s.engine.phase = .trailer → lacks → short .trailer x) ∧
       (s.engine.phase = .placeTrailer → lacks → short .drain { x with toPlace := [] }) ∧
       (s.engine.phase = .trailer ∨ s.engine.phase = .placeTrailer → ¬ lacks → closeEarly k o s = decided)) ∧
     (s.engine.phase = .rest ∨ s.engine.phase = .drain ∨ s.engine.phase = .secEnd ∨ s.engine.phase = .secRecord ∨
         s.engine.phase = .skips ∨ s.engine.phase = .closeRecord ∨ s.engine.phase = .closeWait →
       closeEarly k o s = decided)) ∧
  (∀ (o : OutcomeCode) (early : Bool) (c : Capture) (x : Section) (s : State), s.engine.capture = some c →
     c.current = some x → endGathering o early s = { s with
       fetches := if early then (withdrawFor c s).fetches else s.fetches
       engine := { s.engine with
         phase := .trailer
         capture := some { c with current := some { x with
           toPlace := [], items := [], quietAt := none, ended := none, len := x.img - 32, outcome := o, early := early
           stop := x.img } } } }) ∧
  (∀ (c : Capture) (start : Nat) (bytes : List Byte) (isHead : Bool) (s : State),
     let run := giveBuffer c start bytes isHead s
     let empty := fun i : Fin 4 => (s.engine.bufs[i]).state = .empty
     let cap := c.snapshot.pageCap
     ((∀ i : Fin 4, ¬ empty i) → run = .wait) ∧
     (∀ i : Fin 4, empty i → (∀ j : Fin 4, j < i → ¬ empty j) →
       (cap ≤ c.nextPage → run = .did (closeEarly .budget .skippedBudget s)) ∧
       (c.nextPage < cap → c.blocks.length ≤ c.nextPage / 128 → run = allotBlock (closeEarly .space .skippedSpace) s) ∧
       (c.nextPage < cap → c.nextPage / 128 < c.blocks.length → s.engine.capture = some c → run = .did (s.onEngine fun g => { g with
         capture := some { c with nextPage := c.nextPage + 1 }
         bufs := vset g.bufs i
           { state := .filling, cap := c.number, page := c.nextPage, start := start, bytes := bytes, part := false
             accepted := false, isHead := isHead, retried := false, flush := false } })))) ∧
  (∀ (c : Capture) (x : Section) (s : State), s.engine.capture = some c → c.current = some x →
     let empty := fun i : Fin 4 => (s.engine.bufs[i]).state = .empty
     let filling := fun i : Fin 4 => (s.engine.bufs[i]).state = .filling
     let cap := c.snapshot.pageCap
     let placed := fun (n : Nat) (d : Capture) (i : Fin 4) (b : Buf) => placeStep c x s = .did (s.onEngine fun g => { g with
       bufs := vset g.bufs i b
       capture := some { d with current := some { x with toPlace := x.toPlace.drop n, img := x.img + min n x.toPlace.length } } })
     (∀ i : Fin 4, filling i → (∀ j : Fin 4, j < i → ¬ filling j) →
       let b := s.engine.bufs[i]
       let room := 512 - b.bytes.length
       (room = 0 → placeStep c x s = .did (queueData i s)) ∧
       (room ≠ 0 → placed room c i { b with bytes := b.bytes ++ x.toPlace.take room })) ∧
     ((∀ i : Fin 4, ¬ filling i) → s.engine.phase = .gather ∨ s.engine.phase = .placeTrailer →
       ((∀ i : Fin 4, ¬ empty i) → placeStep c x s = .wait) ∧
       (∀ i : Fin 4, empty i → (∀ j : Fin 4, j < i → ¬ empty j) →
         (cap ≤ c.nextPage → placeStep c x s = .did (closeEarly .budget .skippedBudget s)) ∧
         (c.nextPage < cap → c.blocks.length ≤ c.nextPage / 128 →
           placeStep c x s = allotBlock (closeEarly .space .skippedSpace) s) ∧
         (c.nextPage < cap → c.nextPage / 128 < c.blocks.length → placed 512 { c with nextPage := c.nextPage + 1 } i
           { state := .filling, cap := c.number, page := c.nextPage, start := x.img, bytes := x.toPlace.take 512, part := false
             accepted := false, isHead := false, retried := false, flush := false })))) ∧
  (∀ (i : Fin 4) (s : State),
     let b := s.engine.bufs[i]
     let may := b.flush = true ∨ b.isHead = true ∨ s.monitor.state = .normal ∨
       (s.monitor.state ≠ .exhausted ∧ 6 < s.monitor.remaining)
     (may → queueData i s = { s with
       engine := { s.engine with bufs := vset s.engine.bufs i { b with state := .queued, part := decide (b.bytes.length < 512) } }
       store := { s.store with queue := s.store.queue ++ [.buf i] } }) ∧
     (¬ may → queueData i s = powerClose s)) ∧
  (∀ (c : Capture) (x : Section) (item : WalkItem) (s : State), s.engine.capture = some c → c.current = some x →
     c.walk[c.cursor.getD 0]? = some item →
     let run := trailerStep c x s
     let bytes := trailerBytes x.outcome item.lapsed x.len x.records x.gaps
     let filling := fun i : Fin 4 => (s.engine.bufs[i]).state = .filling
     let fits := ∃ i : Fin 4, filling i ∧ (∀ j : Fin 4, j < i → ¬ filling j) ∧
       bytes.length + (s.engine.bufs[i]).bytes.length ≤ 512
     let placed := s.onEngine fun g => { g with
       phase := .placeTrailer, capture := some { c with current := some { x with toPlace := bytes } } }
     (fits → run = .did placed) ∧
     (¬ fits → x.early = true → run = .did (s.onEngine fun g => { g with phase := .drain })) ∧
     (¬ fits → x.early = false →
       (c.snapshot.pageCap ≤ c.nextPage → run = .did (closeEarly .budget .skippedBudget s)) ∧
       (c.nextPage < c.snapshot.pageCap → c.blocks.length ≤ c.nextPage / 128 →
         run = allotBlock (closeEarly .space .skippedSpace) s) ∧
       (c.nextPage < c.snapshot.pageCap → c.nextPage / 128 < c.blocks.length → run = .did placed))) ∧
  (∀ s : State,
     let filling := fun i : Fin 4 => (s.engine.bufs[i]).state = .filling
     (∀ i : Fin 4, filling i → (∀ j : Fin 4, j < i → ¬ filling j) → drainStep s = .did (queueData i s)) ∧
     ((∀ i : Fin 4, ¬ filling i) → drainStep s = .did (s.onEngine fun g => { g with phase := .secEnd }))) ∧
  (∀ (c : Capture) (s : State),
     let is := fun (st : BufState) (i : Fin 4) => (s.engine.bufs[i]).state = st
     let moves := fun ph : Phase => s.onEngine fun g => { g with phase := ph }
     ((∃ i : Fin 4, is .filling i) → sectionEndStep c s = .did (moves .drain)) ∧
     ((∀ i : Fin 4, ¬ is .filling i) → (∃ i : Fin 4, ¬ is .empty i) → sectionEndStep c s = .wait) ∧
     ((∀ i : Fin 4, is .empty i) →
       (∀ (x : Section) (item : WalkItem), c.current = some x → c.walk[c.cursor.getD 0]? = some item →
         sectionEndStep c s = .did (sectionEnd c x c.snapshot.entries[item.entry] s)) ∧
       (c.current = none → sectionEndStep c s = .did (moves .skips)))) ∧
  (∀ (dry : State → State) (c : Capture) (s : State), s.engine.capture = some c →
     let run := allotBlock dry s
     (ordinaryOk s = false → run = .did (powerClose s)) ∧
     (ordinaryOk s = true → (∃ i : Fin 60, s.store.blocks[i] = .free) → journalRoom s = false → run = .wait) ∧
     (ordinaryOk s = true → (∀ i : Fin 60, s.store.blocks[i] ≠ .free) → seeks c s true (.did (dry s)) run))

/-- R85: the end of a section: its claim falls, the last HISTORY section releases the pin, SECTION_DONE is posted and its
record handed over, its retain line's count falls and the line is released at 0 (R98), and the cursor moves; whether all of its
trailer stands in its accepted pages is kept (R152, log 42, the model's reading). R102, R103: the
capture's outcome, and what the acceptance of its CAPTURE_CLOSE record does: pin, claims, lines, silent marks and timers,
CAPTURE_CLOSED and its notice, the engine in IDLE, the re-arm timers (R8), the host hold-off (R11) and the waiting
ABORT_CAPTURE (R101). The pages of a corner case: log 17 (DEDUCED). R81: the opening's record and its head page. R96, R102: a
skipped entry, its record, event and counts, for power or at the close, or without a table entry (log 49, the model's choice;
`seeks`: log 13). R102: the CAPTURE_CLOSE record. R113: the gate that a close under holdup passes with 6 programs left, once
for each episode (log 16, DEDUCED), and what engine step is taken before and after it: owed records (log 43), the gate, the
buffers that are refused, the buffers whose pages need a block that cannot be had (R93), and else the phase's own step (log
11, the model's choice), none under the power stall but an opening that waits for its slot (R145, log 22) and a gathering that
ends at once (R96, R115, log 50). -/
def Obligations.SectionsAndCapturesEnd : Prop :=
  let seeks := fun (c : Capture) (s : State) (stillWaits : Bool) (dry run : Act) =>
    let pending := erasePending s = true
    (s.dir.reclaim ≠ none → run = .wait) ∧
    (s.dir.reclaim = none → c.asked = true → c.noReclaim = false → pending → run = .wait) ∧
    (s.dir.reclaim = none → c.asked = false ∨ c.noReclaim = true ∨ ¬ pending →
      (∀ d : DirEntry, c.noReclaim = false → reclaimable s = some d → run =
        if journalRoom s then .did (startReclaim d.cap (s.onCapture fun x => { x with asked := true })) else .wait) ∧
      (c.noReclaim = true ∨ reclaimable s = none →
        (stillWaits = true → pending → run = .wait) ∧ (stillWaits = false ∨ ¬ pending → run = dry)))
  (∀ (c : Capture) (x : Section) (e : PlanEntry) (s : State),
     let u := sectionEnd c x e s
     let unpin : Bool := e.kind = .history &&
       (c.walk.drop (c.position + 1)).all fun i => (c.snapshot.entries[i.entry]).kind ≠ .history
     u.engine = { s.engine with phase := .secRecord } ∧ u.dir = s.dir ∧
     u.ring = ({ s.ring with pin := if unpin then none else s.ring.pin }).post s.time .engine 0x06
       [BitVec.ofNat 32 x.index, BitVec.ofNat 32 x.outcome.code.toNat, BitVec.ofNat 32 x.len] ∧
     ∀ ch : Fin 4, u.streams[ch] = if e.kind = .stream ∧ e.chan = some ch then
       { s.streams[ch] with claim := match (s.streams[ch]).claim with
           | none => none
           | some y => if y.count ≤ 1 then none else some { y with count := y.count - 1 } } else s.streams[ch]) ∧
  (∀ (c : Capture) (x : Section) (item : WalkItem) (e : PlanEntry) (s : State), s.engine.capture = some c →
     let u := sectionRecordStep c x item e s
     let walkOver := c.walk.length ≤ c.position + 1
     u.dir = (hand (.sectionDone c.number x.index item.entry.val e.kind x.outcome x.len x.first
       (x.pages.getD (c.nextPage - x.first)) x.gaps.length c.head) .engine { s with dir := { s.dir with
         trailers := s.dir.trailers ++ [{ cap := c.number, index := x.index
                                          written := x.done.any fun p => x.stop + 16 + 8 * min 16 x.gaps.length ≤ p.stop }] } }).dir ∧
     u.engine.capture = some { c with
       clean := c.clean && (x.outcome = .complete || x.outcome = .limited), cursor := some (c.position + 1), current := none } ∧
     u.engine.phase = (if s.engine.state = .closing then .skips else if walkOver then .closeRecord else .secBegin) ∧
     u.engine.state = (if s.engine.state = .closing ∨ walkOver then .closing else s.engine.state) ∧
     (e.retain = none → u.ring = s.ring ∧ u.engine.retain = s.engine.retain ∧ u.engine.retainCount = s.engine.retainCount) ∧
     (∀ k : Fin 8, e.retain = some k →
       let n := s.engine.retainCount[k] - 1
       u.engine.retainCount = vset s.engine.retainCount k n ∧
       (n = 0 → s.engine.retain.getLsbD k.val = true → u.engine.retain = setBit s.engine.retain k.val false ∧
         u.ring = s.ring.post s.time .engine 0x09 [BitVec.ofNat 32 c.number, BitVec.ofNat 32 k.val]) ∧
       (n ≠ 0 ∨ s.engine.retain.getLsbD k.val = false → u.engine.retain = s.engine.retain ∧ u.ring = s.ring))) ∧
  (∀ (cause : CloseCause) (c : Capture), captureOutcome cause c = match cause with
     | .power => .truncatedPower
     | .space => .truncatedSpace
     | .budget => .truncatedBudget
     | .abort => .aborted
     | .none => if c.clean then .complete else .partialDone) ∧
  (∀ (x : Slotted) (c : Capture) (e : DirEntry) (o : OutcomeCode) (t : PartTime) (g : TrigSet) (h : Option Nat) (s : State),
     x.who = .engine → x.record = .captureClose c.number o t g h → s.engine.capture = some c →
     findEntry s.dir c.number = some e →
     let u := recordAccepted x s
     let d := recordEffect x.record s.dir
     let closed : DirEntry := { e with state := .closed, outcome := some o, closeTime := some t, trig := g, head := h }
     let pages := min (capturePages { s with dir := d } closed) c.snapshot.pageCap
     u.dir = d ∧ findEntry d c.number = some closed ∧
     (∀ k : Nat, h = some k → capturePages { s with dir := d } closed =
       k + 1 + ((sectionsOf d closed).map fun y => y.pages).sum) ∧
     u.ring = (((List.finRange 8).filter fun k => s.engine.retain.getLsbD k.val).foldl
       (fun (r : Ring) (k : Fin 8) => r.post s.time .engine 0x09 [BitVec.ofNat 32 c.number, BitVec.ofNat 32 k.val])
       { s.ring with pin := none }).post s.time .engine 0x07
         [BitVec.ofNat 32 c.number, BitVec.ofNat 32 o.code.toNat, BitVec.ofNat 32 pages] ∧
     u.engine = { s.engine with
       state := .idle, phase := .rest, capture := none, cause := .none, stall := false, retain := 0
       retainTimer := .stopped, retainCount := Vector.replicate 8 0 } ∧
     (∀ ch : Fin 4, u.streams[ch] = { s.streams[ch] with claim := none }) ∧
     (∀ ch : Fin 4, u.fetches[ch] = { s.fetches[ch] with silent := none }) ∧
     (∀ p : PortId, (u.port p).notices = setBit (s.port p).notices 1 true) ∧
     u.trig.hostTimer = (if c.trig.getLsbD 9 = true ∧ s.settings.hostHoldoff ≠ 0
       then some (after s.time (1000000 * s.settings.hostHoldoff)) else s.trig.hostTimer) ∧
     (∀ n : Fin 8, u.trig.terms[n] =
       let y := s.trig.terms[n]
       if y.assoc = some c.number ∧ y.state = .fired ∧ (s.settings.terms[n]).rearm ≠ 0 then
         { y with rearmAt := some (after s.time (1000000 * (s.settings.terms[n]).rearm)) } else y) ∧
     (∀ (p : PortId) (r : InService), (s.port p).service = some r → r.wait = .close c.number → (u.port p).service = none ∧
       (u.port p).tx = (s.port p).tx ++ [mkReply r.kind r.tag .ok false (leBytes 4 c.number ++ [o.code])])) ∧
  (∀ (c : Capture) (s : State),
     openRecordStep c s = if journalRoom s then .did ((hand (.captureOpen c.number c.trigOpen c.first c.epoch.isSome c.openTime
       (c.epoch.getD 0)) .engine s).onEngine fun g => { g with phase := .openHead }) else .wait) ∧
  (∀ (c : Capture) (s : State), s.engine.capture = some c → s.engine.phase = .openHead →
     (∀ i : Fin 4, (s.engine.bufs[i]).state ≠ .filling) →
     let empty := fun i : Fin 4 => (s.engine.bufs[i]).state = .empty
     ((∀ i : Fin 4, ¬ empty i) → openHeadStep c s = .wait) ∧
     (∀ i : Fin 4, empty i → (∀ j : Fin 4, j < i → ¬ empty j) →
       (c.snapshot.pageCap ≤ c.nextPage → openHeadStep c s = .did (closeEarly .budget .skippedBudget s)) ∧
       (c.nextPage < c.snapshot.pageCap → c.blocks.length ≤ c.nextPage / 128 →
         openHeadStep c s = allotBlock (closeEarly .space .skippedSpace) s) ∧
       (c.nextPage < c.snapshot.pageCap → c.nextPage / 128 < c.blocks.length → openHeadStep c s = .did { s with
         store := { s.store with queue := s.store.queue ++ [.buf i] }
         engine := { s.engine with
           phase := .headWait, capture := some { c with nextPage := c.nextPage + 1 }
           bufs := vset s.engine.bufs i
             { state := .queued, cap := c.number, page := c.nextPage, start := 0, part := true, accepted := false, isHead := true
               retried := false, flush := false
               bytes := leBytes 4 c.number ++ leBytes 2 c.trigOpen.toNat ++
                 [BitVec.ofNat 8 c.first, if c.epoch.isSome then 1 else 0] ++ leBytes 6 c.openTime.toNat ++
                 leBytes 8 (c.epoch.getD 0).toNat ++ List.replicate 10 0 } } }))) ∧
  (∀ (f dry : State → State) (c : Capture) (s : State), s.engine.capture = some c →
     (lowestFreeSection s.dir ≠ none → withTableEntry f dry s = if journalRoom s then .did (f s) else .wait) ∧
     (lowestFreeSection s.dir = none → seeks c s false (.did (dry s)) (withTableEntry f dry s))) ∧
  (∀ (o : OutcomeCode) (c : Capture) (item : WalkItem) (k i : Nat) (s : State), s.engine.capture = some c →
     c.cursor.getD 0 = k → lowestFreeSection s.dir = some i →
     let e := c.snapshot.entries[item.entry]
     let u := skipEntry o c item e s
     let unpin : Bool := e.kind = .history &&
       (c.walk.drop (k + 1)).all fun y => (c.snapshot.entries[y.entry]).kind ≠ .history
     let told := ({ s.ring with pin := if unpin then none else s.ring.pin }).post s.time .engine 0x06
       [BitVec.ofNat 32 c.nextIndex, BitVec.ofNat 32 o.code.toNat, 0]
     u.dir = (hand (.sectionDone c.number c.nextIndex item.entry.val e.kind o 0 c.nextPage 0 0 c.head) .engine
       (s.onDir fun d => { d with sections := d.sections ++ [(i, .reserved c.number)] })).dir ∧
     u.engine.capture = some { c with
       clean := false, nextIndex := c.nextIndex + 1, cursor := some (k + 1), current := none, asked := false, noReclaim := false
       walk := c.walk.modify k fun y => { y with secIdx := some c.nextIndex } } ∧
     u.engine.phase = s.engine.phase ∧ u.engine.state = s.engine.state ∧ u.engine.bufs = s.engine.bufs ∧
     (∀ ch : Fin 4, u.streams[ch] = if e.kind = .stream ∧ e.chan = some ch then
       { s.streams[ch] with claim := match (s.streams[ch]).claim with
           | none => none
           | some y => if y.count ≤ 1 then none else some { y with count := y.count - 1 } } else s.streams[ch]) ∧
     (e.retain = none → u.ring = told ∧ u.engine.retain = s.engine.retain ∧ u.engine.retainCount = s.engine.retainCount) ∧
     (∀ l : Fin 8, e.retain = some l →
       let n := s.engine.retainCount[l] - 1
       u.engine.retainCount = vset s.engine.retainCount l n ∧
       (n = 0 → s.engine.retain.getLsbD l.val = true → u.engine.retain = setBit s.engine.retain l.val false ∧
         u.ring = told.post s.time .engine 0x09 [BitVec.ofNat 32 c.number, BitVec.ofNat 32 l.val]) ∧
       (n ≠ 0 ∨ s.engine.retain.getLsbD l.val = false → u.engine.retain = s.engine.retain ∧ u.ring = told))) ∧
  (∀ (c : Capture) (item : WalkItem) (e : PlanEntry) (s : State),
     sectionSkip c item e s = withTableEntry (fun t => afterSection (skipEntry .skippedPower c item e t))
       (fun t => closeEarly .space .skippedSpace (t.onCapture fun d => { d with unrecorded := true, clean := false })) s) ∧
  (∀ (c : Capture) (s : State), s.engine.capture = some c →
     let ended := c.walk.length ≤ c.cursor.getD 0
     afterSection s = s.onEngine fun g => { g with
       phase := if g.state = .closing then .skips else if ended then .closeRecord else .secBegin
       state := if ended then .closing else g.state }) ∧
  (∀ (c : Capture) (s : State),
     (c.walk[c.cursor.getD 0]? = none ∨ c.unrecorded = true →
       skipStep c s = .did (s.onEngine fun g => { g with phase := .closeRecord })) ∧
     (∀ item : WalkItem, c.walk[c.cursor.getD 0]? = some item → c.unrecorded = false →
       let o : OutcomeCode := match s.engine.cause with
         | .space => .skippedSpace
         | .budget => .skippedBudget
         | .power => .skippedPower
         | .abort => .skippedAbort
         | .none => .skippedAbort
       skipStep c s = withTableEntry (skipEntry o c item c.snapshot.entries[item.entry])
         (fun t => t.onCapture fun d => { d with unrecorded := true, clean := false }) s)) ∧
  (∀ (c : Capture) (s : State),
     closeRecordStep c s = if journalRoom s then .did ((hand
       (.captureClose c.number (captureOutcome s.engine.cause c) s.time c.trig c.head) .engine s).onEngine fun g =>
         { g with phase := .closeWait }) else .wait) ∧
  (∀ (c : Capture) (s : State),
     let waits := s.monitor.state ≠ .normal ∧ (s.dir.comp.held = true ∨
       (s.dir.comp.state = .clearing ∧ ∀ b : Nat, s.store.flight ≠ some (.erase .journal b)))
     let slotted := ∃ (x : Slotted) (o : OutcomeCode) (t : PartTime) (g : TrigSet) (h : Option Nat),
       x ∈ s.dir.slotted ∧ x.record = .captureClose c.number o t g h
     let unpaid := s.monitor.remaining < 6 ∨ (waits ∧ ¬ slotted)
     (unpaid → closeGate c s = applyExhaustion (s.onEngine fun g => { g with stall := true })) ∧
     (¬ unpaid → closeGate c s = s.onCapture fun d => { d with closeOn := true })) ∧
  (∀ (c : Capture) (s : State), current s = some c → s.engine.phase ≠ .openSlot →
     let normal := s.monitor.state = .normal
     let may := normal ∨ (s.monitor.state ≠ .exhausted ∧ 6 < s.monitor.remaining)
     let waits := ¬ normal ∧ (s.dir.comp.held = true ∨
       (s.dir.comp.state = .clearing ∧ ∀ b : Nat, s.store.flight ≠ some (.erase .journal b)))
     let slotted := ∃ (x : Slotted) (o : OutcomeCode) (t : PartTime) (g : TrigSet) (h : Option Nat),
       x ∈ s.dir.slotted ∧ x.record = .captureClose c.number o t g h
     let gate := ¬ normal ∧ (s.engine.state = .closing ∨ ¬ may) ∧ (c.closeOn = false ∨ (waits ∧ ¬ slotted))
     let unstarted := fun i : Fin 4 => (s.engine.bufs[i]).state = .filling ∨ (s.engine.bufs[i]).state = .queued
     let refused := s.engine.state ≠ .closing ∧ ¬ may ∧ ∃ i : Fin 4, unstarted i
     let moved := ∃ i : Fin 4, unstarted i ∧ c.blocks.length ≤ (s.engine.bufs[i]).page / 128
     (endsAtOnce c s = none →
       (s.engine.stall = true → engineStep s = .wait) ∧
       (s.engine.stall = false →
         (∀ (r : JRec) (rest : List JRec), c.owed = r :: rest → engineStep s =
           if journalRoom s then .did (hand r .engine (s.onCapture fun d => { d with owed := rest })) else .wait) ∧
         (c.owed = [] →
           (gate → engineStep s = .did (closeGate c s)) ∧
           (¬ gate → refused → engineStep s = .did (powerClose s)) ∧
           (¬ gate → ¬ refused → moved →
             engineStep s = allotBlock (cutSection .space .skippedSpace fun b => c.blocks.length ≤ b.page / 128) s) ∧
           (¬ gate → ¬ refused → ¬ moved → engineStep s = match s.engine.phase with
             | .rest | .openSlot | .headWait | .closeWait => .wait
             | .openRecord => openRecordStep c s
             | .openHead => openHeadStep c s
             | .secBegin => match c.entryHere with
               | some e => .did (reachEntry e s)
               | none => .wait
             | .secSkip => match c.itemHere with
               | some item => sectionSkip c item c.snapshot.entries[item.entry] s
               | none => .wait
             | .secEnter => match c.itemHere with
               | some item => sectionStart c item c.snapshot.entries[item.entry] s
               | none => .wait
             | .gather | .trailer | .placeTrailer | .secRecord => sectionStep c s
             | .drain => drainStep s
             | .secEnd => sectionEndStep c s
             | .skips => skipStep c s
             | .closeRecord => closeRecordStep c s))))) ∧
  (∀ (c : Capture) (s : State), current s = some c →
     (s.engine.phase ≠ .gather ∨ c.current = none → endsAtOnce c s = none) ∧
     (∀ (x : Section) (item : WalkItem), s.engine.phase = .gather → c.current = some x → c.walk[c.cursor.getD 0]? = some item →
       let e := c.snapshot.entries[item.entry]
       let normal := s.monitor.state = .normal
       let extended := e.cls = .extended ∧ ¬ normal
       let dried := ∀ ch : Fin 4, e.chan = some ch → (s.streams[ch]).fifo = []
       let spent := ¬ normal ∨ reached s.time (after c.openTime (1000000 * e.window.getD 0)) = true ∨ e.quiet.getD 0 = 0
       let quiet := e.kind = .stream ∧ x.ended = none ∧ dried ∧ spent
       (extended → endsAtOnce c s = some (endGathering .skippedPower true s)) ∧
       (¬ extended → quiet → endsAtOnce c s = some (s.onSection fun y => { y with ended := some .complete })) ∧
       (¬ extended → ¬ quiet → s.engine.stall = true → x.toPlace = [] →
         endsAtOnce c s = x.ended.map fun o => endGathering o false s) ∧
       (¬ extended → ¬ quiet → s.engine.stall = false ∨ x.toPlace ≠ [] → endsAtOnce c s = none) ∧
       (sectionStep c s = if ordinaryOk s = false then .did (powerClose s)
         else if x.toPlace ≠ [] then placeStep c x s
         else match fillingBuf s with
           | some i => if 512 ≤ (s.engine.bufs[i]).bytes.length then .did (queueData i s) else gatherStep c x e s
           | none => gatherStep c x e s))) ∧
  (∀ (c : Capture) (x : Section) (item : WalkItem) (s : State), c.current = some x →
     c.walk[c.cursor.getD 0]? = some item →
     (s.engine.phase = .trailer → sectionStep c s = trailerStep c x s) ∧
     (s.engine.phase = .placeTrailer → sectionStep c s =
       if x.toPlace = [] then .did (s.onEngine fun g => { g with phase := .drain }) else placeStep c x s) ∧
     (s.engine.phase = .secRecord → sectionStep c s = if journalRoom s
       then .did (sectionRecordStep c x item c.snapshot.entries[item.entry] s) else .wait)) ∧
  (∀ (c : Capture) (s : State), current s = some c → s.engine.phase = .openSlot →
     (∀ i : Fin 32, s.dir.slots[i] = .free → (∀ j : Fin 32, j < i → s.dir.slots[j] ≠ .free) →
       engineStep s = .did (openCapture i.val s)) ∧
     ((∀ i : Fin 32, s.dir.slots[i] ≠ .free) → s.dir.reclaim = none → c.noReclaim = true →
       engineStep s = .did (refuseOpening .power s)) ∧
     ((∀ i : Fin 32, s.dir.slots[i] ≠ .free) → s.dir.reclaim = none → c.noReclaim = false →
       (c.asked = false ∨ erasePending s = false) →
       (reclaimable s = none → engineStep s = .did (refuseOpening .full s)) ∧
       (∀ d : DirEntry, reclaimable s = some d → engineStep s = if journalRoom s then
         .did (startReclaim d.cap (s.onCapture fun x => { x with asked := true })) else .wait))) ∧
  (∀ (r : Refuse) (c : Capture) (s : State), s.engine.capture = some c →
     let u := refuseOpening r s
     let waits := fun (p : PortId) (w : Wait) => ∃ v : InService, (s.port p).service = some v ∧ v.wait = w
     ((∀ p : PortId, ¬ waits p (.close c.number) ∧ ¬ waits p (.restartClose c.number)) →
       u = refuseTrigger c.first c.sender r (s.onEngine fun g =>
         { g with state := .idle, phase := .rest, capture := none, cause := .none, stall := false })) ∧
     (∀ (p : PortId) (v : InService), c.sender ≠ .port p → (s.port p).service = some v → v.wait = .close c.number →
       u.port p = { s.port p with service := none, tx := (s.port p).tx ++ [mkReply v.kind v.tag .refusedState false []] }))

/-! ## Holdup operation (chapter 7) -/

/-- R109: the allowance. -/
def Obligations.AllowanceArithmetic : Prop :=
  (∀ (st : Settings) (sample : Nat),
    let vh := if 15000 < sample then 15000 else sample
    let d := if st.vmin < vh then vh * vh - st.vmin * st.vmin else 0
    let a := (st.cuf * d / 2000000) * st.eff / 100 / st.epage
    allowanceFor st sample = (if 65535 < a then 65535 else a) ∧
    (st.cuf ≤ 65000 → st.cuf * d ≤ 14625000000000) ∧ (vh ≤ st.vmin → allowanceFor st sample = 0) ∧
    (st.cuf ≤ 65000 → 3000 ≤ st.vmin → st.eff ≤ 100 → 1 ≤ st.epage → a ≤ 7020000)) ∧
  allowanceFor { Settings.initial with cuf := 65000, vmin := 3000, eff := 100, epage := 1 } 15000 = 65535

/-- R106, R107: PFAIL asserted in NORMAL begins an episode with a sample and its allowance; in RECOVERING it returns to HOLDUP
with what it holds. R107: a release of PFAIL in HOLDUP or EXHAUSTED starts the debounce timer in RECOVERING. MODEL'S CHOICE
(log 3): asserted in HOLDUP or EXHAUSTED, and released in NORMAL or RECOVERING, it sets the level alone. R107, R96, R116,
R124: the debounce timer runs out; before that, and outside RECOVERING, nothing happens (log 2). R110: after 32 programs since
the last sample, in HOLDUP and in RECOVERING, a re-sample takes the smaller allowance and the exhaustion test follows;
otherwise nothing happens (log 2). R116: an erase of STORE_SETTINGS that has not started is taken back and its request
answered HOLDUP, and the other erases stay queued. R177: a forced RESTART that waits for its close is answered HOLDUP. R96,
R114: the stall cleared closes the capture with cause POWER, in OPENING by way of CLOSING (logs 16 and 22), with the
CAPTURE_CLOSE record formed again unless its program is in flight (log 18, DEDUCED). R107, R116, R124: the records that waited
for NORMAL may go on. -/
def Obligations.EpisodesBeginEndAndAreResampled : Prop :=
  (∀ (vhold : Nat) (s : State), s.powered = true →
     let u := { s with pins := { s.pins with pfail := true } }
     let vh := min vhold 15000
     let a := allowanceFor s.settings vhold
     (s.monitor.state = .normal → exec (.pfailAssert vhold) s = .next (settle (cancelRestart (holdStore (applyExhaustion
       (trigger 8 .monitor (raise .holdupEntered (post .holdup 0x0E [vh, a] (u.onMonitor fun m =>
         { m with state := .holdup, lastVh := vh, lastVhTime := s.time, entry := a, remaining := a, programs := 0, sinceVh := 0
                  episodes := satInc m.episodes, debounceAt := none, exhaustOn := false }))))))))) ∧
     (s.monitor.state = .recovering → exec (.pfailAssert vhold) s = .next (settle (applyExhaustion
       (u.onMonitor fun m => { m with state := .holdup, debounceAt := none })))) ∧
     (s.monitor.state = .holdup ∨ s.monitor.state = .exhausted → exec (.pfailAssert vhold) s = .next u)) ∧
  (∀ s : State, s.powered = true →
     let u := { s with pins := { s.pins with pfail := false } }
     (s.monitor.state = .holdup ∨ s.monitor.state = .exhausted → exec .pfailRelease s = .next (u.onMonitor fun m =>
       { m with state := .recovering, debounceAt := some (after s.time (1000 * s.settings.debounce)) })) ∧
     (s.monitor.state = .normal ∨ s.monitor.state = .recovering → exec .pfailRelease s = .next u)) ∧
  (∀ s : State, s.powered = true →
     (∀ t : PartTime, s.monitor.state = .recovering → s.monitor.debounceAt = some t → reached s.time t = true →
       exec .powerRestored s = .next (settle (releaseWaits (clearStall
         (post .holdup 0x11 [s.monitor.programs, s.monitor.remaining] (s.onMonitor fun m =>
           { m with state := .normal, debounceAt := none, exhaustOn := false })))))) ∧
     (∀ t : PartTime, s.monitor.debounceAt = some t → reached s.time t = false → exec .powerRestored s = .next s) ∧
     (s.monitor.state ≠ .recovering → exec .powerRestored s = .next s)) ∧
  (∀ (vhold : Nat) (s : State), s.powered = true →
     let due := (s.monitor.state = .holdup ∨ s.monitor.state = .recovering) ∧ 32 ≤ s.monitor.sinceVh
     let vh := min vhold 15000
     let rem := min s.monitor.remaining (allowanceFor s.settings vhold)
     (due → exec (.holdupResample vhold) s = .next (settle (applyExhaustion (post .holdup 0x0F [vh, rem]
       (s.onMonitor fun m => { m with lastVh := vh, lastVhTime := s.time, sinceVh := 0, remaining := rem }))))) ∧
     (¬ due → exec (.holdupResample vhold) s = .next s)) ∧
  (∀ s : State,
     let stands := QReq.erase .settings 2 ∈ s.store.queue
     let t : State := { s with store := { s.store with queue := s.store.queue.filter fun q => q ≠ .erase .settings 2 } }
     (stands → ∀ op : StoreOp, s.link.store = some op → holdStore s = answer op.port .holdup false []
       { t with link := { s.link with store := none } }) ∧
     (stands → s.link.store = none → holdStore s = t) ∧
     (¬ stands → holdStore s = s)) ∧
  (∀ s : State,
     let u := cancelRestart s
     u = { s with link := { s.link with ports := u.link.ports } } ∧
     ∀ p : PortId,
       (∀ (r : InService) (cap : Nat), (s.port p).service = some r → r.wait = .restartClose cap →
         u.port p = { s.port p with service := none, tx := (s.port p).tx ++ [mkReply r.kind r.tag .holdup false []] }) ∧
       ((∀ (r : InService) (cap : Nat), (s.port p).service = some r → r.wait ≠ .restartClose cap) → u.port p = s.port p)) ∧
  (∀ (s : State),
     (s.engine.capture = none → reformClose s = s) ∧
     (∀ c : Capture, s.engine.capture = some c →
       let now := fun r : JRec => match r with
         | .captureClose n o t g h => .captureClose n (if n = c.number then captureOutcome s.engine.cause c else o) t g h
         | r => r
       reformClose s = { s with dir := { s.dir with
         slotted := s.dir.slotted.map fun x => if x.flying then x else { x with record := now x.record }
         pending := s.dir.pending.map fun x => (now x.1, x.2) } })) ∧
  (∀ s : State,
     (s.engine.stall = false → clearStall s = s.onCapture fun c => { c with closeOn := false }) ∧
     (s.engine.stall = true →
       let t := reformClose ((s.onCapture fun c => { c with closeOn := false }).onEngine fun g =>
         { g with stall := false, cause := .power })
       (s.engine.state = .opening → clearStall s = t.onEngine fun g => { g with state := .closing }) ∧
       (s.engine.state = .gathering → clearStall s = closeEarly .power .skippedPower t) ∧
       (s.engine.state ≠ .opening → s.engine.state ≠ .gathering → clearStall s = t))) ∧
  (∀ s : State, releaseWaits s =
     { s with dir := { s.dir with comp := { s.dir.comp with held := false } }
              store := { s.store with unjournaled := s.store.unjournaled.map fun x => (x.1, false) } })

/-- R111: which programs start. R110: outside NORMAL a program's start draws one from the allowance and is counted; in NORMAL
it is not. R114: the exhaustion test, what it does in HOLDUP and in RECOVERING, and its one event. That a close is owed by
every capture in progress until it has been tested and started, or while its stall is set, and that the test sets the stall in
RECOVERING too, is log 16 (DEDUCED). -/
def Obligations.HoldupTestsAndDraws : Prop :=
  (∀ (close : Bool) (s : State),
     (s.monitor.state = .normal → programMayStart close s = true) ∧
     (s.monitor.state = .exhausted → programMayStart close s = false) ∧
     (s.monitor.state = .holdup ∨ s.monitor.state = .recovering →
       (programMayStart close s = true ↔ if close then 1 ≤ s.monitor.remaining else 6 < s.monitor.remaining))) ∧
  (∀ s : State,
     (s.monitor.state = .normal → drawProgram s = s) ∧
     (s.monitor.state ≠ .normal →
       (drawProgram s).monitor.remaining = s.monitor.remaining - 1 ∧
       (drawProgram s).monitor.programs = satInc s.monitor.programs ∧
       (drawProgram s).monitor.sinceVh = s.monitor.sinceVh + 1 ∧ (drawProgram s).monitor.entry = s.monitor.entry)) ∧
  (∀ s : State,
     let unpaid := (s.engine.state = .opening ∨ s.engine.state = .gathering ∨ s.engine.state = .closing) ∧
       (s.engine.stall = true ∨ ∃ c : Capture, s.engine.capture = some c ∧ c.closeOn = false)
     let holds := s.monitor.remaining = 0 ∨ (unpaid ∧ s.monitor.remaining < 6)
     let u := applyExhaustion s
     (s.monitor.state = .normal ∨ s.monitor.state = .exhausted → u = s) ∧
     (s.monitor.state = .holdup ∨ s.monitor.state = .recovering →
       (holds → u.monitor.state = (if s.monitor.state = .holdup then .exhausted else .recovering) ∧
         u.monitor.exhaustOn = true ∧ (inProgress s = true → u.engine.stall = true) ∧
         u.ring = (if s.monitor.exhaustOn then s.ring
           else (post .holdup 0x10 [s.monitor.remaining, captureNumber s] s).ring)) ∧
       (¬ holds → u.monitor.state = s.monitor.state ∧ u.monitor.exhaustOn = false ∧ u.ring = s.ring ∧ u.engine = s.engine)))

/-- R110: the remaining allowance never increases within one holdup episode. -/
def Obligations.AllowanceNeverRisesInAnEpisode : Prop :=
  ∀ s t : State, s.monitor.state ≠ .normal → step s = .next t → t.powered = true → t.monitor.state ≠ .normal →
    (∀ (v : Nat) (ws : List StoreFault) (rest : List Instr),
      s.pending ≠ .powerOn v ws :: rest ∧ s.pending ≠ .restartEffect v :: rest) →
    t.monitor.remaining ≤ s.monitor.remaining

/-! ## The dump store (chapter 8) -/

/-- R122 and R123: a program that completes without a weak cell leaves in each word of its page the AND of old and
new, or the old word where its new content is all ones; every byte and check byte outside the page reads as before.
R121, R127: an erase that completes without a stuck cell leaves every byte of its block 0xFF with the check byte of
the erased word; every byte and check byte outside the block reads as before. -/
def Obligations.OperationsChangeTheirOwnCells : Prop :=
  (∀ (who : Programmer) (page : Nat) (content : List Byte) (s t : State), s.powered = true →
     s.store.flight = some (.program who page content) → exec (.programComplete []) s = .next t →
     (page < 8192 → ∀ i : Nat, i < 64 →
       let old := (storedPage s.flash page).getD i Stored.erased
       let new := (wordsOf 64 content).getD i 0
       (storedPage t.flash page).getD i Stored.erased =
         (if new = BitVec.allOnes 64 then old else { data := old.data &&& new, diff := 0 })) ∧
     (∀ a : Nat, a < 512 * page ∨ 512 * (page + 1) ≤ a → readByte t.flash a = readByte s.flash a) ∧
     (∀ w : Nat, w < 64 * page ∨ 64 * (page + 1) ≤ w → readCheck t.flash w = readCheck s.flash w)) ∧
  (∀ (who : Eraser) (block : Nat) (s t : State), s.powered = true →
     s.store.flight = some (.erase who block) → exec (.eraseComplete []) s = .next t →
     (∀ a : Nat, 65536 * block ≤ a → a < 65536 * (block + 1) → readByte t.flash a = 0xFF) ∧
     (∀ w : Nat, 8192 * block ≤ w → w < 8192 * (block + 1) → readCheck t.flash w = 0) ∧
     (∀ a : Nat, a < 65536 * block ∨ 65536 * (block + 1) ≤ a → readByte t.flash a = readByte s.flash a) ∧
     (∀ w : Nat, w < 8192 * block ∨ 8192 * (block + 1) ≤ w → readCheck t.flash w = readCheck s.flash w))

/-- R123: the program in flight completes with the words that `faults` says (log 4, the model's form); it is accepted where the
verify finds every word that was to be programmed CLEAN and equal to its new content, and otherwise it has failed; then the
requests that waited to read its page go on (R129, log 19). R127: the erase in flight completes with the words that `faults` says
(log 4), and its requester is handed the outcome of the blank check of the pages that are not retired; then the requests that
waited to read a page of its block go on (R129, log 19). MODEL'S CHOICE (log 3): without an operation of its kind in flight either
does nothing. R81, R92: what the acceptance and the FAIL of a staging buffer do: the accepted page counts for its section, the
head page settled begins the walk, or the close where one was decided in OPENING (log 22, the model's choice); a first FAIL
retries at the next page, past a block that is retired, the unstarted buffers moving with it, and a buffer that thus reaches the
page cap is cut off (R94); a second FAIL ends the section STORE_FAULT, or the head page as absent (log 18); a final flush that had
failed before it became one ends so too (log 60, the model's choice). What data and pages a cut section counts: log 31 (DEDUCED);
its gap and record counts stay: log 45 (the model's choice). R59: the region of a FETCH section that is cut short is abandoned.
The page count that retries raise: log 17 (DEDUCED). -/
def Obligations.CompletionsHandOnTheVerify : Prop :=
  (∀ (faults : List WordFault) (s : State), s.powered = true →
     (∀ (who : Programmer) (page : Nat) (content : List Byte), s.store.flight = some (.program who page content) →
       let u := { s with flash := programPage page content faults s.flash, store := { s.store with flight := none } }
       let wrong := fun i : Nat =>
         let new := (wordsOf 64 content).getD i 0
         new ≠ BitVec.allOnes 64 ∧
           classify ((storedPage u.flash page).getD i Stored.erased) ≠ { data := new, cls := .clean }
       ((∀ i : Nat, i < 64 → ¬ wrong i) → exec (.programComplete faults) s = .next (resumeReads (settle (programAccepted who page u)))) ∧
       (∀ i : Nat, i < 64 → wrong i → (∀ j : Nat, j < i → ¬ wrong j) →
         exec (.programComplete faults) s = .next (resumeReads (settle (verifyFailed who page i u))))) ∧
     (∀ (who : Eraser) (block : Nat), s.store.flight = some (.erase who block) →
       exec (.programComplete faults) s = .next s) ∧
     (s.store.flight = none → exec (.programComplete faults) s = .next s)) ∧
  (∀ (faults : List BlockFault) (s : State), s.powered = true →
     (∀ (who : Eraser) (block : Nat), s.store.flight = some (.erase who block) →
       let u := { s with flash := eraseBlock block faults s.flash, store := { s.store with flight := none } }
       let bad := ((List.range 128).map fun i => 128 * block + i).filter fun p =>
         !s.store.retPages.contains p && !pageErased u.flash p
       exec (.eraseComplete faults) s = .next (resumeReads (settle (eraseEnded who block bad u)))) ∧
     (∀ (who : Programmer) (page : Nat) (content : List Byte), s.store.flight = some (.program who page content) →
       exec (.eraseComplete faults) s = .next s) ∧
     (s.store.flight = none → exec (.eraseComplete faults) s = .next s)) ∧
  (∀ (i : Fin 4) (page : Nat) (s : State),
     let b := s.engine.bufs[i]
     let freed := s.onBuf i fun x => { x with state := .empty, accepted := true }
     (b.isHead = false → programAccepted (.buf i) page s = freed.onSection fun x =>
       { x with done := x.done ++ [{ page := b.page, start := b.start, stop := b.start + b.bytes.length }] }) ∧
     (b.isHead = true → programAccepted (.buf i) page s = headSettled (some b.page) freed)) ∧
  (∀ (head : Option Nat) (c : Capture) (s : State), s.engine.capture = some c →
     let settled := fun (st : EngState) (ph : Phase) (cursor : Option Nat) => { s with
       engine := { s.engine with state := st, phase := ph, capture := some { c with head := head, cursor := cursor } } }
     let waits := s.engine.phase = .headWait
     (waits → s.engine.state = .closing → headSettled head s = settled .closing .skips (some 0)) ∧
     (waits → s.engine.state ≠ .closing → c.walk = [] → headSettled head s = settled .closing .closeRecord c.cursor) ∧
     (waits → s.engine.state ≠ .closing → c.walk ≠ [] → headSettled head s = settled .gathering .secBegin (some 0)) ∧
     (¬ waits → headSettled head s = settled s.engine.state s.engine.phase c.cursor)) ∧
  (∀ (i : Fin 4) (page : Nat) (c : Capture) (s : State), s.engine.capture = some c →
     (s.engine.bufs[i]).retried = false →
     let b := s.engine.bufs[i]
     let waits := fun x : Buf => x.state = .filling || x.state = .queued
     let next := if (c.blocks[b.page / 128]?).bind (blockState s) = some .retired then 128 * (b.page / 128 + 1) else b.page + 1
     let moved := Vector.ofFn fun j : Fin 4 =>
         let x := s.engine.bufs[j]
         if j = i then { x with state := .queued, accepted := false, retried := true, page := next }
         else if waits x ∧ b.page < x.page then { x with page := x.page + (next - b.page) } else x
     let t := { s with
         store := { s.store with queue := s.store.queue ++ [.buf i] }
         engine := { s.engine with
           bufs := moved
           capture := some { c with
             nextPage := c.nextPage + (next - b.page)
             current := c.current.map fun x =>
               { x with pages := x.pages.map fun n => min (n + (next - b.page)) (c.snapshot.pageCap - x.first) } } } }
     ((∀ j : Fin 4, waits moved[j] = true → (moved[j]).page < c.snapshot.pageCap) → programFailed (.buf i) page s = t) ∧
       ((∃ j : Fin 4, waits moved[j] = true ∧ c.snapshot.pageCap ≤ (moved[j]).page) →
         programFailed (.buf i) page s = cutSection .budget .skippedBudget (fun x => c.snapshot.pageCap ≤ x.page) t)) ∧
  (∀ (i : Fin 4) (page' : Nat) (c : Capture) (s : State), s.engine.capture = some c → (s.engine.bufs[i]).retried = true →
     let u := programFailed (.buf i) page' s
     let b := s.engine.bufs[i]
     let cap := c.snapshot.pageCap
     let next := if (c.blocks[b.page / 128]?).bind (blockState s) = some .retired then 128 * (b.page / 128 + 1) else b.page + 1
     let failed := { b with state := .empty, accepted := false }
     let nextPage := min (max c.nextPage next) cap
     (b.isHead = true → u = headSettled none { s with engine := { s.engine with
       bufs := vset s.engine.bufs i failed, capture := some { c with nextPage := nextPage } } }) ∧
     (∀ x : Section, b.isHead = false → c.current = some x →
       let page := fun j : Fin 4 => (s.engine.bufs[j]).page
       let gone := fun j : Fin 4 => j ≠ i ∧ ((s.engine.bufs[j]).state = .filling ∨ (s.engine.bufs[j]).state = .queued)
       let stop := if s.engine.phase = .gather then x.img else x.stop
       let before := x.done.filter fun p => p.start < b.start
       let ends := fun last : Nat => u = { s with
         store := { s.store with queue := s.store.queue.filter fun q => ∀ j : Fin 4, gone j → q ≠ .buf j }
         fetches := (withdrawFor c s).fetches
         engine := { s.engine with
           phase := .secEnd
           bufs := Vector.ofFn fun j : Fin 4 =>
             if j = i then failed else if gone j then { s.engine.bufs[j] with state := .empty } else s.engine.bufs[j]
           capture := some { c with
             nextPage := nextPage
             current := some { x with
               toPlace := [], items := [], quietAt := none, ended := none, outcome := .storeFault, early := true, stop := stop
               done := before, len := (before.map fun p => min stop p.stop - max 32 p.start).sum
               pages := some (min ((x.done.map fun p => p.page + 1).foldl max last) cap - x.first) } } } }
       ((∀ j : Fin 4, ¬ gone j) → ends (max c.nextPage next)) ∧
       (∀ l : Fin 4, gone l → (∀ j : Fin 4, j ≠ l → gone j → page l < page j) → ends (max (page l) next)))) ∧
  (∀ (k : CloseCause) (o : OutcomeCode) (drop : Buf → Bool) (c : Capture) (s : State), s.engine.capture = some c →
     let u := cutSection k o drop s
     let cap := c.snapshot.pageCap
     let page := fun j : Fin 4 => (s.engine.bufs[j]).page
     let gone := fun j : Fin 4 =>
       ((s.engine.bufs[j]).state = .filling ∨ (s.engine.bufs[j]).state = .queued) ∧ drop s.engine.bufs[j] = true
     let bufs := Vector.ofFn fun j : Fin 4 => if gone j then { s.engine.bufs[j] with state := .empty } else s.engine.bufs[j]
     let kept := ((List.finRange 4).filter fun j => (bufs[j]).state ≠ .empty && !(bufs[j]).isHead).map fun j : Fin 4 =>
       ({ page := (bufs[j]).page, start := (bufs[j]).start, stop := (bufs[j]).start + (bufs[j]).bytes.length } : Placed)
     let ends := fun d : Capture => u = { s with
       store := { s.store with queue := s.store.queue.filter fun q => ∀ j : Fin 4, gone j → q ≠ .buf j }
       fetches := (withdrawFor c s).fetches
       engine := { s.engine with
         state := .closing, phase := .drain, cause := if s.engine.cause = .none then k else s.engine.cause
         bufs := bufs, capture := some d } }
     ((∀ j : Fin 4, ¬ gone j) → ends { c with nextPage := min c.nextPage cap }) ∧
     (∀ i : Fin 4, gone i → (∀ j : Fin 4, j ≠ i → gone j → page i < page j) →
       (c.current = none → ends { c with nextPage := min (page i) cap }) ∧
       (∀ x : Section, c.current = some x →
         let stop := if s.engine.phase = .gather then x.img else x.stop
         let held := x.done ++ kept
         ends { c with
           nextPage := min c.nextPage cap
           current := some { x with
             toPlace := [], items := [], quietAt := none, ended := none, outcome := o, early := true, stop := stop
             len := (held.map fun p => min stop p.stop - max 32 p.start).sum
             pages := some ((held.map fun p => p.page + 1).foldl max (min (page i) cap) - x.first) } }))) ∧
  (∀ (c : Capture) (s : State),
     let gone := fun f : FetchChan => { f with state := .idle, region := none, txn := none, piece := none }
     (∀ (ch : Fin 4) (item : WalkItem), c.walk[c.cursor.getD 0]? = some item → (c.snapshot.entries[item.entry]).kind = .fetch →
       (c.snapshot.entries[item.entry]).chan = some ch →
       withdrawFor c s = s.onFetch ch fun f => if f.state = .asking then { gone f with abandoned := satInc f.abandoned }
         else if f.state = .delivering then gone f else f) ∧
     ((∀ (ch : Fin 4) (item : WalkItem), c.walk[c.cursor.getD 0]? = some item → (c.snapshot.entries[item.entry]).kind = .fetch →
       (c.snapshot.entries[item.entry]).chan ≠ some ch) → withdrawFor c s = s))

/-- R124, R125: a program that failed its verify has its page retired while the retired-page table holds fewer than 256, else
its block where that lies in the capture area; the record is handed over, or kept while there is no journal room (R141), and
the event posted; then the failure is reported and FAIL handed on. R126: a retired target fails with no retirement, reported
with word 0 (log 29, the model's reading). R127: the end of an erase. R128: the block states at an allotment, its undoing, the
start of an erase and a capture's removal, with the erases of R145 step 3 in ascending order. MODEL'S CHOICE (log 40): the
failing pages of a fixed block take the table's last entries in ascending order. R149, R162, R139: what an acceptance and a
FAIL do for a note commit, a relocation and a journal program; R139, R124: a failed journal program moves its records first,
where fewer than 64 slots are then free the compaction starts (R140; before the RETIRE_PAGE record: log 52, the model's choice),
then the RETIRE_PAGE record is handed over behind them, and then the failure is reported; records that a full block sends to
the pending list stand before it (log 41, the model's choice). What is kept of a removed capture's trailers goes too (log 42). -/
def Obligations.RetirementsAndBlockStates : Prop :=
  (∀ (page : Nat) (s : State),
     let u := retireForProgram page s
     let b := page / 128
     let onItsWay := fun r : JRec =>
       (journalRoom s = true → u.dir = (hand r .retirement s).dir ∧ u.store.unjournaled = s.store.unjournaled) ∧
       (journalRoom s = false → u.dir = s.dir ∧ u.store.unjournaled = s.store.unjournaled ++ [(r, false)])
     (page ∈ s.store.retPages → u = s) ∧
     (page ∉ s.store.retPages → s.store.retPages.length < 256 →
       u.store.retPages = s.store.retPages ++ [page] ∧ u.store.retBlocks = s.store.retBlocks ∧
       u.store.blocks = s.store.blocks ∧ onItsWay (.retirePage [page]) ∧
       u.ring = s.ring.post s.time .store 0x12 [BitVec.ofNat 32 page, BitVec.ofNat 32 (s.store.retPages.length + 1)]) ∧
     (∀ i : Fin 60, page ∉ s.store.retPages → 256 ≤ s.store.retPages.length → b = 4 + i.val →
       let owner := match s.store.blocks[i] with
         | .allotted cap => cap
         | _ => 0
       u.store.retPages = s.store.retPages ∧ u.store.retBlocks = s.store.retBlocks ++ [(b, .programFail)] ∧
       u.store.blocks = vset s.store.blocks i .retired ∧ onItsWay (.retireBlock b .programFail) ∧
       u.ring = s.ring.post s.time .store 0x13 [BitVec.ofNat 32 b, 0, BitVec.ofNat 32 owner]) ∧
     (page ∉ s.store.retPages → 256 ≤ s.store.retPages.length → b < 4 ∨ 64 ≤ b → u = s)) ∧
  (∀ (who : Programmer) (page word : Nat) (s : State),
     let report := fun t : State => reportProgramFail (programOperation who) page word t
     (who ≠ .journal → verifyFailed who page word s = programFailed who page (report (retireForProgram page s))) ∧
     targetFailed who page s = programFailed who page (reportProgramFail (programOperation who) page 0 s)) ∧
  (∀ (block : Nat) (bad : List Nat) (s : State),
     let u := eraseEnded .area block bad s
     (∀ i : Fin 60, block = 4 + i.val → bad = [] → u.store.blocks = vset s.store.blocks i .free ∧ u.ring = s.ring ∧
       u.store.retBlocks = s.store.retBlocks ∧ u.integ = s.integ) ∧
     (∀ i : Fin 60, block = 4 + i.val → bad ≠ [] → s.store.blocks[i] = .erasing →
       u.store.blocks = vset s.store.blocks i .retired ∧ u.store.retBlocks = s.store.retBlocks ++ [(block, .eraseFail)] ∧
       u.ring = s.ring.post s.time .store 0x13 [BitVec.ofNat 32 block, 1, 0] ∧
       u.integ.eraseFail = satInc s.integ.eraseFail)) ∧
  (∀ (who : Eraser) (block : Nat) (bad : List Nat) (s : State), block < 4 ∨ 64 ≤ block →
     (eraseEnded who block bad s).store.retPages = s.store.retPages ++ bad.take (256 - s.store.retPages.length) ∧
     (eraseEnded who block bad s).store.retBlocks = s.store.retBlocks) ∧
  (∀ (i : Fin 60) (s : State),
     (startErase .area (4 + i.val) s).store =
       { s.store with blocks := vset s.store.blocks i .erasing, flight := some (.erase .area (4 + i.val)) } ∧
     (refuseAllot (4 + i.val) s).store.blocks = vset s.store.blocks i .free ∧
     (∀ (dry : State → State) (c : Capture), s.engine.capture = some c → ordinaryOk s = true → journalRoom s = true →
       s.store.blocks[i] = .free → (∀ j : Fin 60, j < i → s.store.blocks[j] ≠ .free) →
       ∃ t : State, allotBlock dry s = .did t ∧ t.store.blocks = vset s.store.blocks i (.allotted c.number) ∧
         t.dir = (hand (.blockAllot c.number (4 + i.val)) .engine s).dir ∧
         t.engine.capture = some { c with blocks := c.blocks ++ [4 + i.val], asked := false, noReclaim := false })) ∧
  (∀ (e : DirEntry) (s : State), findEntry s.dir e.cap = some e →
     let u := removeCapture e s
     let live := fun i : Fin 60 => s.store.blocks[i] = .allotted e.cap && e.blocks.contains (some (4 + i.val))
     let erases := ((List.finRange 60).filter live).map fun i => QReq.erase .area (4 + i.val)
     u.store.blocks = (Vector.ofFn fun i => if live i then .dirty else s.store.blocks[i]) ∧
     (u.store.queue = s.store.queue ++ erases ∨
       u.store.queue = s.store.queue.filter (fun q => q ≠ .relocation) ++ erases) ∧
     findEntry u.dir e.cap = none ∧ (∀ j : Nat, ∀ y : SecEntry, sectionOf u.dir j = some y → y.cap ≠ e.cap) ∧
     u.dir.map = s.dir.map.filter (fun m => !e.blocks.contains (some (m.source / 128))) ∧
     u.dir.trailers = s.dir.trailers.filter (fun m => m.cap ≠ e.cap) ∧
     (∀ (p : PortId) (a : ReadAhead), (u.port p).ahead = some a → a.cap ≠ e.cap) ∧
     (s.integ.reloc = none → u.integ.scrub = s.integ.scrub.filter fun p => !e.blocks.contains (some (p / 128)))) ∧
  (∀ (p : PortId) (page : Nat) (s : State),
     (∀ (cap slot : Nat) (r : InService), (s.port p).pad.target = some (cap, slot) → (s.port p).service = some r →
       programAccepted (.commit p) page s = s.onPort p fun q =>
         { q with service := some { r with wait := .record (.annotate cap slot (s.port p).pad.text.length) false } }) ∧
     programFailed (.commit p) page s =
       answer p .refusedState false [] (s.onPort p fun q => { q with pad := { q.pad with locked := true } }) ∧
     (∀ r : Reloc, s.integ.reloc = some r → r.step = .programming → 384 + r.pool = page →
       let goesOn := fun step : RelocStep => { s with integ := { s.integ with reloc := some { r with step := step } } }
       programAccepted .relocation page s = goesOn (.record false) ∧ programFailed .relocation page s = goesOn .needPage) ∧
     ((∀ r : Reloc, s.integ.reloc = some r → r.step ≠ .programming ∨ 384 + r.pool ≠ page) →
       programAccepted .relocation page s = s ∧ programFailed .relocation page s = s) ∧
     programAccepted .journal page s = (s.dir.slotted.filter fun x => x.flying).foldl (fun t x => recordAccepted x t)
       { s with dir := { s.dir with slotted := s.dir.slotted.filter fun x => !x.flying } }) ∧
  (∀ (page word : Nat) (s : State),
     let report := reportProgramFail .verify page word
     let d := moveOn s.store.retPages page s.dir
     let starts := d.comp.state = .none ∧ s.ready = true ∧ s.monitor.state = .normal ∧ d.eraseAll = none ∧
       2048 - d.nextSlot < 64 ∧ (d.comp.paused = false ∨ 2048 ≤ d.nextSlot)
     let moved := reformClose { s with dir :=
       if starts then { d with comp := { Compaction.initial with state := .clearing } } else d }
     let left := s.dir.comp.state ≠ .writing ∧ s.dir.slotted ≠ [] ∧ moved.dir.slotted = []
     let retirable := page ∉ s.store.retPages ∧ s.store.retPages.length < 256
     let n := s.dir.slotted.length
     (¬ left → verifyFailed .journal page word s = report (retireForProgram page moved)) ∧
     (left → ¬ retirable → verifyFailed .journal page word s = report moved) ∧
     (left → retirable → verifyFailed .journal page word s = report (post .store 0x12 [page, s.store.retPages.length + 1]
       { moved with
         store := { s.store with retPages := s.store.retPages ++ [page] }
         dir := { moved.dir with
           pending := moved.dir.pending.take n ++ [(.retirePage [page], .retirement)] ++ moved.dir.pending.drop n } })))

/-- R129, R111, R116, R126: with the engine free, no re-sample due (R110) and no restart waiting (R135), the Store Controller
chooses the journal program of the oldest pending record where there is one, else the oldest other request that may start. The
chosen one starts; a program whose target is retired is handed FAIL without being started, before the holdup test is looked at
(log 29, the model's reading), one that the holdup test refuses is handed HOLDUP, and the choice is made again, at most 4,096
times (log 11). With an operation in flight nothing starts. R112, R116, R117, R162: what HOLDUP does to each requester; a
section whose gathering has ended with another outcome takes SKIPPED_POWER too (log 18), and its pages are counted as far as
the last one kept (log 31); the trailer of the final flush keeps the gap and record counts of all the section's data, dropped data
too (log 45, the model's choice). R123, R132, R149, R152, R162, R176: which requests may start, and the program that each asks for.
R130, R111: the content and the class of a journal program. R162 step 1: when a relocation may start; it reads its source,
takes it with operation RELOCATE and goes to its program, at once or, where an operation is in flight on the page, when that has
ended (R129, log 19). MODEL'S CHOICES: requests that may not start are passed over (log
35), and RELOCATION_START does nothing where no relocation may start (log 3). -/
def Obligations.StoreStartsItsNextOperation : Prop :=
  let sourceRead := fun (page : Nat) (s : State) =>
    let ws := readMapped s page
    (takePage .relocate page (mapped s.dir.map page) ws s).onInteg fun g =>
      { g with reloc := some { page := page, content := ws.flatMap fun w => wordBytes w.data
                               poisoned := classSet .poisoned ws, pool := 0, step := .needPage } }
  (∀ s : State, s.powered = true →
     (s.store.flight ≠ none → exec .queueStart s = .next s) ∧
     (s.store.flight = none → resampleDue s = false → restartDue s = false →
       exec .queueStart s = .next (settle (startNext 4096 s)))) ∧
  (∀ (n : Nat) (s : State),
     (∀ page : Nat, journalPage s.dir = some page →
       let starts := programMayStart ((carried page s.dir).any closeClass) s
       (targetRetired s page = true → startNext (n + 1) s = startNext n (targetFailed .journal page s)) ∧
       (targetRetired s page = false → starts = true → startNext (n + 1) s = startProgram (journalJob page s) s) ∧
       (targetRetired s page = false → starts = false → startNext (n + 1) s = startNext n (journalRefused page s))) ∧
     (∀ q : QReq, journalPage s.dir = none → s.store.queue.find? (startable s) = some q →
       let t := withdraw q s
       (∀ (who : Eraser) (block : Nat), q = .erase who block → startNext (n + 1) s = startErase who block t) ∧
       (∀ j : Job, jobOf q s = some j →
         (targetRetired s j.page = true → startNext (n + 1) s = startNext n (targetFailed j.who j.page t)) ∧
         (targetRetired s j.page = false → programMayStart j.close s = true → startNext (n + 1) s = startProgram j t) ∧
         (targetRetired s j.page = false → programMayStart j.close s = false →
           startNext (n + 1) s = startNext n (programRefused j.who t)))) ∧
     (journalPage s.dir = none → s.store.queue.find? (startable s) = none → startNext (n + 1) s = s)) ∧
  (∀ (i : Fin 4) (p : PortId) (s : State),
     ((s.engine.bufs[i]).flush = true →
       (programRefused (.buf i) s).engine.stall = true ∧ ((programRefused (.buf i) s).engine.bufs[i]).state = .filling) ∧
     ((s.engine.bufs[i]).flush = false → programRefused (.buf i) s = powerClose s) ∧
     programRefused .relocation s = { s with integ := { s.integ with reloc := none } } ∧
     programRefused (.commit p) s = answer p .holdup false [] s ∧
     (∀ op : StoreOp, s.link.store = some op → programRefused .settings s =
       answer op.port .holdup false [] { s with link := { s.link with store := none } })) ∧
  (∀ (c : Capture) (x : Section) (s : State), s.engine.capture = some c → c.current = some x →
     s.engine.phase.recording = false →
     let u := powerClose s
     let waits := fun i : Fin 4 => (s.engine.bufs[i]).state = .filling ∨ (s.engine.bufs[i]).state = .queued
     let page := fun i : Fin 4 => (s.engine.bufs[i]).page
     let may := fun i : Fin 4 => waits i ∧ page i / 128 < c.blocks.length
     let first := fun i : Fin 4 => may i ∧ ∀ j : Fin 4, j ≠ i → may j → page i < page j
     let gone := fun i : Fin 4 => waits i ∧ (¬ may i ∨ ∃ j : Fin 4, may j ∧ page j < page i)
     u.engine.state = .closing ∧ u.engine.phase = .drain ∧
     u.engine.cause = (if s.engine.cause = .none then .power else s.engine.cause) ∧
     (∀ i : Fin 4, first i → (u.engine.bufs[i]).state = .filling ∧ (u.engine.bufs[i]).flush = true) ∧
     (∀ i : Fin 4, gone i → (u.engine.bufs[i]).state = .empty) ∧
     (∀ i : Fin 4, ¬ waits i → u.engine.bufs[i] = s.engine.bufs[i]) ∧
     let stop := if s.engine.phase = .gather then x.img else x.stop
     let data := fun start stop' : Nat => min stop stop' - max 32 start
     let kept := (List.finRange 4).filter fun i => (u.engine.bufs[i]).state ≠ .empty && !(s.engine.bufs[i]).isHead
     let dropped := fun i : Fin 4 => waits i ∧ (u.engine.bufs[i]).state = .empty
     ∃ (d : Capture) (y : Section), u.engine.capture = some d ∧ d.current = some y ∧ y.outcome = .skippedPower ∧
       y.toPlace = [] ∧ y.stop = stop ∧ y.done = x.done ∧
       y.len = (x.done.map fun p => data p.start p.stop).sum + (kept.map fun i =>
         data (s.engine.bufs[i]).start ((s.engine.bufs[i]).start + (s.engine.bufs[i]).bytes.length)).sum ∧
       (∀ i : Fin 4, dropped i → (∀ j : Fin 4, dropped j → page i ≤ page j) → y.pageCount d =
         ((x.done.map fun p : Placed => p.page + 1) ++ kept.map fun i => page i + 1).foldl max (page i) - x.first) ∧
       ((∀ i : Fin 4, waits i → first i) → y.pageCount d = x.pageCount c) ∧
       (∀ i : Fin 4, first i →
         let bytes := (s.engine.bufs[i]).bytes.take (stop - (s.engine.bufs[i]).start)
         let lapsed := match c.itemHere with
           | some item => item.lapsed
           | none => false
         (u.engine.bufs[i]).bytes = if bytes.length + 16 + 8 * min 16 x.gaps.length ≤ 512
           then bytes ++ trailerBytes .skippedPower lapsed y.len x.records x.gaps else bytes)) ∧
  (∀ (q : QReq) (s : State), startable s q = true ↔ match q with
     | .erase _ _ => s.monitor.state = .normal
     | .relocation | .settings => jobOf q s ≠ none
     | .commit p => jobOf q s ≠ none ∧
         ∀ (r : Reloc) (src : Nat), s.integ.reloc = some r → commitSource p s = some src → r.page ≠ src
     | .buf i => jobOf q s ≠ none ∧
         ∀ (c : Capture) (b : Nat), s.engine.capture = some c → c.blocks[(s.engine.bufs[i]).page / 128]? = some b →
           (∀ x ∈ s.dir.slotted, x.record ≠ .blockAllot c.number b) ∧ ∀ x ∈ s.dir.pending, x.1 ≠ .blockAllot c.number b) ∧
  (∀ s : State,
     (∀ (i : Fin 4) (c : Capture), s.engine.capture = some c →
       let b := s.engine.bufs[i]
       jobOf (.buf i) s = c.blocks[b.page / 128]?.map fun block =>
         { who := .buf i, page := mapped s.dir.map (128 * block + b.page % 128), content := padTo 0xFF 512 b.bytes
           close := b.flush }) ∧
     (∀ (r : Reloc) (k : Nat), s.integ.reloc = some r → k < 128 → s.integ.nextPool ≤ k → 384 + k ∉ s.store.retPages →
       (∀ j : Nat, s.integ.nextPool ≤ j → j < k → 384 + j ∈ s.store.retPages) →
       jobOf .relocation s = some { who := .relocation, page := 384 + k, content := r.content, close := false }) ∧
     (∀ (p : PortId) (cap slot src : Nat) (e : DirEntry), (s.port p).pad.target = some (cap, slot) →
       findEntry s.dir cap = some e → e.head.bind (physOf e.blocks) = some src → jobOf (.commit p) s = some
         { who := .commit p, page := mapped s.dir.map src, close := false
           content := padTo 0xFF 512 (List.replicate (32 + 120 * slot) 0xFF ++ (s.port p).pad.text) }) ∧
     (∀ op : StoreOp, s.link.store = some op →
       (op.step = .erasing → jobOf .settings s = none) ∧
       (∀ page k : Nat, op.step = .programming page k → jobOf .settings s = some
         { who := .settings, page := page + k, content := padTo 0xFF 512 ((op.image.drop (512 * k)).take 512)
           close := false }))) ∧
  (∀ (page : Nat) (s : State),
     let xs := s.dir.slotted.filter fun x => 128 * x.block + x.slot / 16 = page
     let job := journalJob page s
     journalPage s.dir = (if s.dir.comp.held then none else s.dir.slotted.head?.map fun x => 128 * x.block + x.slot / 16) ∧
     carried page s.dir = xs ∧ job.who = .journal ∧ job.page = page ∧ job.content.length = 512 ∧
     (∀ i : Nat, i < 16 → (job.content.drop (32 * i)).take 32 = match xs.find? fun x => x.slot % 16 = i with
       | some x => slotBytes x.seq x.record
       | none => List.replicate 32 0xFF) ∧
     job.close = xs.any fun x => x.who = .engine && match x.record with
       | .captureOpen .. | .sectionDone .. | .captureClose .. => true
       | _ => false) ∧
  (∀ s : State, s.powered = true →
     (∀ page : Nat, relocatable s = some page ↔
       s.integ.scrub.head? = some page ∧ s.ready = true ∧ s.monitor.state = .normal ∧ s.integ.reloc = none ∧
       (∃ k : Nat, k < 128 ∧ s.integ.nextPool ≤ k ∧ 384 + k ∉ s.store.retPages) ∧
       ∀ q : PortId, committing q s ≠ none → commitSource q s ≠ some page) ∧
     (∀ page : Nat, relocatable s = some page →
       let waiting := { s with integ := { s.integ with
         reloc := some { page := page, content := [], poisoned := 0, pool := 0, step := .reading } } }
       exec .relocationStart s =
         .next (settle (if pageBusy s (mapped s.dir.map page) then waiting else sourceRead page s))) ∧
     (relocatable s = none → exec .relocationStart s = .next s) ∧
     (∀ r : Reloc, s.integ.reloc = some r → r.step = .reading → relocateStep s =
       if pageBusy s (mapped s.dir.map r.page) then .wait else .did (sourceRead r.page s)))

/-- R154: the words of a page are taken: both counters, an event for each class that stands in it, its first CORRECTED and its
first POISONED word offered to the error capture record (R164), and for a retrieval the page offered to the scrub queue (R161).
R162 step 4: an accepted RELOCATE record replaces or adds its map entry, the owner's damaged-word count takes the new set in
place of the old, SCRUB_DONE is posted and the page leaves the queue. -/
def Obligations.PagesAreTakenAndRelocated : Prop :=
  (∀ (op : Operation) (source phys : Nat) (ws : List WordRead) (s : State),
     let u := takePage op source phys ws s
     let count := fun c : WordClass => (ws.filter fun w => w.cls = c).length
     let nc := count .corrected
     let np := count .poisoned
     let event := fun (kind : Byte) (n : Nat) (r : Ring) => if n = 0 then r else
       r.post s.time .integrity kind [BitVec.ofNat 32 phys, BitVec.ofNat 32 n, BitVec.ofNat 32 op.code.toNat]
     let told := event 0x15 np (event 0x14 nc s.ring)
     let firstOf := fun (c : WordClass) (i : Nat) => (∃ w : WordRead, ws[i]? = some w ∧ w.cls = c) ∧
       ∀ (j : Nat) (w : WordRead), j < i → ws[j]? = some w → w.cls ≠ c
     let full := 8 ≤ s.integ.scrub.length
     let offered := op = .retrieve ∧ (nc ≠ 0 ∨ np ≠ 0) ∧ source ∉ s.integ.scrub
     u.integ.corrected = min (s.integ.corrected + nc) 4294967295 ∧
     u.integ.poisoned = min (s.integ.poisoned + np) 4294967295 ∧ u.integ.reloc = s.integ.reloc ∧
     (nc = 0 → np = 0 → u.integ.error = s.integ.error ∧ u.integ.overflow = s.integ.overflow ∧ u.link = s.link) ∧
     (s.integ.error = none →
       (∀ i : Nat, firstOf .corrected i →
         u.integ.error = some { kind := .corrected, page := phys, word := i, op := op, time := s.time } ∧
         u.integ.overflow = (s.integ.overflow || decide (np ≠ 0))) ∧
       (∀ i : Nat, nc = 0 → firstOf .poisoned i →
         u.integ.error = some { kind := .poisoned, page := phys, word := i, op := op, time := s.time } ∧
         u.integ.overflow = s.integ.overflow) ∧
       (nc ≠ 0 ∨ np ≠ 0 → ∀ p : PortId, (u.port p).notices = setBit (s.port p).notices 3 true)) ∧
     (∀ r : ErrRec, s.integ.error = some r →
       u.integ.error = some r ∧ u.link = s.link ∧ (nc ≠ 0 ∨ np ≠ 0 → u.integ.overflow = true)) ∧
     (¬ offered → u.integ.scrub = s.integ.scrub ∧ u.ring = told ∧ u.integ.scrubDropped = s.integ.scrubDropped) ∧
     (offered → ¬ full →
       u.integ.scrub = s.integ.scrub ++ [source] ∧ u.ring = told ∧ u.integ.scrubDropped = s.integ.scrubDropped) ∧
     (offered → full →
       let n := min (s.integ.scrubDropped + 1) 4294967295
       u.integ.scrub = s.integ.scrub ∧ u.integ.scrubDropped = n ∧
       u.ring = told.post s.time .integrity 0x17 [BitVec.ofNat 32 source, BitVec.ofNat 32 n])) ∧
  (∀ (x : Slotted) (m : MapEntry) (s : State), x.who = .relocation → x.record = .relocate m.source m.pool m.poisoned →
     let u := recordAccepted x s
     let size := fun v : BitVec 64 => ((List.range 64).filter fun i => v.getLsbD i).length
     let old := match s.dir.map.find? fun y => y.source = m.source with
       | some y => size y.poisoned
       | none => 0
     u.dir.map = s.dir.map.filter (fun y => y.source ≠ m.source) ++ [m] ∧
     (∀ e : DirEntry, ownerOf s.dir m.source = some e → findEntry s.dir e.cap = some e → findEntry u.dir e.cap = some
       { e with damaged := min (e.damaged - old + size m.poisoned) 4294967295 }) ∧
     u.ring = s.ring.post s.time .integrity 0x16 [BitVec.ofNat 32 m.source, BitVec.ofNat 32 m.pool] ∧
     u.integ = { s.integ with scrub := s.integ.scrub.filter (fun p => p ≠ m.source), reloc := none })

/-- R131: power lost during a program: each word of its page lies between its old content and the AND of old and new, and nothing
outside the page changes; of an erase, nothing outside its block. Everything volatile is gone, in every block of the part (the
pins are outside it). MODEL'S CHOICES: part time is 0 and what is volatile stands at its start while the part is off (log 5); the
operand gives the torn words, and a torn word of an erase keeps every 1 bit that it had (log 4). -/
def Obligations.PowerLossTearsWithinBounds : Prop :=
  ∀ (torn : List BlockFault) (s : State), s.powered = true →
    ∃ t : State, exec (.powerLoss torn) s = .next t ∧
      t.powered = false ∧ t.ready = false ∧ t.time = 0 ∧ t.epoch = 0 ∧ t.epochValid = false ∧ t.pins = s.pins ∧
      t.pending = s.pending ∧ t.settings = Settings.initial ∧ t.plan = Plan.initial ∧
      t.trig = TrigUnit.start s.pins.raw Settings.initial ∧ t.ring = Ring.empty ∧
      t.streams = Vector.replicate 4 (StreamChan.start .disabled none) ∧
      t.fetches = Vector.replicate 4 (FetchChan.start false) ∧ t.engine = Engine.initial ∧ t.monitor = Monitor.initial ∧
      t.store = StoreCtl.initial ∧ t.dir = Directory.initial ∧ t.integ = Integrity.initial ∧
      t.link = Link.start Settings.initial false ∧
      (s.store.flight = none → t.flash = s.flash) ∧
      (∀ (who : Programmer) (page : Nat) (content : List Byte), s.store.flight = some (.program who page content) →
        (page < 8192 → ∀ i : Nat, i < 64 →
          let old := ((storedPage s.flash page).getD i Stored.erased).data
          let new := (wordsOf 64 content).getD i 0
          let r := ((storedPage t.flash page).getD i Stored.erased).data
          (old &&& new) &&& r = old &&& new ∧ r &&& old = r) ∧
        (∀ a : Nat, a < 512 * page ∨ 512 * (page + 1) ≤ a → readByte t.flash a = readByte s.flash a) ∧
        (∀ w : Nat, w < 64 * page ∨ 64 * (page + 1) ≤ w → readCheck t.flash w = readCheck s.flash w)) ∧
      (∀ (who : Eraser) (block : Nat), s.store.flight = some (.erase who block) →
        (∀ (page i : Nat), 128 * block ≤ page → page < 128 * (block + 1) → page < 8192 → i < 64 →
          let old := ((storedPage s.flash page).getD i Stored.erased).data
          old &&& ((storedPage t.flash page).getD i Stored.erased).data = old) ∧
        (∀ a : Nat, a < 65536 * block ∨ 65536 * (block + 1) ≤ a → readByte t.flash a = readByte s.flash a) ∧
        (∀ w : Nat, w < 8192 * block ∨ 8192 * (block + 1) ≤ w → readCheck t.flash w = readCheck s.flash w))

/-! ## Start-up and restart (chapters 8, 9, 11) -/

/-- R16, R31, R47, R65, R77, R105, R119, R165, R176: what power coming on and RESTART_EFFECT leave before the monitor looks at
PFAIL; the error capture record and the counters of CORRECTED and POISONED words stand as the load's reads leave them (R154).
The working settings and plan are those of the first position of block 2 that holds a good image, else the defaults with
SETTINGS_LOST noticed and posted, its cause 1 where every page of the block reads erased. Power-on leaves the ring empty but
for RESTARTED, a restart keeps its records and posts RESTARTED with the port and Force; behind it stand the events of the
pages that the load read (R154) and SETTINGS_LOST. MODEL'S CHOICES: power-on reads the store with the words that `worn` names
as it says (8.1, log 4), and a restart leaves the store; the fetch channels discard an answer partly received (log 48); the
store's and the directory's tables stand empty before replay (log 7); RESTART_EFFECT does nothing without a restart whose
reply has been sent or with an operation in flight (log 3); a capture that a trigger opened since the restart was answered goes
without a close (log 66); power coming on with an erased store and inputs at rest leaves the
state after reset (log 7). -/
def Obligations.StartUpTakesTheResetValues : Prop :=
  ∀ (vhold : Nat) (worn : List StoreFault) (s : State),
    let fresh := fun (u : State) =>
      u.ready = false ∧ u.pins = s.pins ∧ u.trig = TrigUnit.start s.pins.raw u.settings ∧
      u.streams = (Vector.ofFn fun i => StreamChan.start
        (rxEnabled (u.settings.stream[i]).enabled (s.pins.sync.getLsbD i.val)) none) ∧
      u.fetches = (Vector.ofFn fun i => FetchChan.start (u.settings.fetch[i]).enabled) ∧
      u.engine = Engine.initial ∧ u.monitor = Monitor.initial ∧ u.store = StoreCtl.initial ∧ u.dir = Directory.initial ∧
      u.integ = { scrub := [], reloc := none, nextPool := 0, poolErase := .none, error := u.integ.error
                  overflow := u.integ.overflow, corrected := u.integ.corrected, poisoned := u.integ.poisoned
                  correctedAhead := 0, programFail := 0, eraseFail := 0, torn := 0, scrubDropped := 0 } ∧
      u.link.restart = none ∧ u.link.store = none ∧
      (∀ p : PortId, u.port p =
          { rx := none, service := none, tx := [], notices := (u.port p).notices, ahead := none
            pad := { target := none, text := [], pf := false, locked := false, aa := false, gone := false }
            rate := u.settings.lineRate[portIndex p], requests := 0, lineErrors := 0, interbyte := 0, lengthErrors := 0
            crcErrors := 0, busyReplies := 0, denied := 0 } ∧
        (u.port p).notices.getLsbD 7 = true ∧ (u.port p).notices.getLsbD 3 = u.integ.error.isSome ∧
        ∀ i ∈ [0, 1, 2, 4, 5], (u.port p).notices.getLsbD i = false)
    let loaded := fun (u : State) =>
      (∀ k : Nat, k < 32 → positionGood u.flash k = true → (∀ j : Nat, j < k → positionGood u.flash j = false) →
        u.settings = imageSettings (positionBytes u.flash k) ∧ u.plan = imagePlan (positionBytes u.flash k) ∧
        ∀ p : PortId, (u.port p).notices.getLsbD 6 = false) ∧
      ((∀ k : Nat, k < 32 → positionGood u.flash k = false) →
        u.settings = Settings.initial ∧ u.plan = Plan.initial ∧ ∀ p : PortId, (u.port p).notices.getLsbD 6 = true)
    let told := fun (u : State) (r : Ring) =>
      let event := fun (kind : Byte) (page : Nat) (c : WordClass) (r : Ring) =>
        let n := ((readPhys u.flash page).filter fun w => w.cls = c).length
        if n = 0 then r else r.post u.time .integrity kind [BitVec.ofNat 32 page, BitVec.ofNat 32 n, 4]
      let read := (List.range 32).filter fun k =>
        !positionErased u.flash k && (List.range k).all fun j => !positionGood u.flash j
      let searched := (read.flatMap fun k => [256 + 4 * k, 257 + 4 * k, 258 + 4 * k, 259 + 4 * k]).foldl
        (fun r page => event 0x15 page .poisoned (event 0x14 page .corrected r)) r
      u.ring = if (List.range 32).any (positionGood u.flash) then searched
        else searched.post u.time .store 0x1F [if (List.range 128).all fun i => pageErased u.flash (256 + i) then 1 else 0]
    (∃ u : State, fresh u ∧ loaded u ∧ told u (Ring.empty.post 0 .ring 0x20 [0]) ∧ u.powered = true ∧ u.time = 0 ∧
      u.epoch = 0 ∧ u.epochValid = false ∧
      u.link.svcStrap = false ∧ u.ring.pin = none ∧ (s.powered = false → u.flash = wearFlash worn s.flash) ∧
      exec (.powerOn vhold worn) s = .next (if s.pins.pfail then keeping (beginEpisode vhold) u else u)) ∧
    (∀ r : RestartOp, s.powered = true → s.link.restart = some r → r.sent = true → s.store.flight = none →
      ∃ u : State, fresh u ∧ loaded u ∧
        told u (({ s.ring with pin := none } : Ring).post s.time .ring 0x20
          [1, BitVec.ofNat 32 (portIndex r.port).val, if r.force then 1 else 0]) ∧
        u.powered = true ∧ u.time = s.time ∧ u.epoch = s.epoch ∧ u.epochValid = s.epochValid ∧
        u.link.svcStrap = s.link.svcStrap ∧ u.ring.pin = none ∧ u.flash = s.flash ∧
        exec (.restartEffect vhold) s = .next (if s.pins.pfail then keeping (beginEpisode vhold) u else u)) ∧
    (s.link.restart = none ∨ s.store.flight ≠ none → exec (.restartEffect vhold) s = .next s) ∧
    (∀ r : RestartOp, s.link.restart = some r → r.sent = false → exec (.restartEffect vhold) s = .next s) ∧
    exec (.powerOn vhold []) { State.reset with powered := false } = .next State.reset

/-- R144, R134, R5: replay of a complete checkpoint ends in READY, with the directory rebuilt from the chosen block
and every ARMED term evaluated; without one, and not formatted, the part stays in STARTING (R142). After a format
there is nothing to re-read (log 28, the model's choice), and REPLAY_END in a READY part does nothing (log 3, the model's
choice). R142: with no complete checkpoint and the monitor in NORMAL, the format erases blocks 0 and 1 and writes the
checkpoint of generation 1 in the first page of block 0; outside the two blocks every byte reads as before. Cells that
come out right. The pages of both blocks that the search read are taken first (R154, log 26). -/
def Obligations.StartUpReplaysOrFormatsTheJournal : Prop :=
  (∀ s : State, s.powered = true →
       (s.ready = true → exec .replayEnd s = .next s) ∧ (s.ready = false →
       (formatted s = true → exec .replayEnd s = .next (keepingBut takeReady endReplay s)) ∧
       (∀ (block : Nat) (c : Checkpoint), formatted s = false → chosenBlock s.flash = some (block, c) →
         exec .replayEnd s = .next (keepingBut takeReady (fun u => endReplay (replayBlock block c u)) s)) ∧
       (formatted s = true ∨ chosenBlock s.flash ≠ none → ∃ t : State, exec .replayEnd s = .next t ∧ t.ready = true) ∧
       (formatted s = false → chosenBlock s.flash = none → exec .replayEnd s = .next s))) ∧
  (∀ s : State, s.powered = true → s.ready = false → formatted s = false → chosenBlock s.flash = none →
       s.monitor.state = .normal →
       ∃ u : State, exec (.journalFormat [] [] []) s = .next (settle u) ∧
         u.dir = { Directory.initial with gen := 1, nextSlot := 2, nextSeq := 2 } ∧
         u.store.retPages = [] ∧ u.store.retBlocks = [] ∧ u.ring = (post .directory 0x21 [1, 0] (searchReads 1 (searchReads 0 s))).ring ∧ u.ready = false ∧
         (∀ i : Nat, i < 64 → (storedPage u.flash 0).getD i Stored.erased =
           (if i < 8 then { data := (wordsOf 64 (slotBytes 0 (.checkpointBegin 1 0) ++ slotBytes 1 (.checkpointEnd 1 0))).getD i 0
                            diff := 0 }
             else Stored.erased)) ∧
         (∀ a : Nat, 512 ≤ a → a < 131072 → readByte u.flash a = 0xFF) ∧
         (∀ a : Nat, 131072 ≤ a → readByte u.flash a = readByte s.flash a) ∧
         (∀ w : Nat, 16384 ≤ w → readCheck u.flash w = readCheck s.flash w))

/-- R143: what replay reads of a journal block's slots: an erased slot carries no record, and a CRC that fails or a POISONED word
makes a slot torn. R142: a block's complete checkpoints, the latest of them, and the block that replay uses. R143: the slots that
are taken and the records that are kept of them, in the order of their sequence numbers; the figures, the next slot, the next
sequence number and the last capture number. R138: the retirement records at replay; a page or block stands in its table once, and
256 pages at most (8.2.1, R125). R144: the interrupted captures with their head pages and sections, and the directory in number
order. R134: the block states and the queued erases. R163: the next pool page. MODEL'S READINGS: a slot whose
bytes all read 0xFF is erased whatever class its words read (log 26), and a record whose head page is absent carries none (log
27). MODEL'S CHOICE (log 51): a section still IN_PROGRESS of a CLOSED capture becomes INTERRUPTED too. -/
def Obligations.ReplayTakesTheChosenBlock : Prop :=
  (∀ (f : Flash) (block : Nat), block < 64 →
     let words := fun i : Nat => ((readPhys f (128 * block + i / 16)).drop (4 * (i % 16))).take 4
     let bytes := fun i : Nat => (words i).flatMap fun w => wordBytes w.data
     (blockSlots f block).Pairwise (fun x y => x.slot < y.slot) ∧
     ∀ x : SlotRead, x ∈ blockSlots f block ↔ x.slot < 2048 ∧ x.bytes = bytes x.slot ∧ (∃ b ∈ x.bytes, b ≠ 0xFF) ∧
       (x.good = true ↔ x.bytes.drop 30 = leBytes 2 (crc16 (x.bytes.take 30)).toNat ∧ ∀ w ∈ words x.slot, w.cls ≠ .poisoned)) ∧
  (∀ (f : Flash) (block : Nat),
     let xs := blockSlots f block
     let complete := fun c : Checkpoint => ∃ (i j n : Nat) (x y : SlotRead), i < j ∧ xs[i]? = some x ∧ xs[j]? = some y ∧
       x.good = true ∧ y.good = true ∧ x.record = some (.checkpointBegin c.gen c.last) ∧
       y.record = some (.checkpointEnd c.gen n) ∧ c.slot = x.slot ∧ c.seq = x.seq
     (blockCheckpoint f block = none ↔ ∀ c : Checkpoint, ¬ complete c) ∧
     (∀ c : Checkpoint, blockCheckpoint f block = some c → complete c) ∧
     (∀ c d : Checkpoint, blockCheckpoint f block = some d → complete c →
       (∀ b : Checkpoint, complete b → b.gen = c.gen ∨ laterGen c.gen b.gen = true) → d.gen = c.gen)) ∧
  (∀ a b : BitVec 32, laterGen a b = true ↔ 1 ≤ (a - b).toNat ∧ (a - b).toNat ≤ 2147483647) ∧
  (∀ f : Flash,
     (blockCheckpoint f 0 = none → blockCheckpoint f 1 = none → chosenBlock f = none) ∧
     (∀ a : Checkpoint, blockCheckpoint f 0 = some a → blockCheckpoint f 1 = none → chosenBlock f = some (0, a)) ∧
     (∀ b : Checkpoint, blockCheckpoint f 0 = none → blockCheckpoint f 1 = some b → chosenBlock f = some (1, b)) ∧
     (∀ a b : Checkpoint, blockCheckpoint f 0 = some a → blockCheckpoint f 1 = some b →
       (laterGen a.gen b.gen = true → chosenBlock f = some (0, a)) ∧
       (laterGen b.gen a.gen = true → chosenBlock f = some (1, b)))) ∧
  (∀ (c : Checkpoint) (x : SlotRead), slotTaken c x = true ↔ x.good = true ∧ c.slot ≤ x.slot ∧ (x.seq - c.seq).toNat < 2048) ∧
  (∀ (c : Checkpoint) (xs : List SlotRead), xs.Pairwise (fun x y => x.slot < y.slot) →
     (keptSlots c xs).Pairwise (fun x y => (x.seq - c.seq).toNat < (y.seq - c.seq).toNat) ∧
     ∀ x : SlotRead, x ∈ keptSlots c xs ↔ x ∈ xs ∧ ∀ y ∈ xs, x.slot < y.slot → y.seq ≠ x.seq) ∧
  (∀ (block : Nat) (c : Checkpoint) (s : State), block < 64 → s.dir.torn = 0 →
     let u := replayBlock block c s
     let all := blockSlots s.flash block
     let taken := all.filter (slotTaken c)
     let kept := keptSlots c taken
     let rs := kept.filterMap SlotRead.record
     let t := rs.foldl (fun (v : State) r => applyRecord r v) s
     u.dir = { completeDirectory rs t.store t.dir with
       active := block, gen := c.gen, taken := taken.length, torn := (all.filter fun x => !x.good).length
       nextSlot := (all.getLast?.map fun x => x.slot + 1).getD 0
       nextSeq := (kept.getLast?.map fun x => x.seq + 1).getD (c.seq + 1)
       lastCap := rs.foldl (fun n r => match r with
         | .captureOpen cap .. => if n < cap then cap else n
         | _ => n) c.last } ∧
     u.store = t.store ∧ u.engine = s.engine ∧ u.flash = s.flash) ∧
  (∀ (r : JRec) (s : State), applyRecord r s = match r with
     | .retirePage ps => { s with store := { s.store with retPages := ps.foldl (fun xs p =>
         if p ∈ xs ∨ 256 ≤ xs.length then xs else xs ++ [p]) s.store.retPages } }
     | .retireBlock b cause => { s with store := { s.store with
         retBlocks := if ∃ x ∈ s.store.retBlocks, x.1 = b then s.store.retBlocks else s.store.retBlocks ++ [(b, cause)] } }
     | r => { s with dir := recordEffect r s.dir }) ∧
  (∀ (rs : List JRec) (t : StoreCtl) (d : Directory),
     let u := completeDirectory rs t d
     let carried := fun cap : Nat => (rs.filterMap fun r => match r with
       | .sectionBegin c _ _ _ _ _ head => if c = cap then head else none
       | .sectionDone c _ _ _ _ _ _ _ _ head => if c = cap then head else none
       | .captureClose c _ _ _ head => if c = cap then head else none
       | .captureSummary c _ _ _ _ head _ _ => if c = cap then head else none
       | _ => none).getLast?
     let usable := fun p : Nat => p ∉ t.retPages ∧ ∀ b ∈ t.retBlocks, b.1 ≠ p / 128
     let settled := fun e x : DirEntry =>
       (e.state = .closed → x = e) ∧
       (e.state ≠ .closed → ∃ head : Option Nat, x = { e with state := .interrupted, outcome := none, closeTime := none, head := head } ∧
         (∀ h : Nat, carried e.cap = some h → head = some h) ∧
         (carried e.cap = none → ∀ p : Nat, physOf e.blocks 0 = some p → usable p → head = some 0) ∧
         (carried e.cap = none → (∀ p : Nat, physOf e.blocks 0 = some p → ¬ usable p) → head = none))
     let es := entriesByCap d
     let lasting := fun x : SecEntry =>
       if x.status = .inProgress then { x with status := .interrupted, len := 0, pages := 0, gaps := 0 } else x
     es.Pairwise (fun a b => a.cap ≤ b.cap) ∧ (∀ e : DirEntry, e ∈ es ↔ ∃ i : Fin 32, d.slots[i] = .entry e) ∧
     u.sections = ((es.flatMap (sectionsOf d)).map lasting).mapIdx (fun k x => (k, SecSlot.entry x)) ∧
     u.map = d.map ∧
     ∀ i : Fin 32,
       (es[i.val]? = none → u.slots[i] = .free) ∧
       (∀ e : DirEntry, es[i.val]? = some e → ∃ x : DirEntry, settled e x ∧
         let before := ((es.take i.val).map fun y => (sectionsOf d y).length).sum
         u.slots[i] = .entry { x with sections := (List.range (sectionsOf d e).length).map fun k => before + k })) ∧
  (∀ s : State,
     let u := rebuildBlocks s
     let dirty := (List.finRange 60).filter fun i => u.store.blocks[i] = .dirty
     u = { s with store := { s.store with
       blocks := u.store.blocks, queue := s.store.queue ++ dirty.map fun i => .erase .area (4 + i.val) } } ∧
     ∀ i : Fin 60,
       let b := 4 + i.val
       let retired := ∃ x ∈ s.store.retBlocks, x.1 = b
       let owned := ∃ e ∈ entriesOf s.dir, some b ∈ e.blocks
       let blank := ∀ k : Nat, k < 128 → 128 * b + k ∉ s.store.retPages → pageErased s.flash (128 * b + k) = true
       (retired → u.store.blocks[i] = .retired) ∧
       (¬ retired → owned → ∃ e ∈ entriesOf s.dir, some b ∈ e.blocks ∧ u.store.blocks[i] = .allotted e.cap) ∧
       (¬ retired → ¬ owned → blank → u.store.blocks[i] = .free) ∧
       (¬ retired → ¬ owned → ¬ blank → u.store.blocks[i] = .dirty)) ∧
  (∀ s : State, ∃ n : Nat, scanPool s = { s with integ := { s.integ with nextPool := n } } ∧
     ((∀ k : Nat, k < 128 → pageErased s.flash (384 + k) = true) → n = 0) ∧
     (∀ k : Nat, k < 128 → pageErased s.flash (384 + k) = false →
       (∀ j : Nat, k < j → j < 128 → pageErased s.flash (384 + j) = true) → n = k + 1))

/-- R139: where a record that is handed over stands, and whom its acceptance answers; R139, R140: the slot that leaves fewer than
64 free in NORMAL, outside ERASE_ALL, starts a compaction at once, so that the next record goes to the pending list. R138:
CAPTURE_OPEN fills the slot reserved for its capture, or the lowest FREE one, and has no effect where there is neither (log 67,
the model's choice); the effect of the records of a capture that the directory holds, a BLOCK_LIST past the end of the list
leaving places that hold no block (log 65, DEDUCED); a record of one that it does not hold has none, and the other captures'
entries stay. R146, R147, R149: the accepted records of HOLD, RELEASE, DELETE and COMMIT_NOTE. R139, R112: a journal program
returned with HOLDUP outside a snapshot gives its records' slots and sequence numbers back, the records after them closing up, and
each requester is refused in turn: the engine's by the record's kind (an allotment undone, a section that began cut short,
CAPTURE_CLOSE formed again after the stall, a CAPTURE_OPEN or SECTION_DONE owed: log 43, the model's choice), a retirement kept
unjournaled until NORMAL (R124), a request answered HOLDUP (R147, R149), a reclamation and a relocation ended (R145, R162).
Whether a slot given back restarts a compaction: log 52. -/
def Obligations.JournalRecordsTakeEffect : Prop :=
  (∀ (r : JRec) (who : Who) (s : State),
     let starts := s.ready = true ∧ s.monitor.state = .normal ∧ s.dir.eraseAll = none ∧ 2048 - (s.dir.nextSlot + 1) < 64
     let slotGiven := fun comp : Compaction => hand r who s = { s with dir := { s.dir with
       slotted := s.dir.slotted ++ [{ block := s.dir.active, slot := s.dir.nextSlot, seq := s.dir.nextSeq, record := r
                                      who := who, flying := false }]
       nextSlot := s.dir.nextSlot + 1, nextSeq := s.dir.nextSeq + 1, comp := comp } }
     (s.dir.comp.state = .none → starts → slotGiven { Compaction.initial with state := .clearing }) ∧
     (s.dir.comp.state = .none → ¬ starts → slotGiven { s.dir.comp with paused := false }) ∧
     (s.dir.comp.state ≠ .none →
       hand r who s = { s with dir := { s.dir with pending := s.dir.pending ++ [(r, who)] } })) ∧
  (∀ (x : Slotted) (s : State),
     (x.who = .engine → (∀ cap o t g h, x.record ≠ .captureClose cap o t g h) →
       recordAccepted x s = { s with dir := recordEffect x.record s.dir }) ∧
     (x.who = .retirement → recordAccepted x s = s) ∧
     (x.who = .snapshot → (∀ gen n, x.record ≠ .checkpointEnd gen n) → recordAccepted x s = s)) ∧
  (∀ (cap : Nat) (d : Directory) (e : DirEntry), findEntry d cap = some e →
     let after' := fun r : JRec => findEntry (recordEffect r d) cap
     (∀ b : Nat, after' (.blockAllot cap b) = some { e with blocks := e.blocks ++ [some b] }) ∧
     (∀ (o : OutcomeCode) (t : PartTime) (g : TrigSet) (h : Option Nat), after' (.captureClose cap o t g h) =
       some { e with state := .closed, outcome := some o, closeTime := some t, trig := g, head := h }) ∧
     after' (.hold cap) = some { e with held := true } ∧ after' (.release cap) = some { e with held := false } ∧
     (∀ slot len : Nat, after' (.annotate cap slot len) = some { e with slots := setBit e.slots slot true }) ∧
     (∀ reason : DeleteReason, after' (.delete cap reason) = none) ∧
     (∀ (index entry first i : Nat) (kind : SecKind) (start : PartTime) (h : Option Nat),
       sectionPlace d cap index = some i →
       let r : JRec := .sectionBegin cap index entry kind first start h
       after' r = some { e with head := h, sections := if i ∈ e.sections then e.sections else e.sections ++ [i] } ∧
       sectionOf (recordEffect r d) i = some
         { cap := cap, index := index, entry := entry, kind := kind, status := .inProgress, len := 0, first := first
           pages := 0, gaps := 0, start := start } ∧
       ∀ j : Nat, j ≠ i → sectionOf (recordEffect r d) j = sectionOf d j) ∧
     (∀ (index entry len first pages gaps i : Nat) (kind : SecKind) (o : OutcomeCode) (h : Option Nat),
       sectionPlace d cap index = some i →
       let r : JRec := .sectionDone cap index entry kind o len first pages gaps h
       after' r = some { e with head := h, sections := if i ∈ e.sections then e.sections else e.sections ++ [i] } ∧
       (∃ start : PartTime, sectionOf (recordEffect r d) i = some
         { cap := cap, index := index, entry := entry, kind := kind, status := o, len := len, first := first
           pages := pages, gaps := min gaps 65535, start := start }) ∧
       ∀ j : Nat, j ≠ i → sectionOf (recordEffect r d) j = sectionOf d j) ∧
     (∀ (position : Nat) (blocks : List Nat), ∃ list : List (Option Nat),
       after' (.blockList cap position blocks) = some { e with blocks := list } ∧
       list.length = max e.blocks.length (position + blocks.length) ∧
       (∀ i : Nat, i < blocks.length → list[position + i]? = some blocks[i]?) ∧
       (∀ i : Nat, i < position ∨ position + blocks.length ≤ i → i < e.blocks.length → list[i]? = e.blocks[i]?) ∧
       (∀ i : Nat, e.blocks.length ≤ i → i < position → list[i]? = some none)) ∧
     (∀ (o : Option OutcomeCode) (g : TrigSet) (t : PartTime) (h : Option Nat) (held : Bool) (slots : BitVec 4),
       after' (.captureSummary cap true o g t h held slots) = some
         { e with state := .closed, outcome := o, closeTime := some t, trig := g, head := h, held := held, slots := slots } ∧
       after' (.captureSummary cap false o g t h held slots) = some
         { e with trig := g, head := h, held := held, slots := slots })) ∧
  (∀ (cap first : Nat) (trig : TrigSet) (valid : Bool) (openTime : PartTime) (epoch : BitVec 64) (i : Fin 32) (d : Directory),
     let opened : DirEntry :=
       { cap := cap, state := .opening, outcome := none, trig := trig, first := first, openTime := openTime, closeTime := none
         epoch := if valid then some epoch else none, head := none, blocks := [], sections := [], held := false, slots := 0
         damaged := 0 }
     let fills := recordEffect (.captureOpen cap trig first valid openTime epoch) d =
       { d with slots := vset d.slots i (.entry opened) }
     (d.slots[i] = .reserved cap → (∀ j : Fin 32, j < i → d.slots[j] ≠ .reserved cap) → fills) ∧
     ((∀ j : Fin 32, d.slots[j] ≠ .reserved cap) → d.slots[i] = .free → (∀ j : Fin 32, j < i → d.slots[j] ≠ .free) →
       fills) ∧
     ((∀ j : Fin 32, d.slots[j] ≠ .reserved cap) → (∀ j : Fin 32, d.slots[j] ≠ .free) →
       recordEffect (.captureOpen cap trig first valid openTime epoch) d = d)) ∧
  (∀ (r : JRec) (cap : Nat) (d : Directory), r.names = some cap →
     (findEntry d cap = none → recordEffect r d = d) ∧
     (∀ other : Nat, other ≠ cap → findEntry (recordEffect r d) other = findEntry d other)) ∧
  (∀ (x : Slotted) (p : PortId) (cap : Nat) (s : State), x.who = .port p →
     let u : State := { s with dir := recordEffect x.record s.dir }
     let held := heldCount u.dir
     (x.record = .hold cap → recordAccepted x s =
       answer p .ok false (leBytes 4 cap ++ leBytes 4 held) (post .directory 0x19 [cap, held] u)) ∧
     (x.record = .release cap → recordAccepted x s =
       answer p .ok false (leBytes 4 cap ++ leBytes 4 held) (post .directory 0x1A [cap, held] u)) ∧
     (∀ (reason : DeleteReason) (e : DirEntry), x.record = .delete cap reason → findEntry s.dir cap = some e →
       recordAccepted x s = answer p .ok false (leBytes 4 cap)
         (post .directory 0x1B [cap, (liveBlocks s e).length] (removeCapture e s))) ∧
     (∀ slot len : Nat, x.record = .annotate cap slot len → recordAccepted x s =
       answer p .ok false [4] ((post .directory 0x1C [cap, slot, len] u).onPort p fun q =>
         { q with pad := { target := none, text := [], pf := false, locked := false, aa := true } }))) ∧
  (∀ (page : Nat) (s : State), s.dir.comp.state ≠ .writing →
     let lost := fun x : Slotted => decide (128 * x.block + x.slot / 16 = page)
     let kept := s.dir.slotted.filter fun x => !lost x
     let places := s.dir.slotted.map fun x => (x.slot, x.seq)
     let place := fun i : Nat => places.getD i (s.dir.nextSlot, s.dir.nextSeq)
     journalRefused page s = (s.dir.slotted.filter lost).foldl (fun u x => recordRefused x u) { s with dir := { s.dir with
       slotted := kept.mapIdx fun i x => { x with slot := (place i).1, seq := (place i).2, flying := false }
       nextSlot := if kept = [] then (place 0).1 else (place (kept.length - 1)).1 + 1
       nextSeq := if kept = [] then (place 0).2 else (place (kept.length - 1)).2 + 1 } }) ∧
  (∀ (x : Slotted) (s : State),
     let stalled := fun u : State => applyExhaustion (u.onEngine fun g => { g with stall := true })
     let u := recordRefused x s
     (x.who = .engine →
       (∀ (cap block : Nat), x.record = .blockAllot cap block → u = refuseAllot block s) ∧
       (∀ (cap index entry first : Nat) (kind : SecKind) (start : PartTime) (h : Option Nat),
         x.record = .sectionBegin cap index entry kind first start h → u = refuseSectionBegin index s) ∧
       (∀ (cap : Nat) (o : OutcomeCode) (t : PartTime) (g : TrigSet) (h : Option Nat),
         x.record = .captureClose cap o t g h → u = stalled (s.onEngine fun g => { g with phase := .closeRecord })) ∧
       (∀ (cap first : Nat) (trig : TrigSet) (valid : Bool) (t : PartTime) (epoch : BitVec 64),
         x.record = .captureOpen cap trig first valid t epoch →
         u = stalled (s.onCapture fun c => { c with owed := c.owed ++ [x.record] })) ∧
       (∀ (cap index entry len first pages gaps : Nat) (kind : SecKind) (o : OutcomeCode) (h : Option Nat),
         x.record = .sectionDone cap index entry kind o len first pages gaps h →
         u = stalled (s.onCapture fun c => { c with owed := c.owed ++ [x.record] }))) ∧
     (x.who = .retirement → u = { s with store := { s.store with unjournaled := s.store.unjournaled ++ [(x.record, true)] } }) ∧
     (∀ p : PortId, x.who = .port p →
       (∀ cap slot len : Nat, x.record = .annotate cap slot len →
         u = answer p .holdup false [] (s.onPort p fun q => { q with pad := { q.pad with locked := true } })) ∧
       ((∀ cap slot len : Nat, x.record ≠ .annotate cap slot len) → u = answer p .holdup false [] s)) ∧
     (x.who = .reclaim →
       u = ({ s with dir := { s.dir with reclaim := none } } : State).onCapture fun c => { c with noReclaim := true }) ∧
     (x.who = .relocation → u = { s with integ := { s.integ with reloc := none } }) ∧
     (x.who = .eraseAll ∨ x.who = .snapshot → u = s)) ∧
  (∀ (i : Fin 60) (c : Capture) (s : State), s.engine.capture = some c →
     refuseAllot (4 + i.val) s = powerClose { s with
       store := { s.store with blocks := vset s.store.blocks i .free }
       engine := { s.engine with capture := some { c with blocks := c.blocks.filter fun b => b ≠ 4 + i.val } } }) ∧
  (∀ (index : Nat) (c : Capture) (s : State), s.engine.capture = some c →
     let going := s.engine.phase ≠ .secRecord ∧ s.engine.phase ≠ .skips ∧ s.engine.phase ≠ .closeRecord ∧ s.engine.phase ≠ .closeWait
     let page := fun j : Fin 4 => (s.engine.bufs[j]).page
     let waits := fun j : Fin 4 => (s.engine.bufs[j]).state = .filling ∨ (s.engine.bufs[j]).state = .queued
     (∀ x : Section, going → c.current = some x → x.index = index →
       let ends := fun next : Nat => refuseSectionBegin index s = reformClose { s with
         store := { s.store with queue := s.store.queue.filter fun q => ∀ j : Fin 4, waits j → q ≠ .buf j }
         fetches := (withdrawFor c s).fetches
         engine := { s.engine with
           state := .closing, phase := .drain, cause := if s.engine.cause = .none then .power else s.engine.cause
           bufs := Vector.ofFn fun j : Fin 4 =>
             if waits j then { s.engine.bufs[j] with state := .empty } else s.engine.bufs[j]
           capture := some { c with
             nextPage := next
             current := some { x with
               toPlace := [], items := [], records := 0, gaps := [], quietAt := none, ended := none, len := 0
               outcome := .skippedPower, early := true, pages := some 0
               stop := if s.engine.phase = .gather then x.img else x.stop } } } }
       ((∀ j : Fin 4, ¬ waits j) → ends c.nextPage) ∧
       (∀ l : Fin 4, waits l → (∀ j : Fin 4, j ≠ l → waits j → page l < page j) → ends (page l))) ∧
     (¬ going ∨ (∀ x : Section, c.current = some x → x.index ≠ index) → refuseSectionBegin index s = powerClose s))

/-- R140: when a compaction starts; CLEARING waits for the slotted records and queues the erase of the other block; the erase
done, or ended with its bad pages retired, the snapshot's records stand in that block in the order of steps 3 to 5, passing over
retired pages, with numbers that go on, its BLOCK_LIST records carrying a block list by twelves, around places that hold no block
(log 65, DEDUCED); CHECKPOINT_END accepted makes it the active block, gives the pending records their slots and posts
JOURNAL_COMPACTED. R141: room for records meanwhile; a snapshot program refused waits for NORMAL (R116), one that fails moves its
records on, and a block without slots enough abandons the compaction, which the next slot given starts again. R139: what a failed
program does to the slotted records outside the snapshot. R150: ERASE_ALL's checkpoint holds the retired tables alone and ends the
numbers and the note pads' targets (log 33, DEDUCED). MODEL'S CHOICES: that an abandoned one of ERASE_ALL starts again at once
(log 46); the place of records that the block's later pages have too few slots for (log 41); that a snapshot which does not fit
uses no sequence numbers while one abandoned after a failed program leaves its own used, and which slots given let an abandoned
compaction start again (log 52). -/
def Obligations.CompactionRewritesTheJournal : Prop :=
  let given := fun (block slot : Nat) (d : Directory) =>
    (d.pending.take (2048 - slot)).mapIdx fun i x =>
      ({ block := block, slot := slot + i, seq := d.nextSeq + BitVec.ofNat 32 i, record := x.1, who := x.2
         flying := false } : Slotted)
  let slotsOf := fun (retired : List Nat) (block page : Nat) =>
    ((List.range 128).filter fun k => page ≤ k && !retired.contains (128 * block + k)).flatMap fun k =>
      (List.range 16).map fun i => 16 * k + i
  let abandoned := fun d : Directory =>
    let k := min d.pending.length (2048 - d.nextSlot)
    { d with slotted := d.slotted.filter (fun x => x.who ≠ .snapshot) ++ given d.active d.nextSlot d, pending := d.pending.drop k
             nextSlot := d.nextSlot + k, nextSeq := d.nextSeq + BitVec.ofNat 32 k
             comp := { Compaction.initial with paused := d.nextSlot + k < 2048 } }
  (∀ s : State,
     (s.dir.comp.state = .none →
       let starts := s.ready = true ∧ s.monitor.state = .normal ∧ s.dir.eraseAll = none ∧ 2048 - s.dir.nextSlot < 64 ∧
         (s.dir.comp.paused = false ∨ 2048 ≤ s.dir.nextSlot)
       (journalRoom s = true ↔ s.dir.pending = [] ∧ s.dir.nextSlot < 2048) ∧
       (starts → compactStep s = .did { s with dir := { s.dir with comp := { Compaction.initial with state := .clearing } } }) ∧
       (¬ starts → compactStep s = .wait) ∧
       (∀ e : EraseAll, s.dir.eraseAll = some e → e.step = .checkpoint → eraseAllStep s = .did { s with
         dir := { s.dir with comp := { Compaction.initial with state := .clearing, all := true }
                             eraseAll := some { e with blocks := e.blocks ++ [1 - s.dir.active] } } })) ∧
     (s.dir.comp.state ≠ .none → (journalRoom s = true ↔ s.dir.pending.length < 16)) ∧
     (s.dir.comp.state = .clearing →
       (s.dir.slotted = [] → s.dir.comp.eraseQueued = false → compactStep s = .did { s with
         dir := { s.dir with comp := { s.dir.comp with eraseQueued := true } }
         store := { s.store with queue := s.store.queue ++ [.erase .journal (1 - s.dir.active)] } }) ∧
       (s.dir.slotted ≠ [] ∨ s.dir.comp.eraseQueued = true → compactStep s = .wait)) ∧
     (s.dir.comp.state = .writing → compactStep s = .wait)) ∧
  (∀ (done : Bool) (s : State), s.dir.comp.state = .clearing →
     let u := eraseHanded .journal done s
     let slots := slotsOf s.store.retPages (1 - s.dir.active) 0
     let last := if s.dir.comp.all then 0 else s.dir.lastCap
     let body := (groupsOf 4 64 s.store.retPages).map JRec.retirePage ++
       s.store.retBlocks.map (fun x => .retireBlock x.1 x.2) ++
       if s.dir.comp.all then []
       else (entriesByCap s.dir).flatMap (fun e =>
           let head := (shown s e).head
           [.captureOpen e.cap e.trig e.first e.epoch.isSome e.openTime (e.epoch.getD 0)] ++
           blockLists e ++
           (sectionsOf s.dir e).map (fun x => if x.status = .inProgress ∨ x.status = .interrupted
             then .sectionBegin x.cap x.index x.entry x.kind x.first x.start head
             else .sectionDone x.cap x.index x.entry x.kind x.status x.len x.first x.pages x.gaps head) ++
           [.captureSummary e.cap (e.state = .closed) (if e.state = .closed then e.outcome else none) e.trig
             (e.closeTime.getD 0) head e.held e.slots]) ++
         s.dir.map.map fun m => .relocate m.source m.pool m.poisoned
     let rs := .checkpointBegin (s.dir.gen + 1) last :: body ++ [.checkpointEnd (s.dir.gen + 1) body.length]
     (rs.length ≤ slots.length → u = { s with dir := { s.dir with
       slotted := rs.mapIdx fun i r => { block := 1 - s.dir.active, slot := slots.getD i 0
                                         seq := s.dir.nextSeq + BitVec.ofNat 32 i, record := r, who := .snapshot
                                         flying := false }
       nextSeq := s.dir.nextSeq + BitVec.ofNat 32 rs.length
       comp := { s.dir.comp with state := .writing, last := last, count := body.length } } }) ∧
     (slots.length < rs.length → u = { s with dir := abandoned s.dir })) ∧
  (∀ e : DirEntry,
     (∀ bl : List Nat, e.blocks = bl.map some → blockLists e = (groupsOf 12 6 bl).mapIdx fun i g => .blockList e.cap (12 * i) g) ∧
     (∀ r ∈ blockLists e, ∃ (position : Nat) (g : List Nat), r = .blockList e.cap position g ∧ 1 ≤ g.length ∧ g.length ≤ 12 ∧
       ∀ i : Nat, i < g.length → e.blocks[position + i]? = some g[i]?) ∧
     (e.blocks.length ≤ 60 → ∀ i b : Nat, e.blocks[i]? = some (some b) → ∃ (position : Nat) (g : List Nat),
       .blockList e.cap position g ∈ blockLists e ∧ position ≤ i ∧ g[i - position]? = some b)) ∧
  (∀ (x : Slotted) (gen : BitVec 32) (n : Nat) (s : State), x.who = .snapshot → x.record = .checkpointEnd gen n →
     let u := recordAccepted x s
     let k := min s.dir.pending.length (2048 - (x.slot + 1))
     let now := { s.dir with
       active := 1 - s.dir.active, gen := gen, comp := Compaction.initial
       slotted := s.dir.slotted ++ given (1 - s.dir.active) (x.slot + 1) s.dir, pending := s.dir.pending.drop k
       nextSlot := x.slot + 1 + k, nextSeq := s.dir.nextSeq + BitVec.ofNat 32 k }
     u.ring = s.ring.post s.time .directory 0x21 [gen, BitVec.ofNat 32 s.dir.comp.count] ∧
     (s.dir.comp.all = false → u.dir = now ∧ u.link = s.link ∧ u.trig = s.trig ∧ u.streams = s.streams) ∧
     (s.dir.comp.all = true →
       u.dir = { now with lastCap := 0, eraseAll := s.dir.eraseAll.map fun e => { e with step := .erases } } ∧
       (∀ p : PortId, u.port p =
         { s.port p with pad := { (s.port p).pad with gone := (s.port p).pad.target.isSome } }) ∧
       (∀ i : Fin 8, u.trig.terms[i] = { s.trig.terms[i] with assoc := none }) ∧
       ∀ ch : Fin 4, u.streams[ch] = { s.streams[ch] with noticed := 0 })) ∧
  (∀ (page : Nat) (s : State), s.dir.comp.state = .writing →
     let u := journalRefused page s
     u.dir = { s.dir with comp := { s.dir.comp with held := true } } ∧ journalPage u.dir = none ∧
     (releaseWaits u).dir = { s.dir with comp := { s.dir.comp with held := false } }) ∧
  (∀ (retired : List Nat) (page : Nat) (d : Directory), d.slotted ≠ [] →
     let u := moveOn retired page d
     let slots := slotsOf retired (page / 128) (page % 128 + 1)
     let placed := fun slot : Nat → Nat =>
       d.slotted.mapIdx fun i x => { x with block := page / 128, slot := slot i, flying := false }
     (d.comp.state = .writing →
       (d.slotted.length ≤ slots.length → u = { d with slotted := placed fun i => slots.getD i 0 }) ∧
       (slots.length < d.slotted.length → u = abandoned d)) ∧
     (d.comp.state ≠ .writing →
       (∀ first : Nat, slots.head? = some first → first + d.slotted.length ≤ 2048 →
         u = { d with slotted := placed (first + ·), nextSlot := first + d.slotted.length
                      comp := { d.comp with paused := false } }) ∧
       (slots = [] ∨ (∃ first : Nat, slots.head? = some first ∧ 2048 < first + d.slotted.length) →
         u = { d with slotted := [], pending := d.slotted.map (fun x => (x.record, x.who)) ++ d.pending
                      nextSlot := 2048 })))

/-! ## Requests at their port (chapter 11) -/

/-- R168 steps 1 to 5: what a request meets before its owning block: BUSY, UNKNOWN_KIND, DENIED, STARTING. R178: a
kind that names no request is answered UNKNOWN_KIND with the kind plus 0x80, modulo 0x100. R181: a request whose table row
admits one length is refused BAD_LENGTH with any other, and its read-ahead buffer is discarded; STATUS admits 0 and 1. -/
def Obligations.RequestsAreTakenInOrder : Prop :=
  (∀ (i : Instr) (p : PortId) (kind tag : Byte) (payload : List Byte) (s : State),
     i.request? = some (p, kind, tag, payload) → i.wellFormed = true → s.powered = true →
     (∀ r : InService, (s.port p).service = some r → exec i s = .next (s.onPort p fun q =>
       { q with tx := q.tx ++ [mkReply kind tag .busy false []], busyReplies := satInc q.busyReplies, rx := none })) ∧
     ((s.port p).service = none →
       (admission kind = none → exec i s = .next (replied p kind tag .unknownKind false [] s)) ∧
       (admission kind ≠ none → admits kind (portLevel p s) = false →
         exec i s = .next (refuse p .denied (raise .accessDenied (post (.port p) 0x1D [kind.toNat, (portLevel p s).code]
           ((inService p kind tag .none s).onPort p fun q => { q with denied := satInc q.denied }))))) ∧
       (admits kind (portLevel p s) = true → s.ready = false → kind ≠ kIdentify → kind ≠ kStatus →
         exec i s = .next (replied p kind tag .starting false [] s)))) ∧
  (∀ (p : PortId) (kind tag : Byte) (payload : List Byte) (s : State), s.powered = true → (s.port p).service = none →
     (kind = 0 ∨ 0x22 ≤ kind.toNat) → ∃ t : State, exec (.unknownKind p kind tag payload) s = .next t ∧
       (t.port p).tx = (s.port p).tx ++
         [{ kind := BitVec.ofNat 8 ((kind.toNat + 128) % 256), tag := tag, payload := [0x03, 0x00], restarts := false }] ∧
       (t.port p).requests = satInc (s.port p).requests ∧ (t.port p).service = none ∧ t.ring = s.ring) ∧
  (∀ (i : Instr) (p : PortId) (kind tag : Byte) (payload : List Byte) (n : Nat) (s : State),
    i.request? = some (p, kind, tag, payload) → i.wellFormed = true → soleLength kind = some n → payload.length ≠ n →
    servable p kind s = true → exec i s = .next ((replied p kind tag .badLength false [] s).onPort p fun q =>
      { q with ahead := if kind = kListCaptures then q.ahead else none }))

/-- R172: IDENTIFY, at every level and in every state; the revision number has the 4 bytes of log 10, the model's reading.
R171: STATUS reports the state as it stands and clears the asking port's notice flags but RESTARTED; a refused STATUS clears
nothing. -/
def Obligations.IdentifyAndStatusReport : Prop :=
  (∀ (p : PortId) (tag : Byte) (payload : List Byte) (s : State), s.powered = true → (s.port p).service = none →
     (payload = [] → exec (.identify p tag payload) s = .next (replied p kIdentify tag .ok false
       ([0x4F, 0x6C, 0x70, 0x69, 0x6D, 0x61, 0x72, 0x20, 0x55, 0x58, 0x33, 0x32, 0x34, 0x30] ++ leBytes 4 1 ++ leBytes 4 64 ++
         leBytes 4 128 ++ leBytes 4 512 ++ leBytes 4 32 ++ leBytes 4 48 ++ leBytes 4 1024 ++
         [BitVec.ofNat 8 (portLevel p s).code, if s.ready then 1 else 0] ++ leBytes 6 s.time.toNat) s)) ∧
     (payload ≠ [] → exec (.identify p tag payload) s = .next (replied p kIdentify tag .badLength false [] s))) ∧
  (∀ (p : PortId) (tag : Byte) (payload : List Byte) (s : State), s.powered = true → (s.port p).service = none →
     let t := inService p kStatus tag .none s
     let cleared := fun (u : State) => u.onPort p fun q => { q with notices := q.notices &&& 0x80 }
     let g := match payload with
       | [] => 0
       | b :: _ => b.toNat
     (p = .host → payload.length ≤ 1 → exec (.status p tag payload) s =
       .next (cleared (replied p kStatus tag .ok false (reducedStatus t) s))) ∧
     (∀ fields : List Byte, p ≠ .host → payload.length ≤ 1 → statusGroup g p t = some fields →
       exec (.status p tag payload) s = .next (cleared (replied p kStatus tag .ok false
         ((if s.ready then 1 else 0) :: leBytes 2 (s.port p).notices.toNat ++ fields) s))) ∧
     (p ≠ .host → payload.length ≤ 1 → (statusGroup g p t = none ↔ 8 ≤ g)) ∧
     (p ≠ .host → payload.length ≤ 1 → 8 ≤ g →
       exec (.status p tag payload) s = .next (replied p kStatus tag .badValue false [] s)) ∧
     (1 < payload.length → exec (.status p tag payload) s = .next (replied p kStatus tag .badLength false [] s)))

/-- R170: ACK_RESTART clears RESTARTED in all three copies. R177: RESTART is refused, decided at once, or with Force first
aborts the capture in progress, as R101 says: in OPENING by way of CLOSING (log 22, the model's choice), in GATHERING by an
early close. The reply of a restart that aborts no capture carries capture number 0 and outcome 0xFF (log 10, DEDUCED). A second
RESTART while one is decided (log 34) is left out. -/
def Obligations.AckRestartAndRestartAct : Prop :=
  (∀ (p : PortId) (tag : Byte) (s : State), servable p kAckRestart s = true →
     ∃ t : State, exec (.ackRestart p tag []) s = .next t ∧
       (∀ q : PortId, (t.port q).notices = (s.port q).notices &&& 0x7F ∧
         t.port q = { (replied p kAckRestart tag .ok false [] s).port q with notices := (s.port q).notices &&& 0x7F }) ∧
       t = { replied p kAckRestart tag .ok false [] s with link := t.link } ∧
       t.link.svcStrap = s.link.svcStrap ∧ t.link.store = s.link.store ∧ t.link.restart = s.link.restart) ∧
  (∀ (p : PortId) (tag force : Byte) (s : State), servable p kRestart s = true →
     let refused := fun st : Status => exec (.restart p tag [force]) s = .next (replied p kRestart tag st false [] s)
     let free := s.dir.eraseAll = none ∧ s.link.store = none
     (1 < force.toNat → refused .badValue) ∧
     (force.toNat ≤ 1 → s.monitor.state ≠ .normal → refused .holdup) ∧
     (force.toNat ≤ 1 → s.monitor.state = .normal → ¬ free → refused .inProgress) ∧
     (force = 0 → s.monitor.state = .normal → inProgress s = true → refused .inProgress) ∧
     (force.toNat ≤ 1 → s.monitor.state = .normal → free → current s = none → inProgress s = false → s.link.restart = none →
       exec (.restart p tag [force]) s = .next ((s.onPort p fun q =>
         { q with rx := none, service := none, requests := satInc q.requests, ahead := none
                  tx := q.tx ++ [{ mkReply kRestart tag .ok false (force :: leBytes 4 0 ++ [0xFF]) with restarts := true }] }).onLink
           fun l => { l with restart := some { port := p, force := decide (force = 1), sent := false } })) ∧
     (∀ c : Capture, force = 1 → s.monitor.state = .normal → free → current s = some c →
       exec (.restart p tag [force]) s =
         .next (settle (abortNow (inService p kRestart tag (.restartClose c.number) s))))) ∧
  (∀ s : State,
     let aborted := fun g : Engine => { g with state := EngState.closing, cause := if g.cause = .none then .abort else g.cause }
     (s.engine.state = .opening → abortNow s = s.onEngine aborted) ∧
     (s.engine.state = .gathering → abortNow s = closeEarly .abort .aborted s) ∧
     (s.engine.state ≠ .opening → s.engine.state ≠ .gathering → abortNow s = s))

/-- R175: READ_SETTINGS. The reply to 170 items, above 1,024 bytes, is sent as it is (log 10, DEDUCED). -/
def Obligations.ReadSettingsReportsWorkingValues : Prop :=
  ∀ (p : PortId) (tag : Byte) (payload : List Byte) (s : State), servable p kReadSettings s = true →
    let xs := (List.range (payload.length / 2)).map fun k =>
      ((payload.getD (2 * k) 0).toNat, (payload.getD (2 * k + 1) 0).toNat)
    (payload.length = 0 ∨ payload.length % 2 = 1 ∨ 340 < payload.length →
      exec (.readSettings p tag payload) s = .next (replied p kReadSettings tag .badLength false [] s)) ∧
    (payload.length ≠ 0 → payload.length % 2 = 0 → payload.length ≤ 340 → (∃ x ∈ xs, itemKnown x.1 x.2 = false) →
      exec (.readSettings p tag payload) s = .next (replied p kReadSettings tag .badValue false [] s)) ∧
    (payload.length ≠ 0 → payload.length % 2 = 0 → payload.length ≤ 340 → (∀ x ∈ xs, itemKnown x.1 x.2 = true) →
      exec (.readSettings p tag payload) s = .next (replied p kReadSettings tag .ok false
        (leBytes 4 xs.length ++ xs.flatMap fun x => leBytes 1 x.1 ++ leBytes 1 x.2 ++ leBytes 4 (s.settings.item x.1 x.2)) s))

/-- R174: WRITE_SETTINGS takes all its items or none: the checks in their order, the items with their indices (11.7), the legal
values, the windows' shape (R55), the clamps (R3, R9, R11, R23, R45, R56, R80, R108, R174), each item set in the order listed,
packing set off above 16 bits (R45), and the reply. -/
def Obligations.WriteSettingsTakesAllItemsOrNone : Prop :=
  (∀ code index : Nat, itemKnown code index = true ↔
     (code = 1 ∧ index < 16) ∨ (2 ≤ code ∧ code ≤ 7 ∧ index < 8) ∨ (8 ≤ code ∧ code ≤ 10 ∧ index = 0) ∨
     (11 ≤ code ∧ code ≤ 17 ∧ index < 4) ∨ (18 ≤ code ∧ code ≤ 22 ∧ index < 16) ∨
     (23 ≤ code ∧ code ≤ 28 ∧ index = 0) ∨ (code = 29 ∧ index < 3) ∨ (code = 30 ∧ index = 0)) ∧
  (∀ v : Nat,
     let within := fun lo hi : Nat => if v < lo then lo else if hi < v then hi else v
     clampItem 1 v = within 1 255 ∧ clampItem 2 v = v % 65536 ∧ clampItem 3 v = v % 65536 ∧ clampItem 6 v = within 0 3600 ∧
     clampItem 8 v = within 0 3600 ∧ clampItem 9 v = within 1 1024 ∧ clampItem 10 v = within 0 512 ∧
     clampItem 16 v = within 1 1000 ∧ clampItem 17 v = within 0 3 ∧ clampItem 23 v = within 1 600 ∧
     clampItem 24 v = within 100 65000 ∧ clampItem 25 v = within 3000 12000 ∧ clampItem 26 v = within 50 100 ∧
     clampItem 27 v = within 1 4095 ∧ clampItem 28 v = within 10 1000 ∧ clampItem 30 v = v % 256 ∧
     (let lengths := [8, 12, 16, 20, 24, 32]
      clampItem 13 v ∈ lengths ∧ (v ≤ 32 → v ≤ clampItem 13 v ∧ ∀ n ∈ lengths, v ≤ n → clampItem 13 v ≤ n) ∧
        (32 < v → clampItem 13 v = 32)) ∧
     (let rates := [9600, 19200, 38400, 57600, 115200, 230400, 460800, 921600]
      let far := fun r : Nat => (r - v) + (v - r)
      let near := clampItem 29 v
      near ∈ rates ∧ ∀ r ∈ rates, far near < far r ∨ (far near = far r ∧ r ≤ near)) ∧
     ∀ code ∈ [4, 5, 7, 11, 12, 14, 15, 18, 19, 20, 21, 22], clampItem code v = v) ∧
  (∀ (st : Settings) (code index v : Nat), itemKnown code index = true →
     (code ∈ [4, 5, 7, 11, 12, 14, 15, 18, 22] → v ≤ 1) → (code = 19 → v ≤ 3) →
     let t := st.setItem code index (clampItem code v)
     t.item code index = clampItem code v ∧
     ∀ c i : Nat, itemKnown c i = true → (c, i) ≠ (code, index) → t.item c i = st.item c i) ∧
  (∀ (p : PortId) (tag : Byte) (payload : List Byte) (s : State), servable p kWriteSettings s = true →
     let ok := payload.length ≠ 0 ∧ payload.length % 6 = 0 ∧ payload.length ≤ 1020
     let items := itemsOf payload
     let refused := fun st : Status => exec (.writeSettings p tag payload) s =
       .next (replied p kWriteSettings tag st false [] s)
     let unknown := ∃ it ∈ items, itemKnown it.code it.index = false
     let locked := inProgress s = true ∧ ∃ it ∈ items, 11 ≤ it.code ∧ it.code ≤ 22
     let illegal := ∃ it ∈ items, (it.code ∈ [4, 5, 7, 11, 12, 14, 15, 18, 22] ∧ 1 < it.value) ∨ (it.code = 19 ∧ 3 < it.value)
     let shapeless := ∃ it ∈ items, 18 ≤ it.code ∧ it.code ≤ 22 ∧
       ((s.settings.withItems items).windowAt it.index).limit < ((s.settings.withItems items).windowAt it.index).base
     (¬ ok → refused .badLength) ∧
     (ok → unknown → refused .badValue) ∧
     (ok → ¬ unknown → locked → refused .refusedState) ∧
     (ok → ¬ unknown → ¬ locked → illegal ∨ shapeless → refused .badValue) ∧
     (ok → ¬ unknown → ¬ locked → ¬ illegal → ¬ shapeless →
       let set := items.foldl (fun t it => t.setItem it.code it.index (clampItem it.code it.value)) s.settings
       let u := applyItems items (inService p kWriteSettings tag .none s)
       u.settings = { set with stream := Vector.ofFn fun i =>
         { set.stream[i] with packing := (set.stream[i]).packing && decide ((set.stream[i]).wordLen ≤ 16) } } ∧
       u.settings = s.settings.withItems items ∧ u.plan = s.plan ∧ u.flash = s.flash ∧
       exec (.writeSettings p tag payload) s = .next (settle (answer p .ok
         ((items.any fun it => clampItem it.code it.value ≠ it.value) ||
           (List.finRange 4).any fun i => (set.stream[i]).packing && decide (16 < (set.stream[i]).wordLen))
         (leBytes 2 items.length ++ (items.map fun it => leBytes 1 it.code ++ leBytes 1 it.index ++
           leBytes 4 (u.settings.item it.code it.index)).flatten) u))))

/-- R174: the items of a WRITE_SETTINGS take effect together, and each block acts on what changed. R46: a stream channel that
is disabled, or whose mode, word length or packing changes while it is enabled, is reset but for its claim; enabled, its
receiver waits for a release of SYNC that is asserted. R64: a fetch channel that is enabled or disabled is reset, and no other
item resets it. R7, R9: an ARMED term whose mask, polarity, source or combine mode changes is re-armed, which cannot fire it;
no other write changes a term. The reset discards an answer partly received (log 48, the model's choice). R3: a candidate that
has already held for a new filter width becomes the filtered level at this moment, and the others go on. MODEL'S CHOICE (log
36): the terms are re-armed first, then the lines take their widths in ascending order. -/
def Obligations.WrittenItemsReachTheBlocks : Prop :=
  ∀ (items : List Item) (s : State), s.ready = true →
    let old := s.settings
    let new := s.settings.withItems items
    let stream := fun ch : Fin 4 =>
      let a := old.stream[ch]
      let b := new.stream[ch]
      let reset := fun rx : RxState => ({
        rx := rx, assembly := none, fifo := [], pendDrops := 0, claim := (s.streams[ch]).claim, noticed := 0, received := 0
        taken := 0, aged := 0, overrun := 0, syncErrors := 0, truncated := 0 } : StreamChan)
      if b.enabled then
        (if a.enabled && a.mode = b.mode && a.wordLen = b.wordLen && a.packing = b.packing then s.streams[ch]
          else reset (if s.pins.sync.getLsbD ch.val then .waitRelease else .idle))
      else if a.enabled then reset .disabled else s.streams[ch]
    let fetch := fun ch : Fin 4 =>
      if (old.fetch[ch]).enabled = (new.fetch[ch]).enabled then s.fetches[ch]
      else ({
        state := if (new.fetch[ch]).enabled then .idle else .disabled, rx := none, region := none, txn := none, piece := none
        nextTag := 0, failures := 0, silent := none, transactions := 0, attempts := 0, timeouts := 0, naks := 0, failed := 0
        abandoned := 0, stale := 0, badAnswers := 0, silents := 0, bytesRead := 0 } : FetchChan)
    let term := fun n : Fin 8 =>
      let a := old.terms[n]
      let b := new.terms[n]
      let t := s.trig.terms[n]
      if t.state = .armed ∧ ¬ (a.mask = b.mask ∧ a.polarity = b.polarity ∧ a.source = b.source ∧ a.combine = b.combine) then
        { t with qualified := !condition b s.trig.filtered s.trig.latches } else t
    let written := { s with
      settings := new, streams := Vector.ofFn stream, fetches := Vector.ofFn fetch
      trig := { s.trig with terms := Vector.ofFn term } }
    let line := fun (u : State) (i : Fin 16) =>
      if old.filterWidth[i] = new.filterWidth[i] then u
      else match u.trig.cands[i] with
        | some c => if reached u.time (after c.start u.settings.filterWidth[i]) then filteredChange i c.level u else u
        | none => u
    applyItems items s = (List.finRange 16).foldl line written ∧
    ((∀ i : Fin 16, old.filterWidth[i] = new.filterWidth[i]) → applyItems items s = written)

/-- R176: STORE_SETTINGS copies the working settings and plan into the image and queues the erase of block 2; the end of each
erase and program of it: the next page, the reply with the position, once back to the erase after a FAIL, and its end. Without a
usable position it ends REFUSED_STATE (log 23, the model's reading); the position used has one byte (log 10, the model's reading);
and a first FAIL outside NORMAL, whose second erase would be held, ends it HOLDUP (R116). R150: ERASE_ALL takes the engine to
ERASING and waits; its steps: it waits for a compaction and for note commits, deletes each capture in number order, queues the
erase of the pool (R163; whatever the map holds: log 57, the model's choice), waits for a compaction before its checkpoint, and
answers when its erases have ended. What it counts: log 33 (DEDUCED). R163: the next pool page after an erase of the pool (log 54,
the model's choice after pages were retired). -/
def Obligations.StoreSettingsAndEraseAllWait : Prop :=
  (∀ (p : PortId) (tag : Byte) (s : State), servable p kStoreSettings s = true →
     let refused := fun st : Status => exec (.storeSettings p tag []) s = .next (replied p kStoreSettings tag st false [] s)
     (s.monitor.state ≠ .normal → refused .holdup) ∧
     (s.monitor.state = .normal → (s.dir.eraseAll ≠ none ∨ s.link.store ≠ none) → refused .inProgress) ∧
     (s.monitor.state = .normal → s.dir.eraseAll = none → s.link.store = none →
       let op : StoreOp := { port := p, image := settingsImage s.settings s.plan, step := .erasing, failed := false }
       exec (.storeSettings p tag []) s = .next (enqueue (.erase .settings 2)
         ((inService p kStoreSettings tag .settings s).onLink fun l => { l with store := some op })))) ∧
  (∀ (op : StoreOp) (page : Nat) (s : State), s.link.store = some op →
     let ended := fun (st : Status) (fields : List Byte) (t : State) =>
       answer op.port st false fields (t.onLink fun l => { l with store := none })
     let goesOn := fun (q : QReq) (step : StoreStep) (failed : Bool) =>
       enqueue q (s.onLink fun l => { l with store := some { op with step := step, failed := failed } })
     let usable := fun k : Nat => ∀ j : Nat, j < 4 → 256 + 4 * k + j ∉ s.store.retPages
     let fails := fun u : State =>
       (op.failed = true → u = ended .refusedState [] s) ∧
       (op.failed = false → s.monitor.state ≠ .normal → u = ended .holdup [] s) ∧
       (op.failed = false → s.monitor.state = .normal → u = goesOn (.erase .settings 2) .erasing true)
     (∀ k : Nat, k < 32 → usable k → (∀ j : Nat, j < k → ¬ usable j) →
       eraseHanded .settings true s = goesOn .settings (.programming (256 + 4 * k) 0) op.failed) ∧
     ((∀ k : Nat, k < 32 → ¬ usable k) → eraseHanded .settings true s = ended .refusedState [] s) ∧
     (∀ first k : Nat, op.step = .programming first k →
       (k < 3 → programAccepted .settings page s = goesOn .settings (.programming first (k + 1)) op.failed) ∧
       (3 ≤ k → programAccepted .settings page s =
         ended .ok (leBytes 1 ((first - 256) / 4)) (post (.port op.port) 0x1E [] s))) ∧
     fails (eraseHanded .settings false s) ∧ fails (programFailed .settings page s)) ∧
  (∀ (p : PortId) (tag : Byte) (s : State), servable p kEraseAll s = true →
     (s.monitor.state ≠ .normal → exec (.eraseAll p tag []) s = .next (replied p kEraseAll tag .holdup false [] s)) ∧
     (s.monitor.state = .normal → inProgress s = true →
       exec (.eraseAll p tag []) s = .next (replied p kEraseAll tag .inProgress false [] s)) ∧
     (s.monitor.state = .normal → inProgress s = false → exec (.eraseAll p tag []) s = .next (settle
       (((inService p kEraseAll tag .eraseAll s).onEngine fun e => { e with state := .erasing }).onDir fun d =>
         { d with eraseAll := some { port := p, step := .waiting, blocks := [], captures := 0, erased := 0 } })))) ∧
  (∀ (e : EraseAll) (s : State), s.dir.eraseAll = some e →
     let became := fun f : EraseAll => ({ s with dir := { s.dir with eraseAll := some f } } : State)
     let onWay := fun cap : Nat => (∃ x ∈ s.dir.slotted, x.who = .eraseAll ∧ x.record = .delete cap .eraseAll) ∨
       (.delete cap .eraseAll, .eraseAll) ∈ s.dir.pending
     let left := fun d : DirEntry => d ∈ entriesOf s.dir ∧ ¬ onWay d.cap
     (e.step = .waiting →
       (s.dir.comp.state = .none → (∀ p : PortId, committing p s = none) →
         eraseAllStep s = .did (became { e with step := .deleting })) ∧
       (s.dir.comp.state ≠ .none ∨ (∃ p : PortId, committing p s ≠ none) → eraseAllStep s = .wait)) ∧
     (e.step = .deleting →
       (entriesOf s.dir = [] → eraseAllStep s = .did (became { e with step := .pool })) ∧
       (∀ d : DirEntry, left d → (∀ y : DirEntry, left y → d.cap ≤ y.cap) → eraseAllStep s =
         if journalRoom s && ordinaryOk s then .did (hand (.delete d.cap .eraseAll) .eraseAll s) else .wait) ∧
       (entriesOf s.dir ≠ [] → (∀ d : DirEntry, ¬ left d) → eraseAllStep s = .wait)) ∧
     (e.step = .pool →
       let next := became { e with step := .checkpoint, blocks := e.blocks ++ [3] }
       (s.integ.poolErase = .none → eraseAllStep s = .did { next with
         store := { s.store with queue := s.store.queue ++ [.erase .pool 3] }
         integ := { s.integ with poolErase := .queued } }) ∧
       (s.integ.poolErase ≠ .none → eraseAllStep s = .did next)) ∧
     (e.step = .checkpoint → s.dir.comp.state ≠ .none → eraseAllStep s = .wait) ∧
     (e.step = .erases →
       (e.blocks = [] → eraseAllStep s = .did (answer e.port .ok false (leBytes 4 e.captures ++ leBytes 4 e.erased)
         { s with dir := { s.dir with eraseAll := none }, engine := { s.engine with state := .idle } })) ∧
       (e.blocks ≠ [] → eraseAllStep s = .wait))) ∧
  (∀ (x : Slotted) (cap : Nat) (why : DeleteReason) (d : DirEntry) (s : State),
     x.who = .eraseAll → x.record = .delete cap why → findEntry s.dir cap = some d →
     let live := liveBlocks s d
     recordAccepted x s = post .directory 0x1B [cap, live.length] ((removeCapture d s).onDir fun y =>
       { y with eraseAll := y.eraseAll.map fun e => { e with captures := e.captures + 1, blocks := e.blocks ++ live } })) ∧
  (∀ (done : Bool) (s : State),
     let u := eraseHanded .pool done s
     u = { s with integ := { s.integ with nextPool := u.integ.nextPool, poolErase := .none } } ∧
     (∀ k : Nat, k < 128 → 384 + k ∉ s.store.retPages → (∀ j : Nat, j < k → 384 + j ∈ s.store.retPages) → u.integ.nextPool = k) ∧
     ((∀ k : Nat, k < 128 → 384 + k ∈ s.store.retPages) → u.integ.nextPool = 128)) ∧
  (∀ (who : Eraser) (block : Nat) (bad : List Nat) (s : State),
     let counted := fun e : EraseAll => if block ∈ e.blocks then
         { e with blocks := e.blocks.filter (fun b => b ≠ block), erased := if bad = [] then e.erased + 1 else e.erased }
       else e
     (eraseEnded who block bad s).dir.eraseAll = s.dir.eraseAll.map counted)

/-- R173: SET_TIME. The origin of TIME_SET is the port whose level alone admits the request. -/
def Obligations.SetTimeSetsTheEpochOffset : Prop :=
  ∀ (p : PortId) (tag : Byte) (payload : List Byte) (s : State), servable p kSetTime s = true → payload.length = 8 →
    let off : BitVec 64 := BitVec.ofNat 64 (leNat payload) - s.time.setWidth 64
    exec (.setTime p tag payload) s = .next
      { replied p kSetTime tag .ok false (leBytes 8 off.toNat)
          (post (.port p) 0x22 [off.toNat % 4294967296, off.toNat / 4294967296, if s.epochValid then 1 else 0] s) with
        epoch := off, epochValid := true }

/-- R12, R156, R157, R158, R165: READ_LINES, LIST_CAPTURES, READ_CAPTURE, READ_ERRORS change nothing but their port;
ACK_ERRORS empties the error capture record. LIST_CAPTURES sends its summaries, their number and the mark that more follow, in this
order (log 10, DEDUCED). -/
def Obligations.ReportsChangeOnlyTheirPort : Prop :=
  ∀ (p : PortId) (tag : Byte) (payload : List Byte) (s : State),
    (servable p kReadLines s = true →
      exec (.readLines p tag []) s = .next (replied p kReadLines tag .ok false (linesReply s) s)) ∧
    (servable p kReadErrors s = true →
      exec (.readErrors p tag []) s = .next (replied p kReadErrors tag .ok false (errorsReply s) s)) ∧
    (servable p kAckErrors s = true →
      exec (.ackErrors p tag []) s = .next (replied p kAckErrors tag .ok false (errorFields s.integ)
        (s.onInteg fun g => { g with error := none, overflow := false }))) ∧
    (servable p kListCaptures s = true → payload.length = 4 →
      let all := ((entriesByCap s.dir).filter fun e => leNat payload ≤ e.cap).map (shown s)
      exec (.listCaptures p tag payload) s = .next (replied p kListCaptures tag .ok false
        ((all.take 16).flatMap (summaryOf s) ++ leBytes 4 (all.take 16).length ++ [if 16 < all.length then 1 else 0]) s)) ∧
    (∀ e : DirEntry, servable p kReadCapture s = true → payload.length = 4 → findEntry s.dir (leNat payload) = some e →
      exec (.readCapture p tag payload) s = .next (replied p kReadCapture tag .ok false (captureReply s (shown s e)) s))

/-- R155: a capture number that the directory does not hold. R158: READ_HEAD delivers the head page, or REFUSED_STATE where there
is none; a recorded head page that the block list gives no block is answered so too (log 47, the model's choice). R129: while a
program of the head page or an erase of its block is in flight it waits (log 19, DEDUCED), and further clauses say when that is
and what the request then does at the operation's end. R152, R161: a page is read at its pool page where the map holds it, with
the words that its entry marks POISONED. R153: the class and data of each word, found by a search over the uninterpreted code; at
no distance up to two from a codeword they are free (log 6, UNVERIFIED). -/
def Obligations.HeadPageIsReadOrRefused : Prop :=
  (∀ (p : PortId) (tag : Byte) (payload : List Byte) (s : State), payload.length = 4 →
     findEntry s.dir (leNat payload) = none →
     let st : Status := if leNat payload = 0 ∨ s.dir.lastCap < leNat payload then .notFound else .gone
     (servable p kReadCapture s = true →
       exec (.readCapture p tag payload) s = .next (replied p kReadCapture tag st false [] s)) ∧
     (servable p kReadHead s = true → exec (.readHead p tag payload) s = .next (replied p kReadHead tag st false [] s)) ∧
     (∀ rest : List Byte, servable p kReadSection s = true → rest.length = 7 →
       exec (.readSection p tag (payload ++ rest)) s = .next ((replied p kReadSection tag st false [] s).onPort p fun q =>
         { q with ahead := none }))) ∧
  (∀ (p : PortId) (tag : Byte) (payload : List Byte) (e : DirEntry) (s : State), servable p kReadHead s = true →
     payload.length = 4 → findEntry s.dir (leNat payload) = some e →
     let head := (shown s e).head.bind (physOf e.blocks)
     (∀ src : Nat, head = some src → headFlying s (shown s e) = true →
       exec (.readHead p tag payload) s = .next (inService p kReadHead tag (.read payload) s)) ∧
     (∀ src : Nat, head = some src → headFlying s (shown s e) = false →
       let ws := readMapped s src
       exec (.readHead p tag payload) s = .next (answer p .ok false
         (leBytes 4 e.cap ++ (ws.flatMap fun w => wordBytes w.data) ++ leBytes 4 (countClass .corrected ws) ++
           leBytes 2 (poisonOffsets ws).length ++ ((poisonOffsets ws).map (leBytes 4)).flatten)
         (takePage .retrieve src (mapped s.dir.map src) ws (inService p kReadHead tag .none s)))) ∧
     (head = none → exec (.readHead p tag payload) s = .next (replied p kReadHead tag .refusedState false [] s))) ∧
  (∀ (e : DirEntry) (s : State), headFlying s e = true ↔
     ∃ src : Nat, e.head.bind (physOf e.blocks) = some src ∧ pageBusy s (mapped s.dir.map src) = true) ∧
  (∀ (page : Nat) (s : State), pageBusy s page = true ↔
     (∃ who content, s.store.flight = some (.program who page content)) ∨
       ∃ who, s.store.flight = some (.erase who (page / 128))) ∧
  (∀ (p : PortId) (tag : Byte) (level : Level) (payload : List Byte) (e : DirEntry) (s : State),
     (s.port p).service = some { kind := kReadHead, tag := tag, level := level, wait := .read payload } →
     findEntry s.dir (leNat (payload.take 4)) = some e →
     resumeRead p s = deliverHead p (shown s e) (setWait p .none s)) ∧
  (∀ (s : State) (p : Nat),
     let map := s.dir.map.find? fun m => m.source = p
     let at' := match map with
       | some m => 384 + m.pool
       | none => p
     let set := match map with
       | some m => m.poisoned
       | none => 0
     mapped s.dir.map p = at' ∧ (readMapped s p).length = 64 ∧
     ∀ i : Nat, i < 64 →
       let w := (storedPage s.flash at').getD i Stored.erased
       (readMapped s p)[i]? = some (if set.getLsbD i then { data := w.data, cls := .poisoned } else classify w)) ∧
  (∀ w : Stored,
     let check := fun d : BitVec 64 => if d = BitVec.allOnes 64 then 0xFF else Config.eccCheck d
     let c := check w.data ^^^ w.diff
     let flip := fun i : Nat => BitVec.twoPow 64 i
     let ones := fun b : Byte => ((List.range 8).filter fun i => b.getLsbD i).length
     let fixes := fun i : Nat => i < 64 ∧ check (w.data ^^^ flip i) = c
     let two := ones (check w.data ^^^ c) = 2 ∨ (∃ i : Nat, i < 64 ∧ ones (check (w.data ^^^ flip i) ^^^ c) = 1) ∨
       ∃ i j : Nat, j < i ∧ i < 64 ∧ check (w.data ^^^ flip i ^^^ flip j) = c
     (w.diff = 0 → classify w = { data := w.data, cls := .clean }) ∧
     (ones w.diff = 1 → classify w = { data := w.data, cls := .corrected }) ∧
     (w.diff ≠ 0 → ones w.diff ≠ 1 →
       (∀ i : Nat, fixes i → (∀ j : Nat, j < i → ¬ fixes j) → classify w = { data := w.data ^^^ flip i, cls := .corrected }) ∧
       ((∀ i : Nat, ¬ fixes i) → two → classify w = { data := w.data, cls := .poisoned }) ∧
       ((∀ i : Nat, ¬ fixes i) → ¬ two → classify w = match Config.farClass w.data c with
         | 0 => { data := w.data, cls := .clean }
         | 1 => { data := Config.farData w.data c, cls := .corrected }
         | 2 => { data := w.data, cls := .poisoned })))

/-- R159, R160: READ_SECTION is refused with its buffer discarded, or serves the bytes from the offset: the length clamped to
1 to 512 and to the image's end, with CLAMPED; each page it touches from the read-ahead buffer or through the map, taken; the
words' counts and the poison list; and the next image page is left in the read-ahead buffer. R129: where an operation is in flight
on a page that it reads, it waits, and when that has ended it does what a new request would do (log 19, DEDUCED); where that is the
page to be read ahead alone it waits too (log 64, the model's choice). R152: the image length of a
section by its outcome; a trailer that early endings may lack counts as is known since the section's end, and after a start-up as
log 42 derives it (DEDUCED); an ABORTED section without a page has the 32 bytes of the formula. R152: the image pages are
the section's pages, in order, that are not retired, without those last ones in RETIRED blocks that are more than the image
needs (log 42), and each is read through the block list and the map; a page beyond the block list gives free words (log 20,
UNVERIFIED). -/
def Obligations.ReadSectionServesTheImage : Prop :=
  (∀ (e : DirEntry) (x : SecEntry) (s : State),
     let whole := 48 + x.len + 8 * min x.gaps 16
     (x.status = .complete ∨ x.status = .limited ∨ x.status = .sourceSilent ∨ x.status = .deniedAll → imageLength s e x = whole) ∧
     (x.status = .storeFault → imageLength s e x = 32 + x.len) ∧ (x.status = .interrupted → imageLength s e x = 0) ∧
     (x.status = .skippedSpace ∨ x.status = .skippedBudget ∨ x.status = .skippedPower ∨ x.status = .skippedAbort ∨
         x.status = .aborted →
       let known := s.dir.trailers.find? fun m => m.cap = x.cap && m.index = x.index
       (x.pages = 0 → x.status ≠ .aborted → imageLength s e x = 0) ∧
       (∀ m : TrailerMark, x.pages ≠ 0 ∨ x.status = .aborted → known = some m →
         imageLength s e x = if m.written then whole else 32 + x.len) ∧
       (x.pages = 0 → x.status = .aborted → x.len = 0 → known = none → imageLength s e x = 32) ∧
       (x.pages ≠ 0 → known = none → imageLength s e x = whole ∨ imageLength s e x = 32 + x.len))) ∧
  (∀ (p : PortId) (tag idx : Byte) (num4 off4 len2 : List Byte) (e : DirEntry) (s : State), servable p kReadSection s = true →
     num4.length = 4 → off4.length = 4 → len2.length = 2 → findEntry s.dir (leNat num4) = some e →
     let run := exec (.readSection p tag (num4 ++ idx :: off4 ++ len2)) s
     let refused := fun st : Status => run = .next ((replied p kReadSection tag st false [] s).onPort p fun q =>
       { q with ahead := none })
     let off := leNat off4
     let asked := leNat len2
     (sectionNumbered s.dir e idx.toNat = none → refused .notFound) ∧
     (∀ x : SecEntry, sectionNumbered s.dir e idx.toNat = some x →
       let now := shown s e
       let img := imageLength s now x
       let pages := imagePages s now x
       let len := min (if asked = 0 then 1 else if 512 < asked then 512 else asked) (img - off)
       let last := (off + len - 1) / 512
       let page := fun k : Nat => match (s.port p).ahead, pages[k]? with
         | some a, some n =>
           if a.cap = e.cap ∧ a.sec = x.index ∧ a.lpage = n then
             { source := physOf e.blocks n, phys := a.ppage, words := a.words } else readImagePage s now x k
         | _, _ => readImagePage s now x k
       let words := if off / 512 = last then (page last).words else (page (off / 512)).words ++ (page last).words
       let held := (List.range ((off % 8 + len + 7) / 8)).filterMap fun i =>
         (words[off % 512 / 8 + i]?).map fun w => (off % 512 / 8 + i, w)
       let poisoned := held.filter fun w => w.2.cls = .poisoned
       let list := poisoned.take 64
       let took := if off / 512 = last then takeRead (page last) s else takeRead (page last) (takeRead (page (off / 512)) s)
       let next := readImagePage s now x (last + 1)
       let busy := fun k : Nat => ∃ n src : Nat, pages[k]? = some n ∧ physOf e.blocks n = some src ∧
         pageBusy s (mapped s.dir.map src) = true
       let buffered := fun k : Nat => ∃ a : ReadAhead, (s.port p).ahead = some a ∧ a.cap = e.cap ∧ a.sec = x.index ∧
         pages[k]? = some a.lpage
       let waits := (busy (off / 512) ∧ ¬ buffered (off / 512)) ∨ (busy last ∧ ¬ buffered last) ∨ busy (last + 1)
       let ahead :=
         min (took.integ.correctedAhead + (next.words.filter fun w => w.cls = .corrected).length) 4294967295
       (x.status = .inProgress → refused .inProgress) ∧
       (x.status ≠ .inProgress → img ≤ off → refused .badValue) ∧
       (x.status ≠ .inProgress → off < img → waits →
         run = .next (inService p kReadSection tag (.read (num4 ++ idx :: off4 ++ len2)) s)) ∧
       (x.status ≠ .inProgress → off < img → ¬ waits → ∃ t : State, run = .next t ∧
         (t.port p).service = none ∧
         (t.port p).tx = (s.port p).tx ++ [mkReply kReadSection tag .ok (decide (len ≠ asked))
           (leBytes 4 e.cap ++ leBytes 1 x.index ++ leBytes 4 off ++ leBytes 4 len ++ leBytes 4 img ++
             leBytes 4 (held.filter fun w => w.2.cls = .corrected).length ++ leBytes 4 poisoned.length ++
             leBytes 2 list.length ++ (list.map fun w => leBytes 4 (8 * w.1 - off % 512)).flatten ++
             (((words.flatMap fun w => wordBytes w.data).drop (off % 512)).take len))] ∧
         (t.port p).ahead = (pages[last + 1]?).map (fun n =>
           { cap := e.cap, sec := x.index, lpage := n, ppage := next.phys, words := next.words }) ∧
         t.ring = took.ring ∧
         t.integ = (if pages[last + 1]? = none then took.integ else { took.integ with correctedAhead := ahead }) ∧
         t.flash = s.flash ∧ t.dir = s.dir ∧ t.store = s.store))) ∧
  (∀ (p : PortId) (tag : Byte) (level : Level) (payload : List Byte) (s : State),
     (servable p kReadSection s = true →
       exec (.readSection p tag payload) s = .next (readSection p payload (inService p kReadSection tag .none s))) ∧
     ((s.port p).service = some { kind := kReadSection, tag := tag, level := level, wait := .read payload } →
       resumeRead p s = readSection p payload (setWait p .none s))) ∧
  (∀ (e : DirEntry) (x : SecEntry) (s : State),
     let whole := 48 + x.len + 8 * min x.gaps 16
     x.status = .skippedSpace ∨ x.status = .skippedBudget ∨ x.status = .skippedPower ∨ x.status = .skippedAbort ∨
         x.status = .aborted → x.pages ≠ 0 → (∀ m ∈ s.dir.trailers, m.cap ≠ x.cap ∨ m.index ≠ x.index) →
       let used := (32 + x.len) % 512
       (used ≠ 0 → x.len ≠ 0 ∨ x.status = .aborted → imageLength s e x = if used + 16 + 8 * min x.gaps 16 ≤ 512 then whole else 32 + x.len) ∧
       (used = 0 → x.status ≠ .skippedPower → imageLength s e x = 32 + x.len)) ∧
  (∀ (e : DirEntry) (x : SecEntry) (s : State),
     let block := fun n : Nat => (e.blocks[n / 128]?).join
     let good := ((List.range x.pages).map fun i => x.first + i).filter fun n =>
       match block n with
       | some b => !s.store.retPages.contains (128 * b + n % 128)
       | none => true
     let bad := good.filter fun n => (List.finRange 60).any fun i => block n = some (4 + i.val) && s.store.blocks[i] = .retired
     let k := (imageLength s e x + 511) / 512
     let tail := bad.drop (bad.length - (good.length - k))
     imagePages s e x = (good.filter fun n => n ∉ tail).take k) ∧
  (∀ (e : DirEntry) (x : SecEntry) (k : Nat) (s : State),
     (∀ n b : Nat, (imagePages s e x)[k]? = some n → e.blocks[n / 128]? = some (some b) →
       let p := 128 * b + n % 128
       readImagePage s e x k = { source := some p, phys := mapped s.dir.map p, words := readMapped s p }))

/-- The fields that replies carry, in their rules' orders and R182's sizes: READ_LINES (R12), the groups of STATUS (R48, R63,
R104, R118, R133, R151, R171) and its reduced form, the note pad, the summaries and the entry of a capture (R156, R157), and the
error capture record with the unit's figures (R165). MODEL'S READINGS (log 10): sizes that R182 does not give, the codes of
states, all fields of one instance before the next instance's, a section-table index in one byte, the annotation slots used in
two, the next slot as a number; a place of a block list that holds no block is sent as 0 (log 65). MODEL'S CHOICES: the address of
the next byte to be fetched with nothing in flight (log 37), reserved section-table entries count as in use (log 53). -/
def Obligations.RepliesCarryTheirFields : Prop :=
  let num := leBytes 4
  let set := leBytes 2
  let time := fun t : PartTime => leBytes 6 t.toNat
  let mark := fun b : Bool => if b then (1 : Byte) else 0
  let code := fun o : Option OutcomeCode => match o with
    | some c => c.code
    | none => 0xFF
  let left := fun (us : Nat) (now : PartTime) (o : Option PartTime) => match o with
    | none => 0
    | some t => if reached now t then 0 else ((t - now).toNat + us - 1) / us
  ([TermState.disabled, .armed, .fired].map TermState.code = [0, 1, 2] ∧
    [RxState.disabled, .idle, .receiving, .waitRelease].map RxState.code = [0, 1, 2, 3] ∧
    [FetchState.disabled, .idle, .asking, .delivering].map FetchState.code = [0, 1, 2, 3] ∧
    [EngState.idle, .opening, .gathering, .closing, .erasing].map EngState.code = [0, 1, 2, 3, 4] ∧
    [MonState.normal, .holdup, .exhausted, .recovering].map MonState.code = [0, 1, 2, 3] ∧
    [BufState.empty, .filling, .queued, .programming].map BufState.code = [0, 1, 2, 3] ∧
    [CloseCause.none, .space, .budget, .power, .abort].map CloseCause.code = [0, 1, 2, 3, 4] ∧
    [CompState.none, .clearing, .writing].map CompState.code = [0, 1, 2] ∧
    [PoolErase.none, .queued, .erasing].map PoolErase.code = [0, 1, 2] ∧
    [CapState.opening, .gathering, .closing, .closed, .interrupted].map CapState.code = [0, 1, 2, 3, 4] ∧
    [ErrKind.corrected, .poisoned, .programFail, .eraseFail, .journalTorn].map ErrKind.code = [0, 1, 2, 3, 4] ∧
    [Operation.retrieve, .replay, .relocate, .verify, .settings].map Operation.code = [0, 1, 2, 3, 4] ∧
    [SecKind.stream, .fetch, .history, .note].map SecKind.code = [0, 1, 2, 3] ∧
    [OutcomeCode.complete, .limited, .sourceSilent, .deniedAll, .storeFault, .aborted, .skippedSpace, .skippedBudget,
      .skippedPower, .skippedAbort, .partialDone, .truncatedPower, .truncatedSpace, .truncatedBudget, .inProgress,
      .interrupted].map OutcomeCode.code = [0, 1, 2, 3, 4, 5, 6, 7, 8, 9, 0x10, 0x11, 0x12, 0x13, 0x20, 0x21]) ∧
  (∀ s : State, linesReply s = set s.trig.filtered.toNat ++ set s.trig.latches.toNat ++
    s.trig.terms.toList.flatMap (fun t => [t.state.code, mark t.qualified] ++ num (t.assoc.getD 0) ++
      num (left 1000000 s.time t.rearmAt) ++ num t.fires) ++
    num (left 1000000 s.time s.trig.hostTimer) ++ num s.trig.hostRefusals ++ set s.trig.indicators.toNat) ∧
  (∀ (p : PortId) (s : State), statusGroup 0 p s = some ([mark s.ready, s.monitor.state.code, s.engine.state.code] ++
    num (((current s).map fun c => c.number).getD 0) ++ time s.time ++ leBytes 8 s.epoch.toNat ++
    [mark s.epochValid, mark s.link.svcStrap, BitVec.ofNat 8 (portLevel p s).code])) ∧
  (∀ (p : PortId) (s : State), statusGroup 1 p s = some (s.link.ports.toList.flatMap (fun q => num q.rate ++
      [match q.service with | some r => r.kind | none => 0xFF] ++ num q.requests ++ num q.lineErrors ++ num q.interbyte ++
      num q.lengthErrors ++ num q.crcErrors ++ num q.busyReplies ++ num q.denied) ++
    set s.settings.noticeMask.toNat ++
    [mark (s.powered && decide ((s.port .management).notices &&& s.settings.noticeMask ≠ 0))])) ∧
  (∀ (p : PortId) (s : State), statusGroup 2 p s = some ((List.finRange 4).flatMap fun ch =>
    let g := s.settings.stream[ch]
    let c := s.streams[ch]
    [mark g.enabled, mark (g.mode = .paired)] ++ num g.wordLen ++ [mark g.packing, c.rx.code] ++
      num (c.fifo.map fun r => 12 + 4 * r.containers.length).sum ++ num c.fifo.length ++ num c.pendDrops ++
      [mark c.claim.isSome] ++ num ((c.claim.map fun x => x.capture).getD 0) ++ num ((c.claim.map fun x => x.count).getD 0) ++
      num c.received ++ num c.taken ++ num c.aged ++ num c.overrun ++ num c.syncErrors ++ num c.truncated)) ∧
  (∀ (p : PortId) (s : State), statusGroup 3 p s = some ((List.finRange 4).flatMap fun ch =>
    let g := s.settings.fetch[ch]
    let c := s.fetches[ch]
    let next := match c.txn, c.region with
      | some t, _ => t.addr
      | none, some r => ((r.runs.find? fun x => x.permit = .read).map fun x => x.start).getD (r.base + r.len)
      | none, none => 0
    [mark g.enabled] ++ num g.timeout ++ num g.retries ++ [c.state.code, mark c.region.isSome] ++ num next ++
      num c.failures ++ [mark c.silent.isSome] ++ num (c.silent.getD 0) ++ num c.transactions ++ num c.attempts ++
      num c.timeouts ++ num c.naks ++ num c.failed ++ num c.abandoned ++ num c.stale ++ num c.badAnswers ++ num c.silents ++
      num c.bytesRead)) ∧
  (∀ (p : PortId) (s : State),
    let e := s.engine
    let here := match current s with
      | none => num 0 ++ set 0 ++ [0, 0, 0] ++ num 0 ++ num 0
      | some c => num c.number ++ set c.trig.toNat ++ leBytes 1 (c.cursor.getD 0) ++
          leBytes 1 ((c.cursor.bind fun k => c.walk[k]?.map fun i => i.entry.val).getD 0) ++
          leBytes 1 ((c.current.map fun x => x.index).getD 0) ++ num c.nextPage ++ num c.snapshot.pageCap
    let retain := match e.retainTimer with
      | .running t => left 1000000 s.time (some t)
      | .stopped | .ranOut => 0
    statusGroup 4 p s = some ([e.state.code] ++ here ++ set e.retain.toNat ++ num retain ++
      e.bufs.toList.flatMap (fun b => [b.state.code] ++ num b.cap ++ num b.page ++ [mark b.accepted]) ++
      [mark e.stall, e.cause.code] ++ num e.notes.length ++ num e.refFull ++ num e.refNumbers ++ num e.refPower ++
      num e.refErasing)) ∧
  (∀ (p : PortId) (s : State),
    let m := s.monitor
    statusGroup 5 p s = some ([m.state.code] ++ num m.lastVh ++ time m.lastVhTime ++ num m.entry ++ num m.remaining ++
      num m.programs ++ num m.sinceVh ++ num (left 1000 s.time m.debounceAt) ++ num m.episodes)) ∧
  (∀ (p : PortId) (s : State),
    let blocks := fun which : BlockState → Bool => num (s.store.blocks.toList.filter which).length
    let eraser := fun w : Eraser => match w with
      | .journal => 1
      | .area => 2
      | .pool => 3
      | .settings => 5
    let flight := match s.store.flight with
      | none => [0xFF, 0xFF] ++ num 0
      | some (.program w page _) => [0, match w with
          | .buf _ => 0
          | .journal => 1
          | .relocation => 3
          | .commit _ => 4
          | .settings => 5] ++ num page
      | some (.erase w block) => [1, BitVec.ofNat 8 (eraser w)] ++ num block
    let waiting := fun k : Nat => num ((s.store.queue.filter fun q => k = match q with
      | .buf _ => 0
      | .erase w _ => eraser w
      | .relocation => 3
      | .commit _ => 4
      | .settings => 5).length + if k = 1 then (s.dir.slotted.filter fun x => !x.flying).length else 0)
    statusGroup 6 p s = some (blocks (fun b => b = .free) ++
      blocks (fun b => b ≠ .free && b ≠ .dirty && b ≠ .erasing && b ≠ .retired) ++ blocks (fun b => b = .dirty) ++
      blocks (fun b => b = .erasing) ++ blocks (fun b => b = .retired) ++
      num (((s.store.blocks.toList.findIdx? fun b => b = .free).map fun i => 4 + i).getD 0) ++ num s.store.retPages.length ++
      num s.store.retBlocks.length ++ num (s.store.unjournaled.length +
        (s.dir.slotted.filter fun x => x.who = .retirement).length + (s.dir.pending.filter fun x => x.2 = .retirement).length) ++
      flight ++ waiting 0 ++ waiting 1 ++ waiting 2 ++ waiting 3 ++ waiting 4 ++ waiting 5)) ∧
  (∀ (p : PortId) (s : State),
    let d := s.dir
    statusGroup 7 p s = some (num (entriesOf d).length ++ num ((entriesOf d).filter fun e => e.held).length ++
      num (((current s).map fun c => c.number).getD 0) ++ num d.sections.length ++ num d.map.length ++ num d.active ++
      num d.gen.toNat ++ num d.nextSlot ++ num (2048 - d.nextSlot) ++ num d.slotted.length ++ [d.comp.state.code] ++
      num d.pending.length ++ num d.lastCap ++ num d.taken ++ num d.torn ++ padFields (s.port p).pad)) ∧
  (∀ s : State, reducedStatus s = [mark s.ready, s.monitor.state.code,
      mark (s.engine.state = .opening || s.engine.state = .gathering || s.engine.state = .closing)] ++
    num (left 1000000 s.time s.trig.hostTimer) ++ num s.engine.notes.length ++ set (s.port .host).notices.toNat) ∧
  (∀ d : Pad, padFields d = num ((d.target.map fun t => t.1).getD 0) ++ leBytes 1 ((d.target.map fun t => t.2).getD 0) ++
    leBytes 1 (d.text.length - 1) ++ [BitVec.ofNat 8 ((if d.pf then 1 else 0) + (if d.locked then 2 else 0) + if d.aa then 4 else 0)]) ∧
  (∀ (s : State) (e : DirEntry),
    let outcome := if e.state = .closed then code e.outcome else 0xFF
    let opened := num e.cap ++ [e.state.code, outcome] ++ set e.trig.toNat ++ leBytes 1 e.first ++ time e.openTime ++
      time (e.closeTime.getD 0) ++ leBytes 8 (e.epoch.getD 0).toNat
    summaryOf s e = opened ++ [mark e.epoch.isSome, mark e.held] ++ set e.slots.toNat ++ num e.sections.length ++
      num (capturePages s e) ++ num e.damaged ∧
    (∀ x ∈ sectionsOf s.dir e, ∃ i ∈ e.sections, sectionOf s.dir i = some x) ∧
    captureReply s e = opened ++ num (e.head.getD 0) ++ set e.blocks.length ++
      e.blocks.flatMap (fun b => num (b.getD 0)) ++
      set e.sections.length ++ e.sections.flatMap (leBytes 1) ++ [mark e.held] ++ set e.slots.toNat ++ num e.damaged ++
      set (sectionsOf s.dir e).length ++ (sectionsOf s.dir e).flatMap fun x => leBytes 1 x.entry ++ [x.kind.code, x.status.code] ++
        num x.len ++ num x.first ++ num x.pages ++ num x.gaps ++ num (imageLength s e x)) ∧
  (∀ s : State,
    let g := s.integ
    let record := match g.error with
      | some r => [r.kind.code] ++ num r.page ++ leBytes 1 r.word ++ [r.op.code] ++ time r.time ++ [1]
      | none => [0xFF] ++ num 0 ++ [0, 0xFF] ++ time 0 ++ [0]
    errorFields g = record ++ [mark g.overflow] ∧
    errorsReply s = record ++ [mark g.overflow] ++ num g.corrected ++ num g.poisoned ++ num g.correctedAhead ++
      num g.programFail ++ num g.eraseFail ++ num g.torn ++ num g.scrubDropped ++ num g.scrub.length ++
      num ((g.reloc.map fun r => r.page).getD 0) ++ num g.nextPool ++ [g.poolErase.code] ++ num s.dir.map.length)


/-! ## Captures kept, removed and annotated (chapter 9) -/

/-- R146: the checks that HOLD, RELEASE and DELETE share, in their order: ERASE_ALL, EXHAUSTED, a capture that is not held in the
directory, and a HOLD, RELEASE or DELETE record of the capture slotted or pending, or waiting to be handed over (R139). R146,
R147: past them HOLD, RELEASE and DELETE append their record and wait for it, or are answered UNCHANGED, HELD or IN_PROGRESS.
UNCHANGED is sent as 1, alone (log 10, DEDUCED). With 16 captures held a HOLD is FULL before it is UNCHANGED (log 32, DEDUCED). -/
def Obligations.HoldReleaseDeleteAreCheckedAndWait : Prop :=
  (∀ (cap : Nat) (s : State),
     let onWay := fun r : JRec => (∃ x ∈ s.dir.slotted, x.record = r) ∨ (∃ x ∈ s.dir.pending, x.1 = r) ∨
       ∃ p : PortId, waitOf p s = .record r false
     (holdPending cap s = true ↔ onWay (.hold cap) ∨ onWay (.release cap) ∨ ∃ why : DeleteReason, onWay (.delete cap why)) ∧
     holdRefused cap s = (if s.engine.state = .erasing then some .inProgress
       else if s.monitor.state = .exhausted then some .holdup
       else if findEntry s.dir cap = none then some .notFound
       else if holdPending cap s then some .inProgress else none)) ∧
  (∀ (p : PortId) (tag : Byte) (payload : List Byte) (st : Status) (s : State), payload.length = 4 →
     holdRefused (leNat payload) s = some st →
     (servable p kHold s = true → exec (.hold p tag payload) s = .next (replied p kHold tag st false [] s)) ∧
     (servable p kRelease s = true → exec (.release p tag payload) s = .next (replied p kRelease tag st false [] s)) ∧
     (servable p kDelete s = true → exec (.delete p tag payload) s = .next (replied p kDelete tag st false [] s))) ∧
  (∀ (p : PortId) (tag : Byte) (payload : List Byte) (s : State), payload.length = 4 →
     let cap := leNat payload
     let onWay := fun r : JRec => (∃ x ∈ s.dir.slotted, x.record = r) ∨ (∃ x ∈ s.dir.pending, x.1 = r) ∨
       ∃ p : PortId, waitOf p s = .record r false
     s.engine.state ≠ .erasing → s.monitor.state ≠ .exhausted → findEntry s.dir cap ≠ none →
     ¬ onWay (.hold cap) → ¬ onWay (.release cap) → (∀ why : DeleteReason, ¬ onWay (.delete cap why)) →
     let waits := fun (kind : Byte) (r : JRec) => settle (inService p kind tag (.record r false) s)
     (servable p kHold s = true →
       (16 ≤ heldCount s.dir + holdsPending s →
         exec (.hold p tag payload) s = .next (replied p kHold tag .full false [] s)) ∧
       (heldCount s.dir + holdsPending s < 16 → isHeld cap s = true →
         exec (.hold p tag payload) s = .next (replied p kHold tag .ok false [1] s)) ∧
       (heldCount s.dir + holdsPending s < 16 → isHeld cap s = false →
         exec (.hold p tag payload) s = .next (waits kHold (.hold cap)))) ∧
     (servable p kRelease s = true →
       (isHeld cap s = false → exec (.release p tag payload) s = .next (replied p kRelease tag .ok false [1] s)) ∧
       (isHeld cap s = true → exec (.release p tag payload) s = .next (waits kRelease (.release cap)))) ∧
     (servable p kDelete s = true →
       (isCurrent cap s = true ∨ committingCap cap s = true →
         exec (.delete p tag payload) s = .next (replied p kDelete tag .inProgress false [] s)) ∧
       (isCurrent cap s = false → committingCap cap s = false → isHeld cap s = true →
         exec (.delete p tag payload) s = .next (replied p kDelete tag .held false [] s)) ∧
       (isCurrent cap s = false → committingCap cap s = false → isHeld cap s = false →
         exec (.delete p tag payload) s = .next (waits kDelete (.delete cap .delete)))))

/-- R148: STAGE_NOTE loads the port's note pad, or is refused by the first check that fails. R149: COMMIT_NOTE of what the pad
holds queues the program of its head page and waits for it; an echo that does not match is refused AUTH_MISMATCH, and a
capture that is no longer there GONE, also where ERASE_ALL erased the pad's capture and its number was given anew (R150).
While an operation is in flight on the head page, each waits for it before it looks at the slot (R129, log 19). A commit is in
progress until it is answered (R149; worked example 9.10 differs: log 62, DEDUCED). The slot's use is read without taking the
page (log 25, the model's choice). A recorded head page that the block list gives no block is none (log 47, the model's choice). -/
def Obligations.NotesAreStagedAndCommitted : Prop :=
  (∀ (p : PortId) (tag slot : Byte) (num4 text : List Byte) (e : DirEntry) (r : PageRead) (s : State),
     servable p kStageNote s = true → num4.length = 4 → text ≠ [] → slot.toNat < 4 → s.engine.state ≠ .erasing →
     findEntry s.dir (leNat num4) = some e → readHeadPage s (shown s e) = some r →
     otherCommit p (leNat num4) slot.toNat s = false →
     (headFlying s (shown s e) = true → exec (.stageNote p tag (num4 ++ slot :: text)) s =
       .next (inService p kStageNote tag (.read (num4 ++ slot :: text)) s)) ∧
     (headFlying s (shown s e) = false →
     let area := ((r.words.flatMap fun w => wordBytes w.data).drop (32 + 120 * slot.toNat)).take 120
     let used := e.slots.getLsbD slot.toNat = true ∨ ∃ b ∈ area, b ≠ 0xFF
     let load := fun pad : Pad => exec (.stageNote p tag (num4 ++ slot :: text)) s = .next (answer p .ok pad.pf (padFields pad)
       ((takeRead r (inService p kStageNote tag .none s)).onPort p fun q => { q with pad := pad }))
     (used → load { target := some (leNat num4, slot.toNat), text := slotText area, pf := false, locked := true, aa := false }) ∧
     (¬ used → load { target := some (leNat num4, slot.toNat), text := text.take 120, pf := decide (120 < text.length)
                      locked := false, aa := false }))) ∧
  (∀ (p : PortId) (tag slot : Byte) (num4 text payload : List Byte) (s : State), servable p kStageNote s = true →
     num4.length = 4 →
     let run := exec (.stageNote p tag (num4 ++ slot :: text)) s
     let refused := fun st : Status => run = .next (replied p kStageNote tag st false [] s)
     let known := slot.toNat < 4 ∧ text ≠ [] ∧ s.engine.state ≠ .erasing
     (payload.length < 5 → exec (.stageNote p tag payload) s = .next (replied p kStageNote tag .badLength false [] s)) ∧
     (4 ≤ slot.toNat → refused .badValue) ∧
     (slot.toNat < 4 → text = [] → refused .badLength) ∧
     (slot.toNat < 4 → text ≠ [] → s.engine.state = .erasing → refused .inProgress) ∧
     (known → findEntry s.dir (leNat num4) = none → refused .notFound) ∧
     (∀ e : DirEntry, known → findEntry s.dir (leNat num4) = some e →
       ((shown s e).head.bind (physOf e.blocks) = none → refused .refusedState) ∧
       ((shown s e).head.bind (physOf e.blocks) ≠ none →
         (∃ q : PortId, q ≠ p ∧ committing q s = some (leNat num4, slot.toNat)) → refused .inProgress))) ∧
  (∀ (p : PortId) (tag slot last status : Byte) (num4 : List Byte) (s : State), servable p kCommitNote s = true →
     num4.length = 4 →
     let d := (s.port p).pad
     let cap := leNat num4
     let run := exec (.commitNote p tag (num4 ++ [slot, last, status])) s
     let match' := d.target = some (cap, slot.toNat) ∧ last.toNat = d.text.length - 1 ∧
       status = (if d.pf then 1 else 0) + (if d.locked then 2 else 0) + (if d.aa then 4 else 0)
     (¬ match' → run = .next (replied p kCommitNote tag .authMismatch false [] s)) ∧
     (match' → (d.pf = true ∨ d.locked = true) → run = .next (replied p kCommitNote tag .refusedState false [] s)) ∧
     (match' → d.pf = false → d.locked = false → s.engine.state = .erasing →
       run = .next (replied p kCommitNote tag .inProgress false [] s)) ∧
     (match' → d.pf = false → d.locked = false → s.engine.state ≠ .erasing →
       d.gone = true ∨ (isCurrent cap s = false ∧ deletePending cap s = false ∧ otherCommit p cap slot.toNat s = false ∧
         findEntry s.dir cap = none) →
       run = .next (replied p kCommitNote tag .gone false [] s)) ∧
     (∀ e : DirEntry, match' → d.pf = false → d.locked = false → d.gone = false → isCurrent cap s = false →
       s.engine.state ≠ .erasing → deletePending cap s = false → otherCommit p cap slot.toNat s = false → findEntry s.dir cap = some e →
       s.monitor.state ≠ .exhausted →
       (headFlying s (shown s e) = true →
         run = .next (inService p kCommitNote tag (.read (num4 ++ [slot, last, status])) s)) ∧
       (headFlying s (shown s e) = false → slotUsedNow s e slot.toNat = false →
         run = .next (enqueue (.commit p) (inService p kCommitNote tag .commit s))) ∧
       (headFlying s (shown s e) = false → slotUsedNow s e slot.toNat = true →
         run = .next ((replied p kCommitNote tag .refusedState false [] s).onPort p fun q =>
           { q with pad := { q.pad with locked := true } }))) ∧
     (match' → d.pf = false → d.locked = false → d.gone = false → s.engine.state ≠ .erasing →
       (isCurrent cap s = true ∨ deletePending cap s = true ∨ otherCommit p cap slot.toNat s = true →
         run = .next (replied p kCommitNote tag .inProgress false [] s)) ∧
       (∀ e : DirEntry, isCurrent cap s = false → deletePending cap s = false → otherCommit p cap slot.toNat s = false →
         findEntry s.dir cap = some e → s.monitor.state = .exhausted →
         run = .next (replied p kCommitNote tag .holdup false [] s)))) ∧
  (∀ (p : PortId) (cap slot : Nat) (e : DirEntry) (s : State),
     (otherCommit p cap slot s = true ↔ ∃ q : PortId, q ≠ p ∧ committing q s = some (cap, slot)) ∧
     (isCurrent cap s = true ↔ ∃ c : Capture, current s = some c ∧ c.number = cap) ∧
     (∀ r : PageRead, readHeadPage s (shown s e) = some r → (slotUsedNow s e slot = true ↔ e.slots.getLsbD slot = true ∨
       ∃ b ∈ ((r.words.flatMap fun w => wordBytes w.data).drop (32 + 120 * slot)).take 120, b ≠ 0xFF)))

/-! ## Line events (chapter 11) -/

/-- R166, R167, R169, R174: the events of the lines. INTERBYTE and CRC_ERRORS bring the bytes that arrived (log 9, the model's
form): the gap drops the frame that they leave in reception, and a CRC error is counted where the last of them completes a
frame whose CRC fails. MODEL'S CHOICE (log 3): an event that cannot happen (no frame in reception, a length in range, a busy
line, no reply to send) changes nothing. R167: what reception makes of a byte. -/
def Obligations.LineEventsActOnTheirPort : Prop :=
  (∀ (p : PortId) (s : State), s.powered = true →
     exec (.lineError p) s = .next (s.onPort p fun q => { q with rx := none, lineErrors := satInc q.lineErrors }) ∧
     (∀ bytes : List Byte,
       let r := receiveBytes (s.port p).rx bytes
       (r.1 ≠ none → exec (.interbyte ⟨p, bytes⟩) s =
         .next (s.onPort p fun q => { q with rx := none, interbyte := satInc q.interbyte })) ∧
       (r.1 = none → exec (.interbyte ⟨p, bytes⟩) s = .next s) ∧
       (r.2 = .badCrc → exec (.crcErrors ⟨p, bytes⟩) s =
         .next (s.onPort p fun q => { q with rx := none, crcErrors := satInc q.crcErrors })) ∧
       (r.2 ≠ .badCrc → exec (.crcErrors ⟨p, bytes⟩) s = .next s)) ∧
     (∀ b : Bool, exec (.svcStrapChange b) s = .next (s.onLink fun l => { l with svcStrap := b })) ∧
     (∀ lo hi : Byte,
       let n := lo.toNat + 256 * hi.toNat
       (n < 2 ∨ 1026 < n → exec (.lengthErrors p lo hi) s = .next (s.onPort p fun q =>
         { q with lengthErrors := satInc q.lengthErrors
                  rx := if lo = 0xD3 then some [0xD3, hi] else if hi = 0xD3 then some [0xD3] else none })) ∧
       (2 ≤ n → n ≤ 1026 → exec (.lengthErrors p lo hi) s = .next s)) ∧
     ((s.port p).rx = none → (s.port p).tx = [] → exec (.lineRateChange p) s =
       .next (s.onPort p fun q => { q with rate := s.settings.lineRate[portIndex p] })) ∧
     ((s.port p).rx ≠ none ∨ (s.port p).tx ≠ [] → exec (.lineRateChange p) s = .next s) ∧
     (∀ (r : Reply) (rest : List Reply), (s.port p).tx = r :: rest → r.restarts = false →
       exec (.replyTransmitted p) s = .next (s.onPort p fun q => { q with tx := rest })) ∧
     (∀ (r : Reply) (rest : List Reply), (s.port p).tx = r :: rest → r.restarts = true →
       exec (.replyTransmitted p) s = .next ((s.onPort p fun q => { q with tx := rest }).onLink fun l =>
         { l with restart := l.restart.map fun x => { x with sent := true } })) ∧
     ((s.port p).tx = [] → exec (.replyTransmitted p) s = .next s)) ∧
  (∀ (rx : Option (List Byte)) (bytes : List Byte) (b : Byte),
     receiveBytes rx [] = (rx, .nothing) ∧
     receiveBytes rx (bytes ++ [b]) = receiveByte (receiveBytes rx bytes).1 b) ∧
  (∀ b : Byte, receiveByte none b = (if b = 0xD3 then some [0xD3] else none, .nothing)) ∧
  (∀ mark lo hi b : Byte,
     let n := lo.toNat + 256 * hi.toNat
     receiveByte (some [mark]) b = (some [mark, b], .nothing) ∧
     (n < 2 ∨ 1026 < n → receiveByte (some [mark, lo]) hi =
       (if lo = 0xD3 then some [0xD3, hi] else if hi = 0xD3 then some [0xD3] else none, .badLength)) ∧
     (2 ≤ n → n ≤ 1026 → receiveByte (some [mark, lo]) hi = (some [mark, lo, hi], .nothing) ∧
       (∀ body : List Byte, body.length + 1 < n + 2 →
         receiveByte (some (mark :: lo :: hi :: body)) b = (some (mark :: lo :: hi :: (body ++ [b])), .nothing)) ∧
       (∀ (kind tag crc : Byte) (payload : List Byte), payload.length + 2 = n →
         receiveByte (some (mark :: lo :: hi :: kind :: tag :: payload ++ [crc])) b =
           (none, if [crc, b] = leBytes 2 (crc16 (lo :: hi :: kind :: tag :: payload)).toNat
             then .frame kind tag payload else .badCrc))))
end

