-- ==== Sys2Proof/Laws/Flash.lean ====
section
/-! SUPPORT. Sys2Proof/Laws/Flash.lean: every operation on the dump store keeps its canonical form, and says which bytes it
leaves. -/

namespace Sys2Proof.Machine

/-! ## The sparse list -/

theorem cellsWf_iff (d : Byte) (top : Nat) (m : List Host.Cell) :
    cellsWf d top m = true ↔ m.Pairwise (fun a b => a.1 < b.1) ∧ ∀ c ∈ m, c.2 ≠ d ∧ c.1 < top := by
  simp [cellsWf, List.all_eq_true]

theorem cellsOf_mem (d : Byte) (bs : List Byte) :
    ∀ (base : Nat) (c : Host.Cell), c ∈ cellsOf d base bs → c.2 ≠ d ∧ base ≤ c.1 ∧ c.1 < base + bs.length := by
  induction bs with
  | nil => intro base c h; simp [cellsOf] at h
  | cons b bs ih =>
    intro base c h
    simp only [cellsOf] at h
    split at h
    · have h1 := ih _ _ h; simp only [List.length_cons]; exact ⟨h1.1, by omega, by omega⟩
    · rename_i hb
      rcases List.mem_cons.mp h with rfl | h
      · simp only [List.length_cons]; exact ⟨hb, by omega, by omega⟩
      · have h1 := ih _ _ h; simp only [List.length_cons]; exact ⟨h1.1, by omega, by omega⟩

theorem cellsOf_pairwise (d : Byte) (bs : List Byte) :
    ∀ base : Nat, (cellsOf d base bs).Pairwise (fun a b => a.1 < b.1) := by
  induction bs with
  | nil => intro base; simp [cellsOf]
  | cons b bs ih =>
    intro base
    simp only [cellsOf]
    split
    · exact ih _
    · refine List.pairwise_cons.mpr ⟨fun c h => ?_, ih _⟩
      have := cellsOf_mem d bs _ _ h
      simp only; omega

/-- Writing keeps the canonical form. -/
theorem writeRange_wf (d : Byte) (top : Nat) (m : List Host.Cell) (base : Nat) (bs : List Byte)
    (h : cellsWf d top m = true) (hb : base + bs.length ≤ top) : cellsWf d top (writeRange d m base bs) = true := by
  rw [cellsWf_iff] at h ⊢
  obtain ⟨hp, hm⟩ := h
  refine ⟨?_, ?_⟩
  · rw [writeRange, List.pairwise_append, List.pairwise_append]
    refine ⟨⟨hp.filter _, cellsOf_pairwise d bs base, ?_⟩, hp.filter _, ?_⟩
    · intro a ha b hb'
      have h1 := cellsOf_mem d bs base b hb'
      have h2 := (List.mem_filter.mp ha).2
      simp at h2; omega
    · intro a ha b hb'
      have h2 := (List.mem_filter.mp hb').2
      simp at h2
      rcases List.mem_append.mp ha with h | h
      · have h1 := (List.mem_filter.mp h).2
        simp at h1; omega
      · have h1 := cellsOf_mem d bs base a h; omega
  · intro c hc
    rw [writeRange] at hc
    rcases List.mem_append.mp hc with h | h
    · rcases List.mem_append.mp h with h | h
      · exact hm c (List.mem_filter.mp h).1
      · have h1 := cellsOf_mem d bs base c h; exact ⟨h1.1, by omega⟩
    · exact hm c (List.mem_filter.mp h).1

/-- Clearing keeps the canonical form. -/
theorem clearRange_wf (d : Byte) (top : Nat) (m : List Host.Cell) (base n : Nat) (h : cellsWf d top m = true) :
    cellsWf d top (clearRange m base n) = true := by
  rw [cellsWf_iff] at h ⊢
  exact ⟨h.1.filter _, fun c hc => h.2 c (List.mem_filter.mp hc).1⟩

theorem cellGet_of_notMem (d : Byte) (m : List Host.Cell) (a : Nat) (h : ∀ c ∈ m, c.1 ≠ a) : cellGet d m a = d := by
  induction m with
  | nil => rfl
  | cons x xs ih =>
    obtain ⟨k, v⟩ := x
    have h1 := h (k, v) (by simp)
    simp only [cellGet]
    rw [if_neg h1]
    exact ih fun c hc => h c (by simp [hc])

theorem cellGet_append (d : Byte) (m n : List Host.Cell) (a : Nat) (h : ∀ c ∈ m, c.1 ≠ a) :
    cellGet d (m ++ n) a = cellGet d n a := by
  induction m with
  | nil => rfl
  | cons x xs ih =>
    obtain ⟨k, v⟩ := x
    have h1 := h (k, v) (by simp)
    simp only [List.cons_append, cellGet]
    rw [if_neg h1]
    exact ih fun c hc => h c (by simp [hc])

/-- A list whose second part does not hold an address reads there as its first part does. -/
theorem cellGet_append_left (d : Byte) (m n : List Host.Cell) (a : Nat) (h : ∀ c ∈ n, c.1 ≠ a) :
    cellGet d (m ++ n) a = cellGet d m a := by
  induction m with
  | nil => exact cellGet_of_notMem d n a h
  | cons x xs ih =>
    obtain ⟨k, v⟩ := x
    simp only [List.cons_append, cellGet]
    split
    · rfl
    · exact ih

/-- Reading a filtered list at an address that the filter keeps. -/
theorem cellGet_filter (d : Byte) (m : List Host.Cell) (a : Nat) (p : Host.Cell → Bool)
    (h : ∀ v, p (a, v) = true) : cellGet d (m.filter p) a = cellGet d m a := by
  induction m with
  | nil => rfl
  | cons x xs ih =>
    obtain ⟨k, v⟩ := x
    by_cases hk : k = a
    · subst hk
      rw [List.filter_cons_of_pos (h v)]
      simp [cellGet]
    · by_cases hp : p (k, v) = true
      · rw [List.filter_cons_of_pos hp]
        simp only [cellGet]
        rw [if_neg hk, if_neg hk]
        exact ih
      · rw [List.filter_cons_of_neg hp]
        simp only [cellGet]
        rw [if_neg hk]
        exact ih

/-- Writing leaves every address outside the range. -/
theorem writeRange_frame (d : Byte) (m : List Host.Cell) (base : Nat) (bs : List Byte) (a : Nat)
    (h : a < base ∨ base + bs.length ≤ a) : cellGet d (writeRange d m base bs) a = cellGet d m a := by
  have hmid : ∀ c ∈ cellsOf d base bs, c.1 ≠ a := fun c hc => by
    have := cellsOf_mem d bs base c hc; omega
  rw [writeRange]
  rcases h with h | h
  · rw [cellGet_append_left]
    · rw [cellGet_append_left _ _ _ _ hmid]
      exact cellGet_filter d m a _ fun v => by simpa using h
    · intro c hc
      have := (List.mem_filter.mp hc).2
      simp at this; omega
  · rw [cellGet_append]
    · exact cellGet_filter d m a _ fun v => by simpa using h
    · intro c hc
      rcases List.mem_append.mp hc with hc | hc
      · have := (List.mem_filter.mp hc).2
        simp at this; omega
      · exact hmid c hc

theorem cellGet_cellsOf (d : Byte) (bs : List Byte) :
    ∀ (base i : Nat) (h : i < bs.length), cellGet d (cellsOf d base bs) (base + i) = bs[i] := by
  induction bs with
  | nil => intro base i h; simp at h
  | cons b bs ih =>
    intro base i h
    cases i with
    | zero =>
      simp only [cellsOf, List.getElem_cons_zero, Nat.add_zero]
      split
      · rename_i hb
        rw [cellGet_of_notMem _ _ _ fun c hc => by have := cellsOf_mem d bs _ c hc; omega]
        exact hb.symm
      · simp [cellGet]
    | succ j =>
      have hj : j < bs.length := by simpa using h
      have e : base + (j + 1) = base + 1 + j := by omega
      simp only [cellsOf, List.getElem_cons_succ]
      split
      · rw [e]; exact ih _ _ hj
      · simp only [cellGet]
        rw [if_neg (by omega), e]
        exact ih _ _ hj

/-- Writing is read back. -/
theorem writeRange_get (d : Byte) (m : List Host.Cell) (base : Nat) (bs : List Byte) (i : Nat) (h : i < bs.length) :
    cellGet d (writeRange d m base bs) (base + i) = bs[i] := by
  rw [writeRange, cellGet_append_left, cellGet_append, cellGet_cellsOf d bs base i h]
  · intro c hc
    have := (List.mem_filter.mp hc).2
    simp at this; omega
  · intro c hc
    have := (List.mem_filter.mp hc).2
    simp at this; omega

theorem clearRange_frame (d : Byte) (m : List Host.Cell) (base n a : Nat) (h : a < base ∨ base + n ≤ a) :
    cellGet d (clearRange m base n) a = cellGet d m a :=
  cellGet_filter d m a _ fun v => by simpa using h

theorem clearRange_get (d : Byte) (m : List Host.Cell) (base n a : Nat) (h : base ≤ a ∧ a < base + n) :
    cellGet d (clearRange m base n) a = d :=
  cellGet_of_notMem d _ a fun c hc => by
    have := (List.mem_filter.mp hc).2
    simp at this; omega

/-- A range is read byte by byte. -/
theorem readRange_getElem (d : Byte) (m : List Host.Cell) (base n i : Nat) (h : i < (readRange d m base n).length) :
    (readRange d m base n)[i] = cellGet d m (base + i) := by
  have hi : i < n := by simpa [readRange] using h
  simp only [readRange, List.getElem_map, List.getElem_range]
  exact cellGet_filter d m _ _ fun v => by simp; omega

@[simp] theorem readRange_length (d : Byte) (m : List Host.Cell) (base n : Nat) : (readRange d m base n).length = n := by
  simp [readRange]

/-- A written range is read back whole. -/
theorem readRange_writeRange (d : Byte) (m : List Host.Cell) (base : Nat) (bs : List Byte) :
    readRange d (writeRange d m base bs) base bs.length = bs := by
  apply List.ext_getElem (by simp)
  intro i h1 h2
  rw [readRange_getElem, writeRange_get d m base bs i h2]

/-! ## Pages -/

@[simp] theorem leBytes_length (n v : Nat) : (leBytes n v).length = n := by
  induction n generalizing v with
  | zero => rfl
  | succ n ih => simp [leBytes, ih]

theorem leNat_leBytes (n v : Nat) : leNat (leBytes n v) = v % 256 ^ n := by
  induction n generalizing v with
  | zero => simp [leBytes, leNat]; omega
  | succ n ih =>
    simp only [leBytes, leNat, ih, BitVec.toNat_ofNat]
    have e : (256 : Nat) ^ (n + 1) = 256 * 256 ^ n := by rw [Nat.pow_succ, Nat.mul_comm]
    rw [e, Nat.mod_mul]

@[simp] theorem wordBytes_length (w : BitVec 64) : (wordBytes w).length = 8 := by simp [wordBytes, leBits]

theorem flatMap_wordBytes_length (ws : List Stored) : (ws.flatMap fun w => wordBytes w.data).length = 8 * ws.length := by
  induction ws with
  | nil => rfl
  | cons w ws ih => simp only [List.flatMap_cons, List.length_append, wordBytes_length, ih, List.length_cons]; omega

@[simp] theorem wordsOf_length (n : Nat) (bs : List Byte) : (wordsOf n bs).length = n := by simp [wordsOf]

@[simp] theorem storedPage_length (f : Flash) (p : Nat) : (storedPage f p).length = 64 := by
  simp [storedPage, pageWords]

@[simp] theorem withProgramFaults_length (old : List Stored) (fs : List WordFault) (ws : List Stored) :
    (withProgramFaults old fs ws).length = ws.length := by
  simp [withProgramFaults]

@[simp] theorem withFaults_length (fs : List WordFault) (ws : List Stored) : (withFaults fs ws).length = ws.length := by
  simp [withFaults]

theorem drop_flatMap_wordBytes (ws : List Stored) :
    ∀ i : Nat, i ≤ ws.length →
      (ws.flatMap fun w => wordBytes w.data).drop (8 * i) = (ws.drop i).flatMap fun w => wordBytes w.data := by
  induction ws with
  | nil => intro i h; simp at h; subst h; rfl
  | cons w ws ih =>
    intro i h
    cases i with
    | zero => rfl
    | succ j =>
      have e : 8 * (j + 1) = (wordBytes w.data).length + 8 * j := by rw [wordBytes_length]; omega
      rw [List.flatMap_cons, e, List.drop_append, List.drop_succ_cons]
      have := ih j (by simpa using h)
      simp [this]

theorem fieldAt_flatMap_wordBytes (ws : List Stored) (i : Nat) (h : i < ws.length) :
    BitVec.ofNat 64 (fieldAt (ws.flatMap fun w => wordBytes w.data) (8 * i) 8) = ws[i].data := by
  rw [fieldAt, drop_flatMap_wordBytes ws i (by omega), List.drop_eq_getElem_cons h, List.flatMap_cons,
    List.take_append_of_le_length (by simp), List.take_of_length_le (by simp), wordBytes, leBits, leNat_leBytes]
  apply BitVec.eq_of_toNat_eq
  have := ws[i].data.isLt
  simp only [BitVec.toNat_ofNat]
  omega

/-- A stored page is read back. -/
theorem storedPage_storePage (p : Nat) (ws : List Stored) (f : Flash) (hp : p < storePages) (hw : ws.length = 64) :
    storedPage (storePage p ws f) p = ws := by
  have h1 : readRange 0xFF (writeRange 0xFF f.data (pageBytes * p) (ws.flatMap fun w => wordBytes w.data))
      (pageBytes * p) pageBytes = ws.flatMap fun w => wordBytes w.data := by
    have e : pageBytes = (ws.flatMap fun w => wordBytes w.data).length := by
      rw [flatMap_wordBytes_length, hw]; rfl
    conv_lhs => rw [show readRange 0xFF _ (pageBytes * p) pageBytes =
      readRange 0xFF (writeRange 0xFF f.data (pageBytes * p) (ws.flatMap fun w => wordBytes w.data)) (pageBytes * p)
        (ws.flatMap fun w => wordBytes w.data).length by rw [← e]]
    exact readRange_writeRange _ _ _ _
  have h2 : readRange 0 (writeRange 0 f.check (pageWords * p) (ws.map fun w => w.diff)) (pageWords * p) pageWords =
      ws.map fun w => w.diff := by
    have e : pageWords = (ws.map fun w => w.diff).length := by rw [List.length_map, hw]; rfl
    conv_lhs => rw [show readRange 0 _ (pageWords * p) pageWords =
      readRange 0 (writeRange 0 f.check (pageWords * p) (ws.map fun w => w.diff)) (pageWords * p)
        (ws.map fun w => w.diff).length by rw [← e]]
    exact readRange_writeRange _ _ _ _
  simp only [storePage, hp, if_true, storedPage]
  rw [h1, h2]
  apply List.ext_getElem
  · simp [hw, pageWords]
  · intro i ha hb
    simp only [List.getElem_zipWith, List.getElem_map, wordsOf, List.getElem_range]
    rw [fieldAt_flatMap_wordBytes ws i hb]

/-- Storing a page keeps the canonical form. -/
theorem storePage_wf (p : Nat) (ws : List Stored) (f : Flash) (hw : ws.length = 64) (h : Memory.wf f = true) :
    Memory.wf (storePage p ws f) = true := by
  unfold storePage
  split
  · rename_i hp
    simp only [Memory.wf, Bool.and_eq_true] at h ⊢
    refine ⟨writeRange_wf _ _ _ _ _ h.1 ?_, writeRange_wf _ _ _ _ _ h.2 ?_⟩
    · rw [flatMap_wordBytes_length, hw]; simp only [pageBytes, storeBytes, storePages] at *; omega
    · rw [List.length_map, hw]; simp only [pageWords, storeWords, storePages] at *; omega
  · exact h

/-- Storing a page leaves every byte of the other pages. -/
theorem storePage_frame (p : Nat) (ws : List Stored) (f : Flash) (hw : ws.length = 64) (a : Nat)
    (ha : a < pageBytes * p ∨ pageBytes * (p + 1) ≤ a) : readByte (storePage p ws f) a = readByte f a := by
  unfold storePage
  split
  · simp only [readByte]
    apply writeRange_frame
    rw [flatMap_wordBytes_length, hw]
    simp only [pageBytes] at *; omega
  · rfl

/-! ## The operations of 8.2, 8.3 and R131 -/

/-- Programming a page keeps the canonical form. -/
theorem programPage_wf (p : Nat) (content : List Byte) (faults : List WordFault) (f : Flash) (h : Memory.wf f = true) :
    Memory.wf (programPage p content faults f) = true :=
  storePage_wf _ _ _ (by simp [pageWords]) h

/-- Programming a page leaves every byte of the other pages. -/
theorem programPage_frame (p : Nat) (content : List Byte) (faults : List WordFault) (f : Flash) (a : Nat)
    (ha : a < pageBytes * p ∨ pageBytes * (p + 1) ≤ a) : readByte (programPage p content faults f) a = readByte f a :=
  storePage_frame _ _ _ (by simp [pageWords]) _ ha

theorem writtenFaults_nil (content : List Byte) : writtenFaults content [] = [] := rfl

theorem withProgramFaults_nil (old ws : List Stored) : withProgramFaults old [] ws = ws := by
  apply List.ext_getElem (by simp)
  intro i h1 h2
  simp [withProgramFaults]

/-- A program without faults leaves each word the AND of old and new (R122). -/
theorem storedPage_programPage (p : Nat) (content : List Byte) (f : Flash) (hp : p < storePages) :
    storedPage (programPage p content [] f) p =
      List.zipWith programWord (storedPage f p) (wordsOf pageWords content) := by
  unfold programPage
  rw [storedPage_storePage _ _ _ hp (by simp [pageWords]), writtenFaults_nil, withProgramFaults_nil]

theorem placeFaults_wf (b : Nat) (faults : List BlockFault) (f : Flash) (h : Memory.wf f = true) :
    Memory.wf (placeFaults b faults f) = true := by
  unfold placeFaults
  induction faults generalizing f with
  | nil => exact h
  | cons x xs ih =>
    rw [List.foldl_cons]
    exact ih _ (storePage_wf _ _ _ (by simp) h)

theorem placeFaults_frame (b : Nat) (faults : List BlockFault) (f : Flash) (a : Nat)
    (ha : a < pageBytes * blockPages * b ∨ pageBytes * blockPages * (b + 1) ≤ a) :
    readByte (placeFaults b faults f) a = readByte f a := by
  unfold placeFaults
  induction faults generalizing f with
  | nil => rfl
  | cons x xs ih =>
    rw [List.foldl_cons, ih]
    apply storePage_frame _ _ _ (by simp)
    have := x.page.isLt
    simp only [pageBytes, blockPages] at *
    omega

/-- Erasing a block keeps the canonical form. -/
theorem eraseBlock_wf (b : Nat) (faults : List BlockFault) (f : Flash) (h : Memory.wf f = true) :
    Memory.wf (eraseBlock b faults f) = true := by
  apply placeFaults_wf
  simp only [Memory.wf, Bool.and_eq_true] at h ⊢
  exact ⟨clearRange_wf _ _ _ _ _ h.1, clearRange_wf _ _ _ _ _ h.2⟩

/-- Erasing a block leaves every byte of the other blocks. -/
theorem eraseBlock_frame (b : Nat) (faults : List BlockFault) (f : Flash) (a : Nat)
    (ha : a < pageBytes * blockPages * b ∨ pageBytes * blockPages * (b + 1) ≤ a) :
    readByte (eraseBlock b faults f) a = readByte f a := by
  unfold eraseBlock
  rw [placeFaults_frame _ _ _ _ ha]
  simp only [readByte]
  apply clearRange_frame
  simp only [pageBytes, blockPages] at *; omega

/-- Worn cells keep the canonical form. -/
theorem wearFlash_wf (worn : List StoreFault) (f : Flash) (h : Memory.wf f = true) : Memory.wf (wearFlash worn f) = true := by
  unfold wearFlash
  induction worn generalizing f with
  | nil => exact h
  | cons x xs ih =>
    rw [List.foldl_cons]
    exact ih _ (storePage_wf _ _ _ (by simp) h)

/-- A page without worn cells reads as before. -/
theorem wearFlash_frame (worn : List StoreFault) (f : Flash) (a : Nat)
    (ha : ∀ x ∈ worn, a < pageBytes * x.page.val ∨ pageBytes * (x.page.val + 1) ≤ a) :
    readByte (wearFlash worn f) a = readByte f a := by
  unfold wearFlash
  induction worn generalizing f with
  | nil => rfl
  | cons x xs ih =>
    rw [List.foldl_cons, ih _ fun y hy => ha y (List.mem_cons_of_mem _ hy)]
    exact storePage_frame _ _ _ (by simp) _ (ha x List.mem_cons_self)

/-- A torn operation keeps the canonical form (R131). -/
theorem tearFlash_wf (fl : Option Flight) (torn : List BlockFault) (f : Flash) (h : Memory.wf f = true) :
    Memory.wf (tearFlash fl torn f) = true := by
  unfold tearFlash
  split
  · exact h
  · exact storePage_wf _ _ _ (by simp [pageWords]) h
  · induction torn generalizing f with
    | nil => exact h
    | cons x xs ih =>
      rw [List.foldl_cons]
      exact ih _ (storePage_wf _ _ _ (by simp) h)

theorem clearPosition_wf (k : Nat) (f : Flash) (h : Memory.wf f = true) : Memory.wf (clearPosition k f) = true := by
  simp only [clearPosition, Memory.wf, Bool.and_eq_true] at h ⊢
  exact ⟨clearRange_wf _ _ _ _ _ h.1, clearRange_wf _ _ _ _ _ h.2⟩

/-- Clearing a position of block 2 leaves every byte outside it. -/
theorem clearPosition_frame (k : Nat) (f : Flash) (a : Nat)
    (ha : a < pageBytes * (blockPages * settingsBlock + positionPages * k) ∨
      pageBytes * (blockPages * settingsBlock + positionPages * k) + pageBytes * positionPages ≤ a) :
    readByte (clearPosition k f) a = readByte f a := by
  simp only [clearPosition, readByte]
  exact clearRange_frame _ _ _ _ _ ha

/-- The store after a power loss keeps the canonical form (R131). -/
theorem storeAfterLoss_wf (fl : Option Flight) (torn : List BlockFault) (f : Flash) (h : Memory.wf f = true) :
    Memory.wf (storeAfterLoss fl torn f) = true := by
  have ht := tearFlash_wf fl torn f h
  have clears : ∀ (ks : List Nat) (g : Flash), Memory.wf g = true →
      Memory.wf (ks.foldl (fun g k => clearPosition k g) g) = true := by
    intro ks
    induction ks with
    | nil => exact fun _ hg => hg
    | cons k ks ih => exact fun g hg => ih _ (clearPosition_wf k g hg)
  unfold storeAfterLoss
  dsimp only
  split
  · split
    · exact clears _ _ ht
    · exact ht
  · split
    · exact h
    · exact ht
  · exact ht

end Sys2Proof.Machine
end

