-- ==== Sys2Proof/Laws/State.lean ====
section
/-! SUPPORT. Sys2Proof/Laws/State.lean: what each update of one part of the state leaves in each field. -/

namespace Sys2Proof.Machine

/-! ## onTrig -/

@[simp] theorem onTrig_pending (f : TrigUnit → TrigUnit) (s : State) : (s.onTrig f).pending = s.pending := rfl
@[simp] theorem onTrig_powered (f : TrigUnit → TrigUnit) (s : State) : (s.onTrig f).powered = s.powered := rfl
@[simp] theorem onTrig_ready (f : TrigUnit → TrigUnit) (s : State) : (s.onTrig f).ready = s.ready := rfl
@[simp] theorem onTrig_time (f : TrigUnit → TrigUnit) (s : State) : (s.onTrig f).time = s.time := rfl
@[simp] theorem onTrig_epoch (f : TrigUnit → TrigUnit) (s : State) : (s.onTrig f).epoch = s.epoch := rfl
@[simp] theorem onTrig_epochValid (f : TrigUnit → TrigUnit) (s : State) : (s.onTrig f).epochValid = s.epochValid := rfl
@[simp] theorem onTrig_pins (f : TrigUnit → TrigUnit) (s : State) : (s.onTrig f).pins = s.pins := rfl
@[simp] theorem onTrig_settings (f : TrigUnit → TrigUnit) (s : State) : (s.onTrig f).settings = s.settings := rfl
@[simp] theorem onTrig_plan (f : TrigUnit → TrigUnit) (s : State) : (s.onTrig f).plan = s.plan := rfl
@[simp] theorem onTrig_trig (f : TrigUnit → TrigUnit) (s : State) : (s.onTrig f).trig = f s.trig := rfl
@[simp] theorem onTrig_ring (f : TrigUnit → TrigUnit) (s : State) : (s.onTrig f).ring = s.ring := rfl
@[simp] theorem onTrig_streams (f : TrigUnit → TrigUnit) (s : State) : (s.onTrig f).streams = s.streams := rfl
@[simp] theorem onTrig_fetches (f : TrigUnit → TrigUnit) (s : State) : (s.onTrig f).fetches = s.fetches := rfl
@[simp] theorem onTrig_engine (f : TrigUnit → TrigUnit) (s : State) : (s.onTrig f).engine = s.engine := rfl
@[simp] theorem onTrig_monitor (f : TrigUnit → TrigUnit) (s : State) : (s.onTrig f).monitor = s.monitor := rfl
@[simp] theorem onTrig_store (f : TrigUnit → TrigUnit) (s : State) : (s.onTrig f).store = s.store := rfl
@[simp] theorem onTrig_flash (f : TrigUnit → TrigUnit) (s : State) : (s.onTrig f).flash = s.flash := rfl
@[simp] theorem onTrig_dir (f : TrigUnit → TrigUnit) (s : State) : (s.onTrig f).dir = s.dir := rfl
@[simp] theorem onTrig_integ (f : TrigUnit → TrigUnit) (s : State) : (s.onTrig f).integ = s.integ := rfl
@[simp] theorem onTrig_link (f : TrigUnit → TrigUnit) (s : State) : (s.onTrig f).link = s.link := rfl

/-! ## onRing -/

@[simp] theorem onRing_pending (f : Ring → Ring) (s : State) : (s.onRing f).pending = s.pending := rfl
@[simp] theorem onRing_powered (f : Ring → Ring) (s : State) : (s.onRing f).powered = s.powered := rfl
@[simp] theorem onRing_ready (f : Ring → Ring) (s : State) : (s.onRing f).ready = s.ready := rfl
@[simp] theorem onRing_time (f : Ring → Ring) (s : State) : (s.onRing f).time = s.time := rfl
@[simp] theorem onRing_epoch (f : Ring → Ring) (s : State) : (s.onRing f).epoch = s.epoch := rfl
@[simp] theorem onRing_epochValid (f : Ring → Ring) (s : State) : (s.onRing f).epochValid = s.epochValid := rfl
@[simp] theorem onRing_pins (f : Ring → Ring) (s : State) : (s.onRing f).pins = s.pins := rfl
@[simp] theorem onRing_settings (f : Ring → Ring) (s : State) : (s.onRing f).settings = s.settings := rfl
@[simp] theorem onRing_plan (f : Ring → Ring) (s : State) : (s.onRing f).plan = s.plan := rfl
@[simp] theorem onRing_trig (f : Ring → Ring) (s : State) : (s.onRing f).trig = s.trig := rfl
@[simp] theorem onRing_ring (f : Ring → Ring) (s : State) : (s.onRing f).ring = f s.ring := rfl
@[simp] theorem onRing_streams (f : Ring → Ring) (s : State) : (s.onRing f).streams = s.streams := rfl
@[simp] theorem onRing_fetches (f : Ring → Ring) (s : State) : (s.onRing f).fetches = s.fetches := rfl
@[simp] theorem onRing_engine (f : Ring → Ring) (s : State) : (s.onRing f).engine = s.engine := rfl
@[simp] theorem onRing_monitor (f : Ring → Ring) (s : State) : (s.onRing f).monitor = s.monitor := rfl
@[simp] theorem onRing_store (f : Ring → Ring) (s : State) : (s.onRing f).store = s.store := rfl
@[simp] theorem onRing_flash (f : Ring → Ring) (s : State) : (s.onRing f).flash = s.flash := rfl
@[simp] theorem onRing_dir (f : Ring → Ring) (s : State) : (s.onRing f).dir = s.dir := rfl
@[simp] theorem onRing_integ (f : Ring → Ring) (s : State) : (s.onRing f).integ = s.integ := rfl
@[simp] theorem onRing_link (f : Ring → Ring) (s : State) : (s.onRing f).link = s.link := rfl

/-! ## onEngine -/

@[simp] theorem onEngine_pending (f : Engine → Engine) (s : State) : (s.onEngine f).pending = s.pending := rfl
@[simp] theorem onEngine_powered (f : Engine → Engine) (s : State) : (s.onEngine f).powered = s.powered := rfl
@[simp] theorem onEngine_ready (f : Engine → Engine) (s : State) : (s.onEngine f).ready = s.ready := rfl
@[simp] theorem onEngine_time (f : Engine → Engine) (s : State) : (s.onEngine f).time = s.time := rfl
@[simp] theorem onEngine_epoch (f : Engine → Engine) (s : State) : (s.onEngine f).epoch = s.epoch := rfl
@[simp] theorem onEngine_epochValid (f : Engine → Engine) (s : State) : (s.onEngine f).epochValid = s.epochValid := rfl
@[simp] theorem onEngine_pins (f : Engine → Engine) (s : State) : (s.onEngine f).pins = s.pins := rfl
@[simp] theorem onEngine_settings (f : Engine → Engine) (s : State) : (s.onEngine f).settings = s.settings := rfl
@[simp] theorem onEngine_plan (f : Engine → Engine) (s : State) : (s.onEngine f).plan = s.plan := rfl
@[simp] theorem onEngine_trig (f : Engine → Engine) (s : State) : (s.onEngine f).trig = s.trig := rfl
@[simp] theorem onEngine_ring (f : Engine → Engine) (s : State) : (s.onEngine f).ring = s.ring := rfl
@[simp] theorem onEngine_streams (f : Engine → Engine) (s : State) : (s.onEngine f).streams = s.streams := rfl
@[simp] theorem onEngine_fetches (f : Engine → Engine) (s : State) : (s.onEngine f).fetches = s.fetches := rfl
@[simp] theorem onEngine_engine (f : Engine → Engine) (s : State) : (s.onEngine f).engine = f s.engine := rfl
@[simp] theorem onEngine_monitor (f : Engine → Engine) (s : State) : (s.onEngine f).monitor = s.monitor := rfl
@[simp] theorem onEngine_store (f : Engine → Engine) (s : State) : (s.onEngine f).store = s.store := rfl
@[simp] theorem onEngine_flash (f : Engine → Engine) (s : State) : (s.onEngine f).flash = s.flash := rfl
@[simp] theorem onEngine_dir (f : Engine → Engine) (s : State) : (s.onEngine f).dir = s.dir := rfl
@[simp] theorem onEngine_integ (f : Engine → Engine) (s : State) : (s.onEngine f).integ = s.integ := rfl
@[simp] theorem onEngine_link (f : Engine → Engine) (s : State) : (s.onEngine f).link = s.link := rfl

/-! ## onMonitor -/

@[simp] theorem onMonitor_pending (f : Monitor → Monitor) (s : State) : (s.onMonitor f).pending = s.pending := rfl
@[simp] theorem onMonitor_powered (f : Monitor → Monitor) (s : State) : (s.onMonitor f).powered = s.powered := rfl
@[simp] theorem onMonitor_ready (f : Monitor → Monitor) (s : State) : (s.onMonitor f).ready = s.ready := rfl
@[simp] theorem onMonitor_time (f : Monitor → Monitor) (s : State) : (s.onMonitor f).time = s.time := rfl
@[simp] theorem onMonitor_epoch (f : Monitor → Monitor) (s : State) : (s.onMonitor f).epoch = s.epoch := rfl
@[simp] theorem onMonitor_epochValid (f : Monitor → Monitor) (s : State) : (s.onMonitor f).epochValid = s.epochValid := rfl
@[simp] theorem onMonitor_pins (f : Monitor → Monitor) (s : State) : (s.onMonitor f).pins = s.pins := rfl
@[simp] theorem onMonitor_settings (f : Monitor → Monitor) (s : State) : (s.onMonitor f).settings = s.settings := rfl
@[simp] theorem onMonitor_plan (f : Monitor → Monitor) (s : State) : (s.onMonitor f).plan = s.plan := rfl
@[simp] theorem onMonitor_trig (f : Monitor → Monitor) (s : State) : (s.onMonitor f).trig = s.trig := rfl
@[simp] theorem onMonitor_ring (f : Monitor → Monitor) (s : State) : (s.onMonitor f).ring = s.ring := rfl
@[simp] theorem onMonitor_streams (f : Monitor → Monitor) (s : State) : (s.onMonitor f).streams = s.streams := rfl
@[simp] theorem onMonitor_fetches (f : Monitor → Monitor) (s : State) : (s.onMonitor f).fetches = s.fetches := rfl
@[simp] theorem onMonitor_engine (f : Monitor → Monitor) (s : State) : (s.onMonitor f).engine = s.engine := rfl
@[simp] theorem onMonitor_monitor (f : Monitor → Monitor) (s : State) : (s.onMonitor f).monitor = f s.monitor := rfl
@[simp] theorem onMonitor_store (f : Monitor → Monitor) (s : State) : (s.onMonitor f).store = s.store := rfl
@[simp] theorem onMonitor_flash (f : Monitor → Monitor) (s : State) : (s.onMonitor f).flash = s.flash := rfl
@[simp] theorem onMonitor_dir (f : Monitor → Monitor) (s : State) : (s.onMonitor f).dir = s.dir := rfl
@[simp] theorem onMonitor_integ (f : Monitor → Monitor) (s : State) : (s.onMonitor f).integ = s.integ := rfl
@[simp] theorem onMonitor_link (f : Monitor → Monitor) (s : State) : (s.onMonitor f).link = s.link := rfl

/-! ## onStore -/

@[simp] theorem onStore_pending (f : StoreCtl → StoreCtl) (s : State) : (s.onStore f).pending = s.pending := rfl
@[simp] theorem onStore_powered (f : StoreCtl → StoreCtl) (s : State) : (s.onStore f).powered = s.powered := rfl
@[simp] theorem onStore_ready (f : StoreCtl → StoreCtl) (s : State) : (s.onStore f).ready = s.ready := rfl
@[simp] theorem onStore_time (f : StoreCtl → StoreCtl) (s : State) : (s.onStore f).time = s.time := rfl
@[simp] theorem onStore_epoch (f : StoreCtl → StoreCtl) (s : State) : (s.onStore f).epoch = s.epoch := rfl
@[simp] theorem onStore_epochValid (f : StoreCtl → StoreCtl) (s : State) : (s.onStore f).epochValid = s.epochValid := rfl
@[simp] theorem onStore_pins (f : StoreCtl → StoreCtl) (s : State) : (s.onStore f).pins = s.pins := rfl
@[simp] theorem onStore_settings (f : StoreCtl → StoreCtl) (s : State) : (s.onStore f).settings = s.settings := rfl
@[simp] theorem onStore_plan (f : StoreCtl → StoreCtl) (s : State) : (s.onStore f).plan = s.plan := rfl
@[simp] theorem onStore_trig (f : StoreCtl → StoreCtl) (s : State) : (s.onStore f).trig = s.trig := rfl
@[simp] theorem onStore_ring (f : StoreCtl → StoreCtl) (s : State) : (s.onStore f).ring = s.ring := rfl
@[simp] theorem onStore_streams (f : StoreCtl → StoreCtl) (s : State) : (s.onStore f).streams = s.streams := rfl
@[simp] theorem onStore_fetches (f : StoreCtl → StoreCtl) (s : State) : (s.onStore f).fetches = s.fetches := rfl
@[simp] theorem onStore_engine (f : StoreCtl → StoreCtl) (s : State) : (s.onStore f).engine = s.engine := rfl
@[simp] theorem onStore_monitor (f : StoreCtl → StoreCtl) (s : State) : (s.onStore f).monitor = s.monitor := rfl
@[simp] theorem onStore_store (f : StoreCtl → StoreCtl) (s : State) : (s.onStore f).store = f s.store := rfl
@[simp] theorem onStore_flash (f : StoreCtl → StoreCtl) (s : State) : (s.onStore f).flash = s.flash := rfl
@[simp] theorem onStore_dir (f : StoreCtl → StoreCtl) (s : State) : (s.onStore f).dir = s.dir := rfl
@[simp] theorem onStore_integ (f : StoreCtl → StoreCtl) (s : State) : (s.onStore f).integ = s.integ := rfl
@[simp] theorem onStore_link (f : StoreCtl → StoreCtl) (s : State) : (s.onStore f).link = s.link := rfl

/-! ## onFlash -/

@[simp] theorem onFlash_pending (f : Flash → Flash) (s : State) : (s.onFlash f).pending = s.pending := rfl
@[simp] theorem onFlash_powered (f : Flash → Flash) (s : State) : (s.onFlash f).powered = s.powered := rfl
@[simp] theorem onFlash_ready (f : Flash → Flash) (s : State) : (s.onFlash f).ready = s.ready := rfl
@[simp] theorem onFlash_time (f : Flash → Flash) (s : State) : (s.onFlash f).time = s.time := rfl
@[simp] theorem onFlash_epoch (f : Flash → Flash) (s : State) : (s.onFlash f).epoch = s.epoch := rfl
@[simp] theorem onFlash_epochValid (f : Flash → Flash) (s : State) : (s.onFlash f).epochValid = s.epochValid := rfl
@[simp] theorem onFlash_pins (f : Flash → Flash) (s : State) : (s.onFlash f).pins = s.pins := rfl
@[simp] theorem onFlash_settings (f : Flash → Flash) (s : State) : (s.onFlash f).settings = s.settings := rfl
@[simp] theorem onFlash_plan (f : Flash → Flash) (s : State) : (s.onFlash f).plan = s.plan := rfl
@[simp] theorem onFlash_trig (f : Flash → Flash) (s : State) : (s.onFlash f).trig = s.trig := rfl
@[simp] theorem onFlash_ring (f : Flash → Flash) (s : State) : (s.onFlash f).ring = s.ring := rfl
@[simp] theorem onFlash_streams (f : Flash → Flash) (s : State) : (s.onFlash f).streams = s.streams := rfl
@[simp] theorem onFlash_fetches (f : Flash → Flash) (s : State) : (s.onFlash f).fetches = s.fetches := rfl
@[simp] theorem onFlash_engine (f : Flash → Flash) (s : State) : (s.onFlash f).engine = s.engine := rfl
@[simp] theorem onFlash_monitor (f : Flash → Flash) (s : State) : (s.onFlash f).monitor = s.monitor := rfl
@[simp] theorem onFlash_store (f : Flash → Flash) (s : State) : (s.onFlash f).store = s.store := rfl
@[simp] theorem onFlash_flash (f : Flash → Flash) (s : State) : (s.onFlash f).flash = f s.flash := rfl
@[simp] theorem onFlash_dir (f : Flash → Flash) (s : State) : (s.onFlash f).dir = s.dir := rfl
@[simp] theorem onFlash_integ (f : Flash → Flash) (s : State) : (s.onFlash f).integ = s.integ := rfl
@[simp] theorem onFlash_link (f : Flash → Flash) (s : State) : (s.onFlash f).link = s.link := rfl

/-! ## onDir -/

@[simp] theorem onDir_pending (f : Directory → Directory) (s : State) : (s.onDir f).pending = s.pending := rfl
@[simp] theorem onDir_powered (f : Directory → Directory) (s : State) : (s.onDir f).powered = s.powered := rfl
@[simp] theorem onDir_ready (f : Directory → Directory) (s : State) : (s.onDir f).ready = s.ready := rfl
@[simp] theorem onDir_time (f : Directory → Directory) (s : State) : (s.onDir f).time = s.time := rfl
@[simp] theorem onDir_epoch (f : Directory → Directory) (s : State) : (s.onDir f).epoch = s.epoch := rfl
@[simp] theorem onDir_epochValid (f : Directory → Directory) (s : State) : (s.onDir f).epochValid = s.epochValid := rfl
@[simp] theorem onDir_pins (f : Directory → Directory) (s : State) : (s.onDir f).pins = s.pins := rfl
@[simp] theorem onDir_settings (f : Directory → Directory) (s : State) : (s.onDir f).settings = s.settings := rfl
@[simp] theorem onDir_plan (f : Directory → Directory) (s : State) : (s.onDir f).plan = s.plan := rfl
@[simp] theorem onDir_trig (f : Directory → Directory) (s : State) : (s.onDir f).trig = s.trig := rfl
@[simp] theorem onDir_ring (f : Directory → Directory) (s : State) : (s.onDir f).ring = s.ring := rfl
@[simp] theorem onDir_streams (f : Directory → Directory) (s : State) : (s.onDir f).streams = s.streams := rfl
@[simp] theorem onDir_fetches (f : Directory → Directory) (s : State) : (s.onDir f).fetches = s.fetches := rfl
@[simp] theorem onDir_engine (f : Directory → Directory) (s : State) : (s.onDir f).engine = s.engine := rfl
@[simp] theorem onDir_monitor (f : Directory → Directory) (s : State) : (s.onDir f).monitor = s.monitor := rfl
@[simp] theorem onDir_store (f : Directory → Directory) (s : State) : (s.onDir f).store = s.store := rfl
@[simp] theorem onDir_flash (f : Directory → Directory) (s : State) : (s.onDir f).flash = s.flash := rfl
@[simp] theorem onDir_dir (f : Directory → Directory) (s : State) : (s.onDir f).dir = f s.dir := rfl
@[simp] theorem onDir_integ (f : Directory → Directory) (s : State) : (s.onDir f).integ = s.integ := rfl
@[simp] theorem onDir_link (f : Directory → Directory) (s : State) : (s.onDir f).link = s.link := rfl

/-! ## onInteg -/

@[simp] theorem onInteg_pending (f : Integrity → Integrity) (s : State) : (s.onInteg f).pending = s.pending := rfl
@[simp] theorem onInteg_powered (f : Integrity → Integrity) (s : State) : (s.onInteg f).powered = s.powered := rfl
@[simp] theorem onInteg_ready (f : Integrity → Integrity) (s : State) : (s.onInteg f).ready = s.ready := rfl
@[simp] theorem onInteg_time (f : Integrity → Integrity) (s : State) : (s.onInteg f).time = s.time := rfl
@[simp] theorem onInteg_epoch (f : Integrity → Integrity) (s : State) : (s.onInteg f).epoch = s.epoch := rfl
@[simp] theorem onInteg_epochValid (f : Integrity → Integrity) (s : State) : (s.onInteg f).epochValid = s.epochValid := rfl
@[simp] theorem onInteg_pins (f : Integrity → Integrity) (s : State) : (s.onInteg f).pins = s.pins := rfl
@[simp] theorem onInteg_settings (f : Integrity → Integrity) (s : State) : (s.onInteg f).settings = s.settings := rfl
@[simp] theorem onInteg_plan (f : Integrity → Integrity) (s : State) : (s.onInteg f).plan = s.plan := rfl
@[simp] theorem onInteg_trig (f : Integrity → Integrity) (s : State) : (s.onInteg f).trig = s.trig := rfl
@[simp] theorem onInteg_ring (f : Integrity → Integrity) (s : State) : (s.onInteg f).ring = s.ring := rfl
@[simp] theorem onInteg_streams (f : Integrity → Integrity) (s : State) : (s.onInteg f).streams = s.streams := rfl
@[simp] theorem onInteg_fetches (f : Integrity → Integrity) (s : State) : (s.onInteg f).fetches = s.fetches := rfl
@[simp] theorem onInteg_engine (f : Integrity → Integrity) (s : State) : (s.onInteg f).engine = s.engine := rfl
@[simp] theorem onInteg_monitor (f : Integrity → Integrity) (s : State) : (s.onInteg f).monitor = s.monitor := rfl
@[simp] theorem onInteg_store (f : Integrity → Integrity) (s : State) : (s.onInteg f).store = s.store := rfl
@[simp] theorem onInteg_flash (f : Integrity → Integrity) (s : State) : (s.onInteg f).flash = s.flash := rfl
@[simp] theorem onInteg_dir (f : Integrity → Integrity) (s : State) : (s.onInteg f).dir = s.dir := rfl
@[simp] theorem onInteg_integ (f : Integrity → Integrity) (s : State) : (s.onInteg f).integ = f s.integ := rfl
@[simp] theorem onInteg_link (f : Integrity → Integrity) (s : State) : (s.onInteg f).link = s.link := rfl

/-! ## onLink -/

@[simp] theorem onLink_pending (f : Link → Link) (s : State) : (s.onLink f).pending = s.pending := rfl
@[simp] theorem onLink_powered (f : Link → Link) (s : State) : (s.onLink f).powered = s.powered := rfl
@[simp] theorem onLink_ready (f : Link → Link) (s : State) : (s.onLink f).ready = s.ready := rfl
@[simp] theorem onLink_time (f : Link → Link) (s : State) : (s.onLink f).time = s.time := rfl
@[simp] theorem onLink_epoch (f : Link → Link) (s : State) : (s.onLink f).epoch = s.epoch := rfl
@[simp] theorem onLink_epochValid (f : Link → Link) (s : State) : (s.onLink f).epochValid = s.epochValid := rfl
@[simp] theorem onLink_pins (f : Link → Link) (s : State) : (s.onLink f).pins = s.pins := rfl
@[simp] theorem onLink_settings (f : Link → Link) (s : State) : (s.onLink f).settings = s.settings := rfl
@[simp] theorem onLink_plan (f : Link → Link) (s : State) : (s.onLink f).plan = s.plan := rfl
@[simp] theorem onLink_trig (f : Link → Link) (s : State) : (s.onLink f).trig = s.trig := rfl
@[simp] theorem onLink_ring (f : Link → Link) (s : State) : (s.onLink f).ring = s.ring := rfl
@[simp] theorem onLink_streams (f : Link → Link) (s : State) : (s.onLink f).streams = s.streams := rfl
@[simp] theorem onLink_fetches (f : Link → Link) (s : State) : (s.onLink f).fetches = s.fetches := rfl
@[simp] theorem onLink_engine (f : Link → Link) (s : State) : (s.onLink f).engine = s.engine := rfl
@[simp] theorem onLink_monitor (f : Link → Link) (s : State) : (s.onLink f).monitor = s.monitor := rfl
@[simp] theorem onLink_store (f : Link → Link) (s : State) : (s.onLink f).store = s.store := rfl
@[simp] theorem onLink_flash (f : Link → Link) (s : State) : (s.onLink f).flash = s.flash := rfl
@[simp] theorem onLink_dir (f : Link → Link) (s : State) : (s.onLink f).dir = s.dir := rfl
@[simp] theorem onLink_integ (f : Link → Link) (s : State) : (s.onLink f).integ = s.integ := rfl
@[simp] theorem onLink_link (f : Link → Link) (s : State) : (s.onLink f).link = f s.link := rfl

/-! ## onPins -/

@[simp] theorem onPins_pending (f : Pins → Pins) (s : State) : (s.onPins f).pending = s.pending := rfl
@[simp] theorem onPins_powered (f : Pins → Pins) (s : State) : (s.onPins f).powered = s.powered := rfl
@[simp] theorem onPins_ready (f : Pins → Pins) (s : State) : (s.onPins f).ready = s.ready := rfl
@[simp] theorem onPins_time (f : Pins → Pins) (s : State) : (s.onPins f).time = s.time := rfl
@[simp] theorem onPins_epoch (f : Pins → Pins) (s : State) : (s.onPins f).epoch = s.epoch := rfl
@[simp] theorem onPins_epochValid (f : Pins → Pins) (s : State) : (s.onPins f).epochValid = s.epochValid := rfl
@[simp] theorem onPins_pins (f : Pins → Pins) (s : State) : (s.onPins f).pins = f s.pins := rfl
@[simp] theorem onPins_settings (f : Pins → Pins) (s : State) : (s.onPins f).settings = s.settings := rfl
@[simp] theorem onPins_plan (f : Pins → Pins) (s : State) : (s.onPins f).plan = s.plan := rfl
@[simp] theorem onPins_trig (f : Pins → Pins) (s : State) : (s.onPins f).trig = s.trig := rfl
@[simp] theorem onPins_ring (f : Pins → Pins) (s : State) : (s.onPins f).ring = s.ring := rfl
@[simp] theorem onPins_streams (f : Pins → Pins) (s : State) : (s.onPins f).streams = s.streams := rfl
@[simp] theorem onPins_fetches (f : Pins → Pins) (s : State) : (s.onPins f).fetches = s.fetches := rfl
@[simp] theorem onPins_engine (f : Pins → Pins) (s : State) : (s.onPins f).engine = s.engine := rfl
@[simp] theorem onPins_monitor (f : Pins → Pins) (s : State) : (s.onPins f).monitor = s.monitor := rfl
@[simp] theorem onPins_store (f : Pins → Pins) (s : State) : (s.onPins f).store = s.store := rfl
@[simp] theorem onPins_flash (f : Pins → Pins) (s : State) : (s.onPins f).flash = s.flash := rfl
@[simp] theorem onPins_dir (f : Pins → Pins) (s : State) : (s.onPins f).dir = s.dir := rfl
@[simp] theorem onPins_integ (f : Pins → Pins) (s : State) : (s.onPins f).integ = s.integ := rfl
@[simp] theorem onPins_link (f : Pins → Pins) (s : State) : (s.onPins f).link = s.link := rfl

/-! ## onStream -/

@[simp] theorem onStream_pending (i : Fin 4) (f : StreamChan → StreamChan) (s : State) : (s.onStream i f).pending = s.pending := rfl
@[simp] theorem onStream_powered (i : Fin 4) (f : StreamChan → StreamChan) (s : State) : (s.onStream i f).powered = s.powered := rfl
@[simp] theorem onStream_ready (i : Fin 4) (f : StreamChan → StreamChan) (s : State) : (s.onStream i f).ready = s.ready := rfl
@[simp] theorem onStream_time (i : Fin 4) (f : StreamChan → StreamChan) (s : State) : (s.onStream i f).time = s.time := rfl
@[simp] theorem onStream_epoch (i : Fin 4) (f : StreamChan → StreamChan) (s : State) : (s.onStream i f).epoch = s.epoch := rfl
@[simp] theorem onStream_epochValid (i : Fin 4) (f : StreamChan → StreamChan) (s : State) : (s.onStream i f).epochValid = s.epochValid := rfl
@[simp] theorem onStream_pins (i : Fin 4) (f : StreamChan → StreamChan) (s : State) : (s.onStream i f).pins = s.pins := rfl
@[simp] theorem onStream_settings (i : Fin 4) (f : StreamChan → StreamChan) (s : State) : (s.onStream i f).settings = s.settings := rfl
@[simp] theorem onStream_plan (i : Fin 4) (f : StreamChan → StreamChan) (s : State) : (s.onStream i f).plan = s.plan := rfl
@[simp] theorem onStream_trig (i : Fin 4) (f : StreamChan → StreamChan) (s : State) : (s.onStream i f).trig = s.trig := rfl
@[simp] theorem onStream_ring (i : Fin 4) (f : StreamChan → StreamChan) (s : State) : (s.onStream i f).ring = s.ring := rfl
@[simp] theorem onStream_streams (i : Fin 4) (f : StreamChan → StreamChan) (s : State) : (s.onStream i f).streams = vmod s.streams i f := rfl
@[simp] theorem onStream_fetches (i : Fin 4) (f : StreamChan → StreamChan) (s : State) : (s.onStream i f).fetches = s.fetches := rfl
@[simp] theorem onStream_engine (i : Fin 4) (f : StreamChan → StreamChan) (s : State) : (s.onStream i f).engine = s.engine := rfl
@[simp] theorem onStream_monitor (i : Fin 4) (f : StreamChan → StreamChan) (s : State) : (s.onStream i f).monitor = s.monitor := rfl
@[simp] theorem onStream_store (i : Fin 4) (f : StreamChan → StreamChan) (s : State) : (s.onStream i f).store = s.store := rfl
@[simp] theorem onStream_flash (i : Fin 4) (f : StreamChan → StreamChan) (s : State) : (s.onStream i f).flash = s.flash := rfl
@[simp] theorem onStream_dir (i : Fin 4) (f : StreamChan → StreamChan) (s : State) : (s.onStream i f).dir = s.dir := rfl
@[simp] theorem onStream_integ (i : Fin 4) (f : StreamChan → StreamChan) (s : State) : (s.onStream i f).integ = s.integ := rfl
@[simp] theorem onStream_link (i : Fin 4) (f : StreamChan → StreamChan) (s : State) : (s.onStream i f).link = s.link := rfl

/-! ## onFetch -/

@[simp] theorem onFetch_pending (i : Fin 4) (f : FetchChan → FetchChan) (s : State) : (s.onFetch i f).pending = s.pending := rfl
@[simp] theorem onFetch_powered (i : Fin 4) (f : FetchChan → FetchChan) (s : State) : (s.onFetch i f).powered = s.powered := rfl
@[simp] theorem onFetch_ready (i : Fin 4) (f : FetchChan → FetchChan) (s : State) : (s.onFetch i f).ready = s.ready := rfl
@[simp] theorem onFetch_time (i : Fin 4) (f : FetchChan → FetchChan) (s : State) : (s.onFetch i f).time = s.time := rfl
@[simp] theorem onFetch_epoch (i : Fin 4) (f : FetchChan → FetchChan) (s : State) : (s.onFetch i f).epoch = s.epoch := rfl
@[simp] theorem onFetch_epochValid (i : Fin 4) (f : FetchChan → FetchChan) (s : State) : (s.onFetch i f).epochValid = s.epochValid := rfl
@[simp] theorem onFetch_pins (i : Fin 4) (f : FetchChan → FetchChan) (s : State) : (s.onFetch i f).pins = s.pins := rfl
@[simp] theorem onFetch_settings (i : Fin 4) (f : FetchChan → FetchChan) (s : State) : (s.onFetch i f).settings = s.settings := rfl
@[simp] theorem onFetch_plan (i : Fin 4) (f : FetchChan → FetchChan) (s : State) : (s.onFetch i f).plan = s.plan := rfl
@[simp] theorem onFetch_trig (i : Fin 4) (f : FetchChan → FetchChan) (s : State) : (s.onFetch i f).trig = s.trig := rfl
@[simp] theorem onFetch_ring (i : Fin 4) (f : FetchChan → FetchChan) (s : State) : (s.onFetch i f).ring = s.ring := rfl
@[simp] theorem onFetch_streams (i : Fin 4) (f : FetchChan → FetchChan) (s : State) : (s.onFetch i f).streams = s.streams := rfl
@[simp] theorem onFetch_fetches (i : Fin 4) (f : FetchChan → FetchChan) (s : State) : (s.onFetch i f).fetches = vmod s.fetches i f := rfl
@[simp] theorem onFetch_engine (i : Fin 4) (f : FetchChan → FetchChan) (s : State) : (s.onFetch i f).engine = s.engine := rfl
@[simp] theorem onFetch_monitor (i : Fin 4) (f : FetchChan → FetchChan) (s : State) : (s.onFetch i f).monitor = s.monitor := rfl
@[simp] theorem onFetch_store (i : Fin 4) (f : FetchChan → FetchChan) (s : State) : (s.onFetch i f).store = s.store := rfl
@[simp] theorem onFetch_flash (i : Fin 4) (f : FetchChan → FetchChan) (s : State) : (s.onFetch i f).flash = s.flash := rfl
@[simp] theorem onFetch_dir (i : Fin 4) (f : FetchChan → FetchChan) (s : State) : (s.onFetch i f).dir = s.dir := rfl
@[simp] theorem onFetch_integ (i : Fin 4) (f : FetchChan → FetchChan) (s : State) : (s.onFetch i f).integ = s.integ := rfl
@[simp] theorem onFetch_link (i : Fin 4) (f : FetchChan → FetchChan) (s : State) : (s.onFetch i f).link = s.link := rfl

/-! ## onPort -/

@[simp] theorem onPort_pending (p : PortId) (f : Port → Port) (s : State) : (s.onPort p f).pending = s.pending := rfl
@[simp] theorem onPort_powered (p : PortId) (f : Port → Port) (s : State) : (s.onPort p f).powered = s.powered := rfl
@[simp] theorem onPort_ready (p : PortId) (f : Port → Port) (s : State) : (s.onPort p f).ready = s.ready := rfl
@[simp] theorem onPort_time (p : PortId) (f : Port → Port) (s : State) : (s.onPort p f).time = s.time := rfl
@[simp] theorem onPort_epoch (p : PortId) (f : Port → Port) (s : State) : (s.onPort p f).epoch = s.epoch := rfl
@[simp] theorem onPort_epochValid (p : PortId) (f : Port → Port) (s : State) : (s.onPort p f).epochValid = s.epochValid := rfl
@[simp] theorem onPort_pins (p : PortId) (f : Port → Port) (s : State) : (s.onPort p f).pins = s.pins := rfl
@[simp] theorem onPort_settings (p : PortId) (f : Port → Port) (s : State) : (s.onPort p f).settings = s.settings := rfl
@[simp] theorem onPort_plan (p : PortId) (f : Port → Port) (s : State) : (s.onPort p f).plan = s.plan := rfl
@[simp] theorem onPort_trig (p : PortId) (f : Port → Port) (s : State) : (s.onPort p f).trig = s.trig := rfl
@[simp] theorem onPort_ring (p : PortId) (f : Port → Port) (s : State) : (s.onPort p f).ring = s.ring := rfl
@[simp] theorem onPort_streams (p : PortId) (f : Port → Port) (s : State) : (s.onPort p f).streams = s.streams := rfl
@[simp] theorem onPort_fetches (p : PortId) (f : Port → Port) (s : State) : (s.onPort p f).fetches = s.fetches := rfl
@[simp] theorem onPort_engine (p : PortId) (f : Port → Port) (s : State) : (s.onPort p f).engine = s.engine := rfl
@[simp] theorem onPort_monitor (p : PortId) (f : Port → Port) (s : State) : (s.onPort p f).monitor = s.monitor := rfl
@[simp] theorem onPort_store (p : PortId) (f : Port → Port) (s : State) : (s.onPort p f).store = s.store := rfl
@[simp] theorem onPort_flash (p : PortId) (f : Port → Port) (s : State) : (s.onPort p f).flash = s.flash := rfl
@[simp] theorem onPort_dir (p : PortId) (f : Port → Port) (s : State) : (s.onPort p f).dir = s.dir := rfl
@[simp] theorem onPort_integ (p : PortId) (f : Port → Port) (s : State) : (s.onPort p f).integ = s.integ := rfl

/-! ## onBuf -/

@[simp] theorem onBuf_pending (i : Fin 4) (f : Buf → Buf) (s : State) : (s.onBuf i f).pending = s.pending := rfl
@[simp] theorem onBuf_powered (i : Fin 4) (f : Buf → Buf) (s : State) : (s.onBuf i f).powered = s.powered := rfl
@[simp] theorem onBuf_ready (i : Fin 4) (f : Buf → Buf) (s : State) : (s.onBuf i f).ready = s.ready := rfl
@[simp] theorem onBuf_time (i : Fin 4) (f : Buf → Buf) (s : State) : (s.onBuf i f).time = s.time := rfl
@[simp] theorem onBuf_epoch (i : Fin 4) (f : Buf → Buf) (s : State) : (s.onBuf i f).epoch = s.epoch := rfl
@[simp] theorem onBuf_epochValid (i : Fin 4) (f : Buf → Buf) (s : State) : (s.onBuf i f).epochValid = s.epochValid := rfl
@[simp] theorem onBuf_pins (i : Fin 4) (f : Buf → Buf) (s : State) : (s.onBuf i f).pins = s.pins := rfl
@[simp] theorem onBuf_settings (i : Fin 4) (f : Buf → Buf) (s : State) : (s.onBuf i f).settings = s.settings := rfl
@[simp] theorem onBuf_plan (i : Fin 4) (f : Buf → Buf) (s : State) : (s.onBuf i f).plan = s.plan := rfl
@[simp] theorem onBuf_trig (i : Fin 4) (f : Buf → Buf) (s : State) : (s.onBuf i f).trig = s.trig := rfl
@[simp] theorem onBuf_ring (i : Fin 4) (f : Buf → Buf) (s : State) : (s.onBuf i f).ring = s.ring := rfl
@[simp] theorem onBuf_streams (i : Fin 4) (f : Buf → Buf) (s : State) : (s.onBuf i f).streams = s.streams := rfl
@[simp] theorem onBuf_fetches (i : Fin 4) (f : Buf → Buf) (s : State) : (s.onBuf i f).fetches = s.fetches := rfl
@[simp] theorem onBuf_monitor (i : Fin 4) (f : Buf → Buf) (s : State) : (s.onBuf i f).monitor = s.monitor := rfl
@[simp] theorem onBuf_store (i : Fin 4) (f : Buf → Buf) (s : State) : (s.onBuf i f).store = s.store := rfl
@[simp] theorem onBuf_flash (i : Fin 4) (f : Buf → Buf) (s : State) : (s.onBuf i f).flash = s.flash := rfl
@[simp] theorem onBuf_dir (i : Fin 4) (f : Buf → Buf) (s : State) : (s.onBuf i f).dir = s.dir := rfl
@[simp] theorem onBuf_integ (i : Fin 4) (f : Buf → Buf) (s : State) : (s.onBuf i f).integ = s.integ := rfl
@[simp] theorem onBuf_link (i : Fin 4) (f : Buf → Buf) (s : State) : (s.onBuf i f).link = s.link := rfl

/-! ## onCapture -/

@[simp] theorem onCapture_pending (f : Capture → Capture) (s : State) : (s.onCapture f).pending = s.pending := rfl
@[simp] theorem onCapture_powered (f : Capture → Capture) (s : State) : (s.onCapture f).powered = s.powered := rfl
@[simp] theorem onCapture_ready (f : Capture → Capture) (s : State) : (s.onCapture f).ready = s.ready := rfl
@[simp] theorem onCapture_time (f : Capture → Capture) (s : State) : (s.onCapture f).time = s.time := rfl
@[simp] theorem onCapture_epoch (f : Capture → Capture) (s : State) : (s.onCapture f).epoch = s.epoch := rfl
@[simp] theorem onCapture_epochValid (f : Capture → Capture) (s : State) : (s.onCapture f).epochValid = s.epochValid := rfl
@[simp] theorem onCapture_pins (f : Capture → Capture) (s : State) : (s.onCapture f).pins = s.pins := rfl
@[simp] theorem onCapture_settings (f : Capture → Capture) (s : State) : (s.onCapture f).settings = s.settings := rfl
@[simp] theorem onCapture_plan (f : Capture → Capture) (s : State) : (s.onCapture f).plan = s.plan := rfl
@[simp] theorem onCapture_trig (f : Capture → Capture) (s : State) : (s.onCapture f).trig = s.trig := rfl
@[simp] theorem onCapture_ring (f : Capture → Capture) (s : State) : (s.onCapture f).ring = s.ring := rfl
@[simp] theorem onCapture_streams (f : Capture → Capture) (s : State) : (s.onCapture f).streams = s.streams := rfl
@[simp] theorem onCapture_fetches (f : Capture → Capture) (s : State) : (s.onCapture f).fetches = s.fetches := rfl
@[simp] theorem onCapture_monitor (f : Capture → Capture) (s : State) : (s.onCapture f).monitor = s.monitor := rfl
@[simp] theorem onCapture_store (f : Capture → Capture) (s : State) : (s.onCapture f).store = s.store := rfl
@[simp] theorem onCapture_flash (f : Capture → Capture) (s : State) : (s.onCapture f).flash = s.flash := rfl
@[simp] theorem onCapture_dir (f : Capture → Capture) (s : State) : (s.onCapture f).dir = s.dir := rfl
@[simp] theorem onCapture_integ (f : Capture → Capture) (s : State) : (s.onCapture f).integ = s.integ := rfl
@[simp] theorem onCapture_link (f : Capture → Capture) (s : State) : (s.onCapture f).link = s.link := rfl

/-! ## onSection -/

@[simp] theorem onSection_pending (f : Section → Section) (s : State) : (s.onSection f).pending = s.pending := rfl
@[simp] theorem onSection_powered (f : Section → Section) (s : State) : (s.onSection f).powered = s.powered := rfl
@[simp] theorem onSection_ready (f : Section → Section) (s : State) : (s.onSection f).ready = s.ready := rfl
@[simp] theorem onSection_time (f : Section → Section) (s : State) : (s.onSection f).time = s.time := rfl
@[simp] theorem onSection_epoch (f : Section → Section) (s : State) : (s.onSection f).epoch = s.epoch := rfl
@[simp] theorem onSection_epochValid (f : Section → Section) (s : State) : (s.onSection f).epochValid = s.epochValid := rfl
@[simp] theorem onSection_pins (f : Section → Section) (s : State) : (s.onSection f).pins = s.pins := rfl
@[simp] theorem onSection_settings (f : Section → Section) (s : State) : (s.onSection f).settings = s.settings := rfl
@[simp] theorem onSection_plan (f : Section → Section) (s : State) : (s.onSection f).plan = s.plan := rfl
@[simp] theorem onSection_trig (f : Section → Section) (s : State) : (s.onSection f).trig = s.trig := rfl
@[simp] theorem onSection_ring (f : Section → Section) (s : State) : (s.onSection f).ring = s.ring := rfl
@[simp] theorem onSection_streams (f : Section → Section) (s : State) : (s.onSection f).streams = s.streams := rfl
@[simp] theorem onSection_fetches (f : Section → Section) (s : State) : (s.onSection f).fetches = s.fetches := rfl
@[simp] theorem onSection_monitor (f : Section → Section) (s : State) : (s.onSection f).monitor = s.monitor := rfl
@[simp] theorem onSection_store (f : Section → Section) (s : State) : (s.onSection f).store = s.store := rfl
@[simp] theorem onSection_flash (f : Section → Section) (s : State) : (s.onSection f).flash = s.flash := rfl
@[simp] theorem onSection_dir (f : Section → Section) (s : State) : (s.onSection f).dir = s.dir := rfl
@[simp] theorem onSection_integ (f : Section → Section) (s : State) : (s.onSection f).integ = s.integ := rfl
@[simp] theorem onSection_link (f : Section → Section) (s : State) : (s.onSection f).link = s.link := rfl

/-! ## keeping -/

@[simp] theorem keeping_pending (f : State → State) (s : State) : (keeping f s).pending = s.pending := rfl
@[simp] theorem keeping_powered (f : State → State) (s : State) : (keeping f s).powered = s.powered := rfl
@[simp] theorem keeping_ready (f : State → State) (s : State) : (keeping f s).ready = s.ready := rfl
@[simp] theorem keeping_time (f : State → State) (s : State) : (keeping f s).time = s.time := rfl
@[simp] theorem keeping_epoch (f : State → State) (s : State) : (keeping f s).epoch = s.epoch := rfl
@[simp] theorem keeping_epochValid (f : State → State) (s : State) : (keeping f s).epochValid = s.epochValid := rfl
@[simp] theorem keeping_pins (f : State → State) (s : State) : (keeping f s).pins = s.pins := rfl
@[simp] theorem keeping_settings (f : State → State) (s : State) : (keeping f s).settings = s.settings := rfl
@[simp] theorem keeping_plan (f : State → State) (s : State) : (keeping f s).plan = s.plan := rfl
@[simp] theorem keeping_flash (f : State → State) (s : State) : (keeping f s).flash = s.flash := rfl
@[simp] theorem keeping_trig (f : State → State) (s : State) : (keeping f s).trig = (f s).trig := rfl
@[simp] theorem keeping_ring (f : State → State) (s : State) : (keeping f s).ring = (f s).ring := rfl
@[simp] theorem keeping_streams (f : State → State) (s : State) : (keeping f s).streams = (f s).streams := rfl
@[simp] theorem keeping_fetches (f : State → State) (s : State) : (keeping f s).fetches = (f s).fetches := rfl
@[simp] theorem keeping_engine (f : State → State) (s : State) : (keeping f s).engine = (f s).engine := rfl
@[simp] theorem keeping_monitor (f : State → State) (s : State) : (keeping f s).monitor = (f s).monitor := rfl
@[simp] theorem keeping_store (f : State → State) (s : State) : (keeping f s).store = (f s).store := rfl
@[simp] theorem keeping_dir (f : State → State) (s : State) : (keeping f s).dir = (f s).dir := rfl
@[simp] theorem keeping_integ (f : State → State) (s : State) : (keeping f s).integ = (f s).integ := rfl
@[simp] theorem keeping_link (f : State → State) (s : State) : (keeping f s).link = (f s).link := rfl

end Sys2Proof.Machine
end

