-- ==== Sys2Proof/Laws/Frame.lean ====
section
/-! SUPPORT. Sys2Proof/Laws/Frame.lean: the shared operations act on the blocks alone: the queue, power, the controller state, the
clock, the pins, the working settings and plan and the contents of the store are left (`frameOf`). -/

namespace Sys2Proof.Machine

/-- What the blocks' operations leave: every field that `keeping` restores. -/
def frameOf (s : State) :
    List Instr × Bool × Bool × PartTime × BitVec 64 × Bool × Pins × Settings × Plan × Flash :=
  (s.pending, s.powered, s.ready, s.time, s.epoch, s.epochValid, s.pins, s.settings, s.plan, s.flash)

/-- An operation that leaves the frame is its own `keeping`. -/
theorem keeping_of_frame (f : State → State) (s : State) (h : frameOf (f s) = frameOf s) : keeping f s = f s := by
  simp only [frameOf, Prod.mk.injEq] at h
  obtain ⟨h1, h2, h3, h4, h5, h6, h7, h8, h9, h10⟩ := h
  simp only [keeping, ← h1, ← h2, ← h3, ← h4, ← h5, ← h6, ← h7, ← h8, ← h9, ← h10]

@[simp] theorem frameOf_keeping (f : State → State) (s : State) : frameOf (keeping f s) = frameOf s := rfl

@[simp] theorem frameOf_onTrig (f : TrigUnit → TrigUnit) (s : State) : frameOf (s.onTrig f) = frameOf s := rfl
@[simp] theorem frameOf_onRing (f : Ring → Ring) (s : State) : frameOf (s.onRing f) = frameOf s := rfl
@[simp] theorem frameOf_onEngine (f : Engine → Engine) (s : State) : frameOf (s.onEngine f) = frameOf s := rfl
@[simp] theorem frameOf_onMonitor (f : Monitor → Monitor) (s : State) : frameOf (s.onMonitor f) = frameOf s := rfl
@[simp] theorem frameOf_onStore (f : StoreCtl → StoreCtl) (s : State) : frameOf (s.onStore f) = frameOf s := rfl
@[simp] theorem frameOf_onDir (f : Directory → Directory) (s : State) : frameOf (s.onDir f) = frameOf s := rfl
@[simp] theorem frameOf_onInteg (f : Integrity → Integrity) (s : State) : frameOf (s.onInteg f) = frameOf s := rfl
@[simp] theorem frameOf_onLink (f : Link → Link) (s : State) : frameOf (s.onLink f) = frameOf s := rfl
@[simp] theorem frameOf_onCapture (f : Capture → Capture) (s : State) : frameOf (s.onCapture f) = frameOf s := rfl
@[simp] theorem frameOf_onSection (f : Section → Section) (s : State) : frameOf (s.onSection f) = frameOf s := rfl
@[simp] theorem frameOf_onPort (p : PortId) (f : Port → Port) (s : State) : frameOf (s.onPort p f) = frameOf s := rfl
@[simp] theorem frameOf_onStream (i : Fin 4) (f : StreamChan → StreamChan) (s : State) : frameOf (s.onStream i f) = frameOf s := rfl
@[simp] theorem frameOf_onFetch (i : Fin 4) (f : FetchChan → FetchChan) (s : State) : frameOf (s.onFetch i f) = frameOf s := rfl
@[simp] theorem frameOf_onBuf (i : Fin 4) (f : Buf → Buf) (s : State) : frameOf (s.onBuf i f) = frameOf s := rfl

/-- A repetition leaves the frame when each turn does. -/
theorem frameOf_forEach {α : Type} (xs : List α) (f : α → State → State) (h : ∀ x s, frameOf (f x s) = frameOf s) (s : State) :
    frameOf (forEach xs f s) = frameOf s := by
  induction xs generalizing s with
  | nil => rfl
  | cons x xs ih => exact (ih (f x s)).trans (h x s)

theorem frameOf_ite (c : Prop) [Decidable c] (a b s : State) (ha : frameOf a = frameOf s) (hb : frameOf b = frameOf s) :
    frameOf (if c then a else b) = frameOf s := by
  split <;> assumption

@[simp] theorem frameOf_post (o : Origin) (k : Byte) (a : List Nat) (s : State) : frameOf (post o k a s) = frameOf s := rfl
@[simp] theorem frameOf_releasePin (s : State) : frameOf (releasePin s) = frameOf s := rfl
@[simp] theorem frameOf_raise (n : Notice) (s : State) : frameOf (raise n s) = frameOf s := rfl
@[simp] theorem frameOf_clearNotices (p : PortId) (s : State) : frameOf (clearNotices p s) = frameOf s := rfl
@[simp] theorem frameOf_clearRestarted (s : State) : frameOf (clearRestarted s) = frameOf s := rfl
@[simp] theorem frameOf_answer (p : PortId) (st : Status) (b : Bool) (f : List Byte) (s : State) : frameOf (answer p st b f s) = frameOf s := rfl
@[simp] theorem frameOf_refuse (p : PortId) (st : Status) (s : State) : frameOf (refuse p st s) = frameOf s := rfl
@[simp] theorem frameOf_setWait (p : PortId) (w : Wait) (s : State) : frameOf (setWait p w s) = frameOf s := rfl
@[simp] theorem frameOf_setPhase (ph : Phase) (s : State) : frameOf (setPhase ph s) = frameOf s := rfl
@[simp] theorem frameOf_setEngState (es : EngState) (s : State) : frameOf (setEngState es s) = frameOf s := rfl
@[simp] theorem frameOf_startCompaction (s : State) : frameOf (startCompaction s) = frameOf s := rfl
@[simp] theorem frameOf_hand (r : JRec) (who : Who) (s : State) : frameOf (hand r who s) = frameOf s := rfl
@[simp] theorem frameOf_enqueue (q : QReq) (s : State) : frameOf (enqueue q s) = frameOf s := rfl
@[simp] theorem frameOf_withdraw (q : QReq) (s : State) : frameOf (withdraw q s) = frameOf s := rfl
@[simp] theorem frameOf_insertPending (k : Nat) (r : JRec) (s : State) : frameOf (insertPending k r s) = frameOf s := rfl
@[simp] theorem frameOf_dropAhead (cap : Nat) (s : State) : frameOf (dropAhead cap s) = frameOf s := rfl
@[simp] theorem frameOf_startReclaim (cap : Nat) (s : State) : frameOf (startReclaim cap s) = frameOf s := rfl
@[simp] theorem frameOf_onTerm (n : Fin 8) (f : Term → Term) (s : State) : frameOf (onTerm n f s) = frameOf s := rfl
@[simp] theorem frameOf_startRearm (n : Fin 8) (s : State) : frameOf (startRearm n s) = frameOf s := rfl
@[simp] theorem frameOf_discardCapture (s : State) : frameOf (discardCapture s) = frameOf s := rfl
@[simp] theorem frameOf_closeOpening (k : CloseCause) (s : State) : frameOf (closeOpening k s) = frameOf s := rfl
@[simp] theorem frameOf_setCause (k : CloseCause) (s : State) : frameOf (setCause k s) = frameOf s := rfl
@[simp] theorem frameOf_unclaimAll (s : State) : frameOf (unclaimAll s) = frameOf s := rfl
@[simp] theorem frameOf_clearSilent (s : State) : frameOf (clearSilent s) = frameOf s := rfl
@[simp] theorem frameOf_countLines (c : Capture) (items : List WalkItem) (s : State) : frameOf (countLines c items s) = frameOf s := rfl
@[simp] theorem frameOf_startAttempt (ch : Fin 4) (sp : Space) (a n k : Nat) (s : State) : frameOf (startAttempt ch sp a n k s) = frameOf s := rfl
@[simp] theorem frameOf_takePoolPage (p : Nat) (s : State) : frameOf (takePoolPage p s) = frameOf s := rfl
@[simp] theorem frameOf_deliver (ch : Fin 4) (x : Piece) (s : State) : frameOf (deliver ch x s) = frameOf s := rfl
@[simp] theorem frameOf_withdrawRegion (ch : Fin 4) (s : State) : frameOf (withdrawRegion ch s) = frameOf s := rfl
@[simp] theorem frameOf_queueBuf (i : Fin 4) (s : State) : frameOf (queueBuf i s) = frameOf s := rfl
@[simp] theorem frameOf_dropBuf (i : Fin 4) (s : State) : frameOf (dropBuf i s) = frameOf s := rfl
@[simp] theorem frameOf_needMet (s : State) : frameOf (needMet s) = frameOf s := rfl
@[simp] theorem frameOf_advanceCursor (s : State) : frameOf (advanceCursor s) = frameOf s := rfl
@[simp] theorem frameOf_leaveUnrecorded (s : State) : frameOf (leaveUnrecorded s) = frameOf s := rfl
@[simp] theorem frameOf_setRelocStep (k : RelocStep) (s : State) : frameOf (setRelocStep k s) = frameOf s := rfl
@[simp] theorem frameOf_setEraseStep (k : EraseStep) (s : State) : frameOf (setEraseStep k s) = frameOf s := rfl
@[simp] theorem frameOf_awaitErase (b : Nat) (s : State) : frameOf (awaitErase b s) = frameOf s := rfl
@[simp] theorem frameOf_noteErase (b : Nat) (d : Bool) (s : State) : frameOf (noteErase b d s) = frameOf s := rfl
@[simp] theorem frameOf_onPad (p : PortId) (f : Pad → Pad) (s : State) : frameOf (onPad p f s) = frameOf s := rfl
@[simp] theorem frameOf_lockPad (p : PortId) (s : State) : frameOf (lockPad p s) = frameOf s := rfl
@[simp] theorem frameOf_finishCompaction (g : BitVec 32) (n : Nat) (s : State) : frameOf (finishCompaction g n s) = frameOf s := rfl
@[simp] theorem frameOf_forgetPads (s : State) : frameOf (forgetPads s) = frameOf s := rfl
@[simp] theorem frameOf_beginSnapshot (s : State) : frameOf (beginSnapshot s) = frameOf s := rfl
@[simp] theorem frameOf_accept (p : PortId) (k t : Byte) (s : State) : frameOf (accept p k t s) = frameOf s := rfl
@[simp] theorem frameOf_busyReply (p : PortId) (k t : Byte) (s : State) : frameOf (busyReply p k t s) = frameOf s := rfl
@[simp] theorem frameOf_setAhead (p : PortId) (a : Option ReadAhead) (s : State) : frameOf (setAhead p a s) = frameOf s := rfl
@[simp] theorem frameOf_releaseWaits (s : State) : frameOf (releaseWaits s) = frameOf s := rfl
@[simp] theorem frameOf_settle (s : State) : frameOf (settle s) = frameOf s := rfl
@[simp] theorem frameOf_setRx (ch : Fin 4) (rx : Option (List Byte)) (s : State) : frameOf (setRx ch rx s) = frameOf s := rfl
@[simp] theorem frameOf_badAnswer (ch : Fin 4) (s : State) : frameOf (badAnswer ch s) = frameOf s := rfl
@[simp] theorem frameOf_goodData (ch : Fin 4) (n : Byte) (d : List Byte) (s : State) : frameOf (goodData ch n d s) = frameOf s := rfl
@[simp] theorem frameOf_nakAnswer (ch : Fin 4) (t : Txn) (s : State) : frameOf (nakAnswer ch t s) = frameOf s := rfl

@[simp] theorem frameOf_setPin (f : BitVec 32) (n : Nat) (s : State) : frameOf (setPin f n s) = frameOf s := by
  unfold setPin
  split <;> simp

@[simp] theorem frameOf_offerError (k : ErrKind) (p w : Nat) (op : Operation) (s : State) :
    frameOf (offerError k p w op s) = frameOf s := by
  unfold offerError
  split <;> simp

@[simp] theorem frameOf_offerScrub (p : Nat) (s : State) : frameOf (offerScrub p s) = frameOf s := by
  unfold offerScrub
  split <;> (try split) <;> simp

@[simp] theorem frameOf_takePage (op : Operation) (a b : Nat) (ws : List WordRead) (s : State) :
    frameOf (takePage op a b ws s) = frameOf s := by
  unfold takePage
  repeat' first | (simp; done) | refine (frameOf_forEach _ _ (fun x s => ?_) _).trans ?_ | refine frameOf_ite _ _ _ _ ?_ ?_ | split

@[simp] theorem frameOf_reportProgramFail (op : Operation) (p w : Nat) (s : State) :
    frameOf (reportProgramFail op p w s) = frameOf s := by
  simp [reportProgramFail]

@[simp] theorem frameOf_reportEraseFail (p w : Nat) (s : State) : frameOf (reportEraseFail p w s) = frameOf s := by
  simp [reportEraseFail]

@[simp] theorem frameOf_setBlock (b : Nat) (x : BlockState) (s : State) : frameOf (setBlock b x s) = frameOf s := by
  unfold setBlock
  split <;> simp

@[simp] theorem frameOf_enqueueErases (who : Eraser) (bs : List Nat) (s : State) :
    frameOf (enqueueErases who bs s) = frameOf s := by
  unfold enqueueErases
  exact frameOf_forEach _ _ (fun x s => by simp) _

@[simp] theorem frameOf_handRetirement (r : JRec) (s : State) : frameOf (handRetirement r s) = frameOf s := by
  unfold handRetirement
  split <;> simp

@[simp] theorem frameOf_retirePage (p : Nat) (s : State) : frameOf (retirePage p s) = frameOf s := by
  simp [retirePage]

@[simp] theorem frameOf_retireBlock (b : Nat) (c : RetireCause) (s : State) :
    frameOf (retireBlock b c s) = frameOf s := by
  simp [retireBlock]

@[simp] theorem frameOf_retireForProgram (p : Nat) (s : State) : frameOf (retireForProgram p s) = frameOf s := by
  unfold retireForProgram
  repeat' first | (simp; done) | split

@[simp] theorem frameOf_retireBehind (k p : Nat) (s : State) : frameOf (retireBehind k p s) = frameOf s := by
  unfold retireBehind
  split <;> simp

@[simp] theorem frameOf_retireForErase (ps : List Nat) (s : State) : frameOf (retireForErase ps s) = frameOf s := by
  unfold retireForErase
  repeat' first | (simp; done) | refine (frameOf_forEach _ _ (fun x s => ?_) _).trans ?_ | refine frameOf_ite _ _ _ _ ?_ ?_ | split

@[simp] theorem frameOf_dropScrub (bs : List (Option Nat)) (s : State) : frameOf (dropScrub bs s) = frameOf s := by
  unfold dropScrub
  repeat' first | (simp; done) | split

@[simp] theorem frameOf_removeCapture (e : DirEntry) (s : State) : frameOf (removeCapture e s) = frameOf s := by
  unfold removeCapture
  dsimp only
  refine (frameOf_dropAhead _ _).trans ((frameOf_dropScrub _ _).trans ((frameOf_enqueueErases _ _ _).trans ?_))
  exact frameOf_forEach _ _ (fun b s => frameOf_setBlock _ _ _) _

@[simp] theorem frameOf_tellTaken (w : Sender) (m : Byte) (c : Nat) (s : State) :
    frameOf (tellTaken w m c s) = frameOf s := by
  unfold tellTaken
  split <;> simp

@[simp] theorem frameOf_tellRefused (w : Sender) (r : Refuse) (s : State) :
    frameOf (tellRefused w r s) = frameOf s := by
  unfold tellRefused
  split <;> simp

@[simp] theorem frameOf_refuseTrigger (src : Nat) (w : Sender) (r : Refuse) (s : State) :
    frameOf (refuseTrigger src w r s) = frameOf s := by
  simp [refuseTrigger]

@[simp] theorem frameOf_claimFor (c : Capture) (items : List WalkItem) (s : State) :
    frameOf (claimFor c items s) = frameOf s := by
  unfold claimFor
  repeat' first | (simp; done) | refine (frameOf_forEach _ _ (fun x s => ?_) _).trans ?_ | refine frameOf_ite _ _ _ _ ?_ ?_ | split

@[simp] theorem frameOf_unclaimOne (e : PlanEntry) (s : State) : frameOf (unclaimOne e s) = frameOf s := by
  unfold unclaimOne
  split <;> simp

@[simp] theorem frameOf_assertLines (cap : Nat) (l : BitVec 8) (s : State) :
    frameOf (assertLines cap l s) = frameOf s := by
  unfold assertLines
  repeat' first | (simp; done) | exact frameOf_ite _ _ _ _ (by simp) (by simp) | split

@[simp] theorem frameOf_releaseOne (cap : Nat) (e : PlanEntry) (s : State) :
    frameOf (releaseOne cap e s) = frameOf s := by
  unfold releaseOne
  repeat' first | (simp; done) | exact frameOf_ite _ _ _ _ (by simp) (by simp) | split

@[simp] theorem frameOf_releaseAll (cap : Nat) (s : State) : frameOf (releaseAll cap s) = frameOf s := by
  unfold releaseAll
  repeat' first | (simp; done) | refine (frameOf_forEach _ _ (fun x s => ?_) _).trans ?_ | refine frameOf_ite _ _ _ _ ?_ ?_ | split

@[simp] theorem frameOf_openCapture (n : Nat) (s : State) : frameOf (openCapture n s) = frameOf s := by
  unfold openCapture
  split <;> (try split) <;> simp

@[simp] theorem frameOf_beginOpening (src : Nat) (w : Sender) (s : State) :
    frameOf (beginOpening src w s) = frameOf s := by
  unfold beginOpening
  repeat' first | (simp; done) | refine frameOf_ite _ _ _ _ ?_ ?_ | split | dsimp only

@[simp] theorem frameOf_extendWalk (src : Nat) (s : State) : frameOf (extendWalk src s) = frameOf s := by
  unfold extendWalk
  repeat' first | (simp; done) | refine (frameOf_forEach _ _ (fun x s => ?_) _).trans ?_ | refine frameOf_ite _ _ _ _ ?_ ?_ | split

@[simp] theorem frameOf_joinCapture (src : Nat) (w : Sender) (s : State) :
    frameOf (joinCapture src w s) = frameOf s := by
  unfold joinCapture
  repeat' first | (simp; done) | refine frameOf_ite _ _ _ _ ?_ ?_ | split | dsimp only

@[simp] theorem frameOf_trigger (src : Nat) (w : Sender) (s : State) : frameOf (trigger src w s) = frameOf s := by
  unfold trigger
  repeat' first | (simp; done) | split

@[simp] theorem frameOf_applyExhaustion (s : State) : frameOf (applyExhaustion s) = frameOf s := by
  unfold applyExhaustion
  repeat' first | (simp; done) | refine (frameOf_forEach _ _ (fun x s => ?_) _).trans ?_ | refine frameOf_ite _ _ _ _ ?_ ?_ | split

@[simp] theorem frameOf_drawProgram (s : State) : frameOf (drawProgram s) = frameOf s := by
  unfold drawProgram
  split <;> simp

@[simp] theorem frameOf_resample (v : Nat) (s : State) : frameOf (resample v s) = frameOf s := by
  simp [resample]

@[simp] theorem frameOf_setStall (s : State) : frameOf (setStall s) = frameOf s := by
  simp [setStall]

@[simp] theorem frameOf_advanceRegion (ch : Fin 4) (s : State) : frameOf (advanceRegion ch s) = frameOf s := by
  unfold advanceRegion
  repeat' first | (simp; done) | split

@[simp] theorem frameOf_declareSilent (ch : Fin 4) (a b : Nat) (s : State) :
    frameOf (declareSilent ch a b s) = frameOf s := by
  unfold declareSilent
  split <;> simp

@[simp] theorem frameOf_failTransaction (ch : Fin 4) (t : Txn) (s : State) :
    frameOf (failTransaction ch t s) = frameOf s := by
  unfold failTransaction
  repeat' first | (simp; done) | exact frameOf_ite _ _ _ _ (by simp) (by simp) | split

@[simp] theorem frameOf_dropBufs (is : List (Fin 4)) (s : State) : frameOf (dropBufs is s) = frameOf s := by
  unfold dropBufs
  exact frameOf_forEach _ _ (fun x s => by simp) _

@[simp] theorem frameOf_withdrawFor (c : Capture) (s : State) : frameOf (withdrawFor c s) = frameOf s := by
  unfold withdrawFor
  split <;> simp

@[simp] theorem frameOf_endGathering (o : OutcomeCode) (e : Bool) (s : State) :
    frameOf (endGathering o e s) = frameOf s := by
  unfold endGathering
  split <;> (try split) <;> simp

@[simp] theorem frameOf_closeEarly (k : CloseCause) (o : OutcomeCode) (s : State) :
    frameOf (closeEarly k o s) = frameOf s := by
  unfold closeEarly
  repeat' first | (simp; done) | refine frameOf_ite _ _ _ _ ?_ ?_ | split | dsimp only

@[simp] theorem frameOf_cutSection (k : CloseCause) (o : OutcomeCode) (d : Buf → Bool) (s : State) :
    frameOf (cutSection k o d s) = frameOf s := by
  unfold cutSection
  repeat' first | (simp; done) | refine frameOf_ite _ _ _ _ ?_ ?_ | split | dsimp only

@[simp] theorem frameOf_reformClose (s : State) : frameOf (reformClose s) = frameOf s := by
  unfold reformClose
  split <;> simp

@[simp] theorem frameOf_closeForPower (s : State) : frameOf (closeForPower s) = frameOf s := by
  simp [closeForPower]

@[simp] theorem frameOf_flushForPower (c : Capture) (s : State) : frameOf (flushForPower c s) = frameOf s := by
  unfold flushForPower
  repeat' first | (simp; done) | refine frameOf_ite _ _ _ _ ?_ ?_ | split | dsimp only

@[simp] theorem frameOf_powerClose (s : State) : frameOf (powerClose s) = frameOf s := by
  unfold powerClose
  repeat' first | (simp; done) | refine frameOf_ite _ _ _ _ ?_ ?_ | split | dsimp only

@[simp] theorem frameOf_refuseSectionBegin (n : Nat) (s : State) : frameOf (refuseSectionBegin n s) = frameOf s := by
  unfold refuseSectionBegin
  repeat' first | (simp; done) | refine frameOf_ite _ _ _ _ ?_ ?_ | split | dsimp only

@[simp] theorem frameOf_refuseAllot (b : Nat) (s : State) : frameOf (refuseAllot b s) = frameOf s := by
  simp [refuseAllot]

@[simp] theorem frameOf_headSettled (h : Option Nat) (s : State) : frameOf (headSettled h s) = frameOf s := by
  unfold headSettled
  repeat' first | (simp; done) | refine frameOf_ite _ _ _ _ ?_ ?_ | split | dsimp only

@[simp] theorem frameOf_bufAccepted (i : Fin 4) (s : State) : frameOf (bufAccepted i s) = frameOf s := by
  unfold bufAccepted
  repeat' first | (simp; done) | exact frameOf_ite _ _ _ _ (by simp) (by simp) | split

@[simp] theorem frameOf_retryBuf (i : Fin 4) (c : Capture) (s : State) : frameOf (retryBuf i c s) = frameOf s := by
  unfold retryBuf
  dsimp only
  split <;> simp only [frameOf_cutSection, frameOf_enqueue, frameOf_onBuf, frameOf_onSection, frameOf_onCapture]
  all_goals exact frameOf_forEach _ _ (fun j s => frameOf_onBuf _ _ _) _

@[simp] theorem frameOf_faultBuf (i : Fin 4) (c : Capture) (s : State) : frameOf (faultBuf i c s) = frameOf s := by
  unfold faultBuf
  repeat' first | (simp; done) | exact frameOf_ite _ _ _ _ (by simp) (by simp) | split

@[simp] theorem frameOf_bufFailed (i : Fin 4) (s : State) : frameOf (bufFailed i s) = frameOf s := by
  unfold bufFailed
  split <;> (try split) <;> simp

@[simp] theorem frameOf_bufRefused (i : Fin 4) (s : State) : frameOf (bufRefused i s) = frameOf s := by
  unfold bufRefused
  split <;> simp

@[simp] theorem frameOf_rearmForClose (cap : Nat) (s : State) : frameOf (rearmForClose cap s) = frameOf s := by
  unfold rearmForClose
  repeat' first | (simp; done) | refine (frameOf_forEach _ _ (fun x s => ?_) _).trans ?_ | refine frameOf_ite _ _ _ _ ?_ ?_ | split

@[simp] theorem frameOf_holdoffForClose (t : TrigSet) (s : State) : frameOf (holdoffForClose t s) = frameOf s := by
  unfold holdoffForClose
  split <;> simp

@[simp] theorem frameOf_answerRestart (p : PortId) (f : Bool) (cap : Nat) (o : Byte) (s : State) :
    frameOf (answerRestart p f cap o s) = frameOf s := by
  unfold answerRestart
  split <;> simp

@[simp] theorem frameOf_answerClose (cap : Nat) (o : OutcomeCode) (s : State) :
    frameOf (answerClose cap o s) = frameOf s := by
  unfold answerClose
  repeat' first | (simp; done) | refine (frameOf_forEach _ _ (fun x s => ?_) _).trans ?_ | refine frameOf_ite _ _ _ _ ?_ ?_ | split

@[simp] theorem frameOf_answerUnopened (cap : Nat) (s : State) : frameOf (answerUnopened cap s) = frameOf s := by
  unfold answerUnopened
  repeat' first | (simp; done) | refine (frameOf_forEach _ _ (fun x s => ?_) _).trans ?_ | refine frameOf_ite _ _ _ _ ?_ ?_ | split

@[simp] theorem frameOf_refuseOpening (r : Refuse) (s : State) : frameOf (refuseOpening r s) = frameOf s := by
  unfold refuseOpening
  split <;> simp

@[simp] theorem frameOf_finishClose (s : State) : frameOf (finishClose s) = frameOf s := by
  unfold finishClose
  split <;> simp

@[simp] theorem frameOf_fireTerm (n : Fin 8) (s : State) : frameOf (fireTerm n s) = frameOf s := by
  simp [fireTerm]

@[simp] theorem frameOf_evaluate (n : Fin 8) (s : State) : frameOf (evaluate n s) = frameOf s := by
  unfold evaluate
  repeat' first | (simp; done) | refine (frameOf_forEach _ _ (fun x s => ?_) _).trans ?_ | refine frameOf_ite _ _ _ _ ?_ ?_ | split

@[simp] theorem frameOf_evaluateLines (l : BitVec 16) (s : State) : frameOf (evaluateLines l s) = frameOf s := by
  unfold evaluateLines
  repeat' first | (simp; done) | refine (frameOf_forEach _ _ (fun x s => ?_) _).trans ?_ | refine frameOf_ite _ _ _ _ ?_ ?_ | split

@[simp] theorem frameOf_rearm (n : Fin 8) (s : State) : frameOf (rearm n s) = frameOf s := by
  simp [rearm]

@[simp] theorem frameOf_filteredChange (l : Fin 16) (b : Bool) (s : State) :
    frameOf (filteredChange l b s) = frameOf s := by
  simp [filteredChange]

@[simp] theorem frameOf_takeCandidate (l : Fin 16) (s : State) : frameOf (takeCandidate l s) = frameOf s := by
  unfold takeCandidate
  split <;> simp

@[simp] theorem frameOf_endQuiet (ch : Fin 4) (s : State) : frameOf (endQuiet ch s) = frameOf s := by
  unfold endQuiet
  split <;> (try split) <;> simp

@[simp] theorem frameOf_dropRecord (ch : Fin 4) (c : Claim) (r : StreamRec) (s : State) :
    frameOf (dropRecord ch c r s) = frameOf s := by
  unfold dropRecord
  repeat' first | (simp; done) | exact frameOf_ite _ _ _ _ (by simp) (by simp) | split

@[simp] theorem frameOf_offerRecord (ch : Fin 4) (r : StreamRec) (s : State) :
    frameOf (offerRecord ch r s) = frameOf s := by
  unfold offerRecord
  repeat' first | (simp; done) | refine (frameOf_forEach _ _ (fun x s => ?_) _).trans ?_ | refine frameOf_ite _ _ _ _ ?_ ?_ | split

@[simp] theorem frameOf_completeRecord (ch : Fin 4) (b : Bool) (x : RxState) (s : State) :
    frameOf (completeRecord ch b x s) = frameOf s := by
  unfold completeRecord
  repeat' first | with_reducible rfl | (simp; done) | (with_reducible refine frameOf_ite _ _ _ _ ?_ ?_) | split | dsimp only | simp

@[simp] theorem frameOf_endStore (st : Status) (f : List Byte) (s : State) : frameOf (endStore st f s) = frameOf s := by
  unfold endStore
  split <;> simp

@[simp] theorem frameOf_storeFailed (s : State) : frameOf (storeFailed s) = frameOf s := by
  unfold storeFailed
  repeat' first | (simp; done) | split

@[simp] theorem frameOf_storePageAccepted (s : State) : frameOf (storePageAccepted s) = frameOf s := by
  unfold storePageAccepted
  repeat' first | (simp; done) | split

@[simp] theorem frameOf_storeErased (s : State) : frameOf (storeErased s) = frameOf s := by
  unfold storeErased
  split <;> simp

@[simp] theorem frameOf_commitAccepted (p : PortId) (s : State) : frameOf (commitAccepted p s) = frameOf s := by
  unfold commitAccepted
  split <;> simp

/-- The record of a removal leaves the frame when what is told of it does. -/
theorem frameOf_deleteAccepted (cap : Nat) (k : Nat → State → State) (h : ∀ n s, frameOf (k n s) = frameOf s) (s : State) :
    frameOf (deleteAccepted cap k s) = frameOf s := by
  unfold deleteAccepted
  split
  · exact (h _ _).trans (frameOf_removeCapture _ _)
  · rfl

@[simp] theorem frameOf_portRecordAccepted (p : PortId) (r : JRec) (s : State) :
    frameOf (portRecordAccepted p r s) = frameOf s := by
  unfold portRecordAccepted
  split <;> first
    | exact (frameOf_answer _ _ _ _ _).trans (frameOf_deleteAccepted _ _ (fun _ s => frameOf_post _ _ _ s) s)
    | simp

@[simp] theorem frameOf_forgetNumbers (s : State) : frameOf (forgetNumbers s) = frameOf s := by
  exact (frameOf_forgetPads _).trans rfl

@[simp] theorem frameOf_checkpointAccepted (g : BitVec 32) (n : Nat) (s : State) :
    frameOf (checkpointAccepted g n s) = frameOf s := by
  unfold checkpointAccepted
  repeat' first | (simp; done) | exact frameOf_ite _ _ _ _ (by simp) (by simp) | split

@[simp] theorem frameOf_relocateAccepted (m : MapEntry) (s : State) : frameOf (relocateAccepted m s) = frameOf s := by
  simp [relocateAccepted]

@[simp] theorem frameOf_recordAccepted (x : Slotted) (s : State) : frameOf (recordAccepted x s) = frameOf s := by
  unfold recordAccepted
  split <;> first
    | (simp; done)
    | exact frameOf_deleteAccepted _ _ (fun n s => by simp) _
    | exact (frameOf_deleteAccepted _ _ (fun n s => by simp) _).trans (by simp)

@[simp] theorem frameOf_recordRefused (x : Slotted) (s : State) : frameOf (recordRefused x s) = frameOf s := by
  unfold recordRefused
  split <;> simp

@[simp] theorem frameOf_journalAccepted (s : State) : frameOf (journalAccepted s) = frameOf s := by
  unfold journalAccepted
  exact frameOf_forEach _ _ (fun x s => by simp) _

@[simp] theorem frameOf_programAccepted (w : Programmer) (p : Nat) (s : State) :
    frameOf (programAccepted w p s) = frameOf s := by
  unfold programAccepted
  split <;> (try split) <;> simp

@[simp] theorem frameOf_programFailed (w : Programmer) (p : Nat) (s : State) :
    frameOf (programFailed w p s) = frameOf s := by
  unfold programFailed
  split <;> (try split) <;> simp

@[simp] theorem frameOf_verifyFailed (w : Programmer) (p n : Nat) (s : State) :
    frameOf (verifyFailed w p n s) = frameOf s := by
  unfold verifyFailed
  dsimp only
  split
  · refine (frameOf_reportProgramFail _ _ _ _).trans ?_
    split <;> simp
  all_goals simp

@[simp] theorem frameOf_eraseHanded (w : Eraser) (d : Bool) (s : State) : frameOf (eraseHanded w d s) = frameOf s := by
  unfold eraseHanded
  split <;> (try split) <;> simp

@[simp] theorem frameOf_eraseEnded (w : Eraser) (b : Nat) (ps : List Nat) (s : State) :
    frameOf (eraseEnded w b ps s) = frameOf s := by
  unfold eraseEnded
  split <;> (try split) <;> simp

@[simp] theorem frameOf_abortNow (s : State) : frameOf (abortNow s) = frameOf s := by
  unfold abortNow
  split <;> simp

@[simp] theorem frameOf_clearStall (s : State) : frameOf (clearStall s) = frameOf s := by
  unfold clearStall
  dsimp only
  repeat' first | (simp; done) | split

@[simp] theorem frameOf_enterHoldup (v : Nat) (s : State) : frameOf (enterHoldup v s) = frameOf s := by
  simp [enterHoldup]

@[simp] theorem frameOf_holdStore (s : State) : frameOf (holdStore s) = frameOf s := by
  unfold holdStore
  split <;> simp

@[simp] theorem frameOf_cancelRestart (s : State) : frameOf (cancelRestart s) = frameOf s := by
  unfold cancelRestart
  repeat' first | (simp; done) | refine (frameOf_forEach _ _ (fun x s => ?_) _).trans ?_ | refine frameOf_ite _ _ _ _ ?_ ?_ | split

@[simp] theorem frameOf_beginEpisode (v : Nat) (s : State) : frameOf (beginEpisode v s) = frameOf s := by
  simp [beginEpisode]

@[simp] theorem frameOf_takeRead (r : PageRead) (s : State) : frameOf (takeRead r s) = frameOf s := by
  unfold takeRead
  split <;> simp

@[simp] theorem frameOf_deliverHead (p : PortId) (e : DirEntry) (s : State) :
    frameOf (deliverHead p e s) = frameOf s := by
  unfold deliverHead
  split <;> simp

@[simp] theorem frameOf_loadPad (p : PortId) (b : List Byte) (e : DirEntry) (s : State) :
    frameOf (loadPad p b e s) = frameOf s := by
  unfold loadPad
  split <;> simp

@[simp] theorem frameOf_queueCommit (p : PortId) (n : Nat) (e : DirEntry) (s : State) :
    frameOf (queueCommit p n e s) = frameOf s := by
  unfold queueCommit
  split <;> simp

@[simp] theorem frameOf_readAhead (p : PortId) (e : DirEntry) (x : SecEntry) (k : Nat) (s : State) :
    frameOf (readAhead p e x k s) = frameOf s := by
  unfold readAhead
  split <;> simp

@[simp] theorem frameOf_serveSection (p : PortId) (e : DirEntry) (x : SecEntry) (off asked : Nat) (s : State) :
    frameOf (serveSection p e x off asked s) = frameOf s := by
  unfold serveSection
  dsimp only
  split <;> simp

@[simp] theorem frameOf_readSection (p : PortId) (b : List Byte) (s : State) : frameOf (readSection p b s) = frameOf s := by
  unfold readSection readSectionOf
  repeat' first | (simp; done) | split | dsimp only

@[simp] theorem frameOf_readGone (p : PortId) (k : Byte) (c : Nat) (s : State) :
    frameOf (readGone p k c s) = frameOf s := by
  unfold readGone
  split <;> simp

@[simp] theorem frameOf_resumeRead (p : PortId) (s : State) : frameOf (resumeRead p s) = frameOf s := by
  unfold resumeRead
  repeat' first | (simp; done) | refine frameOf_ite _ _ _ _ ?_ ?_ | split | dsimp only

@[simp] theorem frameOf_resumeReads (s : State) : frameOf (resumeReads s) = frameOf s := by
  unfold resumeReads
  exact frameOf_forEach _ _ (fun x s => by simp) _

@[simp] theorem frameOf_judgeAnswer (ch : Fin 4) (t r n : Byte) (d : List Byte) (s : State) :
    frameOf (judgeAnswer ch t r n d s) = frameOf s := by
  unfold judgeAnswer
  repeat' first | (simp; done) | split

@[simp] theorem frameOf_answerWhole (ch : Fin 4) (t r n : Byte) (d : List Byte) (s : State) :
    frameOf (answerWhole ch t r n d s) = frameOf s := by
  unfold answerWhole
  repeat' first | (simp; done) | refine frameOf_ite _ _ _ _ ?_ ?_ | split | dsimp only

@[simp] theorem frameOf_answerRx (ch : Fin 4) (g : List Byte) (s : State) : frameOf (answerRx ch g s) = frameOf s := by
  unfold answerRx
  repeat' first | (simp; done) | split

@[simp] theorem frameOf_answerByte (ch : Fin 4) (b : Byte) (s : State) : frameOf (answerByte ch b s) = frameOf s := by
  unfold answerByte
  repeat' first | (simp; done) | split

@[simp] theorem frameOf_fetchAnswered (w : AnswerWire) (t r n : Byte) (d : List Byte) (c : BitVec 16) (s : State) :
    frameOf (fetchAnswered w t r n d c s) = frameOf s := by
  unfold fetchAnswered
  repeat' first | (simp; done) | refine (frameOf_forEach _ _ (fun x s => ?_) _).trans ?_ | refine frameOf_ite _ _ _ _ ?_ ?_ | split

@[simp] theorem frameOf_deny (p : PortId) (k : Byte) (l : Level) (s : State) : frameOf (deny p k l s) = frameOf s := by
  simp [deny]

end Sys2Proof.Machine
end

