-- ==== Sys2Proof/Laws/Ops.lean ====
section
/-! SUPPORT. Sys2Proof/Laws/Ops.lean: what the shared operations do: vectors by index, a command of a part with power, a request
at its port, one block's updates beside a port's, and the blocks' immediate steps. -/

namespace Sys2Proof.Machine

/-! ## Vectors by index -/

@[simp] theorem vmod_get_same {α : Type} {n : Nat} (v : Vector α n) (i : Fin n) (f : α → α) : (vmod v i f)[i] = f v[i] := by
  simp [vmod, vset]

@[simp] theorem vmod_get_other {α : Type} {n : Nat} (v : Vector α n) (i j : Fin n) (f : α → α) (h : j ≠ i) :
    (vmod v i f)[j] = v[j] := by
  have : i.val ≠ j.val := fun e => h (Fin.ext e.symm)
  simp [vmod, vset, this]

/-- Two updates at one index are one. -/
theorem vmod_vmod {α : Type} {n : Nat} (v : Vector α n) (i : Fin n) (f g : α → α) :
    vmod (vmod v i f) i g = vmod v i fun a => g (f a) := by
  apply Vector.ext
  intro j hj
  simp [vmod, vset, Vector.getElem_set]

/-- Updates that agree on what stands at the index are the same. -/
theorem vmod_congr {α : Type} {n : Nat} (v : Vector α n) (i : Fin n) (f g : α → α) (h : f v[i] = g v[i]) :
    vmod v i f = vmod v i g := by
  simp only [vmod, vset, h]

theorem vmap_vmod {α : Type} {n : Nat} (v : Vector α n) (i : Fin n) (f g : α → α) (h : ∀ a, f (g a) = g (f a)) :
    vmap f (vmod v i g) = vmod (vmap f v) i g := by
  apply Vector.ext
  intro j hj
  simp only [vmap, vmod, vset, Vector.getElem_ofFn, Fin.getElem_fin, Vector.getElem_set]
  split <;> simp_all

@[simp] theorem vmap_get {α β : Type} {n : Nat} (v : Vector α n) (f : α → β) (i : Fin n) : (vmap f v)[i] = f v[i] := by
  simp [vmap]

/-! ## Ports and channels -/

@[simp] theorem port_onPort_same (p : PortId) (f : Port → Port) (s : State) : (s.onPort p f).port p = f (s.port p) := by
  simp only [State.port, State.onPort, State.onLink]
  exact vmod_get_same _ _ _

theorem portIndex_ne {p q : PortId} (h : q ≠ p) : portIndex q ≠ portIndex p := by
  cases p <;> cases q <;> simp_all [portIndex]

@[simp] theorem port_onPort_other (p q : PortId) (f : Port → Port) (s : State) (h : q ≠ p) :
    (s.onPort p f).port q = s.port q := by
  simp only [State.port, State.onPort, State.onLink]
  exact vmod_get_other _ _ _ _ (portIndex_ne h)

theorem onPort_onPort (p : PortId) (f g : Port → Port) (s : State) :
    (s.onPort p f).onPort p g = s.onPort p fun q => g (f q) := by
  simp only [State.onPort, State.onLink, vmod_vmod]

theorem onPort_congr (p : PortId) (f g : Port → Port) (s : State) (h : f (s.port p) = g (s.port p)) :
    s.onPort p f = s.onPort p g := by
  simp only [State.onPort, State.onLink]
  rw [vmod_congr _ _ _ _ h]

theorem onStream_congr (i : Fin 4) (f g : StreamChan → StreamChan) (s : State) (h : f s.streams[i] = g s.streams[i]) :
    s.onStream i f = s.onStream i g := by
  simp only [State.onStream]
  rw [vmod_congr _ _ _ _ h]

theorem onStream_onStream (i : Fin 4) (f g : StreamChan → StreamChan) (s : State) :
    (s.onStream i f).onStream i g = s.onStream i fun c => g (f c) := by
  simp only [State.onStream, vmod_vmod]

theorem onFetch_congr (i : Fin 4) (f g : FetchChan → FetchChan) (s : State) (h : f s.fetches[i] = g s.fetches[i]) :
    s.onFetch i f = s.onFetch i g := by
  simp only [State.onFetch]
  rw [vmod_congr _ _ _ _ h]

theorem onFetch_onFetch (i : Fin 4) (f g : FetchChan → FetchChan) (s : State) :
    (s.onFetch i f).onFetch i g = s.onFetch i fun c => g (f c) := by
  simp only [State.onFetch, vmod_vmod]

theorem onTerm_onTerm (n : Fin 8) (f g : Term → Term) (s : State) :
    onTerm n g (onTerm n f s) = onTerm n (fun t => g (f t)) s := by
  simp only [onTerm, State.onTrig, vmod_vmod]

@[simp] theorem streams_onStream_same (i : Fin 4) (f : StreamChan → StreamChan) (s : State) :
    (s.onStream i f).streams[i] = f s.streams[i] := vmod_get_same _ _ _

@[simp] theorem fetches_onFetch_same (i : Fin 4) (f : FetchChan → FetchChan) (s : State) :
    (s.onFetch i f).fetches[i] = f s.fetches[i] := vmod_get_same _ _ _

@[simp] theorem terms_onTerm_same (n : Fin 8) (f : Term → Term) (s : State) :
    (onTerm n f s).trig.terms[n] = f s.trig.terms[n] := vmod_get_same _ _ _

/-! ## A command of a part with power -/

/-- With power, an effect on the blocks alone is the command's next state. -/
theorem whenPowered_of_frame (f : State → State) (s : State) (hp : s.powered = true) (h : frameOf (f s) = frameOf s) :
    whenPowered f s = f s := by
  simp only [whenPowered, hp, if_true]
  exact keeping_of_frame f s h

theorem whenPowered_unpowered (f : State → State) (s : State) (hp : s.powered = false) : whenPowered f s = s := by
  simp [whenPowered, hp]

theorem whenPoweredBut_unpowered (take : State → State → State) (f : State → State) (s : State) (hp : s.powered = false) :
    whenPoweredBut take f s = s := by
  simp [whenPoweredBut, hp]

/-! ## A request at its port (R168, R169) -/

/-- A request that its port can serve reaches its owning block. -/
theorem takeRequest_servable (p : PortId) (kind tag : Byte) (body : State → State) (s : State)
    (h : servable p kind s = true) : takeRequest p kind tag body s = body (accept p kind tag s) := by
  simp only [servable, Bool.and_eq_true, Bool.or_eq_true] at h
  obtain ⟨⟨⟨-, h2⟩, h3⟩, h4⟩ := h
  have hs : (s.port p).service = none := by simpa using h2
  have ha : (admission kind).isNone = false := by
    simp only [admits] at h3
    cases hk : admission kind <;> simp_all
  have hr : (!s.ready && !answeredEarly kind) = false := by
    rcases h4 with h4 | h4 <;> simp [h4]
  simp only [takeRequest, hs, ha, h3, hr, Bool.not_true, Bool.false_eq_true, if_false]

theorem servable_powered (p : PortId) (kind : Byte) (s : State) (h : servable p kind s = true) : s.powered = true := by
  simp only [servable, Bool.and_eq_true] at h
  exact h.1.1.1

theorem servable_idle (p : PortId) (kind : Byte) (s : State) (h : servable p kind s = true) : (s.port p).service = none := by
  simp only [servable, Bool.and_eq_true] at h
  simpa using h.1.1.2

/-- The next state of a request that its port can serve and whose effect is on the blocks alone. -/
theorem request_servable (p : PortId) (kind tag : Byte) (body : State → State) (s : State) (h : servable p kind s = true)
    (hf : frameOf (body (accept p kind tag s)) = frameOf s) :
    request p kind tag body s = .next (body (accept p kind tag s)) := by
  have ht := takeRequest_servable p kind tag body s h
  simp only [request]
  rw [whenPowered_of_frame _ _ (servable_powered p kind s h) (by rw [ht]; exact hf), ht]

theorem accept_eq_inService (p : PortId) (kind tag : Byte) (s : State) :
    accept p kind tag s = inService p kind tag .none s := rfl

/-- Taken and answered. -/
theorem answer_accept (p : PortId) (kind tag : Byte) (st : Status) (clamped : Bool) (fields : List Byte) (s : State) :
    answer p st clamped fields (accept p kind tag s) = replied p kind tag st clamped fields s := by
  simp only [answer, accept, replied, onPort_onPort]

theorem refuse_accept (p : PortId) (kind tag : Byte) (st : Status) (s : State) :
    refuse p st (accept p kind tag s) = replied p kind tag st false [] s := answer_accept p kind tag st false [] s

/-- Taken and waiting. -/
theorem setWait_accept (p : PortId) (kind tag : Byte) (w : Wait) (s : State) :
    setWait p w (accept p kind tag s) = inService p kind tag w s := by
  simp only [setWait, accept, inService, onPort_onPort, Option.map_some]

@[simp] theorem frameOf_replied (p : PortId) (k t : Byte) (st : Status) (b : Bool) (f : List Byte) (s : State) :
    frameOf (replied p k t st b f s) = frameOf s := rfl

@[simp] theorem frameOf_inService (p : PortId) (k t : Byte) (w : Wait) (s : State) : frameOf (inService p k t w s) = frameOf s := rfl

/-! ## The blocks' immediate steps -/

/-- A part at rest stays as it is. -/
theorem settle_of_quiet (s : State) (h : quiet s = true) : settle s = s := by
  have hw : firstStep blockSteps s = .wait := by
    unfold quiet at h
    split at h <;> simp_all
  show keeping (pump (4095 + 1)) s = s
  have : pump (4095 + 1) s = s := by simp only [pump, hw]
  simp only [keeping, this]

/-! ## The store's canonical form -/

theorem flash_of_frame {a b : State} (h : frameOf a = frameOf b) : a.flash = b.flash := by
  simp only [frameOf, Prod.mk.injEq] at h
  exact h.2.2.2.2.2.2.2.2.2

theorem reset_memory_wf : Memory.wf State.reset.flash = true := by decide

@[simp] theorem frameOf_retireInFormat (p : Nat) (s : State) : frameOf (retireInFormat p s) = frameOf s := by
  unfold retireInFormat
  split <;> rfl

/-- The format's erases keep the canonical form. -/
theorem eraseInFormat_wf (b : Nat) (faults : List BlockFault) (s : State) (h : Memory.wf s.flash = true) :
    Memory.wf (eraseInFormat b faults s).flash = true := by
  have he := eraseBlock_wf b faults s.flash h
  unfold eraseInFormat
  dsimp only
  split
  · exact he
  · rw [flash_of_frame ((frameOf_forEach _ retireInFormat (fun p s => frameOf_retireInFormat p s) _).trans
      (frameOf_reportEraseFail _ _ _))]
    exact he

/-- The format's checkpoint keeps the canonical form. -/
theorem formatPages_wf (pages : List Nat) (faults : List (List WordFault)) (s : State) (h : Memory.wf s.flash = true) :
    Memory.wf (formatPages pages faults s).flash = true := by
  induction pages generalizing faults s with
  | nil => exact h
  | cons page pages ih =>
    unfold formatPages
    split
    · exact ih _ _ h
    · have hp := programPage_wf page formatContent (faults.headD []) s.flash h
      dsimp only
      split
      · exact hp
      · apply ih
        rw [flash_of_frame ((frameOf_reportProgramFail _ _ _ _).trans (frameOf_retireInFormat _ _))]
        exact hp

end Sys2Proof.Machine
end

