-- ==== Sys2Proof/Laws/Directory.lean ====
section
/-! SUPPORT. Sys2Proof/Laws/Directory.lean: what the directory's and the journal's shared operations do: captures in number order, a
record handed over and the compaction that it starts, records packed over slots given back, the pages of an image without its
skipped tail, the reads that wait for an operation in flight, and block lists with the records that carry them. -/

namespace Sys2Proof.Machine

/-! ## Captures in number order (R150) -/

/-- A capture inserted is a member. -/
theorem mem_insertByCap (e : DirEntry) (xs : List DirEntry) (y : DirEntry) : y ∈ insertByCap e xs ↔ y = e ∨ y ∈ xs := by
  induction xs with
  | nil => simp [insertByCap]
  | cons x xs ih => unfold insertByCap; split <;> simp_all; tauto

/-- An insertion keeps the number order. -/
theorem pairwise_insertByCap (e : DirEntry) (xs : List DirEntry) (h : xs.Pairwise fun a b => a.cap ≤ b.cap) :
    (insertByCap e xs).Pairwise fun a b => a.cap ≤ b.cap := by
  induction xs with
  | nil => simp [insertByCap]
  | cons x xs ih =>
    unfold insertByCap
    rw [List.pairwise_cons] at h
    split
    · rename_i hx
      rw [List.pairwise_cons, List.pairwise_cons]
      refine ⟨fun y hy => ?_, h⟩
      rcases List.mem_cons.mp hy with rfl | hy
      · exact hx
      · exact Nat.le_trans hx (h.1 y hy)
    · rename_i hx
      rw [List.pairwise_cons]
      refine ⟨fun y hy => ?_, ih h.2⟩
      rcases (mem_insertByCap e xs y).mp hy with rfl | hy
      · omega
      · exact h.1 y hy

/-- The captures in number order are those of the directory. -/
theorem mem_entriesByCap (d : Directory) (y : DirEntry) : y ∈ entriesByCap d ↔ y ∈ entriesOf d := by
  unfold entriesByCap
  induction entriesOf d with
  | nil => simp
  | cons x xs ih => simp [mem_insertByCap, ih]

/-- The captures stand in number order. -/
theorem pairwise_entriesByCap (d : Directory) : (entriesByCap d).Pairwise fun a b => a.cap ≤ b.cap := by
  unfold entriesByCap
  induction entriesOf d with
  | nil => simp
  | cons x xs ih => exact pairwise_insertByCap _ _ ih

/-- The first capture found has the lowest number. -/
theorem find?_lowest (xs : List DirEntry) (p : DirEntry → Bool) (h : xs.Pairwise fun a b => a.cap ≤ b.cap) (d : DirEntry)
    (hd : d ∈ xs) (hp : p d = true) (hmin : ∀ y ∈ xs, p y = true → d.cap ≤ y.cap) : ∃ y, xs.find? p = some y ∧ y.cap = d.cap := by
  induction xs with
  | nil => cases hd
  | cons x xs ih =>
    rw [List.pairwise_cons] at h
    by_cases hx : p x = true
    · refine ⟨x, by simp [hx], ?_⟩
      have h1 := hmin x List.mem_cons_self hx
      rcases List.mem_cons.mp hd with rfl | hd'
      · rfl
      · have := h.1 d hd'; omega
    · have hd' : d ∈ xs := by
        rcases List.mem_cons.mp hd with rfl | hd'
        · exact absurd hp hx
        · exact hd'
      obtain ⟨y, hy, hc⟩ := ih h.2 hd' (fun y hy hpy => hmin y (List.mem_cons_of_mem _ hy) hpy)
      exact ⟨y, by simp [hx, hy], hc⟩

/-! ## Journal records (R139) -/

/-- Records packed over places, in order. -/
theorem repack_eq (all : List (Nat × BitVec 32)) (keep : List Slotted) (h : keep.length ≤ all.length) :
    repack all keep = keep.mapIdx fun i x =>
      { x with slot := (all.getD i (0, 0)).1, seq := (all.getD i (0, 0)).2, flying := false } := by
  apply List.ext_getElem
  · simp [repack]; omega
  · intro i h1 h2
    have hi : i < all.length := by simp [repack] at h1; omega
    simp [repack, List.getD, hi]

/-- A compaction starts exactly where it is due (R140): the directory is CLEARING then, and unchanged otherwise. -/
theorem startCompaction_eq (s : State) :
    startCompaction s =
      if compactionDue s then { s with dir := { s.dir with comp := { Compaction.initial with state := .clearing } } } else s := by
  unfold startCompaction State.onDir
  split <;> rfl

/-- A compaction that is in progress is not started again. -/
theorem startCompaction_busy (s : State) (h : s.dir.comp.state ≠ .none) : startCompaction s = s := by
  rw [startCompaction_eq, if_neg]
  simp [compactionDue, h]

/-- In a compaction a record handed goes to the pending list, and nothing else changes (R140 step 1). -/
theorem hand_busy (r : JRec) (who : Who) (s : State) (h : s.dir.comp.state ≠ .none) :
    hand r who s = { s with dir := { s.dir with pending := s.dir.pending ++ [(r, who)] } } := by
  have e : takeRecord r who s.dir = { s.dir with pending := s.dir.pending ++ [(r, who)] } := by
    unfold takeRecord
    cases hc : s.dir.comp.state <;> first | exact absurd hc h | rfl
  unfold hand State.onDir
  rw [e]
  exact startCompaction_busy _ h

/-- Outside a compaction a record handed receives the next slot, and a compaction that is due then starts (R139, R140). -/
theorem hand_slot (r : JRec) (who : Who) (s : State) (h : s.dir.comp.state = .none) :
    hand r who s = startCompaction { s with dir := giveSlot r who s.dir } := by
  unfold hand State.onDir takeRecord
  simp only [h]

/-- A record handed to the journal leaves the directory's tables as they are: it changes the slotted records or the pending list,
the next slot and sequence number, and the compaction. -/
theorem hand_tables (r : JRec) (who : Who) (s : State) :
    hand r who s = { s with dir := { s.dir with
      slotted := (hand r who s).dir.slotted, pending := (hand r who s).dir.pending
      nextSlot := (hand r who s).dir.nextSlot, nextSeq := (hand r who s).dir.nextSeq, comp := (hand r who s).dir.comp } } := by
  by_cases h : s.dir.comp.state = .none
  · rw [hand_slot r who s h, startCompaction_eq]
    split <;> rfl
  · rw [hand_busy r who s h]

/-! ## The pages of an image (R152) -/

/-- The last `t` of a list. -/
def lastOf (t : Nat) (L : List Nat) : List Nat := L.drop (L.length - t)

/-- The pages of a further block, above all others, stand behind theirs. -/
theorem filter_blocks_cons (L : List Nat) (hL : L.Pairwise (· < ·)) (p : Nat) (ps : List Nat) (hps : ∀ q ∈ ps, q < p) :
    (L.filter fun n => decide (n / 128 ∈ p :: ps)) =
      (L.filter fun n => decide (n / 128 ∈ ps)) ++ L.filter fun n => decide (n / 128 = p) := by
  induction L with
  | nil => rfl
  | cons a L ih =>
    rw [List.pairwise_cons] at hL
    have ih := ih hL.2
    by_cases hp : a / 128 = p
    · -- nothing later lies in an earlier block
      have hno : ∀ n ∈ a :: L, ¬ n / 128 ∈ ps := by
        intro n hn hin
        have h1 := hps _ hin
        rcases List.mem_cons.mp hn with rfl | hn
        · omega
        · have := hL.1 n hn
          have : a / 128 ≤ n / 128 := Nat.div_le_div_right (Nat.le_of_lt this)
          omega
      have e1 : ((a :: L).filter fun n => decide (n / 128 ∈ ps)) = [] := by
        rw [List.filter_eq_nil_iff]; intro n hn; simpa using hno n hn
      rw [e1, List.nil_append]
      apply List.filter_congr
      intro n hn
      have := hno n hn
      simp [this]
    · by_cases hin : a / 128 ∈ ps
      · simp only [List.filter_cons, List.mem_cons, hp, hin, false_or, decide_true, if_true, decide_false, Bool.false_eq_true,
          if_false, List.cons_append]
        congr 1
        simpa using ih
      · simp only [List.filter_cons, List.mem_cons, hp, hin, or_self, decide_false, Bool.false_eq_true, if_false]
        simpa using ih

/-- The tails dropped block by block from the last are the last pages of all the blocks together (log 42). -/
theorem dropTail_foldl (ps : List Nat) : ∀ (t : Nat) (L : List Nat), L.Pairwise (· < ·) → ps.Pairwise (· > ·) →
    (ps.foldl (fun st i => dropTail i st) (t, L)).2 =
      L.filter fun n => !(lastOf t (L.filter fun n => decide (n / 128 ∈ ps))).contains n := by
  induction ps with
  | nil => intro t L _ _; simp [lastOf]
  | cons p ps ih =>
    intro t L hL hps
    rw [List.pairwise_cons] at hps
    obtain ⟨hlt, hps⟩ := hps
    simp only [List.foldl_cons]
    set B := L.filter fun n => decide (n / 128 = p) with hB
    set A := L.filter fun n => decide (n / 128 ∈ ps) with hA
    have hsplit : (L.filter fun n => decide (n / 128 ∈ p :: ps)) = A ++ B := filter_blocks_cons L hL p ps fun q hq => hlt q hq
    have hstep : dropTail p (t, L) = (t - min t B.length, L.filter fun n => !(B.drop (B.length - min t B.length)).contains n) := rfl
    rw [hstep, ih _ _ (hL.filter _) hps, hsplit]
    set G := B.drop (B.length - min t B.length) with hG
    have hGB : ∀ n ∈ G, n / 128 = p := by
      intro n hn
      have : n ∈ B := List.mem_of_mem_drop hn
      rw [hB] at this
      simpa using (List.mem_filter.mp this).2
    have hA' : ((L.filter fun n => !G.contains n).filter fun n => decide (n / 128 ∈ ps)) = A := by
      rw [List.filter_filter, hA]
      apply List.filter_congr
      intro n _
      by_cases hn : n / 128 ∈ ps
      · have : n ∉ G := fun h => by
          have := hGB n h
          have := hlt _ hn
          omega
        simp [hn, this]
      · simp [hn]
    rw [hA', List.filter_filter]
    apply List.filter_congr
    intro n _
    have hl : lastOf t (A ++ B) = lastOf (t - min t B.length) A ++ G := by
      unfold lastOf
      rw [List.drop_append, List.length_append, hG]
      by_cases h : t ≤ B.length
      · have e : min t B.length = t := by omega
        rw [e, Nat.sub_self]
        have e2 : A.length + B.length - t - A.length = B.length - t := by omega
        rw [e2, List.drop_eq_nil_of_le (show A.length ≤ A.length + B.length - t by omega),
          List.drop_eq_nil_of_le (show A.length ≤ A.length - 0 by omega)]
      · have e : min t B.length = B.length := by omega
        rw [e]
        have e2 : A.length + B.length - t - A.length = 0 := by omega
        have e3 : A.length + B.length - t = A.length - (t - B.length) := by omega
        rw [e2, e3, Nat.sub_self]
    rw [hl]
    simp [Bool.and_comm]

/-- The RETIRED blocks of a block list, from the last. -/
theorem retiredPositions_desc (s : State) (e : DirEntry) : (retiredPositions s e).Pairwise (· > ·) := by
  unfold retiredPositions
  rw [List.pairwise_reverse]
  exact (List.pairwise_lt_range).filter _

/-- A block is RETIRED. -/
theorem blockRetired_iff (s : State) (b : Nat) :
    blockRetired s b = true ↔ ∃ i : Fin 60, b = 4 + i.val ∧ s.store.blocks[i] = .retired := by
  unfold blockRetired blockState areaBlock areaIndex
  simp only [decide_eq_true_eq]
  constructor
  · intro h
    split at h
    · rename_i ha
      simp only [firstAreaBlock, Bool.and_eq_true, decide_eq_true_eq] at ha h
      have hlt : b - 4 < 60 := by omega
      refine ⟨⟨b - 4, hlt⟩, by simp; omega, ?_⟩
      simpa [hlt] using h
    · cases h
  · rintro ⟨i, rfl, h⟩
    have hi := i.isLt
    rw [if_pos (by simp; omega)]
    have : 4 + i.val - firstAreaBlock = i.val := by simp [firstAreaBlock]
    rw [this]
    rw [show s.store.blocks.toList[i.val]? = some s.store.blocks[i] by simp]
    rw [h]


/-! ## Pages with an operation in flight (R129) -/

/-- A page is busy exactly under its own program and under the erase of its block. -/
theorem pageBusy_iff (s : State) (page : Nat) :
    pageBusy s page = true ↔ (∃ who content, s.store.flight = some (.program who page content)) ∨
      ∃ who, s.store.flight = some (.erase who (page / 128)) := by
  unfold pageBusy
  split <;> simp_all [blockPages, decide_eq_true_eq]
  exact decide_eq_true_iff

/-- The port's buffer serves an image page exactly where it holds that page of that capture and section (R159). -/
theorem heldAhead_eq_some_iff (p : PortId) (s : State) (e : DirEntry) (x : SecEntry) (k : Nat) (a : ReadAhead) :
    heldAhead p s e x k = some a ↔
      (s.port p).ahead = some a ∧ a.cap = e.cap ∧ a.sec = x.index ∧ (imagePages s e x)[k]? = some a.lpage := by
  simp [heldAhead, Option.filter_eq_some_iff, and_assoc]

/-- An image page is busy exactly where it has a physical page on which an operation is in flight (R129). -/
theorem imageBusy_iff (s : State) (e : DirEntry) (x : SecEntry) (k : Nat) :
    imageBusy s e x k = true ↔ ∃ n src : Nat, (imagePages s e x)[k]? = some n ∧ physOf e.blocks n = some src ∧
      pageBusy s (mapped s.dir.map src) = true := by
  unfold imageBusy
  cases hn : (imagePages s e x)[k]? with
  | none => simp
  | some n => cases hp : physOf e.blocks n <;> simp [hp]

/-- When READ_SECTION of the image pages from `off / 512` to `k1` waits (R129, log 64). -/
theorem sectionWaits_iff (p : PortId) (e : DirEntry) (x : SecEntry) (off asked k1 : Nat) (s : State)
    (h : (off + servedLength s e x off asked - 1) / 512 = k1) :
    sectionWaits p e x off asked s = true ↔
      (imageBusy s e x (off / 512) = true ∧ heldAhead p s e x (off / 512) = none) ∨
        (imageBusy s e x k1 = true ∧ heldAhead p s e x k1 = none) ∨ imageBusy s e x (k1 + 1) = true := by
  subst h
  simp [sectionWaits, pageBytes, or_assoc]

/-- With no operation in flight READ_SECTION does not wait. -/
theorem sectionWaits_idle (p : PortId) (e : DirEntry) (x : SecEntry) (off asked : Nat) (s : State) (h : s.store.flight = none) :
    sectionWaits p e x off asked s = false := by
  have hb : ∀ page, pageBusy s page = false := fun page => by simp [pageBusy, h]
  have hi : ∀ k, imageBusy s e x k = false := fun k => by simp [imageBusy, hb]
  simp [sectionWaits, hi]

/-! ## Block lists (R138, log 65) -/

theorem placeBlocks_length (old : List (Option Nat)) (position : Nat) (bl : List Nat) :
    (placeBlocks old position bl).length = max old.length (position + bl.length) := by
  simp [placeBlocks]; omega

/-- The blocks placed stand at their positions. -/
theorem placeBlocks_placed (old : List (Option Nat)) (position : Nat) (bl : List Nat) (i : Nat) (h : i < bl.length) :
    (placeBlocks old position bl)[position + i]? = some bl[i]? := by
  unfold placeBlocks
  rw [List.append_assoc, List.getElem?_append_right (by simp; omega)]
  have e : position + i - (old.take position ++ List.replicate (position - old.length) none).length = i := by simp; omega
  rw [e, List.getElem?_append_left (by simpa using h)]
  simp [h]

/-- The other places of the list are kept. -/
theorem placeBlocks_kept (old : List (Option Nat)) (position : Nat) (bl : List Nat) (i : Nat)
    (h : i < position ∨ position + bl.length ≤ i) (hi : i < old.length) : (placeBlocks old position bl)[i]? = old[i]? := by
  unfold placeBlocks
  rcases h with h | h
  · rw [List.append_assoc, List.append_assoc, List.getElem?_append_left (by simp; omega), List.getElem?_take, if_pos h]
  · rw [List.getElem?_append_right (by simp; omega), List.getElem?_drop]
    congr 1
    simp
    omega

/-- The places between the end of the list and the position hold no block. -/
theorem placeBlocks_between (old : List (Option Nat)) (position : Nat) (bl : List Nat) (i : Nat) (h : old.length ≤ i)
    (hi : i < position) : (placeBlocks old position bl)[i]? = some none := by
  unfold placeBlocks
  rw [List.append_assoc, List.append_assoc, List.getElem?_append_right (by simp; omega),
    List.getElem?_append_left (by simp; omega), List.getElem?_replicate, if_pos (by simp; omega)]

theorem groupsOf_mem {α : Type} (n : Nat) (hn : 0 < n) (fuel : Nat) (xs : List α) (k : Nat) (g : List α)
    (h : (groupsOf n fuel xs)[k]? = some g) : g = (xs.drop (n * k)).take n ∧ g ≠ [] := by
  induction fuel generalizing xs k with
  | zero => simp [groupsOf] at h
  | succ fuel ih =>
    unfold groupsOf at h
    split at h
    · simp at h
    · next hx =>
      cases k with
      | zero =>
        simp at h
        subst h
        refine ⟨by simp, ?_⟩
        cases xs with
        | nil => simp at hx
        | cons x xs => obtain ⟨m, rfl⟩ : ∃ m, n = m + 1 := ⟨n - 1, by omega⟩; simp
      | succ k =>
        simp at h
        obtain ⟨h1, h2⟩ := ih _ _ h
        refine ⟨?_, h2⟩
        rw [h1, List.drop_drop, Nat.mul_succ, Nat.add_comm]

/-- Every element stands in its group while the fuel lasts. -/
theorem groupsOf_get {α : Type} (n : Nat) (hn : 0 < n) (fuel : Nat) (xs : List α) (i : Nat) (hi : i < xs.length)
    (hf : i < n * fuel) : (groupsOf n fuel xs)[i / n]? = some ((xs.drop (n * (i / n))).take n) := by
  induction fuel generalizing xs i with
  | zero => simp at hf
  | succ fuel ih =>
    have hx : xs.isEmpty = false := by cases xs <;> simp_all
    unfold groupsOf
    simp only [hx, Bool.false_eq_true, if_false]
    by_cases hin : i < n
    · simp [Nat.div_eq_of_lt hin]
    · have e : i / n = (i - n) / n + 1 := by rw [← Nat.sub_add_cancel (Nat.le_of_not_lt hin), Nat.add_div_right _ hn]; simp
      rw [e]
      simp only [List.getElem?_cons_succ]
      rw [ih (xs.drop n) (i - n) (by simp; omega) (by rw [Nat.mul_succ] at hf; omega), List.drop_drop]
      rw [Nat.mul_succ, Nat.add_comm]

/-- A list without a lost place is one run. -/
theorem blockRuns_known (position : Nat) (bl : List Nat) :
    blockRuns position (bl.map some) = if bl = [] then [] else [(position, bl)] := by
  induction bl generalizing position with
  | nil => rfl
  | cons b bl ih =>
    simp only [List.map_cons, blockRuns, ih]
    cases bl <;> simp

/-- A run holds what stands in the list from its position on. -/
theorem blockRuns_sound (position : Nat) (xs : List (Option Nat)) (r : Nat × List Nat) (h : r ∈ blockRuns position xs) :
    position ≤ r.1 ∧ ∀ i : Nat, i < r.2.length → xs[r.1 - position + i]? = some r.2[i]? := by
  induction xs generalizing position r with
  | nil => simp [blockRuns] at h
  | cons x xs ih =>
    -- what the rest of the list holds stands one place further here
    have rest : ∀ r ∈ blockRuns (position + 1) xs, position ≤ r.1 ∧ ∀ i : Nat, i < r.2.length →
        (x :: xs)[r.1 - position + i]? = some r.2[i]? := by
      intro r hr
      obtain ⟨h1, h2⟩ := ih _ _ hr
      refine ⟨by omega, fun i hi => ?_⟩
      rw [show r.1 - position + i = r.1 - (position + 1) + i + 1 by omega, List.getElem?_cons_succ]
      exact h2 i hi
    cases x with
    | none => exact rest r h
    | some b =>
      simp only [blockRuns] at h
      split at h
      · simp at h
        subst h
        simp
      · next q bl more he =>
        split at h
        · next hq =>
          rcases List.mem_cons.mp h with rfl | h
          · refine ⟨Nat.le_refl _, fun i hi => ?_⟩
            cases i with
            | zero => simp
            | succ i =>
              have := (rest (q, bl) (by rw [he]; simp)).2 i (by simpa using hi)
              simp only [hq] at this
              rw [show position + 1 - position + i = position - position + (i + 1) by omega] at this
              simpa using this
          · exact rest r (by rw [he]; simp [h])
        · rcases List.mem_cons.mp h with rfl | h
          · refine ⟨Nat.le_refl _, fun i hi => ?_⟩
            simp at hi
            subst hi
            simp
          · exact rest r (by rw [he]; exact h)

/-- Every block of the list stands in a run. -/
theorem blockRuns_complete (position : Nat) (xs : List (Option Nat)) (i b : Nat) (h : xs[i]? = some (some b)) :
    ∃ r ∈ blockRuns position xs, r.1 ≤ position + i ∧ r.2[position + i - r.1]? = some b := by
  induction xs generalizing position i with
  | nil => simp at h
  | cons x xs ih =>
    cases i with
    | zero =>
      simp at h
      subst h
      simp only [blockRuns]
      split
      · exact ⟨_, List.mem_singleton.mpr rfl, by simp⟩
      · split
        · exact ⟨_, List.mem_cons_self, by simp⟩
        · exact ⟨_, List.mem_cons_self, by simp⟩
    | succ i =>
      obtain ⟨r, hr, h1, h2⟩ := ih (position + 1) i (by simpa using h)
      rw [show position + 1 + i = position + (i + 1) by omega] at h1 h2
      cases x with
      | none => exact ⟨r, hr, h1, h2⟩
      | some c =>
        simp only [blockRuns]
        split
        · next he => rw [he] at hr; simp at hr
        · next q bl more he =>
          rw [he] at hr
          split
          · next hq =>
            rcases List.mem_cons.mp hr with rfl | hr
            · refine ⟨_, List.mem_cons_self, by simp, ?_⟩
              simp only at h1 h2 ⊢
              rw [show position + (i + 1) - position = position + (i + 1) - q + 1 by omega]
              simpa using h2
            · exact ⟨r, List.mem_cons_of_mem _ hr, h1, h2⟩
          · exact ⟨r, List.mem_cons_of_mem _ hr, h1, h2⟩

/-- A list without a lost place is written by twelves. -/
theorem blockLists_known (e : DirEntry) (bl : List Nat) (h : e.blocks = bl.map some) :
    blockLists e = (groupsOf 12 6 bl).mapIdx fun i g => .blockList e.cap (12 * i) g := by
  unfold blockLists
  rw [h, blockRuns_known]
  cases bl with
  | nil => rfl
  | cons b bl => simp only [reduceCtorEq, if_false, List.flatMap_cons, List.flatMap_nil, List.append_nil, Nat.zero_add]

/-- A BLOCK_LIST record of a snapshot holds 1 to 12 blocks of the list, at their position. -/
theorem blockLists_sound (e : DirEntry) (r : JRec) (h : r ∈ blockLists e) :
    ∃ (position : Nat) (g : List Nat), r = .blockList e.cap position g ∧ 1 ≤ g.length ∧ g.length ≤ 12 ∧
      ∀ i : Nat, i < g.length → e.blocks[position + i]? = some g[i]? := by
  unfold blockLists at h
  obtain ⟨run, hrun, hr⟩ := List.mem_flatMap.mp h
  obtain ⟨k, hk, rfl⟩ := List.mem_mapIdx.mp hr
  obtain ⟨hg, hne⟩ := groupsOf_mem 12 (by omega) 6 run.2 k _ (List.getElem?_eq_getElem hk)
  refine ⟨_, _, rfl, List.length_pos_iff.mpr hne, by rw [hg]; simp, fun i hi => ?_⟩
  have hb := (blockRuns_sound 0 e.blocks run hrun).2 (12 * k + i) (by rw [hg] at hi; simp at hi; omega)
  rw [show run.1 + 12 * k + i = run.1 - 0 + (12 * k + i) by omega, hb, hg, List.getElem?_take, List.getElem?_drop, if_pos]
  rw [hg] at hi
  simp at hi
  omega

/-- Every block of a list of at most 60 places is written. -/
theorem blockLists_complete (e : DirEntry) (h : e.blocks.length ≤ 60) (i b : Nat) (hb : e.blocks[i]? = some (some b)) :
    ∃ (position : Nat) (g : List Nat), .blockList e.cap position g ∈ blockLists e ∧ position ≤ i ∧ g[i - position]? = some b := by
  obtain ⟨run, hrun, h1, h2⟩ := blockRuns_complete 0 e.blocks i b hb
  rw [Nat.zero_add] at h1 h2
  obtain ⟨hlt, -⟩ := List.getElem?_eq_some_iff.mp h2
  obtain ⟨hi, -⟩ := List.getElem?_eq_some_iff.mp hb
  have hg := groupsOf_get 12 (by omega) 6 run.2 (i - run.1) hlt (by omega)
  refine ⟨run.1 + 12 * ((i - run.1) / 12), (run.2.drop (12 * ((i - run.1) / 12))).take 12, ?_, by omega, ?_⟩
  · obtain ⟨hk, hk'⟩ := List.getElem?_eq_some_iff.mp hg
    refine List.mem_flatMap.mpr ⟨run, hrun, List.mem_mapIdx.mpr ⟨_, hk, ?_⟩⟩
    rw [hk']
  · rw [List.getElem?_take, if_pos (by omega), List.getElem?_drop, ← h2]
    congr 1
    omega

end Sys2Proof.Machine
end

