-- ==== Sys2Proof/Laws/Engine.lean ====
section
/-! SUPPORT. Sys2Proof/Laws/Engine.lean: what the Capture Engine's shared operations do: the staging buffers by their state and page,
buffers dropped and pages counted, a region withdrawn, claims, retain counts and table entries given back, and its tests as
propositions. -/

namespace Sys2Proof.Machine

/-! ## The staging buffers -/

/-- An update of each staging buffer. -/
theorem onBuf_forEach (f : Fin 4 → Buf → Buf) (s : State) :
    forEach (List.finRange 4) (fun j s => s.onBuf j (f j)) s =
      { s with engine := { s.engine with bufs := Vector.ofFn fun j => f j s.engine.bufs[j] } } := by
  have h4 : List.finRange 4 = [0, 1, 2, 3] := by decide
  simp only [forEach, h4, List.foldl, State.onBuf, State.onEngine]
  congr 2
  apply Vector.ext
  intro j hj
  simp [vmod, vset, Vector.getElem_set]
  match j, hj with
  | 0, _ => simp
  | 1, _ => simp
  | 2, _ => simp
  | 3, _ => simp

/-- Some staging buffer is such. -/
theorem any_bufList (s : State) (p : Buf → Bool) :
    ((bufList s).any fun x => p x.2) = true ↔ ∃ j : Fin 4, p s.engine.bufs[j] = true := by
  simp [bufList, List.any_map]

/-- The staging buffers that are such, by index. -/
theorem mem_filter_bufList (s : State) (p : Buf → Bool) (j : Fin 4) :
    (j ∈ ((bufList s).filter fun x => p x.2).map (·.1)) ↔ p s.engine.bufs[j] = true := by
  simp only [bufList, List.mem_map, List.mem_filter, List.mem_finRange, true_and]
  constructor
  · rintro ⟨⟨k, y⟩, ⟨⟨k', hk⟩, hp⟩, rfl⟩
    simp only [Prod.mk.injEq] at hk
    obtain ⟨rfl, rfl⟩ := hk
    exact hp
  · intro h
    exact ⟨(j, s.engine.bufs[j]), ⟨⟨j, rfl⟩, h⟩, rfl⟩

/-- The first staging buffer that is such. -/
theorem bufWhere_some (p : Buf → Bool) (s : State) (i : Fin 4) (h : p s.engine.bufs[i] = true)
    (hl : ∀ j : Fin 4, j < i → p s.engine.bufs[j] = false) : bufWhere p s = some i := by
  have h4 : List.finRange 4 = [0, 1, 2, 3] := by decide
  simp only [bufWhere, bufList, h4, List.map, List.find?]
  match i, h, hl with
  | 0, h, _ => rw [h]; rfl
  | 1, h, hl => rw [hl 0 (by decide), h]; rfl
  | 2, h, hl => rw [hl 0 (by decide), hl 1 (by decide), h]; rfl
  | 3, h, hl => rw [hl 0 (by decide), hl 1 (by decide), hl 2 (by decide), h]; rfl

/-- No staging buffer is such. -/
theorem bufWhere_none (p : Buf → Bool) (s : State) (hl : ∀ j : Fin 4, p s.engine.bufs[j] = false) : bufWhere p s = none := by
  have h4 : List.finRange 4 = [0, 1, 2, 3] := by decide
  simp only [bufWhere, bufList, h4, List.map, List.find?]
  rw [hl 0, hl 1, hl 2, hl 3]; rfl

/-- The first staging buffer in a state. -/
theorem bufInState_some (s : State) (i : Fin 4) (st : BufState) (h : (s.engine.bufs[i]).state = st)
    (hl : ∀ j : Fin 4, j < i → (s.engine.bufs[j]).state ≠ st) :
    bufWhere (fun b => b.state = st) s = some i :=
  bufWhere_some _ s i (by simpa using h) fun j hj => by simpa using hl j hj

/-- No staging buffer is in a state. -/
theorem bufInState_none (s : State) (st : BufState) (hl : ∀ j : Fin 4, (s.engine.bufs[j]).state ≠ st) :
    bufWhere (fun b => b.state = st) s = none :=
  bufWhere_none _ s fun j => by simpa using hl j

/-- A search reads the staging buffers alone. -/
theorem bufWhere_congr (p : Buf → Bool) (s t : State) (h : t.engine.bufs = s.engine.bufs) : bufWhere p t = bufWhere p s := by
  simp [bufWhere, bufList, h]

/-- A staging buffer is not EMPTY. -/
theorem busyBuf_iff (s : State) : busyBuf s = true ↔ ∃ i : Fin 4, (s.engine.bufs[i]).state ≠ .empty := by
  simp [busyBuf, bufList, List.any_map]

/-- A staging buffer whose program has not started is such. -/
theorem unstarted_iff (s : State) (p : Buf → Bool) : ((bufList s).any fun x => x.2.unstarted && p x.2) = true ↔
    ∃ i : Fin 4, ((s.engine.bufs[i]).state = .filling ∨ (s.engine.bufs[i]).state = .queued) ∧ p s.engine.bufs[i] = true := by
  simp [bufList, List.any_map, Buf.unstarted]

/-- The search for the lowest page, from what it has found so far. -/
theorem lowestBuf_foldl (b : Fin 4 × Buf) : ∀ (xs : List (Fin 4 × Buf)) (acc : Option (Fin 4 × Buf)),
    (∀ y ∈ xs, y ≠ b → b.2.page < y.2.page) → (∀ y, acc = some y → y = b ∨ b.2.page < y.2.page) →
    (b ∈ xs ∨ acc = some b) →
    xs.foldl (fun best x => match best with
    | none => some x
    | some y => if x.2.page < y.2.page then some x else best) acc = some b := by
  intro xs
  induction xs with
  | nil => intro acc _ _ h; simpa using h
  | cons x xs ih =>
    intro acc h1 h2 h3
    simp only [List.foldl_cons]
    apply ih
    · exact fun y hy => h1 y (List.mem_cons_of_mem _ hy)
    · intro y hy
      have hx : x = b ∨ b.2.page < x.2.page := by
        by_cases hxb : x = b
        · exact Or.inl hxb
        · exact Or.inr (h1 x (List.mem_cons_self) hxb)
      cases acc with
      | none => simp at hy; subst hy; exact hx
      | some z =>
        simp only at hy
        split at hy
        · simp at hy; subst hy; exact hx
        · exact h2 y hy
    · rcases h3 with h3 | h3
      · rcases List.mem_cons.mp h3 with h3 | h3
        · right
          cases acc with
          | none => simp [h3]
          | some z =>
            simp only
            rcases h2 z rfl with hz | hz
            · subst hz; subst h3; simp
            · rw [if_pos]; · rw [h3]
              rw [← h3]; exact hz
        · exact Or.inl h3
      · subst h3
        by_cases hxb : x = b
        · right; simp [hxb]
        · right
          simp only
          rw [if_neg]
          have := h1 x (List.mem_cons_self) hxb
          omega

/-- The staging buffer of the lowest page among those that are such (R112). -/
theorem lowestBuf_filter (s : State) (p : Fin 4 × Buf → Bool) (l : Fin 4) (hl : p (l, s.engine.bufs[l]) = true)
    (h : ∀ j : Fin 4, j ≠ l → p (j, s.engine.bufs[j]) = true → (s.engine.bufs[l]).page < (s.engine.bufs[j]).page) :
    lowestBuf ((bufList s).filter p) = some (l, s.engine.bufs[l]) := by
  apply lowestBuf_foldl
  · rintro ⟨j, y⟩ hy hne
    simp only [bufList, List.mem_filter, List.mem_map, List.mem_finRange, true_and] at hy
    obtain ⟨⟨k, hk⟩, hp⟩ := hy
    simp only [Prod.mk.injEq] at hk
    obtain ⟨rfl, rfl⟩ := hk
    refine h k ?_ hp
    rintro rfl; exact hne rfl
  · intro y hy; cases hy
  · left
    simp only [bufList, List.mem_filter, List.mem_map, List.mem_finRange, true_and]
    exact ⟨⟨l, rfl⟩, hl⟩

/-- No staging buffer is among those that are such. -/
theorem filter_bufList_nil (s : State) (p : Fin 4 × Buf → Bool) (h : ∀ j : Fin 4, p (j, s.engine.bufs[j]) = false) :
    (bufList s).filter p = [] := by
  rw [List.filter_eq_nil_iff]
  rintro ⟨j, y⟩ hy
  simp only [bufList, List.mem_map, List.mem_finRange, true_and] at hy
  obtain ⟨k, hk⟩ := hy
  simp only [Prod.mk.injEq] at hk
  obtain ⟨rfl, rfl⟩ := hk
  have := h k
  simpa using this

/-! ## Buffers dropped, pages counted, regions withdrawn (R59, R86, R92, R112) -/

/-- Staging buffers dropped: EMPTY, with their programs out of the queue. -/
theorem dropBufs_eq (is : List (Fin 4)) (s : State) :
    dropBufs is s = { s with
      engine := { s.engine with bufs := Vector.ofFn fun j =>
        if j ∈ is then { s.engine.bufs[j] with state := .empty } else s.engine.bufs[j] }
      store := { s.store with queue := s.store.queue.filter fun q => is.all fun i => q ≠ .buf i } } := by
  induction is generalizing s with
  | nil =>
    simp [dropBufs, forEach]
  | cons i is ih =>
    have : dropBufs (i :: is) s = dropBufs is (dropBuf i s) := rfl
    rw [this, ih]
    simp only [dropBuf, withdraw, State.onStore, State.onBuf, State.onEngine]
    congr 1
    · congr 1
      apply Vector.ext
      intro j hj
      simp only [vmod, vset, Vector.getElem_ofFn, Fin.getElem_fin, Vector.getElem_set, List.mem_cons]
      by_cases hji : i.val = j
      · have : (⟨j, hj⟩ : Fin 4) = i := Fin.ext hji.symm
        subst this
        simp
      · have : ¬ (⟨j, hj⟩ : Fin 4) = i := fun h => hji (by rw [← h])
        simp [hji, this]
    · congr 1
      simp [List.filter_filter, Bool.and_comm]

/-- The programs of the staging buffers that are such, out of the queue. -/
theorem withdrawn_queue (s : State) (p : Buf → Bool) :
    (s.store.queue.filter fun q => (((bufList s).filter fun x => p x.2).map (·.1)).all fun i => q ≠ .buf i) =
      s.store.queue.filter fun q => decide (∀ j : Fin 4, p s.engine.bufs[j] = true → q ≠ .buf j) := by
  apply List.filter_congr
  intro q _
  rw [Bool.eq_iff_iff]
  simp only [List.all_eq_true, decide_eq_true_eq]
  constructor
  · intro h j hj; exact h j ((mem_filter_bufList s p j).mpr hj)
  · intro h j hj; exact h j ((mem_filter_bufList s p j).mp hj)

/-- A withdrawal changes the fetch channels alone. -/
theorem withdrawFor_eq (c : Capture) (s : State) : withdrawFor c s = { s with fetches := (withdrawFor c s).fetches } := by
  unfold withdrawFor; split <;> rfl

/-- A withdrawal reads the fetch channels alone. -/
theorem withdrawFor_fetches (c : Capture) (s t : State) (h : s.fetches = t.fetches) :
    (withdrawFor c s).fetches = (withdrawFor c t).fetches := by
  unfold withdrawFor; split <;> simp [withdrawRegion, State.onFetch, h]

/-- The page after the last of some pages. -/
theorem pageAfter_eq (ps : List Placed) (n : Nat) : pageAfter ps n = (ps.map fun p => p.page + 1).foldl max n := by
  simp [pageAfter, List.foldl_map]

/-- What a section keeps: its accepted pages and those still in a buffer. -/
theorem Section.kept_eq (s : State) (x : Section) :
    x.kept s = x.done ++ ((List.finRange 4).filter fun j => (s.engine.bufs[j]).state ≠ .empty && !(s.engine.bufs[j]).isHead).map
      fun j => { page := (s.engine.bufs[j]).page, start := (s.engine.bufs[j]).start
                 stop := (s.engine.bufs[j]).start + (s.engine.bufs[j]).bytes.length } := by
  simp only [Section.kept, bufList, List.filter_map, List.map_map]
  rfl

/-- A page below the cap in an allotted block needs nothing. -/
theorem pageNeeds_none (c : Capture) (s : State) (h1 : c.nextPage < c.snapshot.pageCap) (h2 : c.nextPage / 128 < c.blocks.length) :
    pageNeeds c s = none := by
  unfold pageNeeds; rw [if_neg (by omega), if_neg (by simp only [blockPages]; omega)]

/-- An early close leaves the staging buffers. -/
theorem closeEarly_bufs (k : CloseCause) (o : OutcomeCode) (s : State) : (closeEarly k o s).engine.bufs = s.engine.bufs := by
  have h1 : ∀ (u : State), (endGathering o true u).engine.bufs = u.engine.bufs := by
    intro u; unfold endGathering
    split
    · rfl
    · simp only [setPhase, State.onSection, State.onCapture, State.onEngine, if_true]
      unfold withdrawFor; split <;> rfl
  unfold closeEarly
  dsimp only
  split <;> (repeat' split) <;> first | rfl | (rw [h1]; rfl)

/-- A power close of a section that has not been recorded drains it. -/
theorem powerClose_phase (s : State) (c : Capture) (hc : s.engine.capture = some c) (h : s.engine.phase.recording = false) :
    (powerClose s).engine.phase = .drain := by
  unfold powerClose
  simp [hc, h, setPhase, State.onEngine]

/-- A trailer has bytes. -/
theorem trailerBytes_pos (o : OutcomeCode) (l : Bool) (n r : Nat) (g : List Gap) : 0 < (trailerBytes o l n r g).length := by
  simp [trailerBytes]

/-! ## What a section gives back (R84, R85, R98) -/

/-- A claim given back leaves the engine, the ring and the directory. -/
theorem unclaimOne_keeps (e : PlanEntry) (s : State) :
    (unclaimOne e s).engine = s.engine ∧ (unclaimOne e s).ring = s.ring ∧ (unclaimOne e s).dir = s.dir ∧ (unclaimOne e s).time = s.time := by
  unfold unclaimOne; split <;> exact ⟨rfl, rfl, rfl, rfl⟩

/-- The claim that a STREAM section gives back at its channel (R44). -/
theorem unclaimOne_streams (e : PlanEntry) (s : State) (ch : Fin 4) :
    (unclaimOne e s).streams[ch] = if e.kind = .stream ∧ e.chan = some ch then
       { s.streams[ch] with claim := match (s.streams[ch]).claim with
           | none => none
           | some y => if y.count ≤ 1 then none else some { y with count := y.count - 1 } } else s.streams[ch] := by
  unfold unclaimOne
  split
  · rename_i k hk hc
    by_cases h : k = ch
    · subst h
      rw [if_pos ⟨hk, hc⟩]
      exact streams_onStream_same _ _ _
    · rw [if_neg (by rintro ⟨-, h2⟩; rw [hc] at h2; exact h (Option.some.inj h2))]
      exact vmod_get_other _ _ _ _ (Ne.symm h)
  · rename_i hno
    rw [if_neg (by rintro ⟨h1, h2⟩; exact hno _ h1 h2)]

/-- The lowest FREE entry of the section table is reserved (log 14). -/
theorem reserveSection_eq (cap i : Nat) (d : Directory) (h : lowestFreeSection d = some i) :
    reserveSection cap d = { d with sections := d.sections ++ [(i, .reserved cap)] } := by
  unfold reserveSection; split
  · rename_i j hj; rw [h] at hj; cases hj; rfl
  · rename_i hj; rw [h] at hj; cases hj

/-- The end of a section gives its claim back and, after the last HISTORY section, the pin. -/
theorem releaseForEnd_eq (c : Capture) (e : PlanEntry) (S : State) :
    releaseForEnd c e S = { unclaimOne e S with ring := { S.ring with
      pin := if (decide (e.kind = .history) && lastHistory c) = true then none else S.ring.pin } } := by
  have := unclaimOne_keeps e S
  unfold releaseForEnd
  dsimp only
  by_cases h : (decide (e.kind = .history) && lastHistory c) = true
  · rw [if_pos h, if_pos h]; simp only [releasePin, State.onRing, this.2.1]
  · rw [if_neg h, if_neg h]; rw [show ({ S.ring with pin := S.ring.pin } : Ring) = (unclaimOne e S).ring from this.2.1.symm]

/-- A section without a retain line releases none. -/
theorem releaseOne_none (n : Nat) (e : PlanEntry) (s : State) (h : e.retain = none) : releaseOne n e s = s := by
  unfold releaseOne; rw [h]

/-- The count of a section's retain line falls, and the line is released at 0. -/
theorem releaseOne_some (n : Nat) (e : PlanEntry) (s : State) (l : Fin 8) (h : e.retain = some l) :
    releaseOne n e s = if (decide (s.engine.retainCount[l] - 1 = 0) && s.engine.retain.getLsbD l.val) = true then
      { s with ring := s.ring.post s.time .engine 0x09 [BitVec.ofNat 32 n, BitVec.ofNat 32 l.val]
               engine := { s.engine with retainCount := vset s.engine.retainCount l (s.engine.retainCount[l] - 1)
                                         retain := setBit s.engine.retain l.val false } }
    else { s with engine := { s.engine with retainCount := vset s.engine.retainCount l (s.engine.retainCount[l] - 1) } } := by
  unfold releaseOne; rw [h]; rfl

/-! ## The engine's tests -/

/-- An ordinary program may start (R111). -/
theorem ordinaryOk_iff (s : State) :
    ordinaryOk s = true ↔ s.monitor.state = .normal ∨ (s.monitor.state ≠ .exhausted ∧ 6 < s.monitor.remaining) := by
  unfold ordinaryOk programMayStart closeReserve
  cases s.monitor.state <;> simp

/-- The CAPTURE_CLOSE record of the capture is slotted. -/
theorem closeSlotted_iff (c : Capture) (s : State) :
    closeSlotted c s = true ↔ ∃ (x : Slotted) (o : OutcomeCode) (t : PartTime) (g : TrigSet) (h : Option Nat),
       x ∈ s.dir.slotted ∧ x.record = .captureClose c.number o t g h := by
  unfold closeSlotted
  simp only [List.any_eq_true]
  constructor
  · rintro ⟨x, hx, h⟩
    split at h
    · rename_i n o t g hd hr
      simp at h; subst h
      exact ⟨x, o, t, g, hd, hx, hr⟩
    · cases h
  · rintro ⟨x, o, t, g, h, hx, hr⟩
    exact ⟨x, hx, by rw [hr]; simp⟩

/-- A compaction waits for NORMAL (R116). -/
theorem compactionWaits_iff (s : State) : compactionWaits s = true ↔ s.monitor.state ≠ .normal ∧ (s.dir.comp.held = true ∨
    (s.dir.comp.state = .clearing ∧ ∀ b : Nat, s.store.flight ≠ some (.erase .journal b))) := by
  have hf : journalEraseFlying s = true ↔ ∃ b : Nat, s.store.flight = some (.erase .journal b) := by
    unfold journalEraseFlying; split <;> simp_all
  unfold compactionWaits
  have hf' : journalEraseFlying s = false ↔ ∀ b : Nat, s.store.flight ≠ some (.erase .journal b) := by
    rw [← Bool.not_eq_true, hf]; simp
  simp only [Bool.and_eq_true, Bool.or_eq_true, Bool.not_eq_true', decide_eq_true_eq, hf', isNormal, decide_eq_false_iff_not, ne_eq]

/-- Staging buffers end as refused programs do (R112, R113). -/
theorem buffersRefused_iff (s : State) :
    buffersRefused s = true ↔ s.engine.state ≠ .closing ∧ ¬ ordinaryOk s = true ∧
      ∃ i : Fin 4, ((s.engine.bufs[i]).state = .filling ∨ (s.engine.bufs[i]).state = .queued) := by
  unfold buffersRefused
  have := unstarted_iff s fun _ => true
  simp only [Bool.and_true, and_true] at this
  simp only [Bool.and_eq_true, decide_eq_true_eq, Bool.not_eq_true', Bool.not_eq_true, this, and_assoc]

/-- What a gathering section is. -/
theorem gathering_some (c : Capture) (s : State) (x : Section) (e : PlanEntry) (h : gathering s = some (c, x, e)) :
    current s = some c ∧ s.engine.phase = .gather ∧ c.current = some x ∧ c.entryHere = some e := by
  unfold gathering at h
  split at h
  · rename_i c' hc'
    split at h
    · split at h
      · simp only [Option.some.injEq, Prod.mk.injEq] at h
        obtain ⟨rfl, rfl, rfl⟩ := h
        exact ⟨hc', by assumption, by assumption, by assumption⟩
      · cases h
    · cases h
  · cases h

end Sys2Proof.Machine
end

