-- ==== Sys2Proof/Tests/Slice0.lean ====
section
/-! SUPPORT. Sys2Proof/Tests/Slice0.lean: ill-formed commands that the check refuses, codes and values against the manual's tables,
and for each statement with hypotheses a state and operands that meet each of its clauses. -/

namespace Sys2Proof.Tests

open Sys2Proof Sys2Proof.Machine

-- One test after another: elaborated together, their threads would not fit in the check's memory.
set_option Elab.async false

/-! ## Ill-formed commands are refused -/

theorem test_answer_with_missing_data_is_ill_formed : (Instr.fetchAnswer { ch := 0, before := [] } 0 0 2 [1] 0).wellFormed = false := by decide

theorem test_good_length_field_is_ill_formed :
    (Instr.lengthErrors .host 2 0).wellFormed = false ∧ (Instr.lengthErrors .host 2 4).wellFormed = false ∧
      (Instr.lengthErrors .host 1 0).wellFormed = true ∧ (Instr.lengthErrors .host 3 4).wellFormed = true := by decide

theorem test_known_kind_is_no_unknown_kind :
    (Instr.unknownKind .host 1 0 []).wellFormed = false ∧ (Instr.unknownKind .host 0x21 0 []).wellFormed = false ∧
      (Instr.unknownKind .host 0 0 []).wellFormed = true ∧ (Instr.unknownKind .host 0x22 0 []).wellFormed = true := by decide

theorem test_long_payload_is_ill_formed :
    (Instr.panicNote .host 0 (List.replicate 1025 0)).wellFormed = false ∧
      (Instr.panicNote .host 0 (List.replicate 1024 0)).wellFormed = true := by decide +kernel

/-- The longest run of bytes between two events: a frame's 1,031 bytes. -/
theorem test_long_arrival_is_ill_formed :
    (Instr.interbyte ⟨.host, List.replicate 1032 0⟩).wellFormed = false ∧
      (Instr.interbyte ⟨.host, List.replicate 1031 0⟩).wellFormed = true ∧
      (Instr.crcErrors ⟨.host, List.replicate 1032 0⟩).wellFormed = false ∧
      (Instr.crcErrors ⟨.host, List.replicate 1031 0⟩).wellFormed = true := by decide +kernel

theorem test_write_plan_forms_are_told_apart :
    (Instr.writePlanEntry .service 0 [1, 0, 0]).wellFormed = false ∧
      (Instr.writePlanPageCap .service 0 [0, 0, 0]).wellFormed = false := by decide

/-! ## Codes, layouts and values of the manual -/

/-- 5.5: the CRC of the nine characters "123456789", its remainder 0x29B1 complemented. -/
theorem test_crc_of_the_check_string :
    crc16 [0x31, 0x32, 0x33, 0x34, 0x35, 0x36, 0x37, 0x38, 0x39] = 0xD64E := by decide +kernel

/-- 12.1: the kinds of the requests. -/
theorem test_kinds_of_requests :
    [kIdentify, kStatus, kAckRestart, kRestart, kReadSettings, kWriteSettings, kStoreSettings, kSetTime, kPostEvent,
      kReadEvents, kPanicNote, kCapture, kAbortCapture, kReadLines, kClearLatches, kArm, kDisarm, kDriveIndicators, kReadPlan,
      kWritePlan, kProbeReach, kListCaptures, kReadCapture, kReadHead, kReadSection, kReadErrors, kAckErrors, kHold, kRelease,
      kDelete, kStageNote, kCommitNote, kEraseAll].map (·.toNat) = (List.range 33).map (· + 1) := by decide

/-- 7.2: a sample of 12 V with the default constants. -/
theorem test_default_allowance : allowanceFor Settings.initial 12000 = 97 := by decide

/-! ## Small states -/

/-- A READY part with the service strap asserted, so that the service port is TECHNICIAN. -/
def part : State := { State.reset with ready := true, link := { State.reset.link with svcStrap := true } }

/-- The part at a part time. -/
def atTime (t : PartTime) (s : State) : State := { s with time := t }

/-- A term of the part in some working state. -/
def withTerm (t : Term) (s : State) : State := onTerm 0 (fun _ => t) s

def armedTerm : Term := { state := .armed, qualified := false, assoc := none, rearmAt := none, fires := 0 }

/-- A latch that stands on line 0, a term that reads it, in ANY mode with polarity 1. -/
def latchTerm : TermDef :=
  { mask := 1, polarity := 1, source := .latch, combine := .any, rearm := 1, startArmed := false }

def latched (s : State) : State :=
  { s with settings := { s.settings with terms := vset s.settings.terms 0 latchTerm }, trig := { s.trig with latches := 1 } }

/-- A candidate on line 0 since part time 0. -/
def withCandidate (s : State) : State :=
  s.onTrig fun t => { t with cands := vset t.cands 0 (some { level := true, start := 0 }) }

/-- A ring of 1,024 records numbered from 0. -/
def fullRing (pin : Option (BitVec 32)) : Ring :=
  { records := (List.range 1024).map fun i => { seq := BitVec.ofNat 32 i, time := 0, origin := .engine, kind := 4, args := [] }
    counter := 1024, pin := pin, lost := 0 }

/-- Stream channel 0 in a receiver state with a record in assembly. -/
def assembly (bits : Nat) : Assembly :=
  { arrival := 0, paired := false, packed := false, words := [], frameCount := 0, truncated := false, held := none, word := 0
    bits := bits, lastEdge := 0 }

def receiving (rx : RxState) (a : Option Assembly) : State := part.onStream 0 fun c => { c with rx := rx, assembly := a }

/-- A record with `n` containers. -/
def streamRec (n drops : Nat) : StreamRec :=
  { arrival := 0, wordCount := n, dropsBefore := drops, syncError := false, truncated := false, packed := false, paired := false
    channel := 0, frameCount := n, containers := List.replicate n 0 }

/-- Channel 0 with 15,540 bytes held. -/
def filled (claim : Option Claim) : State :=
  part.onStream 0 fun c => { c with fifo := List.replicate 15 (streamRec 256 0), claim := claim }

def region : Region := { space := .config, base := 0, len := 8, runs := [], silent := false }

/-- Fetch channel 0 with an attempt in flight, its deadline at 10 µs. -/
def asking (attempt failures : Nat) : State :=
  part.onFetch 0 fun c =>
    { c with state := .asking, region := some region, failures := failures
             txn := some ⟨.config, 0, 1, attempt, 7, requestMessage 7 .config 0 1, 10⟩ }

/-- An enabled entry of a kind on channel 0 with a limit of 32 bytes and a window of 1 s. -/
def planEntry (kind : SecKind) : PlanEntry :=
  { enabled := true, kind := kind, cls := .critical, order := 0, trig := 0x7FF, chan := some 0, space := some .config
    base := some 0, limit := 32, quiet := some 1, window := some 1, retain := some 0 }

def plan (kind : SecKind) : Plan := { Plan.initial with entries := vset Plan.initial.entries 0 (planEntry kind) }

def section0 : Section :=
  { index := 0, first := 1, start := 0, img := 32, toPlace := [], items := [], records := 0, gaps := [], quietAt := some 0
    ended := none, len := 0, outcome := .complete, early := false, pages := none, done := [], stop := 32 }

/-- Capture 1, gathering its first section. -/
def capture (kind : SecKind) : Capture :=
  { number := 1, slot := some 0, first := 10, openTime := 0, trigOpen := 0x400, trig := 0x400, trigSeq := 0, preCount := 1
    postCount := 0, retainTime := 60, epoch := none, sender := .monitor, snapshot := plan kind, walk := [freshItem 0], cursor := some 0
    current := some section0, nextPage := 1, nextIndex := 1, head := some 0, blocks := [4], owed := [], clean := true
    unrecorded := false, closeOn := false, asked := false, noReclaim := false }

def inCapture (st : EngState) (kind : SecKind) : State :=
  part.onEngine fun e => { e with state := st, phase := .gather, capture := some (capture kind) }

/-- The capture's FETCH section with a piece of `n` bytes waiting. -/
def withPiece (n : Nat) : State :=
  (inCapture .gathering .fetch).onFetch 0 fun c =>
    { c with state := .delivering, region := some region, piece := some (.data true (List.replicate n 0)) }

/-- The capture's STREAM section with a record of 12 + 4 `n` bytes at the head of the FIFO. -/
def withRecord (n : Nat) : State := (inCapture .gathering .stream).onStream 0 fun c => { c with rx := .idle, fifo := [streamRec n 0] }

/-- No staging buffer has room. -/
def crowded (s : State) : State :=
  s.onEngine fun e => { e with bufs := Vector.replicate 4 { Buf.initial with state := .queued } }

/-- The monitor in a state with an allowance left. -/
def inMonitor (st : MonState) (remaining : Nat) (s : State) : State :=
  s.onMonitor fun m => { m with state := st, remaining := remaining }

/-- Capture 1 closed in block 4 with its head page, one section of 8 bytes, in the directory. -/
def entry (held : Bool) (slots : BitVec 4) : DirEntry :=
  { cap := 1, state := .closed, outcome := some .complete, trig := 0x400, first := 10, openTime := 0, closeTime := some 0
    epoch := none, head := some 0, blocks := [some 4], sections := [0], held := held, slots := slots, damaged := 0 }

def secEntry (status : OutcomeCode) : SecEntry :=
  { cap := 1, index := 0, entry := 0, kind := .note, status := status, len := 8, first := 1, pages := 1, gaps := 0, start := 0 }

def stored (held : Bool) (slots : BitVec 4) (status : OutcomeCode) : State :=
  part.onDir fun d =>
    { d with slots := vset d.slots 0 (.entry (entry held slots)), sections := [(0, .entry (secEntry status))], lastCap := 1 }

/-- A note pad on the service port. -/
def withPad (pf locked : Bool) (s : State) : State :=
  s.onPort .service fun q => { q with pad := { target := some (1, 3), text := [0x41], pf := pf, locked := locked, aa := false } }

/-- A program of page 8191, or an erase of block 63, in flight. -/
def programming (content : List Byte) : State :=
  part.onStore fun t => { t with flight := some (.program .settings 8191 content) }

def erasing : State := part.onStore fun t => { t with flight := some (.erase .settings 63) }

/-- A journal record that waits for its program. -/
def slotted (s : State) : State :=
  s.onDir fun d => { d with slotted := [{ block := 0, slot := 2, seq := 2, record := .hold 1, who := .engine, flying := false }] }

/-- A restart answered OK. -/
def restarting (sent : Bool) : State :=
  part.onLink fun l => { l with restart := some { port := .service, force := false, sent := sent } }

/-- The service port with a request in service. -/
def busy : State := inService .service kHold 0 .none part

/-- The first two journal slots of a formatted part, byte for byte (12.3). -/
def checkpointBytes : List Byte :=
  [0x0F, 0] ++ [0, 0, 0, 0] ++ [1, 0, 0, 0] ++ [0, 0, 0, 0] ++ List.replicate 16 0 ++ [28, 149] ++
    [0x10, 0] ++ [1, 0, 0, 0] ++ [1, 0, 0, 0] ++ [0, 0] ++ List.replicate 18 0 ++ [221, 87]

/-- 12.3: CHECKPOINT_BEGIN and CHECKPOINT_END as written. -/
theorem test_checkpoint_records_as_written :
    slotBytes 0 (.checkpointBegin 1 0) ++ slotBytes 1 (.checkpointEnd 1 0) = checkpointBytes := by decide +kernel

/-- A store whose block 0 holds the first checkpoint. -/
def journaled : State := { part with ready := false, flash := { data := cellsOf 0xFF 0 checkpointBytes, check := [] } }

/-! ## One command each -/

/-- The state after one command. -/
def ran (c : Instr) (s : State) : State :=
  match exec c s with
  | .next t => t
  | .fault _ | .refused _ => s

/-- The payloads of the replies that wait at a port. -/
def replies (p : PortId) (s : State) : List (List Nat) := (s.port p).tx.map fun r => r.payload.map (·.toNat)

/-- R176: power comes on in a part with an erased store. -/
theorem test_power_on_of_an_erased_part : ran (.powerOn 0 []) { State.reset with powered := false } = State.reset := by
  decide +kernel

/-- 8.1, R153: a check bit worn in page 512 makes its first word CORRECTED, and no other word of the store. -/
theorem test_worn_word :
    let f := wearFlash [{ page := 512, fault := { word := 0, data := erasedWord, check := 1 } }] Flash.erased
    classSet .corrected (readPhys f 512) = 1 ∧ pageErased f 513 = true ∧ Memory.wf f = true := by decide +kernel

/-- R1, R2: line 15 moves after its filter width. -/
theorem test_line_moves_after_its_width :
    let s := ran (.filteredLevelChange 15) (atTime 8 (ran (.rawLevelChange 15 true) part))
    s.trig.filtered = 0x8000 ∧ s.trig.latches = 0x8000 := by decide +kernel

/-- R29, R30: a host event with one word, and its record of 25 bytes read back. -/
theorem test_host_event_is_read_back :
    let s := ran (.postEvent .service 5 [0x81, 4, 3, 2, 1]) part
    let t := ran (.readEvents .service 6 [2, 0, 0, 0, 1]) s
    replies .service t = [[0, 0, 1, 2, 0, 0, 0],
      [0, 0, 0, 0, 0, 0, 3, 0, 0, 0, 0, 0, 0, 0, 0, 0, 0, 0, 0, 1, 0, 0, 0,
        2, 0, 0, 0, 0, 0, 0, 0, 0, 0, 0x42, 0x81, 1, 4, 3, 2, 1, 0, 0, 0, 0, 0, 0, 0, 0]] := by
  decide +kernel

/-- R15: 0xFA is clamped to 0x0A; O1 and O3 are lit. -/
theorem test_indicators_are_clamped :
    let s := ran (.driveIndicators .service 1 [0xFA, 0x05]) part
    s.trig.indicators = 0xA ∧ replies .service s = [[0, 1, 0x5A, 0x0A, 0, 0, 0]] := by decide +kernel

/-- R79, R80: a CAPTURE opens capture 1 and is answered OPENED. -/
theorem test_capture_opens_the_first_capture :
    let s := ran (.capture .service 1 []) part
    s.engine.state ≠ .idle ∧ captureNumber s = 1 ∧ replies .service s = [[0, 0, 0, 1, 0, 0, 0]] := by decide +kernel

/-- R106: PFAIL with 12 V begins an episode with the default constants' allowance. -/
theorem test_pfail_begins_an_episode :
    let s := ran (.pfailAssert 12000) part
    s.monitor.state = .holdup ∧ s.monitor.remaining = 97 ∧ s.monitor.episodes = 1 := by decide +kernel

/-- R122: a program can only clear bits. -/
theorem test_program_clears_bits :
    let s := programming ([0x0F, 0xF0] ++ List.replicate 510 0xFF)
    let t := ran (.programComplete []) { s with flash := { data := [(512 * 8191, 0x3C)], check := [] } }
    readByte t.flash (512 * 8191) = 0x0C ∧ readByte t.flash (512 * 8191 + 1) = 0xF0 ∧
      readByte t.flash (512 * 8191 + 2) = 0xFF := by decide +kernel

/-! ## States and operands that meet the hypotheses of the statements -/

theorem test_met_StepRunsTheFrontCommand :
    ({ part with pending := [.takePiece, .takeRecord] } : State).pending = [.takePiece, .takeRecord] := by decide

theorem test_met_IdleTicksAndUnpoweredParts :
    State.reset.pending = [] ∧ ({ part with powered := false } : State).powered = false ∧
      (Instr.takePiece ≠ .powerOn 0 []) ∧ Instr.takePiece.writesPins = false := by decide

theorem test_met_StepKeepsTheStateSound : State.reset.sound = true ∧ ∃ t : State, step State.reset = .next t :=
  ⟨by decide, _, rfl⟩

theorem test_met_CommandsLeaveWhatTheyAreNotNamedFor :
    (∃ t : State, exec .takePiece part = .next t) ∧ Instr.takePiece.writesFlash = false ∧
      Instr.takePiece.writesWorking = false ∧ Instr.takePiece.writesEpoch = false ∧ Instr.takePiece.writesReady = false ∧
      Instr.takePiece.writesPower = false ∧ Instr.takePiece.writesPins = false :=
  ⟨⟨_, rfl⟩, by decide⟩

theorem test_met_SettleRestsWhenQuiet : quiet part = true := by decide

/-- The default filter width of 8 µs: due at 8, not at 7. -/
theorem test_met_RawLevelsAreFiltered :
    part.powered = true ∧ candidateDue 0 (atTime 8 (withCandidate part)) = some true ∧
      candidateDue 0 (atTime 7 (withCandidate part)) = none ∧ part.trig.cands[0] = none ∧
      (withCandidate part).trig.cands[0] = some { level := true, start := 0 } ∧
      reached 8 (after 0 part.settings.filterWidth[0]) = true ∧ reached 7 (after 0 part.settings.filterWidth[0]) = false := by
  decide

theorem test_met_TermsFireAndTheirTimersRunOut :
    State.reset.ready = false ∧ part.ready = true ∧ (part.trig.terms[0]).state ≠ .armed ∧
      ((withTerm armedTerm part).trig.terms[0]).state = .armed ∧ termCondition 0 (withTerm armedTerm part) = false ∧
      termCondition 0 (latched (withTerm armedTerm part)) = true ∧
      ((latched (withTerm armedTerm part)).trig.terms[0]).qualified = false ∧
      ((latched (withTerm { armedTerm with qualified := true } part)).trig.terms[0]).qualified = true := by decide

theorem test_met_TermTimers :
    ((withTerm { armedTerm with state := .fired, rearmAt := some 10 } part).trig.terms[0]).rearmAt = some 10 ∧
      reached 10 10 = true ∧ reached 9 10 = false ∧ (part.trig.terms[0]).rearmAt = none ∧
      (({ part.trig with hostTimer := some 10 } : TrigUnit).hostTimer = some 10) ∧ part.trig.hostTimer = none := by decide

/-- One port that can serve each kind of request. -/
theorem test_met_servable :
    ([kIdentify, kStatus, kAckRestart, kRestart, kReadSettings, kWriteSettings, kStoreSettings, kPostEvent, kReadEvents,
      kCapture, kAbortCapture, kReadLines, kClearLatches, kArm, kDisarm, kDriveIndicators, kReadPlan, kWritePlan, kProbeReach,
      kListCaptures, kReadCapture, kReadHead, kReadSection, kReadErrors, kAckErrors, kHold, kRelease, kDelete, kStageNote,
      kCommitNote, kEraseAll].all fun k => servable .service k part) = true ∧
    servable .management kSetTime part = true ∧ servable .host kPanicNote part = true ∧ servable .host kCapture part = true ∧
    servable .service kIdentify State.reset = true := by decide

theorem test_met_ArmDisarmAndIndicatorsAct : (0xF0 : Byte) = ~~~ 0x0F ∧ (0x0F : Byte) ≠ ~~~ 0x0F := by decide

theorem test_met_RingTakesOrCountsAnEvent :
    (fullRing none).records.length = 1024 ∧ (fullRing none).oldestProtected = false ∧ (fullRing none).lost = 0 ∧
      (fullRing (some 1)).oldestProtected = false ∧ ({ fullRing (some 1) with lost := 1 } : Ring).lost ≠ 0 := by
  decide +kernel

theorem test_met_ring_at_reset_is_consecutive : State.reset.ring.consecutive := by unfold Ring.consecutive; decide

theorem test_met_a_full_ring_may_be_protected :
    (fullRing (some 0)).records.length = 1024 ∧ (fullRing (some 0)).oldestProtected = true := by decide +kernel

/-- Records 0 and 1 held: 1 is held, 2 and 2 + 2^31 - 1 lie ahead, 2 + 2^31 behind; counts 0 and 41 are clamped, 40 is not. -/
theorem test_met_RingRequestsPostAndRead :
    let r := State.reset.ring
    ((1#32 - r.oldest).toNat < r.records.length) ∧ ¬ ((2#32 - r.oldest).toNat < r.records.length) ∧
      (2#32 - r.counter).toNat < 2147483648 ∧ (2147483649#32 - r.counter).toNat < 2147483648 ∧
      ¬ (2147483650#32 - r.counter).toNat < 2147483648 ∧ ¬ (2147483650#32 - r.oldest).toNat < r.records.length ∧
      ([1, 0, 0, 0, 0] : List Byte).length = 5 ∧ leNat [0] = 0 ∧ leNat [40] = 40 ∧ leNat [41] = 41 := by decide

theorem test_met_host_event_lengths :
    ([] : List Byte).length = 0 ∧ (List.replicate 12 (0 : Byte)).length = 12 ∧
      ¬ ((List.replicate 16 (0 : Byte)).length = 12) := by decide

theorem test_met_StreamLineCommandsBuildRecords :
    ((receiving .idle none).streams[0]).rx = .idle ∧
      ((receiving .receiving (some (assembly 0))).streams[0]).assembly = some (assembly 0) ∧
      ((assembly 0).bits = 0 ∧ (assembly 0).held = none) ∧ (assembly 1).bits ≠ 0 ∧
      ((receiving .waitRelease none).streams[0]).rx = .waitRelease ∧ (part.streams[0]).rx = .disabled ∧
      reached 10000 (after (assembly 0).lastEdge 10000) = true ∧
      reached 9999 (after (assembly 0).lastEdge 10000) = false := by decide

/-- A record in assembly with words that leave room for one more, or for none; PAIRED with and without a DA word held. -/
theorem test_met_FramesFillFromTheTopBit :
    let full := fun (n : Nat) (paired : Bool) (held : Option (BitVec 32)) =>
      ({ assembly 0 with words := List.replicate n 0, paired := paired, held := held } : Assembly)
    (assembly 0).word = 0 ∧ (assembly 0).bits = 0 ∧ (List.replicate 32 (true, false)).length = 32 ∧
      (full 255 false none).words.length + [0#32].length ≤ 256 ∧ 256 < (full 256 false none).words.length + [0#32].length ∧
      (full 0 true none).paired = true ∧ (full 0 true none).held = none ∧ (full 0 true (some 5)).held = some 5 ∧
      (full 254 true (some 5)).words.length + [0#32, 0#32].length ≤ 256 ∧
      256 < (full 255 true (some 5)).words.length + [0#32, 0#32].length := by decide +kernel

/-- R33, R37: a PAIRED frame of 8-bit words, DA 0xA5 and DB 0x0F; in a full record its words are dropped and it still counts. -/
theorem test_paired_frame :
    let lanes := fun n : Nat => [(true, false), (false, false), (true, false), (false, false), (false, true), (true, true),
      (false, true), (true, true)].getD n (false, false)
    let clock := fun (b : Assembly) (n : Nat) => b.bit 8 9 (lanes n).1 (lanes n).2
    let sent := fun a : Assembly => ((List.range 8) ++ (List.range 8)).foldl clock { a with paired := true }
    ((sent (assembly 0)).words, (sent (assembly 0)).frameCount, (sent (assembly 0)).truncated) = ([0xA5, 0x0F], 1, false) ∧
      ((sent { assembly 0 with words := List.replicate 255 0, frameCount := 65535 }).truncated = true) ∧
      (sent { assembly 0 with words := List.replicate 255 0, frameCount := 65535 }).frameCount = 65535 := by decide +kernel

/-- 15,540 bytes are held: a record of 844 bytes fits exactly and one of 848 does not. -/
theorem test_met_OfferedRecordEntersAgesOrDrops :
    (((filled none).streams[0]).fifo.map fun x => 12 + 4 * x.containers.length).sum + (12 + 4 * (streamRec 208 0).containers.length)
        = 16384 ∧
      16384 < (((filled none).streams[0]).fifo.map fun x => 12 + 4 * x.containers.length).sum +
        (12 + 4 * (streamRec 209 0).containers.length) ∧
      12 + 4 * (streamRec 256 0).containers.length = 1036 ∧ ((filled none).streams[0]).claim = none ∧
      ((filled (some { capture := 1, count := 1 })).streams[0]).claim = some { capture := 1, count := 1 } ∧
      ((filled (some { capture := 1, count := 1 })).streams[0]).noticed ≠ 1 := by decide +kernel

theorem test_met_FetchAttemptsEndByAnswerOrDeadline :
    (part.fetches[0]).state = .disabled ∧ ((asking 1 0).fetches[0]).state = .asking ∧
      (((asking 1 0).fetches[0]).txn.map fun t => (t.tag, t.count, t.attempt, t.deadline)) = some (7, 1, 1, 10) ∧
      ((asking 1 0).fetches[0]).rx = none ∧ (0xC9 ∉ ([1, 2] : List Byte)) ∧
      (64 : Byte).toNat ≤ 64 ∧ ([5] : List Byte).length = (1 : Byte).toNat ∧ (65 : Byte).toNat > 64 ∧
      reached 10 10 = true ∧ reached 9 10 = false ∧ 1 < 1 + (part.settings.fetch[0]).retries ∧
      ¬ 2 < 1 + (part.settings.fetch[0]).retries ∧ 2 + 1 < 4 ∧ 4 ≤ ((asking 2 3).fetches[0]).failures + 1 ∧
      ((asking 2 3).fetches[0]).region = some region := by decide

/-- A window from 4 to 7: the run of 0 ends before it, the run of 4 with it, and the run of 8 with the range. -/
theorem test_met_RunsEndAtTheFirstChange :
    let w : Window := { enabled := true, space := .config, base := 4, limit := 7, permit := .read }
    let cfg : FetchCfg := { FetchCfg.initial with windows := vset FetchCfg.initial.windows 0 w }
    0 < 12 ∧ runStop cfg .config 0 12 = 4 ∧ runStop cfg .config 4 12 = 8 ∧ runStop cfg .config 8 12 = 12 ∧
      (regionRuns cfg .config 0 12).map (fun r => (r.start, r.len, r.permit)) =
        [(0, 4, .deny), (4, 4, .read), (8, 4, .deny)] := by decide +kernel

/-- R62, log 44: the same window; the run of 4 bytes from 0 ends at the clamped length 4 with mark 0, and before length 5 with mark
1. -/
theorem test_met_probe_ends_at_the_length :
    let w : Window := { enabled := true, space := .config, base := 4, limit := 7, permit := .read }
    let s : State := { part with settings := { part.settings with
      fetch := vmod part.settings.fetch 0 fun g => { g with windows := vset g.windows 0 w } } }
    let probe := fun len : Byte => replies .service (ran (.probeReach .service 1 [0, 0, 0, 0, 0, 0, len, 0, 0, 0]) s)
    probe 4 = [[0, 0, 0xFF, 1, 4, 0, 0, 0, 0]] ∧ probe 5 = [[0, 0, 0xFF, 1, 4, 0, 0, 0, 1]] := by decide +kernel

theorem test_met_probe_operands :
    (3 : Byte).toNat = (3 : Fin 4).val ∧ spaceOfCode (3 : Byte).toNat = some .mailbox ∧ 4 ≤ (4 : Byte).toNat ∧
      (List.replicate 8 (0 : Byte)).length = 8 := by decide

theorem test_met_PlanIsReadAndWritten :
    1 < (2 : Byte).toNat ∧ (47 : Byte).toNat ≤ 47 ∧ 47 < (48 : Byte).toNat ∧ inProgress (inCapture .gathering .note) = true ∧
      (inCapture .gathering .note).engine.capture = some (capture .note) ∧ inProgress part = false := by decide

theorem test_met_plan_writes :
    (parseEntry [1, 0, 0, 0, 1, 0, 3, 0, 0, 0, 0, 0, 0, 1, 0, 0, 1, 0, 1, 0, 7]).isSome = true ∧
      ([1, 0, 0, 0, 1, 0, 3, 0, 0, 0, 0, 0, 0, 1, 0, 0, 1, 0, 1, 0, 7] : List Byte).length = 21 ∧
      (47 : Byte).toNat = (47 : Fin 48).val ∧ 48 ≤ (48 : Byte).toNat ∧
      parseEntry [2, 0, 0, 0, 1, 0, 3, 0, 0, 0, 0, 0, 0, 1, 0, 0, 1, 0, 1, 0, 7] = none ∧ 1 < (2 : Byte).toNat := by decide

/-- Every directory slot holds a capture, held or not. -/
def crowdedSlots (held : Bool) : Vector DirSlot 32 := Vector.ofFn fun i => .entry { entry held 0 with cap := i.val + 1 }

/-- Every capture-area block retired, or allotted to capture 1. -/
def withBlocks (b : BlockState) (s : State) : State := s.onStore fun t => { t with blocks := Vector.replicate 60 b }

theorem test_met_TriggerIsRefusedForTheFirstReason :
    part.engine.state = .idle ∧ part.ready = true ∧
      (part.onEngine fun e => { e with state := .erasing }).engine.state = .erasing ∧
      refusalReason (part.onDir fun d => { d with lastCap := 4294967294 }) = some .numbers ∧
      refusalReason (part.onDir fun d => { d with lastCap := 4294967293 }) = none ∧
      refusalReason (inMonitor .holdup 7 part) = some .power ∧ refusalReason (inMonitor .holdup 8 part) = none ∧
      refusalReason (part.onDir fun d => { d with slots := crowdedSlots true }) = some .full ∧
      refusalReason (part.onDir fun d => { d with slots := crowdedSlots false }) = none ∧
      refusalReason (withBlocks .retired part) = some .full ∧ refusalReason (withBlocks .dirty part) = none ∧
      refusalReason (inMonitor .holdup 8 (withBlocks .dirty part)) = some .full ∧
      refusalReason (inMonitor .holdup 8 (withBlocks .erasing part)) = none ∧
      refusalReason (withBlocks (.allotted 1) (stored false 0 .complete)) = none ∧
      refusalReason (withBlocks (.allotted 1) (stored true 0 .complete)) = some .full := by decide +kernel

theorem test_met_AdmittedTriggerOpensACapture :
    refusalReason part = none ∧ part.dir.slots[(0 : Fin 32)] = .free ∧
      refusalReason (part.onDir fun d => { d with slots := crowdedSlots false }) = none ∧
      (∀ i : Fin 32, (crowdedSlots false)[i] ≠ .free) ∧ (part.streams[0]).claim = none ∧
      0 < streamCount (capture .stream) [freshItem 0] 0 ∧
      (inService .service kCapture 0 .trigger part |>.port .service).service.isSome = true := by decide +kernel

/-- A second entry of the plan that source 9 selects: it joins a walk that entry 0 alone stands in. -/
def twoEntries (kind : SecKind) (s : State) : State :=
  s.onCapture fun c => { c with snapshot := { c.snapshot with entries := vset c.snapshot.entries 1 (planEntry kind) } }

theorem test_met_JoiningTriggerExtendsTheCapture :
    let at' := fun (st : EngState) (ph : Phase) (r : RetainTimer) =>
      (twoEntries .stream (inCapture st .note)).onEngine fun e => { e with phase := ph, retainTimer := r }
    (at' .opening .openSlot .stopped).engine.phase = .openSlot ∧ (at' .gathering .gather (.running 5)).engine.phase ≠ .openSlot ∧
      (at' .gathering .gather (.running 5)).engine.retainTimer = .running 5 ∧
      (∀ t : PartTime, (at' .gathering .gather .ranOut).engine.retainTimer ≠ .running t) ∧
      ((twoEntries .stream (inCapture .opening .note)).engine.capture.map fun c =>
        addedEntries c.snapshot [freshItem 0] 9) = some [1] ∧
      State.reset.ready = false ∧ State.reset.engine.state = .idle ∧
      (State.reset.onEngine fun e => { e with pendingPower := true }).engine.pendingPower = true := by
  refine ⟨by decide, by decide, by decide, fun t => ?_, by decide +kernel, by decide, by decide, by decide⟩
  exact fun h => by cases h

/-- R83: entry 1 joins behind the cursor's entry 0, its channel is claimed, and the line that both name counts two. -/
theorem test_trigger_joins :
    let s := (twoEntries .stream (inCapture .gathering .note)).onEngine fun e => { e with retainTimer := .running 5 }
    let u := trigger 9 .monitor s
    (u.engine.capture.map fun c => (c.walk.map fun i => i.entry, c.trig)) = some ([0, 1], 0x600) ∧
      (u.streams[0]).claim = some { capture := 1, count := 1 } ∧ u.engine.retain = 1 ∧ u.engine.retainCount[0] = 1 := by
  decide +kernel

/-- Capture 1 closing: in the directory, its retain line asserted, an ABORT_CAPTURE waiting. -/
def closing : State :=
  let s := (stored false 0 .complete).onEngine fun e =>
    { e with state := .closing, phase := .closeWait, capture := some (capture .stream), retain := 1 }
  inService .service kAbortCapture 3 (.close 1) s

def closeRecord : Slotted :=
  { block := 0, slot := 2, seq := 2, record := .captureClose 1 .aborted 7 0x600 (some 0), who := .engine, flying := true }

theorem test_met_SectionsAndCapturesEnd :
    closeRecord.who = .engine ∧ closeRecord.record = .captureClose (capture .stream).number .aborted 7 0x600 (some 0) ∧
      closing.engine.capture = some (capture .stream) ∧ findEntry closing.dir 1 = some (entry false 0) ∧
      ((closing.port .service).service.map fun r => r.wait) = some (.close 1) ∧
      closing.engine.retain.getLsbD 0 = true ∧ closing.engine.retainCount[(0 : Fin 8)] - 1 = 0 := by decide +kernel

/-- R102: the close of capture 1 posts RETAIN_RELEASED and CAPTURE_CLOSED with its two pages and answers the abort. -/
theorem test_capture_closes :
    let u := recordAccepted closeRecord closing
    u.engine.state = .idle ∧ (u.ring.records.drop 2).map (fun r => (r.kind, r.args)) = [(9, [1, 0]), (7, [1, 5, 2])] ∧
      replies .service u = [[0, 0, 1, 0, 0, 0, 5]] := by decide +kernel

theorem test_met_JournalRecordsTakeEffect :
    part.dir.comp.state = .none ∧ ({ Compaction.initial with state := .writing } : Compaction).state ≠ .none ∧
      findEntry (stored false 0 .complete).dir 1 = some (entry false 0) ∧
      sectionPlace (stored false 0 .complete).dir 1 0 = some 0 ∧ sectionPlace (stored false 0 .complete).dir 1 1 = some 1 ∧
      (JRec.hold 1).names = some 1 ∧ findEntry part.dir 1 = none ∧ (1 : Nat) ≠ 2 ∧ 1 ≤ (entry false 0).blocks.length ∧
      part.dir.slots[(0 : Fin 32)] = .free ∧ (setSlot 1 (.reserved 7) part.dir).slots[(1 : Fin 32)] = .reserved 7 ∧
      (setSlot 1 (.reserved 7) part.dir).slots[(0 : Fin 32)] ≠ .reserved 7 := by decide +kernel

/-- The retired-page table with `n` pages of block 5. -/
def withRetired (n : Nat) (s : State) : State := s.onStore fun t => { t with retPages := (List.range n).map (640 + ·) }

/-- Pages 900 and 20 fail with 255 and 256 entries in the table; block 4 is erased, and its capture removed. -/
theorem test_met_RetirementsAndBlockStates :
    640 ∈ (withRetired 1 part).store.retPages ∧ 900 ∉ (withRetired 255 part).store.retPages ∧
      (withRetired 255 part).store.retPages.length < 256 ∧ 256 ≤ (withRetired 256 part).store.retPages.length ∧
      900 ∉ (withRetired 256 part).store.retPages ∧ 900 / 128 = 4 + (3 : Fin 60).val ∧
      20 ∉ (withRetired 256 part).store.retPages ∧ 20 / 128 < 4 ∧ 64 ≤ 8192 / 128 ∧ journalRoom part = true ∧
      journalRoom (part.onDir fun d => { d with nextSlot := 2048 }) = false ∧
      (withBlocks .erasing part).store.blocks[(0 : Fin 60)] = .erasing ∧ ordinaryOk part = true ∧
      part.store.blocks[(0 : Fin 60)] = .free ∧ findEntry (stored false 0 .complete).dir (entry false 0).cap = some (entry false 0) ∧
      (stored false 0 .complete).integ.reloc = none := by decide +kernel

/-- R124, R125: the same failure retires the page, or its block once the table is full. -/
theorem test_failure_retires_page_or_block :
    let u := retireForProgram 900 (withRetired 255 part)
    let v := retireForProgram 900 (withRetired 256 part)
    u.store.retPages.length = 256 ∧ u.store.retBlocks = [] ∧ v.store.retPages.length = 256 ∧
      v.store.retBlocks = [(7, .programFail)] ∧ v.store.blocks[(3 : Fin 60)] = .retired := by decide +kernel

/-- A word read with a class. -/
def wordRead (c : WordClass) : WordRead := { data := 0, cls := c }

theorem test_met_PagesAreTakenAndRelocated :
    (([wordRead .clean, wordRead .poisoned, wordRead .corrected].filter fun w => w.cls = .corrected).length ≠ 0) ∧
      [wordRead .clean, wordRead .poisoned, wordRead .corrected][2]? = some (wordRead .corrected) ∧
      part.integ.error = none ∧ (512 ∉ part.integ.scrub) ∧ ¬ 8 ≤ part.integ.scrub.length ∧
      8 ≤ (part.onInteg fun g => { g with scrub := List.range 8 }).integ.scrub.length ∧
      ownerOf (stored false 0 .complete).dir 512 = some (entry false 0) := by decide +kernel

/-- R154, R161, R164: one CORRECTED and one POISONED word of page 512 in a retrieval. -/
theorem test_page_is_taken :
    let u := takePage .retrieve 512 512 [wordRead .clean, wordRead .poisoned, wordRead .corrected] part
    (u.integ.error.map fun r => (r.kind, r.word)) = some (.corrected, 2) ∧ u.integ.overflow = true ∧ u.integ.scrub = [512] ∧
      u.integ.corrected = 1 ∧ u.integ.poisoned = 1 ∧ (u.ring.records.drop 2).map (fun r => r.kind) = [0x14, 0x15] := by
  decide +kernel

theorem test_met_StepKeepsTheBuffersBounded : State.reset.bounded ∧ ∃ t : State, step State.reset = .next t := by
  refine ⟨⟨by decide, by unfold Ring.consecutive; decide, fun ch => ?_⟩, _, rfl⟩
  exact ⟨by revert ch; decide, fun a h => by revert ch; simp [State.reset, StreamChan.start]⟩

/-- The four EMPTY buffers have room for 2,048 bytes. -/
theorem test_met_EngineTakesPiecesAndRecords :
    (takingSection .fetch (withPiece 64)).isSome = true ∧ ((withPiece 64).fetches[0]).piece.isSome = true ∧
      ((withPiece 64).fetches[0]).region = some region ∧ roomNow (withPiece 64) = 2048 ∧ roomNow (crowded (withPiece 64)) = 0 ∧
      takingSection .fetch part = none ∧ (takingSection .stream (withRecord 5)).isSome = true ∧
      32 = section0.dataSoFar + (streamRec 5 0).size ∧ 32 < section0.dataSoFar + (streamRec 6 0).size ∧
      roomNow (crowded (withRecord 5)) < (streamRec 5 0).size ∧
      (takingSection .stream (inCapture .gathering .stream)).isSome = true ∧
      ((inCapture .gathering .stream).streams[0]).fifo = [] ∧ takingSection .stream part = none := by decide +kernel

/-- R59, R58: gaps that join the last one or do not, and runs of either permit to go on with. -/
theorem test_met_pieces_and_runs :
    let gap := fun r : GapReason => ({ section0 with gaps := [{ offset := 0, len := 0, reason := r }] } : Section).gaps.getLast?
    let run := fun p : Permit => ({ start := 0, len := 65, window := none, permit := p } : Run)
    gap .denied = some { offset := section0.img + section0.toPlace.length - 32, len := 0, reason := .denied } ∧
      gap .unreadable = some { offset := 0, len := section0.img + section0.toPlace.length - 32, reason := .unreadable } ∧
      section0.gaps.getLast? = none ∧ (part.fetches[0]).region = none ∧ region.runs = [] ∧
      (run .deny).permit = .deny ∧ (run .read).permit = .read ∧ ¬ (run .read).len < 64 ∧ ¬ (run .read).len ≤ 64 := by decide +kernel

theorem test_met_EngineTimersRunOut :
    (quietSection (inCapture .gathering .stream)).isSome = true ∧ reached 1000 (after 0 (1000 * 1)) = true ∧
      reached 999 (after 0 (1000 * 1)) = false ∧ reached 1000000 (after 0 (1000000 * 1)) = true ∧
      reached 999999 (after 0 (1000000 * 1)) = false ∧ quietSection part = none ∧
      ({ Engine.initial with retainTimer := .running 10, retain := 1 } : Engine).retain ≠ 0 ∧ Engine.initial.retain = 0 ∧
      Engine.initial.retainTimer = .stopped := by decide +kernel

theorem test_met_EngineRequestsAct :
    part.trig.hostTimer = none ∧ (current (inCapture .gathering .note)).isSome = true ∧
      (current (inCapture .opening .note)).isSome = true ∧ (current (inCapture .closing .note)).isSome = true ∧
      (capture .note).number = 1 ∧ (inMonitor .exhausted 0 (inCapture .closing .note)).monitor.state = .exhausted ∧
      current part = none := by decide

theorem test_met_AllowanceArithmetic :
    9000 ≤ Settings.initial.vmin ∧ Settings.initial.cuf ≤ 65000 ∧ 3000 ≤ Settings.initial.vmin ∧
      Settings.initial.eff ≤ 100 ∧ 1 ≤ Settings.initial.epage := by decide

theorem test_met_EpisodesBeginEndAndAreResampled :
    part.monitor.state = .normal ∧ (inMonitor .recovering 7 part).monitor.state = .recovering ∧
      (inMonitor .holdup 7 part).monitor.state = .holdup ∧ (inMonitor .exhausted 0 part).monitor.state = .exhausted := by decide

theorem test_met_episode_timers :
    ((inMonitor .recovering 7 part).onMonitor fun m => { m with debounceAt := some 10 }).monitor.debounceAt = some 10 ∧
      reached 10 10 = true ∧ reached 9 10 = false ∧
      resampleDue ((inMonitor .holdup 7 part).onMonitor fun m => { m with sinceVh := 32 }) = true ∧
      resampleDue ((inMonitor .recovering 7 part).onMonitor fun m => { m with sinceVh := 32 }) = true ∧
      resampleDue ((inMonitor .holdup 7 part).onMonitor fun m => { m with sinceVh := 31 }) = false := by decide

theorem test_met_HoldupTestsAndDraws :
    programMayStart false (inMonitor .holdup 7 part) = true ∧ programMayStart false (inMonitor .holdup 6 part) = false ∧
      programMayStart true (inMonitor .recovering 1 part) = true ∧ programMayStart true (inMonitor .recovering 0 part) = false ∧
      closeUnpaid (inMonitor .holdup 5 (inCapture .gathering .note)) = true ∧ closeUnpaid part = false := by decide

theorem test_met_AllowanceNeverRisesInAnEpisode :
    (inMonitor .holdup 7 part).monitor.state ≠ .normal ∧ (inMonitor .holdup 7 part).pending = [] ∧
      ∃ t : State, step (inMonitor .holdup 7 part) = .next t ∧ t.powered = true ∧ t.monitor.state ≠ .normal :=
  ⟨by decide, by decide, _, rfl, by decide, by decide⟩

theorem test_met_OperationsChangeTheirOwnCells :
    (programming []).store.flight = some (.program .settings 8191 []) ∧ (8191 < 8192) ∧
      erasing.store.flight = some (.erase .settings 63) ∧
      (∃ t : State, exec (.programComplete []) (programming []) = .next t) ∧
      (∃ t : State, exec (.eraseComplete []) erasing = .next t) :=
  ⟨by decide, by decide, by decide, ⟨_, rfl⟩, ⟨_, rfl⟩⟩

/-- A program of all ones is verified; one of zeros whose first word came out all ones fails at word 0. -/
theorem test_met_CompletionsHandOnTheVerify :
    verifyFails 8191 (List.replicate 512 0xFF) Flash.erased = none ∧
      verifyFails 8191 (List.replicate 512 0) (programPage 8191 (List.replicate 512 0)
        [{ word := 0, data := BitVec.allOnes 64, check := 0 }] Flash.erased) = some 0 ∧ part.store.flight = none := by
  decide +kernel

theorem test_met_StoreStartsItsNextOperation :
    (programming []).store.flight ≠ none ∧ part.store.flight = none ∧ resampleDue part = false ∧ restartDue part = false ∧
      journalPage (slotted part).dir = some 0 ∧ targetRetired (slotted part) 0 = false ∧
      programMayStart ((carried 0 (slotted part).dir).any closeClass) (slotted part) = true ∧ journalPage part.dir = none ∧
      (enqueue (.erase .area 4) part).store.queue.find? (startable part) = some (.erase .area 4) ∧
      (jobOf (.commit .service) (withPad false false (stored false 0 .complete))).isSome = true ∧
      startable (withPad false false (stored false 0 .complete)) (.commit .service) = true ∧
      part.store.queue.find? (startable part) = none ∧
      relocatable ((stored false 0 .complete).onInteg fun g => { g with scrub := [512] }) = some 512 ∧
      relocatable part = none := by decide +kernel

/-- The capture's section with a page in flight and two that wait, the second in a block still to be allotted. -/
def threePages : State :=
  ((inCapture .gathering .note).onCapture fun c => { c with nextPage := 129 }).onEngine fun e =>
    { e with bufs := vset (vset (vset e.bufs 0 { Buf.initial with state := .programming, page := 126 })
        1 { Buf.initial with state := .queued, page := 127 }) 2 { Buf.initial with state := .filling, page := 128 } }

/-- A relocation whose copy waits for its program. -/
def relocating : State := part.onInteg fun g =>
  { g with nextPool := 1, reloc := some { page := 512, content := [], poisoned := 0, pool := 0, step := .queued } }

/-- The refused and the failed choices, and what each request needs. -/
theorem test_met_StoreRefusesAndFails :
    targetRetired ((slotted part).onStore fun t => { t with retPages := [0] }) 0 = true ∧
      programMayStart ((carried 0 (slotted part).dir).any closeClass) (inMonitor .holdup 6 (slotted part)) = false ∧
      journalPage (enqueue .relocation relocating).dir = none ∧
      (enqueue .relocation relocating).store.queue.find? (startable (enqueue .relocation relocating)) = some .relocation ∧
      (jobOf .relocation relocating).map (fun j => j.page) = some 385 ∧ (384 + 1 ∉ relocating.store.retPages) ∧
      targetRetired (relocating.onStore fun t => { t with retPages := [385] }) 385 = true ∧
      programMayStart false (inMonitor .holdup 6 relocating) = false ∧
      (threePages.onBuf 1 fun b => { b with flush := true }).engine.bufs[1].flush = true ∧
      (threePages.engine.bufs[1]).flush = false ∧
      (ran (.storeSettings .service 0 []) part).link.store.isSome = true ∧ threePages.engine.capture.isSome = true ∧
      (threePages.engine.capture.bind fun c => c.current) = some section0 ∧ threePages.engine.phase.recording = false ∧
      (jobOf (.buf 1) threePages).map (fun j => j.page) = some 639 ∧ jobOf (.buf 2) threePages = none := by decide +kernel

/-- R149, R176: the pages that a commit and a settings program go to. -/
theorem test_met_commit_and_settings_jobs :
    let s := withPad false false (stored false 0 .complete)
    let t := eraseHanded .settings true (ran (.storeSettings .service 0 []) part)
    (s.port .service).pad.target = some (1, 3) ∧ findEntry s.dir 1 = some (entry false 0) ∧
      (entry false 0).head.bind (physOf (entry false 0).blocks) = some 512 ∧
      (jobOf (.commit .service) s).map (fun j => (j.page, j.content.drop 392)) = some (512, 0x41 :: List.replicate 119 0xFF) ∧
      t.link.store.map (fun op => op.step) = some (.programming 256 0) ∧ (jobOf .settings t).map (fun j => j.page) = some 256 ∧
      jobOf .settings (ran (.storeSettings .service 0 []) part) = none ∧
      commitSource .service s = some 512 := by decide +kernel

/-- R112: the last page in an allotted block becomes the final flush, the one in the next block is dropped. -/
theorem test_refused_program_leaves_the_final_flush :
    (powerClose threePages).engine.bufs.toList.map (fun b => (b.state, b.flush)) =
      [(.programming, false), (.filling, true), (.empty, false), (.empty, false)] ∧
      ((powerClose threePages).engine.capture.bind fun c => c.current.map fun x => x.pages) = some (some 127) := by
  decide +kernel

theorem test_met_PowerLossTearsWithinBounds :
    part.powered = true ∧ (programming []).store.flight = some (.program .settings 8191 []) ∧
      erasing.store.flight = some (.erase .settings 63) := by decide

theorem test_met_StartUpTakesTheResetValues :
    (restarting true).link.restart = some { port := .service, force := false, sent := true } ∧
      (restarting true).store.flight = none ∧ part.link.restart = none ∧
      (restarting false).link.restart = some { port := .service, force := false, sent := false } := by decide

set_option maxRecDepth 16000 in
/-- R176: an image as it is stored is good, and carries the settings; an erased position holds none. -/
theorem test_settings_image_is_good :
    let image := padTo 0xFF 2048 (settingsImage { Settings.initial with retainTime := 7 } Plan.initial)
    imageGood image = true ∧ (imageSettings image).retainTime = 7 ∧ positionGood Flash.erased 31 = false := by decide +kernel

theorem test_met_StartUpReplaysOrFormatsTheJournal :
    part.ready = true ∧ State.reset.ready = false ∧ formatted State.reset = false ∧
      formatted ({ State.reset with dir := { Directory.initial with gen := 1 } }) = true := by decide

theorem test_met_replay_of_an_erased_store_finds_no_checkpoint : chosenBlock Flash.erased = none := by decide +kernel

theorem test_met_replay_of_a_formatted_store_finds_its_checkpoint :
    chosenBlock journaled.flash = some (0, { gen := 1, slot := 0, seq := 0, last := 0 }) ∧ formatted journaled = false := by
  decide +kernel

theorem test_met_format_of_an_erased_store :
    State.reset.powered = true ∧ State.reset.ready = false ∧ formatted State.reset = false ∧
      State.reset.monitor.state = .normal := by decide

/-- The part's directory with a compaction in a state and the next slot at `next`. -/
def compacting (st : CompState) (next : Nat) : State :=
  part.onDir fun d => { d with nextSlot := next, pending := [(.hold 1, .engine)], comp := { Compaction.initial with state := st } }

theorem test_met_CompactionRewritesTheJournal :
    (part.onDir fun d => { d with nextSlot := 1985 }).dir.comp.state = .none ∧ 2048 - 1985 < 64 ∧ ¬ 2048 - 1984 < 64 ∧
      part.monitor.state = .normal ∧ part.dir.eraseAll = none ∧ part.dir.comp.paused = false ∧
      (ran (.eraseAll .service 0 []) part).dir.eraseAll.isSome = true ∧ (compacting .clearing 9).dir.comp.state ≠ .none ∧
      (compacting .clearing 9).dir.slotted = [] ∧ (slotted (compacting .clearing 9)).dir.slotted ≠ [] ∧
      (compacting .clearing 9).dir.comp.eraseQueued = false ∧ (compacting .writing 9).dir.comp.state = .writing ∧
      (setEraseStep .checkpoint (ran (.eraseAll .service 0 []) part)).dir.eraseAll.map (fun e => e.step) = some .checkpoint ∧
      (compacting .writing 9).dir.comp.all = false := by decide +kernel

/-- R140, R141: a snapshot passes over the other block's first page; with no page of it left the pending record returns. -/
theorem test_snapshot_is_placed_or_abandoned :
    let bad := fun n : Nat => (compacting .clearing 2000).onStore fun t => { t with retPages := (List.range n).map (128 + ·) }
    (eraseHanded .journal true (bad 1)).dir.slotted.map (fun x => (x.block, x.slot)) = [(1, 16), (1, 17), (1, 18)] ∧
      (eraseHanded .journal false (bad 128)).dir.slotted.map (fun x => (x.block, x.slot, x.record)) = [(0, 2000, .hold 1)] ∧
      (eraseHanded .journal false (bad 128)).dir.comp.paused = true := by decide +kernel

/-- R139: one record moves on to the next page, or has none to go to. -/
theorem test_met_records_move_on :
    (slotted part).dir.slotted ≠ [] ∧
      (moveOn [0] 0 (slotted part).dir).slotted.map (fun x => x.slot) = [16] ∧
      (moveOn [127] 127 (slotted part).dir).pending.length = 1 := by decide +kernel

theorem test_met_RequestsAreTakenInOrder :
    (Instr.unknownKind .service 0x22 0 []).request? = some (.service, 0x22, 0, []) ∧
      (Instr.unknownKind .service 0x22 0 []).wellFormed = true ∧ (busy.port .service).service.isSome = true ∧
      (part.port .service).service = none ∧ admission 0x22 = none ∧ admission kEraseAll ≠ none ∧
      admits kEraseAll (portLevel .management part) = false ∧ admits kHold (portLevel .service part) = true ∧
      kHold ≠ kIdentify ∧ kHold ≠ kStatus ∧ State.reset.ready = false := by decide

theorem test_met_wrong_length_is_refused :
    (Instr.arm .service 0 [1, 2]).request? = some (.service, kArm, 0, [1, 2]) ∧ soleLength kArm = some 1 ∧
      (Instr.arm .service 0 [1, 2]).wellFormed = true ∧ ([1, 2] : List Byte).length ≠ 1 := by decide

theorem test_met_IdentifyAndStatusReport :
    (statusGroup 0 .service part).isSome = true ∧ (statusGroup 7 .service part).isSome = true ∧
      statusGroup 8 .service part = none := by decide +kernel

theorem test_met_AckRestartAndRestartAct :
    1 < (2 : Byte).toNat ∧ (1 : Byte).toNat ≤ 1 ∧ part.dir.eraseAll = none ∧ part.link.store = none ∧ current part = none ∧
      part.link.restart = none ∧ (inMonitor .holdup 7 part).monitor.state ≠ .normal ∧
      inProgress (inCapture .gathering .note) = true ∧ (inCapture .gathering .note).monitor.state = .normal := by decide

theorem test_met_ReadSettingsReportsWorkingValues :
    itemKnown 1 15 = true ∧ itemKnown 30 0 = true ∧ itemKnown 1 16 = false ∧ itemKnown 31 0 = false := by decide

theorem test_met_WriteSettingsTakesAllItemsOrNone :
    itemsRefused (itemsOf [8, 0, 60, 0, 0, 0]) part = none ∧ itemsRefused (itemsOf [31, 0, 0, 0, 0, 0]) part = some .badValue ∧
      itemsRefused (itemsOf [11, 0, 1, 0, 0, 0]) (inCapture .gathering .note) = some .refusedState ∧
      itemsRefused (itemsOf [11, 0, 2, 0, 0, 0]) part = some .badValue ∧
      itemsRefused (itemsOf [19, 0, 4, 0, 0, 0]) part = some .badValue ∧
      itemsRefused (itemsOf [20, 0, 1, 0, 0, 0]) part = some .badValue ∧
      itemsRefused (itemsOf [20, 0, 1, 0, 0, 0, 21, 0, 1, 0, 0, 0]) part = none ∧
      (List.replicate 6 (0 : Byte)).length % 6 = 0 := by decide +kernel

theorem test_met_StoreSettingsAndEraseAllWait :
    part.monitor.state = .normal ∧ part.dir.eraseAll = none ∧ part.link.store = none ∧ inProgress part = false ∧
      (inMonitor .holdup 7 part).monitor.state ≠ .normal ∧ inProgress (inCapture .gathering .note) = true ∧
      (ran (.storeSettings .service 0 []) part).link.store ≠ none ∧
      (ran (.eraseAll .service 0 []) part).engine.state = .erasing ∧
      (∀ k : Fin 32, ∀ j : Fin 4, 256 + 4 * k.val + j.val ∉ part.store.retPages) ∧
      (∀ k : Fin 32, 256 + 4 * k.val + 3 ∈ (List.range 32).map fun k => 256 + 4 * k + 3) := by decide +kernel

theorem test_met_ReportsAndHeadPages :
    findEntry (stored false 0 .complete).dir (leNat [1, 0, 0, 0]) = some (entry false 0) ∧
      findEntry part.dir (leNat [1, 0, 0, 0]) = none ∧
      (shown (stored false 0 .complete) (entry false 0)).head.bind (physOf (entry false 0).blocks) = some 512 ∧
      (shown part { entry false 0 with head := none }).head.bind (physOf (entry false 0).blocks) = none := by decide +kernel

theorem test_met_ReadSectionServesTheImage :
    sectionNumbered (stored false 0 .complete).dir (entry false 0) 1 = none ∧
      sectionNumbered (stored false 0 .complete).dir (entry false 0) 0 = some (secEntry .complete) ∧
      sectionNumbered (stored false 0 .inProgress).dir (entry false 0) 0 = some (secEntry .inProgress) ∧
      imageLength (stored false 0 .complete) (shown (stored false 0 .complete) (entry false 0)) (secEntry .complete) = 56 ∧
      imageLength (stored false 0 .aborted) (shown (stored false 0 .aborted) (entry false 0)) (secEntry .aborted) = 56 ∧
      imageLength part (entry false 0) { secEntry .skippedAbort with pages := 0 } = 0 ∧
      imagePages (stored false 0 .complete) (shown (stored false 0 .complete) (entry false 0)) (secEntry .complete) = [1] := by
  decide +kernel

theorem test_met_HoldReleaseDeleteAreCheckedAndWait :
    holdRefused 1 part = some .notFound ∧ holdRefused 1 (stored false 0 .complete) = none ∧
      holdRefused 1 (slotted (stored false 0 .complete)) = some .inProgress ∧
      holdRefused 1 (inMonitor .exhausted 0 (stored false 0 .complete)) = some .holdup ∧
      (stored false 0 .complete).engine.state ≠ .erasing ∧ (stored false 0 .complete).monitor.state ≠ .exhausted ∧
      findEntry (stored false 0 .complete).dir 1 ≠ none ∧ recordsOnWay (stored false 0 .complete) = [] ∧
      committingCap 1 (ran (.commitNote .service 1 [1, 0, 0, 0, 3, 0, 0]) (withPad false false (stored false 0 .complete))) = true ∧
      heldCount (stored true 0 .complete).dir + holdsPending (stored true 0 .complete) < 16 ∧
      isHeld 1 (stored true 0 .complete) = true ∧ isHeld 1 (stored false 0 .complete) = false ∧
      isCurrent 1 (stored false 0 .complete) = false ∧ committingCap 1 (stored false 0 .complete) = false ∧
      isCurrent 1 (inCapture .gathering .note) = true := by decide +kernel

/-- Captures 1 to 16, all held. -/
def sixteen : Vector DirSlot 32 :=
  Vector.ofFn fun i => if i.val < 16 then .entry { entry true 0 with cap := i.val + 1 } else .free

theorem test_met_sixteen_captures_are_held :
    let s := part.onDir fun d => { d with slots := sixteen }
    heldCount s.dir + holdsPending s = 16 ∧ holdRefused 1 s = none := by decide +kernel

theorem test_met_NotesAreStagedAndCommitted :
    (readHeadPage (stored false 0 .complete) (shown (stored false 0 .complete) (entry false 0))).isSome = true ∧
      otherCommit .service 1 3 (stored false 0 .complete) = false ∧ (entry false 8).slots.getLsbD 3 = true ∧
      (entry false 0).slots.getLsbD 3 = false ∧ (3 : Byte).toNat < 4 ∧
      ((withPad false false (stored false 0 .complete)).port .service).pad.target = some (1, 3) ∧
      (0 : Byte).toNat = ((withPad false false part).port .service).pad.text.length - 1 ∧
      ((withPad true false part).port .service).pad.pf = true ∧ ((withPad false true part).port .service).pad.locked = true ∧
      ((withPad false false part).port .service).pad.gone = false ∧ findEntry part.dir 1 = none ∧
      ((forgetNumbers (withPad false false part)).port .service).pad.gone = true ∧
      deletePending 1 (stored false 0 .complete) = false ∧
      slotUsedNow (stored false 0 .complete) (entry false 0) 3 = false := by decide +kernel

/-- R148, R149: what the refusals of STAGE_NOTE and COMMIT_NOTE need. -/
theorem test_met_note_refusals :
    let s := stored false 0 .complete
    let committing' := ran (.commitNote .service 1 [1, 0, 0, 0, 3, 0, 0]) (withPad false false s)
    ([1, 0, 0, 0] : List Byte).length < 5 ∧ 4 ≤ (4 : Byte).toNat ∧ (ran (.eraseAll .service 0 []) part).engine.state = .erasing ∧
      findEntry part.dir 1 = none ∧ (shown s { entry false 0 with head := none }).head = none ∧
      PortId.service ≠ .management ∧ committing .service committing' = some (1, 3) ∧
      otherCommit .management 1 3 committing' = true ∧ servable .management kStageNote committing' = true ∧
      isCurrent 1 (inCapture .gathering .note) = true ∧ (inMonitor .exhausted 0 s).monitor.state = .exhausted ∧
      deletePending 1 (s.onDir fun d => { d with pending := [(.delete 1 .delete, .port .service)] }) = true := by decide +kernel

/-- The stored capture with a program of its head page in flight. -/
def flyingHead : State :=
  (stored false 0 .complete).onStore fun t => { t with flight := some (.program (.commit .service) 512 []) }

/-- READ_HEAD of the stored capture as it waits for that program. -/
def waitingHead : State :=
  flyingHead.onPort .host fun q =>
    { q with service := some { kind := kReadHead, tag := 1, level := .host, wait := .read [1, 0, 0, 0] } }

theorem test_met_readsWaitForAProgram :
    headFlying flyingHead (shown flyingHead (entry false 0)) = true ∧
      headFlying (stored false 0 .complete) (shown (stored false 0 .complete) (entry false 0)) = false ∧
      findEntry flyingHead.dir 1 = some (entry false 0) ∧ servable .service kReadHead flyingHead = true ∧
      servable .service kStageNote flyingHead = true ∧ servable .service kCommitNote flyingHead = true := by decide +kernel

theorem test_readHeadResumes :
    (waitingHead.port .host).service.isSome = true ∧ ((resumeReads waitingHead).port .host).service = none ∧
      ((resumeReads waitingHead).port .host).tx.length = 1 := by decide +kernel

/-- The stored capture with an erase of its block in flight, and a section of two pages. -/
def erasingBlock : State :=
  (stored false 0 .complete).onStore fun t => { t with flight := some (.erase .area 4) }

def twoPages : SecEntry := { secEntry .complete with len := 600, pages := 2 }

/-- R129, R160: the head page, a page read, and the page to be read ahead alone; a page that the buffer holds, and no operation. -/
theorem test_met_readsWaitForAnErase :
    let e := entry false 0
    let flying := fun page : Nat => (stored false 0 .complete).onStore fun t => { t with flight := some (.program .relocation page []) }
    let held := setAhead .service (some { cap := 1, sec := 0, lpage := 1, ppage := 513, words := [] }) (flying 513)
    headFlying erasingBlock (shown erasingBlock e) = true ∧ servable .service kReadSection erasingBlock = true ∧
      imagePages part e twoPages = [1, 2] ∧ sectionWaits .service e twoPages 0 8 erasingBlock = true ∧
      sectionWaits .service e twoPages 0 8 (flying 514) = true ∧ sectionWaits .service e twoPages 0 8 (flying 513) = true ∧
      sectionWaits .service e twoPages 0 8 held = false ∧ sectionWaits .service e twoPages 0 8 (flying 515) = false ∧
      sectionWaits .service e twoPages 0 8 (stored false 0 .complete) = false := by decide +kernel

/-- R129: READ_SECTION of a block under erase waits; with no operation left it is answered with what the pages then hold. -/
theorem test_readSectionResumes :
    let s := ran (.readSection .service 1 [1, 0, 0, 0, 0, 0, 0, 0, 0, 8, 0]) erasingBlock
    let t := resumeReads (s.onStore fun x => { x with flight := none })
    waitOf .service s = .read [1, 0, 0, 0, 0, 0, 0, 0, 0, 8, 0] ∧ (s.port .service).tx = [] ∧
      (t.port .service).service = none ∧
      (replies .service t).map (fun r => r.drop (r.length - 8)) = [List.replicate 8 0xFF] := by decide +kernel

/-- R129, R162: a relocation of a page whose block is under erase starts, and reads it when no operation is left. -/
theorem test_met_relocationWaits :
    let s := ran .relocationStart (erasingBlock.onInteg fun g => { g with scrub := [512] })
    s.integ.reloc.map (fun r => (r.page, r.step)) = some (512, .reading) ∧ pageBusy s (mapped s.dir.map 512) = true ∧
      ((readSource 512 s).integ.reloc.map fun r => (r.step, r.content)) = some (.needPage, List.replicate 512 0xFF) := by
  decide +kernel

/-- R138: a BLOCK_LIST behind the end of the list, its snapshot records, and a block of it at the rebuild; a full directory. -/
theorem test_met_blockListLeavesPlaces :
    let d := recordEffect (.blockList 1 3 [6, 7]) (stored false 0 .complete).dir
    let full : Directory := { part.dir with slots := Vector.replicate 32 (.entry (entry false 0)) }
    ((findEntry d 1).map fun e => (e.blocks, blockLists e)) =
        some ([some 4, none, none, some 6, some 7], [.blockList 1 0 [4], .blockList 1 3 [6, 7]]) ∧
      physOf [some 4, none, none, some 6] 128 = none ∧ physOf [some 4, none, none, some 6] 385 = some 769 ∧
      rebuiltBlock { part with dir := d } 7 = .allotted 1 ∧
      (∀ j : Fin 32, full.slots[j] ≠ .reserved 2) ∧ (∀ j : Fin 32, full.slots[j] ≠ .free) := by decide +kernel

/-- R167: noise, then an IDENTIFY with tag 7, byte for byte; with a wrong last byte; and a bad length that starts a frame. -/
theorem test_bytes_are_received :
    receiveBytes none [0x00, 0xD3, 2, 0, 1, 7, 0x81, 0xD5] = (none, .frame 1 7 []) ∧
      receiveBytes none [0x00, 0xD3, 2, 0, 1, 7, 0x81, 0xD4] = (none, .badCrc) ∧
      receiveBytes none [0xD3, 0xFF, 0xD3] = (some [0xD3], .badLength) ∧
      receiveBytes (some [0xD3, 2]) [0, 1] = (some [0xD3, 2, 0, 1], .nothing) ∧
      requestFrame 1 7 [] = [0xD3, 2, 0, 1, 7, 0x81, 0xD5] := by decide +kernel

/-- R49: the request of tag 7 for 64 bytes of TRACE at 0x12345678, byte for byte. -/
theorem test_request_message :
    requestMessage 7 .trace 0x12345678 64 = [0xC6, 7, 2, 0x78, 0x56, 0x34, 0x12, 64, 0x8C, 0xE5] := by decide +kernel

/-- R167: the gap drops a frame in reception and counts it; without one nothing happens. -/
theorem test_gap_drops_a_frame :
    let u := ran (.interbyte ⟨.host, [0x55, 0xD3, 5]⟩) part
    (u.port .host).rx = none ∧ (u.port .host).interbyte = 1 ∧ ran (.interbyte ⟨.host, [0x55]⟩) part = part := by
  decide +kernel

theorem test_met_LineEventsActOnTheirPort :
    (1 : Byte).toNat + 256 * (0 : Byte).toNat < 2 ∧ 1026 < (3 : Byte).toNat + 256 * (4 : Byte).toNat ∧
      (2 : Byte).toNat + 256 * (0 : Byte).toNat = 2 ∧ (part.port .host).rx = none ∧ (part.port .host).tx = [] ∧
      (answer .service .ok false [] busy |>.port .service).tx ≠ [] := by decide

/-- The capture at its first entry, which has not begun, with two notes in the note area. -/
def beginning (kind : SecKind) : State :=
  ((inCapture .gathering kind).onCapture fun c => { c with current := none }).onEngine fun e =>
    { e with phase := .secEnter, notes := [{ time := 0, text := [1] }, { time := 1, text := [2] }] }

theorem test_met_SectionsBeginAndGather :
    let s := beginning .note
    let c := { capture .note with current := none }
    s.engine.capture = some c ∧ c.cursor = some 0 ∧ c.walk[0]? = some (freshItem 0) ∧ c.nextPage < c.snapshot.pageCap ∧
      { c with nextPage := 7680 }.snapshot.pageCap ≤ 7680 ∧ ordinaryOk s = true ∧ ordinaryOk (inMonitor .holdup 6 s) = false ∧
      lowestFreeSection s.dir = some 0 ∧ s.dir.reclaim = none ∧ c.asked = false ∧ c.noReclaim = false ∧ reclaimable s = none ∧
      (reclaimable (stored false 0 .complete)).isSome = true ∧ s.engine.phase = .secEnter ∧
      (inCapture .gathering .note).engine.phase = .gather ∧ section0.ended = none ∧ ((beginning .stream).streams[0]).fifo = [] ∧
      (planEntry .fetch).space = some .config ∧ (planEntry .fetch).base = some 0 ∧
      (regionRuns part.settings.fetch[0] .config 0 32).all (fun r => r.permit = .deny) = true ∧
      ((beginning .fetch).fetches[0]).state = .disabled ∧ section0.items = [] := by decide +kernel

/-- A section table without a free entry. -/
theorem test_met_full_section_table :
    lowestFreeSection { Directory.initial with sections := (List.range 1024).map fun i => (i, .reserved 1) } = none := by
  simp [lowestFreeSection, sectionTableSize]

/-- R57: a window that reads 4 to 7 splits the region, so it is not all DENY. R28: from the pin on, the newest two records. -/
theorem test_met_regions_and_ranges :
    let w : Window := { enabled := true, space := .config, base := 4, limit := 7, permit := .read }
    let cfg : FetchCfg := { FetchCfg.initial with windows := vset FetchCfg.initial.windows 0 w }
    let r : Ring := { (post .engine 0x80 [] part).ring with pin := some 1 }
    (regionRuns cfg .config 0 12).any (fun r => r.permit = .read) = true ∧ (r.historyRange 1 1).map (fun y => y.seq) = [1, 2] := by
  decide +kernel

/-- R84, R91, R95: the NOTE section takes both notes; one at the page cap is skipped. -/
theorem test_section_begins :
    let u := beginSection { capture .note with current := none } (freshItem 0) (planEntry .note) (beginning .note)
    (u.engine.capture.bind fun c => c.current.map fun x => (x.items.map fun y => y.length, x.toPlace.length)) = some ([9, 9], 32) ∧
      u.engine.notes = [] ∧ (u.ring.records.getLast?.map fun r => (r.kind, r.args)) = some (5, [1, 1, 0]) ∧
      u.dir.slotted.map (fun x => x.record) = [.sectionBegin 1 1 0 .note 1 0 (some 0)] := by decide +kernel

/-- R7, R9, R46, R3: a term re-armed by a write does not fire, the stream channel is reset, a due candidate is taken. -/
theorem test_met_WrittenItemsReachTheBlocks :
    let s := atTime 7 (withCandidate (latched (withTerm { armedTerm with qualified := true } (withRecord 3))))
    let t := applyItems [⟨4, 0, 0⟩] s
    let u := applyItems [⟨13, 0, 8⟩, ⟨11, 0, 1⟩, ⟨1, 0, 7⟩] s
    s.ready = true ∧ (t.trig.terms[0]).state = .armed ∧ (t.trig.terms[0]).qualified = !termCondition 0 t ∧ (t.streams[0]).fifo.length = 1 ∧
      (u.streams[0]).fifo = [] ∧ (u.streams[0]).rx = .idle ∧ u.trig.filtered.getLsbD 0 = true ∧
      s.trig.filtered.getLsbD 0 = false := by decide +kernel

/-- A complete checkpoint of generation 2 in block 1 beside that of generation 1 in block 0. -/
def twoCheckpoints : Flash :=
  { data := cellsOf 0xFF 0 checkpointBytes ++
      cellsOf 0xFF 65536 (slotBytes 0 (.checkpointBegin 2 5) ++ slotBytes 1 (.checkpointEnd 2 0)), check := [] }

set_option maxRecDepth 16000 in
theorem test_met_ReplayTakesTheChosenBlock :
    blockCheckpoint journaled.flash 0 = some { gen := 1, slot := 0, seq := 0, last := 0 } ∧
      blockCheckpoint journaled.flash 1 = none ∧ chosenBlock twoCheckpoints = some (1, { gen := 2, slot := 0, seq := 0, last := 5 }) ∧
      laterGen 2 1 = true ∧ laterGen 1 2 = false ∧ laterGen 0 0xFFFFFFFF = true ∧ journaled.dir.torn = 0 ∧
      (blockSlots journaled.flash 0).map (fun x => (x.slot, x.good)) = [(0, true), (1, true)] := by decide +kernel

/-- R134, R163: block 4 retired, 5 in a block list, 6 with a byte that is not erased, 7 blank; pool page 386 used. -/
theorem test_met_rebuild_and_pool_scan :
    let s := ((stored false 0 .complete).onDir fun d => modEntry 1 (fun e => { e with blocks := [some 5] }) d).onStore fun t =>
      { t with retBlocks := [(4, .eraseFail)] }
    let s := { s with flash := { data := [(512 * 386, 0), (65536 * 6, 0)], check := [] } }
    let u := rebuildBlocks s
    [u.store.blocks[0], u.store.blocks[1], u.store.blocks[2], u.store.blocks[3]] = [.retired, .allotted 1, .dirty, .free] ∧
      u.store.queue = [.erase .area 6] ∧ (scanPool s).integ.nextPool = 3 := by decide +kernel

/-! ## Corners of the rules -/

/-- R92, R112: two retries wait, pages 3 and 5, and page 6 has been accepted beyond them. -/
def twoRetries (first : BufState) : State :=
  let buf := fun (st : BufState) (page start n : Nat) =>
    ({ Buf.initial with state := st, cap := 1, page := page, start := start, bytes := List.replicate n 1, retried := true } : Buf)
  ((inCapture .gathering .stream).onCapture fun c =>
    { c with nextPage := 8, current := some { section0 with
      img := 2148, done := [{ page := 1, start := 0, stop := 512 }, { page := 6, start := 1536, stop := 2048 }] } }).onEngine fun e =>
    { e with bufs := vset (vset (vset e.bufs 0 (buf first 3 512 512)) 1 (buf .queued 5 1024 512)) 2 (buf .filling 7 2048 100) }

def cutFigures (s : State) : Option (Nat × Option Nat × OutcomeCode) :=
  s.engine.capture.bind fun c => c.current.map fun x => (x.len, x.pages, x.outcome)

/-- R86, R92, R112: accepted page 6 stays in the page count and, where no earlier page is lost before it, in the length. -/
theorem test_accepted_page_beyond_a_retry_counts :
    cutFigures (powerClose (twoRetries .queued)) = some (1504, some 6, .skippedPower) ∧
      cutFigures (bufFailed 0 (twoRetries .programming)) = some (480, some 6, .storeFault) := by decide +kernel

/-- R89, R115: a STREAM section with an empty FIFO ends COMPLETE at once while the power stall is set. -/
theorem test_stalled_section_ends_quiet :
    let s := (inMonitor .recovering 3 (inCapture .gathering .stream)).onEngine fun e => { e with stall := true }
    ((settle s).engine.capture.bind fun c => c.current.map fun x => x.outcome) = some .complete ∧
      (settle s).engine.phase = .trailer := by decide +kernel

/-- R50: noise before an answer is ignored; a mark in it begins another answer, which takes the true one's bytes. -/
theorem test_answer_after_noise :
    let sent := fun before : List Byte =>
      (ran (.fetchAnswer { ch := 0, before := before } 7 0 1 [5] (crc16 [7, 0, 1, 5])) (asking 1 0)).fetches[0]
    (sent [1, 2]).state = .delivering ∧ (sent [1, 2]).rx = none ∧ (sent [0xC9]).state = .asking ∧
      (sent [0xC9, 0, 0, 65]).state = .delivering ∧ (sent [0xC9, 0, 0, 65]).badAnswers = 1 := by decide +kernel

/-- R133: a retirement record counts as unjournaled while it is slotted. -/
theorem test_slotted_retirement_is_unjournaled :
    unjournaledCount (hand (.retirePage [900]) .retirement part) = 1 ∧ unjournaledCount part = 0 := by decide +kernel

/-- R152: the trailer that stands in a page of its own stays in the image when its block is retired later; a range that holds the
block's last page was cut by its failure. -/
theorem test_own_page_trailer_stays :
    let s := stored false 0 .complete
    let x := { secEntry .skippedPower with len := 480, pages := 2 }
    imageLength s (entry false 0) x = 528 ∧ imageLength (setBlock 4 .retired s) (entry false 0) x = 528 ∧
      imageLength (setBlock 4 .retired s) (entry false 0) { x with first := 126 } = 512 := by decide +kernel

/-- Capture 1 while it opens: its head page has moved to page 128, in a block just allotted. -/
def movedHead : State :=
  ((inCapture .opening .note).onCapture fun c =>
    { c with head := none, current := none, cursor := none, nextPage := 129, blocks := [4, 5] }).onEngine fun e =>
    { e with phase := .headWait, bufs := vset e.bufs 0 { Buf.initial with state := .queued, page := 128, isHead := true } }

/-- R86: a head page that is dropped with its block leaves only the skipped pages before it. -/
theorem test_dropped_head_leaves_the_skipped_pages :
    let u := refuseAllot 5 movedHead
    u.engine.capture.map (fun c => (c.nextPage, c.blocks)) = some (128, [4]) ∧ (u.engine.bufs[0]).state = .empty ∧
      u.engine.state = .closing ∧ u.engine.cause = .power := by decide +kernel

/-- R96: an EXTENDED entry reached in HOLDUP is skipped, though NORMAL returns before the engine has its table entry. -/
theorem test_skip_is_decided_at_the_cursor :
    let e := { planEntry .note with cls := .extended }
    (reachEntry e (inMonitor .holdup 9 part)).engine.phase = .secSkip ∧ (reachEntry e part).engine.phase = .secEnter ∧
      (reachEntry (planEntry .note) (inMonitor .holdup 9 part)).engine.phase = .secEnter ∧
      (match engineStep ((inCapture .gathering .note).onEngine fun g => { g with phase := .secSkip }) with
        | .did t => t.ring.records.getLast?.map fun r => r.args
        | .wait => none) = some [1, 8, 0] := by decide +kernel

/-- Capture 1 closing in HOLDUP behind a compaction whose erase is held. -/
def heldErase : State :=
  inMonitor .holdup 9 ((inCapture .closing .note).onDir fun d =>
    { d with comp := { Compaction.initial with state := .clearing, eraseQueued := true } })

/-- R116: such a close cannot be paid; with the erase in flight it goes on. -/
theorem test_held_compaction_stalls_the_close :
    (match engineStep heldErase with | .did t => t.engine.stall | .wait => false) = true ∧
      compactionWaits (heldErase.onStore fun t => { t with flight := some (.erase .journal 1) }) = false := by
  decide +kernel

/-- R113: a BLOCK_ALLOT refused behind the close's records closes for power and hands over no second CAPTURE_CLOSE. -/
theorem test_late_refusal_keeps_the_close :
    let u := refuseAllot 5 (((inCapture .closing .note).onEngine fun e => { e with phase := .closeWait }).onDir fun d =>
      { d with slotted := [{ closeRecord with record := .captureClose 1 .complete 7 0x400 (some 0), flying := false }] })
    u.engine.phase = .closeWait ∧ u.engine.cause = .power ∧
      u.dir.slotted.map (fun x => x.record) = [.captureClose 1 .truncatedPower 7 0x400 (some 0)] := by decide +kernel

/-- R150: a pad whose capture ERASE_ALL erased meets GONE, though its number was given anew. -/
theorem test_erased_pad_is_gone :
    let s := (forgetNumbers (withPad false false (stored false 0 .complete)))
    ((s.port .service).pad).gone = true ∧
      replies .service (ran (.commitNote .service 1 [1, 0, 0, 0, 3, 0, 0]) s) = [[7, 0]] := by decide +kernel

/-- R152: a section without data whose pages in one RETIRED block were cut at the page cap was not written. -/
theorem test_unwritten_section_has_no_trailer :
    let s := stored false 0 .complete
    let x := { secEntry .skippedBudget with len := 0, pages := 5 }
    imageLength (setBlock 4 .retired s) (entry false 0) x = 32 ∧
      imageLength (setBlock 4 .retired s) (entry false 0) { x with pages := 1 } = 48 := by decide +kernel

/-- R163: a failed erase of the pool leaves the first page that is not retired as the next. -/
theorem test_pool_passes_over_retired_pages :
    (eraseEnded .pool 3 [384] part).integ.nextPool = 1 ∧ (eraseEnded .pool 3 [] part).integ.nextPool = 0 := by decide +kernel

/-- R174: a line rate between two equally near legal ones takes the higher. -/
theorem test_tied_rate_goes_up : clampItem 29 14400 = 19200 := by decide

/-- R165, R182: kind, page, word, operation, time, present mark, OVERFLOW. -/
theorem test_error_fields :
    let r : ErrRec := { kind := .eraseFail, page := 384, word := 5, op := .relocate, time := 7 }
    (errorFields { Integrity.initial with error := some r }).map (fun b : Byte => b.toNat) = [3, 128, 1, 0, 0, 5, 2, 7, 0, 0, 0, 0, 0, 1, 0] := by decide +kernel

/-- The engine in a state and a phase. -/
def inPhase (st : EngState) (ph : Phase) (s : State) : State := s.onEngine fun e => { e with state := st, phase := ph }

/-- The state that an engine step leaves. -/
def acted (a : Act) (s : State) : State :=
  match a with
  | .did t => t
  | .wait => s

/-- Capture 1 opening without a directory slot to be had; the directory has answered that nothing can be reclaimed, or not. -/
def openingFull (told : Bool) : State :=
  (inPhase .opening .openSlot (inCapture .opening .note)).onCapture (fun c => { c with noReclaim := told })
    |>.onDir fun d => { d with slots := crowdedSlots false }

/-- R101, R83: an abort in OPENING takes the engine to CLOSING, and a trigger that joins then adds no entry. -/
theorem test_abort_in_opening_closes :
    let s := abortNow (inPhase .opening .headWait (twoEntries .stream (inCapture .opening .note)))
    s.engine.state = .closing ∧ s.engine.phase = .headWait ∧ s.engine.cause = .abort ∧
      ((trigger 9 .monitor s).engine.capture.map fun c => c.walk.map fun i => i.entry) = some [0] := by decide +kernel

/-- R113: with an allowance of 6 the close of a capture that waits for its head page is tested at once, and is paid. -/
theorem test_close_is_tested_in_every_phase :
    let s := inMonitor .holdup 6 (inPhase .opening .headWait (inCapture .opening .note))
    (acted (engineStep s) s).engine.capture.map (fun c => c.closeOn) = some true ∧
      closeUnpaid (acted (engineStep s) s) = false ∧
      (acted (engineStep (inMonitor .holdup 5 s)) s).monitor.state = .exhausted := by decide +kernel

/-- R145: an opening whose reclamation was returned with HOLDUP is refused also while the power stall is set. -/
theorem test_stalled_opening_is_refused :
    let s := inMonitor .holdup 5 (openingFull true)
    let u := acted (engineStep (s.onEngine fun e => { e with stall := true })) s
    u.engine.state = .idle ∧ u.engine.capture = none ∧ (u.ring.records.getLast?.map fun r => (r.kind, r.args)) = some (3, [3, 10]) := by
  decide +kernel

/-- R139, R140: the slot that leaves fewer than 64 free starts a compaction in NORMAL, and the next record goes to the pending list. -/
theorem test_slot_given_starts_a_compaction :
    let s := part.onDir fun d => { d with nextSlot := 1984 }
    let given := hand (.hold 1) (.port .service)
    (given s).dir.comp.state = .clearing ∧ (given s).dir.slotted.map (fun x => x.slot) = [1984] ∧
      (given (given s)).dir.pending = [(.hold 1, .port .service)] ∧ (given (given s)).dir.slotted.length = 1 ∧
      (given (inMonitor .holdup 9 s)).dir.comp.state = .none ∧
      (given (part.onDir fun d => { d with nextSlot := 1983 })).dir.comp.state = .none := by decide +kernel

/-- R102, R139: of a close's two records the first takes the slot that starts the compaction, and CAPTURE_CLOSE waits behind it. -/
theorem test_close_goes_on_in_the_pending_list :
    let s := settle ((inPhase .closing .skips (inCapture .closing .note)).onDir fun d => { d with nextSlot := 1984 })
    s.dir.comp.state = .clearing ∧ s.dir.comp.eraseQueued = false ∧ s.engine.phase = .closeWait ∧
      s.dir.slotted.map (fun x => (x.slot, x.who)) = [(1984, .engine)] ∧
      s.dir.pending = [(.captureClose 1 .partialDone 0 0x400 (some 0), .engine)] := by decide +kernel

/-- R139: records that move on leave too few slots, and the RETIRE_PAGE record then goes to the pending list. -/
theorem test_failed_program_starts_a_compaction :
    let s := (slotted part).onDir fun d => { d with nextSlot := 1985, slotted := d.slotted.map fun x => { x with slot := 1984 } }
    let u := verifyFailed .journal 124 0 s
    u.dir.comp.state = .clearing ∧ u.dir.slotted.map (fun x => x.slot) = [2000] ∧
      u.dir.pending = [(.retirePage [124], .retirement)] := by decide +kernel

/-- R152: whether a section's trailer was written is known from its end: a RETIRED block does not change it, and it goes with its
capture; an ABORTED section without a page has the 32 bytes of the formula. -/
theorem test_known_trailer_stays :
    let s := fun written : Bool => setBlock 4 .retired ((stored false 0 .complete).onDir (noteTrailer 1 0 written))
    let x := { secEntry .aborted with len := 0, first := 127, pages := 1 }
    let done := fun n : Nat => { section0 with done := [{ page := 1, start := 0, stop := n }] }
    imageLength (s true) (entry false 0) x = 48 ∧ imageLength (s false) (entry false 0) x = 32 ∧
      imageLength (setBlock 4 .retired (stored false 0 .complete)) (entry false 0) x = 48 ∧
      imageLength part (entry false 0) { x with pages := 0 } = 32 ∧
      (removeCapture (entry false 0) (s true)).dir.trailers = [] ∧
      (done 48).trailerDone = true ∧ (done 47).trailerDone = false := by decide +kernel

/-- R152: a last page under the cap that failed, in a block RETIRED since, is no trailer. -/
theorem test_failed_page_under_the_cap_is_no_trailer :
    let s := setBlock 4 .retired (stored false 0 .complete)
    let x := { secEntry .skippedBudget with len := 480, pages := 2 }
    imageLength s (entry false 0) x = 512 ∧ imagePages s (entry false 0) x = [1] := by decide +kernel

/-! ## What the clauses on the engine's and the journal's steps need -/

theorem test_met_buffers_are_given_and_filled :
    let s := inCapture .gathering .stream
    let full := s.onBuf 1 fun b => { b with state := .filling, bytes := List.replicate 512 0 }
    (s.engine.bufs[0]).state = .empty ∧ (∀ i : Fin 4, ((crowded s).engine.bufs[i]).state ≠ .empty) ∧
      ((s.onBuf 0 fun b => { b with state := .queued }).engine.bufs[1]).state = .empty ∧
      (capture .stream).nextPage < (capture .stream).snapshot.pageCap ∧ (7680 : Nat) ≤ 7680 ∧
      (capture .stream).nextPage / 128 < (capture .stream).blocks.length ∧ (capture .stream).blocks.length ≤ 128 / 128 ∧
      (full.engine.bufs[1]).state = .filling ∧ (full.engine.bufs[0]).state ≠ .filling ∧ 512 - (full.engine.bufs[1]).bytes.length = 0 ∧
      512 - (threePages.engine.bufs[2]).bytes.length ≠ 0 ∧ (∀ i : Fin 4, (s.engine.bufs[i]).state ≠ .filling) ∧
      s.engine.phase = .gather ∧ (inPhase .gathering .placeTrailer s).engine.phase = .placeTrailer := by decide +kernel

/-- A program may start in NORMAL, and with 7 left; a head page and a final flush are queued without that. -/
theorem test_met_buffers_are_queued_and_drained :
    let s := inMonitor .holdup 6 threePages
    threePages.monitor.state = .normal ∧ (inMonitor .holdup 7 threePages).monitor.state ≠ .exhausted ∧
      6 < (inMonitor .holdup 7 threePages).monitor.remaining ∧ ¬ 6 < s.monitor.remaining ∧ (s.engine.bufs[2]).flush = false ∧
      (s.engine.bufs[2]).isHead = false ∧ (movedHead.engine.bufs[0]).isHead = true ∧
      ((threePages.onBuf 1 fun b => { b with flush := true }).engine.bufs[1]).flush = true ∧
      (threePages.engine.bufs[2]).state = .filling ∧ (∀ j : Fin 4, j < 2 → (threePages.engine.bufs[j]).state ≠ .filling) ∧
      (∀ i : Fin 4, (part.engine.bufs[i]).state = .empty) ∧ (∃ i : Fin 4, (movedHead.engine.bufs[i]).state ≠ .empty) ∧
      (∀ i : Fin 4, (movedHead.engine.bufs[i]).state ≠ .filling) ∧ movedHead.engine.capture.bind (fun c => c.current) = none := by
  decide +kernel

/-- 16 bytes fit behind 496, and not behind 497; the next page is in an allotted block, in the next one, or at the cap. -/
theorem test_met_trailers_fit_or_take_a_page :
    let bytes := trailerBytes .complete false 8 1 []
    bytes.length + (List.replicate 496 (0 : Byte)).length ≤ 512 ∧ ¬ bytes.length + (List.replicate 497 (0 : Byte)).length ≤ 512 ∧
      section0.early = false ∧ ({ section0 with early := true } : Section).early = true ∧
      (capture .stream).walk[(capture .stream).cursor.getD 0]? = some (freshItem 0) ∧
      { capture .stream with nextPage := 128 }.blocks.length ≤ 128 / 128 ∧ 128 < (capture .stream).snapshot.pageCap := by
  decide +kernel

/-- An early close in each phase; a trailer that the space or the page cap cuts, and one that power does not. -/
theorem test_met_early_closes_and_ends :
    let s := inCapture .gathering .stream
    ([.openSlot, .openRecord, .openHead, .headWait, .trailer, .placeTrailer, .rest, .drain, .secEnd, .secRecord, .skips,
      .closeRecord, .closeWait].all fun ph => decide ((inPhase .gathering ph s).engine.phase = ph)) = true ∧
      s.engine.capture = some (capture .stream) ∧ (capture .stream).current = some section0 ∧
      CloseCause.power ≠ .space ∧ CloseCause.power ≠ .budget := by decide +kernel

/-- A reclamation in progress; one asked for with its erases pending, or returned with HOLDUP; a capture to take, or none. -/
theorem test_met_a_need_is_sought :
    let asks := { capture .stream with asked := true }
    let erasing' := (stored false 0 .complete).onStore fun t => { t with queue := [.erase .area 5] }
    ((part.onDir fun d => { d with reclaim := some 1 }).dir.reclaim ≠ none) ∧ part.dir.reclaim = none ∧ asks.asked = true ∧
      asks.noReclaim = false ∧ erasePending erasing' = true ∧ erasePending (inMonitor .holdup 9 erasing') = false ∧
      erasePending (part.onStore fun t => { t with flight := some (.erase .area 5) }) = true ∧ erasePending part = false ∧
      (capture .stream).asked = false ∧ { asks with noReclaim := true }.noReclaim = true ∧
      reclaimable (stored false 0 .complete) = some (entry false 0) ∧ reclaimable part = none ∧
      (∃ i : Fin 60, part.store.blocks[i] = .free) ∧ (∀ i : Fin 60, (withBlocks .dirty part).store.blocks[i] ≠ .free) ∧
      journalRoom (part.onDir fun d => { d with nextSlot := 2048 }) = false ∧ ordinaryOk (inMonitor .holdup 6 part) = false := by
  decide +kernel

/-- The opening's head page, a skipped entry with its retain line, the end of the walk, and an entry left unrecorded. -/
theorem test_met_opening_and_skips :
    let s := inPhase .opening .openHead (inCapture .opening .stream)
    let c := capture .stream
    s.engine.phase = .openHead ∧ (s.engine.bufs[0]).state = .empty ∧ (∀ i : Fin 4, (s.engine.bufs[i]).state ≠ .filling) ∧
      c.cursor.getD 0 = 0 ∧ lowestFreeSection s.dir = some 0 ∧ (planEntry .stream).retain = some 0 ∧
      (s.engine.retainCount[0] - 1 = 0) ∧ s.engine.retain.getLsbD 0 = false ∧ closing.engine.retain.getLsbD 0 = true ∧
      ({ planEntry .stream with retain := none } : PlanEntry).retain = none ∧
      { c with cursor := some 1 }.walk[1]? = none ∧ { c with unrecorded := true }.unrecorded = true ∧ c.unrecorded = false := by
  decide +kernel

/-- The close's gate: paid, short, and behind a compaction that waits; its record slotted before that. -/
theorem test_met_the_gate_of_a_close :
    let s := inMonitor .holdup 6 (inCapture .closing .note)
    ¬ s.monitor.remaining < 6 ∧ (inMonitor .holdup 5 s).monitor.remaining < 6 ∧ heldErase.dir.comp.state = .clearing ∧
      heldErase.store.flight = none ∧ ((compacting .writing 9).onDir fun d =>
        { d with comp := { d.comp with held := true } }).dir.comp.held = true ∧
      closeRecord ∈ (heldErase.onDir fun d => { d with slotted := [closeRecord] }).dir.slotted := by decide +kernel

/-- The engine's step: owed records, the gate, refused buffers, a page whose block is gone, and the phase's own step. -/
theorem test_met_the_engine_steps :
    let s := inMonitor .holdup 6 (inCapture .gathering .note)
    let gated := s.onCapture fun c => { c with closeOn := true }
    endsAtOnce (capture .note) s = none ∧ s.engine.stall = false ∧ (s.onEngine fun e => { e with stall := true }).engine.stall = true ∧
      { capture .note with owed := [.hold 1] }.owed = [.hold 1] ∧ (capture .note).owed = [] ∧ (capture .note).closeOn = false ∧
      (threePages.engine.bufs[2]).state = .filling ∧ (current gated).map (fun c => c.closeOn) = some true ∧
      (capture .note).blocks.length ≤ (threePages.engine.bufs[2]).page / 128 ∧
      ¬ (capture .note).blocks.length ≤ (threePages.engine.bufs[1]).page / 128 ∧ (current s).isSome = true := by decide +kernel

/-- A gathering that ends at once: EXTENDED outside NORMAL, quiet, or under the stall at its end. -/
theorem test_met_a_gathering_ends_at_once :
    let s := inMonitor .holdup 9 (inCapture .gathering .stream)
    (planEntry .note).cls ≠ .extended ∧ ({ planEntry .note with cls := .extended } : PlanEntry).cls = .extended ∧
      s.monitor.state ≠ .normal ∧ (planEntry .stream).kind = .stream ∧ section0.ended = none ∧ (s.streams[0]).fifo = [] ∧
      (({ section0 with ended := some .complete } : Section).ended ≠ none) ∧ section0.toPlace = [] ∧
      reached 1000000 (after 0 (1000000 * (planEntry .stream).window.getD 0)) = true ∧ ((withRecord 3).streams[0]).fifo ≠ [] := by
  decide +kernel

/-- An opening with a free slot, or with none and the answer of the directory; a request that waits for its close. -/
theorem test_met_an_opening_waits_for_its_slot :
    let s := inPhase .opening .openSlot (inCapture .opening .note)
    s.dir.slots[(0 : Fin 32)] = .free ∧ (∀ i : Fin 32, (openingFull true).dir.slots[i] ≠ .free) ∧
      (openingFull true).dir.reclaim = none ∧ (openingFull true).engine.phase = .openSlot ∧
      (openingFull true).engine.capture.map (fun c => c.noReclaim) = some true ∧
      (openingFull false).engine.capture.map (fun c => (c.noReclaim, c.asked)) = some (false, false) ∧
      (reclaimable (openingFull false)).isSome = true ∧
      reclaimable ((openingFull false).onDir fun d => { d with slots := crowdedSlots true }) = none ∧
      (capture .note).sender ≠ .port .service ∧ ((closing.port .service).service.map fun r => r.wait) = some (.close 1) := by
  decide +kernel

/-- R116, R177: what an episode's begin takes back; R114: what its end finds stalled. -/
theorem test_met_episodes_hold_and_release :
    let s := ran (.storeSettings .service 0 []) part
    .erase .settings 2 ∈ s.store.queue ∧ s.link.store.isSome = true ∧ .erase .settings 2 ∉ part.store.queue ∧
      ((s.onLink fun l => { l with store := none }).link.store = none) ∧
      ((inService .service kRestart 3 (.restartClose 1) part).port .service).service.map (fun r => r.wait) =
        some (.restartClose 1) ∧
      ((part.port .service).service = none) ∧ (part.onEngine fun e => { e with stall := true }).engine.stall = true ∧
      part.engine.stall = false ∧ part.engine.capture = none ∧ (inCapture .opening .note).engine.state = .opening ∧
      (inCapture .gathering .note).engine.state = .gathering ∧ (inCapture .closing .note).engine.state ≠ .opening := by
  decide +kernel

/-- R81, R92, R94: a buffer's acceptance, its first FAIL below and at the cap, its second, and what a cut drops. -/
theorem test_met_buffers_end_their_programs :
    let s := threePages.onCapture fun c => { c with snapshot := { c.snapshot with pageCap := 128 } }
    (movedHead.engine.bufs[0]).isHead = true ∧ (threePages.engine.bufs[0]).isHead = false ∧ movedHead.engine.phase = .headWait ∧
      threePages.engine.phase ≠ .headWait ∧ (capture .note).walk ≠ [] ∧ { capture .note with walk := [] }.walk = [] ∧
      (inPhase .closing .headWait movedHead).engine.state = .closing ∧ (threePages.engine.bufs[0]).retried = false ∧
      ((twoRetries .programming).engine.bufs[0]).retried = true ∧
      ((threePages.engine.bufs[0]).page + 1 + 1 < 7680) ∧ s.engine.capture.map (fun c => c.snapshot.pageCap) = some 128 ∧
      128 ≤ (threePages.engine.bufs[2]).page ∧ (threePages.engine.bufs[1]).page < (threePages.engine.bufs[2]).page ∧
      blockState (setBlock 4 .retired threePages) 4 = some .retired ∧ (planEntry .fetch).chan = some 0 ∧
      ((withPiece 4).fetches[0]).state = .delivering ∧ ((asking 1 0).fetches[0]).state = .asking := by decide +kernel

/-- R149, R162, R139: a commit, a relocation with its program in flight and one without, a journal page that leaves no room. -/
theorem test_met_other_programs_end :
    let s := ran (.commitNote .service 1 [1, 0, 0, 0, 3, 0, 0]) (withPad false false (stored false 0 .complete))
    let flying := relocating.onInteg fun g => { g with reloc := g.reloc.map fun r => { r with step := .programming } }
    let last := (slotted part).onDir fun d => { d with slotted := d.slotted.map fun x => { x with slot := 2032 } }
    (s.port .service).pad.target = some (1, 3) ∧ (s.port .service).service.isSome = true ∧
      flying.integ.reloc.map (fun r => (r.step, 384 + r.pool)) = some (.programming, 384) ∧
      relocating.integ.reloc.map (fun r => r.step) = some .queued ∧ part.integ.reloc = none ∧
      (reformClose { slotted part with dir := moveOn [] 0 (slotted part).dir }).dir.slotted ≠ [] ∧
      (reformClose { last with dir := moveOn [127] 127 last.dir }).dir.slotted = [] ∧ last.dir.slotted ≠ [] ∧
      (withRetired 256 part).store.retPages.length = 256 ∧ 127 ∉ part.store.retPages := by decide +kernel

/-- R139, R112: records returned with HOLDUP, one of each requester, and the sections and closes that they meet. -/
theorem test_met_records_are_refused :
    let two := (slotted part).onDir fun d => { d with slotted := d.slotted ++ d.slotted.map fun x => { x with slot := 20 } }
    let given := (two.dir.slotted.filter fun x => !decide (128 * x.block + x.slot / 16 = 0))
    two.dir.comp.state ≠ .writing ∧ given.length = 1 ∧ (journalRefused 0 two).dir.slotted.map (fun x => (x.slot, x.seq)) = [(2, 2)] ∧
      closeRecord.who = .engine ∧
      ([.retirement, .port .service, .reclaim, .relocation, .eraseAll, .snapshot] : List Who).length = 6 ∧
      (withBlocks (.allotted 1) threePages).engine.capture.isSome = true ∧
      threePages.engine.phase ≠ .secRecord ∧ section0.index = 0 ∧ section0.index ≠ 7 ∧
      (inPhase .closing .closeWait threePages).engine.phase = .closeWait ∧
      (threePages.engine.bufs[1]).state = .queued ∧ (threePages.engine.bufs[1]).page < (threePages.engine.bufs[2]).page ∧
      (∀ j : Fin 4, ((inCapture .gathering .note).engine.bufs[j]).state ≠ .filling) := by decide +kernel

/-- R150: each step of ERASE_ALL, with and without what it waits for. -/
theorem test_met_erase_all_steps :
    let s := (stored false 0 .complete).onDir fun d =>
      { d with eraseAll := some { port := .service, step := .deleting, blocks := [], captures := 0, erased := 0 } }
    let sent := hand (.delete 1 .eraseAll) .eraseAll s
    let noting := ran (.commitNote .service 1 [1, 0, 0, 0, 3, 0, 0]) (withPad false false (stored false 0 .complete))
    s.dir.comp.state = .none ∧ (compacting .clearing 9).dir.comp.state ≠ .none ∧ committing .service noting ≠ none ∧
      (∀ p : PortId, committing p s = none) ∧ entriesOf s.dir = [entry false 0] ∧ entriesOf part.dir = [] ∧
      s.dir.slotted = [] ∧ (sent.dir.slotted.map fun x => (x.who, x.record)) = [(.eraseAll, .delete 1 .eraseAll)] ∧
      part.integ.poolErase = .none ∧ (part.onInteg fun g => { g with poolErase := .queued }).integ.poolErase ≠ .none ∧
      findEntry s.dir 1 = some (entry false 0) ∧ 384 ∉ part.store.retPages ∧
      (384 + 1 ∉ (part.onStore fun t => { t with retPages := [384] }).store.retPages) := by
  refine ⟨by decide +kernel, by decide +kernel, by decide +kernel, fun p => ?_, ?_⟩
  · cases p <;> decide +kernel
  · decide +kernel

/-- R152, R153: a page in the map and one outside it; a word as written, one with a check bit flipped, one a data bit away. -/
theorem test_met_pages_are_mapped_and_classified :
    let s := (stored false 0 .complete).onDir fun d => { d with map := [{ source := 512, pool := 3, poisoned := 1 }] }
    s.dir.map.find? (fun m => m.source = 512) = some { source := 512, pool := 3, poisoned := 1 } ∧
      s.dir.map.find? (fun m => m.source = 513) = none ∧ Stored.erased.diff = 0 ∧
      (((List.range 8).filter fun i => (1 : Byte).getLsbD i).length = 1) ∧
      (((List.range 8).filter fun i => (3 : Byte).getLsbD i).length ≠ 1) := by decide +kernel

/-- R152: an early end with room for its trailer, without it, and with data that ends with its page; a retired page in between. -/
theorem test_met_images_of_early_ends :
    let x := { secEntry .aborted with len := 480 }
    let s := (stored false 0 .complete).onStore fun t => { t with retPages := [513] }
    s.dir.trailers = [] ∧ ((noteTrailer 1 0 true s.dir).trailers.find? fun m => m.cap = x.cap && m.index = x.index) ≠ none ∧
      (32 + x.len) % 512 = 0 ∧ (32 + (secEntry .aborted).len) % 512 ≠ 0 ∧ (secEntry .aborted).len ≠ 0 ∧ x.pages ≠ 0 ∧
      imagePages s (entry false 0) { x with pages := 2 } = [2] ∧ (entry false 0).blocks[2 / 128]? = some (some 4) ∧
      (entry false 0).blocks[128 / 128]? = none := by decide +kernel

/-- R153: a word whose data has the flipped bit 0 is found at bit 0. -/
theorem test_met_one_data_bit :
    let check := fun d : BitVec 64 => if d = BitVec.allOnes 64 then (0xFF : Byte) else Config.eccCheck d
    let d := BitVec.allOnes 64 ^^^ BitVec.twoPow 64 0
    let w : Stored := { data := d, diff := Config.eccCheck d ^^^ 0xFF }
    check (w.data ^^^ BitVec.twoPow 64 0) = check w.data ^^^ w.diff := by
  have h1 : ((BitVec.allOnes 64 ^^^ BitVec.twoPow 64 0) ^^^ BitVec.twoPow 64 0) = BitVec.allOnes 64 := by decide +kernel
  have h2 : (BitVec.allOnes 64 ^^^ BitVec.twoPow 64 0) ≠ BitVec.allOnes 64 := by decide +kernel
  simp only [h1, if_neg h2, if_true]
  rw [← BitVec.xor_assoc, BitVec.xor_self, BitVec.zero_xor]

end Sys2Proof.Tests
end

