-- ==== Sys2Proof/Proofs/FaultLines.lean ====
section
/-! PROOFS. Sys2Proof/Proofs/FaultLines.lean: what the condition of a trigger term says line by line (R4), and what CLEAR_LATCHES does
(R13). -/

namespace Sys2Proof.Machine

/-! ## Sets of lines, line by line -/

/-- A set of lines is empty when no line is in it. -/
theorem lines_eq_zero_iff {w : Nat} (x : BitVec w) : x = 0 ↔ ∀ i : Nat, x.getLsbD i = false := by
  constructor
  · rintro rfl i
    exact BitVec.getLsbD_zero
  · intro h
    apply BitVec.eq_of_getLsbD_eq
    intro i _
    rw [h i, BitVec.ofNat_eq_ofNat, BitVec.getLsbD_zero]

/-- A set of lines is not empty when some line is in it. -/
theorem lines_ne_zero_iff {w : Nat} (x : BitVec w) : x ≠ 0 ↔ ∃ i : Nat, x.getLsbD i = true := by
  simp only [ne_eq, lines_eq_zero_iff, not_forall, Bool.not_eq_false]

/-- A masked line qualifies when its value equals its polarity, so it stays in the mask where the two do not differ (R4). -/
theorem some_line_qualifies_iff {w : Nat} (mask value polarity : BitVec w) :
    (mask &&& ~~~ (value ^^^ polarity)) ≠ 0 ↔
      ∃ i : Nat, mask.getLsbD i = true ∧ value.getLsbD i = polarity.getLsbD i := by
  rw [lines_ne_zero_iff]
  refine exists_congr fun i => ?_
  rw [BitVec.getLsbD_and, Bool.and_eq_true]
  refine and_congr_right fun hi => ?_
  have hw : i < w := BitVec.lt_of_getLsbD hi
  simp [hw]

/-- Every masked line qualifies when the mask holds none whose value and polarity differ (R4). -/
theorem every_line_qualifies_iff {w : Nat} (mask value polarity : BitVec w) :
    (mask &&& (value ^^^ polarity)) = 0 ↔
      ∀ i : Nat, mask.getLsbD i = true → value.getLsbD i = polarity.getLsbD i := by
  rw [lines_eq_zero_iff]
  refine forall_congr' fun i => ?_
  cases hi : mask.getLsbD i <;> simp [hi]

/-! ## The condition of a term (R4) -/

/-- A line's source value for a term: the filtered level for LEVEL, the latch for LATCH (R4). -/
def TermDef.lineValue (d : TermDef) (filtered latches : BitVec 16) (line : Nat) : Bool :=
  match d.source with
  | .level => filtered.getLsbD line
  | .latch => latches.getLsbD line

/-- With ANY the condition asks for one masked line that qualifies. -/
theorem condition_any (d : TermDef) (filtered latches : BitVec 16) (hc : d.combine = .any) :
    condition d filtered latches = true ↔
      ∃ i : Nat, d.mask.getLsbD i = true ∧ d.lineValue filtered latches i = d.polarity.getLsbD i := by
  cases hs : d.source <;>
    simp only [condition, TermDef.lineValue, hc, hs, decide_eq_true_eq, some_line_qualifies_iff]

/-- With ALL the condition asks for a mask that is not empty and whose every line qualifies. -/
theorem condition_all (d : TermDef) (filtered latches : BitVec 16) (hc : d.combine = .all) :
    condition d filtered latches = true ↔ d.mask ≠ 0 ∧
      ∀ i : Nat, d.mask.getLsbD i = true → d.lineValue filtered latches i = d.polarity.getLsbD i := by
  cases hs : d.source <;>
    simp only [condition, TermDef.lineValue, hc, hs, Bool.and_eq_true, decide_eq_true_eq, every_line_qualifies_iff]

/-- Settles O10, by the two combine modes. -/
theorem termConditionReadsTheMaskedLines : Obligations.TermConditionReadsTheMaskedLines := by
  intro d filtered latches
  cases hc : d.combine with
  | any => exact condition_any d filtered latches hc
  | all => exact condition_all d filtered latches hc

/-! ## CLEAR_LATCHES (R13) -/

/-- A field of two bytes, the low byte first, as the set of lines that it names. -/
theorem ofNat_fieldAt_two (lo hi : Byte) :
    BitVec.ofNat 16 (fieldAt [lo, hi] 0 2) = lo.setWidth 16 ||| (hi.setWidth 16 <<< 8) := by
  have hv : fieldAt [lo, hi] 0 2 = lo.toNat + 256 * hi.toNat := by simp [fieldAt, leNat]
  have hdisjoint : lo.setWidth 16 &&& (hi.setWidth 16 <<< 8) = 0#16 := by
    apply BitVec.eq_of_getLsbD_eq
    intro i _
    by_cases hi8 : i < 8
    · simp [hi8]
    · simp [BitVec.getLsbD_of_ge lo i (by omega)]
  rw [hv, ← BitVec.add_eq_or_of_and_eq_zero _ _ hdisjoint]
  apply BitVec.eq_of_toNat_eq
  have hlo := lo.isLt
  have hhi := hi.isLt
  simp only [BitVec.toNat_ofNat, BitVec.toNat_add, BitVec.toNat_shiftLeft, BitVec.toNat_setWidth, Nat.shiftLeft_eq]
  omega

/-- With a payload of its own length, CLEAR_LATCHES clears the mask that the two bytes name before it answers. -/
theorem clearLatches_two (p : PortId) (lo hi : Byte) (s : State) :
    clearLatches p [lo, hi] s =
      let u := clearMask (lo.setWidth 16 ||| (hi.setWidth 16 <<< 8)) s
      settle (answer p .ok false (leBytes 2 u.trig.latches.toNat) u) := by
  simp only [clearLatches, withLength, List.length_cons, List.length_nil, if_true, ofNat_fieldAt_two, setField, leBits]

@[simp] theorem frameOf_clearMask (mask : BitVec 16) (s : State) : frameOf (clearMask mask s) = frameOf s := by
  simp [clearMask]

/-- Settles O12: a request that its port can serve reaches `clearMask`, which is the statement's clearing and evaluation by
definition; what is left is the mask that the payload names and the frame. -/
theorem clearLatchesClearsTheMask : Obligations.ClearLatchesClearsTheMask := by
  intro p tag lo hi s hs mask changed u
  have hu : clearMask mask (accept p kClearLatches tag s) = u := rfl
  have hf : frameOf (clearLatches p [lo, hi] (accept p kClearLatches tag s)) = frameOf s := by
    rw [clearLatches_two]
    simp
  calc exec (.clearLatches p tag [lo, hi]) s
      = request p kClearLatches tag (clearLatches p [lo, hi]) s := rfl
    _ = .next (clearLatches p [lo, hi] (accept p kClearLatches tag s)) := request_servable _ _ _ _ _ hs hf
    _ = .next (settle (answer p .ok false (leBytes 2 u.trig.latches.toNat) u)) := by rw [clearLatches_two, ← hu]

end Sys2Proof.Machine
end

