-- ==== Sys2Proof/Proofs/EventRing.lean ====
section
/-! PROOFS. Sys2Proof/Proofs/EventRing.lean: what posting an event does to the ring (R19, R21, R22), and the requests
POST_EVENT (R29) and READ_EVENTS (R30). -/

namespace Sys2Proof.Machine

/-! ## Room in the ring (R19, R27) -/

/-- The records that stay when one more is to be taken: from a full ring the oldest leaves (R19 step 1). -/
def makeRoom (xs : List EventRec) : List EventRec := if xs.length < ringMax then xs else xs.drop 1

theorem makeRoom_length_lt (xs : List EventRec) (h : xs.length ≤ ringMax) : (makeRoom xs).length < ringMax := by
  unfold makeRoom
  split
  · assumption
  · have hmax : 0 < ringMax := by decide
    rw [List.length_drop]
    omega

theorem Ring.hasRoom_iff (r : Ring) : r.hasRoom = true ↔ r.records.length < 1024 ∨ r.oldestProtected = false := by
  unfold Ring.hasRoom
  rw [Bool.or_eq_true, decide_eq_true_iff, Bool.not_eq_true']
  rfl

theorem Ring.hasRoom_of_full_protected (r : Ring) (hl : r.records.length = 1024) (hp : r.oldestProtected = true) :
    r.hasRoom = false := by
  simp [Ring.hasRoom, ringMax, hl, hp]

/-! ## Posting an event (R19, R21, R22) -/

/-- An inserted event takes the counter's value and follows the records that stay (R19). -/
theorem Ring.insert_eq (r : Ring) (time : PartTime) (o : Origin) (kind : Byte) (args : List (BitVec 32)) :
    r.insert time o kind args =
      { r with
        records := makeRoom r.records ++ [{ seq := r.counter, time := time, origin := o, kind := kind, args := args }]
        counter := r.counter + 1 } := rfl

theorem Ring.markLost_of_none_lost (r : Ring) (time : PartTime) (h : r.lost = 0) : r.markLost time = r := if_pos h

theorem Ring.markLost_of_some_lost (r : Ring) (time : PartTime) (h : r.lost ≠ 0) :
    r.markLost time = { r.insert time .ring evEventsLost [BitVec.ofNat 32 r.lost] with lost := 0 } := if_neg h

theorem Ring.post_of_room (r : Ring) (time : PartTime) (o : Origin) (kind : Byte) (args : List (BitVec 32))
    (h : r.hasRoom = true) : r.post time o kind args = (r.markLost time).insert time o kind args := if_pos h

/-- An event without room is counted, and nothing else changes (R21). -/
theorem Ring.post_of_no_room (r : Ring) (time : PartTime) (o : Origin) (kind : Byte) (args : List (BitVec 32))
    (h : r.hasRoom = false) : r.post time o kind args = { r with lost := satInc r.lost } := by
  simp [Ring.post, h]

/-! ## The ring's bound and its numbering -/

theorem Ring.insert_length_le (r : Ring) (time : PartTime) (o : Origin) (kind : Byte) (args : List (BitVec 32))
    (h : r.records.length ≤ ringMax) : (r.insert time o kind args).records.length ≤ ringMax := by
  have hroom := makeRoom_length_lt r.records h
  simp only [Ring.insert_eq, List.length_append, List.length_singleton]
  omega

theorem Ring.markLost_length_le (r : Ring) (time : PartTime) (h : r.records.length ≤ ringMax) :
    (r.markLost time).records.length ≤ ringMax := by
  by_cases hlost : r.lost = 0
  · rwa [Ring.markLost_of_none_lost r time hlost]
  · rw [Ring.markLost_of_some_lost r time hlost]
    exact Ring.insert_length_le r time _ _ _ h

theorem Ring.post_length_le (r : Ring) (time : PartTime) (o : Origin) (kind : Byte) (args : List (BitVec 32))
    (h : r.records.length ≤ ringMax) : (r.post time o kind args).records.length ≤ ringMax := by
  cases hroom : r.hasRoom with
  | true =>
    rw [Ring.post_of_room r time o kind args hroom]
    exact Ring.insert_length_le _ time o kind args (Ring.markLost_length_le r time h)
  | false => rwa [Ring.post_of_no_room r time o kind args hroom]

/-- Each record that stays is as far from the newest as before. -/
theorem Ring.consecutive_makeRoom (r : Ring) (h : r.consecutive) :
    ({ r with records := makeRoom r.records } : Ring).consecutive := by
  by_cases hl : r.records.length < ringMax
  · have hkept : makeRoom r.records = r.records := if_pos hl
    rw [hkept]
    exact h
  · have hdrop : makeRoom r.records = r.records.drop 1 := if_neg hl
    rw [hdrop]
    intro i hi
    have hi' : 1 + i < r.records.length := by simp only [List.length_drop] at hi; omega
    have hdist : r.records.length - 1 - i = r.records.length - (1 + i) := by omega
    simp only [List.getElem_drop, List.length_drop, hdist]
    exact h (1 + i) hi'

/-- One step nearer to a counter that has advanced by one is the same number. -/
theorem counter_sub_succ (c : BitVec 32) (n : Nat) : c + 1 - BitVec.ofNat 32 (n + 1) = c - BitVec.ofNat 32 n := by
  rw [BitVec.ofNat_add]
  generalize BitVec.ofNat 32 n = d
  bv_omega

/-- A record numbered by the counter continues the numbering. -/
theorem Ring.consecutive_append (r : Ring) (e : EventRec) (h : r.consecutive) (he : e.seq = r.counter) :
    ({ r with records := r.records ++ [e], counter := r.counter + 1 } : Ring).consecutive := by
  intro i hi
  simp only [List.length_append, List.length_singleton] at hi ⊢
  have hdist : r.records.length + 1 - i = r.records.length - i + 1 := by omega
  rw [hdist, counter_sub_succ]
  by_cases hold : i < r.records.length
  · rw [List.getElem_append_left hold]
    exact h i hold
  · have hnew : i = r.records.length := by omega
    subst hnew
    simp [he]

theorem Ring.consecutive_insert (r : Ring) (time : PartTime) (o : Origin) (kind : Byte) (args : List (BitVec 32))
    (h : r.consecutive) : (r.insert time o kind args).consecutive :=
  Ring.consecutive_append { r with records := makeRoom r.records } _ (Ring.consecutive_makeRoom r h) rfl

theorem Ring.consecutive_markLost (r : Ring) (time : PartTime) (h : r.consecutive) : (r.markLost time).consecutive := by
  by_cases hlost : r.lost = 0
  · rwa [Ring.markLost_of_none_lost r time hlost]
  · rw [Ring.markLost_of_some_lost r time hlost]
    exact Ring.consecutive_insert r time _ _ _ h

theorem Ring.consecutive_post (r : Ring) (time : PartTime) (o : Origin) (kind : Byte) (args : List (BitVec 32))
    (h : r.consecutive) : (r.post time o kind args).consecutive := by
  cases hroom : r.hasRoom with
  | true =>
    rw [Ring.post_of_room r time o kind args hroom]
    exact Ring.consecutive_insert _ time o kind args (Ring.consecutive_markLost r time h)
  | false =>
    rw [Ring.post_of_no_room r time o kind args hroom]
    exact h

/-- Settles O14: with room, the lost-count decides whether an EVENTS_LOST record is inserted before the event. -/
theorem ringTakesOrCountsAnEvent : Obligations.RingTakesOrCountsAnEvent := by
  constructor
  · intro r time o kind args hl hroom cut lost new
    have hpost := Ring.post_of_room r time o kind args ((Ring.hasRoom_iff r).mpr hroom)
    refine ⟨fun hnone => ?_, fun hsome => ?_, Ring.consecutive_post r time o kind args,
      Ring.post_length_le r time o kind args hl⟩
    · rw [hpost, Ring.markLost_of_none_lost r time hnone]
      rfl
    · have hcounter : r.counter + 1 + 1 = r.counter + 2 := BitVec.add_assoc _ _ _
      rw [hpost, Ring.markLost_of_some_lost r time hsome, ← hcounter]
      rfl
  · intro r time o kind args hl hp
    exact Ring.post_of_no_room r time o kind args (Ring.hasRoom_of_full_protected r hl hp)

/-! ## POST_EVENT (R29) -/

/-- CLAMPED says that the code supplied lies below 0x80. -/
theorem hostCode_ne_iff (code : Byte) : hostCode code ≠ code ↔ code.toNat < 0x80 := by
  unfold hostCode
  split
  next hlow => exact iff_of_true (fun heq => by rw [← heq] at hlow; exact absurd hlow (by decide)) hlow
  next hhigh => exact iff_of_false (fun hne => hne rfl) hhigh

/-- One code byte and up to three words. -/
theorem eventLengthOk_succ (n : Nat) : eventLengthOk (n + 1) = true ↔ n = 0 ∨ n = 4 ∨ n = 8 ∨ n = 12 := by
  simp only [eventLengthOk, Bool.or_eq_true, decide_eq_true_eq]
  omega

theorem fieldAt_cons (b : Byte) (bs : List Byte) (i n : Nat) : fieldAt (b :: bs) (1 + i) n = fieldAt bs i n := by
  rw [fieldAt, Nat.add_comm 1 i, List.drop_succ_cons, fieldAt]

/-- The argument words of a POST_EVENT stand behind its code. -/
theorem eventWords_cons (code : Byte) (words : List Byte) :
    eventWords (code :: words) = (List.range (words.length / 4)).map fun i => fieldAt words (4 * i) 4 := by
  simp only [eventWords, List.length_cons, Nat.add_sub_cancel, fieldAt_cons]

/-- Posting and taking a request are about different blocks. -/
theorem post_accept (o : Origin) (kind : Byte) (args : List Nat) (p : PortId) (k tag : Byte) (s : State) :
    post o kind args (accept p k tag s) = accept p k tag (post o kind args s) := by
  cases p <;> rfl

theorem counter_post_of_no_room (o : Origin) (kind : Byte) (args : List Nat) (s : State) (h : s.ring.hasRoom = false) :
    (post o kind args s).ring.counter = s.ring.counter := by
  have hpost : (post o kind args s).ring = { s.ring with lost := satInc s.ring.lost } :=
    Ring.post_of_no_room s.ring s.time o kind _ h
  rw [hpost]

/-- The effect of POST_EVENT once it is taken leaves the frame, whatever its length. -/
theorem frameOf_postEvent (p : PortId) (payload : List Byte) (s : State) : frameOf (postEvent p payload s) = frameOf s := by
  unfold postEvent
  split <;> simp

theorem exec_postEvent (p : PortId) (tag : Byte) (payload : List Byte) (s : State) (hs : servable p kPostEvent s = true) :
    exec (.postEvent p tag payload) s = .next (postEvent p payload (accept p kPostEvent tag s)) :=
  request_servable p kPostEvent tag (postEvent p payload) s hs (by rw [frameOf_postEvent, frameOf_accept])

theorem postEvent_badLength (p : PortId) (payload : List Byte) (s : State) (h : eventLengthOk payload.length = false) :
    postEvent p payload s = refuse p .badLength s := by
  simp [postEvent, h]

/-- A payload of another length is refused, and nothing is posted (R29, R181). -/
theorem exec_postEvent_badLength (p : PortId) (tag : Byte) (payload : List Byte) (s : State)
    (hs : servable p kPostEvent s = true) (h : eventLengthOk payload.length = false) :
    exec (.postEvent p tag payload) s = .next (replied p kPostEvent tag .badLength false [] s) := by
  rw [exec_postEvent p tag payload s hs, postEvent_badLength p payload _ h, refuse_accept]

/-- A host event of its own length is posted, and the reply says what became of it (R29). -/
theorem exec_postEvent_posts (p : PortId) (tag code : Byte) (words : List Byte) (s : State)
    (hs : servable p kPostEvent s = true) (h : eventLengthOk (code :: words).length = true) :
    let u := post (.port p) (hostCode code) (eventWords (code :: words)) s
    exec (.postEvent p tag (code :: words)) s = .next (replied p kPostEvent tag .ok (decide (hostCode code ≠ code))
      (markByte s.ring.hasRoom :: leBits 4 (if s.ring.hasRoom then u.ring.counter - 1 else u.ring.counter)) u) := by
  intro u
  rw [exec_postEvent p tag _ s hs]
  simp only [postEvent, h, Bool.not_true, Bool.false_eq_true, if_false, List.getD_cons_zero, post_accept]
  exact congrArg _ (answer_accept p kPostEvent tag .ok _ _ u)

/-- The sequence field: the number given to a recorded event, else the counter that no record has yet received (R29). -/
theorem postEvent_sequence (o : Origin) (kind : Byte) (args : List Nat) (s : State) :
    let u := post o kind args s
    (if s.ring.hasRoom then u.ring.counter - 1 else u.ring.counter) =
      if s.ring.hasRoom then u.ring.counter - 1 else s.ring.counter := by
  intro u
  cases hroom : s.ring.hasRoom with
  | true => rfl
  | false => exact counter_post_of_no_room o kind args s hroom

/-! ## READ_EVENTS (R30) -/

/-- A count clamped to the range from 1 (R30): the lower bound takes 0, the upper bound what lies above it. -/
theorem clampTo_one (hi m : Nat) (hhi : 1 ≤ hi) :
    clampTo 1 hi m = if m = 0 then 1 else if hi < m then hi else m := by
  unfold clampTo
  split
  · omega
  · split <;> omega

theorem Ring.readFrom_eq (r : Ring) (start : BitVec 32) :
    r.readFrom start =
      if (start - r.oldest).toNat < r.records.length then r.records.drop (start - r.oldest).toNat
      else if (start - r.counter).toNat < 2147483648 then [] else r.records := by
  have hholds : r.holds start = true ↔ (start - r.oldest).toNat < r.records.length := decide_eq_true_iff
  simp only [Ring.readFrom, hholds]
  rfl

/-- A field that ends with the payload. -/
theorem fieldAt_last (bs : List Byte) (i n : Nat) (h : bs.length = i + n) : fieldAt bs i n = leNat (bs.drop i) := by
  rw [fieldAt, List.take_of_length_le (by rw [List.length_drop]; omega)]

theorem frameOf_readEvents (p : PortId) (payload : List Byte) (s : State) : frameOf (readEvents p payload s) = frameOf s := by
  unfold readEvents withLength
  split <;> simp

/-- READ_EVENTS with a payload of its own length is answered from the ring, and nothing but the port changes. -/
theorem exec_readEvents (p : PortId) (tag : Byte) (payload : List Byte) (s : State) (hs : servable p kReadEvents s = true)
    (hl : payload.length = 5) :
    let m := fieldAt payload 4 1
    exec (.readEvents p tag payload) s = .next (replied p kReadEvents tag .ok (decide (clampTo 1 40 m ≠ m))
      (eventsReply s (BitVec.ofNat 32 (fieldAt payload 0 4)) (clampTo 1 40 m)) s) := by
  intro m
  have htaken : exec (.readEvents p tag payload) s = .next (readEvents p payload (accept p kReadEvents tag s)) :=
    request_servable p kReadEvents tag (readEvents p payload) s hs (by rw [frameOf_readEvents, frameOf_accept])
  rw [htaken]
  simp only [readEvents, withLength, hl, if_true]
  exact congrArg _ (answer_accept p kReadEvents tag .ok _ _ s)

/-- Settles O15: POST_EVENT by the length of its payload, READ_EVENTS by its one length. -/
theorem ringRequestsPostAndRead : Obligations.RingRequestsPostAndRead := by
  constructor
  · intro p tag code words s hs taken kind args u
    refine ⟨fun hlen => ?_, fun hlen => ?_, exec_postEvent_badLength p tag [] s hs rfl⟩
    · have hu : post (.port p) (hostCode code) (eventWords (code :: words)) s = u := by rw [eventWords_cons]; rfl
      rw [exec_postEvent_posts p tag code words s hs ((eventLengthOk_succ _).mpr hlen), postEvent_sequence, hu,
        decide_eq_decide.mpr (hostCode_ne_iff code)]
      rfl
    · have hbad : eventLengthOk (code :: words).length = false :=
        Bool.eq_false_iff.mpr fun hok => hlen ((eventLengthOk_succ _).mp hok)
      exact exec_postEvent_badLength p tag (code :: words) s hs hbad
  · intro p tag payload s hs hl r start m count held from' rs
    have hcount : clampTo 1 40 m = count := clampTo_one 40 m (by decide)
    have hfrom : r.readFrom start = from' := Ring.readFrom_eq r start
    have hm : fieldAt payload 4 1 = m := fieldAt_last payload 4 1 hl
    rw [exec_readEvents p tag payload s hs hl, hm, hcount]
    simp only [rs, ← hfrom]
    rfl

end Sys2Proof.Machine
end

