-- ==== Sys2Proof/Proofs/ReachWindows.lean ====
section
/-! PROOFS. Sys2Proof/Proofs/ReachWindows.lean: which reach window decides about a byte (R54). -/

namespace Sys2Proof.Machine

/-! ## The deciding window (R54) -/

theorem Window.covers_iff (w : Window) (sp : Space) (a : Nat) :
    w.covers sp a = true ↔ w.enabled = true ∧ w.space = sp ∧ w.base ≤ a ∧ a ≤ w.limit := by
  simp only [Window.covers, Bool.and_eq_true, decide_eq_true_eq, and_assoc]

/-- The search goes through the windows in the order of their indices, so it is `Fin.find?`. -/
theorem decidingWindow_eq_find? (cfg : FetchCfg) (sp : Space) (a : Nat) :
    decidingWindow cfg sp a = Fin.find? fun i : Fin 4 => (cfg.windows[i]).covers sp a :=
  Fin.find?_eq_find?_finRange.symm

theorem decidingWindow_eq_some_iff (cfg : FetchCfg) (sp : Space) (a : Nat) (i : Fin 4) :
    decidingWindow cfg sp a = some i ↔
      (cfg.windows[i]).covers sp a = true ∧ ∀ j : Fin 4, j < i → ¬ (cfg.windows[j]).covers sp a = true := by
  rw [decidingWindow_eq_find?, Fin.find?_eq_some_iff]
  simp only [Bool.not_eq_true]

theorem decidingWindow_eq_none_iff (cfg : FetchCfg) (sp : Space) (a : Nat) :
    decidingWindow cfg sp a = none ↔ ∀ i : Fin 4, ¬ (cfg.windows[i]).covers sp a = true := by
  rw [decidingWindow_eq_find?, Fin.find?_eq_none_iff]
  simp only [Bool.not_eq_true]

@[simp] theorem permitOf_some (cfg : FetchCfg) (i : Fin 4) : permitOf cfg (some i) = (cfg.windows[i]).permit := rfl

@[simp] theorem permitOf_none (cfg : FetchCfg) : permitOf cfg none = .deny := rfl

/-- Settles O20: the search answers the lowest index whose window covers the byte, and none where no window does. -/
theorem firstCoveringWindowDecides : Obligations.FirstCoveringWindowDecides := by
  intro cfg sp a covers
  have hcovers : ∀ i : Fin 4, (cfg.windows[i]).covers sp a = true ↔ covers i :=
    fun i => Window.covers_iff cfg.windows[i] sp a
  refine ⟨fun i => ?_, ?_, permitOf_some cfg, permitOf_none cfg⟩
  · rw [decidingWindow_eq_some_iff]
    simp only [hcovers]
  · rw [decidingWindow_eq_none_iff]
    simp only [hcovers]

end Sys2Proof.Machine
end

