-- ==== Sys2Proof/Proofs/HoldupAllowance.lean ====
section
/-! PROOFS. Sys2Proof/Proofs/HoldupAllowance.lean: the allowance of a VHOLD sample (R109). -/

namespace Sys2Proof.Machine

/-! ## The steps of R109 -/

/-- D of R109 step 2: the sample's square above the cutoff's. -/
def squaresAboveCutoff (st : Settings) (vhold : Nat) : Nat :=
  if st.vmin < sampleMv vhold then sampleMv vhold * sampleMv vhold - st.vmin * st.vmin else 0

/-- A of R109 step 5 before its clamp. -/
def unclampedAllowance (st : Settings) (vhold : Nat) : Nat :=
  st.cuf * squaresAboveCutoff st vhold / 2000000 * st.eff / 100 / st.epage

theorem allowanceFor_eq_min (st : Settings) (vhold : Nat) :
    allowanceFor st vhold = min (unclampedAllowance st vhold) 65535 := rfl

theorem min_eq_ite_gt (n cap : Nat) : min n cap = if cap < n then cap else n := by
  rw [min_comm, min_def_lt]

theorem sampleMv_le (vhold : Nat) : sampleMv vhold ≤ 15000 := min_le_right vhold 15000

/-! ## At or below the cutoff -/

theorem squaresAboveCutoff_of_le {st : Settings} {vhold : Nat} (h : sampleMv vhold ≤ st.vmin) :
    squaresAboveCutoff st vhold = 0 := if_neg (Nat.not_lt.mpr h)

theorem allowanceFor_of_le {st : Settings} {vhold : Nat} (h : sampleMv vhold ≤ st.vmin) :
    allowanceFor st vhold = 0 := by
  simp [allowanceFor_eq_min, unclampedAllowance, squaresAboveCutoff_of_le h]

/-! ## Bounds within the ranges of the settings -/

theorem squaresAboveCutoff_le (st : Settings) (vhold : Nat) :
    squaresAboveCutoff st vhold ≤ 15000 * 15000 - st.vmin * st.vmin := by
  unfold squaresAboveCutoff
  split
  · have hsquare := Nat.mul_le_mul (sampleMv_le vhold) (sampleMv_le vhold)
    exact Nat.sub_le_sub_right hsquare _
  · exact Nat.zero_le _

theorem cuf_mul_squares_le {st : Settings} (vhold : Nat) (hcuf : st.cuf ≤ 65000) :
    st.cuf * squaresAboveCutoff st vhold ≤ 14625000000000 :=
  Nat.mul_le_mul hcuf ((squaresAboveCutoff_le st vhold).trans (Nat.sub_le _ _))

/-- D is largest for a sample of 15,000 and a cutoff of 3,000. -/
theorem squaresAboveCutoff_le_of_vmin {st : Settings} (vhold : Nat) (hvmin : 3000 ≤ st.vmin) :
    squaresAboveCutoff st vhold ≤ 216000000 :=
  (squaresAboveCutoff_le st vhold).trans (Nat.sub_le_sub_left (Nat.mul_le_mul hvmin hvmin) _)

/-- Each step is bounded by its value at the ends of the ranges; dividing by Epage raises nothing. -/
theorem unclampedAllowance_le {st : Settings} (vhold : Nat) (hcuf : st.cuf ≤ 65000)
    (hvmin : 3000 ≤ st.vmin) (heff : st.eff ≤ 100) : unclampedAllowance st vhold ≤ 7020000 := by
  have henergy : st.cuf * squaresAboveCutoff st vhold / 2000000 ≤ 7020000 := calc
    _ ≤ 65000 * 216000000 / 2000000 :=
      Nat.div_le_div_right (Nat.mul_le_mul hcuf (squaresAboveCutoff_le_of_vmin vhold hvmin))
    _ = 7020000 := by norm_num
  calc unclampedAllowance st vhold
    _ ≤ st.cuf * squaresAboveCutoff st vhold / 2000000 * st.eff / 100 := Nat.div_le_self _ st.epage
    _ ≤ 7020000 * 100 / 100 := Nat.div_le_div_right (Nat.mul_le_mul henergy heff)
    _ = 7020000 := by norm_num

/-- Settles O31: the steps of R109 are the model's own, and each bound is taken at the ends of the ranges. -/
theorem allowanceArithmetic : Obligations.AllowanceArithmetic := by
  refine ⟨fun st sample => ?_, by decide⟩
  have hvh : (if 15000 < sample then 15000 else sample) = sampleMv sample := (min_eq_ite_gt sample 15000).symm
  rw [hvh]
  exact ⟨(allowanceFor_eq_min st sample).trans (min_eq_ite_gt _ 65535), cuf_mul_squares_le sample,
    allowanceFor_of_le, fun hcuf hvmin heff _ => unclampedAllowance_le sample hcuf hvmin heff⟩

end Sys2Proof.Machine
end

