-- ==== Sys2Proof/Proofs/ReadSettings.lean ====
section
/-! PROOFS. Sys2Proof/Proofs/ReadSettings.lean: the request READ_SETTINGS (R175). -/

namespace Sys2Proof.Machine

/-! ## The selectors of a payload -/

/-- A field of one byte is that byte, and 0 behind the payload's end. -/
theorem fieldAt_one (bs : List Byte) (i : Nat) : fieldAt bs i 1 = (bs.getD i 0).toNat := by
  by_cases hi : i < bs.length
  · rw [fieldAt, List.drop_eq_getElem_cons hi, List.take_succ_cons, List.take_zero, List.getD_eq_getElem _ _ hi]
    rfl
  · rw [fieldAt, List.drop_of_length_le (by omega), List.getD_eq_default _ _ (by omega)]
    rfl

theorem selectorsOf_eq (payload : List Byte) :
    selectorsOf payload = (List.range (payload.length / 2)).map fun k =>
      ((payload.getD (2 * k) 0).toNat, (payload.getD (2 * k + 1) 0).toNat) := by
  simp only [selectorsOf, fieldAt_one]

/-- A list of 1 to 170 selectors of 2 bytes. -/
theorem selectorsLengthOk_iff (n : Nat) : selectorsLengthOk n = true ↔ n ≠ 0 ∧ n % 2 = 0 ∧ n ≤ 340 := by
  simp only [selectorsLengthOk, Bool.and_eq_true, decide_eq_true_eq, and_assoc]

theorem selectorsLengthOk_eq_false_iff (n : Nat) : selectorsLengthOk n = false ↔ n = 0 ∨ n % 2 = 1 ∨ 340 < n := by
  rw [Bool.eq_false_iff, ne_eq, selectorsLengthOk_iff]
  omega

/-! ## What the request does -/

theorem readSettings_badLength (p : PortId) (payload : List Byte) (s : State)
    (hl : selectorsLengthOk payload.length = false) : readSettings p payload s = refuse p .badLength s := by
  simp [readSettings, hl]

theorem readSettings_badValue (p : PortId) (payload : List Byte) (s : State) (hl : selectorsLengthOk payload.length = true)
    (hk : ∃ x ∈ selectorsOf payload, itemKnown x.1 x.2 = false) : readSettings p payload s = refuse p .badValue s := by
  have hall : ((selectorsOf payload).all fun x => itemKnown x.1 x.2) = false := by
    simpa only [List.all_eq_false, Bool.not_eq_true] using hk
  simp only [readSettings, hl, hall, Bool.not_true, Bool.false_eq_true, if_false]

theorem readSettings_ok (p : PortId) (payload : List Byte) (s : State) (hl : selectorsLengthOk payload.length = true)
    (hk : ∀ x ∈ selectorsOf payload, itemKnown x.1 x.2 = true) :
    readSettings p payload s = answer p .ok false (num (selectorsOf payload).length ++
      (selectorsOf payload).flatMap fun x => s.settings.itemBytes x.1 x.2) s := by
  simp only [readSettings, hl, List.all_eq_true.mpr hk, Bool.not_true, Bool.false_eq_true, if_false, if_true]

/-- READ_SETTINGS only answers, so the frame stays whatever the payload. -/
theorem frameOf_readSettings (p : PortId) (payload : List Byte) (s : State) :
    frameOf (readSettings p payload s) = frameOf s := by
  unfold readSettings
  split
  · exact frameOf_refuse p .badLength s
  · dsimp only
    split
    · exact frameOf_answer p .ok false _ s
    · exact frameOf_refuse p .badValue s

theorem exec_readSettings (p : PortId) (tag : Byte) (payload : List Byte) (s : State)
    (hs : servable p kReadSettings s = true) :
    exec (.readSettings p tag payload) s = .next (readSettings p payload (accept p kReadSettings tag s)) :=
  request_servable p kReadSettings tag (readSettings p payload) s hs (by rw [frameOf_readSettings, frameOf_accept])

/-- Settles O49: the payload's length and its selectors choose one of the three answers, and taking the request leaves the
working values that the last of them reports. -/
theorem readSettingsReportsWorkingValues : Obligations.ReadSettingsReportsWorkingValues := by
  intro p tag payload s hs xs
  have hxs : selectorsOf payload = xs := selectorsOf_eq payload
  rw [exec_readSettings p tag payload s hs, ← hxs]
  refine ⟨fun hlen => ?_, fun hne heven hmax hunknown => ?_, fun hne heven hmax hknown => ?_⟩
  · have hl := (selectorsLengthOk_eq_false_iff _).mpr hlen
    rw [readSettings_badLength p payload _ hl, refuse_accept]
  · have hl := (selectorsLengthOk_iff _).mpr ⟨hne, heven, hmax⟩
    rw [readSettings_badValue p payload _ hl hunknown, refuse_accept]
  · have hl := (selectorsLengthOk_iff _).mpr ⟨hne, heven, hmax⟩
    rw [readSettings_ok p payload _ hl hknown, answer_accept]
    rfl

end Sys2Proof.Machine
end

