-- ==== Sys2Proof/Proofs/Steps.lean ====
section
/-! PROOFS. Sys2Proof/Proofs/Steps.lean: what a step, a command and the blocks' immediate steps do outside the blocks: the queue,
power, the clock, the pins, the working values and the store's contents (95_what_each_step_holds.md). -/

namespace Sys2Proof.Machine

/-! ## A command with power -/

@[simp] theorem frameOf_whenPowered (f : State → State) (s : State) : frameOf (whenPowered f s) = frameOf s := by
  unfold whenPowered
  split <;> rfl

/-- A command of a part without power has no effect, whatever it is (log 5). -/
theorem takeRequest_unpowered (p : PortId) (kind tag : Byte) (body : State → State) (s : State) (hp : s.powered = false) :
    request p kind tag body s = .next s :=
  congrArg _ (whenPowered_unpowered _ s hp)

/-- What the arms of `exec` have in common: each answers next, and a command that is not named for a part of the state outside the
blocks leaves that part. -/
structure LeavesUnnamed (c : Instr) (s t : State) : Prop where
  pending : t.pending = s.pending
  flash : c.writesFlash = false → t.flash = s.flash
  working : c.writesWorking = false → t.settings = s.settings ∧ t.plan = s.plan
  epoch : c.writesEpoch = false → t.epoch = s.epoch ∧ t.epochValid = s.epochValid
  ready : c.writesReady = false → t.ready = s.ready
  power : c.writesPower = false → t.powered = s.powered ∧ t.time = s.time
  pins : c.writesPins = false → t.pins = s.pins

theorem LeavesUnnamed.of_frame {c : Instr} {s t : State} (h : frameOf t = frameOf s) : LeavesUnnamed c s t := by
  simp only [frameOf, Prod.mk.injEq] at h
  obtain ⟨hpending, hpowered, hready, htime, hepoch, hvalid, hpins, hsettings, hplan, hflash⟩ := h
  exact ⟨hpending, fun _ => hflash, fun _ => ⟨hsettings, hplan⟩, fun _ => ⟨hepoch, hvalid⟩, fun _ => hready,
    fun _ => ⟨hpowered, htime⟩, fun _ => hpins⟩

/-- The frame is read field by field. -/
theorem frameOf_onPins (f : Pins → Pins) {s t : State} (h : frameOf t = frameOf s) :
    frameOf (t.onPins f) = frameOf (s.onPins f) := by
  simp only [frameOf, Prod.mk.injEq] at h ⊢
  obtain ⟨hpending, hpowered, hready, htime, hepoch, hvalid, hpins, hsettings, hplan, hflash⟩ := h
  exact ⟨hpending, hpowered, hready, htime, hepoch, hvalid, congrArg f hpins, hsettings, hplan, hflash⟩

/-- A command that takes its level from a pin. -/
theorem LeavesUnnamed.of_pins {c : Instr} {s t : State} {f : Pins → Pins} (hc : c.writesPins = true)
    (h : frameOf t = frameOf (s.onPins f)) : LeavesUnnamed c s t := by
  simp only [frameOf, Prod.mk.injEq] at h
  obtain ⟨hpending, hpowered, hready, htime, hepoch, hvalid, -, hsettings, hplan, hflash⟩ := h
  exact ⟨hpending, fun _ => hflash, fun _ => ⟨hsettings, hplan⟩, fun _ => ⟨hepoch, hvalid⟩, fun _ => hready,
    fun _ => ⟨hpowered, htime⟩, fun hno => absurd hc (by simp [hno])⟩

theorem powerLost_leaves (torn : List BlockFault) (s : State) :
    (powerLost torn s).pending = s.pending ∧ (powerLost torn s).pins = s.pins := by
  unfold powerLost
  split <;> exact ⟨rfl, rfl⟩

@[simp] theorem frameOf_lookAtPfail (vhold : Nat) (s : State) : frameOf (lookAtPfail vhold s) = frameOf s := by
  unfold lookAtPfail
  split <;> rfl

/-- What a start-up leaves: the frame without the working values. -/
def besideWorking (s : State) : List Instr × Bool × Bool × PartTime × BitVec 64 × Bool × Pins × Flash :=
  (s.pending, s.powered, s.ready, s.time, s.epoch, s.epochValid, s.pins, s.flash)

theorem besideWorking_of_frame {s t : State} (h : frameOf t = frameOf s) : besideWorking t = besideWorking s := by
  simp only [frameOf, Prod.mk.injEq] at h
  obtain ⟨hpending, hpowered, hready, htime, hepoch, hvalid, hpins, -, -, hflash⟩ := h
  simp only [besideWorking, hpending, hpowered, hready, htime, hepoch, hvalid, hpins, hflash]

theorem besideWorking_takeSettings (s : State) : besideWorking (takeSettings s) = besideWorking s := rfl

theorem besideWorking_takeWorking (f : State → State) (s : State) :
    besideWorking (keepingBut takeWorking f s) = besideWorking s := rfl

theorem besideWorking_startUp (args : List Nat) (vhold : Nat) (s : State) :
    besideWorking (startUp args vhold s) = besideWorking s := by
  unfold startUp
  rw [besideWorking_of_frame (frameOf_lookAtPfail vhold _), besideWorking_takeSettings, besideWorking_takeWorking,
    besideWorking_of_frame (frameOf_post _ _ _ s)]

/-- The start of STARTING leaves what a reset has set beside the blocks and the working values. -/
theorem startUp_leaves (args : List Nat) (vhold : Nat) (s : State) :
    let t := startUp args vhold s
    t.pending = s.pending ∧ t.powered = s.powered ∧ t.ready = s.ready ∧ t.time = s.time ∧ t.epoch = s.epoch ∧
      t.epochValid = s.epochValid ∧ t.pins = s.pins ∧ t.flash = s.flash := by
  have h := besideWorking_startUp args vhold s
  simp only [besideWorking, Prod.mk.injEq] at h
  exact h

theorem poweredOn_leaves (vhold : Nat) (worn : List StoreFault) (s : State) :
    (poweredOn vhold worn s).pending = s.pending ∧ (poweredOn vhold worn s).pins = s.pins := by
  obtain ⟨hpending, -, -, -, -, -, hpins, -⟩ := startUp_leaves [0] vhold
    { resetClock (resetBlocks false ((powerLost [] s).onFlash (wearFlash worn))) with powered := true }
  obtain ⟨hlost, hlostPins⟩ := powerLost_leaves [] s
  exact ⟨hpending.trans hlost, hpins.trans hlostPins⟩

/-- A restart, whether it takes effect or not, leaves the clock, power, the pins and the store. -/
theorem restarted_leaves (vhold : Nat) (s : State) :
    let t := restarted vhold s
    t.pending = s.pending ∧ t.powered = s.powered ∧ t.time = s.time ∧ t.epoch = s.epoch ∧ t.epochValid = s.epochValid ∧
      t.pins = s.pins ∧ t.flash = s.flash := by
  unfold restarted
  dsimp only
  split
  · split
    · obtain ⟨h1, h2, -, h4, h5, h6, h7, h8⟩ := startUp_leaves _ vhold (resetBlocks s.link.svcStrap (releasePin s))
      exact ⟨h1, h2, h4, h5, h6, h7, h8⟩
    · exact ⟨rfl, rfl, rfl, rfl, rfl, rfl, rfl⟩
  · exact ⟨rfl, rfl, rfl, rfl, rfl, rfl, rfl⟩

/-- Every command answers next and leaves what it is not named for. -/
theorem exec_leaves (c : Instr) (s : State) : ∃ t : State, exec c s = .next t ∧ LeavesUnnamed c s t := by
  cases c
  case rawLevelChange line level =>
    exact ⟨_, rfl, .of_pins rfl (frameOf_onPins _ (frameOf_whenPowered _ s))⟩
  case syncAssert ch =>
    exact ⟨_, rfl, .of_pins rfl (frameOf_whenPowered _ (syncLevel ch true s))⟩
  case syncRelease ch =>
    exact ⟨_, rfl, .of_pins rfl (frameOf_whenPowered _ (syncLevel ch false s))⟩
  case pfailAssert =>
    exact ⟨_, rfl, .of_pins rfl (frameOf_whenPowered _ (setPfail true s))⟩
  case pfailRelease =>
    exact ⟨_, rfl, .of_pins rfl (frameOf_whenPowered _ (setPfail false s))⟩
  case unknownKind p kind tag payload =>
    show ∃ t, execUnknownKind p kind tag payload s = .next t ∧ _
    unfold execUnknownKind
    split
    · exact ⟨_, rfl, .of_frame (frameOf_whenPowered _ _)⟩
    · exact ⟨_, rfl, .of_frame rfl⟩
  case programComplete | eraseComplete | journalFormat =>
    refine ⟨_, rfl, ?_⟩
    unfold whenPoweredBut
    split
    · exact ⟨rfl, nofun, fun _ => ⟨rfl, rfl⟩, fun _ => ⟨rfl, rfl⟩, fun _ => rfl, fun _ => ⟨rfl, rfl⟩, fun _ => rfl⟩
    · exact .of_frame rfl
  case writeSettings | writePlanEntry | writePlanPageCap =>
    refine ⟨_, rfl, ?_⟩
    unfold whenPoweredBut
    split
    · exact ⟨rfl, fun _ => rfl, nofun, fun _ => ⟨rfl, rfl⟩, fun _ => rfl, fun _ => ⟨rfl, rfl⟩, fun _ => rfl⟩
    · exact .of_frame rfl
  case setTime =>
    refine ⟨_, rfl, ?_⟩
    unfold whenPoweredBut
    split
    · exact ⟨rfl, fun _ => rfl, fun _ => ⟨rfl, rfl⟩, nofun, fun _ => rfl, fun _ => ⟨rfl, rfl⟩, fun _ => rfl⟩
    · exact .of_frame rfl
  case replayEnd =>
    refine ⟨_, rfl, ?_⟩
    unfold whenPoweredBut
    split
    · exact ⟨rfl, fun _ => rfl, fun _ => ⟨rfl, rfl⟩, fun _ => ⟨rfl, rfl⟩, nofun, fun _ => ⟨rfl, rfl⟩, fun _ => rfl⟩
    · exact .of_frame rfl
  case powerLoss torn =>
    obtain ⟨hpending, hpins⟩ := powerLost_leaves torn s
    exact ⟨_, rfl, hpending, nofun, nofun, nofun, nofun, nofun, fun _ => hpins⟩
  case powerOn vhold worn =>
    obtain ⟨hpending, hpins⟩ := poweredOn_leaves vhold worn s
    exact ⟨_, rfl, hpending, nofun, nofun, nofun, nofun, nofun, fun _ => hpins⟩
  case restartEffect vhold =>
    obtain ⟨hpending, hpowered, htime, hepoch, hvalid, hpins, hflash⟩ := restarted_leaves vhold s
    exact ⟨_, rfl, hpending, fun _ => hflash, nofun, fun _ => ⟨hepoch, hvalid⟩, nofun, fun _ => ⟨hpowered, htime⟩,
      fun _ => hpins⟩
  all_goals exact ⟨_, rfl, .of_frame (frameOf_whenPowered _ _)⟩

theorem leavesUnnamed_of_exec {c : Instr} {s t : State} (h : exec c s = .next t) : LeavesUnnamed c s t := by
  obtain ⟨u, hu, hleaves⟩ := exec_leaves c s
  cases h.symm.trans hu
  exact hleaves

/-- Settles O3: each arm of `exec` answers next. -/
theorem everyCommandAnswersAndKeepsTheQueue : Obligations.EveryCommandAnswersAndKeepsTheQueue := by
  intro c s
  obtain ⟨t, ht, hleaves⟩ := exec_leaves c s
  exact ⟨t, ht, hleaves.pending⟩

/-- Settles O7: the fields of `LeavesUnnamed`. -/
theorem commandsLeaveWhatTheyAreNotNamedFor : Obligations.CommandsLeaveWhatTheyAreNotNamedFor := by
  intro c s t h
  have hleaves := leavesUnnamed_of_exec h
  exact ⟨hleaves.flash, hleaves.working, hleaves.epoch, hleaves.ready, hleaves.power, hleaves.pins⟩

/-! ## One step -/

/-- Settles O1: `step` looks at the front of the queue. -/
theorem stepRunsTheFrontCommand : Obligations.StepRunsTheFrontCommand := by
  intro c rest s hpending
  unfold step
  rw [hpending]

theorem step_idle (s : State) (h : s.pending = []) : step s = .next (idle s) := by
  unfold step
  rw [h]

/-- A step idles, or it is the front command's on the rest of the queue. -/
theorem step_cases {s t : State} (h : step s = .next t) :
    (s.pending = [] ∧ t = idle s) ∨
      ∃ (c : Instr) (rest : List Instr), s.pending = c :: rest ∧ exec c { s with pending := rest } = .next t := by
  cases hpending : s.pending with
  | nil =>
    rw [step_idle s hpending] at h
    cases h
    exact .inl ⟨rfl, rfl⟩
  | cons c rest =>
    rw [stepRunsTheFrontCommand c rest s hpending] at h
    exact .inr ⟨c, rest, rfl, h⟩

/-- A part without power takes the levels of its pins alone, as long as it is not switched on (log 5). -/
theorem exec_unpowered (c : Instr) (s : State) (hp : s.powered = false)
    (hon : ∀ (v : Nat) (ws : List StoreFault), c ≠ .powerOn v ws) :
    ∃ p : Pins, exec c s = .next { s with pins := p } ∧ (c.writesPins = false → p = s.pins) := by
  cases c
  case rawLevelChange line level =>
    exact ⟨_, congrArg (fun x => Host.Outcome.next (setRaw line level x)) (whenPowered_unpowered _ s hp), nofun⟩
  case syncAssert ch =>
    exact ⟨_, congrArg Host.Outcome.next (whenPowered_unpowered _ (syncLevel ch true s) hp), nofun⟩
  case syncRelease ch =>
    exact ⟨_, congrArg Host.Outcome.next (whenPowered_unpowered _ (syncLevel ch false s) hp), nofun⟩
  case pfailAssert =>
    exact ⟨_, congrArg Host.Outcome.next (whenPowered_unpowered _ (setPfail true s) hp), nofun⟩
  case pfailRelease =>
    exact ⟨_, congrArg Host.Outcome.next (whenPowered_unpowered _ (setPfail false s) hp), nofun⟩
  case unknownKind p kind tag payload =>
    refine ⟨s.pins, ?_, fun _ => rfl⟩
    show execUnknownKind p kind tag payload s = _
    unfold execUnknownKind
    split
    · exact takeRequest_unpowered p kind tag id s hp
    · rfl
  case powerOn v ws => exact absurd rfl (hon v ws)
  case powerLoss torn =>
    have hlost : powerLost torn s = s := by simp [powerLost, hp]
    exact ⟨s.pins, congrArg Host.Outcome.next hlost, fun _ => rfl⟩
  case restartEffect vhold =>
    have hstays : restarted vhold s = s := by
      unfold restarted
      split
      · simp [hp]
      · rfl
    exact ⟨s.pins, congrArg Host.Outcome.next hstays, fun _ => rfl⟩
  case programComplete | eraseComplete | journalFormat | writeSettings | writePlanEntry | writePlanPageCap | setTime | replayEnd =>
    exact ⟨s.pins, congrArg _ (whenPoweredBut_unpowered _ _ _ hp), fun _ => rfl⟩
  all_goals exact ⟨s.pins, congrArg _ (whenPowered_unpowered _ _ hp), fun _ => rfl⟩

/-- Settles O2, by the power of the part. -/
theorem idleTicksAndUnpoweredParts : Obligations.IdleTicksAndUnpoweredParts := by
  refine ⟨step_idle, fun c s hp hon => ?_⟩
  obtain ⟨p, hexec, hpins⟩ := exec_unpowered c s hp hon
  refine ⟨fun hc => ?_, p, hexec⟩
  rw [hexec, hpins hc]

/-! ## The blocks' immediate steps (log 11) -/

/-- Settles O8: `settle` restores what lies outside the blocks, and a quiet part takes no step. -/
theorem settleRestsWhenQuiet : Obligations.SettleRestsWhenQuiet := fun s =>
  ⟨settle_of_quiet s, rfl, rfl, rfl, rfl, rfl, rfl, rfl, rfl, rfl, rfl⟩

/-! ## The sound state -/

theorem sound_iff (s : State) :
    s.sound = true ↔ Memory.wf s.flash = true ∧ (s.ready = true → s.powered = true) := by
  unfold State.sound
  cases s.powered <;> cases s.ready <;> simp

theorem sound_idle (s : State) (h : s.sound = true) : (idle s).sound = true := h

/-- The command's result is taken where the part has power, so that what holds of both is kept. -/
theorem whenPoweredBut_cases {P : State → Prop} (take : State → State → State) (f : State → State) (s : State)
    (hon : s.powered = true → P (keepingBut take f s)) (hoff : P s) : P (whenPoweredBut take f s) := by
  unfold whenPoweredBut
  split
  · exact hon ‹_›
  · exact hoff

theorem programCompleted_wf (faults : List WordFault) (s : State) (h : Memory.wf s.flash = true) :
    Memory.wf (programCompleted faults s).flash = true := by
  unfold programCompleted
  split
  · exact programPage_wf _ _ faults s.flash h
  · exact h

theorem eraseCompleted_wf (faults : List BlockFault) (s : State) (h : Memory.wf s.flash = true) :
    Memory.wf (eraseCompleted faults s).flash = true := by
  unfold eraseCompleted
  split
  · exact eraseBlock_wf _ faults s.flash h
  · exact h

@[simp] theorem frameOf_searchReads (block : Nat) (s : State) : frameOf (searchReads block s) = frameOf s :=
  frameOf_forEach _ _ (fun _ s => frameOf_takePage _ _ _ _ s) s

theorem journalFormatted_wf (erase0 erase1 : List BlockFault) (programs : List (List WordFault)) (s : State)
    (h : Memory.wf s.flash = true) : Memory.wf (journalFormatted erase0 erase1 programs s).flash = true := by
  unfold journalFormatted
  split
  · exact h
  · refine formatPages_wf _ programs _ (eraseInFormat_wf 1 erase1 _ (eraseInFormat_wf 0 erase0 _ ?_))
    rwa [onStore_flash, flash_of_frame ((frameOf_searchReads 1 _).trans (frameOf_searchReads 0 s))]

theorem powerLost_wf (torn : List BlockFault) (s : State) (h : Memory.wf s.flash = true) :
    Memory.wf (powerLost torn s).flash = true := by
  unfold powerLost
  split
  · exact h
  · exact storeAfterLoss_wf _ torn s.flash h

theorem poweredOn_wf (vhold : Nat) (worn : List StoreFault) (s : State) (h : Memory.wf s.flash = true) :
    Memory.wf (poweredOn vhold worn s).flash = true := by
  obtain ⟨-, -, -, -, -, -, -, hflash⟩ := startUp_leaves [0] vhold
    { resetClock (resetBlocks false ((powerLost [] s).onFlash (wearFlash worn))) with powered := true }
  unfold poweredOn
  rw [hflash]
  exact wearFlash_wf worn _ (powerLost_wf [] s h)

/-- Every command that writes the store keeps its canonical form. -/
theorem exec_wf {c : Instr} {s t : State} (h : exec c s = .next t) (hs : Memory.wf s.flash = true) :
    Memory.wf t.flash = true := by
  cases hc : c.writesFlash with
  | false => rwa [(leavesUnnamed_of_exec h).flash hc]
  | true =>
    cases c <;> cases hc <;> cases h
    case true.programComplete.refl.refl faults =>
      exact whenPoweredBut_cases (P := fun t => Memory.wf t.flash = true) _ _ s (fun _ => programCompleted_wf faults s hs) hs
    case true.eraseComplete.refl.refl faults =>
      exact whenPoweredBut_cases (P := fun t => Memory.wf t.flash = true) _ _ s (fun _ => eraseCompleted_wf faults s hs) hs
    case true.journalFormat.refl.refl erase0 erase1 programs =>
      exact whenPoweredBut_cases (P := fun t => Memory.wf t.flash = true) _ _ s
        (fun _ => journalFormatted_wf erase0 erase1 programs s hs) hs
    case true.powerLoss.refl.refl torn => exact powerLost_wf torn s hs
    case true.powerOn.refl.refl vhold worn => exact poweredOn_wf vhold worn s hs

/-- READY is entered by REPLAY_END with power alone, and a power loss or a start-up leaves STARTING. -/
theorem exec_ready {c : Instr} {s t : State} (h : exec c s = .next t) (hs : s.ready = true → s.powered = true) :
    t.ready = true → t.powered = true := by
  cases hc : c.writesReady with
  | false =>
    cases hp : c.writesPower with
    | false =>
      have hleaves := leavesUnnamed_of_exec h
      rwa [hleaves.ready hc, (hleaves.power hp).1]
    | true => cases c <;> cases hp <;> cases hc
  | true =>
    cases c <;> cases hc <;> cases h
    case true.replayEnd.refl.refl =>
      exact whenPoweredBut_cases (P := fun t => t.ready = true → t.powered = true) _ _ s (fun hp _ => hp) hs
    case true.powerLoss.refl.refl torn =>
      intro hready
      unfold powerLost at hready ⊢
      split at hready
      · exact absurd (hs hready) (by simp_all)
      · cases hready
    case true.powerOn.refl.refl vhold worn =>
      obtain ⟨-, hpowered, -⟩ := startUp_leaves [0] vhold
        { resetClock (resetBlocks false ((powerLost [] s).onFlash (wearFlash worn))) with powered := true }
      exact fun _ => hpowered
    case true.restartEffect.refl.refl vhold =>
      intro hready
      unfold restarted at hready ⊢
      split at hready
      · split at hready
        · obtain ⟨-, -, hstarting, -⟩ := startUp_leaves _ vhold (resetBlocks s.link.svcStrap (releasePin s))
          exact absurd (hready.symm.trans hstarting) (by simp [resetBlocks])
        · simp_all
      · exact hs hready

/-- Settles O5, by the two parts of a sound state. -/
theorem stepKeepsTheStateSound : Obligations.StepKeepsTheStateSound := by
  intro s t hs h
  rcases step_cases h with ⟨-, rfl⟩ | ⟨c, rest, -, hexec⟩
  · exact sound_idle s hs
  · obtain ⟨hwf, hready⟩ := (sound_iff s).mp hs
    exact (sound_iff t).mpr ⟨exec_wf hexec hwf, exec_ready hexec hready⟩

/-- Settles O4, by evaluation of the state after reset. -/
theorem resetIsSound : Obligations.ResetIsSound := by
  refine ⟨by decide, by decide, ?_, ?_⟩
  · intro i hi
    have hi2 : i < 2 := hi
    match i, hi2 with
    | 0, _ => rfl
    | 1, _ => rfl
  · intro ch
    have hch : State.reset.streams[ch] = StreamChan.start .disabled none := by simp [State.reset]
    rw [hch]
    exact ⟨by decide, nofun⟩

end Sys2Proof.Machine
end

