-- ==== Sys2Proof/Proofs/Evolution.lean ====
section
/-! PROOFS. Sys2Proof/Proofs/Evolution.lean: what every operation of the blocks keeps of the ring, the stream channels and the
Holdup Monitor: their bounds, and an allowance that only falls (R17, R19, R37, R39, R110). -/

namespace Sys2Proof.Machine

/-! ## The relation -/

/-- At most 1,024 records with consecutive numbers (R17, R19). -/
def Ring.sound (r : Ring) : Prop := r.records.length ≤ 1024 ∧ r.consecutive

/-- A FIFO of at most 16,384 bytes and a record in assembly of at most 256 words (R37, R39). -/
def StreamChan.bounded (c : StreamChan) : Prop :=
  (c.fifo.map fun r => 12 + 4 * r.containers.length).sum ≤ 16384 ∧
    ∀ a : Assembly, c.assembly = some a → a.words.length ≤ 256

/-- A monitor that neither enters nor leaves NORMAL, with an allowance that does not rise. -/
def Monitor.Fades (m n : Monitor) : Prop := (n.state = .normal ↔ m.state = .normal) ∧ n.remaining ≤ m.remaining

theorem State.bounded_iff (s : State) : s.bounded ↔ s.ring.sound ∧ ∀ ch : Fin 4, (s.streams[ch]).bounded := and_assoc.symm

/-- What an operation keeps, said of the three blocks that it is about. -/
structure Tracked (r r' : Ring) (v v' : Vector StreamChan 4) (m m' : Monitor) : Prop where
  ring : r.sound → r'.sound
  streams : (∀ ch : Fin 4, (v[ch]).bounded) → ∀ ch : Fin 4, (v'[ch]).bounded
  monitor : m.Fades m'

/-- An operation may take `s` to `t`: it keeps the bounds of the ring and of the stream channels, and the monitor fades. Two states
with the same ring, channels and monitor are interchangeable here by definition, so an operation on the other blocks alone needs no
lemma. -/
def Evolves (s t : State) : Prop := Tracked s.ring t.ring s.streams t.streams s.monitor t.monitor

theorem Evolves.refl (s : State) : Evolves s s := ⟨id, id, Iff.rfl, Nat.le_refl _⟩

theorem Evolves.trans {s t u : State} (h : Evolves s t) (h' : Evolves t u) : Evolves s u :=
  ⟨h'.ring ∘ h.ring, h'.streams ∘ h.streams, h'.monitor.1.trans h.monitor.1, h'.monitor.2.trans h.monitor.2⟩

/-- Where an operation leaves the ring, the channels and the monitor alone, nothing of this changes. -/
theorem Evolves.same {s₀ s t : State} (h : Evolves s₀ s) (hring : t.ring = s.ring) (hstreams : t.streams = s.streams)
    (hmonitor : t.monitor = s.monitor) : Evolves s₀ t := by
  rw [Evolves, hring, hstreams, hmonitor]
  exact h

theorem Evolves.bounded {s t : State} (h : Evolves s t) (hs : s.bounded) : t.bounded :=
  (State.bounded_iff t).mpr ⟨h.ring ((State.bounded_iff s).mp hs).1, h.streams ((State.bounded_iff s).mp hs).2⟩

variable {s₀ s : State}

protected theorem Evolves.onRing {f : Ring → Ring} (hf : s.ring.sound → (f s.ring).sound) (h : Evolves s₀ s) :
    Evolves s₀ (s.onRing f) :=
  ⟨hf ∘ h.ring, h.streams, h.monitor⟩

/-! The other blocks' updates, for where one of them stands around an operation that has a lemma. -/

protected theorem Evolves.onTrig {f : TrigUnit → TrigUnit} (h : Evolves s₀ s) : Evolves s₀ (s.onTrig f) := h
protected theorem Evolves.onEngine {f : Engine → Engine} (h : Evolves s₀ s) : Evolves s₀ (s.onEngine f) := h
protected theorem Evolves.onCapture {f : Capture → Capture} (h : Evolves s₀ s) : Evolves s₀ (s.onCapture f) := h
protected theorem Evolves.onSection {f : Section → Section} (h : Evolves s₀ s) : Evolves s₀ (s.onSection f) := h
protected theorem Evolves.onBuf {i : Fin 4} {f : Buf → Buf} (h : Evolves s₀ s) : Evolves s₀ (s.onBuf i f) := h
protected theorem Evolves.setPhase {p : Phase} (h : Evolves s₀ s) : Evolves s₀ (setPhase p s) := h
protected theorem Evolves.setEngState {e : EngState} (h : Evolves s₀ s) : Evolves s₀ (setEngState e s) := h
protected theorem Evolves.onStore {f : StoreCtl → StoreCtl} (h : Evolves s₀ s) : Evolves s₀ (s.onStore f) := h
protected theorem Evolves.onDir {f : Directory → Directory} (h : Evolves s₀ s) : Evolves s₀ (s.onDir f) := h
protected theorem Evolves.hand {r : JRec} {w : Who} (h : Evolves s₀ s) : Evolves s₀ (hand r w s) := h
protected theorem Evolves.onInteg {f : Integrity → Integrity} (h : Evolves s₀ s) : Evolves s₀ (s.onInteg f) := h
protected theorem Evolves.onLink {f : Link → Link} (h : Evolves s₀ s) : Evolves s₀ (s.onLink f) := h
protected theorem Evolves.onPort {p : PortId} {f : Port → Port} (h : Evolves s₀ s) : Evolves s₀ (s.onPort p f) := h
protected theorem Evolves.answer {p : PortId} {st : Status} {b : Bool} {f : List Byte} (h : Evolves s₀ s) :
    Evolves s₀ (answer p st b f s) := h
protected theorem Evolves.onFetch {i : Fin 4} {f : FetchChan → FetchChan} (h : Evolves s₀ s) : Evolves s₀ (s.onFetch i f) := h

protected theorem Evolves.onMonitor {f : Monitor → Monitor} (hf : s.monitor.Fades (f s.monitor)) (h : Evolves s₀ s) :
    Evolves s₀ (s.onMonitor f) :=
  h.trans ⟨id, id, hf⟩

/-- An update of one channel keeps its bounds; that they held at first may be used. -/
protected theorem Evolves.onStream {i : Fin 4} {f : StreamChan → StreamChan}
    (hf : (∀ ch : Fin 4, (s₀.streams[ch]).bounded) → (s.streams[i]).bounded → (f s.streams[i]).bounded) (h : Evolves s₀ s) :
    Evolves s₀ (s.onStream i f) := by
  refine ⟨h.ring, fun hs ch => ?_, h.monitor⟩
  by_cases hch : ch = i
  · subst hch
    rw [streams_onStream_same]
    exact hf hs (h.streams hs ch)
  · rw [onStream_streams, vmod_get_other _ _ _ _ hch]
    exact h.streams hs ch

/-- An update of every channel that keeps the FIFO and the record in assembly. -/
protected theorem Evolves.vmapStreams {f : StreamChan → StreamChan} (hf : ∀ c, c.bounded → (f c).bounded) (h : Evolves s₀ s) :
    Evolves s₀ { s with streams := vmap f s.streams } := by
  refine h.trans ⟨id, fun hs ch => ?_, Iff.rfl, Nat.le_refl _⟩
  show ((vmap f s.streams)[ch]).bounded
  rw [vmap_get]
  exact hf _ (hs ch)

protected theorem Evolves.forEach {α : Type} {xs : List α} {f : α → State → State}
    (hf : ∀ x s, Evolves s₀ s → Evolves s₀ (f x s)) (h : Evolves s₀ s) : Evolves s₀ (forEach xs f s) := by
  induction xs generalizing s with
  | nil => exact h
  | cons x xs ih => exact ih (hf x s h)

/-! ## Events and errors (R19, R154, R161, R164) -/

theorem Ring.sound_post (r : Ring) (time : PartTime) (o : Origin) (kind : Byte) (args : List (BitVec 32)) (h : r.sound) :
    (r.post time o kind args).sound :=
  ⟨Ring.post_length_le r time o kind args h.1, Ring.consecutive_post r time o kind args h.2⟩

protected theorem Evolves.post {o : Origin} {k : Byte} {args : List Nat} (h : Evolves s₀ s) : Evolves s₀ (post o k args s) :=
  .onRing (Ring.sound_post _ _ _ _ _) h

protected theorem Evolves.setPin {f : BitVec 32} {n : Nat} (h : Evolves s₀ s) : Evolves s₀ (setPin f n s) := by
  unfold Machine.setPin
  split
  · exact h
  · exact .onRing id h

protected theorem Evolves.offerError {k : ErrKind} {p w : Nat} {op : Operation} (h : Evolves s₀ s) :
    Evolves s₀ (offerError k p w op s) := by
  unfold Machine.offerError
  split <;> exact h

protected theorem Evolves.offerScrub {p : Nat} (h : Evolves s₀ s) : Evolves s₀ (offerScrub p s) := by
  unfold Machine.offerScrub
  split
  · exact h
  · split
    · exact h
    · exact .post h

/-- An operation that is done or left out. -/
protected theorem Evolves.ite {c : Prop} [Decidable c] {a b : State} (ha : Evolves s₀ a) (hb : Evolves s₀ b) :
    Evolves s₀ (if c then a else b) := by
  split <;> assumption

protected theorem Evolves.takePage {op : Operation} {a b : Nat} {ws : List WordRead} (h : Evolves s₀ s) :
    Evolves s₀ (takePage op a b ws s) := by
  unfold Machine.takePage
  extract_lets nc np counted told₁ told₂ offered₁ offered₂
  have h₁ : Evolves s₀ told₁ := .ite h (.post h)
  have h₂ : Evolves s₀ told₂ := .ite h₁ (.post h₁)
  have h₃ : Evolves s₀ offered₁ := by
    unfold offered₁
    split
    · exact .offerError h₂
    · exact h₂
  have h₄ : Evolves s₀ offered₂ := by
    unfold offered₂
    split
    · exact .offerError h₃
    · exact h₃
  exact .ite (.offerScrub h₄) h₄

protected theorem Evolves.reportProgramFail {op : Operation} {p w : Nat} (h : Evolves s₀ s) :
    Evolves s₀ (reportProgramFail op p w s) :=
  .offerError h

protected theorem Evolves.reportEraseFail {p w : Nat} (h : Evolves s₀ s) : Evolves s₀ (reportEraseFail p w s) := .offerError h

/-! ## The store's tables (R124 to R128, R145) -/

protected theorem Evolves.setBlock {b : Nat} {x : BlockState} (h : Evolves s₀ s) : Evolves s₀ (setBlock b x s) := by
  unfold Machine.setBlock
  split <;> exact h

protected theorem Evolves.enqueueErases {who : Eraser} {bs : List Nat} (h : Evolves s₀ s) : Evolves s₀ (enqueueErases who bs s) :=
  .forEach (fun _ _ h => h) h

protected theorem Evolves.handRetirement {r : JRec} (h : Evolves s₀ s) : Evolves s₀ (handRetirement r s) := by
  unfold Machine.handRetirement
  split <;> exact h

protected theorem Evolves.retirePage {p : Nat} (h : Evolves s₀ s) : Evolves s₀ (retirePage p s) := .post (.handRetirement h)

protected theorem Evolves.retireBlock {b : Nat} {k : RetireCause} (h : Evolves s₀ s) : Evolves s₀ (retireBlock b k s) :=
  .post (.handRetirement (.setBlock h))

protected theorem Evolves.retireForProgram {p : Nat} (h : Evolves s₀ s) : Evolves s₀ (retireForProgram p s) :=
  .ite h (.ite (.retirePage h) (.ite (.retireBlock h) h))

protected theorem Evolves.retireBehind {k p : Nat} (h : Evolves s₀ s) : Evolves s₀ (retireBehind k p s) := .ite h (.post h)

protected theorem Evolves.retireForErase {ps : List Nat} (h : Evolves s₀ s) : Evolves s₀ (retireForErase ps s) :=
  .forEach (fun _ _ h => .ite (.retirePage h) h) h

protected theorem Evolves.dropScrub {bs : List (Option Nat)} (h : Evolves s₀ s) : Evolves s₀ (dropScrub bs s) := by
  unfold Machine.dropScrub
  split
  · exact h
  · exact .ite h (.ite h h)

protected theorem Evolves.removeCapture {e : DirEntry} (h : Evolves s₀ s) : Evolves s₀ (removeCapture e s) :=
  Evolves.dropScrub (s := enqueueErases .area _ _) (.enqueueErases (.forEach (fun _ _ h => .setBlock h) h))

/-! ## Claims and retain lines (R44, R98) -/

protected theorem Evolves.claimFor {c : Capture} {items : List WalkItem} (h : Evolves s₀ s) : Evolves s₀ (claimFor c items s) :=
  .forEach (fun _ _ h => .ite h (.onStream (fun _ => id) h)) h

protected theorem Evolves.unclaimOne {e : PlanEntry} (h : Evolves s₀ s) : Evolves s₀ (unclaimOne e s) := by
  unfold Machine.unclaimOne
  split
  · exact .onStream (fun _ => id) h
  · exact h

protected theorem Evolves.unclaimAll (h : Evolves s₀ s) : Evolves s₀ (unclaimAll s) := .vmapStreams (fun _ => id) h

protected theorem Evolves.assertLines {cap : Nat} {l : BitVec 8} (h : Evolves s₀ s) : Evolves s₀ (assertLines cap l s) :=
  .ite h (.post h)

protected theorem Evolves.releaseOne {cap : Nat} {e : PlanEntry} (h : Evolves s₀ s) : Evolves s₀ (releaseOne cap e s) := by
  unfold Machine.releaseOne
  split
  · exact h
  · exact .ite (.post h) h

protected theorem Evolves.releaseAll {cap : Nat} (h : Evolves s₀ s) : Evolves s₀ (releaseAll cap s) :=
  .forEach (fun _ _ h => .ite (.post h) h) h

/-! ## Triggers (R79 to R83) -/

protected theorem Evolves.tellTaken {w : Sender} {m : Byte} {c : Nat} (h : Evolves s₀ s) : Evolves s₀ (tellTaken w m c s) := by
  cases w <;> exact h

protected theorem Evolves.tellRefused {w : Sender} {r : Refuse} (h : Evolves s₀ s) : Evolves s₀ (tellRefused w r s) := by
  cases w <;> exact h

protected theorem Evolves.refuseTrigger {src : Nat} {w : Sender} {r : Refuse} (h : Evolves s₀ s) :
    Evolves s₀ (refuseTrigger src w r s) :=
  .tellRefused (.post h)

protected theorem Evolves.openCapture {n : Nat} (h : Evolves s₀ s) : Evolves s₀ (openCapture n s) := by
  unfold Machine.openCapture
  split
  · exact h
  · next c _ =>
    extract_lets reserved timed told f numbered pinned claimed counted asserted running
    have hpinned : Evolves s₀ pinned := .ite (.setPin (.post h)) (.post h)
    have hasserted : Evolves s₀ asserted := .assertLines (.claimFor hpinned)
    exact Evolves.tellTaken (s := running) hasserted

protected theorem Evolves.beginOpening {src : Nat} {w : Sender} (h : Evolves s₀ s) : Evolves s₀ (beginOpening src w s) := by
  unfold Machine.beginOpening
  dsimp only
  split
  · exact .openCapture h
  · exact h

protected theorem Evolves.extendWalk {src : Nat} (h : Evolves s₀ s) : Evolves s₀ (extendWalk src s) := by
  unfold Machine.extendWalk
  split
  · exact h
  · extract_lets added grown claimed asserted
    have hclaimed : Evolves s₀ claimed := .claimFor h
    have hasserted : Evolves s₀ asserted := by
      unfold asserted
      split
      · exact .assertLines hclaimed
      · exact hclaimed
      · exact hclaimed
    exact .ite h (.ite (.setPin hasserted) hasserted)

protected theorem Evolves.joinCapture {src : Nat} {w : Sender} (h : Evolves s₀ s) : Evolves s₀ (joinCapture src w s) := by
  unfold Machine.joinCapture
  split
  · exact h
  · exact .tellTaken (.ite (.post h) (.extendWalk (.post h)))

protected theorem Evolves.trigger {src : Nat} {w : Sender} (h : Evolves s₀ s) : Evolves s₀ (trigger src w s) := by
  unfold Machine.trigger
  split
  · exact .refuseTrigger h
  · exact .joinCapture h
  · exact .joinCapture h
  · exact .joinCapture h
  · refine .ite (.ite h h) ?_
    split
    · exact .refuseTrigger h
    · exact .beginOpening h

/-! ## The allowance (R110, R114) -/

protected theorem Evolves.applyExhaustion (h : Evolves s₀ s) : Evolves s₀ (applyExhaustion s) := by
  have tested : s.monitor.state ≠ .normal → ∀ b : Bool, Evolves s₀ (s.onMonitor fun m =>
      { m with exhaustOn := b, state := if b && m.state = .holdup then .exhausted else m.state }) := by
    intro hs b
    refine .onMonitor ⟨?_, Nat.le_refl _⟩ h
    dsimp only
    split <;> simp [hs]
  unfold Machine.applyExhaustion
  extract_lets holds was shown stalled
  have posted : s.monitor.state ≠ .normal → Evolves s₀
      (if (!holds) = true then shown else if was = true then stalled else
        Machine.post .holdup evHoldupExhausted [stalled.monitor.remaining, captureNumber stalled] stalled) := by
    intro hs
    have hshown : Evolves s₀ shown := tested hs holds
    have hstalled : Evolves s₀ stalled := .ite hshown hshown
    exact .ite hshown (.ite hstalled (.post hstalled))
  split
  next => exact h
  next => exact h
  next hs => exact posted (by simp [hs])
  next hs => exact posted (by simp [hs])

protected theorem Evolves.drawProgram (h : Evolves s₀ s) : Evolves s₀ (drawProgram s) :=
  .ite h (.applyExhaustion (.onMonitor ⟨Iff.rfl, Nat.sub_le _ _⟩ h))

protected theorem Evolves.resample {v : Nat} (h : Evolves s₀ s) : Evolves s₀ (resample v s) :=
  .applyExhaustion (.post (.onMonitor ⟨Iff.rfl, Nat.min_le_left _ _⟩ h))

protected theorem Evolves.setStall (h : Evolves s₀ s) : Evolves s₀ (setStall s) := .applyExhaustion h

/-! ## The fetch channels (chapter 4) -/

protected theorem Evolves.advanceRegion {ch : Fin 4} (h : Evolves s₀ s) : Evolves s₀ (advanceRegion ch s) := by
  unfold Machine.advanceRegion
  split
  · exact h
  · split
    · exact h
    · split <;> exact h

protected theorem Evolves.declareSilent {ch : Fin 4} {a b : Nat} (h : Evolves s₀ s) : Evolves s₀ (declareSilent ch a b s) := by
  unfold Machine.declareSilent
  split
  · exact h
  · exact .post h

protected theorem Evolves.failTransaction {ch : Fin 4} {t : Txn} (h : Evolves s₀ s) : Evolves s₀ (failTransaction ch t s) :=
  .ite (.declareSilent h) h

protected theorem Evolves.judgeAnswer {ch : Fin 4} {t r n : Byte} {d : List Byte} (h : Evolves s₀ s) :
    Evolves s₀ (judgeAnswer ch t r n d s) := by
  unfold Machine.judgeAnswer
  split
  · exact .ite h (.ite h (.ite h h))
  · exact h

protected theorem Evolves.answerWhole {ch : Fin 4} {t r n : Byte} {d : List Byte} (h : Evolves s₀ s) :
    Evolves s₀ (answerWhole ch t r n d s) :=
  .ite (.judgeAnswer h) h

protected theorem Evolves.answerByte {ch : Fin 4} {b : Byte} (h : Evolves s₀ s) : Evolves s₀ (answerByte ch b s) := by
  have received : ∀ got : List Byte, Evolves s₀ (answerRx ch got s) := by
    intro got
    unfold answerRx
    split
    · exact .ite h (.ite h (.answerWhole h))
    · exact h
  unfold Machine.answerByte
  split
  · exact .ite h h
  · exact received _

protected theorem Evolves.fetchAnswered {w : AnswerWire} {t r n : Byte} {d : List Byte} {c : BitVec 16} (h : Evolves s₀ s) :
    Evolves s₀ (fetchAnswered w t r n d c s) :=
  .ite h (.forEach (fun _ _ h => .answerByte h) h)

protected theorem Evolves.fetchTimedOut {ch : Fin 4} (h : Evolves s₀ s) : Evolves s₀ (fetchTimedOut ch s) := by
  unfold Machine.fetchTimedOut
  split
  · exact .ite (.ite h (.failTransaction h)) h
  · exact h

/-! ## The stream channels (chapter 3) -/

theorem StreamRec.size_eq (r : StreamRec) : r.size = 12 + 4 * r.containers.length := rfl

theorem StreamChan.bounded_of_assembly {c : StreamChan} {f : StreamChan → StreamChan} (hfifo : (f c).fifo = c.fifo)
    (hassembly : (f c).assembly = c.assembly ∨ ∃ a, (f c).assembly = some a ∧ a.words.length ≤ 256) (hc : c.bounded) :
    (f c).bounded := by
  refine ⟨by rw [hfifo]; exact hc.1, fun a ha => ?_⟩
  rcases hassembly with h | ⟨b, hb, hwords⟩
  · exact hc.2 a (h.symm.trans ha)
  · cases hb.symm.trans ha
    exact hwords

/-- A FIFO to which a record that fits is appended. -/
theorem StreamChan.bounded_append (c : StreamChan) (r : StreamRec) (hfits : c.bytesHeld + r.size ≤ fifoMax)
    (hassembly : ∀ a : Assembly, c.assembly = some a → a.words.length ≤ 256) : (c.append r).bounded := by
  refine ⟨?_, hassembly⟩
  have hheld : (c.fifo.map fun r => 12 + 4 * r.containers.length).sum = c.bytesHeld := rfl
  simp only [append, List.map_append, List.map_cons, List.map_nil, List.sum_append, List.sum_cons, List.sum_nil, hheld]
  exact hfits

/-- Ageing makes room for every record that fits an empty FIFO. -/
theorem ageFifo_fits (size : Nat) (hsize : size ≤ fifoMax) (xs : List StreamRec) :
    ((ageFifo size xs).map StreamRec.size).sum + size ≤ fifoMax := by
  induction xs with
  | nil => simpa [ageFifo] using hsize
  | cons x xs ih =>
    unfold ageFifo
    split
    · assumption
    · exact ih

theorem packWords_length_le : ∀ ws : List (BitVec 32), (packWords ws).length ≤ ws.length
  | [] => Nat.le_refl _
  | [_] => Nat.le_refl _
  | _ :: _ :: rest => by
    have h := packWords_length_le rest
    simp only [packWords, List.length_cons]
    omega

/-- A record of at most 256 words fits an empty FIFO. -/
theorem Assembly.size_record_le (a : Assembly) (ch : Fin 4) (b : Bool) (h : a.words.length ≤ 256) :
    (a.record ch b).size ≤ fifoMax := by
  have hcontainers : (containersOf a.packed a.words).length ≤ a.words.length := by
    unfold containersOf
    split
    · exact packWords_length_le a.words
    · exact Nat.le_refl _
  simp only [Assembly.record, StreamRec.size_eq, fifoMax]
  omega

protected theorem Evolves.endQuiet {ch : Fin 4} (h : Evolves s₀ s) : Evolves s₀ (endQuiet ch s) := by
  unfold Machine.endQuiet
  split
  · exact .ite h h
  · exact h

protected theorem Evolves.dropRecord {ch : Fin 4} {cl : Claim} {r : StreamRec} (h : Evolves s₀ s) :
    Evolves s₀ (dropRecord ch cl r s) := by
  have counted := Evolves.onStream (i := ch) (f := fun c => { c with overrun := satInc c.overrun, pendDrops := satInc c.pendDrops })
    (fun _ => id) h
  exact .ite counted (.post (.onStream (fun _ => id) counted))

/-- A record that an empty FIFO can hold is appended, appended after ageing, or dropped. -/
protected theorem Evolves.offerRecord {ch : Fin 4} {r : StreamRec} (hr : (∀ ch : Fin 4, (s₀.streams[ch]).bounded) → r.size ≤ fifoMax)
    (h : Evolves s₀ s) :
    Evolves s₀ (offerRecord ch r s) := by
  unfold Machine.offerRecord
  extract_lets counted c
  have hcounted : Evolves s₀ counted := .onStream (fun _ => id) h
  split
  next hfits =>
    exact .endQuiet (.onStream (fun _ hc => StreamChan.bounded_append _ r (of_decide_eq_true hfits) hc.2) hcounted)
  · split
    · exact .dropRecord hcounted
    · exact .endQuiet (.onStream (fun hs hc => StreamChan.bounded_append _ r (ageFifo_fits r.size (hr hs) _) hc.2) hcounted)

/-- The record in assembly enters the FIFO; that it fits one is its own bound. -/
protected theorem Evolves.completeRecord {ch : Fin 4} {b : Bool} {x : RxState} (h : Evolves s₀ s) :
    Evolves s₀ (completeRecord ch b x s) := by
  unfold Machine.completeRecord
  split
  · exact h
  next a ha =>
    extract_lets err ended counted told
    have hended : Evolves s₀ ended := .onStream (fun _ hc => ⟨hc.1, nofun⟩) h
    have hcounted : Evolves s₀ counted := .ite (.onStream (fun _ => id) hended) hended
    have htold : Evolves s₀ told := .ite (.post hcounted) hcounted
    exact .offerRecord (fun hs => a.size_record_le ch err ((h.streams hs ch).2 a ha)) htold

protected theorem Evolves.syncAsserted {ch : Fin 4} (h : Evolves s₀ s) : Evolves s₀ (syncAsserted ch s) := by
  unfold Machine.syncAsserted
  split
  · refine .onStream (fun _ hc => ⟨hc.1, fun a ha => ?_⟩) h
    cases ha
    exact Nat.zero_le _
  all_goals exact h

protected theorem Evolves.syncReleased {ch : Fin 4} (h : Evolves s₀ s) : Evolves s₀ (syncReleased ch s) := by
  unfold Machine.syncReleased
  split
  · exact .completeRecord h
  · exact .onStream (fun _ => id) h
  all_goals exact h

protected theorem Evolves.streamStalled {ch : Fin 4} (h : Evolves s₀ s) : Evolves s₀ (streamStalled ch s) :=
  .ite (.completeRecord h) h

/-- A frame is appended where it fits, so the words stay within their bound (R37). -/
theorem Assembly.words_frame_le (a : Assembly) (ws : List (BitVec 32)) (h : a.words.length ≤ 256) :
    (a.frame ws).words.length ≤ 256 := by
  unfold frame
  dsimp only
  split
  · rw [List.length_append]
    assumption
  · exact h

theorem Assembly.words_bit_le (a : Assembly) (n : Nat) (now : PartTime) (da db : Bool) (h : a.words.length ≤ 256) :
    (a.bit n now da db).words.length ≤ 256 := by
  unfold bit
  dsimp only
  split
  · exact h
  · split
    · split
      · exact h
      · exact words_frame_le _ _ h
    · exact words_frame_le _ _ h

protected theorem Evolves.clkEdge {ch : Fin 4} {da db : Bool} (h : Evolves s₀ s) : Evolves s₀ (clkEdge ch da db s) := by
  refine .ite (.onStream (fun _ hc => ?_) h) h
  split
  · exact hc
  next a ha =>
    refine ⟨hc.1, fun b hb => ?_⟩
    cases hb
    exact a.words_bit_le _ _ _ _ (hc.2 a ha)

/-! ## Ends and closes (R85, R92 to R103, R112) -/

protected theorem Evolves.dropBufs {is : List (Fin 4)} (h : Evolves s₀ s) : Evolves s₀ (dropBufs is s) :=
  .forEach (fun _ _ h => h) h

protected theorem Evolves.withdrawFor {c : Capture} (h : Evolves s₀ s) : Evolves s₀ (withdrawFor c s) := by
  unfold Machine.withdrawFor
  split <;> exact h

protected theorem Evolves.endGathering {o : OutcomeCode} {e : Bool} (h : Evolves s₀ s) : Evolves s₀ (endGathering o e s) := by
  unfold Machine.endGathering
  split
  · exact h
  next c _ =>
    extract_lets withdrawn
    have hwithdrawn : Evolves s₀ withdrawn := .ite (.withdrawFor h) h
    exact hwithdrawn

protected theorem Evolves.closeEarly {k : CloseCause} {o : OutcomeCode} (h : Evolves s₀ s) : Evolves s₀ (closeEarly k o s) := by
  unfold Machine.closeEarly
  extract_lets closing
  have hclosing : Evolves s₀ closing := h
  clear_value closing
  split
  · exact .ite hclosing (.endGathering hclosing)
  · exact .ite (.onSection hclosing) hclosing
  all_goals first | exact hclosing | exact .ite hclosing (.setPhase (.onSection hclosing))

protected theorem Evolves.cutSection {k : CloseCause} {o : OutcomeCode} {d : Buf → Bool} (h : Evolves s₀ s) :
    Evolves s₀ (cutSection k o d s) := by
  unfold Machine.cutSection
  split
  · exact h
  · extract_lets ph gone withdrawn closing cut
    have hwithdrawn : Evolves s₀ withdrawn := .withdrawFor (.dropBufs h)
    clear_value withdrawn
    have hclosing : Evolves s₀ closing := hwithdrawn
    clear_value closing
    show Evolves s₀ cut
    unfold cut
    split <;> exact hclosing

protected theorem Evolves.closeForPower (h : Evolves s₀ s) : Evolves s₀ (closeForPower s) := by
  unfold Machine.closeForPower reformClose
  split <;> exact h

protected theorem Evolves.flushForPower {c : Capture} (h : Evolves s₀ s) : Evolves s₀ (flushForPower c s) := by
  unfold Machine.flushForPower
  extract_lets ph lapsed waiting pick dropped cut left flushed headDropped
  have hleft : Evolves s₀ left := .withdrawFor (.dropBufs h)
  clear_value left pick cut
  have hflushed : Evolves s₀ flushed := by
    unfold flushed
    cases pick <;> exact hleft
  clear_value flushed
  have hdropped : Evolves s₀ headDropped := by
    unfold headDropped
    cases cut <;> exact hflushed
  exact hdropped

protected theorem Evolves.powerClose (h : Evolves s₀ s) : Evolves s₀ (powerClose s) := by
  unfold Machine.powerClose
  split
  · exact h
  next c _ => exact .ite (.closeForPower h) (Evolves.closeForPower (s := Machine.flushForPower c s) (.flushForPower h))

protected theorem Evolves.refuseSectionBegin {n : Nat} (h : Evolves s₀ s) : Evolves s₀ (refuseSectionBegin n s) := by
  unfold Machine.refuseSectionBegin
  split
  · exact h
  · extract_lets waiting withdrawn moved cut
    have hwithdrawn : Evolves s₀ withdrawn := .withdrawFor (.dropBufs h)
    have hmoved : Evolves s₀ moved := by
      unfold moved
      split <;> exact hwithdrawn
    exact .ite (.powerClose h) (Evolves.closeForPower (s := cut) hmoved)

protected theorem Evolves.refuseAllot {b : Nat} (h : Evolves s₀ s) : Evolves s₀ (refuseAllot b s) :=
  Evolves.powerClose (s := State.onCapture _ (setBlock b .free s)) (.setBlock h)

protected theorem Evolves.headSettled {n : Option Nat} (h : Evolves s₀ s) : Evolves s₀ (headSettled n s) := by
  unfold Machine.headSettled
  extract_lets settled
  split
  · exact .ite h (.ite h h)
  · exact h

protected theorem Evolves.bufAccepted {i : Fin 4} (h : Evolves s₀ s) : Evolves s₀ (bufAccepted i s) := .ite (.headSettled h) h

protected theorem Evolves.retryBuf {i : Fin 4} {c : Capture} (h : Evolves s₀ s) : Evolves s₀ (retryBuf i c s) := by
  unfold Machine.retryBuf
  extract_lets b shift moved counted queued waiting
  have hmoved : Evolves s₀ moved := .forEach (fun _ _ h => .onBuf h) h
  clear_value moved
  have hwaiting : Evolves s₀ waiting := hmoved
  clear_value waiting
  exact .ite (.cutSection hwaiting) hwaiting

protected theorem Evolves.faultBuf {i : Fin 4} {c : Capture} (h : Evolves s₀ s) : Evolves s₀ (faultBuf i c s) := by
  unfold Machine.faultBuf
  extract_lets b emptied next gone withdrawn moved
  have hemptied : Evolves s₀ emptied := .onBuf h
  clear_value emptied
  have hwithdrawn : Evolves s₀ withdrawn := .withdrawFor (.dropBufs hemptied)
  clear_value withdrawn
  have hmoved : Evolves s₀ moved := .onCapture hwithdrawn
  clear_value moved
  exact .ite (.headSettled (.onCapture hemptied)) hmoved

protected theorem Evolves.bufFailed {i : Fin 4} (h : Evolves s₀ s) : Evolves s₀ (bufFailed i s) := by
  unfold Machine.bufFailed
  split
  · exact h
  · exact .ite (.faultBuf h) (.retryBuf h)

protected theorem Evolves.bufRefused {i : Fin 4} (h : Evolves s₀ s) : Evolves s₀ (bufRefused i s) :=
  .ite (.setStall h) (.powerClose h)

protected theorem Evolves.rearmForClose {cap : Nat} (h : Evolves s₀ s) : Evolves s₀ (rearmForClose cap s) :=
  .forEach (fun _ _ h => .ite h h) h

protected theorem Evolves.answerRestart {p : PortId} {f : Bool} {cap : Nat} {o : Byte} (h : Evolves s₀ s) :
    Evolves s₀ (answerRestart p f cap o s) := by
  unfold Machine.answerRestart
  split <;> exact h

protected theorem Evolves.answerClose {cap : Nat} {o : OutcomeCode} (h : Evolves s₀ s) : Evolves s₀ (answerClose cap o s) := by
  refine .forEach (fun p s h => ?_) h
  split
  · exact .ite h h
  · exact .ite (.answerRestart h) h
  · exact h

protected theorem Evolves.answerUnopened {cap : Nat} (h : Evolves s₀ s) : Evolves s₀ (answerUnopened cap s) := by
  refine .forEach (fun p s h => ?_) h
  split
  · exact .ite h h
  · exact .ite (.answerRestart h) h
  · exact h

protected theorem Evolves.refuseOpening {r : Refuse} (h : Evolves s₀ s) : Evolves s₀ (refuseOpening r s) := by
  unfold Machine.refuseOpening
  split
  · exact h
  · exact .answerUnopened (.refuseTrigger h)

protected theorem Evolves.finishClose (h : Evolves s₀ s) : Evolves s₀ (finishClose s) := by
  unfold Machine.finishClose
  split
  · exact h
  · extract_lets o pages released cleared told rearmed
    have hreleased : Evolves s₀ released := .releaseAll (.unclaimAll (s := releasePin s) (.onRing id h))
    clear_value released
    have hcleared : Evolves s₀ cleared := hreleased
    clear_value cleared
    have htold : Evolves s₀ told := .onLink (.post hcleared)
    clear_value told
    have hrearmed : Evolves s₀ rearmed := .ite (.onTrig (.rearmForClose htold)) (.rearmForClose htold)
    exact Evolves.answerClose (s := discardCapture rearmed) hrearmed

/-! ## The results of programs, records and erases (R123, R127, R139) -/

protected theorem Evolves.deleteAccepted {cap : Nat} {k : Nat → State → State} (hk : ∀ n s, Evolves s₀ s → Evolves s₀ (k n s))
    (h : Evolves s₀ s) : Evolves s₀ (deleteAccepted cap k s) := by
  unfold Machine.deleteAccepted
  split
  · exact hk _ _ (.removeCapture h)
  · exact h

protected theorem Evolves.portRecordAccepted {p : PortId} {r : JRec} (h : Evolves s₀ s) :
    Evolves s₀ (portRecordAccepted p r s) := by
  unfold Machine.portRecordAccepted
  split
  · exact .answer (.post (.onDir h))
  · exact .answer (.post (.onDir h))
  · exact .answer (.deleteAccepted (fun _ _ h => .post h) h)
  · exact .answer (.onPort (.post (.onDir h)))
  · exact h

protected theorem Evolves.checkpointAccepted {g : BitVec 32} {n : Nat} (h : Evolves s₀ s) :
    Evolves s₀ (checkpointAccepted g n s) := by
  have finished : Evolves s₀ (finishCompaction g n s) := .post (.onDir h)
  have forgotten : ∀ t, Evolves s₀ t → Evolves s₀ (forgetNumbers t) := fun t ht =>
    .onLink (.vmapStreams (f := fun c => { c with noticed := 0 }) (fun _ => id) (.onTrig (.onDir ht)))
  exact .ite (.onDir (forgotten _ finished)) finished

protected theorem Evolves.recordAccepted {x : Slotted} (h : Evolves s₀ s) : Evolves s₀ (recordAccepted x s) := by
  unfold Machine.recordAccepted
  split
  · exact .checkpointAccepted h
  · exact h
  · exact .finishClose h
  · exact h
  · exact h
  · exact .portRecordAccepted h
  · exact .deleteAccepted (fun _ _ h => .post h) h
  · exact h
  · exact .deleteAccepted (fun _ _ h => .post h) h
  · exact h
  · exact Evolves.post h
  · exact h

protected theorem Evolves.recordRefused {x : Slotted} (h : Evolves s₀ s) : Evolves s₀ (recordRefused x s) := by
  unfold Machine.recordRefused
  split
  · exact .refuseSectionBegin h
  · exact .refuseAllot h
  · exact .setStall h
  · exact .setStall h
  all_goals exact h

protected theorem Evolves.endStore {st : Status} {f : List Byte} (h : Evolves s₀ s) : Evolves s₀ (endStore st f s) := by
  unfold Machine.endStore
  split <;> exact h

protected theorem Evolves.storeFailed (h : Evolves s₀ s) : Evolves s₀ (storeFailed s) := by
  unfold Machine.storeFailed
  split
  · exact h
  · exact .ite (.endStore h) (.ite (.endStore h) h)

protected theorem Evolves.storePageAccepted (h : Evolves s₀ s) : Evolves s₀ (storePageAccepted s) := by
  unfold Machine.storePageAccepted
  split
  · exact h
  · split
    · exact h
    · exact .ite h (.endStore (.post h))

protected theorem Evolves.storeErased (h : Evolves s₀ s) : Evolves s₀ (storeErased s) := by
  unfold Machine.storeErased
  split
  · exact h
  · exact .endStore h
  · exact h

protected theorem Evolves.commitAccepted {p : PortId} (h : Evolves s₀ s) : Evolves s₀ (commitAccepted p s) := by
  unfold Machine.commitAccepted
  split <;> exact h

protected theorem Evolves.journalAccepted (h : Evolves s₀ s) : Evolves s₀ (journalAccepted s) :=
  .forEach (fun _ _ h => .recordAccepted h) h

protected theorem Evolves.programAccepted {w : Programmer} {p : Nat} (h : Evolves s₀ s) : Evolves s₀ (programAccepted w p s) := by
  cases w
  case buf => exact .bufAccepted h
  case journal => exact .journalAccepted h
  case relocation => exact .ite h h
  case commit => exact .commitAccepted h
  case settings => exact .storePageAccepted h

protected theorem Evolves.reformClose (h : Evolves s₀ s) : Evolves s₀ (reformClose s) := by
  unfold Machine.reformClose
  split <;> exact h

protected theorem Evolves.programFailed {w : Programmer} {p : Nat} (h : Evolves s₀ s) : Evolves s₀ (programFailed w p s) := by
  cases w
  case buf => exact .bufFailed h
  case journal => exact Evolves.reformClose (s := startCompaction (s.onDir (moveOn s.store.retPages p))) h
  case relocation => exact .ite h h
  case commit => exact h
  case settings => exact .storeFailed h

protected theorem Evolves.verifyFailed {w : Programmer} {p n : Nat} (h : Evolves s₀ s) : Evolves s₀ (verifyFailed w p n s) := by
  have failed : Evolves s₀ (Machine.programFailed w p (reportProgramFail (programOperation w) p n (retireForProgram p s))) :=
    .programFailed (.reportProgramFail (.retireForProgram h))
  cases w
  case journal =>
    exact .reportProgramFail (.ite (.retireBehind (.programFailed h)) (.retireForProgram (.programFailed h)))
  all_goals exact failed

protected theorem Evolves.targetFailed {w : Programmer} {p : Nat} (h : Evolves s₀ s) : Evolves s₀ (targetFailed w p s) :=
  .programFailed (.reportProgramFail h)

protected theorem Evolves.eraseHanded {w : Eraser} {d : Bool} (h : Evolves s₀ s) : Evolves s₀ (eraseHanded w d s) := by
  cases w
  case area => exact h
  case journal => exact .ite h h
  case pool => exact h
  case settings => exact .ite (.storeErased h) (.storeFailed h)

protected theorem Evolves.eraseEnded {w : Eraser} {b : Nat} {ps : List Nat} (h : Evolves s₀ s) :
    Evolves s₀ (eraseEnded w b ps s) := by
  cases ps with
  | nil => exact Evolves.eraseHanded (.ite (.setBlock h) h)
  | cons p ps =>
    exact Evolves.eraseHanded (.ite (.retireBlock (.reportEraseFail h)) (.retireForErase (.reportEraseFail h)))

/-! ## The engine's own steps (R81 to R96, R102) -/

/-- A step that a block takes, or none. -/
inductive Act.Evolves (s₀ : State) : Act → Prop
  | did {t : State} (h : Machine.Evolves s₀ t) : Act.Evolves s₀ (.did t)
  | wait : Act.Evolves s₀ .wait

inductive Sought.Evolves (s₀ : State) : Sought → Prop
  | did {t : State} (h : Machine.Evolves s₀ t) : Sought.Evolves s₀ (.did t)
  | wait : Sought.Evolves s₀ .wait
  | nothing : Sought.Evolves s₀ .nothing

theorem Act.Evolves.of_did {a : Act} {t : State} (h : a.Evolves s₀) (ha : a = .did t) : Machine.Evolves s₀ t := by
  cases ha
  cases h
  assumption

theorem Sought.Evolves.of_did {a : Sought} {t : State} (h : a.Evolves s₀) (ha : a = .did t) : Machine.Evolves s₀ t := by
  cases ha
  cases h
  assumption

theorem Act.Evolves.ite {c : Prop} [Decidable c] {a b : Act} (ha : a.Evolves s₀) (hb : b.Evolves s₀) :
    Act.Evolves s₀ (if c then a else b) := by
  split <;> assumption

protected theorem Evolves.seekReclaim {b : Bool} (h : Evolves s₀ s) : Sought.Evolves s₀ (seekReclaim b s) := by
  unfold seekReclaim
  split
  · constructor
  · split
    · constructor
    · split
      · constructor
      · split
        · split
          · exact .did (Evolves.hand (.onDir (.onCapture h)))
          · constructor
        · split <;> constructor

protected theorem Evolves.allotBlock {dry : State → State} (hdry : ∀ t, Evolves s₀ t → Evolves s₀ (dry t)) (h : Evolves s₀ s) :
    Act.Evolves s₀ (allotBlock dry s) := by
  unfold allotBlock
  split
  · exact .wait
  · refine .ite (.did (.powerClose h)) ?_
    split
    · exact .ite (.did (.hand (.setBlock h))) .wait
    · have sought := Evolves.seekReclaim (b := true) h
      split
      next ht => exact .did (sought.of_did ht)
      next => exact .wait
      next => exact .did (hdry s h)

protected theorem Evolves.pageNeeds {c : Capture} {a : Act} (ha : pageNeeds c s = some a) (h : Evolves s₀ s) :
    a.Evolves s₀ := by
  unfold pageNeeds at ha
  split at ha
  · cases ha
    exact .did (.closeEarly h)
  · split at ha
    · cases ha
      exact Evolves.allotBlock (fun _ => .closeEarly) h
    · cases ha

protected theorem Evolves.giveBuffer {c : Capture} {n : Nat} {bs : List Byte} {b : Bool} (h : Evolves s₀ s) :
    Act.Evolves s₀ (giveBuffer c n bs b s) := by
  unfold giveBuffer
  split
  · exact .wait
  · split
    next ha => exact Evolves.pageNeeds ha h
    · exact .did (.onBuf (.onCapture h))

protected theorem Evolves.queueData {i : Fin 4} (h : Evolves s₀ s) : Evolves s₀ (queueData i s) :=
  .ite (.onStore (.onBuf h)) (.powerClose h)

protected theorem Evolves.placeStep {c : Capture} {x : Section} (h : Evolves s₀ s) : Act.Evolves s₀ (placeStep c x s) := by
  unfold placeStep
  split
  · extract_lets part
    have given := Evolves.giveBuffer (c := c) (n := x.img) (bs := part) (b := false) h
    split
    next ht => exact .ite (.did (.onSection (given.of_did ht))) (.did (given.of_did ht))
    · exact .wait
  · exact .ite (.did (.queueData h)) (.did (.onSection (.onBuf h)))

protected theorem Evolves.pageLack {c : Capture} {n : Nat} (h : Evolves s₀ s) : Act.Evolves s₀ (pageLack c n s) :=
  .ite .wait (.ite (.did (.closeEarly h)) (Evolves.allotBlock (fun _ => .closeEarly) h))

protected theorem Evolves.gatherStep {c : Capture} {x : Section} {e : PlanEntry} (h : Evolves s₀ s) :
    Act.Evolves s₀ (gatherStep c x e s) := by
  have listed : Act.Evolves s₀ (match x.items with
      | [] => .did (endGathering .complete false s)
      | y :: ys => .did (s.onSection fun x => { x with toPlace := y, items := ys, records := x.records + 1 })) := by
    split
    · exact .did (.endGathering h)
    · exact .did (.onSection h)
  have taken : Act.Evolves s₀ (match waitingSize x e s with
      | some n => if roomNow s < n then pageLack c n s else .wait
      | none => .wait) := by
    split
    · exact .ite (Evolves.pageLack h) .wait
    · exact .wait
  unfold gatherStep
  split
  · exact .did (.endGathering h)
  · split
    · exact listed
    · exact listed
    · exact taken
    · exact taken

protected theorem Evolves.beginRegion {c : Capture} {e : PlanEntry} (h : Evolves s₀ s) : Evolves s₀ (beginRegion c e s) := by
  unfold Machine.beginRegion
  split
  · exact h
  · exact .ite (.onSection (.onFetch h)) (.ite (.post (.onSection (.onFetch h))) (.advanceRegion (.onFetch (.onFetch h))))

protected theorem Evolves.beginSection {c : Capture} {i : WalkItem} {e : PlanEntry} (h : Evolves s₀ s) :
    Evolves s₀ (beginSection c i e s) := by
  unfold Machine.beginSection
  extract_lets history taken noted header sec reserved handed told begun gathering
  have hnoted : Evolves s₀ noted := by
    unfold noted taken
    split <;> exact h
  clear_value noted
  have htold : Evolves s₀ told := .post (.hand (.onDir hnoted))
  clear_value told
  have hgathering : Evolves s₀ gathering := htold
  clear_value gathering
  split
  · exact .beginRegion hgathering
  · exact .ite (.onSection hgathering) hgathering
  · exact hgathering
  · exact hgathering

protected theorem Evolves.releaseForEnd {c : Capture} {e : PlanEntry} (h : Evolves s₀ s) : Evolves s₀ (releaseForEnd c e s) :=
  .ite (.onRing id (.unclaimOne h)) (.unclaimOne h)

protected theorem Evolves.afterSection (h : Evolves s₀ s) : Evolves s₀ (afterSection s) := by
  unfold Machine.afterSection
  split
  · exact h
  · exact .ite (.setPhase h) (.ite (.setPhase (.setEngState h)) (.setPhase h))

protected theorem Evolves.sectionRecordStep {c : Capture} {x : Section} {i : WalkItem} {e : PlanEntry} (h : Evolves s₀ s) :
    Evolves s₀ (sectionRecordStep c x i e s) := by
  unfold Machine.sectionRecordStep
  extract_lets handed ended
  have hhanded : Evolves s₀ handed := .hand (.onDir h)
  clear_value handed
  have hended : Evolves s₀ ended := .onCapture hhanded
  clear_value ended
  have hreleased : Evolves s₀ (Machine.releaseOne c.number e ended) := .releaseOne hended
  exact .afterSection (hreleased.same rfl rfl rfl)

protected theorem Evolves.skipEntry {o : OutcomeCode} {c : Capture} {i : WalkItem} {e : PlanEntry} (h : Evolves s₀ s) :
    Evolves s₀ (skipEntry o c i e s) := by
  unfold Machine.skipEntry
  extract_lets released told handed met
  have htold : Evolves s₀ told := .post (.releaseForEnd (.onDir h))
  clear_value told
  have hhanded : Evolves s₀ handed := .hand htold
  clear_value handed
  have hmet : Evolves s₀ met := .onCapture (.onCapture hhanded)
  clear_value met
  have hreleased : Evolves s₀ (Machine.releaseOne c.number e met) := .releaseOne hmet
  exact hreleased.same rfl rfl rfl

protected theorem Evolves.withTableEntry {f dry : State → State} (hf : ∀ t, Evolves s₀ t → Evolves s₀ (f t))
    (hdry : ∀ t, Evolves s₀ t → Evolves s₀ (dry t)) (h : Evolves s₀ s) : Act.Evolves s₀ (withTableEntry f dry s) := by
  unfold withTableEntry
  split
  · exact .ite (.did (hf s h)) .wait
  · have sought := Evolves.seekReclaim (b := false) h
    split
    next ht => exact .did (sought.of_did ht)
    next => exact .wait
    next => exact .did (hdry s h)

protected theorem Evolves.outOfTable (h : Evolves s₀ s) : Evolves s₀ (outOfTable s) :=
  .closeEarly (s := leaveUnrecorded s) (.onCapture h)

protected theorem Evolves.sectionStart {c : Capture} {i : WalkItem} {e : PlanEntry} (h : Evolves s₀ s) :
    Act.Evolves s₀ (sectionStart c i e s) := by
  unfold sectionStart
  split
  · exact .did (.closeEarly h)
  · split
    · exact .did (.powerClose h)
    · exact Evolves.withTableEntry (f := Machine.beginSection c i e) (dry := Machine.outOfTable) (fun _ => Evolves.beginSection)
        (fun _ => Evolves.outOfTable) h

protected theorem Evolves.sectionSkip {c : Capture} {i : WalkItem} {e : PlanEntry} (h : Evolves s₀ s) :
    Act.Evolves s₀ (sectionSkip c i e s) :=
  Evolves.withTableEntry (f := fun s => Machine.afterSection (Machine.skipEntry .skippedPower c i e s)) (dry := Machine.outOfTable)
    (fun _ ht => Evolves.afterSection (Evolves.skipEntry ht)) (fun _ => Evolves.outOfTable) h

protected theorem Evolves.skipStep {c : Capture} (h : Evolves s₀ s) : Act.Evolves s₀ (skipStep c s) := by
  unfold skipStep
  split
  · exact .did (.setPhase h)
  · split
    · exact .did (.setPhase h)
    · exact Evolves.withTableEntry (fun _ => Evolves.skipEntry) (fun _ => Evolves.onCapture) h

protected theorem Evolves.sectionEndStep {c : Capture} (h : Evolves s₀ s) : Act.Evolves s₀ (sectionEndStep c s) := by
  refine .ite (.did (.setPhase h)) (.ite .wait ?_)
  split
  · exact .did (.setPhase (.post (.releaseForEnd h)))
  · exact .did (.setPhase h)

protected theorem Evolves.drainStep (h : Evolves s₀ s) : Act.Evolves s₀ (drainStep s) := by
  unfold drainStep
  split
  · exact .did (.queueData h)
  · exact .did (.setPhase h)

protected theorem Evolves.trailerStep {c : Capture} {x : Section} (h : Evolves s₀ s) : Act.Evolves s₀ (trailerStep c x s) := by
  unfold trailerStep
  extract_lets lapsed bytes place
  have hplace : place.Evolves s₀ := .did (.setPhase (.onSection h))
  clear_value place
  refine .ite hplace (.ite (.did (.setPhase h)) ?_)
  split
  next ha => exact Evolves.pageNeeds ha h
  · exact hplace

protected theorem Evolves.openSlotStep {c : Capture} (h : Evolves s₀ s) : Act.Evolves s₀ (openSlotStep c s) := by
  unfold openSlotStep
  split
  · exact .did (.openCapture h)
  · have sought := Evolves.seekReclaim (b := false) h
    split
    next ht => exact .did (sought.of_did ht)
    next => exact .wait
    next => exact .did (.refuseOpening h)

protected theorem Evolves.openHeadStep {c : Capture} (h : Evolves s₀ s) : Act.Evolves s₀ (openHeadStep c s) := by
  unfold openHeadStep
  have given := Evolves.giveBuffer (c := c) (n := 0)
    (bs := identityBlock c.number c.trigOpen c.first c.openTime c.epoch) (b := true) h
  split
  · exact .wait
  next ht =>
    split
    · exact .did (.setPhase (.onStore (.onBuf (given.of_did ht))))
    · exact .did (given.of_did ht)

protected theorem Evolves.gatheringStep {c : Capture} {x : Section} {e : PlanEntry} (h : Evolves s₀ s) :
    Act.Evolves s₀ (gatheringStep c x e s) := by
  refine .ite (.did (.powerClose h)) (.ite (Evolves.placeStep h) ?_)
  split
  · exact .ite (.did (.queueData h)) (Evolves.gatherStep h)
  · exact Evolves.gatherStep h

protected theorem Evolves.sectionStep {c : Capture} (h : Evolves s₀ s) : Act.Evolves s₀ (sectionStep c s) := by
  unfold sectionStep
  split
  · extract_lets e
    split
    · exact Evolves.gatheringStep h
    · exact Evolves.trailerStep h
    · exact .ite (.did (.setPhase h)) (Evolves.placeStep h)
    · exact .ite (.did (.sectionRecordStep h)) .wait
    · exact .wait
  · exact .wait

protected theorem Evolves.phaseStep {c : Capture} (h : Evolves s₀ s) : Act.Evolves s₀ (phaseStep c s) := by
  unfold phaseStep
  split
  case h_5 => exact .ite (.did (.setPhase (.hand h))) .wait
  case h_6 => exact Evolves.openHeadStep h
  case h_7 =>
    split
    · exact .did (.setPhase h)
    · exact .wait
  case h_8 =>
    split
    · exact Evolves.sectionSkip h
    · exact .wait
  case h_9 =>
    split
    · exact Evolves.sectionStart h
    · exact .wait
  case h_14 => exact Evolves.drainStep h
  case h_15 => exact Evolves.sectionEndStep h
  case h_16 => exact Evolves.skipStep h
  case h_17 => exact .ite (.did (.setPhase (.hand h))) .wait
  all_goals first | exact .wait | exact Evolves.sectionStep h

protected theorem Evolves.endsAtOnce {c : Capture} {t : State} (ht : endsAtOnce c s = some t) (h : Evolves s₀ s) :
    Evolves s₀ t := by
  unfold endsAtOnce at ht
  split at ht
  · cases ht
    exact .endGathering h
  · split at ht
    · split at ht
      · cases ht
        exact .onSection h
      · split at ht
        · obtain ⟨o, -, rfl⟩ := Option.map_eq_some_iff.mp ht
          exact .endGathering h
        · cases ht
    · cases ht

protected theorem Evolves.engineStep (h : Evolves s₀ s) : Act.Evolves s₀ (engineStep s) := by
  unfold engineStep
  split
  · exact .wait
  · split
    next ht => exact .did (Evolves.endsAtOnce ht h)
    · refine .ite (Evolves.openSlotStep h) (.ite .wait ?_)
      split
      · exact .ite (.did (.hand (.onCapture h))) .wait
      · exact .ite (.did (.ite (.setStall h) (.onCapture h))) (.ite (.did (.powerClose h))
          (.ite (Evolves.allotBlock (fun _ => .cutSection) h) (Evolves.phaseStep h)))

/-! ## The blocks' immediate steps (log 11) -/

protected theorem Evolves.portStep (h : Evolves s₀ s) : Act.Evolves s₀ (portStep s) := by
  refine .ite .wait ?_
  split
  · exact .did (.onPort (.hand h))
  · exact .wait

protected theorem Evolves.retirementStep (h : Evolves s₀ s) : Act.Evolves s₀ (retirementStep s) := by
  refine .ite .wait ?_
  split
  · split
    · exact .did (.hand (.onStore h))
    · exact .wait
  · exact .wait

protected theorem Evolves.readSource {p : Nat} (h : Evolves s₀ s) : Evolves s₀ (readSource p s) := by
  unfold Machine.readSource
  extract_lets ws
  clear_value ws
  have taken : Evolves s₀ (Machine.takePage .relocate p (mapped s.dir.map p) ws s) := .takePage h
  exact taken

protected theorem Evolves.relocateStep (h : Evolves s₀ s) : Act.Evolves s₀ (relocateStep s) := by
  unfold relocateStep
  split
  · exact .wait
  · split
    · exact .ite .wait (.did (.readSource h))
    · exact .ite (.did (.onStore (.onInteg h))) (.did (.onInteg h))
    · exact .ite (.did (.onInteg (.hand h))) .wait
    all_goals exact .wait

protected theorem Evolves.compactStep (h : Evolves s₀ s) : Act.Evolves s₀ (compactStep s) := by
  unfold compactStep
  split
  · exact .ite (.did (.onDir h)) .wait
  · exact .ite (.did (.onStore (.onDir h))) .wait
  · exact .wait

protected theorem Evolves.poolStep (h : Evolves s₀ s) : Act.Evolves s₀ (poolStep s) := .ite (.did (.onStore (.onInteg h))) .wait

protected theorem Evolves.eraseAllStep (h : Evolves s₀ s) : Act.Evolves s₀ (eraseAllStep s) := by
  unfold eraseAllStep
  split
  · exact .wait
  · split
    · exact .ite (.did (.onDir h)) .wait
    · refine .ite (.did (.onDir h)) ?_
      split
      · exact .ite (.did (.hand h)) .wait
      · exact .wait
    · exact .ite (.did (.onStore (.onInteg (.onDir (.onDir h))))) (.did (.onDir (.onDir h)))
    · exact .ite (.did (.onDir (.onDir h))) .wait
    · exact .ite (.did (.answer (.setEngState (.onDir h)))) .wait

protected theorem Evolves.firstStep {t : State} (h : Evolves s₀ s) (ht : firstStep blockSteps s = .did t) : Evolves s₀ t := by
  have each : ∀ (fs : List (State → Act)), (∀ f ∈ fs, (f s).Evolves s₀) → (firstStep fs s).Evolves s₀ := by
    intro fs
    induction fs with
    | nil => exact fun _ => .wait
    | cons f fs ih =>
      intro hfs
      have hf := hfs f List.mem_cons_self
      unfold firstStep
      split
      next hdid => exact .did (hf.of_did hdid)
      · exact ih fun g hg => hfs g (List.mem_cons_of_mem _ hg)
  have hsteps : ∀ f ∈ blockSteps, (f s).Evolves s₀ := by
    simp only [blockSteps, List.forall_mem_cons]
    exact ⟨Evolves.compactStep h, Evolves.engineStep h, Evolves.portStep h, Evolves.retirementStep h, Evolves.relocateStep h,
      Evolves.eraseAllStep h, Evolves.poolStep h, nofun⟩
  exact (each blockSteps hsteps).of_did ht

protected theorem Evolves.pump {n : Nat} (h : Evolves s₀ s) : Evolves s₀ (pump n s) := by
  induction n generalizing s with
  | zero => exact h
  | succ n ih =>
    unfold pump
    split
    next ht => exact ih (Evolves.firstStep h ht)
    · exact h

protected theorem Evolves.keeping {f : State → State} (h : Evolves s₀ (f s)) : Evolves s₀ (keeping f s) := h

protected theorem Evolves.settle (h : Evolves s₀ s) : Evolves s₀ (settle s) := .keeping (Evolves.pump h)

end Sys2Proof.Machine
end

