-- ==== Sys2Proof/Proofs/Allowance.lean ====
section
/-! PROOFS. Sys2Proof/Proofs/Allowance.lean: every command keeps the ring and the stream channels within their bounds, and no command
of a holdup episode raises its allowance (R17, R19, R37, R39, R110). -/

namespace Sys2Proof.Machine

variable {s₀ s : State}

/-! ## Requests at their port (R168) -/

protected theorem Evolves.refuse {p : PortId} {st : Status} (h : Evolves s₀ s) : Evolves s₀ (refuse p st s) := h

protected theorem Evolves.setWait {p : PortId} {w : Wait} (h : Evolves s₀ s) : Evolves s₀ (setWait p w s) := h

protected theorem Evolves.withLength {n : Nat} {p : PortId} {d : List Byte} {f : State → State}
    (hf : Evolves s₀ (f s)) (h : Evolves s₀ s) : Evolves s₀ (withLength n p d f s) :=
  .ite hf h

protected theorem Evolves.accept {p : PortId} {k t : Byte} (h : Evolves s₀ s) : Evolves s₀ (accept p k t s) := h

protected theorem Evolves.deny {p : PortId} {k : Byte} {l : Level} (h : Evolves s₀ s) : Evolves s₀ (deny p k l s) := by
  unfold Machine.deny
  extract_lets counted
  have hcounted : Evolves s₀ counted := h
  clear_value counted
  have told : Evolves s₀ (Machine.post (.port p) evAccessDenied [k.toNat, l.code] counted) := .post hcounted
  exact told

protected theorem Evolves.takeRequest {p : PortId} {k t : Byte} {body : State → State}
    (hbody : ∀ s, Evolves s₀ s → Evolves s₀ (body s)) (h : Evolves s₀ s) : Evolves s₀ (takeRequest p k t body s) := by
  unfold Machine.takeRequest
  split
  · exact h
  · extract_lets level taken
    have htaken : Evolves s₀ taken := .accept h
    clear_value taken
    exact .ite (.refuse htaken) (.ite (.deny htaken) (.ite (.refuse htaken) (hbody taken htaken)))

/-- A command's effect on the ring, the channels and the monitor is that of its meaning. -/
theorem Evolves.of_whenPowered {f : State → State} (hf : Evolves s (f s)) : Evolves s (whenPowered f s) := by
  unfold whenPowered
  split
  · exact hf
  · exact .refl s

theorem Evolves.of_whenPoweredBut {take : State → State → State} {f : State → State} (hf : Evolves s (f s))
    (htake : ∀ t u, (take t u).ring = u.ring ∧ (take t u).streams = u.streams ∧ (take t u).monitor = u.monitor) :
    Evolves s (whenPoweredBut take f s) := by
  unfold whenPoweredBut
  split
  · obtain ⟨hring, hstreams, hmonitor⟩ := htake (f s) (keeping f s)
    exact Evolves.same (s := keeping f s) hf hring hstreams hmonitor
  · exact .refl s

/-! ## Terms and lines (chapter 1) -/

protected theorem Evolves.fireTerm {n : Fin 8} (h : Evolves s₀ s) : Evolves s₀ (fireTerm n s) := by
  unfold Machine.fireTerm
  extract_lets fired
  have hfired : Evolves s₀ fired := h
  clear_value fired
  exact .trigger (.post hfired)

protected theorem Evolves.onTerm {n : Fin 8} {f : Term → Term} (h : Evolves s₀ s) : Evolves s₀ (onTerm n f s) := h

protected theorem Evolves.evaluate {n : Fin 8} (h : Evolves s₀ s) : Evolves s₀ (evaluate n s) :=
  .ite h (.ite (.ite (.fireTerm h) h) (.onTerm h))

protected theorem Evolves.evaluateLines {lines : BitVec 16} (h : Evolves s₀ s) : Evolves s₀ (evaluateLines lines s) :=
  .forEach (fun _ _ h => .ite h (.evaluate h)) h

protected theorem Evolves.rearm {n : Fin 8} (h : Evolves s₀ s) : Evolves s₀ (rearm n s) := .evaluate (.onTerm h)

protected theorem Evolves.filteredChange {line : Fin 16} {b : Bool} (h : Evolves s₀ s) : Evolves s₀ (filteredChange line b s) :=
  .evaluateLines (.onTrig h)

protected theorem Evolves.takeCandidate {line : Fin 16} (h : Evolves s₀ s) : Evolves s₀ (takeCandidate line s) := by
  unfold Machine.takeCandidate
  split
  · exact .filteredChange h
  · exact h

protected theorem Evolves.rawChanged {line : Fin 16} {b : Bool} (h : Evolves s₀ s) : Evolves s₀ (rawChanged line b s) :=
  .settle (.onTrig (.takeCandidate h))

protected theorem Evolves.filterPassed {line : Fin 16} (h : Evolves s₀ s) : Evolves s₀ (filterPassed line s) := by
  unfold Machine.filterPassed
  split
  · exact .settle (.filteredChange h)
  · exact h

protected theorem Evolves.rearmExpired {n : Fin 8} (h : Evolves s₀ s) : Evolves s₀ (rearmExpired n s) :=
  .ite (.ite (.rearm (.onTerm h)) (.onTerm h)) h

protected theorem Evolves.holdoffExpired (h : Evolves s₀ s) : Evolves s₀ (holdoffExpired s) := by
  unfold Machine.holdoffExpired
  split
  · exact .ite h h
  · exact h

protected theorem Evolves.clearMask {m : BitVec 16} (h : Evolves s₀ s) : Evolves s₀ (clearMask m s) := .evaluateLines (.onTrig h)

protected theorem Evolves.clearLatches {p : PortId} {d : List Byte} (h : Evolves s₀ s) : Evolves s₀ (clearLatches p d s) :=
  .withLength (.settle (.answer (.clearMask h))) h

protected theorem Evolves.armTerm {n : Fin 8} (h : Evolves s₀ s) : Evolves s₀ (armTerm n s) := by
  unfold Machine.armTerm
  split
  · exact h
  all_goals exact .rearm (.onTerm h)

protected theorem Evolves.arm {p : PortId} {d : List Byte} (h : Evolves s₀ s) : Evolves s₀ (arm p d s) :=
  .withLength (.answer (.forEach (fun _ _ h => .armTerm h) h)) h

protected theorem Evolves.disarm {p : PortId} {d : List Byte} (h : Evolves s₀ s) : Evolves s₀ (disarm p d s) :=
  .withLength (.answer (.forEach (fun _ _ h => .onTerm h) h)) h

protected theorem Evolves.driveIndicators {p : PortId} {d : List Byte} (h : Evolves s₀ s) : Evolves s₀ (driveIndicators p d s) :=
  .withLength (.ite (.refuse h) (.answer (.onTrig h))) h

/-! ## Pieces, records and the engine's timers (chapter 6) -/

protected theorem Evolves.pieceTaken (h : Evolves s₀ s) : Evolves s₀ (pieceTaken s) := by
  unfold Machine.pieceTaken
  split
  · exact h
  · split
    · exact .ite (.settle h) (.settle (.advanceRegion (.onFetch (.onSection h))))
    · exact h

/-- Taking the head record leaves a shorter FIFO. -/
theorem StreamChan.bounded_tail (c : StreamChan) (r : StreamRec) (rest : List StreamRec) (n : Nat) (hfifo : c.fifo = r :: rest)
    (h : c.bounded) : StreamChan.bounded { c with fifo := rest, taken := n } := by
  refine ⟨?_, h.2⟩
  have hheld := h.1
  rw [hfifo, List.map_cons, List.sum_cons] at hheld
  exact (Nat.le_add_left _ _).trans hheld

protected theorem Evolves.recordTaken (h : Evolves s₀ s) : Evolves s₀ (recordTaken s) := by
  unfold Machine.recordTaken
  split
  · exact h
  next c x e ch _ =>
    split
    · exact h
    next r rest hfifo =>
      have popped : Evolves s₀ (s.onStream ch fun c => { c with fifo := rest, taken := satInc c.taken }) :=
        .onStream (fun _ hc => StreamChan.bounded_tail _ r rest _ hfifo hc) h
      exact .ite (.settle (.onSection h)) (.ite (.settle h) (.settle (.onSection popped)))

protected theorem Evolves.endComplete (h : Evolves s₀ s) : Evolves s₀ (endComplete s) := .settle (.onSection h)

protected theorem Evolves.quietExpired (h : Evolves s₀ s) : Evolves s₀ (quietExpired s) := by
  unfold Machine.quietExpired
  split
  · exact .ite (.endComplete h) h
  · exact h

protected theorem Evolves.windowExpired (h : Evolves s₀ s) : Evolves s₀ (windowExpired s) := by
  unfold Machine.windowExpired
  split
  · exact .ite (.endComplete h) h
  · exact h

protected theorem Evolves.retainExpired (h : Evolves s₀ s) : Evolves s₀ (retainExpired s) :=
  .ite (.ite (.onEngine h) (.onCapture (.post (.onEngine h)))) h

/-! ## The engine's requests (R100, R101) -/

protected theorem Evolves.panicNote {p : PortId} {d : List Byte} (h : Evolves s₀ s) : Evolves s₀ (panicNote p d s) :=
  .answer (.post (.onEngine h))

protected theorem Evolves.refuseHoldoff {p : PortId} {t : PartTime} (h : Evolves s₀ s) : Evolves s₀ (refuseHoldoff p t s) :=
  .refuse (.post (.onTrig h))

protected theorem Evolves.sendCapture {p : PortId} {n : Nat} (h : Evolves s₀ s) : Evolves s₀ (sendCapture p n s) :=
  .settle (.trigger (.setWait h))

protected theorem Evolves.captureNow {p : PortId} {d : List Byte} (h : Evolves s₀ s) : Evolves s₀ (captureNow p d s) := by
  refine .withLength ?_ h
  split
  · split
    · exact .refuseHoldoff h
    · exact .sendCapture h
  all_goals exact .sendCapture h

protected theorem Evolves.closeOpening {k : CloseCause} (h : Evolves s₀ s) : Evolves s₀ (closeOpening k s) := h

protected theorem Evolves.abortNow (h : Evolves s₀ s) : Evolves s₀ (abortNow s) := by
  unfold Machine.abortNow
  split
  · exact .closeEarly h
  · exact .closeOpening h
  all_goals exact h

protected theorem Evolves.abortCapture {p : PortId} {d : List Byte} (h : Evolves s₀ s) : Evolves s₀ (abortCapture p d s) := by
  refine .withLength ?_ h
  split
  · exact .refuse h
  · exact .ite (.refuse h) (.ite (.refuse h) (.settle (.abortNow (.setWait h))))

/-! ## Retrieval (chapter 10) -/

protected theorem Evolves.takeRead {r : PageRead} (h : Evolves s₀ s) : Evolves s₀ (takeRead r s) := by
  unfold Machine.takeRead
  split
  · exact .takePage h
  · exact h

protected theorem Evolves.setAhead {p : PortId} {a : Option ReadAhead} (h : Evolves s₀ s) : Evolves s₀ (setAhead p a s) := h

protected theorem Evolves.readAhead {p : PortId} {e : DirEntry} {x : SecEntry} {k : Nat} (h : Evolves s₀ s) :
    Evolves s₀ (readAhead p e x k s) := by
  unfold Machine.readAhead
  split
  · exact .setAhead h
  · exact .setAhead (.onInteg h)

protected theorem Evolves.withCapture {p : PortId} {d : List Byte} {f : DirEntry → State → State}
    (hf : ∀ e, Evolves s₀ (f e s)) (h : Evolves s₀ s) : Evolves s₀ (withCapture p d f s) := by
  unfold Machine.withCapture
  split
  · exact hf _
  · exact .refuse h

protected theorem Evolves.deliverHead {p : PortId} {e : DirEntry} (h : Evolves s₀ s) : Evolves s₀ (deliverHead p e s) := by
  unfold Machine.deliverHead
  split
  · exact .refuse h
  · exact .answer (.takeRead h)

protected theorem Evolves.readHead {p : PortId} {d : List Byte} (h : Evolves s₀ s) : Evolves s₀ (readHead p d s) :=
  .withLength (.withCapture (fun _ => .ite (.setWait h) (.deliverHead h)) h) h

protected theorem Evolves.serveSection {p : PortId} {e : DirEntry} {x : SecEntry} {m n : Nat} (h : Evolves s₀ s) :
    Evolves s₀ (serveSection p e x m n s) := by
  unfold Machine.serveSection
  extract_lets len k₀ k₁ r₀ r₁ ws reply taken₀ taken₁ answered
  have htaken₀ : Evolves s₀ taken₀ := .takeRead h
  clear_value taken₀
  have htaken₁ : Evolves s₀ taken₁ := .ite htaken₀ (.takeRead htaken₀)
  clear_value taken₁
  have hanswered : Evolves s₀ answered := .answer htaken₁
  exact .readAhead hanswered

protected theorem Evolves.readSectionOf {p : PortId} {d : List Byte} {e : DirEntry} (h : Evolves s₀ s) :
    Evolves s₀ (readSectionOf p d e s) := by
  have gone : ∀ st, Evolves s₀ (Machine.setAhead p none (Machine.refuse p st s)) := fun _ => .setAhead (.refuse h)
  unfold Machine.readSectionOf
  dsimp only
  split
  · exact gone _
  · exact .ite (gone _) (.ite (gone _) (.ite (.setWait h) (.serveSection h)))

protected theorem Evolves.readSection {p : PortId} {d : List Byte} (h : Evolves s₀ s) : Evolves s₀ (readSection p d s) := by
  refine .ite ?_ (.setAhead (.refuse h))
  split
  · exact .readSectionOf h
  · exact .setAhead (.refuse h)

/-! ## The store (chapters 8 and 10) -/

protected theorem Evolves.markStarted {w : Programmer} {n : Nat} (h : Evolves s₀ s) : Evolves s₀ (markStarted w n s) := by
  cases w <;> exact h

protected theorem Evolves.startProgram {j : Job} (h : Evolves s₀ s) : Evolves s₀ (startProgram j s) :=
  .drawProgram (.markStarted (.onStore h))

protected theorem Evolves.startErase {w : Eraser} {n : Nat} (h : Evolves s₀ s) : Evolves s₀ (startErase w n s) := by
  cases w
  case area => exact .setBlock (.onStore h)
  all_goals exact h

protected theorem Evolves.programRefused {w : Programmer} (h : Evolves s₀ s) : Evolves s₀ (programRefused w s) := by
  cases w
  case buf => exact .bufRefused h
  case settings => exact .endStore h
  all_goals exact h

protected theorem Evolves.journalRefused {n : Nat} (h : Evolves s₀ s) : Evolves s₀ (journalRefused n s) :=
  .ite (.ite (.setStall (.onDir h)) (.onDir h)) (.forEach (fun _ _ h => .recordRefused h) (.onDir h))

/-- What the Store Controller's choice leads to. -/
inductive Chosen.Evolves (s₀ : State) : Chosen → Prop
  | started {t : State} (h : Machine.Evolves s₀ t) : Chosen.Evolves s₀ (.started t)
  | again {t : State} (h : Machine.Evolves s₀ t) : Chosen.Evolves s₀ (.again t)

protected theorem Evolves.tryJob {j : Job} {f : State → State} (hf : Evolves s₀ (f s)) (h : Evolves s₀ s) :
    Chosen.Evolves s₀ (tryJob j f s) := by
  unfold tryJob
  split
  · exact .again (.targetFailed h)
  · split
    · exact .started (.startProgram h)
    · exact .again hf

protected theorem Evolves.tryRequest {q : QReq} (h : Evolves s₀ s) : Chosen.Evolves s₀ (tryRequest q s) := by
  unfold tryRequest
  extract_lets t
  have withdrawn : Evolves s₀ t := .onStore h
  clear_value t
  split
  · exact .started (.startErase withdrawn)
  all_goals
    split
    · exact Evolves.tryJob (.programRefused withdrawn) withdrawn
    · exact .again withdrawn

protected theorem Evolves.startNext {n : Nat} (h : Evolves s₀ s) : Evolves s₀ (startNext n s) := by
  induction n generalizing s with
  | zero => exact h
  | succ n ih =>
    have chosen : ∀ c, (match journalPage s.dir with
        | some page => some (tryJob (journalJob page s) (journalRefused page) s)
        | none => (s.store.queue.find? (startable s)).map fun q => tryRequest q s) = some c → Chosen.Evolves s₀ c := by
      intro c hc
      split at hc
      · cases hc
        exact Evolves.tryJob (.journalRefused h) h
      · obtain ⟨q, -, rfl⟩ := Option.map_eq_some_iff.mp hc
        exact Evolves.tryRequest h
    unfold Machine.startNext
    dsimp only
    split
    next hc =>
      cases chosen _ hc
      assumption
    next hc =>
      cases chosen _ hc
      exact ih (by assumption)
    · exact h

protected theorem Evolves.queueStarted (h : Evolves s₀ s) : Evolves s₀ (queueStarted s) := .ite h (.settle (.startNext h))

protected theorem Evolves.landed {f : Flash → Flash} (h : Evolves s₀ s) : Evolves s₀ (landed f s) := h

protected theorem Evolves.programResult {w : Programmer} {n : Nat} {bs : List Byte} (h : Evolves s₀ s) :
    Evolves s₀ (programResult w n bs s) := by
  unfold Machine.programResult
  split
  · exact .settle (.programAccepted h)
  · exact .settle (.verifyFailed h)

protected theorem Evolves.eraseResult {w : Eraser} {n : Nat} (h : Evolves s₀ s) : Evolves s₀ (eraseResult w n s) :=
  .settle (.eraseEnded h)

protected theorem Evolves.relocationStarted (h : Evolves s₀ s) : Evolves s₀ (relocationStarted s) := by
  unfold Machine.relocationStarted
  split
  · exact h
  · exact .settle (.ite (.onInteg h) (.readSource h))

/-! ## The directory's requests (chapter 9) and the reads that waited (R129) -/

protected theorem Evolves.awaitRecord {p : PortId} {r : JRec} (h : Evolves s₀ s) : Evolves s₀ (awaitRecord p r s) :=
  .settle (.setWait h)

protected theorem Evolves.holdCapture {p : PortId} {d : List Byte} (h : Evolves s₀ s) : Evolves s₀ (holdCapture p d s) := by
  refine .withLength ?_ h
  dsimp only
  split
  · exact .refuse h
  · exact .ite (.refuse h) (.ite (.answer h) (.awaitRecord h))

protected theorem Evolves.releaseCapture {p : PortId} {d : List Byte} (h : Evolves s₀ s) : Evolves s₀ (releaseCapture p d s) := by
  refine .withLength ?_ h
  dsimp only
  split
  · exact .refuse h
  · exact .ite (.awaitRecord h) (.answer h)

protected theorem Evolves.deleteCapture {p : PortId} {d : List Byte} (h : Evolves s₀ s) : Evolves s₀ (deleteCapture p d s) := by
  refine .withLength ?_ h
  dsimp only
  split
  · exact .refuse h
  · exact .ite (.refuse h) (.ite (.refuse h) (.awaitRecord h))

protected theorem Evolves.onPad {p : PortId} {f : Pad → Pad} (h : Evolves s₀ s) : Evolves s₀ (onPad p f s) := h

protected theorem Evolves.loadPad {p : PortId} {d : List Byte} {e : DirEntry} (h : Evolves s₀ s) :
    Evolves s₀ (loadPad p d e s) := by
  unfold Machine.loadPad
  split
  · exact .refuse h
  · exact .answer (.onPad (.takeRead h))

protected theorem Evolves.stageNote {p : PortId} {d : List Byte} (h : Evolves s₀ s) : Evolves s₀ (stageNote p d s) := by
  refine .ite (.refuse h) (.ite (.refuse h) (.ite (.refuse h) (.ite (.refuse h) ?_)))
  split
  · exact .refuse h
  · exact .ite (.refuse h) (.ite (.refuse h) (.ite (.setWait h) (.loadPad h)))

protected theorem Evolves.enqueue {q : QReq} (h : Evolves s₀ s) : Evolves s₀ (enqueue q s) := h

protected theorem Evolves.queueCommit {p : PortId} {n : Nat} {e : DirEntry} (h : Evolves s₀ s) :
    Evolves s₀ (queueCommit p n e s) :=
  .ite (.refuse (.onPad h)) (.enqueue (.setWait h))

protected theorem Evolves.commitNote {p : PortId} {d : List Byte} (h : Evolves s₀ s) : Evolves s₀ (commitNote p d s) := by
  refine .withLength ?_ h
  refine .ite (.refuse h) (.ite (.refuse h) (.ite (.refuse h) (.ite (.refuse h) (.ite (.refuse h) ?_))))
  split
  · exact .refuse h
  · exact .ite (.refuse h) (.ite (.setWait h) (.queueCommit h))

protected theorem Evolves.eraseEverything {p : PortId} {d : List Byte} (h : Evolves s₀ s) : Evolves s₀ (eraseEverything p d s) :=
  .withLength (.ite (.refuse h) (.ite (.refuse h) (.settle (.setWait (.setEngState (.onDir h)))))) h

protected theorem Evolves.readGone {p : PortId} {k : Byte} {n : Nat} (h : Evolves s₀ s) : Evolves s₀ (readGone p k n s) :=
  .ite (.refuse h) (.refuse h)

protected theorem Evolves.resumeRead {p : PortId} (h : Evolves s₀ s) : Evolves s₀ (resumeRead p s) := by
  unfold Machine.resumeRead
  split
  · exact h
  · split
    · extract_lets t
      have ht : Evolves s₀ t := .setWait h
      clear_value t
      split
      · exact .readSection ht
      · split
        · exact .readGone ht
        · exact .ite (.deliverHead ht) (.ite (.loadPad ht) (.queueCommit ht))
    · exact h

protected theorem Evolves.resumeReads (h : Evolves s₀ s) : Evolves s₀ (resumeReads s) := .forEach (fun _ _ h => .resumeRead h) h

protected theorem Evolves.programCompleted {fs : List WordFault} (h : Evolves s₀ s) : Evolves s₀ (programCompleted fs s) := by
  unfold Machine.programCompleted
  split
  · exact .keeping (Evolves.resumeReads (.programResult (.landed h)))
  · exact h

protected theorem Evolves.eraseCompleted {fs : List BlockFault} (h : Evolves s₀ s) : Evolves s₀ (eraseCompleted fs s) := by
  unfold Machine.eraseCompleted
  split
  · exact .keeping (Evolves.resumeReads (.eraseResult (.landed h)))
  · exact h

/-! ## The remaining requests (2.5, chapters 5 and 11) -/

protected theorem Evolves.postEvent {p : PortId} {d : List Byte} (h : Evolves s₀ s) : Evolves s₀ (postEvent p d s) :=
  .ite (.refuse h) (.answer (.post h))

protected theorem Evolves.setTime {p : PortId} {d : List Byte} (h : Evolves s₀ s) : Evolves s₀ (setTime p d s) := by
  have set : ∀ e, Evolves s₀ { s with epoch := e, epochValid := true } := fun _ => h
  exact .withLength (.answer (.post (set _))) h

protected theorem Evolves.answerRestartNow {p : PortId} {b : Bool} (h : Evolves s₀ s) : Evolves s₀ (decideRestart p b s) := by
  unfold Machine.decideRestart
  split
  · exact .settle (.abortNow (.setWait h))
  · exact .answerRestart h

protected theorem Evolves.restart {p : PortId} {d : List Byte} (h : Evolves s₀ s) : Evolves s₀ (restart p d s) :=
  .withLength (.ite (.refuse h) (.ite (.refuse h) (.ite (.refuse h) (.answerRestartNow h)))) h

protected theorem Evolves.status {p : PortId} {d : List Byte} (h : Evolves s₀ s) : Evolves s₀ (status p d s) := by
  have answered : ∀ fs, Evolves s₀ (statusAnswer p fs s) := fun _ => h
  unfold Machine.status
  split
  · exact .refuse h
  · split
    · exact answered _
    all_goals
      split
      · exact answered _
      · exact .refuse h

protected theorem Evolves.readPlan {p : PortId} {d : List Byte} (h : Evolves s₀ s) : Evolves s₀ (readPlan p d s) := by
  refine .withLength (.ite (.refuse h) ?_) h
  split
  · exact .refuse h
  · exact .answer h

protected theorem Evolves.writePlan {p : PortId} {d : List Byte} (h : Evolves s₀ s) : Evolves s₀ (writePlan p d s) := by
  have entry : Evolves s₀ (writeEntry p d s) := by
    refine .ite (.refuse h) ?_
    split
    · exact .answer h
    · exact .refuse h
  have pageCap : Evolves s₀ (writePageCap p d s) := .ite (.refuse h) (.answer h)
  unfold Machine.writePlan
  split
  · exact .refuse h
  · exact entry
  · exact pageCap
  · exact .refuse h

protected theorem Evolves.probeReach {p : PortId} {d : List Byte} (h : Evolves s₀ s) : Evolves s₀ (probeReach p d s) := by
  refine .withLength ?_ h
  split
  · exact .answer h
  · exact .refuse h

protected theorem Evolves.readSettings {p : PortId} {d : List Byte} (h : Evolves s₀ s) : Evolves s₀ (readSettings p d s) :=
  .ite (.refuse h) (.ite (.answer h) (.refuse h))

/-! ## The written settings (R174) -/

theorem StreamChan.bounded_start (r : RxState) (c : Option Claim) : (StreamChan.start r c).bounded := ⟨Nat.zero_le _, nofun⟩

theorem StreamChan.bounded_applyStream (old new : StreamCfg) (b : Bool) (c : StreamChan) (h : c.bounded) :
    (applyStream old new b c).bounded := by
  unfold applyStream
  split
  · exact h
  · split
    · exact bounded_start .disabled c.claim
    · split
      · exact h
      · exact bounded_start (rxEnabled true b) c.claim

protected theorem Evolves.applyStreams {old : Settings} (h : Evolves s₀ s) : Evolves s₀ (applyStreams old s) := by
  refine ⟨h.ring, fun hs ch => ?_, h.monitor⟩
  simp only [Machine.applyStreams, Fin.getElem_fin, Vector.getElem_ofFn]
  exact StreamChan.bounded_applyStream _ _ _ _ (h.streams hs ch)

protected theorem Evolves.applyFetches {old : Settings} (h : Evolves s₀ s) : Evolves s₀ (applyFetches old s) := h

protected theorem Evolves.applyItems {xs : List Item} (h : Evolves s₀ s) : Evolves s₀ (applyItems xs s) := by
  unfold Machine.applyItems
  extract_lets old written
  have hwritten : Evolves s₀ written := h
  clear_value written
  have terms : ∀ t, Evolves s₀ t → Evolves s₀ (applyTerms old t) := fun t ht => .forEach (fun _ _ h => .ite (.rearm h) h) ht
  have filters : ∀ t, Evolves s₀ t → Evolves s₀ (applyFilters old t) := fun t ht => .forEach (fun _ _ h => .ite h (.takeCandidate h)) ht
  exact filters _ (terms _ (.applyFetches (.applyStreams hwritten)))

protected theorem Evolves.writeSettings {p : PortId} {d : List Byte} (h : Evolves s₀ s) : Evolves s₀ (writeSettings p d s) := by
  refine .ite (.refuse h) ?_
  dsimp only
  split
  · exact .refuse h
  · exact .settle (.answer (.applyItems h))

protected theorem Evolves.storeSettings {p : PortId} {d : List Byte} (h : Evolves s₀ s) : Evolves s₀ (storeSettings p d s) :=
  .withLength (.ite (.refuse h) (.ite (.refuse h) (.enqueue (.setWait (.onLink h))))) h

/-! ## The lines' events (R166, R167, R169, R174) -/

protected theorem Evolves.gapPassed {a : Arrival} (h : Evolves s₀ s) : Evolves s₀ (gapPassed a s) := by
  unfold Machine.gapPassed
  split
  · exact .onPort h
  · exact h

protected theorem Evolves.replySent {p : PortId} (h : Evolves s₀ s) : Evolves s₀ (replySent p s) := by
  unfold Machine.replySent
  split
  · exact h
  · exact .ite (.onLink (.onPort h)) (.onPort h)

/-! ## Replay and the format (R134, R142 to R144) -/

protected theorem Evolves.searchReads {b : Nat} (h : Evolves s₀ s) : Evolves s₀ (searchReads b s) :=
  .forEach (fun _ _ h => .takePage h) h

protected theorem Evolves.reportTorn {b : Nat} {x : SlotRead} (h : Evolves s₀ s) : Evolves s₀ (reportTorn b x s) :=
  .offerError (.onDir (.onInteg h))

protected theorem Evolves.replayReads {b : Nat} (h : Evolves s₀ s) : Evolves s₀ (replayReads b s) :=
  .forEach (fun _ _ h => .forEach (fun _ _ h => .reportTorn h) (.takePage h)) h

protected theorem Evolves.applyRecord {r : JRec} (h : Evolves s₀ s) : Evolves s₀ (applyRecord r s) := by
  unfold Machine.applyRecord
  split <;> exact h

protected theorem Evolves.replayBlock {b : Nat} {c : Checkpoint} (h : Evolves s₀ s) : Evolves s₀ (replayBlock b c s) := by
  unfold Machine.replayBlock
  extract_lets all taken kept rs read applied
  have hread : Evolves s₀ read := .replayReads (.searchReads h)
  clear_value read
  have happlied : Evolves s₀ applied := .forEach (fun _ _ h => .applyRecord h) hread
  clear_value applied
  exact .onDir happlied

protected theorem Evolves.rebuildBlocks (h : Evolves s₀ s) : Evolves s₀ (rebuildBlocks s) := .enqueueErases (.onStore h)

protected theorem Evolves.endReplay (h : Evolves s₀ s) : Evolves s₀ (endReplay s) := by
  unfold Machine.endReplay
  have hrebuilt : Evolves s₀ (Machine.rebuildBlocks s) := .rebuildBlocks h
  generalize Machine.rebuildBlocks s = rebuilt at hrebuilt
  have hscanned : Evolves s₀ { scanPool rebuilt with ready := true } := hrebuilt
  extract_lets scanned evaluated triggered
  have hevaluated : Evolves s₀ evaluated := .forEach (fun _ _ h => .evaluate h) hscanned
  clear_value evaluated
  exact .settle (.ite (.trigger (.onEngine hevaluated)) hevaluated)

protected theorem Evolves.replayEnded (h : Evolves s₀ s) : Evolves s₀ (replayEnded s) := by
  refine .ite h (.ite (.endReplay h) ?_)
  split
  · exact .endReplay (.replayBlock h)
  · exact h

protected theorem Evolves.retireInFormat {p : Nat} (h : Evolves s₀ s) : Evolves s₀ (retireInFormat p s) :=
  .ite (.post (.onStore h)) h

protected theorem Evolves.onFlash {f : Flash → Flash} (h : Evolves s₀ s) : Evolves s₀ (s.onFlash f) := h

protected theorem Evolves.eraseInFormat {b : Nat} {fs : List BlockFault} (h : Evolves s₀ s) :
    Evolves s₀ (eraseInFormat b fs s) := by
  unfold Machine.eraseInFormat
  extract_lets erased
  have herased : Evolves s₀ erased := .onFlash h
  clear_value erased
  split
  · exact herased
  · exact .forEach (fun _ _ h => .retireInFormat h) (.reportEraseFail herased)

protected theorem Evolves.formatDone {p : Nat} (h : Evolves s₀ s) : Evolves s₀ (formatDone p s) := by
  unfold Machine.formatDone
  extract_lets initial emptied
  have hemptied : Evolves s₀ emptied := .onDir h
  clear_value emptied
  exact .post hemptied

protected theorem Evolves.formatPages {ps : List Nat} {fs : List (List WordFault)} (h : Evolves s₀ s) :
    Evolves s₀ (formatPages ps fs s) := by
  induction ps generalizing fs s with
  | nil => exact .onStore h
  | cons p ps ih =>
    unfold Machine.formatPages
    split
    · exact ih h
    · extract_lets programmed
      have hprogrammed : Evolves s₀ programmed := .onFlash h
      clear_value programmed
      split
      · exact .formatDone hprogrammed
      · exact ih (.reportProgramFail (.retireInFormat hprogrammed))

protected theorem Evolves.journalFormatted {xs ys : List BlockFault} {fs : List (List WordFault)} (h : Evolves s₀ s) :
    Evolves s₀ (journalFormatted xs ys fs s) :=
  .ite h (.settle (.formatPages (.eraseInFormat (.eraseInFormat (.onStore (.searchReads (.searchReads h)))))))

/-! ## The monitor's commands (chapter 7) -/

protected theorem Evolves.holdStore (h : Evolves s₀ s) : Evolves s₀ (holdStore s) := .ite (.endStore h) h

protected theorem Evolves.cancelRestart (h : Evolves s₀ s) : Evolves s₀ (cancelRestart s) := by
  refine .forEach (fun p s h => ?_) h
  split <;> exact h

/-- An episode begins by `enterHoldup`; what follows keeps to its allowance. -/
protected theorem Evolves.beginEpisode {v : Nat} (h : Evolves s₀ (enterHoldup v s)) : Evolves s₀ (beginEpisode v s) := by
  unfold Machine.beginEpisode
  extract_lets entered told triggered exhausted
  have hentered : Evolves s₀ entered := h
  clear_value entered
  have hposted : ∀ args, Evolves s₀ (Machine.post .holdup evHoldupEntered args entered) := fun _ => .post hentered
  have htold : Evolves s₀ told := hposted _
  clear_value told
  have htriggered : Evolves s₀ triggered := .trigger htold
  clear_value triggered
  have hexhausted : Evolves s₀ exhausted := .applyExhaustion htriggered
  exact .settle (.cancelRestart (.holdStore hexhausted))

/-- The monitor alone changes at first, out of NORMAL or into it; then the blocks act on it. -/
def EvolvesBeyond (s t : State) : Prop :=
  ∃ m : Monitor, Evolves { s with monitor := m } t ∧ (m = s.monitor ∨ s.monitor.state = .normal ∨ m.state = .normal)

theorem Evolves.beyond {t : State} (h : Evolves s t) : EvolvesBeyond s t := ⟨s.monitor, h, .inl rfl⟩

theorem pfailAsserted_evolves (v : Nat) (s : State) : EvolvesBeyond s (pfailAsserted v s) := by
  unfold pfailAsserted
  split
  case h_1 hnormal => exact ⟨(enterHoldup v s).monitor, .beginEpisode (.refl (enterHoldup v s)), .inr (.inl hnormal)⟩
  case h_2 hrecovering =>
    refine Evolves.beyond (.settle (.applyExhaustion (.onMonitor ⟨?_, Nat.le_refl _⟩ (.refl s))))
    simp [hrecovering]
  all_goals exact (Evolves.refl s).beyond

theorem pfailReleased_evolves (s : State) : Evolves s (pfailReleased s) := by
  unfold pfailReleased
  split
  case h_1 h => exact .onMonitor ⟨by simp [h], Nat.le_refl _⟩ (.refl s)
  case h_2 h => exact .onMonitor ⟨by simp [h], Nat.le_refl _⟩ (.refl s)
  all_goals exact .refl s

protected theorem Evolves.clearStall (h : Evolves s₀ s) : Evolves s₀ (clearStall s) := by
  unfold Machine.clearStall
  extract_lets kept cleared
  have hkept : Evolves s₀ kept := .onCapture h
  clear_value kept
  have hcleared : Evolves s₀ cleared := .reformClose (.onEngine hkept)
  clear_value cleared
  refine .ite ?_ hkept
  split
  · exact .closeOpening hcleared
  · exact .closeEarly hcleared
  all_goals exact hcleared

protected theorem Evolves.releaseWaits (h : Evolves s₀ s) : Evolves s₀ (releaseWaits s) := .onStore (.onDir h)

theorem powerRestored_evolves (s : State) : EvolvesBeyond s (powerRestored s) := by
  unfold powerRestored
  split
  · refine ⟨{ s.monitor with state := .normal, debounceAt := none, exhaustOn := false }, ?_, .inr (.inr rfl)⟩
    exact .settle (.releaseWaits (.clearStall (.post (.refl (s.onMonitor _)))))
  · exact (Evolves.refl s).beyond

theorem holdupResampled_evolves (v : Nat) (s : State) : Evolves s (holdupResampled v s) := .ite (.settle (.resample (.refl s))) (.refl s)

/-! ## Every command but those that reset the blocks -/

theorem EvolvesBeyond.of_whenPowered {f : State → State} (hf : EvolvesBeyond s (f s)) : EvolvesBeyond s (whenPowered f s) := by
  unfold whenPowered
  split
  · exact hf
  · exact (Evolves.refl s).beyond

theorem request_evolves {p : PortId} {k t : Byte} {body : State → State} {u : State}
    (h : request p k t body s = .next u) (hbody : ∀ s, Evolves s₀ s → Evolves s₀ (body s)) (hs : s₀ = s) : EvolvesBeyond s u := by
  subst hs
  cases h
  exact (Evolves.of_whenPowered (.takeRequest hbody (.refl _))).beyond

theorem requestBut_evolves {take : State → State → State} {p : PortId} {k t : Byte} {body : State → State} {u : State}
    (h : requestBut take p k t body s = .next u)
    (htake : ∀ t u, (take t u).ring = u.ring ∧ (take t u).streams = u.streams ∧ (take t u).monitor = u.monitor)
    (hbody : ∀ s, Evolves s₀ s → Evolves s₀ (body s)) (hs : s₀ = s) : EvolvesBeyond s u := by
  subst hs
  cases h
  exact (Evolves.of_whenPoweredBut (.takeRequest hbody (.refl _)) htake).beyond

/-- A pin's level lies outside the blocks. -/
theorem EvolvesBeyond.of_pins {f : Pins → Pins} {t : State} (h : EvolvesBeyond (s.onPins f) t) : EvolvesBeyond s t := by
  obtain ⟨m, hm, hstates⟩ := h
  exact ⟨m, hm, hstates⟩

/-- The commands that set the blocks to their values after a reset. -/
def Instr.resets : Instr → Bool
  | .powerOn _ _ | .powerLoss _ | .restartEffect _ => true
  | _ => false

theorem exec_evolves {c : Instr} {u : State} (hc : Instr.resets c = false) (h : exec c s = .next u) : EvolvesBeyond s u := by
  have hframe : ∀ t u : State, u.ring = u.ring ∧ u.streams = u.streams ∧ u.monitor = u.monitor := fun _ _ => ⟨rfl, rfl, rfl⟩
  have command : ∀ {f : State → State} {u : State}, Evolves s (f s) →
      (.next (whenPowered f s) : Host.Outcome State Fault Refusal) = .next u → EvolvesBeyond s u := by
    intro f u hf hu
    cases hu
    exact (Evolves.of_whenPowered hf).beyond
  have hs : Evolves s s := .refl s
  cases c <;> cases hc
  case rawLevelChange line level =>
    cases h
    exact Evolves.beyond (s := s) (Evolves.of_whenPowered (f := rawChanged line level) (.rawChanged hs))
  case filteredLevelChange => exact command (.filterPassed hs) h
  case rearmTimerExpiry => exact command (.rearmExpired hs) h
  case hostHoldoffExpiry => exact command (.holdoffExpired hs) h
  case syncAssert ch =>
    cases h
    exact .of_pins (Evolves.of_whenPowered (.syncAsserted (.refl (syncLevel ch true s)))).beyond
  case syncRelease ch =>
    cases h
    exact .of_pins (Evolves.of_whenPowered (.syncReleased (.refl (syncLevel ch false s)))).beyond
  case streamStall => exact command (.streamStalled hs) h
  case clkRisingEdge => exact command (.clkEdge hs) h
  case fetchAnswer => exact command (.fetchAnswered hs) h
  case fetchTimeout => exact command (.fetchTimedOut hs) h
  case takePiece => exact command (.pieceTaken hs) h
  case takeRecord => exact command (.recordTaken hs) h
  case quietTimeExpiry => exact command (.quietExpired hs) h
  case streamWindowExpiry => exact command (.windowExpired hs) h
  case retainLapsed => exact command (.retainExpired hs) h
  case pfailAssert v =>
    cases h
    exact .of_pins (f := fun p => { p with pfail := true }) (.of_whenPowered (pfailAsserted_evolves v (setPfail true s)))
  case pfailRelease =>
    cases h
    exact .of_pins (f := fun p => { p with pfail := false })
      (Evolves.of_whenPowered (pfailReleased_evolves (setPfail false s))).beyond
  case powerRestored =>
    cases h
    exact .of_whenPowered (powerRestored_evolves s)
  case holdupResample v => exact command (holdupResampled_evolves v s) h
  case queueStart => exact command (.queueStarted hs) h
  case programComplete =>
    cases h
    exact (Evolves.of_whenPoweredBut (take := takeFlash) (.programCompleted hs) hframe).beyond
  case eraseComplete =>
    cases h
    exact (Evolves.of_whenPoweredBut (take := takeFlash) (.eraseCompleted hs) hframe).beyond
  case relocationStart => exact command (.relocationStarted hs) h
  case journalFormat =>
    cases h
    exact (Evolves.of_whenPoweredBut (take := takeFlash) (.journalFormatted hs) hframe).beyond
  case replayEnd =>
    cases h
    exact (Evolves.of_whenPoweredBut (take := takeReady) (.replayEnded hs) hframe).beyond
  case lineRateChange => exact command (.ite (.onPort hs) hs) h
  case svcStrapChange => exact command (.onLink hs) h
  case lineError => exact command (.onPort hs) h
  case interbyte => exact command (.gapPassed hs) h
  case lengthErrors => exact command (.ite (.onPort hs) hs) h
  case crcErrors => exact command (.ite (.onPort hs) hs) h
  case replyTransmitted => exact command (.replySent hs) h
  case unknownKind p k t d =>
    have hunknown : execUnknownKind p k t d s = .next u := h
    unfold execUnknownKind at hunknown
    split at hunknown
    · exact request_evolves hunknown (fun _ h => h) rfl
    · cases hunknown
      exact hs.beyond
  case identify => exact request_evolves h (fun _ h => .withLength (.answer h) h) rfl
  case status => exact request_evolves h (fun _ h => .status h) rfl
  case ackRestart => exact request_evolves h (fun _ h => .withLength (.answer h) h) rfl
  case restart => exact request_evolves h (fun _ h => .restart h) rfl
  case readSettings => exact request_evolves h (fun _ h => .readSettings h) rfl
  case writeSettings => exact requestBut_evolves h hframe (fun _ h => .writeSettings h) rfl
  case storeSettings => exact request_evolves h (fun _ h => .storeSettings h) rfl
  case setTime => exact requestBut_evolves h hframe (fun _ h => .setTime h) rfl
  case postEvent => exact request_evolves h (fun _ h => .postEvent h) rfl
  case readEvents => exact request_evolves h (fun _ h => .withLength (.answer h) h) rfl
  case panicNote => exact request_evolves h (fun _ h => .panicNote h) rfl
  case capture => exact request_evolves h (fun _ h => .captureNow h) rfl
  case abortCapture => exact request_evolves h (fun _ h => .abortCapture h) rfl
  case readLines => exact request_evolves h (fun _ h => .withLength (.answer h) h) rfl
  case clearLatches => exact request_evolves h (fun _ h => .clearLatches h) rfl
  case arm => exact request_evolves h (fun _ h => .arm h) rfl
  case disarm => exact request_evolves h (fun _ h => .disarm h) rfl
  case driveIndicators => exact request_evolves h (fun _ h => .driveIndicators h) rfl
  case readPlan => exact request_evolves h (fun _ h => .readPlan h) rfl
  case writePlanEntry => exact requestBut_evolves h hframe (fun _ h => .writePlan h) rfl
  case writePlanPageCap => exact requestBut_evolves h hframe (fun _ h => .writePlan h) rfl
  case probeReach => exact request_evolves h (fun _ h => .probeReach h) rfl
  case listCaptures => exact request_evolves h (fun _ h => .withLength (.answer h) h) rfl
  case readCapture => exact request_evolves h (fun _ h => .withLength (.withCapture (fun _ => .answer h) h) h) rfl
  case readHead => exact request_evolves h (fun _ h => .readHead h) rfl
  case readSection => exact request_evolves h (fun _ h => .readSection h) rfl
  case readErrors => exact request_evolves h (fun _ h => .withLength (.answer h) h) rfl
  case ackErrors => exact request_evolves h (fun _ h => .withLength (.answer (.onInteg h)) h) rfl
  case hold => exact request_evolves h (fun _ h => .holdCapture h) rfl
  case release => exact request_evolves h (fun _ h => .releaseCapture h) rfl
  case delete => exact request_evolves h (fun _ h => .deleteCapture h) rfl
  case stageNote => exact request_evolves h (fun _ h => .stageNote h) rfl
  case commitNote => exact request_evolves h (fun _ h => .commitNote h) rfl
  case eraseAll => exact request_evolves h (fun _ h => .eraseEverything h) rfl

/-! ## The commands that reset the blocks (R31, R131, R176, R177) -/

theorem Ring.sound_empty : Ring.empty.sound := ⟨Nat.zero_le _, fun i hi => absurd hi (Nat.not_lt_zero i)⟩

theorem resetBlocks_bounded (b : Bool) (s : State) (h : s.ring.sound) : (resetBlocks b s).bounded := by
  refine (State.bounded_iff _).mpr ⟨h, fun ch => ?_⟩
  have hch : (resetBlocks b s).streams[ch] = StreamChan.start .disabled none := by simp [resetBlocks]
  rw [hch]
  exact StreamChan.bounded_start _ _

theorem takeSettings_bounded (s : State) (h : s.ring.sound) : (takeSettings s).bounded := by
  refine (State.bounded_iff _).mpr ⟨h, fun ch => ?_⟩
  simp only [takeSettings, Fin.getElem_fin, Vector.getElem_ofFn]
  exact StreamChan.bounded_start _ _

protected theorem Evolves.settingsLost (h : Evolves s₀ s) : Evolves s₀ (settingsLost s) := by
  unfold Machine.settingsLost
  extract_lets cause
  have told : Evolves s₀ (Machine.post .store evSettingsLost [cause] s) := .post h
  exact told

protected theorem Evolves.adoptImage {bs : List Byte} (h : Evolves s₀ s) : Evolves s₀ (adoptImage bs s) := by
  unfold Machine.adoptImage
  generalize imageSettings bs = settings, imagePlan bs = plan
  exact h

protected theorem Evolves.loadFrom {ks : List Nat} (h : Evolves s₀ s) : Evolves s₀ (loadFrom ks s) := by
  induction ks generalizing s with
  | nil => exact .settingsLost h
  | cons k ks ih =>
    unfold Machine.loadFrom
    split
    · exact ih h
    · extract_lets t
      have ht : Evolves s₀ t := .forEach (fun _ _ h => .takePage h) h
      clear_value t
      split
      · exact .adoptImage ht
      · exact ih ht

theorem keeping_bounded (f : State → State) (s : State) (h : (f s).bounded) : (keeping f s).bounded := h

theorem enterHoldup_bounded (v : Nat) (s : State) (h : s.bounded) : (enterHoldup v s).bounded := h

theorem lookAtPfail_bounded (v : Nat) (s : State) (h : s.bounded) : (lookAtPfail v s).bounded := by
  have episode : Evolves (enterHoldup v s) (beginEpisode v s) := .beginEpisode (.refl _)
  unfold lookAtPfail
  split
  · exact keeping_bounded _ s (episode.bounded (enterHoldup_bounded v s h))
  · exact h

theorem startUp_bounded (args : List Nat) (v : Nat) (s : State) (h : s.ring.sound) : (startUp args v s).bounded := by
  have hloaded : Evolves s (loadFrom (List.range 32) (post .ring evRestarted args s)) := .loadFrom (.post (.refl s))
  exact lookAtPfail_bounded v _ (takeSettings_bounded _ (hloaded.ring h))

theorem powerLost_bounded (torn : List BlockFault) (s : State) (h : s.bounded) : (powerLost torn s).bounded := by
  unfold powerLost
  split
  · exact h
  · obtain ⟨-, hstreams⟩ := (State.bounded_iff _).mp
      (resetBlocks_bounded false { s with ring := Ring.empty } Ring.sound_empty)
    exact (State.bounded_iff _).mpr ⟨Ring.sound_empty, hstreams⟩

theorem restarted_bounded (v : Nat) (s : State) (h : s.bounded) : (restarted v s).bounded := by
  unfold restarted
  split
  · split
    · exact startUp_bounded _ v _ ((State.bounded_iff s).mp h).1
    · exact h
  · exact h

theorem EvolvesBeyond.bounded {t : State} (h : EvolvesBeyond s t) (hs : s.bounded) : t.bounded := by
  obtain ⟨m, hm, -⟩ := h
  exact hm.bounded hs

theorem exec_bounded {c : Instr} {u : State} (h : exec c s = .next u) (hs : s.bounded) : u.bounded := by
  cases hc : Instr.resets c with
  | false => exact (exec_evolves hc h).bounded hs
  | true =>
    cases c <;> cases hc <;> cases h
    case true.powerOn.refl.refl v ws => exact startUp_bounded _ v _ Ring.sound_empty
    case true.powerLoss.refl.refl torn => exact powerLost_bounded torn s hs
    case true.restartEffect.refl.refl v => exact restarted_bounded v s hs

/-- Settles O6: every operation keeps the bounds (`Evolves`), and a reset empties what they bound. -/
theorem stepKeepsTheBuffersBounded : Obligations.StepKeepsTheBuffersBounded := by
  intro s t hs h
  rcases step_cases h with ⟨-, rfl⟩ | ⟨c, rest, -, hexec⟩
  · exact hs
  · exact exec_bounded hexec hs

/-- Outside NORMAL before and after, the monitor's own change at first was none. -/
theorem EvolvesBeyond.remaining_le {t : State} (h : EvolvesBeyond s t) (hs : s.monitor.state ≠ .normal)
    (ht : t.monitor.state ≠ .normal) : t.monitor.remaining ≤ s.monitor.remaining := by
  obtain ⟨m, hm, rfl | hnormal | hnormal⟩ := h
  · exact hm.monitor.2
  · exact absurd hnormal hs
  · exact absurd (hm.monitor.1.mpr hnormal) ht

theorem powerLost_of_powered (torn : List BlockFault) (h : (powerLost torn s).powered = true) : powerLost torn s = s := by
  unfold powerLost at h ⊢
  split
  · rfl
  next hp =>
    rw [if_neg hp] at h
    cases h

/-- Settles O34: an episode's commands evolve the monitor, and a power loss that had an effect leaves no power. -/
theorem allowanceNeverRisesInAnEpisode : Obligations.AllowanceNeverRisesInAnEpisode := by
  intro s t hs h hpowered ht hstart
  rcases step_cases h with ⟨-, rfl⟩ | ⟨c, rest, hpending, hexec⟩
  · exact Nat.le_refl _
  · cases hc : Instr.resets c with
    | false => exact (exec_evolves hc hexec).remaining_le hs ht
    | true =>
      cases c <;> cases hc
      case true.powerOn.refl v ws => exact absurd hpending (hstart v ws rest).1
      case true.restartEffect.refl v => exact absurd hpending (hstart v [] rest).2
      case true.powerLoss.refl torn =>
        cases hexec
        exact (congrArg (fun u => u.monitor.remaining) (powerLost_of_powered torn hpowered)).le

end Sys2Proof.Machine
end

