-- ==== Sys2Proof/Proofs/PortRequests.lean ====
section
/-! PROOFS. Sys2Proof/Proofs/PortRequests.lean: what a request meets at its port (R168, R178, R181), and the requests that only
report (R12, R156, R157, R165, R172). -/

namespace Sys2Proof.Machine

/-! ## A request that its port can serve -/

/-- The next state of a request that its port can serve, from what its block makes of it. -/
theorem request_next {p : PortId} {kind tag : Byte} {body : State → State} {s u : State} (hs : servable p kind s = true)
    (hu : body (accept p kind tag s) = u) (hf : frameOf u = frameOf s) : request p kind tag body s = .next u := by
  subst hu
  exact request_servable p kind tag body s hs hf

theorem request_replied {p : PortId} {kind tag : Byte} {body : State → State} {s : State} {st : Status} {b : Bool}
    {fields : List Byte} (hs : servable p kind s = true)
    (hu : body (accept p kind tag s) = answer p st b fields (accept p kind tag s)) :
    request p kind tag body s = .next (replied p kind tag st b fields s) :=
  request_next hs (hu.trans (answer_accept p kind tag st b fields s)) rfl

theorem request_refused {p : PortId} {kind tag : Byte} {body : State → State} {s : State} {st : Status}
    (hs : servable p kind s = true) (hu : body (accept p kind tag s) = refuse p st (accept p kind tag s)) :
    request p kind tag body s = .next (replied p kind tag st false [] s) :=
  request_replied hs hu

/-- The next state of such a request whose effect goes beyond the blocks. -/
theorem requestBut_next {take : State → State → State} {p : PortId} {kind tag : Byte} {body : State → State} {s u v : State}
    (hs : servable p kind s = true) (hu : body (accept p kind tag s) = u) (hv : take u (keeping (fun _ => u) s) = v) :
    requestBut take p kind tag body s = .next v := by
  subst hu hv
  have htake := takeRequest_servable p kind tag body s hs
  simp only [requestBut, whenPoweredBut, servable_powered p kind s hs, if_true, keepingBut, keeping, htake]

theorem withLength_of_eq {n : Nat} {p : PortId} {payload : List Byte} {f : State → State} {s : State}
    (h : payload.length = n) : withLength n p payload f s = f s := if_pos h

theorem withLength_of_ne {n : Nat} {p : PortId} {payload : List Byte} {f : State → State} {s : State}
    (h : payload.length ≠ n) : withLength n p payload f s = refuse p .badLength s := if_neg h

theorem fieldAt_all (bs : List Byte) (n : Nat) (h : bs.length = n) : fieldAt bs 0 n = leNat bs := fieldAt_last bs 0 n (by omega)

theorem markByte_decide (c : Prop) [Decidable c] : markByte (decide c) = if c then 1 else 0 := by
  by_cases h : c <;> simp [markByte, h]

/-! ## SET_TIME (R173) -/

/-- MANAGER level, which MANAGEMENT alone has, is the one that can set the time. -/
theorem eq_management_of_setTime {p : PortId} {s : State} (hs : servable p kSetTime s = true) : p = .management := by
  have hadmits : admits kSetTime (portLevel p s) = true := by
    simp only [servable, Bool.and_eq_true] at hs
    exact hs.1.2
  cases p with
  | host => exact absurd hadmits (by simp [portLevel]; decide)
  | management => rfl
  | service =>
    simp only [portLevel] at hadmits
    split at hadmits <;> exact absurd hadmits (by decide)

theorem post_answer_accept (o : Origin) (k : Byte) (args : List Nat) (p : PortId) (kind tag : Byte) (st : Status) (b : Bool)
    (fields : List Byte) (s : State) :
    answer p st b fields (post o k args (accept p kind tag s)) = replied p kind tag st b fields (post o k args s) := by
  rw [post_accept, answer_accept]

/-- Settles O53: the port that its level admits is MANAGEMENT, whose origin the event names. -/
theorem setTimeSetsTheEpochOffset : Obligations.SetTimeSetsTheEpochOffset := by
  intro p tag payload s hs hlen off
  have hp : p = .management := eq_management_of_setTime hs
  subst hp
  have hfield : fieldAt payload 0 8 = leNat payload := fieldAt_all payload 8 hlen
  have hlow : (off.setWidth 32).toNat = off.toNat % 4294967296 := BitVec.toNat_setWidth 32 off
  have hhigh : (off >>> 32).toNat = off.toNat / 4294967296 := by
    rw [BitVec.toNat_ushiftRight, Nat.shiftRight_eq_div_pow]
  rw [← hlow, ← hhigh]
  refine requestBut_next (take := takeEpoch) (body := setTime .management payload)
    (u := { replied .management kSetTime tag .ok false (leBytes 8 off.toNat)
      (post (.port .management) 0x22 [(off.setWidth 32).toNat, (off >>> 32).toNat, if s.epochValid then 1 else 0] s) with
        epoch := off, epochValid := true }) hs ?_ rfl
  rw [setTime, withLength_of_eq hlen]
  dsimp only
  rw [hfield]
  exact answer_accept .management kSetTime tag .ok false (leBytes 8 off.toNat)
    { post (.port .management) 0x22 [(off.setWidth 32).toNat, (off >>> 32).toNat, if s.epochValid then 1 else 0] s with
      epoch := off, epochValid := true }

/-! ## The reports -/

/-- Settles O54: each of them answers from the state as it was taken, which its port's frames alone tell from the state before. -/
theorem reportsChangeOnlyTheirPort : Obligations.ReportsChangeOnlyTheirPort := by
  intro p tag payload s
  refine ⟨fun hs => ?_, fun hs => ?_, fun hs => ?_, fun hs hlen => ?_, fun e hs hlen he => ?_⟩
  · exact request_replied (body := readLines p []) hs rfl
  · exact request_replied (body := readErrors p []) hs rfl
  · have hanswer : ackErrors p [] (accept p kAckErrors tag s) =
        replied p kAckErrors tag .ok false (errorFields s.integ) (s.onInteg fun g => { g with error := none, overflow := false }) :=
      answer_accept p kAckErrors tag .ok false _ (s.onInteg fun g => { g with error := none, overflow := false })
    exact request_next hs hanswer rfl
  · refine request_replied (body := listCaptures p payload) hs ?_
    rw [listCaptures, withLength_of_eq hlen]
    dsimp only
    have hmark : ∀ n : Nat, markByte (decide (listMax < n)) = if 16 < n then 1 else 0 := fun n => markByte_decide (16 < n)
    rw [listedFrom, fieldAt_all payload 4 hlen, hmark]
    rfl
  · refine request_replied (body := readCapture p payload) hs ?_
    rw [readCapture, withLength_of_eq hlen, withCapture, fieldAt_all payload 4 hlen]
    have hlook : lookUp (leNat payload) (accept p kReadCapture tag s) = .ok (shown s e) := by
      have hfind : findEntry (accept p kReadCapture tag s).dir (leNat payload) = some e := he
      rw [lookUp, hfind]
      rfl
    rw [hlook]
    rfl

/-! ## Taking a request (R168, R178, R181) -/

/-- A kind that names no request, as the row of UNKNOWN_KIND says it. -/
theorem admission_eq_none_iff : ∀ kind : Byte, admission kind = none ↔ kindIsUnknown kind = true := by decide

theorem soleLength_of_unknown : ∀ kind : Byte, kindIsUnknown kind = true → soleLength kind = none := by decide

/-- What its block makes of a request with a payload of the wrong length, where its table row admits one length (R181). -/
def RefusesLength (p : PortId) (kind : Byte) (payload : List Byte) (body : State → State) : Prop :=
  ∀ n : Nat, soleLength kind = some n → payload.length ≠ n →
    ∀ u : State, body u = if kind = kReadSection then setAhead p none (refuse p .badLength u) else refuse p .badLength u

theorem RefusesLength.of_none {p : PortId} {kind : Byte} {payload : List Byte} {body : State → State}
    (h : soleLength kind = none) : RefusesLength p kind payload body := by
  intro n hn
  rw [h] at hn
  cases hn

theorem RefusesLength.of_withLength {p : PortId} {kind : Byte} {payload : List Byte} {f : State → State} (n : Nat)
    (hn : soleLength kind = some n) (hk : kind ≠ kReadSection) : RefusesLength p kind payload (withLength n p payload f) := by
  intro m hm hlen u
  cases hn.symm.trans hm
  rw [if_neg hk, withLength_of_ne hlen]

/-- A command that is a request is taken at its port, with one meaning for its block; what goes beyond the blocks is what the
blocks' state says. -/
theorem exec_request {i : Instr} {p : PortId} {kind tag : Byte} {payload : List Byte}
    (hi : i.request? = some (p, kind, tag, payload)) (hwf : i.wellFormed = true) :
    ∃ (take : State → State → State) (body : State → State), (∀ u, take u u = u) ∧
      (∀ s, exec i s = requestBut take p kind tag body s) ∧ RefusesLength p kind payload body := by
  cases i <;> cases hi
  case unknownKind.refl =>
    simp only [Instr.wellFormed, Bool.and_eq_true] at hwf
    obtain ⟨hkind, -⟩ := hwf
    refine ⟨fun _ s => s, id, fun _ => rfl, fun s => ?_, .of_none (soleLength_of_unknown kind hkind)⟩
    exact if_pos (Option.isNone_iff_eq_none.mpr ((admission_eq_none_iff kind).mpr hkind))
  case setTime.refl => exact ⟨takeEpoch, _, fun _ => rfl, fun _ => rfl, .of_withLength 8 rfl (by decide)⟩
  case writeSettings.refl | writePlanEntry.refl | writePlanPageCap.refl =>
    exact ⟨takeWorking, _, fun _ => rfl, fun _ => rfl, .of_none rfl⟩
  case readSection.refl =>
    refine ⟨fun _ s => s, _, fun _ => rfl, fun _ => rfl, fun n hn hlen u => ?_⟩
    cases hn
    exact if_neg hlen
  case status.refl | readSettings.refl | postEvent.refl | panicNote.refl | stageNote.refl =>
    exact ⟨fun _ s => s, _, fun _ => rfl, fun _ => rfl, .of_none rfl⟩
  all_goals exact ⟨fun _ s => s, _, fun _ => rfl, fun _ => rfl, .of_withLength _ rfl (by decide)⟩

/-- What taking a request leads to, where the frame stays. -/
theorem requestBut_taken {take : State → State → State} {p : PortId} {kind tag : Byte} {body : State → State} {s u : State}
    (htake : ∀ u, take u u = u) (hp : s.powered = true) (hu : takeRequest p kind tag body s = u) (hf : frameOf u = frameOf s) :
    requestBut take p kind tag body s = .next u := by
  subst hu
  simp only [requestBut, whenPoweredBut, hp, if_true, keepingBut, keeping_of_frame _ s hf, htake]

theorem takeRequest_busy {p : PortId} {kind tag : Byte} {body : State → State} {s : State} {r : InService}
    (h : (s.port p).service = some r) : takeRequest p kind tag body s = busyReply p kind tag s := by
  simp only [takeRequest, h]

theorem takeRequest_unknown {p : PortId} {kind tag : Byte} {body : State → State} {s : State}
    (h : (s.port p).service = none) (hk : admission kind = none) :
    takeRequest p kind tag body s = replied p kind tag .unknownKind false [] s := by
  simp only [takeRequest, h, hk, Option.isNone_none, if_true, refuse_accept]

theorem takeRequest_denied {p : PortId} {kind tag : Byte} {body : State → State} {s : State}
    (h : (s.port p).service = none) (hk : admission kind ≠ none) (hl : admits kind (portLevel p s) = false) :
    takeRequest p kind tag body s = deny p kind (portLevel p s) (accept p kind tag s) := by
  have hsome : (admission kind).isNone = false := by simpa [Option.isSome_iff_ne_none] using hk
  simp only [takeRequest, h, hsome, hl, Bool.not_false, Bool.false_eq_true, if_false, if_true]

theorem takeRequest_starting {p : PortId} {kind tag : Byte} {body : State → State} {s : State}
    (h : (s.port p).service = none) (hl : admits kind (portLevel p s) = true) (hr : s.ready = false)
    (hk : answeredEarly kind = false) : takeRequest p kind tag body s = replied p kind tag .starting false [] s := by
  have hsome : (admission kind).isNone = false := by
    cases hadmission : admission kind with
    | none => simp [admits, hadmission] at hl
    | some row => rfl
  simp only [takeRequest, h, hsome, hl, hr, hk, Bool.not_true, Bool.not_false, Bool.and_true, Bool.false_eq_true, if_false,
    if_true, refuse_accept]

/-- Settles O46, by the four answers of `takeRequest` and, for the lengths, its owning blocks' first check. -/
theorem requestsAreTakenInOrder : Obligations.RequestsAreTakenInOrder := by
  refine ⟨?_, ?_, ?_⟩
  · intro i p kind tag payload s hi hwf hp
    obtain ⟨take, body, htake, hexec, -⟩ := exec_request hi hwf
    rw [hexec s]
    refine ⟨fun r hr => ?_, fun hidle => ⟨fun hk => ?_, fun hk hl => ?_, fun hl hr hid hst => ?_⟩⟩
    · exact requestBut_taken htake hp (takeRequest_busy hr) rfl
    · exact requestBut_taken htake hp (takeRequest_unknown hidle hk) rfl
    · refine requestBut_taken htake hp (takeRequest_denied hidle hk hl) ?_
      simp
    · have hearly : answeredEarly kind = false := by simp [answeredEarly, hid, hst]
      exact requestBut_taken htake hp (takeRequest_starting hidle hl hr hearly) rfl
  · intro p kind tag payload s hp hidle hkind
    have hunknown : kindIsUnknown kind = true := by
      rcases hkind with rfl | hkind
      · rfl
      · simp [kindIsUnknown, hkind]
    have hnone := (admission_eq_none_iff kind).mpr hunknown
    have hexec : exec (.unknownKind p kind tag payload) s = request p kind tag id s :=
      if_pos (Option.isNone_iff_eq_none.mpr hnone)
    rw [hexec]
    refine ⟨replied p kind tag .unknownKind false [] s,
      requestBut_taken (take := fun _ s => s) (fun _ => rfl) hp (takeRequest_unknown hidle hnone) rfl, ?_, ?_, ?_, rfl⟩
    all_goals simp only [replied, port_onPort_same]
    have hcode : kind + 0x80 = BitVec.ofNat 8 ((kind.toNat + 128) % 256) := by
      apply BitVec.eq_of_toNat_eq
      simp [BitVec.toNat_add]
    rw [mkReply, hcode]
    rfl
  · intro i p kind tag payload n s hi hwf hn hlen hs
    obtain ⟨take, body, htake, hexec, hrefuses⟩ := exec_request hi hwf
    rw [hexec s]
    refine requestBut_taken htake (servable_powered p kind s hs) ((takeRequest_servable p kind tag body s hs).trans ?_) rfl
    rw [hrefuses n hn hlen]
    split
    next hkind =>
      subst hkind
      rw [refuse_accept, setAhead]
      exact onPort_congr p _ _ _ rfl
    next hkind =>
      rw [refuse_accept, replied, onPort_onPort]
      refine onPort_congr p _ _ s ?_
      by_cases hlist : kind = kListCaptures <;> simp [keepsAhead, hlist, hkind]

/-! ## IDENTIFY and STATUS (R171, R172) -/

/-- Every level admits IDENTIFY and STATUS, and STARTING answers them. -/
theorem servable_early {p : PortId} {kind : Byte} {s : State} (hk : kind = kIdentify ∨ kind = kStatus) (hp : s.powered = true)
    (h : (s.port p).service = none) : servable p kind s = true := by
  have hadmits : ∀ l : Level, admits kind l = true := by
    rcases hk with rfl | rfl <;> intro l <;> cases l <;> rfl
  have hearly : answeredEarly kind = true := by rcases hk with rfl | rfl <;> rfl
  simp [servable, hp, h, hadmits, hearly]

theorem statusGroup_eq_none_iff (g : Nat) (p : PortId) (s : State) : statusGroup g p s = none ↔ 8 ≤ g := by
  unfold statusGroup
  split
  case h_9 => exact iff_of_true rfl (by grind)
  all_goals exact iff_of_false nofun (by decide)

theorem clearNotices_eq (p : PortId) (s : State) :
    clearNotices p s = s.onPort p fun q => { q with notices := q.notices &&& 0x80 } := rfl

theorem statusAnswer_accept (p : PortId) (tag : Byte) (fields : List Byte) (s : State) :
    statusAnswer p fields (accept p kStatus tag s) =
      (replied p kStatus tag .ok false fields s).onPort p fun q => { q with notices := q.notices &&& 0x80 } := by
  rw [statusAnswer, answer_accept, clearNotices_eq]

theorem status_of_long {p : PortId} {payload : List Byte} {s : State} (h : 1 < payload.length) :
    status p payload s = refuse p .badLength s := if_pos h

theorem status_of_host {payload : List Byte} {s : State} (h : payload.length ≤ 1) :
    status .host payload s = statusAnswer .host (reducedStatus s) s := if_neg (by omega)

theorem status_of_group {p : PortId} {payload : List Byte} {s : State} (hp : p ≠ .host) (h : payload.length ≤ 1) :
    status p payload s =
      match statusGroup (fieldAt payload 0 1) p s with
      | some g => statusAnswer p (readyCode s :: noticeField p s ++ g) s
      | none => refuse p .badValue s := by
  unfold status
  rw [if_neg (by omega)]
  cases p with
  | host => exact absurd rfl hp
  | management | service => rfl

/-- Settles O47: both are served in every state and at every level. -/
theorem identifyAndStatusReport : Obligations.IdentifyAndStatusReport := by
  refine ⟨fun p tag payload s hpow hidle => ⟨?_, fun hne => ?_⟩, fun p tag payload s hpow hidle => ?_⟩
  · rintro rfl
    exact request_replied (body := identify p []) (servable_early (.inl rfl) hpow hidle) rfl
  · have hlen : payload.length ≠ 0 := by simpa using hne
    exact request_refused (body := identify p payload) (servable_early (.inl rfl) hpow hidle) (withLength_of_ne hlen)
  · have hs : servable p kStatus s = true := servable_early (.inr rfl) hpow hidle
    have answered : ∀ u : State, status p payload (accept p kStatus tag s) = u → frameOf u = frameOf s →
        exec (.status p tag payload) s = .next u := fun u hu hf => request_next (body := status p payload) hs hu hf
    intro t cleared g
    have hfield : fieldAt payload 0 1 = g := by
      rw [fieldAt_one]
      cases payload <;> rfl
    clear_value g
    refine ⟨?_, fun fields hp hlen hg => ?_, fun _ _ => statusGroup_eq_none_iff _ _ _, fun hp hlen hg => ?_, fun hlen => ?_⟩
    · rintro rfl hlen
      exact answered _ ((status_of_host hlen).trans (statusAnswer_accept .host tag _ s)) rfl
    · refine answered _ ?_ rfl
      rw [status_of_group hp hlen, hfield]
      have hgroup : statusGroup g p (accept p kStatus tag s) = some fields := hg
      rw [hgroup]
      refine (statusAnswer_accept p tag _ s).trans ?_
      have hnotices : noticeField p (accept p kStatus tag s) = leBytes 2 (s.port p).notices.toNat := by
        simp only [noticeField, accept, port_onPort_same, leBits]
      rw [hnotices]
      rfl
    · refine answered _ ?_ rfl
      rw [status_of_group hp hlen, hfield, (statusGroup_eq_none_iff _ _ _).mpr hg]
      exact refuse_accept p kStatus tag .badValue s
    · exact answered _ ((status_of_long hlen).trans (refuse_accept p kStatus tag .badLength s)) rfl

/-! ## ACK_RESTART and RESTART (R170, R177) -/

@[simp] theorem port_clearRestarted (q : PortId) (s : State) :
    (clearRestarted s).port q = { s.port q with notices := (s.port q).notices &&& 0x7F } := by
  simp only [clearRestarted, State.port, onLink_link, vmap_get]
  rfl

theorem abortNow_opening {s : State} (h : s.engine.state = .opening) : abortNow s = closeOpening .abort s := by
  simp only [abortNow, h]

theorem abortNow_gathering {s : State} (h : s.engine.state = .gathering) : abortNow s = closeEarly .abort .aborted s := by
  simp only [abortNow, h]

theorem abortNow_otherwise {s : State} (ho : s.engine.state ≠ .opening) (hg : s.engine.state ≠ .gathering) : abortNow s = s := by
  unfold abortNow
  split <;> first | rfl | contradiction

theorem current_of_inProgress {s : State} (h : inProgress s = true) : current s = s.engine.capture := if_pos h

theorem current_eq_none_of_not {s : State} (h : inProgress s = false) : current s = none := by simp [current, h]

theorem inProgress_of_current {s : State} {c : Capture} (h : current s = some c) : inProgress s = true := by
  unfold current at h
  split at h
  · assumption
  · cases h

theorem isNormal_iff (s : State) : isNormal s = true ↔ s.monitor.state = .normal := decide_eq_true_iff

theorem toNat_eq_one_iff (b : Byte) : b.toNat = 1 ↔ b = 1 := by
  rw [← BitVec.toNat_inj]
  rfl

theorem markByte_of_le_one {b : Byte} (h : b.toNat ≤ 1) : markByte (decide (b.toNat = 1)) = b := by
  rcases Nat.le_one_iff_eq_zero_or_eq_one.mp h with hb | hb
  · rw [hb, show b = 0 from BitVec.eq_of_toNat_eq hb]
    rfl
  · rw [hb, (toNat_eq_one_iff b).mp hb]
    rfl

/-- The first of RESTART's checks that fails (R177). -/
theorem restart_eq (p : PortId) (force : Byte) (s : State) :
    restart p [force] s =
      if 1 < force.toNat then refuse p .badValue s
      else if !isNormal s then refuse p .holdup s
      else if s.dir.eraseAll.isSome || s.link.store.isSome || (!decide (force.toNat = 1) && inProgress s) then
        refuse p .inProgress s
      else decideRestart p (decide (force.toNat = 1)) s := by
  have hfield : fieldAt [force] 0 1 = force.toNat := fieldAt_one [force] 0
  rw [restart, withLength_of_eq (n := 1) rfl, hfield]

/-- Settles O48: the checks of RESTART in their order, and what an abort does in each state of the engine. -/
theorem ackRestartAndRestartAct : Obligations.AckRestartAndRestartAct := by
  refine ⟨fun p tag s hs => ?_, fun p tag force s hs => ?_, fun s => ⟨abortNow_opening, abortNow_gathering, abortNow_otherwise⟩⟩
  · refine ⟨_, request_next (body := ackRestart p []) hs rfl rfl, fun q => ?_, rfl, rfl, rfl, rfl⟩
    by_cases hq : q = p
    · subst hq
      simp [ackRestart, withLength, answer, accept, replied]
    · simp [ackRestart, withLength, answer, accept, replied, hq]
  · intro refused free
    have taken : ∀ u : State, restart p [force] (accept p kRestart tag s) = u → frameOf u = frameOf s →
        exec (.restart p tag [force]) s = .next u := fun u hu hf => request_next (body := restart p [force]) hs hu hf
    have refusedBy : ∀ st, restart p [force] (accept p kRestart tag s) = refuse p st (accept p kRestart tag s) → refused st :=
      fun st hst => taken _ (hst.trans (refuse_accept p kRestart tag st s)) rfl
    simp only [restart_eq] at taken refusedBy
    have state : ∀ b : Bool, isNormal s = b → isNormal (accept p kRestart tag s) = b := fun _ h => h
    have progress : ∀ b : Bool, inProgress s = b → inProgress (accept p kRestart tag s) = b := fun _ h => h
    have operations : (accept p kRestart tag s).dir.eraseAll = s.dir.eraseAll ∧ (accept p kRestart tag s).link.store = s.link.store :=
      ⟨rfl, rfl⟩
    have normal : s.monitor.state = .normal → isNormal (accept p kRestart tag s) = true := (isNormal_iff s).mpr
    have notNormal : s.monitor.state ≠ .normal → isNormal (accept p kRestart tag s) = false := fun h =>
      Bool.eq_false_iff.mpr (mt (isNormal_iff s).mp h)
    refine ⟨fun hforce => ?_, fun hforce hm => ?_, fun hforce hm hfree => ?_, fun hforce hm hprog => ?_,
      fun hforce hm hfree hcur hprog hlink => ?_, fun c hforce hm hfree hcur => ?_⟩
    · exact refusedBy _ (if_pos hforce)
    · refine refusedBy _ ?_
      simp [Nat.not_lt.mpr hforce, notNormal hm]
    · refine refusedBy _ ?_
      have hbusy : s.dir.eraseAll.isSome = true ∨ s.link.store.isSome = true := by
        simpa [free, Option.isSome_iff_ne_none, imp_iff_not_or, not_and_or] using hfree
      have hsome : (s.dir.eraseAll.isSome || s.link.store.isSome) = true := by simpa using hbusy
      simp [Nat.not_lt.mpr hforce, normal hm, operations, hsome]
    · subst hforce
      refine refusedBy _ ?_
      simp [normal hm, progress true hprog]
    · refine taken _ ?_ rfl
      have hforced : decide (force.toNat = 1) = decide (force = 1) := decide_eq_decide.mpr (toNat_eq_one_iff force)
      have hfirst : markByte (decide (force = 1)) = force := hforced ▸ markByte_of_le_one hforce
      obtain ⟨herase, hstore⟩ := hfree
      have hcurrent : current (accept p kRestart tag s) = none := hcur
      have hnone : (accept p kRestart tag s).link.restart = none := hlink
      simp only [Nat.not_lt.mpr hforce, normal hm, progress false hprog, operations, herase, hstore, if_false, Bool.not_true,
        Option.isSome_none, Bool.or_false, Bool.and_false, Bool.false_eq_true, decideRestart, hcurrent, answerRestart, hnone, hfirst,
        hforced]
      simp only [accept, onPort_onPort]
      rfl
    · subst hforce
      obtain ⟨herase, hstore⟩ := hfree
      have hcurrent : current (accept p kRestart tag s) = some c := hcur
      refine taken _ ?_ (by simp)
      simp only [normal hm, operations, herase, hstore, decideRestart, hcurrent, setWait_accept]
      rfl

end Sys2Proof.Machine
end

