-- ==== Sys2Proof/Proofs/LineFilters.lean ====
section
/-! PROOFS. Sys2Proof/Proofs/LineFilters.lean: raw and filtered levels, trigger terms and their timers, ARM, DISARM and
DRIVE_INDICATORS (R1, R2, R5 to R8, R11, R14, R15). -/

namespace Sys2Proof.Machine

/-- A command of a part with power whose effect is on the blocks alone. -/
theorem command_next {f : State → State} {s u : State} (hp : s.powered = true) (hu : f s = u) (hf : frameOf u = frameOf s) :
    (.next (whenPowered f s) : Host.Outcome State Fault Refusal) = .next u := by
  subst hu
  rw [whenPowered_of_frame f s hp hf]

/-! ## Candidates (R1, R2) -/

theorem candidateDue_of_reached {line : Fin 16} {s : State} {c : Candidate} (hc : s.trig.cands[line] = some c)
    (hr : reached s.time (after c.start s.settings.filterWidth[line]) = true) : candidateDue line s = some c.level := by
  simp only [candidateDue, hc, hr, if_true]

theorem candidateDue_of_running {line : Fin 16} {s : State} {c : Candidate} (hc : s.trig.cands[line] = some c)
    (hr : reached s.time (after c.start s.settings.filterWidth[line]) = false) : candidateDue line s = none := by
  simp only [candidateDue, hc, hr, Bool.false_eq_true, if_false]

theorem candidateDue_of_none {line : Fin 16} {s : State} (hc : s.trig.cands[line] = none) : candidateDue line s = none := by
  simp only [candidateDue, hc]

theorem filterPassed_of_due {line : Fin 16} {s : State} {b : Bool} (h : candidateDue line s = some b) :
    filterPassed line s = settle (filteredChange line b s) := by
  simp only [filterPassed, h]

theorem filterPassed_of_none {line : Fin 16} {s : State} (h : candidateDue line s = none) : filterPassed line s = s := by
  simp only [filterPassed, h]

theorem filteredChange_eq (line : Fin 16) (b : Bool) (s : State) :
    filteredChange line b s = forEach allLines
      (fun n u => if ((u.settings.terms[n]).mask &&& BitVec.twoPow 16 line.val) = 0 then u else evaluate n u)
      (s.onTrig fun t =>
        { t with filtered := setBit t.filtered line.val b, latches := setBit t.latches line.val true
                 cands := vset t.cands line none }) := rfl

@[simp] theorem frameOf_filterPassed (line : Fin 16) (s : State) : frameOf (filterPassed line s) = frameOf s := by
  unfold filterPassed
  split <;> simp

theorem time_of_frame {s t : State} (h : frameOf s = frameOf t) : s.time = t.time := by
  simp only [frameOf, Prod.mk.injEq] at h
  exact h.2.2.2.1

theorem pins_of_frame {s t : State} (h : frameOf s = frameOf t) : s.pins = t.pins := by
  simp only [frameOf, Prod.mk.injEq] at h
  exact h.2.2.2.2.2.2.1

/-- Settles O9: a due candidate is taken first, and what the raw level then leaves is `nextCandidate`. -/
theorem rawLevelsAreFiltered : Obligations.RawLevelsAreFiltered := by
  refine ⟨fun line level s hp => ?_, fun line s hp => ⟨fun c hc hr => ?_, fun c hc hr => ?_, fun hc => ?_⟩⟩
  · intro u cand v
    have htaken : takeCandidate line s = u := by
      unfold takeCandidate
      split <;> rename_i h <;> simp only [u, h]
    have hframe : frameOf u = frameOf s := by rw [← htaken, frameOf_takeCandidate]
    have hraw : rawChanged line level s = settle v := by
      have htime : u.time = s.time := time_of_frame hframe
      rw [rawChanged, htaken, htime]
      rfl
    have hv : frameOf (settle v) = frameOf s := (frameOf_settle v).trans hframe
    have hpowered : whenPowered (rawChanged line level) s = settle v := by rw [whenPowered_of_frame _ s hp (hraw ▸ hv), hraw]
    have hpins : (settle v).pins = s.pins := pins_of_frame hv
    calc exec (.rawLevelChange line level) s
        = .next (setRaw line level (whenPowered (rawChanged line level) s)) := rfl
      _ = _ := by rw [hpowered, setRaw, State.onPins, hpins]
  · have hpassed := (filterPassed_of_due (candidateDue_of_reached hc hr)).trans (congrArg settle (filteredChange_eq line c.level s))
    exact command_next (f := filterPassed line) hp hpassed ((congrArg frameOf hpassed).symm.trans (frameOf_filterPassed line s))
  · exact command_next (f := filterPassed line) hp (filterPassed_of_none (candidateDue_of_running hc hr)) rfl
  · exact command_next (f := filterPassed line) hp (filterPassed_of_none (candidateDue_of_none hc)) rfl

/-! ## Terms (R5 to R8) and the hold-off (R11) -/

theorem evaluate_of_starting {n : Fin 8} {s : State} (h : s.ready = false) : evaluate n s = s := by
  simp [evaluate, h]

theorem evaluate_of_unarmed {n : Fin 8} {s : State} (h : (s.trig.terms[n]).state ≠ .armed) : evaluate n s = s := by
  unfold evaluate
  dsimp only
  rw [if_pos (by simp [h, -Fin.getElem_fin])]

theorem evaluate_of_armed {n : Fin 8} {s : State} (hr : s.ready = true) (h : (s.trig.terms[n]).state = .armed) :
    evaluate n s = if termCondition n s then (if (s.trig.terms[n]).qualified then fireTerm n s else s)
      else onTerm n (fun t => { t with qualified := true }) s := by
  unfold evaluate
  dsimp only
  rw [if_neg (by simp [hr, h, -Fin.getElem_fin])]

theorem rearmExpired_eq {n : Fin 8} {s : State} {t : PartTime} (h : (s.trig.terms[n]).rearmAt = some t)
    (hr : reached s.time t = true) : rearmExpired n s =
      if (s.trig.terms[n]).state = .fired then
        evaluate n (onTerm n (fun x => { x with rearmAt := none, state := .armed, qualified := false }) s)
      else onTerm n (fun x => { x with rearmAt := none }) s := by
  have hdue : rearmDue n s = true := by simp only [rearmDue, h, hr]
  simp only [rearmExpired, hdue, if_true, terms_onTerm_same, rearm, onTerm_onTerm]

theorem rearmExpired_of_running {n : Fin 8} {s : State} (h : rearmDue n s = false) : rearmExpired n s = s := by
  simp [rearmExpired, h]

/-- Settles O11, by the cases of `evaluate` and of the two timers. -/
theorem termsFireAndTheirTimersRunOut : Obligations.TermsFireAndTheirTimersRunOut := by
  refine ⟨fun n s => ⟨evaluate_of_starting, evaluate_of_unarmed, fun hr ha => ?_⟩, fun n s hp => ?_, fun s hp => ?_⟩
  · rw [evaluate_of_armed hr ha]
    refine ⟨fun hc => ?_, fun hc hq => ?_, fun hc hq => ?_⟩
    · simp [hc]
    · rw [if_pos hc, if_neg (by rw [hq]; exact Bool.false_ne_true)]
    · rw [if_pos hc, if_pos hq]
      rfl
  · refine ⟨fun t ht hr => ⟨fun hfired => ?_, fun hfired => ?_⟩, fun t ht hr => ?_, fun ht => ?_⟩
    · exact command_next (f := rearmExpired n) hp ((rearmExpired_eq ht hr).trans (if_pos hfired)) (by simp)
    · exact command_next (f := rearmExpired n) hp ((rearmExpired_eq ht hr).trans (if_neg hfired)) (by simp)
    · exact command_next (f := rearmExpired n) hp (rearmExpired_of_running (by simp only [rearmDue, ht, hr])) rfl
    · exact command_next (f := rearmExpired n) hp (rearmExpired_of_running (by simp only [rearmDue, ht])) rfl
  · refine ⟨fun t ht hr => ?_, fun t ht hr => ?_, fun ht => ?_⟩
    · exact command_next (f := holdoffExpired) hp (by simp only [holdoffExpired, ht, hr, if_true]) rfl
    · exact command_next (f := holdoffExpired) hp (by simp only [holdoffExpired, ht, hr, Bool.false_eq_true, if_false]) rfl
    · exact command_next (f := holdoffExpired) hp (by simp only [holdoffExpired, ht]) rfl

/-! ## ARM, DISARM and DRIVE_INDICATORS (R14, R15) -/

theorem armTerm_eq (n : Fin 8) (s : State) :
    armTerm n s = if (s.trig.terms[n]).state = .armed then s
      else evaluate n (onTerm n (fun t => { t with state := .armed, qualified := false, rearmAt := none, assoc := none }) s) := by
  unfold armTerm
  split
  next h => rw [if_pos h]
  next h => rw [if_neg (by rw [h]; nofun), rearm, onTerm_onTerm]
  next h => rw [if_neg (by rw [h]; nofun), rearm, onTerm_onTerm]

@[simp] theorem frameOf_armTerm (n : Fin 8) (s : State) : frameOf (armTerm n s) = frameOf s := by
  rw [armTerm_eq]
  split <;> simp

theorem termMask_one (mask : Byte) : termMask [mask] = mask := by
  rw [termMask, fieldAt_one]
  exact BitVec.ofNat_toNat 8 mask

/-- Settles O13: the named terms in ascending order, and the confirmation of an indicator value. -/
theorem armDisarmAndIndicatorsAct : Obligations.ArmDisarmAndIndicatorsAct := by
  refine ⟨fun p tag mask s => ⟨fun hs => ?_, fun hs => ?_⟩, fun p tag v w s hs => ⟨fun hw => ?_, fun hw => ?_⟩⟩
  · intro u
    have hu : forEach (namedTerms mask) armTerm (accept p kArm tag s) = u := by
      simp only [u, namedTerms, ← armTerm_eq, accept_eq_inService]
    refine request_next (body := arm p [mask]) hs ?_ ?_
    · rw [arm, withLength_of_eq (n := 1) rfl, termMask_one, hu]
      rfl
    · rw [frameOf_answer, ← hu]
      exact frameOf_forEach _ _ (fun n s => frameOf_armTerm n s) _
  · intro u
    refine request_next (body := disarm p [mask]) hs ?_ ?_
    · rw [disarm, withLength_of_eq (n := 1) rfl, termMask_one]
      rfl
    · rw [frameOf_answer]
      exact frameOf_forEach _ _ (fun n s => frameOf_onTerm n _ s) _
  · refine request_refused (body := driveIndicators p [v, w]) hs ?_
    rw [driveIndicators, withLength_of_eq (n := 2) rfl]
    exact if_pos hw
  · refine request_next (body := driveIndicators p [v, w]) hs ?_ rfl
    have hlow : setField (v.setWidth 4) = leBytes 2 (v.toNat % 16) := by
      rw [setField, leBits, BitVec.toNat_setWidth]
    rw [driveIndicators, withLength_of_eq (n := 2) rfl, ← hlow]
    refine (if_neg (not_not.mpr hw)).trans ?_
    exact answer_accept p kDriveIndicators tag .ok _ _ (s.onTrig fun t => { t with indicators := v.setWidth 4 })

end Sys2Proof.Machine
end

