-- ==== Sys2Proof/Proofs/StreamRecords.lean ====
section
/-! PROOFS. Sys2Proof/Proofs/StreamRecords.lean: the stream channels: the frames of a record, its end, and its way into the FIFO
(R32 to R42). -/

namespace Sys2Proof.Machine

theorem getLsbD_setBit {w : Nat} (v : BitVec w) (i j : Nat) (b : Bool) (hi : i < w) :
    (setBit v i b).getLsbD j = if j = i then b else v.getLsbD j := by
  by_cases hj : j = i
  · subst hj
    cases b <;> simp [setBit, hi]
  · rw [if_neg hj]
    by_cases hw : j < w
    · cases b <;> simp [setBit, hw, hj]
    · rw [BitVec.getLsbD_of_ge _ _ (Nat.le_of_not_lt hw), BitVec.getLsbD_of_ge _ _ (Nat.le_of_not_lt hw)]

@[simp] theorem port_raise (n : Notice) (p : PortId) (s : State) :
    (raise n s).port p = { s.port p with notices := setBit (s.port p).notices n.bit true } := by
  simp only [raise, State.port, onLink_link, vmap_get]

/-! ## A record offered to the FIFO (R39 to R42) -/

@[simp] theorem endQuiet_streams (ch : Fin 4) (s : State) : (endQuiet ch s).streams = s.streams := by
  unfold endQuiet
  split
  · split <;> rfl
  · rfl

@[simp] theorem endQuiet_ring (ch : Fin 4) (s : State) : (endQuiet ch s).ring = s.ring := by
  unfold endQuiet
  split
  · split <;> rfl
  · rfl

/-- Ageing drops the fewest oldest records that make room. -/
theorem ageFifo_eq_drop (size : Nat) (xs : List StreamRec) :
    ∃ k : Nat, k ≤ xs.length ∧ ageFifo size xs = xs.drop k ∧
      ∀ j : Nat, j < k → fifoMax < ((xs.drop j).map StreamRec.size).sum + size := by
  induction xs with
  | nil => exact ⟨0, Nat.le_refl _, rfl, fun j hj => absurd hj (Nat.not_lt_zero j)⟩
  | cons x xs ih =>
    unfold ageFifo
    split
    next hfits => exact ⟨0, Nat.zero_le _, rfl, fun j hj => absurd hj (Nat.not_lt_zero j)⟩
    next hfits =>
      obtain ⟨k, hk, hage, hfull⟩ := ih
      refine ⟨k + 1, Nat.succ_le_succ hk, hage, fun j hj => ?_⟩
      cases j with
      | zero => exact Nat.lt_of_not_le hfits
      | succ j => exact hfull j (Nat.lt_of_succ_lt_succ hj)

/-- The channel with the record counted. -/
def StreamChan.received' (c : StreamChan) : StreamChan := { c with received := satInc c.received }

theorem offerRecord_of_fits {ch : Fin 4} {r : StreamRec} {s : State} (h : (s.streams[ch]).bytesHeld + r.size ≤ fifoMax) :
    offerRecord ch r s = endQuiet ch (s.onStream ch fun c => c.received'.append r) := by
  have hfits : (StreamChan.received' s.streams[ch]).fits r = true := decide_eq_true h
  unfold offerRecord
  dsimp only
  rw [streams_onStream_same]
  refine (if_pos hfits).trans ?_
  rw [onStream_onStream]
  rfl

theorem offerRecord_of_aging {ch : Fin 4} {r : StreamRec} {s : State} (h : fifoMax < (s.streams[ch]).bytesHeld + r.size)
    (hc : (s.streams[ch]).claim = none) :
    offerRecord ch r s = endQuiet ch (s.onStream ch fun c => (c.received'.age r).append r) := by
  have hfits : ¬ (StreamChan.received' s.streams[ch]).fits r = true := fun hf => Nat.not_le.mpr h (of_decide_eq_true hf)
  unfold offerRecord
  dsimp only
  rw [streams_onStream_same]
  refine (if_neg hfits).trans ?_
  rw [hc, onStream_onStream]
  rfl

theorem offerRecord_of_claim {ch : Fin 4} {r : StreamRec} {s : State} {cl : Claim}
    (h : fifoMax < (s.streams[ch]).bytesHeld + r.size) (hc : (s.streams[ch]).claim = some cl) :
    offerRecord ch r s = dropRecord ch cl r (s.onStream ch StreamChan.received') := by
  have hfits : ¬ (StreamChan.received' s.streams[ch]).fits r = true := fun hf => Nat.not_le.mpr h (of_decide_eq_true hf)
  unfold offerRecord
  dsimp only
  rw [streams_onStream_same]
  refine (if_neg hfits).trans ?_
  rw [hc]
  rfl

/-- A drop of the claim's capture after the first. -/
theorem dropRecord_of_noticed {ch : Fin 4} {cl : Claim} {r : StreamRec} {s : State} (h : (s.streams[ch]).noticed = cl.capture) :
    dropRecord ch cl r s =
      s.onStream ch fun c => { c with overrun := satInc c.overrun, pendDrops := satInc c.pendDrops } := by
  unfold dropRecord
  dsimp only
  rw [streams_onStream_same]
  exact if_pos h

/-- The first drop of the claim's capture is told. -/
theorem dropRecord_of_new {ch : Fin 4} {cl : Claim} {r : StreamRec} {s : State} (h : (s.streams[ch]).noticed ≠ cl.capture) :
    dropRecord ch cl r s = raise .streamOverrun (post (.stream ch) evStreamOverrun [cl.capture, r.size]
      (s.onStream ch fun c =>
        { c with overrun := satInc c.overrun, pendDrops := satInc c.pendDrops, noticed := cl.capture })) := by
  unfold dropRecord
  dsimp only
  rw [streams_onStream_same]
  refine (if_neg h).trans ?_
  rw [onStream_onStream]

/-- Settles O18, by the room in the FIFO and the claim. -/
theorem offeredRecordEntersAgesOrDrops : Obligations.OfferedRecordEntersAgesOrDrops := by
  intro ch r s c u d size entered
  have hone : size [r] = r.size := by simp [size, StreamRec.size]
  have hheld : size c.fifo = c.bytesHeld := rfl
  have hd : d = u.streams[ch] := rfl
  have hu : u = offerRecord ch r s := rfl
  rw [hone, hheld]
  refine ⟨fun hfits => ?_, fun hfull hsmall hclaim => ?_, fun cl hfull hclaim => ?_⟩
  · rw [hd, hu, offerRecord_of_fits hfits, endQuiet_streams, endQuiet_ring, streams_onStream_same]
    exact ⟨rfl, rfl⟩
  · obtain ⟨k, hk, hage, hmore⟩ := ageFifo_eq_drop r.size c.fifo
    have hroom := ageFifo_fits r.size (hsmall.trans (by decide)) c.fifo
    rw [hage] at hroom
    rw [hd, hu, offerRecord_of_aging hfull hclaim, endQuiet_streams, endQuiet_ring, streams_onStream_same]
    refine ⟨rfl, k, hk, hroom, hmore, ?_⟩
    have haged : c.fifo.length - (c.fifo.drop k).length = k := by
      rw [List.length_drop]
      omega
    show (StreamChan.age (StreamChan.received' c) r).append r = _
    simp only [StreamChan.age, StreamChan.append, StreamChan.received', hage, haged]
    rfl
  · rw [hd, hu, offerRecord_of_claim hfull hclaim]
    have hcounted : (s.onStream ch StreamChan.received').streams[ch] = StreamChan.received' c := streams_onStream_same _ _ _
    by_cases hnoticed : c.noticed = cl.capture
    · have hnoticed' : ((s.onStream ch StreamChan.received').streams[ch]).noticed = cl.capture := by rw [hcounted]; exact hnoticed
      rw [dropRecord_of_noticed hnoticed', streams_onStream_same, hcounted, ← hnoticed]
      exact ⟨rfl, fun _ => ⟨rfl, rfl⟩, fun h => absurd rfl h⟩
    · have hnoticed' : ((s.onStream ch StreamChan.received').streams[ch]).noticed ≠ cl.capture := by rw [hcounted]; exact hnoticed
      rw [dropRecord_of_new hnoticed', onStream_onStream]
      refine ⟨?_, fun h => absurd h hnoticed, fun _ => ⟨rfl, fun p => ?_⟩⟩
      · exact streams_onStream_same ch _ s
      · rw [port_raise]
        rfl

/-! ## A record's end (R34 to R36) -/

theorem Assembly.incomplete_iff (a : Assembly) : a.incomplete = false ↔ a.bits = 0 ∧ a.held = none := by
  simp [incomplete]

/-- A record that ends with its last frame complete. -/
theorem completeRecord_of_complete {ch : Fin 4} {next : RxState} {s : State} {a : Assembly}
    (ha : (s.streams[ch]).assembly = some a) (h : a.incomplete = false) :
    completeRecord ch false next s =
      offerRecord ch (a.record ch false) (s.onStream ch fun c => { c with assembly := none, rx := next }) := by
  simp [completeRecord, ha, h, -Fin.getElem_fin]

/-- A record that ends within a frame, or by a stall. -/
theorem completeRecord_of_error {ch : Fin 4} {stall : Bool} {next : RxState} {s : State} {a : Assembly}
    (ha : (s.streams[ch]).assembly = some a) (h : (stall || a.incomplete) = true) :
    completeRecord ch stall next s = offerRecord ch (a.record ch true)
      (post (.stream ch) evFrameSyncError [a.words.length, satInc (s.streams[ch]).syncErrors]
        (s.onStream ch fun c => { c with assembly := none, rx := next, syncErrors := satInc c.syncErrors })) := by
  simp only [completeRecord, ha, h, if_true, onStream_onStream, streams_onStream_same]

/-- What a level of SYNC does: the pin, and then the receiver. -/
theorem syncCommand_next {ch : Fin 4} {b : Bool} {f : State → State} {s u : State} (hp : s.powered = true)
    (hu : f (syncLevel ch b s) = u) (hf : frameOf u = frameOf (syncLevel ch b s)) :
    (.next (whenPowered f (syncLevel ch b s)) : Host.Outcome State Fault Refusal) = .next u :=
  command_next (s := syncLevel ch b s) hp hu hf

theorem stallDue_of_receiving {ch : Fin 4} {s : State} {a : Assembly} (hr : (s.streams[ch]).rx = .receiving)
    (ha : (s.streams[ch]).assembly = some a) : stallDue ch s = reached s.time (after a.lastEdge 10000) := by
  simp only [stallDue, hr, ha, decide_true, Bool.true_and]
  rfl

theorem stallDue_of_not_receiving {ch : Fin 4} {s : State} (hr : (s.streams[ch]).rx ≠ .receiving) : stallDue ch s = false := by
  simp [stallDue, hr, -Fin.getElem_fin]

/-- Settles O16, by the receiver's state. -/
theorem streamLineCommandsBuildRecords : Obligations.StreamLineCommandsBuildRecords := by
  refine ⟨fun ch s hp => ?_, fun ch s hp => ?_, fun ch s hp => ?_, fun ch da db s hp => ?_⟩
  · intro u cfg a
    refine ⟨fun hrx => ?_, fun hrx => ?_⟩
    · refine syncCommand_next (f := syncAsserted ch) hp ?_ rfl
      have hidle : ((syncLevel ch true s).streams[ch]).rx = .idle := hrx
      simp only [syncAsserted, hidle]
      rfl
    · refine syncCommand_next (f := syncAsserted ch) hp ?_ rfl
      have hother : ((syncLevel ch true s).streams[ch]).rx ≠ .idle := hrx
      unfold syncAsserted
      split <;> first | rfl | contradiction
  · intro u
    refine ⟨fun a hrx ha => ?_, fun hrx => ?_, fun hrx => ?_⟩
    · intro v
      have hreceiving : ((syncLevel ch false s).streams[ch]).rx = .receiving := hrx
      have hassembly : ((syncLevel ch false s).streams[ch]).assembly = some a := ha
      have hcompleted : syncReleased ch (syncLevel ch false s) = completeRecord ch false .idle (syncLevel ch false s) := by
        simp only [syncReleased, hreceiving]
      refine ⟨fun hwhole => ?_, fun hwhole => ?_⟩
      · refine syncCommand_next (f := syncReleased ch) hp (hcompleted.trans ?_) ((frameOf_offerRecord ch _ v).trans rfl)
        exact completeRecord_of_complete hassembly (a.incomplete_iff.mpr hwhole)
      · refine syncCommand_next (f := syncReleased ch) hp (hcompleted.trans ?_) ((frameOf_offerRecord ch _ _).trans rfl)
        have herror : (false || a.incomplete) = true := by simpa using mt a.incomplete_iff.mp hwhole
        refine (completeRecord_of_error hassembly herror).trans ?_
        rw [onStream_onStream]
        rfl
    · refine syncCommand_next (f := syncReleased ch) hp ?_ rfl
      have hwaiting : ((syncLevel ch false s).streams[ch]).rx = .waitRelease := hrx
      simp only [syncReleased, hwaiting]
      rfl
    · refine syncCommand_next (f := syncReleased ch) hp ?_ rfl
      have hother : ((syncLevel ch false s).streams[ch]).rx = .idle ∨ ((syncLevel ch false s).streams[ch]).rx = .disabled := hrx
      rcases hother with h | h <;> simp only [syncReleased, h] <;> rfl
  · refine ⟨fun a hrx ha => ⟨fun hr => ?_, fun hr => ?_⟩, fun hrx => ?_⟩
    · refine command_next (f := streamStalled ch) hp ?_ (by simp)
      have hdue : stallDue ch s = true := (stallDue_of_receiving hrx ha).trans hr
      rw [streamStalled, if_pos hdue]
      exact completeRecord_of_error ha rfl
    · have hdue : stallDue ch s = false := (stallDue_of_receiving hrx ha).trans hr
      exact command_next (f := streamStalled ch) hp (by simp [streamStalled, hdue]) rfl
    · have hdue := stallDue_of_not_receiving hrx
      exact command_next (f := streamStalled ch) hp (by simp [streamStalled, hdue]) rfl
  · refine ⟨fun a hrx ha => ?_, fun hrx => ?_⟩
    · intro b
      refine command_next (f := clkEdge ch da db) hp ?_ rfl
      rw [clkEdge, if_pos hrx]
      refine onStream_congr ch _ _ s ?_
      simp only [ha, Bool.and_eq_true, Bool.not_eq_true']
      rfl
    · refine command_next (f := clkEdge ch da db) hp ?_ rfl
      rw [clkEdge, if_neg hrx]

/-! ## Containers and frames (R33, R37, R38) -/

theorem packWords_length : ∀ ws : List (BitVec 32), (packWords ws).length = (ws.length + 1) / 2
  | [] => rfl
  | [_] => by simp [packWords]
  | _ :: _ :: rest => by
    rw [packWords, List.length_cons, packWords_length rest, List.length_cons, List.length_cons]
    omega

theorem packWords_getElem? : ∀ (ws : List (BitVec 32)) (k : Nat), k < (ws.length + 1) / 2 →
    (packWords ws)[k]? = some (ws.getD (2 * k) 0 ||| (ws.getD (2 * k + 1) 0 <<< 16))
  | [], k, hk => by simp at hk
  | [a], k, hk => by
    have hzero : k = 0 := by
      rw [List.length_singleton] at hk
      omega
    subst hzero
    simp [packWords]
  | a :: b :: rest, 0, _ => rfl
  | a :: b :: rest, k + 1, hk => by
    have hrest : k < (rest.length + 1) / 2 := by
      rw [List.length_cons, List.length_cons] at hk
      omega
    exact packWords_getElem? rest k hrest

/-- The word with its bits from `k` on set from the list, the most significant first. -/
def fillWord (n : Nat) : Nat → BitVec 32 → List Bool → BitVec 32
  | _, w, [] => w
  | k, w, b :: bs => fillWord n (k + 1) (setBit w (n - 1 - k) b) bs

theorem fillWord_concat (n : Nat) (b : Bool) : ∀ (bs : List Bool) (k : Nat) (w : BitVec 32),
    fillWord n k w (bs ++ [b]) = setBit (fillWord n k w bs) (n - 1 - (k + bs.length)) b
  | [], _, _ => rfl
  | c :: bs, k, w => by
    rw [List.cons_append, fillWord, fillWord_concat n b bs (k + 1), fillWord, List.length_cons, Nat.add_right_comm, Nat.add_assoc]

theorem getLsbD_fillWord (n : Nat) (hn : n ≤ 32) : ∀ (bs : List Bool) (k : Nat) (w : BitVec 32), k + bs.length ≤ n → ∀ i : Nat,
    (fillWord n k w bs).getLsbD i = if i < n - k ∧ n - k ≤ i + bs.length then bs.getD (n - 1 - k - i) false else w.getLsbD i
  | [], k, w, _, i => by
    have hout : ¬ (i < n - k ∧ n - k ≤ i + ([] : List Bool).length) := by
      rw [List.length_nil]
      omega
    rw [if_neg hout, fillWord]
  | b :: bs, k, w, hk, i => by
    rw [List.length_cons] at hk ⊢
    rw [fillWord, getLsbD_fillWord n hn bs (k + 1) _ (by omega) i, getLsbD_setBit _ _ _ _ (by omega)]
    by_cases hfirst : i = n - 1 - k
    · rw [if_neg (by omega), if_pos hfirst, if_pos (by omega), show n - 1 - k - i = 0 by omega]
      rfl
    · rw [if_neg hfirst]
      by_cases hin : i < n - (k + 1) ∧ n - (k + 1) ≤ i + bs.length
      · rw [if_pos hin, if_pos (by omega), show n - 1 - k - i = (n - 1 - (k + 1) - i) + 1 by omega]
        rfl
      · rw [if_neg hin, if_neg (by omega)]

/-- The lane that an assembly's next bits come from. -/
def Assembly.lane (a : Assembly) (p : Bool × Bool) : Bool := if a.paired && a.held.isSome then p.2 else p.1

/-- The bits of a word before its last only fill it. -/
theorem Assembly.fold_bits (n : Nat) (now : PartTime) : ∀ (bits : List (Bool × Bool)) (a : Assembly),
    bits ≠ [] → a.bits + bits.length < n →
    bits.foldl (fun (b : Assembly) p => b.bit n now p.1 p.2) a =
      { a with word := fillWord n a.bits a.word (bits.map a.lane), bits := a.bits + bits.length, lastEdge := now }
  | [], _, hne, _ => absurd rfl hne
  | p :: ps, a, _, hlen => by
    rw [List.length_cons] at hlen
    have hbit : a.bit n now p.1 p.2 =
        { a with word := setBit a.word (n - 1 - a.bits) (a.lane p), bits := a.bits + 1, lastEdge := now } :=
      if_pos (show a.bits + 1 < n by omega)
    rw [List.foldl_cons, hbit]
    cases ps with
    | nil => rfl
    | cons q qs =>
      rw [Assembly.fold_bits n now (q :: qs) _ (List.cons_ne_nil q qs) (by dsimp only; omega)]
      simp only [List.length_cons, List.map_cons, fillWord, Assembly.mk.injEq, true_and, and_true]
      exact ⟨rfl, by omega⟩

/-- What the last bit of a word makes of the full word (R33). -/
def Assembly.wordDone (a : Assembly) (w : BitVec 32) (now : PartTime) : Assembly :=
  let a := { a with word := w, lastEdge := now }
  if a.paired then
    match a.held with
    | none => { a with held := some w, word := 0, bits := 0 }
    | some first => a.frame [first, w]
  else a.frame [w]

theorem Assembly.bit_last {a : Assembly} {n : Nat} {now : PartTime} {da db : Bool} (h : n ≤ a.bits + 1) :
    a.bit n now da db = { a with bits := a.bits + 1 }.wordDone (setBit a.word (n - 1 - a.bits) (a.lane (da, db))) now := by
  exact if_neg (show ¬ a.bits + 1 < n by omega)

/-- A whole word of bits, most significant first. -/
theorem Assembly.fold_word {bits : List (Bool × Bool)} {now : PartTime} {a : Assembly} (hpos : 0 < bits.length)
    (hword : a.word = 0) (hbits : a.bits = 0) :
    bits.foldl (fun (b : Assembly) p => b.bit bits.length now p.1 p.2) a =
      { a with bits := bits.length }.wordDone (fillWord bits.length 0 0 (bits.map a.lane)) now := by
  obtain ⟨init, last, rfl⟩ : ∃ init last, bits = init ++ [last] :=
    (List.eq_nil_or_concat' bits).resolve_left (List.ne_nil_of_length_pos hpos)
  have hlen : (init ++ [last]).length = init.length + 1 := List.length_append
  rw [hlen, List.foldl_append, List.map_append, List.map_cons, List.map_nil, fillWord_concat, List.length_map]
  rcases List.eq_nil_or_concat' init with rfl | ⟨before, p, hinit⟩
  · rw [List.foldl_nil, List.foldl_cons, List.foldl_nil, Assembly.bit_last (by simp), hword, hbits]
    rfl
  · have hne : init ≠ [] := by simp [hinit]
    rw [Assembly.fold_bits (init.length + 1) now init a hne (by omega), List.foldl_cons, List.foldl_nil,
      Assembly.bit_last (by simp [hbits]), hword, hbits, Nat.zero_add]
    rfl

/-- A completed frame of a word: the words that it appends, and what is left of the word. -/
theorem Assembly.frame_eq (a : Assembly) (ws : List (BitVec 32)) :
    (a.words.length + ws.length ≤ 256 → a.frame ws =
      { a with words := a.words ++ ws, frameCount := min (a.frameCount + 1) 65535, held := none, word := 0, bits := 0 }) ∧
    (256 < a.words.length + ws.length → a.frame ws =
      { a with truncated := true, frameCount := min (a.frameCount + 1) 65535, held := none, word := 0, bits := 0 }) :=
  ⟨fun h => if_pos h, fun h => if_neg (Nat.not_le.mpr h)⟩

theorem containersOf_plain (ws : List (BitVec 32)) : containersOf false ws = ws := rfl

theorem containersOf_packed (ws : List (BitVec 32)) : containersOf true ws = packWords ws := rfl

/-- Settles O17: the bits of a word fill it from the top (`fold_word`), and a complete frame is appended or dropped. -/
theorem framesFillFromTheTopBit : Obligations.FramesFillFromTheTopBit := by
  refine ⟨fun a ch err => ?_, fun a bits now hpos hmax hword hbits => ?_⟩
  · intro r
    refine ⟨rfl, rfl, rfl, rfl, rfl, rfl, rfl, rfl, rfl, rfl, fun hplain => ?_, fun hpacked _ => ?_⟩
    · show containersOf a.packed a.words = a.words
      rw [hplain, containersOf_plain]
    · have hcontainers : r.containers = packWords a.words := by
        show containersOf a.packed a.words = _
        rw [hpacked, containersOf_packed]
      rw [hcontainers]
      exact ⟨packWords_length a.words, packWords_getElem? a.words⟩
  · intro b filled framed
    have hdone : b = { a with bits := bits.length }.wordDone (fillWord bits.length 0 0 (bits.map a.lane)) now :=
      Assembly.fold_word hpos hword hbits
    have hfilled : ∀ lane, filled (fillWord bits.length 0 0 (bits.map lane)) lane := by
      intro lane i
      rw [getLsbD_fillWord bits.length hmax _ 0 0 (by simp) i, List.length_map, Nat.sub_zero, Nat.sub_zero]
      by_cases hi : i < bits.length
      · rw [if_pos ⟨hi, by omega⟩, if_pos hi]
      · rw [if_neg (fun h => hi h.1), if_neg hi]
        exact BitVec.getLsbD_zero
    have hframed : ∀ ws, b = ({ a with bits := bits.length, word := fillWord bits.length 0 0 (bits.map a.lane)
                                       lastEdge := now } : Assembly).frame ws → framed ws := by
      intro ws hb
      obtain ⟨hfits, hfull⟩ := Assembly.frame_eq ({ a with bits := bits.length
                                                           word := fillWord bits.length 0 0 (bits.map a.lane)
                                                           lastEdge := now } : Assembly) ws
      refine ⟨fun h => ?_, fun h => ?_⟩
      · rw [hb, hfits h, ← hword, ← hbits]
      · rw [hb, hfull h, ← hword, ← hbits]
    have hlane : ∀ lane, a.lane = lane → filled (fillWord bits.length 0 0 (bits.map a.lane)) lane := by
      rintro lane rfl
      exact hfilled a.lane
    refine ⟨fun hsingle => ⟨_, hlane Prod.fst ?_, hframed _ ?_⟩, fun hpaired hnone => ⟨_, hlane Prod.fst ?_, ?_⟩,
      fun first hpaired hfirst => ⟨_, hlane Prod.snd ?_, hframed _ ?_⟩⟩
    · funext p
      simp [Assembly.lane, hsingle]
    · rw [hdone]
      simp [Assembly.wordDone, hsingle]
    · funext p
      simp [Assembly.lane, hnone]
    · rw [hdone]
      simp [Assembly.wordDone, hpaired, hnone, hword, hbits]
    · funext p
      simp [Assembly.lane, hpaired, hfirst]
    · rw [hdone]
      simp [Assembly.wordDone, hpaired, hfirst]

end Sys2Proof.Machine
end

