-- ==== Sys2Proof/Proofs/FetchAttempts.lean ====
section
/-! PROOFS. Sys2Proof/Proofs/FetchAttempts.lean: the answer wire of a fetch channel, the end of an attempt, and the runs of a region
(R49 to R53, R57, R62). -/

namespace Sys2Proof.Machine

/-! ## The answer wire (R49, R50) -/

theorem onFetch_eq_self {ch : Fin 4} {f : FetchChan → FetchChan} {s : State} (h : f s.fetches[ch] = s.fetches[ch]) :
    s.onFetch ch f = s := by
  rw [onFetch_congr ch f id s h]
  show { s with fetches := vmod s.fetches ch id } = s
  have hv : vmod s.fetches ch id = s.fetches := by
    apply Vector.ext
    intro i hi
    by_cases hch : i = ch.val
    · subst hch
      exact vmod_get_same s.fetches ch id
    · exact vmod_get_other s.fetches ch ⟨i, hi⟩ id (by simpa [Fin.ext_iff] using hch)
  rw [hv]

/-- A whole message: its mark and header, and what its count announces. -/
theorem answerRx_header (ch : Fin 4) (tag result count : Byte) (rest : List Byte) (s : State) :
    answerRx ch (tag :: result :: count :: rest) s =
      if 64 < count.toNat then badAnswer ch (setRx ch none s)
      else if rest.length < count.toNat + 2 then setRx ch (some (tag :: result :: count :: rest)) s
      else answerWhole ch tag result count rest (setRx ch none s) := rfl

theorem answerRx_short (ch : Fin 4) (got : List Byte) (s : State) (h : got.length < 3) :
    answerRx ch got s = setRx ch (some got) s := by
  match got, h with
  | [], _ => rfl
  | [_], _ => rfl
  | [_, _], _ => rfl
  | _ :: _ :: _ :: _, h => exact absurd h (by simp)

theorem answerByte_hunting {ch : Fin 4} {b : Byte} {s : State} (h : (s.fetches[ch]).rx = none) :
    answerByte ch b s = if b = 0xC9 then setRx ch (some []) s else s := by
  simp only [answerByte, h]

theorem answerByte_receiving {ch : Fin 4} {b : Byte} {s : State} {bs : List Byte} (h : (s.fetches[ch]).rx = some bs) :
    answerByte ch b s = answerRx ch (bs ++ [b]) s := by
  simp only [answerByte, h]

@[simp] theorem setRx_rx (ch : Fin 4) (rx : Option (List Byte)) (s : State) : ((setRx ch rx s).fetches[ch]).rx = rx := by
  rw [setRx, fetches_onFetch_same]

theorem setRx_setRx (ch : Fin 4) (rx rx' : Option (List Byte)) (s : State) : setRx ch rx' (setRx ch rx s) = setRx ch rx' s := by
  rw [setRx, setRx, setRx, onFetch_onFetch]

theorem setRx_hunting {ch : Fin 4} {s : State} (h : (s.fetches[ch]).rx = none) : setRx ch none s = s :=
  onFetch_eq_self (by rw [← h])

/-- A hunting channel ignores what holds no mark. -/
theorem forEach_hunting {ch : Fin 4} {s : State} (h : (s.fetches[ch]).rx = none) : ∀ bs : List Byte, 0xC9 ∉ bs →
    forEach bs (answerByte ch) s = s
  | [], _ => rfl
  | b :: bs, hb => by
    obtain ⟨hne, hrest⟩ := not_or.mp (mt List.mem_cons.mpr hb)
    have hignored : answerByte ch b s = s := (answerByte_hunting h).trans (if_neg fun hmark => hne hmark.symm)
    show forEach bs (answerByte ch) (answerByte ch b s) = s
    rw [hignored]
    exact forEach_hunting h bs hrest

/-- The bytes of an answer before its last are kept. -/
theorem forEach_receiving {ch : Fin 4} {tag result count : Byte} (hcount : ¬ 64 < count.toNat) :
    ∀ (bs acc : List Byte) (s : State), acc.length + bs.length < count.toNat + 2 →
      forEach bs (answerByte ch) (setRx ch (some (tag :: result :: count :: acc)) s) =
        setRx ch (some (tag :: result :: count :: (acc ++ bs))) s
  | [], acc, s, _ => by
    rw [List.append_nil]
    rfl
  | b :: bs, acc, s, hlen => by
    rw [List.length_cons] at hlen
    have hone : answerByte ch b (setRx ch (some (tag :: result :: count :: acc)) s) =
        setRx ch (some (tag :: result :: count :: (acc ++ [b]))) s := by
      rw [answerByte_receiving (setRx_rx ch _ s), List.cons_append, List.cons_append, List.cons_append, answerRx_header,
        if_neg hcount, if_pos (by rw [List.length_append, List.length_singleton]; omega), setRx_setRx]
    show forEach bs (answerByte ch) (answerByte ch b _) = _
    rw [hone, forEach_receiving hcount bs (acc ++ [b]) s (by rw [List.length_append, List.length_singleton]; omega),
      List.append_assoc]
    rfl

theorem forEach_append {α : Type} (xs ys : List α) (f : α → State → State) (s : State) :
    forEach (xs ++ ys) f s = forEach ys f (forEach xs f s) := List.foldl_append

/-- The mark and the header of a message. -/
theorem forEach_header {ch : Fin 4} {tag result count : Byte} {s : State} (h : (s.fetches[ch]).rx = none) :
    forEach [0xC9, tag, result, count] (answerByte ch) s =
      answerRx ch [tag, result, count] (setRx ch (some [tag, result]) s) := by
  have hmark : answerByte ch 0xC9 s = setRx ch (some []) s := (answerByte_hunting h).trans (if_pos rfl)
  have htag : answerByte ch tag (setRx ch (some []) s) = setRx ch (some [tag]) s := by
    rw [answerByte_receiving (setRx_rx ch _ s), answerRx_short ch _ _ (by simp), setRx_setRx]
    rfl
  have hresult : answerByte ch result (setRx ch (some [tag]) s) = setRx ch (some [tag, result]) s := by
    rw [answerByte_receiving (setRx_rx ch _ s), answerRx_short ch _ _ (by simp), setRx_setRx]
    rfl
  show answerByte ch count (answerByte ch result (answerByte ch tag (answerByte ch 0xC9 s))) = _
  rw [hmark, htag, hresult, answerByte_receiving (setRx_rx ch _ s)]
  rfl

/-- A count above 64 ends the answer at the count byte; what follows without a mark is ignored. -/
theorem fetchAnswered_long {ch : Fin 4} {tag result count : Byte} {data : List Byte} {crc : BitVec 16} {s : State}
    (h : (s.fetches[ch]).rx = none) (hcount : 64 < count.toNat) (hdata : 0xC9 ∉ data) :
    forEach (answerMessage tag result count data crc) (answerByte ch) s = badAnswer ch s := by
  have hmessage : answerMessage tag result count data crc = [0xC9, tag, result, count] ++ data := by
    simp [answerMessage, hcount]
  have hbad : forEach [0xC9, tag, result, count] (answerByte ch) s = badAnswer ch s := by
    rw [forEach_header h, answerRx_header, if_pos hcount, setRx_setRx, setRx_hunting h]
  have hrx : ((badAnswer ch s).fetches[ch]).rx = none := by
    rw [badAnswer, fetches_onFetch_same]
    exact h
  rw [hmessage, forEach_append, hbad, forEach_hunting hrx data hdata]

/-- An answer whose data has the length that its count announces is judged when its CRC matches. -/
theorem fetchAnswered_whole {ch : Fin 4} {tag result count : Byte} {data : List Byte} {crc : BitVec 16} {s : State}
    (h : (s.fetches[ch]).rx = none) (hcount : count.toNat ≤ 64) (hdata : data.length = count.toNat) :
    forEach (answerMessage tag result count data crc) (answerByte ch) s =
      if crc = crc16 (tag :: result :: count :: data) then judgeAnswer ch tag result count data s else badAnswer ch s := by
  obtain ⟨lo, hi, hcrc⟩ : ∃ lo hi : Byte, leBits 2 crc = [lo, hi] := ⟨_, _, rfl⟩
  have hlong : ¬ 64 < count.toNat := Nat.not_lt.mpr hcount
  have hmessage : answerMessage tag result count data crc = [0xC9, tag, result, count] ++ ((data ++ [lo]) ++ [hi]) := by
    simp [answerMessage, hlong, hcrc]
  have hheader : forEach [0xC9, tag, result, count] (answerByte ch) s = setRx ch (some [tag, result, count]) s := by
    rw [forEach_header h, answerRx_header, if_neg hlong, if_pos (by simp), setRx_setRx]
  have hdataIn : forEach (data ++ [lo]) (answerByte ch) (setRx ch (some [tag, result, count]) s) =
      setRx ch (some (tag :: result :: count :: (data ++ [lo]))) s :=
    forEach_receiving hlong (data ++ [lo]) [] s (by simp [hdata])
  have hrest : data ++ [lo] ++ [hi] = data ++ leBits 2 crc := by rw [hcrc, List.append_assoc]; rfl
  have hlast : answerByte ch hi (setRx ch (some (tag :: result :: count :: (data ++ [lo]))) s) =
      answerWhole ch tag result count (data ++ leBits 2 crc) s := by
    rw [answerByte_receiving (setRx_rx ch _ s), List.cons_append, List.cons_append, List.cons_append, answerRx_header,
      if_neg hlong, if_neg (by simp [hdata]), setRx_setRx, setRx_hunting h, hrest]
  have hinjective : leBits 2 crc = crcBytes ([tag, result, count] ++ data) ↔ crc = crc16 (tag :: result :: count :: data) := by
    refine ⟨fun heq => ?_, fun heq => by rw [heq]; rfl⟩
    have hnat := congrArg leNat heq
    simp only [crcBytes, leBits, leNat_leBytes] at hnat
    have hlt := crc.isLt
    have hlt' := (crc16 ([tag, result, count] ++ data)).isLt
    apply BitVec.eq_of_toNat_eq
    show crc.toNat = (crc16 ([tag, result, count] ++ data)).toNat
    omega
  rw [hmessage, forEach_append, forEach_append, hheader, hdataIn]
  refine hlast.trans ?_
  rw [answerWhole, List.take_left' hdata, List.drop_left' hdata]
  exact if_congr hinjective rfl rfl

theorem fetchAnswered_disabled {w : AnswerWire} {tag result count : Byte} {data : List Byte} {crc : BitVec 16} {s : State}
    (h : (s.fetches[w.ch]).state = .disabled) : fetchAnswered w tag result count data crc s = s := if_pos h

theorem fetchAnswered_enabled {w : AnswerWire} {tag result count : Byte} {data : List Byte} {crc : BitVec 16} {s : State}
    (h : (s.fetches[w.ch]).state ≠ .disabled) : fetchAnswered w tag result count data crc s =
      forEach (w.before ++ answerMessage tag result count data crc) (answerByte w.ch) s := if_neg h

theorem judgeAnswer_asking {ch : Fin 4} {tag result count : Byte} {data : List Byte} {s : State} {t : Txn}
    (hs : (s.fetches[ch]).state = .asking) (ht : (s.fetches[ch]).txn = some t) :
    judgeAnswer ch tag result count data s =
      if tag ≠ t.tag then s.onFetch ch fun c => { c with stale := satInc c.stale }
      else if result = 0 && count.toNat = t.count then goodData ch count data s
      else if result = 1 && count = 0 then nakAnswer ch t s
      else badAnswer ch s := by
  simp only [judgeAnswer, hs, ht]

theorem judgeAnswer_not_asking {ch : Fin 4} {tag result count : Byte} {data : List Byte} {s : State}
    (hs : (s.fetches[ch]).state ≠ .asking) :
    judgeAnswer ch tag result count data s = s.onFetch ch fun c => { c with stale := satInc c.stale } := by
  unfold judgeAnswer
  split
  · contradiction
  · rfl

/-! ## The end of an attempt (R51, R53) -/

theorem fetchTimedOut_asking {ch : Fin 4} {s : State} {t : Txn} (hs : (s.fetches[ch]).state = .asking)
    (ht : (s.fetches[ch]).txn = some t) : fetchTimedOut ch s =
      if reached s.time t.deadline then
        if t.attempt < 1 + (s.settings.fetch[ch]).retries then
          startAttempt ch t.space t.addr t.count (t.attempt + 1) (s.onFetch ch fun c => { c with timeouts := satInc c.timeouts })
        else failTransaction ch t (s.onFetch ch fun c => { c with timeouts := satInc c.timeouts })
      else s := by
  simp only [fetchTimedOut, hs, ht]
  rfl

/-- The piece of a failed transaction. -/
theorem failTransaction_eq (ch : Fin 4) (t : Txn) (s : State) :
    failTransaction ch t s =
      let u := s.onFetch ch fun c =>
        { c with state := .delivering, txn := none, piece := some (onesPiece t.count), failed := satInc c.failed
                 failures := c.failures + 1 }
      if 4 ≤ (s.fetches[ch]).failures + 1 then declareSilent ch (captureNumber u) (t.addr + t.count) u else u := by
  unfold failTransaction deliver
  dsimp only
  rw [onFetch_onFetch, fetches_onFetch_same]
  rfl

theorem declareSilent_some {ch : Fin 4} {cap addr : Nat} {s : State} {r : Region} (h : (s.fetches[ch]).region = some r) :
    declareSilent ch cap addr s =
      post (.fetch ch) evFetchSilent [r.space.code.toNat, addr, r.base + r.len - addr] (s.onFetch ch fun c =>
        { c with region := some { r with runs := [], silent := true }, silent := some cap, silents := satInc c.silents }) := by
  simp only [declareSilent, h]

/-- A byte of the wire, said of the bytes received after the mark as a whole. -/
theorem answerByte_eq (ch : Fin 4) (b : Byte) (t : State) :
    answerByte ch b t = match (t.fetches[ch]).rx with
      | none => if b = 0xC9 then setRx ch (some []) t else t
      | some bs =>
        let got := bs ++ [b]
        let n := (got.getD 2 0).toNat
        let answer := (got.drop 3).take n
        if got.length < 3 then setRx ch (some got) t
        else if 64 < n then badAnswer ch (setRx ch none t)
        else if got.length < n + 5 then setRx ch (some got) t
        else if got.drop (n + 3) = leBytes 2 (crc16 (got.take 3 ++ answer)).toNat then
          judgeAnswer ch (got.getD 0 0) (got.getD 1 0) (got.getD 2 0) answer (setRx ch none t)
        else badAnswer ch (setRx ch none t) := by
  unfold answerByte
  cases (t.fetches[ch]).rx with
  | none => rfl
  | some bs =>
    dsimp only
    generalize bs ++ [b] = got
    match got with
    | [] => rfl
    | [_] => rfl
    | [_, _] => rfl
    | tag :: result :: count :: rest =>
      rw [answerRx_header]
      refine Eq.trans ?_ (if_neg (by simp)).symm
      refine if_congr Iff.rfl rfl (if_congr ?_ rfl rfl)
      simp only [List.length_cons]
      show rest.length < count.toNat + 2 ↔ rest.length + 1 + 1 + 1 < count.toNat + 5
      omega

/-- Settles O19, by the bytes of the wire and the answer that they make. -/
theorem fetchAttemptsEndByAnswerOrDeadline : Obligations.FetchAttemptsEndByAnswerOrDeadline := by
  refine ⟨fun w tag result count data crc s hp => ?_, fun w tag result count data crc s hp => ?_, fun ch t s hp hs ht => ?_⟩
  · intro received bad byte message
    refine ⟨fun hd => ?_, fun hd => ?_⟩
    · exact command_next (f := fetchAnswered w tag result count data crc) hp (fetchAnswered_disabled hd) rfl
    · have hbyte : byte = fun t b => answerByte w.ch b t := by
        funext t b
        rw [answerByte_eq]
        rfl
      have hmessage : message = answerMessage tag result count data crc := by
        simp [message, answerMessage, leBits]
      have hfold := fetchAnswered_enabled (tag := tag) (result := result) (count := count) (data := data) (crc := crc) hd
      refine command_next (f := fetchAnswered w tag result count data crc) hp ?_ ?_
      · rw [hfold, hmessage, hbyte]
        rfl
      · have hframe := frameOf_fetchAnswered w tag result count data crc s
        rw [hfold] at hframe
        rw [hmessage, hbyte]
        exact hframe
  · intro ch c whole answer' bad stale henabled hrx hbefore
    have taken : ∀ u, forEach (answerMessage tag result count data crc) (answerByte w.ch) s = u → answer' = .next u := by
      intro u hu
      have hanswered : fetchAnswered w tag result count data crc s = u := by
        rw [fetchAnswered_enabled henabled, forEach_append, forEach_hunting hrx _ hbefore, hu]
      exact command_next (f := fetchAnswered w tag result count data crc) hp hanswered
        ((congrArg frameOf hanswered).symm.trans (frameOf_fetchAnswered w tag result count data crc s))
    refine ⟨fun hlong hdata => taken _ (fetchAnswered_long hrx hlong hdata), fun hcount hlen => ?_⟩
    have hwhole := fetchAnswered_whole (tag := tag) (result := result) (crc := crc) hrx hcount hlen
    refine ⟨fun hbad => taken _ (hwhole.trans (if_neg hbad)), fun hstate hgood => ?_, fun t hasking htxn hgood => ?_⟩
    · have hother : c.state ≠ .asking := by rcases hstate with h | h <;> rw [h] <;> nofun
      exact taken _ ((hwhole.trans (if_pos hgood)).trans (judgeAnswer_not_asking hother))
    · have hjudged := (hwhole.trans (if_pos hgood)).trans (judgeAnswer_asking hasking htxn)
      refine ⟨fun htag => taken _ (hjudged.trans (if_pos htag)), fun htag hresult hc => taken _ ?_,
        fun htag hresult hc => taken _ ?_, fun htag hdata hnak => taken _ ?_⟩
      · rw [hjudged, if_neg (not_not.mpr htag), if_pos (by simp [hresult, hc]), goodData, deliver, onFetch_onFetch]
      · have hdata : ¬ (decide (result = 0) && decide (count.toNat = t.count)) = true := by simp [hresult]
        rw [hjudged, if_neg (not_not.mpr htag), if_neg hdata, if_pos (by simp [hresult, hc]), nakAnswer, deliver, onFetch_onFetch]
        rfl
      · rw [hjudged, if_neg (not_not.mpr htag), if_neg (by simpa using hdata), if_neg (by simpa using hnak)]
        rfl
  · intro c cfg ones request
    have hout := fetchTimedOut_asking hs ht
    refine ⟨fun hr => ?_, fun hr => ⟨fun hmore => ?_, fun hlast hfew => ?_, fun r hlast hmany hregion => ?_⟩⟩
    · exact command_next (f := fetchTimedOut ch) hp (hout.trans (if_neg (by rw [hr]; exact Bool.false_ne_true))) rfl
    · refine command_next (f := fetchTimedOut ch) hp (hout.trans ((if_pos hr).trans ((if_pos hmore).trans ?_))) rfl
      rw [startAttempt, onFetch_onFetch]
      refine onFetch_congr ch _ _ s ?_
      simp only [Nat.add_eq_right, hs]
      rfl
    · refine command_next (f := fetchTimedOut ch) hp (hout.trans ((if_pos hr).trans ((if_neg hlast).trans ?_))) rfl
      rw [failTransaction_eq]
      dsimp only
      rw [fetches_onFetch_same, if_neg (Nat.not_le.mpr hfew), onFetch_onFetch]
      rfl
    · refine command_next (f := fetchTimedOut ch) hp (hout.trans ((if_pos hr).trans ((if_neg hlast).trans ?_))) (by simp)
      rw [failTransaction_eq]
      dsimp only
      rw [fetches_onFetch_same, if_pos hmany, onFetch_onFetch, declareSilent_some (r := r) ?_, onFetch_onFetch]
      · rfl
      · rw [fetches_onFetch_same]
        exact hregion

/-! ## Runs (R57) -/

/-- The addresses at which a decision may change. -/
def edges (cfg : FetchCfg) (sp : Space) : List Nat :=
  cfg.windows.toList.flatMap fun w => if w.enabled && w.space = sp then [w.base, w.limit + 1] else []

theorem edgesAbove_eq (cfg : FetchCfg) (sp : Space) (a : Nat) : edgesAbove cfg sp a = (edges cfg sp).filter (a < ·) := rfl

theorem edges_length_le (cfg : FetchCfg) (sp : Space) : (edges cfg sp).length ≤ 8 := by
  have hlen : ∀ ws : List Window,
      (ws.flatMap fun w => if w.enabled && w.space = sp then [w.base, w.limit + 1] else []).length ≤ 2 * ws.length := by
    intro ws
    induction ws with
    | nil => exact Nat.le_refl _
    | cons w ws ih =>
      rw [List.flatMap_cons, List.length_append, List.length_cons]
      split
      · rw [List.length_cons, List.length_singleton]
        omega
      · rw [List.length_nil]
        omega
  exact (hlen cfg.windows.toList).trans (by simp)

theorem foldl_min_le (xs : List Nat) (n : Nat) : xs.foldl min n ≤ n ∧ ∀ x ∈ xs, xs.foldl min n ≤ x := by
  induction xs generalizing n with
  | nil => exact ⟨Nat.le_refl _, nofun⟩
  | cons x xs ih =>
    obtain ⟨hmin, hall⟩ := ih (min n x)
    refine ⟨hmin.trans (Nat.min_le_left _ _), fun y hy => ?_⟩
    rcases List.mem_cons.mp hy with rfl | hy
    · exact hmin.trans (Nat.min_le_right _ _)
    · exact hall y hy

theorem foldl_min_mem (xs : List Nat) (n : Nat) : xs.foldl min n = n ∨ xs.foldl min n ∈ xs := by
  induction xs generalizing n with
  | nil => exact .inl rfl
  | cons x xs ih =>
    rcases ih (min n x) with h | h
    · rcases Nat.le_total n x with hle | hle
      · exact .inl (h.trans (Nat.min_eq_left hle))
      · exact .inr (List.mem_cons.mpr (.inl (h.trans (Nat.min_eq_right hle))))
    · exact .inr (List.mem_cons_of_mem _ h)

/-- A window's edges decide where it begins and ceases to cover. -/
theorem covers_of_no_edge {cfg : FetchCfg} {sp : Space} {a k : Nat} (hak : a ≤ k) (hno : ∀ e ∈ edgesAbove cfg sp a, k < e)
    (i : Fin 4) : (cfg.windows[i]).covers sp k = (cfg.windows[i]).covers sp a := by
  have hmem : cfg.windows[i] ∈ cfg.windows.toList := by simp
  by_cases hw : ((cfg.windows[i]).enabled && decide ((cfg.windows[i]).space = sp)) = true
  · have hedge : ∀ e, (e = (cfg.windows[i]).base ∨ e = (cfg.windows[i]).limit + 1) → a < e → k < e := by
      intro e he hae
      refine hno e (List.mem_filter.mpr ⟨List.mem_flatMap.mpr ⟨_, hmem, ?_⟩, decide_eq_true hae⟩)
      rw [if_pos hw]
      simpa using he
    have hbase := hedge _ (.inl rfl)
    have hlimit := hedge _ (.inr rfl)
    simp only [Window.covers, hw, Bool.true_and]
    have h1 : (cfg.windows[i]).base ≤ k ↔ (cfg.windows[i]).base ≤ a := by omega
    have h2 : k ≤ (cfg.windows[i]).limit ↔ a ≤ (cfg.windows[i]).limit := by omega
    rw [decide_eq_decide.mpr h1, decide_eq_decide.mpr h2]
  · simp only [Window.covers, Bool.eq_false_iff.mpr hw, Bool.false_and]

theorem decidingWindow_of_no_edge {cfg : FetchCfg} {sp : Space} {a k : Nat} (hak : a ≤ k)
    (hno : ∀ e ∈ edgesAbove cfg sp a, k < e) : decidingWindow cfg sp k = decidingWindow cfg sp a := by
  unfold decidingWindow
  congr 1
  funext i
  exact covers_of_no_edge hak hno i

theorem nextEdge_le (cfg : FetchCfg) (sp : Space) (a stop : Nat) :
    nextEdge cfg sp a stop ≤ stop ∧ ∀ e ∈ edgesAbove cfg sp a, nextEdge cfg sp a stop ≤ e := foldl_min_le _ _

/-- Up to the next edge the decision stays. -/
theorem decidingWindow_before_nextEdge {cfg : FetchCfg} {sp : Space} {a stop k : Nat} (hak : a ≤ k)
    (hk : k < nextEdge cfg sp a stop) : decidingWindow cfg sp k = decidingWindow cfg sp a :=
  decidingWindow_of_no_edge hak fun e he => lt_of_lt_of_le hk ((nextEdge_le cfg sp a stop).2 e he)

theorem nextEdge_mem {cfg : FetchCfg} {sp : Space} {a stop : Nat} (h : nextEdge cfg sp a stop < stop) :
    nextEdge cfg sp a stop ∈ edgesAbove cfg sp a :=
  (foldl_min_mem (edgesAbove cfg sp a) stop).resolve_left fun heq => absurd h (by rw [nextEdge, heq]; exact lt_irrefl _)

theorem lt_nextEdge {cfg : FetchCfg} {sp : Space} {a stop : Nat} (h : a < stop) : a < nextEdge cfg sp a stop := by
  rcases foldl_min_mem (edgesAbove cfg sp a) stop with heq | hmem
  · rw [nextEdge, heq]
    exact h
  · exact of_decide_eq_true (List.mem_filter.mp hmem).2

/-- Fewer edges lie above the next one. -/
theorem edgesAbove_length_lt {cfg : FetchCfg} {sp : Space} {a b : Nat} (hb : b ∈ edgesAbove cfg sp a) :
    (edgesAbove cfg sp b).length < (edgesAbove cfg sp a).length := by
  have hab : a < b := of_decide_eq_true (List.mem_filter.mp hb).2
  have hsub : edgesAbove cfg sp b = (edgesAbove cfg sp a).filter (b < ·) := by
    rw [edgesAbove_eq, edgesAbove_eq, List.filter_filter]
    refine List.filter_congr fun e _ => ?_
    by_cases he : b < e
    · simp [he, hab.trans he]
    · simp [he]
  rw [hsub]
  exact List.length_filter_lt_length_iff_exists.mpr ⟨b, hb, by simp⟩

/-- A run's end: the decision of `w` holds from `a` up to it, and no further. -/
theorem runEnd_spec {cfg : FetchCfg} {sp : Space} {w : Option (Fin 4)} {stop : Nat} :
    ∀ (fuel a : Nat), a < stop → (edgesAbove cfg sp a).length < fuel → decidingWindow cfg sp a = w →
      a < runEnd cfg sp w stop fuel a ∧ runEnd cfg sp w stop fuel a ≤ stop ∧
        (∀ k : Nat, a ≤ k → k < runEnd cfg sp w stop fuel a → decidingWindow cfg sp k = w) ∧
        (runEnd cfg sp w stop fuel a < stop → decidingWindow cfg sp (runEnd cfg sp w stop fuel a) ≠ w)
  | 0, _, _, hfuel, _ => absurd hfuel (Nat.not_lt_zero _)
  | fuel + 1, a, ha, hfuel, hw => by
    have hsame : ∀ k, a ≤ k → k < nextEdge cfg sp a stop → decidingWindow cfg sp k = w := fun k hak hk =>
      (decidingWindow_before_nextEdge hak hk).trans hw
    have hlt := lt_nextEdge (cfg := cfg) (sp := sp) ha
    have hle := (nextEdge_le cfg sp a stop).1
    unfold runEnd
    dsimp only
    split
    next hstop =>
      refine ⟨ha, Nat.le_refl _, fun k hak hk => hsame k hak (lt_of_lt_of_le hk hstop), fun h => absurd h (lt_irrefl _)⟩
    next hstop =>
      have hb : nextEdge cfg sp a stop < stop := Nat.lt_of_not_le hstop
      split
      next hnext =>
        have hfewer := edgesAbove_length_lt (nextEdge_mem hb)
        obtain ⟨h1, h2, h3, h4⟩ := runEnd_spec fuel _ hb (by omega) hnext
        refine ⟨hlt.trans h1, h2, fun k hak hk => ?_, h4⟩
        rcases Nat.lt_or_ge k (nextEdge cfg sp a stop) with hk' | hk'
        · exact hsame k hak hk'
        · exact h3 k hk' hk
      next hnext => exact ⟨hlt, hle, hsame, fun _ => hnext⟩

theorem runStop_spec {cfg : FetchCfg} {sp : Space} {a stop : Nat} (h : a < stop) :
    a < runStop cfg sp a stop ∧ runStop cfg sp a stop ≤ stop ∧
      (∀ k : Nat, a ≤ k → k < runStop cfg sp a stop → decidingWindow cfg sp k = decidingWindow cfg sp a) ∧
      (runStop cfg sp a stop < stop → decidingWindow cfg sp (runStop cfg sp a stop) ≠ decidingWindow cfg sp a) := by
  have hfuel : (edgesAbove cfg sp a).length < 9 :=
    Nat.lt_succ_of_le ((List.length_filter_le _ _).trans (edges_length_le cfg sp))
  exact runEnd_spec 9 a h hfuel rfl

/-! ## PROBE_REACH (R62) -/

theorem finOf_val {n v : Nat} (i : Fin n) (h : v = i.val) : finOf n v = some i := by
  subst h
  exact dif_pos i.isLt

theorem finOf_eq_none {n v : Nat} (h : n ≤ v) : finOf n v = none := dif_neg (Nat.not_lt.mpr h)

theorem spaceOfCode_eq_none {n : Nat} (h : 4 ≤ n) : spaceOfCode n = none := by
  match n, h with
  | _ + 4, _ => rfl

/-- PROBE_REACH with a payload of its length. -/
theorem probeReach_eq (p : PortId) (ch sp : Byte) (rest : List Byte) (s : State) (hlen : rest.length = 8) :
    let addr := leNat (rest.take 4)
    let asked := leNat (rest.drop 4)
    let len := min (max 1 asked) (roomAbove addr)
    probeReach p (ch :: sp :: rest) s = match finOf 4 ch.toNat, spaceOfCode sp.toNat with
      | some c, some space => answer p .ok (len ≠ asked) (probeReply s.settings.fetch[c] space addr len) s
      | _, _ => refuse p .badValue s := by
  intro addr asked len
  have haddr : fieldAt (ch :: sp :: rest) 2 4 = addr := rfl
  have hasked : fieldAt (ch :: sp :: rest) 6 4 = asked := fieldAt_last _ 6 4 (by rw [List.length_cons, List.length_cons, hlen])
  have hchannel : fieldAt (ch :: sp :: rest) 0 1 = ch.toNat := fieldAt_one _ 0
  have hspace : fieldAt (ch :: sp :: rest) 1 1 = sp.toNat := fieldAt_one _ 1
  rw [probeReach, withLength_of_eq (by rw [List.length_cons, List.length_cons, hlen]), haddr, hasked, hchannel, hspace] <;> rfl

/-- Settles O21: `runStop_spec`, and the fields of a probe's payload. -/
theorem runsEndAtTheFirstChange : Obligations.RunsEndAtTheFirstChange := by
  refine ⟨fun cfg sp a stop h => runStop_spec h, fun p tag ch sp rest s hs hlen => ?_⟩
  intro addr asked len
  have hprobe := probeReach_eq p ch sp rest (accept p kProbeReach tag s) hlen
  refine ⟨fun c space hc hspace => ?_, fun hbad => ?_⟩
  · intro cfg w b
    refine request_replied (body := probeReach p (ch :: sp :: rest)) hs (hprobe.trans ?_)
    rw [finOf_val c hc, hspace]
    have hreply : probeReply cfg space addr len =
        [match w with | some i => BitVec.ofNat 8 i.val | none => 0xFF, (permitOf cfg w).code] ++ leBytes 4 (b - addr) ++
           [if b < addr + len then 1 else 0] := by
      have hwindow : windowByte w = match w with | some i => BitVec.ofNat 8 i.val | none => 0xFF := by
        cases w <;> rfl
      rw [← hwindow, ← markByte_decide]
      rfl
    exact congrArg (fun fs => answer p .ok (len ≠ asked) fs (accept p kProbeReach tag s)) hreply
  · refine request_refused (body := probeReach p (ch :: sp :: rest)) hs (hprobe.trans ?_)
    rcases hbad with h | h
    · rw [finOf_eq_none h]
    · rw [spaceOfCode_eq_none h]
      cases finOf 4 ch.toNat <;> rfl

end Sys2Proof.Machine
end

