-- ==== Sys2Proof/Proofs/PlanWrites.lean ====
section
/-! PROOFS. Sys2Proof/Proofs/PlanWrites.lean: READ_PLAN and the two forms of WRITE_PLAN (R67 to R73). -/

namespace Sys2Proof.Machine

/-- READ_PLAN with a payload of its length. -/
theorem readPlan_eq (p : PortId) (src first m : Byte) (s : State) :
    readPlan p [src, first, m] s =
      if 1 < src.toNat || 47 < first.toNat then refuse p .badValue s
      else match planOf src.toNat s with
        | none => refuse p .refusedState s
        | some (pl, cap) => answer p .ok (clampTo 1 16 m.toNat ≠ m.toNat)
            (planReply src.toNat first.toNat (clampTo 1 16 m.toNat) pl cap) s := by
  have hsrc : fieldAt [src, first, m] 0 1 = src.toNat := fieldAt_one _ 0
  have hfirst : fieldAt [src, first, m] 1 1 = first.toNat := fieldAt_one _ 1
  have hm : fieldAt [src, first, m] 2 1 = m.toNat := fieldAt_one _ 2
  rw [readPlan, withLength_of_eq (n := 3) rfl, hsrc, hfirst, hm] <;> rfl

theorem leBytes_one (b : Byte) : leBytes 1 b.toNat = [b] := by
  simp [leBytes]

theorem planOf_working {n : Nat} (h : n = 0) (s : State) : planOf n s = some (s.plan, 0) := if_pos h

theorem planOf_snapshot {n : Nat} (h : n ≠ 0) (s : State) :
    planOf n s = (current s).map fun c => (c.snapshot, c.number) := if_neg h

/-! ## The forms of WRITE_PLAN by their selector -/

theorem writePlan_entry (p : PortId) (bs : List Byte) (s : State) : writePlan p (0 :: bs) s = writeEntry p (0 :: bs) s := rfl

theorem writePlan_pageCap (p : PortId) (bs : List Byte) (s : State) : writePlan p (1 :: bs) s = writePageCap p (1 :: bs) s := rfl

theorem writePlan_unknown (p : PortId) (sel : Byte) (bs : List Byte) (s : State) (h : 1 < sel.toNat) :
    writePlan p (sel :: bs) s = refuse p .badValue s := by
  obtain ⟨n, hn⟩ : ∃ n, sel.toNat = n + 2 := ⟨sel.toNat - 2, by omega⟩
  simp only [writePlan, List.map_cons, hn]

/-- A refused WRITE_PLAN leaves the plan. -/
theorem requestBut_refused {take : State → State → State} {p : PortId} {kind tag : Byte} {body : State → State} {s : State}
    {st : Status} (htake : ∀ u, take u u = u) (hs : servable p kind s = true)
    (hu : body (accept p kind tag s) = refuse p st (accept p kind tag s)) :
    requestBut take p kind tag body s = .next (replied p kind tag st false [] s) :=
  requestBut_taken htake (servable_powered p kind s hs)
    ((takeRequest_servable p kind tag body s hs).trans (hu.trans (refuse_accept p kind tag st s))) rfl

/-- The entry as R69 clamps it. -/
theorem PlanEntry.clamped_eq (e : PlanEntry) :
    e.clamped = { e with
      limit := match e.base with
        | some b => min (clampTo 1 1048576 e.limit) (0xFFFFFFFF - b + 1)
        | none => clampTo 1 1048576 e.limit
      quiet := e.quiet.map (clampTo 1 10000), window := e.window.map (clampTo 1 600) } := rfl

theorem writeEntry_of_length {p : PortId} {payload : List Byte} {s : State} (h : payload.length ≠ 23) :
    writeEntry p payload s = refuse p .badLength s := if_pos h

theorem writeEntry_of_entry {p : PortId} {idx : Byte} {bs : List Byte} {s : State} {i : Fin 48} {e : PlanEntry}
    (hlen : bs.length = 21) (hi : idx.toNat = i.val) (he : parseEntry bs = some e) :
    writeEntry p (0 :: idx :: bs) s =
      answer p .ok (entryClamped bs e) (num (satInc s.plan.revision) ++ [idx] ++ e.clamped.bytes)
        { s with plan := s.plan.setEntry i e.clamped } := by
  have hindex : fieldAt (0 :: idx :: bs) 1 1 = idx.toNat := fieldAt_one _ 1
  have hone : leBytes 1 i.val = [idx] := by rw [← hi, leBytes_one]
  unfold writeEntry
  rw [if_neg (by simp [hlen]), hindex, finOf_val i hi]
  show (match some i, parseEntry bs with | some i, some e => _ | _, _ => _) = _
  rw [he]
  dsimp only
  rw [hone]
  rfl

theorem writeEntry_of_bad {p : PortId} {idx : Byte} {bs : List Byte} {s : State} (hlen : bs.length = 21)
    (h : 48 ≤ idx.toNat ∨ parseEntry bs = none) : writeEntry p (0 :: idx :: bs) s = refuse p .badValue s := by
  have hindex : fieldAt (0 :: idx :: bs) 1 1 = idx.toNat := fieldAt_one _ 1
  have hdrop : (0 :: idx :: bs).drop 2 = bs := rfl
  unfold writeEntry
  rw [if_neg (by simp [hlen]), hindex, hdrop]
  rcases h with h | h
  · rw [finOf_eq_none h]
  · rw [h]
    cases finOf 48 idx.toNat <;> rfl

theorem clampTo_two (v : Nat) : clampTo 2 7680 v = if v < 2 then 2 else if 7680 < v then 7680 else v := by
  unfold clampTo
  split
  · omega
  · split <;> omega

/-- A WRITE_PLAN that is answered: the command keeps the plan, and nothing else beside its frame. -/
theorem takeWorking_answer (p : PortId) (tag : Byte) (st : Status) (b : Bool) (fields : List Byte) (plan : Plan) (s : State) :
    takeWorking (answer p st b fields { accept p kWritePlan tag s with plan := plan })
      (keeping (fun _ => answer p st b fields { accept p kWritePlan tag s with plan := plan }) s) =
      { replied p kWritePlan tag st b fields s with plan := plan } := by
  have hanswer : answer p st b fields { accept p kWritePlan tag s with plan := plan } =
      { answer p st b fields (accept p kWritePlan tag s) with plan := plan } := rfl
  rw [hanswer, answer_accept]
  rfl

theorem writePageCap_of_length {p : PortId} {payload : List Byte} {s : State} {v cap : Nat} (hlen : payload.length = 3)
    (hv : fieldAt payload 1 2 = v) (hcap : clampPageCap v = cap) :
    writePageCap p payload s =
      answer p .ok (cap ≠ v) (num (satInc s.plan.revision) ++ num cap) { s with plan := s.plan.setPageCap cap } := by
  subst hv hcap
  exact if_neg (not_not_intro hlen)

/-- Settles O22: the fields of the three payloads, and the entry or page cap that the working plan takes. -/
theorem planIsReadAndWritten : Obligations.PlanIsReadAndWritten := by
  refine ⟨fun p tag src first m s hs => ?_, fun p tag s hs => ?_, fun p tag s hs => ?_⟩
  · intro count reply
    have hcount : clampTo 1 16 m.toNat = count := clampTo_one 16 m.toNat (by decide)
    have hread := readPlan_eq p src first m (accept p kReadPlan tag s)
    rw [hcount] at hread
    have hreply : ∀ pl cap, answer p .ok (count ≠ m.toNat) (planReply src.toNat first.toNat count pl cap) (accept p kReadPlan tag s) =
        reply pl cap := by
      intro pl cap
      rw [answer_accept, planReply, leBytes_one, leBytes_one]
      rfl
    have hadmitted : ∀ n, src = BitVec.ofNat 8 n → n ≤ 1 → first.toNat ≤ 47 →
        ¬ (decide (1 < src.toNat) || decide (47 < first.toNat)) = true := by
      rintro n rfl hn hfirst
      have : n % 256 ≤ 1 := (Nat.mod_le n 256).trans hn
      simpa using ⟨this, hfirst⟩
    refine ⟨fun hbad => ?_, fun hsrc hfirst => ?_, fun c hsrc hfirst hprog hcap => ?_, fun hsrc hfirst hprog => ?_⟩
    · exact request_refused (body := readPlan p [src, first, m]) hs (hread.trans (if_pos (by simpa using hbad)))
    · refine request_next (body := readPlan p [src, first, m]) hs (hread.trans ((if_neg (hadmitted 0 hsrc (by decide) hfirst)).trans ?_)) rfl
      subst hsrc
      exact hreply s.plan 0
    · refine request_next (body := readPlan p [src, first, m]) hs (hread.trans ((if_neg (hadmitted 1 hsrc (by decide) hfirst)).trans ?_)) rfl
      have hcurrent : current (accept p kReadPlan tag s) = some c := (current_of_inProgress hprog).trans hcap
      rw [planOf_snapshot (by subst hsrc; decide), hcurrent]
      exact hreply c.snapshot c.number
    · refine request_refused (body := readPlan p [src, first, m]) hs (hread.trans ((if_neg (hadmitted 1 hsrc (by decide) hfirst)).trans ?_))
      have hcurrent : current (accept p kReadPlan tag s) = none := current_eq_none_of_not hprog
      rw [planOf_snapshot (by subst hsrc; decide), hcurrent]
      rfl
  · refine ⟨fun i idx bs e hi hlen he => ?_, fun idx bs hlen hbad => ?_, fun bs hlen => ?_, ?_, fun sel bs hsel => ?_⟩
    · intro limit held rev
      refine requestBut_next (take := takeWorking) (body := writePlan p (0 :: idx :: bs)) hs
        ((writePlan_entry p _ _).trans (writeEntry_of_entry hlen hi he)) ?_
      exact takeWorking_answer p tag .ok (entryClamped bs e) _ (s.plan.setEntry i e.clamped) s
    · exact requestBut_refused (take := takeWorking) (body := writePlan p (0 :: idx :: bs)) (fun _ => rfl) hs
        ((writePlan_entry p _ _).trans (writeEntry_of_bad hlen hbad))
    · exact requestBut_refused (take := takeWorking) (body := writePlan p (0 :: bs)) (fun _ => rfl) hs
        ((writePlan_entry p bs _).trans (writeEntry_of_length (by simpa using hlen)))
    · exact requestBut_refused (take := takeWorking) (body := writePlan p []) (fun _ => rfl) hs rfl
    · exact requestBut_refused (take := takeWorking) (body := writePlan p (sel :: bs)) (fun _ => rfl) hs
        (writePlan_unknown p sel bs _ hsel)
  · refine ⟨fun lo hi => ?_, fun bs hlen => ?_⟩
    · intro v cap rev
      have hv : fieldAt [1, lo, hi] 1 2 = v := by
        show leNat [lo, hi] = _
        simp [leNat, v]
      have hcap : clampPageCap v = cap := clampTo_two v
      refine requestBut_next (take := takeWorking) (body := writePlan p [1, lo, hi]) hs
        ((writePlan_pageCap p _ _).trans (writePageCap_of_length rfl hv hcap)) ?_
      exact takeWorking_answer p tag .ok (decide (cap ≠ v)) _ (s.plan.setPageCap cap) s
    · exact requestBut_refused (take := takeWorking) (body := writePlan p (1 :: bs)) (fun _ => rfl) hs
        ((writePlan_pageCap p bs _).trans (if_pos (by simpa using hlen)))

end Sys2Proof.Machine
end

