-- ==== Sys2Proof/Proofs/LineEvents.lean ====
section
/-! PROOFS. Sys2Proof/Proofs/LineEvents.lean: the events of the lines and what reception makes of a byte (R166 to R174). -/

namespace Sys2Proof.Machine

/-! ## Reception by its parts -/

theorem lengthIsBad_iff (lo hi : Byte) :
    lengthIsBad lo hi = true ↔ lo.toNat + 256 * hi.toNat < 2 ∨ 1026 < lo.toNat + 256 * hi.toNat := by
  simp [lengthIsBad]

theorem lengthIsBad_eq_false {lo hi : Byte} (h2 : 2 ≤ lo.toNat + 256 * hi.toNat) (h1026 : lo.toNat + 256 * hi.toNat ≤ 1026) :
    lengthIsBad lo hi = false := by
  refine Bool.eq_false_iff.mpr fun h => ?_
  rcases (lengthIsBad_iff lo hi).mp h with h | h <;> omega

theorem fieldAt_length (mark lo hi : Byte) (body : List Byte) :
    fieldAt (mark :: lo :: hi :: body) 1 2 = lo.toNat + 256 * hi.toNat := by
  simp [fieldAt, leNat]

theorem receiveByte_some (rx : List Byte) (b : Byte) : receiveByte (some rx) b = frameByte (rx ++ [b]) := rfl

theorem receiveBytes_append (rx : Option (List Byte)) (bytes : List Byte) (b : Byte) :
    receiveBytes rx (bytes ++ [b]) = receiveByte (receiveBytes rx bytes).1 b := by
  rw [receiveBytes, List.foldl_append]
  rfl

theorem frameByte_short {rx : List Byte} (h : rx.length < 3) : frameByte rx = (some rx, .nothing) := if_pos h

/-- From the third byte on, the length field is known. -/
theorem frameByte_length (mark lo hi : Byte) (body : List Byte) :
    frameByte (mark :: lo :: hi :: body) =
      if lengthIsBad lo hi then (huntAgain lo hi, .badLength)
      else if (mark :: lo :: hi :: body).length < lo.toNat + 256 * hi.toNat + 5 then (some (mark :: lo :: hi :: body), .nothing)
      else if (lo :: hi :: body).drop (lo.toNat + 256 * hi.toNat + 2) =
        crcBytes ((lo :: hi :: body).take (lo.toNat + 256 * hi.toNat + 2)) then
        (none, .frame (body.getD 0 0) (body.getD 1 0) ((body.drop 2).take (lo.toNat + 256 * hi.toNat - 2)))
      else (none, .badCrc) := by
  have hshort : ¬ (mark :: lo :: hi :: body).length < 3 := by simp
  rw [frameByte, if_neg hshort, fieldAt_length]
  rfl

theorem frameByte_badLength (mark : Byte) {lo hi : Byte} (body : List Byte) (h : lengthIsBad lo hi = true) :
    frameByte (mark :: lo :: hi :: body) = (huntAgain lo hi, .badLength) :=
  (frameByte_length mark lo hi body).trans (if_pos h)

theorem frameByte_partial (mark : Byte) {lo hi : Byte} {body : List Byte} (h : lengthIsBad lo hi = false)
    (hlen : body.length < lo.toNat + 256 * hi.toNat + 2) :
    frameByte (mark :: lo :: hi :: body) = (some (mark :: lo :: hi :: body), .nothing) := by
  rw [frameByte_length, h, if_neg (by decide), if_pos (by simpa using hlen)]

/-- The last byte of a frame: what the frame is, by its CRC. -/
theorem frameByte_whole (mark : Byte) {lo hi : Byte} (kind tag : Byte) (payload crc : List Byte) (h : lengthIsBad lo hi = false)
    (hlen : payload.length + 2 = lo.toNat + 256 * hi.toNat) (hcrc : crc.length = 2) :
    frameByte (mark :: lo :: hi :: kind :: tag :: payload ++ crc) =
      (none, if crc = crcBytes (lo :: hi :: kind :: tag :: payload) then .frame kind tag payload else .badCrc) := by
  have hwhole : ¬ (mark :: lo :: hi :: kind :: tag :: payload ++ crc).length < payload.length + 2 + 5 := by simp [hcrc]
  have hdrop : (lo :: hi :: kind :: tag :: payload ++ crc).drop (payload.length + 2 + 2) = crc := by simp
  have htake : (lo :: hi :: kind :: tag :: payload ++ crc).take (payload.length + 2 + 2) = lo :: hi :: kind :: tag :: payload := by simp
  have hpayload : ((kind :: tag :: payload ++ crc).drop 2).take (payload.length + 2 - 2) = payload := by simp
  simp only [List.cons_append] at hwhole hdrop htake hpayload ⊢
  rw [frameByte_length, h, if_neg (by decide), ← hlen, if_neg hwhole, hdrop, htake, hpayload]
  split <;> rfl

/-! ## Line events -/

theorem gapPassed_of_frame {a : Arrival} {s : State} (h : (receiveBytes (s.port a.port).rx a.bytes).1 ≠ none) :
    gapPassed a s = s.onPort a.port fun q => { q with rx := none, interbyte := satInc q.interbyte } := by
  obtain ⟨rx, hrx⟩ := Option.ne_none_iff_exists'.mp h
  simp only [gapPassed, hrx]

theorem gapPassed_of_none {a : Arrival} {s : State} (h : (receiveBytes (s.port a.port).rx a.bytes).1 = none) :
    gapPassed a s = s := by
  simp only [gapPassed, h]

theorem replySent_of_empty {p : PortId} {s : State} (h : (s.port p).tx = []) : replySent p s = s := by
  simp only [replySent, h]

theorem replySent_of_reply {p : PortId} {s : State} {r : Reply} {rest : List Reply} (h : (s.port p).tx = r :: rest) :
    replySent p s =
      if r.restarts then (s.onPort p fun q => { q with tx := rest }).onLink fun l =>
        { l with restart := l.restart.map fun x => { x with sent := true } }
      else s.onPort p fun q => { q with tx := rest } := by
  simp only [replySent, h]

theorem rateChanged_of_busy {p : PortId} {s : State} (h : (s.port p).rx ≠ none ∨ (s.port p).tx ≠ []) : rateChanged p s = s := by
  refine if_neg ?_
  simp only [Bool.and_eq_true, Option.isNone_iff_eq_none, List.isEmpty_iff]
  rintro ⟨hrx, htx⟩
  exact h.elim (· hrx) (· htx)

/-- Settles O60: each line event under the condition that its row names, and reception by the bytes that a frame holds. -/
theorem lineEventsActOnTheirPort : Obligations.LineEventsActOnTheirPort := by
  refine ⟨fun p s hp => ⟨?_, fun bytes => ?_, fun b => ?_, fun lo hi => ?_, fun hrx htx => ?_, fun h => ?_,
    fun r rest htx hr => ?_, fun r rest htx hr => ?_, fun htx => ?_⟩, fun rx bytes b => ⟨rfl, receiveBytes_append rx bytes b⟩,
    fun b => rfl, fun mark lo hi b => ?_⟩
  · exact command_next (f := lineErred p) hp rfl rfl
  · intro r
    refine ⟨fun h => ?_, fun h => ?_, fun h => ?_, fun h => ?_⟩
    · exact command_next (f := gapPassed ⟨p, bytes⟩) hp (gapPassed_of_frame h) rfl
    · exact command_next (f := gapPassed ⟨p, bytes⟩) hp (gapPassed_of_none h) rfl
    · exact command_next (f := crcErred ⟨p, bytes⟩) hp (if_pos h) rfl
    · exact command_next (f := crcErred ⟨p, bytes⟩) hp (if_neg h) rfl
  · exact command_next (f := strapChanged b) hp rfl rfl
  · intro n
    refine ⟨fun h => ?_, fun h2 h1026 => ?_⟩
    · exact command_next (f := lengthErred p lo hi) hp (if_pos ((lengthIsBad_iff lo hi).mpr h)) rfl
    · exact command_next (f := lengthErred p lo hi) hp (if_neg (by simp [lengthIsBad_eq_false h2 h1026])) rfl
  · exact command_next (f := rateChanged p) hp (if_pos (by simp [hrx, htx])) rfl
  · exact command_next (f := rateChanged p) hp (rateChanged_of_busy h) rfl
  · exact command_next (f := replySent p) hp ((replySent_of_reply htx).trans (if_neg (by simp [hr]))) rfl
  · exact command_next (f := replySent p) hp ((replySent_of_reply htx).trans (if_pos hr)) rfl
  · exact command_next (f := replySent p) hp (replySent_of_empty htx) rfl
  · intro n
    refine ⟨frameByte_short (rx := [mark, b]) (Nat.lt_succ_self 2), fun h => ?_, fun h2 h1026 => ?_⟩
    · exact frameByte_badLength mark [] ((lengthIsBad_iff lo hi).mpr h)
    · have hgood : lengthIsBad lo hi = false := lengthIsBad_eq_false h2 h1026
      refine ⟨frameByte_partial mark hgood (Nat.succ_pos _), fun body hbody => ?_, fun kind tag crc payload hlen => ?_⟩
      · exact frameByte_partial mark hgood (by simpa using hbody)
      · rw [receiveByte_some, List.append_assoc]
        exact frameByte_whole mark kind tag payload [crc, b] hgood hlen rfl

end Sys2Proof.Machine
end

