-- ==== Sys2Proof/Proofs/HoldRequests.lean ====
section
/-! PROOFS. Sys2Proof/Proofs/HoldRequests.lean: what a request just accepted sees of the records and requests on their way, and HOLD,
RELEASE and DELETE (R145 to R147). -/

namespace Sys2Proof.Machine

/-! ## The state that an accepted request sees -/

theorem waitOf_of_idle {p : PortId} {s : State} (h : (s.port p).service = none) : waitOf p s = .none := by
  rw [waitOf, h]

theorem waitOf_accept_same (p : PortId) (kind tag : Byte) (s : State) : waitOf p (accept p kind tag s) = .none := by
  simp only [waitOf, accept, port_onPort_same]

theorem port_accept_other {p q : PortId} (h : q ≠ p) (kind tag : Byte) (s : State) : (accept p kind tag s).port q = s.port q :=
  port_onPort_other p q _ s h

/-- A request just taken waits for nothing yet, as its idle port did. -/
theorem waitOf_accept {p : PortId} (q : PortId) (kind tag : Byte) {s : State} (h : (s.port p).service = none) :
    waitOf q (accept p kind tag s) = waitOf q s := by
  by_cases hq : q = p
  · rw [hq, waitOf_accept_same, waitOf_of_idle h]
  · rw [waitOf, waitOf, port_accept_other hq]

theorem recordsOnWay_congr {s t : State} (hslotted : t.dir.slotted = s.dir.slotted) (hpending : t.dir.pending = s.dir.pending)
    (hwait : ∀ q, waitOf q t = waitOf q s) : recordsOnWay t = recordsOnWay s := by
  simp only [recordsOnWay, hslotted, hpending, hwait]

theorem recordsOnWay_accept {p : PortId} (kind tag : Byte) {s : State} (h : (s.port p).service = none) :
    recordsOnWay (accept p kind tag s) = recordsOnWay s :=
  recordsOnWay_congr rfl rfl fun q => waitOf_accept q kind tag h

theorem committing_of_idle {p : PortId} {s : State} (h : waitOf p s = .none) : committing p s = none := by
  rw [committing, h]

theorem committing_accept {p : PortId} (q : PortId) (kind tag : Byte) {s : State} (h : (s.port p).service = none) :
    committing q (accept p kind tag s) = committing q s := by
  by_cases hq : q = p
  · rw [hq, committing_of_idle (waitOf_accept_same p kind tag s), committing_of_idle (waitOf_of_idle h)]
  · rw [committing, committing, waitOf_accept q kind tag h, serviceKind, serviceKind, port_accept_other hq]

theorem committingCap_accept {p : PortId} (cap : Nat) (kind tag : Byte) {s : State} (h : (s.port p).service = none) :
    committingCap cap (accept p kind tag s) = committingCap cap s := by
  simp only [committingCap, committing_accept _ kind tag h]

theorem holdPending_accept {p : PortId} (cap : Nat) (kind tag : Byte) {s : State} (h : (s.port p).service = none) :
    holdPending cap (accept p kind tag s) = holdPending cap s := by
  rw [holdPending, holdPending, recordsOnWay_accept kind tag h]

theorem deletePending_accept {p : PortId} (cap : Nat) (kind tag : Byte) {s : State} (h : (s.port p).service = none) :
    deletePending cap (accept p kind tag s) = deletePending cap s := by
  rw [deletePending, deletePending, recordsOnWay_accept kind tag h]

theorem holdsPending_accept {p : PortId} (kind tag : Byte) {s : State} (h : (s.port p).service = none) :
    holdsPending (accept p kind tag s) = holdsPending s := by
  rw [holdsPending, holdsPending, recordsOnWay_accept kind tag h]

theorem holdRefused_accept {p : PortId} (cap : Nat) (kind tag : Byte) {s : State} (h : (s.port p).service = none) :
    holdRefused cap (accept p kind tag s) = holdRefused cap s := by
  rw [holdRefused, holdPending_accept cap kind tag h]
  rfl

/-! ## Records on their way (R139) -/

/-- A record is slotted, pending or still waited for by a request. -/
theorem mem_recordsOnWay (r : JRec) (s : State) :
    r ∈ recordsOnWay s ↔ (∃ x ∈ s.dir.slotted, x.record = r) ∨ (∃ x ∈ s.dir.pending, x.1 = r) ∨
      ∃ p : PortId, waitOf p s = .record r false := by
  have hports : r ∈ (allPorts.filterMap fun p => match waitOf p s with
      | .record r false => some r
      | _ => none) ↔ ∃ p : PortId, waitOf p s = .record r false := by
    rw [List.mem_filterMap]
    constructor
    · rintro ⟨p, -, hp⟩
      refine ⟨p, ?_⟩
      split at hp
      · rename_i hwait
        rw [hwait, Option.some.inj hp]
      · exact absurd hp (by simp)
    · rintro ⟨p, hp⟩
      exact ⟨p, by cases p <;> decide, by rw [hp]⟩
  rw [recordsOnWay, List.mem_append, List.mem_append, List.mem_map, List.mem_map, or_assoc, ← hports] <;> rfl

theorem touchesHold_iff (cap : Nat) (r : JRec) :
    touchesHold cap r = true ↔ r = .hold cap ∨ r = .release cap ∨ ∃ why, r = .delete cap why := by
  cases r <;> simp [touchesHold]

theorem holdPending_iff (cap : Nat) (s : State) :
    holdPending cap s = true ↔ JRec.hold cap ∈ recordsOnWay s ∨ JRec.release cap ∈ recordsOnWay s ∨
      ∃ why, JRec.delete cap why ∈ recordsOnWay s := by
  rw [holdPending, List.any_eq_true]
  constructor
  · rintro ⟨r, hr, htouch⟩
    rcases (touchesHold_iff cap r).mp htouch with rfl | rfl | ⟨why, rfl⟩
    · exact .inl hr
    · exact .inr (.inl hr)
    · exact .inr (.inr ⟨why, hr⟩)
  · rintro (hr | hr | ⟨why, hr⟩)
    · exact ⟨_, hr, (touchesHold_iff cap _).mpr (.inl rfl)⟩
    · exact ⟨_, hr, (touchesHold_iff cap _).mpr (.inr (.inl rfl))⟩
    · exact ⟨_, hr, (touchesHold_iff cap _).mpr (.inr (.inr ⟨why, rfl⟩))⟩

theorem holdRefused_eq (cap : Nat) (s : State) :
    holdRefused cap s = if s.engine.state = .erasing then some .inProgress
      else if s.monitor.state = .exhausted then some .holdup
      else if findEntry s.dir cap = none then some .notFound
      else if holdPending cap s then some .inProgress else none := by
  simp only [holdRefused, Option.isNone_iff_eq_none]

/-! ## HOLD, RELEASE and DELETE -/

/-- The three requests share their checks: one that fails refuses. -/
theorem refuse_of_holdRefused {p : PortId} {payload : List Byte} {s : State} {st : Status} {f : State → State}
    (hlen : payload.length = 4) (h : holdRefused (leNat payload) s = some st) :
    withLength 4 p payload (fun s => match holdRefused (fieldAt payload 0 4) s with
      | some st => refuse p st s
      | none => f s) s = refuse p st s := by
  rw [withLength_of_eq hlen, fieldAt_all payload 4 hlen]
  simp only [h]

theorem holdCapture_of_admitted {p : PortId} {payload : List Byte} {s : State} (hlen : payload.length = 4)
    (h : holdRefused (leNat payload) s = none) :
    holdCapture p payload s = if heldMax ≤ heldCount s.dir + holdsPending s then refuse p .full s
      else if isHeld (leNat payload) s then answer p .ok false unchangedMark s
      else awaitRecord p (.hold (leNat payload)) s := by
  rw [holdCapture, withLength_of_eq hlen, fieldAt_all payload 4 hlen]
  simp only [h]

theorem releaseCapture_of_admitted {p : PortId} {payload : List Byte} {s : State} (hlen : payload.length = 4)
    (h : holdRefused (leNat payload) s = none) :
    releaseCapture p payload s = if isHeld (leNat payload) s then awaitRecord p (.release (leNat payload)) s
      else answer p .ok false unchangedMark s := by
  rw [releaseCapture, withLength_of_eq hlen, fieldAt_all payload 4 hlen]
  simp only [h]

theorem deleteCapture_of_admitted {p : PortId} {payload : List Byte} {s : State} (hlen : payload.length = 4)
    (h : holdRefused (leNat payload) s = none) :
    deleteCapture p payload s = if isCurrent (leNat payload) s || committingCap (leNat payload) s then refuse p .inProgress s
      else if isHeld (leNat payload) s then refuse p .held s
      else awaitRecord p (.delete (leNat payload) .delete) s := by
  rw [deleteCapture, withLength_of_eq hlen, fieldAt_all payload 4 hlen]
  simp only [h]

theorem awaitRecord_accept (p : PortId) (kind tag : Byte) (r : JRec) (s : State) :
    awaitRecord p r (accept p kind tag s) = settle (inService p kind tag (.record r false) s) := by
  rw [awaitRecord, setWait_accept]

/-- A request that waits for its record has settled the blocks and left the frame. -/
theorem request_awaits {p : PortId} {kind tag : Byte} {body : State → State} {s : State} {r : JRec} (hs : servable p kind s = true)
    (hu : body (accept p kind tag s) = awaitRecord p r (accept p kind tag s)) :
    request p kind tag body s = .next (settle (inService p kind tag (.record r false) s)) :=
  request_next hs (hu.trans (awaitRecord_accept p kind tag r s)) (frameOf_settle _)

/-- Settles O58: the shared checks, then each request's own. -/
theorem holdReleaseDeleteAreCheckedAndWait : Obligations.HoldReleaseDeleteAreCheckedAndWait := by
  refine ⟨fun cap s => ?_, fun p tag payload st s hlen hst => ?_, fun p tag payload s hlen => ?_⟩
  · intro onWay
    have honWay : ∀ r, onWay r ↔ r ∈ recordsOnWay s := fun r => (mem_recordsOnWay r s).symm
    refine ⟨?_, holdRefused_eq cap s⟩
    rw [holdPending_iff]
    simp only [honWay]
  · have hbody : ∀ kind (f : State → State), servable p kind s = true → withLength 4 p payload (fun s => match holdRefused (fieldAt payload 0 4) s with
        | some st => refuse p st s
        | none => f s) (accept p kind tag s) = refuse p st (accept p kind tag s) := fun kind f hs =>
      refuse_of_holdRefused hlen ((holdRefused_accept _ kind tag (servable_idle p kind s hs)).trans hst)
    refine ⟨fun hs => ?_, fun hs => ?_, fun hs => ?_⟩
    · exact request_refused (body := holdCapture p payload) hs (hbody kHold _ hs)
    · exact request_refused (body := releaseCapture p payload) hs (hbody kRelease _ hs)
    · exact request_refused (body := deleteCapture p payload) hs (hbody kDelete _ hs)
  · intro cap onWay herasing hexhausted hfound hhold hrelease hdelete waits
    have honWay : ∀ r, onWay r ↔ r ∈ recordsOnWay s := fun r => (mem_recordsOnWay r s).symm
    have hpending : ¬ holdPending cap s = true := by
      rw [holdPending_iff]
      simp only [← honWay]
      rintro (h | h | ⟨why, h⟩)
      · exact hhold h
      · exact hrelease h
      · exact hdelete why h
    have hadmitted : holdRefused cap s = none := by
      rw [holdRefused_eq, if_neg herasing, if_neg hexhausted, if_neg hfound, if_neg hpending]
    have haccepted : ∀ kind, servable p kind s = true → holdRefused cap (accept p kind tag s) = none := fun kind hs =>
      (holdRefused_accept cap kind tag (servable_idle p kind s hs)).trans hadmitted
    refine ⟨fun hs => ?_, fun hs => ?_, fun hs => ?_⟩
    · have hbody := holdCapture_of_admitted (p := p) hlen (haccepted kHold hs)
      rw [holdsPending_accept kHold tag (servable_idle p kHold s hs)] at hbody
      refine ⟨fun hfull => ?_, fun hroom hheld => ?_, fun hroom hheld => ?_⟩
      · exact request_refused (body := holdCapture p payload) hs (hbody.trans (if_pos hfull))
      · exact request_replied (body := holdCapture p payload) hs
          (hbody.trans ((if_neg (Nat.not_le.mpr hroom)).trans (if_pos hheld)))
      · exact request_awaits (body := holdCapture p payload) hs
          (hbody.trans ((if_neg (Nat.not_le.mpr hroom)).trans (if_neg (Bool.eq_false_iff.mp hheld))))
    · have hbody := releaseCapture_of_admitted (p := p) hlen (haccepted kRelease hs)
      refine ⟨fun hheld => ?_, fun hheld => ?_⟩
      · exact request_replied (body := releaseCapture p payload) hs (hbody.trans (if_neg (Bool.eq_false_iff.mp hheld)))
      · exact request_awaits (body := releaseCapture p payload) hs (hbody.trans (if_pos hheld))
    · have hbody := deleteCapture_of_admitted (p := p) hlen (haccepted kDelete hs)
      rw [committingCap_accept _ kDelete tag (servable_idle p kDelete s hs)] at hbody
      have hfree : isCurrent cap s = false → committingCap cap s = false →
          ¬ (isCurrent cap (accept p kDelete tag s) || committingCap cap s) = true := by
        intro hcurrent hcommitting
        rw [hcommitting, Bool.or_false]
        exact Bool.eq_false_iff.mp hcurrent
      refine ⟨fun hbusy => ?_, fun hcurrent hcommitting hheld => ?_, fun hcurrent hcommitting hheld => ?_⟩
      · exact request_refused (body := deleteCapture p payload) hs (hbody.trans (if_pos (Bool.or_eq_true_iff.mpr hbusy)))
      · exact request_refused (body := deleteCapture p payload) hs
          (hbody.trans ((if_neg (hfree hcurrent hcommitting)).trans (if_pos hheld)))
      · exact request_awaits (body := deleteCapture p payload) hs
          (hbody.trans ((if_neg (hfree hcurrent hcommitting)).trans (if_neg (Bool.eq_false_iff.mp hheld))))

end Sys2Proof.Machine
end

