-- ==== Sys2Proof/Proofs/NoteRequests.lean ====
section
/-! PROOFS. Sys2Proof/Proofs/NoteRequests.lean: STAGE_NOTE and COMMIT_NOTE (R148, R149). -/

namespace Sys2Proof.Machine

/-! ## The fields of the two payloads -/

theorem fieldAt_prefix {num4 : List Byte} (rest : List Byte) (hlen : num4.length = 4) : fieldAt (num4 ++ rest) 0 4 = leNat num4 := by
  rw [fieldAt, List.drop_zero, ← hlen, List.take_left]

theorem getD_after {num4 : List Byte} (rest : List Byte) (i : Nat) (hlen : num4.length = 4) :
    (num4 ++ rest).getD (4 + i) 0 = rest.getD i 0 := by
  rw [← hlen, List.getD_append_right _ _ _ _ (Nat.le_add_right _ _), Nat.add_sub_cancel_left]

theorem fieldAt_after {num4 : List Byte} (rest : List Byte) (i : Nat) (hlen : num4.length = 4) :
    fieldAt (num4 ++ rest) (4 + i) 1 = (rest.getD i 0).toNat := by
  rw [fieldAt_one, getD_after rest i hlen]

theorem drop_after {num4 : List Byte} (b : Byte) (rest : List Byte) (hlen : num4.length = 4) : (num4 ++ b :: rest).drop 5 = rest := by
  rw [show 5 = num4.length + 1 by rw [hlen], List.drop_length_add_append]
  rfl

/-! ## What the requests look at -/

theorem otherCommit_iff (p : PortId) (cap slot : Nat) (s : State) :
    otherCommit p cap slot s = true ↔ ∃ q : PortId, q ≠ p ∧ committing q s = some (cap, slot) := by
  simp only [otherCommit, List.any_eq_true, Bool.and_eq_true, decide_eq_true_eq]
  exact ⟨fun ⟨q, _, hq⟩ => ⟨q, hq⟩, fun ⟨q, hq⟩ => ⟨q, by cases q <;> decide, hq⟩⟩

theorem otherCommit_accept {p : PortId} (cap slot : Nat) (kind tag : Byte) {s : State} (h : (s.port p).service = none) :
    otherCommit p cap slot (accept p kind tag s) = otherCommit p cap slot s := by
  simp only [otherCommit, committing_accept _ kind tag h]

theorem isCurrent_iff (cap : Nat) (s : State) : isCurrent cap s = true ↔ ∃ c : Capture, current s = some c ∧ c.number = cap := by
  unfold isCurrent
  rw [Bool.and_eq_true]
  constructor
  · rintro ⟨hprog, hcap⟩
    cases hc : s.engine.capture with
    | none =>
      rw [hc] at hcap
      exact absurd hcap (by simp)
    | some c =>
      rw [hc] at hcap
      exact ⟨c, (current_of_inProgress hprog).trans hc, of_decide_eq_true hcap⟩
  · rintro ⟨c, hc, hn⟩
    have hprog := inProgress_of_current hc
    rw [current_of_inProgress hprog] at hc
    rw [hc]
    exact ⟨hprog, decide_eq_true hn⟩

theorem slotUsed_iff (e : DirEntry) (slot : Nat) (area : List Byte) :
    slotUsed e slot area = true ↔ e.slots.getLsbD slot = true ∨ ∃ b ∈ area, b ≠ 0xFF := by
  simp [slotUsed]

theorem slotUsedNow_of_read {s : State} {e : DirEntry} {r : PageRead} (slot : Nat) (h : readHeadPage s (shown s e) = some r) :
    slotUsedNow s e slot = slotUsed e slot (slotArea slot (bytesOfWords r.words)) := by
  simp only [slotUsedNow, h]

theorem shown_blocks (s : State) (e : DirEntry) : (shown s e).blocks = e.blocks := by
  unfold shown
  split
  · rfl
  · split <;> rfl

theorem headSource_shown (s : State) (e : DirEntry) : headSource (shown s e) = (shown s e).head.bind (physOf e.blocks) := by
  rw [headSource, shown_blocks]

theorem headSource_of_read {s : State} {e : DirEntry} {r : PageRead} (h : readHeadPage s e = some r) :
    (headSource e).isNone = false := by
  rw [readHeadPage] at h
  obtain ⟨x, hx, -⟩ := Option.map_eq_some_iff.mp h
  rw [headSource, hx]
  rfl

/-! ## STAGE_NOTE -/

/-- STAGE_NOTE with its fields, once the slot, the text and the engine are as they must be. -/
def stageFor (p : PortId) (cap slot : Nat) (payload : List Byte) (e : DirEntry) (s : State) : State :=
  if (headSource (shown s e)).isNone then refuse p .refusedState s
  else if otherCommit p cap slot s then refuse p .inProgress s
  else if headFlying s (shown s e) then setWait p (.read payload) s
  else loadPad p payload e s

theorem stageNote_fields {num4 : List Byte} (p : PortId) (slot : Byte) (text : List Byte) (s : State) (hlen : num4.length = 4) :
    stageNote p (num4 ++ slot :: text) s =
      if 4 ≤ slot.toNat then refuse p .badValue s
      else if text = [] then refuse p .badLength s
      else if s.engine.state = .erasing then refuse p .inProgress s
      else (findEntry s.dir (leNat num4)).elim (refuse p .notFound s)
        fun e => stageFor p (leNat num4) slot.toNat (num4 ++ slot :: text) e s := by
  have hlong : ¬ (num4 ++ slot :: text).length < 5 := by simp only [List.length_append, List.length_cons, hlen]; omega
  have hslot : fieldAt (num4 ++ slot :: text) 4 1 = slot.toNat := fieldAt_after _ 0 hlen
  simp only [stageNote, if_neg hlong, hslot, fieldAt_prefix _ hlen, drop_after slot text hlen, List.isEmpty_iff]
  cases findEntry s.dir (leNat num4) <;> rfl

theorem stageNote_known {num4 : List Byte} {slot : Byte} {text : List Byte} {s : State} (p : PortId) (hlen : num4.length = 4)
    (hslot : slot.toNat < 4) (htext : text ≠ []) (herasing : s.engine.state ≠ .erasing) :
    stageNote p (num4 ++ slot :: text) s = (findEntry s.dir (leNat num4)).elim (refuse p .notFound s)
      fun e => stageFor p (leNat num4) slot.toNat (num4 ++ slot :: text) e s := by
  rw [stageNote_fields p slot text s hlen, if_neg (Nat.not_le.mpr hslot), if_neg htext, if_neg herasing]

theorem stagedPad_used {e : DirEntry} {slot : Nat} {bytes : List Byte} (cap : Nat) (text : List Byte)
    (h : slotUsed e slot (slotArea slot bytes) = true) :
    stagedPad e cap slot text bytes =
      { target := some (cap, slot), text := slotText (slotArea slot bytes), pf := false, locked := true, aa := false } := if_pos h

theorem stagedPad_free {e : DirEntry} {slot : Nat} {bytes : List Byte} (cap : Nat) (text : List Byte)
    (h : ¬ slotUsed e slot (slotArea slot bytes) = true) :
    stagedPad e cap slot text bytes =
      { target := some (cap, slot), text := text.take 120, pf := decide (120 < text.length), locked := false, aa := false } :=
  if_neg h

theorem loadPad_of_read {num4 : List Byte} {slot : Byte} {text : List Byte} {e : DirEntry} {r : PageRead} {s : State} {pad : Pad}
    (p : PortId) (hlen : num4.length = 4) (hread : readHeadPage s (shown s e) = some r)
    (hpad : stagedPad e (leNat num4) slot.toNat text (bytesOfWords r.words) = pad) :
    loadPad p (num4 ++ slot :: text) e s =
      answer p .ok pad.pf (padFields pad) ((takeRead r s).onPort p fun q => { q with pad := pad }) := by
  have hslot : fieldAt (num4 ++ slot :: text) 4 1 = slot.toNat := fieldAt_after _ 0 hlen
  simp only [loadPad, hread, hslot, fieldAt_prefix _ hlen, drop_after slot text hlen, hpad]
  rfl

/-! ## COMMIT_NOTE -/

/-- COMMIT_NOTE with its fields, once the echo matches a pad that may be committed. -/
def commitFor (p : PortId) (slot : Nat) (payload : List Byte) (e : DirEntry) (s : State) : State :=
  if s.monitor.state = .exhausted then refuse p .holdup s
  else if headFlying s (shown s e) then setWait p (.read payload) s
  else queueCommit p slot e s

theorem commitNote_fields {num4 : List Byte} (p : PortId) (slot last status : Byte) (s : State) (hlen : num4.length = 4) :
    commitNote p (num4 ++ [slot, last, status]) s =
      if !echoMatches (s.port p).pad (num4 ++ [slot, last, status]) then refuse p .authMismatch s
      else if (s.port p).pad.pf || (s.port p).pad.locked then refuse p .refusedState s
      else if s.engine.state = .erasing then refuse p .inProgress s
      else if (s.port p).pad.gone then refuse p .gone s
      else if isCurrent (leNat num4) s || deletePending (leNat num4) s || otherCommit p (leNat num4) slot.toNat s then
        refuse p .inProgress s
      else (findEntry s.dir (leNat num4)).elim (refuse p .gone s)
        fun e => commitFor p slot.toNat (num4 ++ [slot, last, status]) e s := by
  have hlength : (num4 ++ [slot, last, status]).length = 7 := by simp [hlen]
  have hslot : fieldAt (num4 ++ [slot, last, status]) 4 1 = slot.toNat := fieldAt_after _ 0 hlen
  rw [commitNote, withLength_of_eq hlength]
  simp only [hslot, fieldAt_prefix _ hlen]
  cases findEntry s.dir (leNat num4) <;> rfl

/-- The status byte of a pad (R148). -/
theorem Pad.statusByte_eq (d : Pad) :
    d.statusByte = (if d.pf then 1 else 0) + (if d.locked then 2 else 0) + (if d.aa then 4 else 0) := by
  simp only [Pad.statusByte]
  generalize d.pf = pf
  generalize d.locked = locked
  generalize d.aa = aa
  revert pf locked aa
  decide

theorem echoMatches_iff {num4 : List Byte} (d : Pad) (slot last status : Byte) (hlen : num4.length = 4) :
    echoMatches d (num4 ++ [slot, last, status]) = true ↔ d.target = some (leNat num4, slot.toNat) ∧
      last.toNat = d.text.length - 1 ∧
      status = (if d.pf then 1 else 0) + (if d.locked then 2 else 0) + (if d.aa then 4 else 0) := by
  have hslot : fieldAt (num4 ++ [slot, last, status]) 4 1 = slot.toNat := fieldAt_after _ 0 hlen
  have hlast : fieldAt (num4 ++ [slot, last, status]) 5 1 = last.toNat := fieldAt_after _ 1 hlen
  have hstatus : (num4 ++ [slot, last, status]).getD 6 0 = status := getD_after _ 2 hlen
  rw [echoMatches, hslot, hlast, hstatus, fieldAt_prefix _ hlen, d.statusByte_eq, Bool.and_eq_true, Bool.and_eq_true,
    decide_eq_true_eq, decide_eq_true_eq, decide_eq_true_eq, and_assoc]
  rfl

theorem pad_accept (p : PortId) (kind tag : Byte) (s : State) : ((accept p kind tag s).port p).pad = (s.port p).pad := by
  rw [accept, port_onPort_same]

/-- A pad that is locked while its request is refused. -/
theorem refuse_lockPad_accept (p : PortId) (kind tag : Byte) (st : Status) (s : State) :
    refuse p st (lockPad p (accept p kind tag s)) =
      (replied p kind tag st false [] s).onPort p fun q => { q with pad := { q.pad with locked := true } } := by
  simp only [refuse, answer, lockPad, onPad, accept, replied, onPort_onPort]

/-! ## O59 by its parts -/

theorem stagesNote_served {p : PortId} {tag slot : Byte} {num4 text : List Byte} {e : DirEntry} {r : PageRead} {s : State}
    (hs : servable p kStageNote s = true) (hlen : num4.length = 4) (htext : text ≠ []) (hslot : slot.toNat < 4)
    (herasing : s.engine.state ≠ .erasing) (he : findEntry s.dir (leNat num4) = some e)
    (hread : readHeadPage s (shown s e) = some r) (hother : otherCommit p (leNat num4) slot.toNat s = false) :
    stageNote p (num4 ++ slot :: text) (accept p kStageNote tag s) =
      if headFlying s (shown s e) then setWait p (.read (num4 ++ slot :: text)) (accept p kStageNote tag s)
      else loadPad p (num4 ++ slot :: text) e (accept p kStageNote tag s) := by
  have hknown := stageNote_known (s := accept p kStageNote tag s) p hlen hslot htext herasing
  have hentry : findEntry (accept p kStageNote tag s).dir (leNat num4) = some e := he
  have hhead : (headSource (shown s e)).isNone = false := headSource_of_read hread
  have hidle : (s.port p).service = none := servable_idle p kStageNote s hs
  rw [hentry] at hknown
  refine hknown.trans ((if_neg ?_).trans (if_neg ?_))
  · exact Bool.eq_false_iff.mp hhead
  · rw [otherCommit_accept _ _ _ _ hidle]
    exact Bool.eq_false_iff.mp hother

/-- A pad that is loaded, and answered with. -/
theorem stageNote_loads {p : PortId} {tag slot : Byte} {num4 text : List Byte} {e : DirEntry} {r : PageRead} {s : State} {pad : Pad}
    (hs : servable p kStageNote s = true) (hlen : num4.length = 4) (hread : readHeadPage s (shown s e) = some r)
    (hbody : stageNote p (num4 ++ slot :: text) (accept p kStageNote tag s) =
      loadPad p (num4 ++ slot :: text) e (accept p kStageNote tag s))
    (hpad : stagedPad e (leNat num4) slot.toNat text (bytesOfWords r.words) = pad) :
    exec (.stageNote p tag (num4 ++ slot :: text)) s = .next (answer p .ok pad.pf (padFields pad)
      ((takeRead r (inService p kStageNote tag .none s)).onPort p fun q => { q with pad := pad })) := by
  have hread' : readHeadPage (accept p kStageNote tag s) (shown (accept p kStageNote tag s) e) = some r := hread
  exact request_next (body := stageNote p (num4 ++ slot :: text)) hs (hbody.trans (loadPad_of_read p hlen hread' hpad))
    (frameOf_takeRead r (inService p kStageNote tag .none s))

/-- Settles O59: STAGE_NOTE and COMMIT_NOTE by the checks in their order, and what the pad takes. -/
theorem notesAreStagedAndCommitted : Obligations.NotesAreStagedAndCommitted := by
  refine ⟨fun p tag slot num4 text e r s hs hlen htext hslot herasing he hread hother => ?_,
    fun p tag slot num4 text payload s hs hlen => ?_, fun p tag slot last status num4 s hs hlen => ?_,
    fun p cap slot e s => ⟨otherCommit_iff p cap slot s, isCurrent_iff cap s, fun r hread => ?_⟩⟩
  · have hserved := stagesNote_served (tag := tag) hs hlen htext hslot herasing he hread hother
    refine ⟨fun hflying => ?_, fun hstill => ?_⟩
    · refine request_next (body := stageNote p (num4 ++ slot :: text)) hs (hserved.trans (if_pos hflying)) rfl |>.trans ?_
      rw [setWait_accept]
    · have hbody := hserved.trans (if_neg (Bool.eq_false_iff.mp hstill))
      intro area used load
      have hused : slotUsed e slot.toNat (slotArea slot.toNat (bytesOfWords r.words)) = true ↔ used := slotUsed_iff _ _ _
      refine ⟨fun h => ?_, fun h => ?_⟩
      · exact stageNote_loads hs hlen hread hbody (stagedPad_used _ text (hused.mpr h))
      · exact stageNote_loads hs hlen hread hbody (stagedPad_free _ text (mt hused.mp h))
  · intro run refused known
    have hfields := stageNote_fields p slot text (accept p kStageNote tag s) hlen
    have hrefused : ∀ st, stageNote p (num4 ++ slot :: text) (accept p kStageNote tag s) = refuse p st (accept p kStageNote tag s) →
        refused st := fun st h => request_refused (body := stageNote p (num4 ++ slot :: text)) hs h
    have hknownEq : known → stageNote p (num4 ++ slot :: text) (accept p kStageNote tag s) =
        (findEntry s.dir (leNat num4)).elim (refuse p .notFound (accept p kStageNote tag s))
          fun e => stageFor p (leNat num4) slot.toNat (num4 ++ slot :: text) e (accept p kStageNote tag s) :=
      fun ⟨hslot, htext, herasing⟩ => stageNote_known (s := accept p kStageNote tag s) p hlen hslot htext herasing
    refine ⟨fun hshort => ?_, fun hslot => ?_, fun hslot htext => ?_, fun hslot htext herasing => ?_, fun hknown hnone => ?_,
      fun e hknown he => ⟨fun hhead => ?_, fun hhead hother => ?_⟩⟩
    · exact request_refused (body := stageNote p payload) hs (if_pos hshort)
    · exact hrefused _ (hfields.trans (if_pos hslot))
    · exact hrefused _ (hfields.trans ((if_neg (Nat.not_le.mpr hslot)).trans (if_pos htext)))
    · exact hrefused _ (hfields.trans ((if_neg (Nat.not_le.mpr hslot)).trans ((if_neg htext).trans (if_pos herasing))))
    · refine hrefused _ ((hknownEq hknown).trans ?_)
      rw [hnone, Option.elim_none]
    · refine hrefused _ ((hknownEq hknown).trans ?_)
      rw [he]
      refine if_pos ?_
      rw [Option.isNone_iff_eq_none]
      exact (headSource_shown s e).trans hhead
    · refine hrefused _ ((hknownEq hknown).trans ?_)
      rw [he]
      refine (if_neg ?_).trans (if_pos ?_)
      · rw [Option.isNone_iff_eq_none]
        exact fun h => hhead ((headSource_shown s e).symm.trans h)
      · rw [otherCommit_accept _ _ _ _ (servable_idle p kStageNote s hs)]
        exact (otherCommit_iff p _ _ s).mpr hother
  · intro d cap run match'
    have hidle : (s.port p).service = none := servable_idle p kCommitNote s hs
    have hfields := commitNote_fields p slot last status (accept p kCommitNote tag s) hlen
    rw [pad_accept, deletePending_accept _ _ _ hidle, otherCommit_accept _ _ _ _ hidle] at hfields
    have hmatch : echoMatches d (num4 ++ [slot, last, status]) = true ↔ match' := echoMatches_iff d slot last status hlen
    have hrefused : ∀ st, commitNote p (num4 ++ [slot, last, status]) (accept p kCommitNote tag s) =
        refuse p st (accept p kCommitNote tag s) → run = .next (replied p kCommitNote tag st false [] s) :=
      fun st h => request_refused (body := commitNote p (num4 ++ [slot, last, status])) hs h
    have hidleNote : isCurrent cap s = false → deletePending cap s = false → otherCommit p cap slot.toNat s = false →
        ¬ (isCurrent cap (accept p kCommitNote tag s) || deletePending cap s || otherCommit p cap slot.toNat s) = true := by
      intro hcurrent hdelete hother
      rw [show isCurrent cap (accept p kCommitNote tag s) = false from hcurrent, hdelete, hother]
      decide
    have hfree : match' → d.pf = false → d.locked = false → s.engine.state ≠ .erasing → d.gone = false →
        commitNote p (num4 ++ [slot, last, status]) (accept p kCommitNote tag s) =
          if isCurrent cap (accept p kCommitNote tag s) || deletePending cap s || otherCommit p cap slot.toNat s then
            refuse p .inProgress (accept p kCommitNote tag s)
          else (findEntry (accept p kCommitNote tag s).dir cap).elim (refuse p .gone (accept p kCommitNote tag s))
            fun e => commitFor p slot.toNat (num4 ++ [slot, last, status]) e (accept p kCommitNote tag s) := by
      intro hm hpf hlocked herasing hgone
      refine hfields.trans ((if_neg ?_).trans ((if_neg ?_).trans ((if_neg herasing).trans (if_neg ?_))))
      · simp [hmatch.mpr hm, d]
      · simp [hpf, hlocked, d]
      · simp [hgone, d]
    refine ⟨fun hno => ?_, fun hm hbad => ?_, fun hm hpf hlocked herasing => ?_, fun hm hpf hlocked herasing hgone => ?_,
      fun e hm hpf hlocked hgone hcurrent herasing hdelete hother he hpower => ?_,
      fun hm hpf hlocked hgone herasing => ⟨fun hbusy => ?_, fun e hcurrent hdelete hother he hpower => ?_⟩⟩
    · exact hrefused _ (hfields.trans (if_pos (by simpa [d] using mt hmatch.mp hno)))
    · refine hrefused _ (hfields.trans ((if_neg ?_).trans (if_pos ?_)))
      · simp [hmatch.mpr hm, d]
      · exact Bool.or_eq_true_iff.mpr hbad
    · refine hrefused _ (hfields.trans ((if_neg ?_).trans ((if_neg ?_).trans (if_pos herasing))))
      · simp [hmatch.mpr hm, d]
      · simp [hpf, hlocked, d]
    · cases hd : d.gone with
      | true =>
        refine hrefused _ (hfields.trans ((if_neg ?_).trans ((if_neg ?_).trans ((if_neg herasing).trans (if_pos hd)))))
        · simp [hmatch.mpr hm, d]
        · simp [hpf, hlocked, d]
      | false =>
        obtain ⟨hcurrent, hdelete, hother, hnone⟩ := hgone.resolve_left (by simp [hd])
        refine hrefused _ ((hfree hm hpf hlocked herasing hd).trans ((if_neg (hidleNote hcurrent hdelete hother)).trans ?_))
        rw [show findEntry (accept p kCommitNote tag s).dir cap = none from hnone, Option.elim_none]
    · have hentry : commitNote p (num4 ++ [slot, last, status]) (accept p kCommitNote tag s) =
          commitFor p slot.toNat (num4 ++ [slot, last, status]) e (accept p kCommitNote tag s) := by
        refine (hfree hm hpf hlocked herasing hgone).trans ((if_neg (hidleNote hcurrent hdelete hother)).trans ?_)
        rw [show findEntry (accept p kCommitNote tag s).dir cap = some e from he, Option.elim_some]
      have hlooks := hentry.trans (if_neg hpower)
      refine ⟨fun hflying => ?_, fun hstill hfreeSlot => ?_, fun hstill husedSlot => ?_⟩
      · exact request_next (body := commitNote p (num4 ++ [slot, last, status])) hs
          (hlooks.trans ((if_pos hflying).trans (setWait_accept p kCommitNote tag _ s))) rfl
      · refine request_next (body := commitNote p (num4 ++ [slot, last, status])) hs
          (hlooks.trans ((if_neg (Bool.eq_false_iff.mp hstill)).trans ((if_neg (Bool.eq_false_iff.mp hfreeSlot)).trans ?_))) rfl
        rw [setWait_accept]
      · exact request_next (body := commitNote p (num4 ++ [slot, last, status])) hs
          (hlooks.trans ((if_neg (Bool.eq_false_iff.mp hstill)).trans ((if_pos husedSlot).trans
            (refuse_lockPad_accept p kCommitNote tag .refusedState s)))) rfl
    · refine hrefused _ ((hfree hm hpf hlocked herasing hgone).trans (if_pos ?_))
      rw [Bool.or_eq_true_iff, Bool.or_eq_true_iff, or_assoc]
      exact hbusy
    · refine hrefused _ ((hfree hm hpf hlocked herasing hgone).trans ((if_neg (hidleNote hcurrent hdelete hother)).trans ?_))
      rw [show findEntry (accept p kCommitNote tag s).dir cap = some e from he, Option.elim_some]
      exact if_pos hpower
  · rw [slotUsedNow_of_read slot hread]
    exact slotUsed_iff _ _ _

end Sys2Proof.Machine
end

