-- ==== Sys2Proof/Proofs/EngineCommands.lean ====
section
/-! PROOFS. Sys2Proof/Proofs/EngineCommands.lean: the Capture Engine's timers, its three requests, and the pieces and records that it
takes (R43, R58, R59, R87 to R89, R99 to R101). -/

namespace Sys2Proof.Machine

/-! ## Timers (R89, R99) -/

theorem effectiveQuiet_eq (c : Capture) (e : PlanEntry) (s : State) :
    effectiveQuiet c e s = if s.monitor.state = .normal ∧ reached s.time (after c.openTime (1000000 * e.window.getD 0)) = false
      then e.quiet.getD 0 else 0 := by
  unfold effectiveQuiet isNormal
  split <;> split <;> simp_all [usPerS]

theorem quietExpired_of_some {s : State} {c : Capture} {e : PlanEntry} {t : PartTime} (h : quietSection s = some (c, e, t)) :
    quietExpired s = if reached s.time (after t (usPerMs * effectiveQuiet c e s)) then endComplete s else s := by
  simp only [quietExpired, h]

theorem quietExpired_of_none {s : State} (h : quietSection s = none) : quietExpired s = s := by
  simp only [quietExpired, h]

theorem windowExpired_of_some {s : State} {c : Capture} {e : PlanEntry} {t : PartTime} (h : quietSection s = some (c, e, t)) :
    windowExpired s = if reached s.time (after c.openTime (usPerS * e.window.getD 0)) then endComplete s else s := by
  simp only [windowExpired, h]

theorem windowExpired_of_none {s : State} (h : quietSection s = none) : windowExpired s = s := by
  simp only [windowExpired, h]

theorem frameOf_endComplete (s : State) : frameOf (endComplete s) = frameOf s := frameOf_settle _

theorem retainDue_of_running {s : State} {t : PartTime} (h : s.engine.retainTimer = .running t) :
    retainDue s = reached s.time t := by
  simp only [retainDue, h]

theorem retainDue_of_still {s : State} (h : s.engine.retainTimer = .stopped ∨ s.engine.retainTimer = .ranOut) :
    retainDue s = false := by
  rcases h with h | h <;> simp only [retainDue, h]

theorem retainExpired_of_due {s : State} (h : retainDue s = true) :
    retainExpired s =
      if s.engine.retain = 0 then s.onEngine fun e => { e with retainTimer := .ranOut, retain := 0 }
      else (post .engine evRetainLapsed [captureNumber s, s.engine.retain.toNat]
        (s.onEngine fun e => { e with retainTimer := .ranOut, retain := 0 })).onCapture (markLapsed s.engine.retain) :=
  if_pos h

theorem markLapsed_eq (lines : BitVec 8) (c : Capture) :
    markLapsed lines c = { c with walk := c.walk.take c.position ++ (c.walk.drop c.position).map fun i =>
      match (c.entryOf i).retain with
      | some k => if lines.getLsbD k.val then { i with lapsed := true } else i
      | none => i } := by
  have hmark : ∀ i : WalkItem, (if (match (c.entryOf i).retain with
      | some k => lines.getLsbD k.val
      | none => false) = true then { i with lapsed := true } else i) =
      match (c.entryOf i).retain with
      | some k => if lines.getLsbD k.val then { i with lapsed := true } else i
      | none => i := by
    intro i
    cases (c.entryOf i).retain <;> rfl
  have hwalk : (c.walk.drop c.position).map (fun i => if (match (c.entryOf i).retain with
      | some k => lines.getLsbD k.val
      | none => false) = true then { i with lapsed := true } else i) = _ := List.map_congr_left fun i _ => hmark i
  exact congrArg (fun w => { c with walk := c.walk.take c.position ++ w }) hwalk

/-- Settles O27: each timer by whether it has run out. -/
theorem engineTimersRunOut : Obligations.EngineTimersRunOut := by
  refine ⟨fun s hp => ?_, fun s hp => ⟨fun t hrunning hdue => ?_, fun t hrunning hdue => ?_, fun hstill => ?_⟩⟩
  · intro done
    refine ⟨fun c e t hquiet => ?_, fun hquiet => ⟨?_, ?_⟩⟩
    · intro window quietMs
      have hquietMs : effectiveQuiet c e s = quietMs := effectiveQuiet_eq c e s
      have hexpired := quietExpired_of_some hquiet
      rw [hquietMs] at hexpired
      have hwindow := windowExpired_of_some hquiet
      refine ⟨fun h => ?_, fun h => ?_, fun h => ?_, fun h => ?_⟩
      · exact command_next (f := quietExpired) hp (hexpired.trans (if_pos h)) (frameOf_endComplete s)
      · exact command_next (f := quietExpired) hp (hexpired.trans (if_neg (Bool.eq_false_iff.mp h))) rfl
      · exact command_next (f := windowExpired) hp (hwindow.trans (if_pos h)) (frameOf_endComplete s)
      · exact command_next (f := windowExpired) hp (hwindow.trans (if_neg (Bool.eq_false_iff.mp h))) rfl
    · exact command_next (f := quietExpired) hp (quietExpired_of_none hquiet) rfl
    · exact command_next (f := windowExpired) hp (windowExpired_of_none hquiet) rfl
  · intro u
    have hran := retainExpired_of_due ((retainDue_of_running hrunning).trans hdue)
    refine ⟨fun hnone => ?_, fun hsome => ?_⟩
    · exact command_next (f := retainExpired) hp (hran.trans (if_pos hnone)) rfl
    · refine command_next (f := retainExpired) hp (hran.trans ((if_neg hsome).trans ?_)) (by simp [u])
      exact congrArg (fun f => State.onCapture f (post .engine evRetainLapsed [captureNumber s, s.engine.retain.toNat] u))
        (funext (markLapsed_eq s.engine.retain))
  · exact command_next (f := retainExpired) hp (if_neg (by rw [retainDue_of_running hrunning, hdue]; decide)) rfl
  · exact command_next (f := retainExpired) hp (if_neg (by rw [retainDue_of_still hstill]; decide)) rfl

/-! ## PANIC_NOTE, CAPTURE and ABORT_CAPTURE (R100, R101) -/

theorem captureNow_host_free {s : State} (h : s.trig.hostTimer = none) :
    captureNow .host [] s = sendCapture .host sourceHost s := by
  rw [captureNow, withLength_of_eq (n := 0) rfl]
  simp only [h]

theorem captureNow_host_held {s : State} {t : PartTime} (h : s.trig.hostTimer = some t) :
    captureNow .host [] s = refuseHoldoff .host t s := by
  rw [captureNow, withLength_of_eq (n := 0) rfl]
  simp only [h]

theorem captureNow_manual {p : PortId} (s : State) (h : p ≠ .host) : captureNow p [] s = sendCapture p sourceManual s := by
  cases p
  case host => exact absurd rfl h
  case management => rfl
  case service => rfl

theorem sendCapture_accept (p : PortId) (tag : Byte) (src : Nat) (s : State) :
    sendCapture p src (accept p kCapture tag s) = settle (trigger src (.port p) (inService p kCapture tag .trigger s)) := by
  rw [sendCapture, setWait_accept]

theorem frameOf_sent (p : PortId) (tag : Byte) (src : Nat) (s : State) :
    frameOf (settle (trigger src (.port p) (inService p kCapture tag .trigger s))) = frameOf s :=
  (frameOf_settle _).trans (frameOf_trigger _ _ _)

theorem abortCapture_idle {p : PortId} {payload : List Byte} {s : State} (hlen : payload.length = 4) (h : current s = none) :
    abortCapture p payload s = refuse p .refusedState s := by
  rw [abortCapture, withLength_of_eq hlen]
  simp only [h]

theorem abortCapture_current {p : PortId} {payload : List Byte} {s : State} {c : Capture} (hlen : payload.length = 4)
    (h : current s = some c) :
    abortCapture p payload s =
      if leNat payload ≠ 0 && leNat payload ≠ c.number then refuse p .notFound s
      else if s.monitor.state = .exhausted then refuse p .holdup s
      else settle (abortNow (setWait p (.close c.number) s)) := by
  rw [abortCapture, withLength_of_eq hlen, fieldAt_all payload 4 hlen]
  simp only [h]

theorem frameOf_settle_abortNow (s : State) : frameOf (settle (abortNow s)) = frameOf s := by simp

/-- Settles O28: PANIC_NOTE's fields, CAPTURE by its port and timer, ABORT_CAPTURE by the engine's state. -/
theorem engineRequestsAct : Obligations.EngineRequestsAct := by
  refine ⟨fun p tag payload s hs => ?_, fun p tag s hs => ⟨fun hhost hfree => ?_, fun hother => ?_, fun t hhost hheld => ?_⟩,
    fun p tag payload s hs hlen => ?_⟩
  · intro full text notes
    exact request_next (body := panicNote p payload) hs
      (post_answer_accept .engine _ _ p kPanicNote tag .ok _ _ (s.onEngine fun e => { e with notes := notes })) (by simp)
  · subst hhost
    exact request_next (body := captureNow .host []) hs
      ((captureNow_host_free (s := accept .host kCapture tag s) hfree).trans (sendCapture_accept _ tag _ s)) (frameOf_sent _ _ _ s)
  · exact request_next (body := captureNow p []) hs
      ((captureNow_manual _ hother).trans (sendCapture_accept p tag _ s)) (frameOf_sent _ _ _ s)
  · subst hhost
    exact request_next (body := captureNow .host []) hs
      ((captureNow_host_held (s := accept .host kCapture tag s) hheld).trans
        (post_answer_accept (.port .host) _ _ .host kCapture tag .refusedState false []
          (s.onTrig fun u => { u with hostRefusals := satInc u.hostRefusals }))) (by simp)
  · intro n
    have hnamed : ∀ c : Capture, n = 0 ∨ n = c.number → ¬ (decide (leNat payload ≠ 0) && decide (leNat payload ≠ c.number)) = true := by
      intro c hn h
      rw [Bool.and_eq_true, decide_eq_true_eq, decide_eq_true_eq] at h
      exact hn.elim h.1 h.2
    refine ⟨fun c hc hn hpower => ?_, fun c hc hzero hother => ?_, fun c hc hn hpower => ?_, fun hidle => ?_⟩
    · intro u
      have hbody : abortCapture p payload (accept p kAbortCapture tag s) = settle (abortNow u) := by
        refine (abortCapture_current (s := accept p kAbortCapture tag s) hlen hc).trans
          ((if_neg (hnamed c hn)).trans ((if_neg hpower).trans ?_))
        rw [setWait_accept]
      have hnext : ∀ v, abortNow u = v → exec (.abortCapture p tag payload) s = .next (settle v) := by
        rintro _ rfl
        exact request_next (body := abortCapture p payload) hs hbody (frameOf_settle_abortNow u)
      refine ⟨fun hstate => hnext _ (abortNow_gathering hstate), fun hstate => hnext _ (abortNow_opening hstate),
        fun hstate => hnext _ (abortNow_otherwise ?_ ?_)⟩
      · rw [show u.engine.state = .closing from hstate]
        decide
      · rw [show u.engine.state = .closing from hstate]
        decide
    · exact request_refused (body := abortCapture p payload) hs
        ((abortCapture_current (s := accept p kAbortCapture tag s) hlen hc).trans
          (if_pos (Bool.and_eq_true_iff.mpr ⟨decide_eq_true hzero, decide_eq_true hother⟩)))
    · exact request_refused (body := abortCapture p payload) hs
        ((abortCapture_current (s := accept p kAbortCapture tag s) hlen hc).trans ((if_neg (hnamed c hn)).trans (if_pos hpower)))
    · exact request_refused (body := abortCapture p payload) hs (abortCapture_idle (s := accept p kAbortCapture tag s) hlen hidle)

end Sys2Proof.Machine
end

