-- ==== Sys2Proof/Proofs/HoldupEpisodes.lean ====
section
/-! PROOFS. Sys2Proof/Proofs/HoldupEpisodes.lean: the tests on programs and the exhaustion test, and how episodes begin, are sampled
again and end (R106, R107, R110, R111, R114, R116). -/

namespace Sys2Proof.Machine

/-! ## The tests of R111 and R114 -/

theorem isNormal_eq_false {s : State} (h : s.monitor.state ≠ .normal) : isNormal s = false := decide_eq_false h

theorem programMayStart_of_normal (close : Bool) {s : State} (h : s.monitor.state = .normal) : programMayStart close s = true := by
  simp only [programMayStart, h]

theorem programMayStart_of_exhausted (close : Bool) {s : State} (h : s.monitor.state = .exhausted) :
    programMayStart close s = false := by
  simp only [programMayStart, h]

theorem programMayStart_of_episode (close : Bool) {s : State} (h : s.monitor.state = .holdup ∨ s.monitor.state = .recovering) :
    programMayStart close s = if close then decide (1 ≤ s.monitor.remaining) else decide (6 < s.monitor.remaining) := by
  rcases h with h | h <;> simp only [programMayStart, h] <;> rfl

theorem inProgress_iff (s : State) :
    inProgress s = true ↔ s.engine.state = .opening ∨ s.engine.state = .gathering ∨ s.engine.state = .closing := by
  unfold inProgress
  cases s.engine.state <;> simp

theorem closeUnpaid_iff (s : State) :
    closeUnpaid s = true ↔ inProgress s = true ∧
      (s.engine.stall = true ∨ ∃ c : Capture, s.engine.capture = some c ∧ c.closeOn = false) := by
  unfold closeUnpaid
  cases s.engine.capture <;> simp

theorem exhaustionHolds_iff (s : State) :
    exhaustionHolds s = true ↔ s.monitor.remaining = 0 ∨ (closeUnpaid s = true ∧ s.monitor.remaining < 6) := by
  rw [exhaustionHolds, Bool.or_eq_true_iff, Bool.and_eq_true_iff, decide_eq_true_eq, decide_eq_true_eq]
  rfl

/-- The monitor as the test leaves it in an episode. -/
def tested (holds : Bool) (s : State) : State := s.onMonitor fun m =>
  { m with exhaustOn := holds, state := if holds && m.state = .holdup then .exhausted else m.state }

theorem applyExhaustion_otherwise {s : State} (h : s.monitor.state = .normal ∨ s.monitor.state = .exhausted) :
    applyExhaustion s = s := by
  rcases h with h | h <;> simp only [applyExhaustion, h]

/-- In an episode, a test that does not hold clears its mark. -/
theorem applyExhaustion_fails {s : State} (h : s.monitor.state = .holdup ∨ s.monitor.state = .recovering)
    (hno : exhaustionHolds s = false) : applyExhaustion s = tested false s := by
  rcases h with h | h <;> simp [applyExhaustion, h, hno, tested]

/-- In an episode, a test that holds stalls a capture in progress and is posted when it comes to hold. -/
theorem applyExhaustion_holds {s : State} (h : s.monitor.state = .holdup ∨ s.monitor.state = .recovering)
    (hyes : exhaustionHolds s = true) :
    let t := if inProgress s then (tested true s).onEngine fun e => { e with stall := true } else tested true s
    applyExhaustion s = if s.monitor.exhaustOn then t
      else post .holdup evHoldupExhausted [t.monitor.remaining, captureNumber t] t := by
  rcases h with h | h <;> simp only [applyExhaustion, h, hyes, Bool.not_true, Bool.false_eq_true, if_false] <;> rfl

/-- The counts of an episode. -/
def episodeCounts (m : Monitor) : Nat × Nat × Nat × Nat := (m.remaining, m.programs, m.sinceVh, m.entry)

theorem episodeCounts_applyExhaustion (s : State) : episodeCounts (applyExhaustion s).monitor = episodeCounts s.monitor := by
  by_cases h : s.monitor.state = .holdup ∨ s.monitor.state = .recovering
  · cases hholds : exhaustionHolds s with
    | false =>
      rw [applyExhaustion_fails h hholds]
      rfl
    | true =>
      rw [applyExhaustion_holds h hholds]
      cases inProgress s <;> cases s.monitor.exhaustOn <;> rfl
  · rw [applyExhaustion_otherwise]
    cases hs : s.monitor.state <;> simp [hs] at h ⊢

/-- Settles O33: the tests by the monitor's state. -/
theorem holdupTestsAndDraws : Obligations.HoldupTestsAndDraws := by
  refine ⟨fun close s => ⟨programMayStart_of_normal close, programMayStart_of_exhausted close, fun h => ?_⟩,
    fun s => ⟨fun h => ?_, fun h => ?_⟩, fun s => ?_⟩
  · rw [programMayStart_of_episode close h]
    cases close <;> simp
  · exact if_pos (decide_eq_true h)
  · rw [drawProgram, isNormal_eq_false h, if_neg (by decide)]
    have hcounts := episodeCounts_applyExhaustion (s.onMonitor fun m =>
      { m with remaining := m.remaining - 1, programs := satInc m.programs, sinceVh := m.sinceVh + 1 })
    simp only [episodeCounts, Prod.mk.injEq] at hcounts
    exact hcounts
  · intro unpaid holds u
    have hholds : exhaustionHolds s = true ↔ holds := by
      rw [exhaustionHolds_iff, closeUnpaid_iff, inProgress_iff]
    refine ⟨applyExhaustion_otherwise, fun hepisode => ⟨fun h => ?_, fun h => ?_⟩⟩
    · have hu := applyExhaustion_holds hepisode (hholds.mpr h)
      have hmonitor : u.monitor = (tested true s).monitor := by
        refine (congrArg State.monitor hu).trans ?_
        cases inProgress s <;> cases s.monitor.exhaustOn <;> rfl
      have hstall : inProgress s = true → u.engine.stall = true := by
        intro hprog
        refine (congrArg (fun t => t.engine.stall) hu).trans ?_
        rw [if_pos hprog]
        cases s.monitor.exhaustOn <;> rfl
      have hring : u.ring = if s.monitor.exhaustOn then s.ring
          else (post .holdup 0x10 [s.monitor.remaining, captureNumber s] s).ring := by
        refine (congrArg State.ring hu).trans ?_
        cases inProgress s <;> cases s.monitor.exhaustOn <;> rfl
      refine ⟨?_, by rw [hmonitor]; rfl, hstall, hring⟩
      rw [hmonitor]
      rcases hepisode with hs | hs <;> simp [tested, hs]
    · have hu : u = _ := applyExhaustion_fails hepisode (Bool.eq_false_iff.mpr (mt hholds.mp h))
      rw [hu]
      exact ⟨by simp [tested], rfl, rfl, rfl⟩

/-! ## The beginning of an episode -/

theorem settingsErase_waits (s : State) :
    s.store.queue.contains (.erase .settings settingsBlock) = true ↔ QReq.erase .settings 2 ∈ s.store.queue := List.contains_iff_mem

theorem holdStore_of_waiting {s : State} (h : QReq.erase .settings 2 ∈ s.store.queue) :
    holdStore s = endStore .holdup [] (withdraw (.erase .settings settingsBlock) s) :=
  if_pos ((settingsErase_waits s).mpr h)

theorem holdStore_of_started {s : State} (h : QReq.erase .settings 2 ∉ s.store.queue) : holdStore s = s :=
  if_neg (mt (settingsErase_waits s).mp h)

theorem endStore_of_some {s : State} {op : StoreOp} (st : Status) (fields : List Byte) (h : s.link.store = some op) :
    endStore st fields s = answer op.port st false fields (s.onLink fun l => { l with store := none }) := by
  simp only [endStore, h]

theorem endStore_of_none {s : State} (st : Status) (fields : List Byte) (h : s.link.store = none) : endStore st fields s = s := by
  simp only [endStore, h]

/-- What a cancelled RESTART makes of its port. -/
def cancelledPort (q : Port) : Port :=
  match q.service with
  | some r => match r.wait with
    | .restartClose _ => { q with service := none, tx := q.tx ++ [mkReply r.kind r.tag .holdup false []] }
    | _ => q
  | none => q

theorem cancelledPort_of_closing {q : Port} {r : InService} {cap : Nat} (h : q.service = some r) (hw : r.wait = .restartClose cap) :
    cancelledPort q = { q with service := none, tx := q.tx ++ [mkReply r.kind r.tag .holdup false []] } := by
  simp only [cancelledPort, h, hw]

theorem cancelledPort_otherwise {q : Port} (h : ∀ (r : InService) (cap : Nat), q.service = some r → r.wait ≠ .restartClose cap) :
    cancelledPort q = q := by
  unfold cancelledPort
  split
  · rename_i r hr
    split
    · rename_i cap hw
      exact absurd hw (h r cap hr)
    · rfl
  · rfl

theorem vmod_id {α : Type} {n : Nat} (v : Vector α n) (i : Fin n) : vmod v i id = v := by
  apply Vector.ext
  intro j hj
  by_cases hij : j = i.val
  · subst hij
    exact vmod_get_same v i id
  · exact vmod_get_other v i ⟨j, hj⟩ id (by simpa [Fin.ext_iff] using hij)

theorem onPort_eq_self {p : PortId} {f : Port → Port} {s : State} (h : f (s.port p) = s.port p) : s.onPort p f = s := by
  rw [onPort_congr p f id s h, State.onPort, State.onLink, vmod_id]

/-- A port's part of the cancelling of RESTARTs. -/
def cancelAt (p : PortId) (s : State) : State :=
  match waitOf p s with
  | .restartClose _ => refuse p .holdup s
  | _ => s

theorem cancelAt_eq (p : PortId) (s : State) : cancelAt p s = s.onPort p cancelledPort := by
  cases hservice : (s.port p).service with
  | none =>
    rw [cancelAt, waitOf_of_idle hservice]
    exact (onPort_eq_self (cancelledPort_otherwise fun r cap hr => by rw [hservice] at hr; exact absurd hr (by simp))).symm
  | some r =>
    have hwait : waitOf p s = r.wait := by rw [waitOf, hservice]
    cases hw : r.wait
    case restartClose cap =>
      rw [cancelAt, hwait, hw]
      refine onPort_congr p _ _ s ?_
      rw [hservice, cancelledPort_of_closing hservice hw]
    all_goals
      rw [cancelAt, hwait, hw]
      refine (onPort_eq_self (cancelledPort_otherwise fun r' cap hr hclose => ?_)).symm
      rw [hservice] at hr
      rw [← Option.some.inj hr, hw] at hclose
      exact absurd hclose (by simp)

theorem cancelRestart_eq (s : State) :
    cancelRestart s = ((s.onPort .host cancelledPort).onPort .management cancelledPort).onPort .service cancelledPort := by
  rw [← cancelAt_eq, ← cancelAt_eq, ← cancelAt_eq]
  rfl

theorem port_cancelRestart (p : PortId) (s : State) : (cancelRestart s).port p = cancelledPort (s.port p) := by
  rw [cancelRestart_eq]
  cases p <;> simp [port_onPort_same, port_onPort_other]

/-! ## The power stall -/

theorem reclosed_eq (cap : Nat) (o : OutcomeCode) (r : JRec) : r.reclosed cap o = match r with
    | .captureClose n old t g h => .captureClose n (if n = cap then o else old) t g h
    | r => r := by
  cases r <;> rfl

theorem reformClose_of_none {s : State} (h : s.engine.capture = none) : reformClose s = s := by
  simp only [reformClose, h]

theorem reformClose_of_some {s : State} {c : Capture} (h : s.engine.capture = some c) :
    reformClose s = s.onDir fun d =>
      { d with
        slotted := d.slotted.map fun x =>
          if x.flying then x else { x with record := x.record.reclosed c.number (captureOutcome s.engine.cause c) }
        pending := d.pending.map fun x => (x.1.reclosed c.number (captureOutcome s.engine.cause c), x.2) } := by
  simp only [reformClose, h]

theorem engine_reformClose (s : State) : (reformClose s).engine = s.engine := by
  cases h : s.engine.capture with
  | none => rw [reformClose_of_none h]
  | some c =>
    rw [reformClose_of_some h]
    rfl

/-- What a cleared stall leaves for the close to go on with. -/
def unstalled (s : State) : State :=
  reformClose ((s.onCapture fun c => { c with closeOn := false }).onEngine fun g => { g with stall := false, cause := .power })

theorem closeOpening_of_cause (k : CloseCause) {s : State} (h : s.engine.cause ≠ .none) :
    closeOpening k s = s.onEngine fun g => { g with state := .closing } := by
  have hcause : setCause k s = s := by
    rw [setCause, State.onEngine, if_neg h]
  rw [closeOpening, hcause, setEngState]

theorem clearStall_of_stalled {s : State} (h : s.engine.stall = true) :
    clearStall s = match s.engine.state with
      | .opening => closeOpening .power (unstalled s)
      | .gathering => closeEarly .power .skippedPower (unstalled s)
      | .closing | .idle | .erasing => unstalled s := by
  have hstate : (unstalled s).engine.state = s.engine.state := by
    rw [unstalled, engine_reformClose]
    rfl
  rw [← hstate]
  exact if_pos h

theorem clearStall_of_free {s : State} (h : s.engine.stall = false) :
    clearStall s = s.onCapture fun c => { c with closeOn := false } := if_neg (Bool.eq_false_iff.mp h)

/-! ## The commands -/

theorem pfailAsserted_normal (vhold : Nat) {s : State} (h : s.monitor.state = .normal) :
    pfailAsserted vhold s = beginEpisode vhold s := by
  simp only [pfailAsserted, h]

theorem pfailAsserted_recovering (vhold : Nat) {s : State} (h : s.monitor.state = .recovering) :
    pfailAsserted vhold s = settle (applyExhaustion (s.onMonitor fun m => { m with state := .holdup, debounceAt := none })) := by
  simp only [pfailAsserted, h]

theorem pfailAsserted_otherwise (vhold : Nat) {s : State} (h : s.monitor.state = .holdup ∨ s.monitor.state = .exhausted) :
    pfailAsserted vhold s = s := by
  rcases h with h | h <;> simp only [pfailAsserted, h]

theorem pfailReleased_below {s : State} (h : s.monitor.state = .holdup ∨ s.monitor.state = .exhausted) :
    pfailReleased s = s.onMonitor fun m =>
      { m with state := .recovering, debounceAt := some (after s.time (usPerMs * s.settings.debounce)) } := by
  rcases h with h | h <;> simp only [pfailReleased, h]

theorem pfailReleased_otherwise {s : State} (h : s.monitor.state = .normal ∨ s.monitor.state = .recovering) :
    pfailReleased s = s := by
  rcases h with h | h <;> simp only [pfailReleased, h]

theorem debounceDue_of_running {s : State} {t : PartTime} (h : s.monitor.debounceAt = some t) :
    debounceDue s = (decide (s.monitor.state = .recovering) && reached s.time t) := by
  simp only [debounceDue, h]

theorem resampleDue_iff (s : State) : resampleDue s = true ↔
    (s.monitor.state = .holdup ∨ s.monitor.state = .recovering) ∧ 32 ≤ s.monitor.sinceVh := by
  rw [resampleDue, Bool.and_eq_true, Bool.or_eq_true_iff, decide_eq_true_eq, decide_eq_true_eq, decide_eq_true_eq]
  rfl

/-- Settles O32: each command of the monitor by its state, and the parts of an episode's beginning and end. -/
theorem episodesBeginEndAndAreResampled : Obligations.EpisodesBeginEndAndAreResampled := by
  refine ⟨fun vhold s hp => ?_, fun s hp => ?_, fun s hp => ⟨fun t hstate ht hr => ?_, fun t ht hr => ?_, fun hstate => ?_⟩,
    fun vhold s hp => ?_, fun s => ?_, fun s => ?_, fun s => ⟨reformClose_of_none, fun c hc => ?_⟩,
    fun s => ⟨clearStall_of_free, fun hstall => ?_⟩, fun s => rfl⟩
  · intro u vh a
    have hu : u.powered = true := hp
    refine ⟨fun h => ?_, fun h => ?_, fun h => ?_⟩
    · exact command_next (f := pfailAsserted vhold) hu (pfailAsserted_normal vhold h) (frameOf_beginEpisode vhold u)
    · exact command_next (f := pfailAsserted vhold) hu (pfailAsserted_recovering vhold h)
        ((frameOf_settle _).trans (frameOf_applyExhaustion _))
    · exact command_next (f := pfailAsserted vhold) hu (pfailAsserted_otherwise vhold h) rfl
  · intro u
    have hu : u.powered = true := hp
    refine ⟨fun h => ?_, fun h => ?_⟩
    · exact command_next (f := pfailReleased) hu (pfailReleased_below h) rfl
    · exact command_next (f := pfailReleased) hu (pfailReleased_otherwise h) rfl
  · refine command_next (f := powerRestored) hp (if_pos ?_) (by simp)
    rw [debounceDue_of_running ht, hr, decide_eq_true hstate]
    rfl
  · refine command_next (f := powerRestored) hp (if_neg ?_) rfl
    rw [debounceDue_of_running ht, hr, Bool.and_false]
    decide
  · refine command_next (f := powerRestored) hp (if_neg ?_) rfl
    rw [debounceDue, decide_eq_false hstate, Bool.false_and]
    decide
  · intro due vh rem
    refine ⟨fun h => ?_, fun h => ?_⟩
    · exact command_next (f := holdupResampled vhold) hp (if_pos ((resampleDue_iff s).mpr h)) (by simp)
    · exact command_next (f := holdupResampled vhold) hp (if_neg (mt (resampleDue_iff s).mp h)) rfl
  · intro stands t
    refine ⟨fun h op hop => ?_, fun h hnone => ?_, holdStore_of_started⟩
    · exact (holdStore_of_waiting h).trans (endStore_of_some .holdup [] hop)
    · exact (holdStore_of_waiting h).trans (endStore_of_none .holdup [] hnone)
  · intro u
    refine ⟨?_, fun p => ⟨fun r cap hr hw => ?_, fun h => ?_⟩⟩
    · have hu : u = _ := cancelRestart_eq s
      rw [hu]
      rfl
    · exact (port_cancelRestart p s).trans (cancelledPort_of_closing hr hw)
    · exact (port_cancelRestart p s).trans (cancelledPort_otherwise h)
  · intro now
    have hnow : ∀ r : JRec, r.reclosed c.number (captureOutcome s.engine.cause c) = now r := fun r => reclosed_eq _ _ r
    clear_value now
    rw [reformClose_of_some hc]
    simp only [hnow]
    rfl
  · intro t
    have hclear := clearStall_of_stalled hstall
    refine ⟨fun h => ?_, fun h => ?_, fun hopening hgathering => ?_⟩
    · rw [hclear, h]
      refine closeOpening_of_cause .power ?_
      rw [unstalled, engine_reformClose]
      exact CloseCause.noConfusion
    · rw [hclear, h]
      rfl
    · rw [hclear]
      cases h : s.engine.state
      case opening => exact absurd h hopening
      case gathering => exact absurd h hgathering
      all_goals rfl

end Sys2Proof.Machine
end

