-- ==== Sys2Proof/Proofs/PiecesAndRecords.lean ====
section
/-! PROOFS. Sys2Proof/Proofs/PiecesAndRecords.lean: the pieces and records that the engine takes, and how a fetch channel goes on
(R43, R49, R58, R59, R87, R88). -/

namespace Sys2Proof.Machine

/-! ## The section that takes -/

/-- The section that may take more is the one that gathers. -/
theorem takingSection_gathering {kind : SecKind} {s : State} {c : Capture} {x : Section} {e : PlanEntry} {ch : Fin 4}
    (h : takingSection kind s = some (c, x, e, ch)) : gathering s = some (c, x, e) := by
  unfold takingSection at h
  split at h
  · rename_i c' x' e' hg
    split at h
    · split at h
      · simp only [Option.some.injEq, Prod.mk.injEq] at h
        obtain ⟨rfl, rfl, rfl, -⟩ := h
        exact hg
      · exact absurd h (by simp)
    · exact absurd h (by simp)
  · exact absurd h (by simp)

theorem onSection_congr {f g : Section → Section} {s : State} {c : Capture} {x : Section} (hc : current s = some c)
    (hx : c.current = some x) (h : f x = g x) : s.onSection f = s.onSection g := by
  have hcapture : s.engine.capture = some c := (current_of_inProgress (inProgress_of_current hc)).symm.trans hc
  have hcurrent : c.current.map f = c.current.map g := by rw [hx, Option.map_some, Option.map_some, h]
  simp only [State.onSection, State.onCapture, State.onEngine, hcapture, Option.map_some, hcurrent]

/-! ## Pieces (R58, R59, R87) -/

theorem pieceTaken_of_none {s : State} (h : takingSection .fetch s = none) : pieceTaken s = s := by
  simp only [pieceTaken, h]

theorem pieceTaken_of_some {s : State} {c : Capture} {x : Section} {e : PlanEntry} {ch : Fin 4} {piece : Piece} {r : Region}
    (h : takingSection .fetch s = some (c, x, e, ch)) (hpiece : (s.fetches[ch]).piece = some piece)
    (hregion : (s.fetches[ch]).region = some r) :
    pieceTaken s = if roomNow s < pieceLen piece then settle s
      else settle (advanceRegion ch ((s.onSection fun y => { placePiece piece y with ended := regionEnd r }).onFetch ch
        fun f => { f with piece := none })) := by
  simp only [pieceTaken, h, hpiece, hregion]

theorem joinGap_joined {gaps : List Gap} {g h : Gap} (hlast : gaps.getLast? = some h) (hreason : h.reason = g.reason)
    (hcontinues : (g.reason = .denied ∧ g.offset = h.offset) ∨ (g.reason = .unreadable ∧ g.offset = h.offset + h.len)) :
    joinGap gaps g = gaps.dropLast ++ [{ h with len := h.len + g.len }] := by
  unfold joinGap
  rw [hlast]
  rcases hcontinues with ⟨hg, hoffset⟩ | ⟨hg, hoffset⟩ <;> simp [hreason, hg, hoffset]

theorem joinGap_apart {gaps : List Gap} {g : Gap}
    (h : ∀ k : Gap, gaps.getLast? = some k → k.reason ≠ g.reason ∨ (g.reason = .denied ∧ g.offset ≠ k.offset) ∨
      (g.reason = .unreadable ∧ g.offset ≠ k.offset + k.len)) : joinGap gaps g = gaps ++ [g] := by
  unfold joinGap
  cases hlast : gaps.getLast? with
  | none =>
    rw [List.getLast?_eq_none_iff.mp hlast]
    rfl
  | some k =>
    refine if_neg ?_
    rcases h k hlast with hreason | ⟨hg, hoffset⟩ | ⟨hg, hoffset⟩
    · simp [hreason]
    · simp [hg, hoffset]
    · simp [hg, hoffset]

theorem placePiece_omission {x : Section} {n : Nat} {gaps : List Gap}
    (h : joinGap x.gaps { offset := x.dataSoFar, len := n, reason := .denied } = gaps) :
    placePiece (.omission n) x = { x with gaps := gaps } := by
  subst h
  rfl

theorem placePiece_unreadable {x : Section} {bytes : List Byte} {gaps : List Gap}
    (h : joinGap x.gaps { offset := x.dataSoFar, len := bytes.length, reason := .unreadable } = gaps) :
    placePiece (.data false bytes) x = { x with toPlace := bytes, gaps := gaps } := by
  subst h
  rfl

/-! ## Records (R43, R88) -/

theorem recordTaken_of_none {s : State} (h : takingSection .stream s = none) : recordTaken s = s := by
  simp only [recordTaken, h]

theorem recordTaken_of_empty {s : State} {c : Capture} {x : Section} {e : PlanEntry} {ch : Fin 4}
    (h : takingSection .stream s = some (c, x, e, ch)) (hfifo : (s.streams[ch]).fifo = []) : recordTaken s = s := by
  simp only [recordTaken, h, hfifo]

theorem recordTaken_of_head {s : State} {c : Capture} {x : Section} {e : PlanEntry} {ch : Fin 4} {r : StreamRec}
    {rest : List StreamRec} (h : takingSection .stream s = some (c, x, e, ch)) (hfifo : (s.streams[ch]).fifo = r :: rest) :
    recordTaken s = if e.limit < x.dataSoFar + r.size then settle (s.onSection fun y => { y with ended := some .limited })
      else if roomNow s < r.size then settle s
      else settle ((s.onStream ch fun f => { f with fifo := rest, taken := satInc f.taken }).onSection fun y =>
        { y with toPlace := r.bytes, records := y.records + 1, gaps := y.gaps ++ overrunGap y.dataSoFar r
                 quietAt := if rest.isEmpty then some s.time else none }) := by
  simp only [recordTaken, h, hfifo]
  rfl

/-! ## How a channel goes on (R49, R58) -/

theorem advanceRegion_of_none {ch : Fin 4} {s : State} (h : (s.fetches[ch]).region = none) :
    advanceRegion ch s = s.onFetch ch fun f => { f with state := .idle } := by
  simp only [advanceRegion, h]

theorem advanceRegion_of_end {ch : Fin 4} {s : State} {r : Region} (h : (s.fetches[ch]).region = some r) (hruns : r.runs = []) :
    advanceRegion ch s = s.onFetch ch fun f => { f with state := .idle, region := none } := by
  simp only [advanceRegion, h, hruns]

theorem advanceRegion_of_deny {ch : Fin 4} {s : State} {r : Region} {x : Run} {rest : List Run}
    (h : (s.fetches[ch]).region = some r) (hruns : r.runs = x :: rest) (hx : x.permit = .deny) :
    advanceRegion ch s = s.onFetch ch fun f =>
      { f with state := .delivering, piece := some (.omission x.len), region := some { r with runs := rest } } := by
  simp only [advanceRegion, h, hruns, hx]

theorem advanceRegion_of_read {ch : Fin 4} {s : State} {r : Region} {x : Run} {rest : List Run}
    (h : (s.fetches[ch]).region = some r) (hruns : r.runs = x :: rest) (hx : x.permit = .read) :
    advanceRegion ch s = startAttempt ch r.space x.start (min pieceMax x.len) 1 (s.onFetch ch fun f =>
      { f with region := some { r with runs := if x.len ≤ min pieceMax x.len then rest
                                               else { x with start := x.start + min pieceMax x.len
                                                             len := x.len - min pieceMax x.len } :: rest } }) := by
  simp only [advanceRegion, h, hruns, hx]

/-- Settles O26: what is taken, by the section, the room and what waits. -/
theorem engineTakesPiecesAndRecords : Obligations.EngineTakesPiecesAndRecords := by
  refine ⟨fun s hp => ⟨fun c x e ch piece r htaking hpiece hregion => ?_, fun hnone => ?_⟩,
    fun s hp => ⟨fun c x e ch r rest htaking hfifo => ?_, fun c x e ch htaking hfifo => ?_, fun hnone => ?_⟩,
    fun x n bytes => ?_, fun ch s => ?_⟩
  · have htaken := pieceTaken_of_some htaking hpiece hregion
    refine ⟨fun hroom => ?_, fun hroom => ?_⟩
    · exact command_next (f := pieceTaken) hp (htaken.trans (if_neg (Nat.not_lt.mpr hroom))) (by simp)
    · exact command_next (f := pieceTaken) hp (htaken.trans (if_pos hroom)) (frameOf_settle s)
  · exact command_next (f := pieceTaken) hp (pieceTaken_of_none hnone) rfl
  · have htaken := recordTaken_of_head htaking hfifo
    refine ⟨fun hlimit => ?_, fun hlimit hroom => ?_, fun hlimit hroom => ?_⟩
    · exact command_next (f := recordTaken) hp (htaken.trans (if_pos hlimit)) (by simp)
    · obtain ⟨hc, -, hx, -⟩ := gathering_some c s x e (takingSection_gathering htaking)
      refine command_next (f := recordTaken) hp
        (htaken.trans ((if_neg (Nat.not_lt.mpr hlimit)).trans ((if_neg (Nat.not_lt.mpr hroom)).trans ?_))) (by simp)
      exact congrArg settle (onSection_congr (s := s.onStream ch _) hc hx rfl)
    · exact command_next (f := recordTaken) hp
        (htaken.trans ((if_neg (Nat.not_lt.mpr hlimit)).trans (if_pos hroom))) (frameOf_settle s)
  · exact command_next (f := recordTaken) hp (recordTaken_of_empty htaking hfifo) rfl
  · exact command_next (f := recordTaken) hp (recordTaken_of_none hnone) rfl
  · intro here last joined
    refine ⟨rfl, fun h hlast hreason hoffset => ?_, fun h => ?_, fun h hlast hreason hoffset => ?_, fun h => ?_⟩
    · exact placePiece_omission (joinGap_joined hlast hreason (.inl ⟨rfl, hoffset.symm⟩))
    · exact placePiece_omission (joinGap_apart fun k hk => (h k hk).imp id fun hne => .inl ⟨rfl, Ne.symm hne⟩)
    · exact placePiece_unreadable (joinGap_joined hlast hreason (.inr ⟨rfl, hoffset.symm⟩))
    · exact placePiece_unreadable (joinGap_apart fun k hk => (h k hk).imp id fun hne => .inr ⟨rfl, Ne.symm hne⟩)
  · intro c
    refine ⟨advanceRegion_of_none, fun r hr hruns => advanceRegion_of_end hr hruns, fun r x rest hr hruns =>
      ⟨advanceRegion_of_deny hr hruns, fun hx => ?_⟩⟩
    intro n covered
    rw [advanceRegion_of_read hr hruns hx, startAttempt, onFetch_onFetch]
    have hn : min pieceMax x.len = n := by
      show min 64 x.len = if x.len < 64 then x.len else 64
      split <;> omega
    have hleft : (if x.len ≤ n then rest else { x with start := x.start + n, len := x.len - n } :: rest) =
        if x.len ≤ 64 then rest else { x with start := x.start + 64, len := x.len - 64 } :: rest := by
      by_cases h : x.len ≤ 64
      · rw [if_pos h, if_pos (by rw [← hn]; simp [pieceMax, h])]
      · have hlarge : n = 64 := by rw [← hn]; exact min_eq_left (by unfold pieceMax; omega)
        rw [if_neg h, hlarge, if_neg h]
    rw [hn, hleft]
    rfl

end Sys2Proof.Machine
end

