-- ==== Sys2Proof/Proofs/TriggerRefusals.lean ====
section
/-! PROOFS. Sys2Proof/Proofs/TriggerRefusals.lean: what a trigger meets in ERASING and in IDLE, and what the engine needs to open a
capture (R79, R145). -/

namespace Sys2Proof.Machine

/-! ## Blocks and slots to have -/

theorem mem_blocksWhere (q : BlockState → Bool) (s : State) (b : Nat) :
    b ∈ blocksWhere q s ↔ ∃ i : Fin 60, q s.store.blocks[i] = true ∧ b = 4 + i.val := by
  have hget : ∀ i : Fin 60, s.store.blocks.toList[i.val]? = some s.store.blocks[i] := fun i => by simp
  rw [blocksWhere, List.mem_filterMap]
  constructor
  · rintro ⟨n, hn, hb⟩
    have hget := hget ⟨n, List.mem_range.mp hn⟩
    simp only at hget
    rw [hget] at hb
    by_cases hq : q s.store.blocks[(⟨n, List.mem_range.mp hn⟩ : Fin 60)] = true
    · simp only [hq, if_true, Option.some.injEq] at hb
      exact ⟨⟨n, List.mem_range.mp hn⟩, hq, hb.symm⟩
    · simp only [hq, Bool.false_eq_true, if_false, reduceCtorEq] at hb
  · rintro ⟨i, hq, rfl⟩
    refine ⟨i.val, List.mem_range.mpr i.isLt, ?_⟩
    simp only [hget i, hq, if_true]
    rfl

theorem blocksWhere_isEmpty (q : BlockState → Bool) (s : State) :
    (!(blocksWhere q s).isEmpty) = true ↔ ∃ i : Fin 60, q s.store.blocks[i] = true := by
  rw [Bool.not_eq_true', List.isEmpty_eq_false_iff_exists_mem]
  simp only [mem_blocksWhere]
  exact ⟨fun ⟨_, i, hq, _⟩ => ⟨i, hq⟩, fun ⟨i, hq⟩ => ⟨_, i, hq, rfl⟩⟩

theorem mem_liveBlocks (s : State) (e : DirEntry) (b : Nat) :
    b ∈ liveBlocks s e ↔ ∃ i : Fin 60, s.store.blocks[i] = .allotted e.cap ∧ b = 4 + i.val ∧ some b ∈ e.blocks := by
  rw [liveBlocks, List.mem_filter, mem_blocksWhere]
  simp only [decide_eq_true_eq, List.contains_iff_mem]
  exact ⟨fun ⟨⟨i, hi, hb⟩, hmem⟩ => ⟨i, hi, hb, hmem⟩, fun ⟨i, hi, hb, hmem⟩ => ⟨⟨i, hi, hb⟩, hmem⟩⟩

theorem liveBlocks_isEmpty (s : State) (e : DirEntry) : (!(liveBlocks s e).isEmpty) = true ↔
    ∃ i : Fin 60, s.store.blocks[i] = .allotted e.cap ∧ some (4 + i.val) ∈ e.blocks := by
  rw [Bool.not_eq_true', List.isEmpty_eq_false_iff_exists_mem]
  simp only [mem_liveBlocks]
  exact ⟨fun ⟨b, i, hi, hb, hmem⟩ => ⟨i, hi, hb ▸ hmem⟩, fun ⟨i, hi, hmem⟩ => ⟨_, i, hi, rfl, hmem⟩⟩

theorem slotIsFree_iff (x : DirSlot) : slotIsFree x = true ↔ x = .free := by
  cases x <;> simp [slotIsFree]

theorem lowestFreeSlot_isSome (d : Directory) : (lowestFreeSlot d).isSome = true ↔ ∃ i : Fin 32, d.slots[i] = .free := by
  rw [lowestFreeSlot, List.findIdx?_isSome, List.any_eq_true]
  simp only [slotIsFree_iff, Vector.mem_toList_iff]
  constructor
  · rintro ⟨x, hx, rfl⟩
    obtain ⟨i, hi, h⟩ := Vector.mem_iff_getElem.mp hx
    exact ⟨⟨i, hi⟩, h⟩
  · rintro ⟨i, h⟩
    exact ⟨_, Vector.getElem_mem i.isLt, h⟩

/-- What reclamation may choose while no capture is in progress. -/
theorem isReclaimable_iff {s : State} (hidle : inProgress s = false) (e : DirEntry) :
    isReclaimable s e = true ↔ (e.state = .closed ∨ e.state = .interrupted) ∧ e.held = false ∧ holdPending e.cap s = false ∧
      committingCap e.cap s = false := by
  have hcurrent : isCurrent e.cap s = false := by rw [isCurrent, hidle, Bool.false_and]
  simp [isReclaimable, hcurrent, and_assoc]

theorem slotToHave_iff (s : State) : slotToHave s = true ↔
    (∃ i : Fin 32, s.dir.slots[i] = .free) ∨ ∃ e, e ∈ entriesOf s.dir ∧ isReclaimable s e = true := by
  rw [slotToHave, Bool.or_eq_true_iff, lowestFreeSlot_isSome, reclaimable, List.find?_isSome]
  simp only [mem_entriesByCap]

theorem blockToHave_iff (s : State) : blockToHave s = true ↔
    (∃ i : Fin 60, s.store.blocks[i] = .free ∨ s.store.blocks[i] = .erasing ∨
      (s.monitor.state = .normal ∧ s.store.blocks[i] = .dirty)) ∨
    ∃ e, (e ∈ entriesOf s.dir ∧ isReclaimable s e = true) ∧
      ∃ i : Fin 60, s.store.blocks[i] = .allotted e.cap ∧ some (4 + i.val) ∈ e.blocks := by
  rw [blockToHave, Bool.or_eq_true_iff, blocksWhere_isEmpty, List.any_eq_true]
  simp only [mem_entriesByCap, Bool.and_eq_true, liveBlocks_isEmpty, isNormal, Bool.or_eq_true_iff, decide_eq_true_eq, or_assoc,
    and_assoc]

/-! ## The refusal -/

theorem onTerm_congr {n : Fin 8} {f g : Term → Term} (s : State) (h : ∀ t, f t = g t) : onTerm n f s = onTerm n g s :=
  congrArg (fun k => onTerm n k s) (funext h)

/-- The sender of a refused trigger is told. -/
theorem refuseTrigger_tells (src : Nat) (who : Sender) (r : Refuse) (s : State) :
    let u := post .engine 0x03 [r.code, src] (s.onEngine (countRefusal r))
    (who = .monitor → refuseTrigger src who r s = u) ∧
    (∀ p : PortId, who = .port p → refuseTrigger src who r s = answer p r.status false [] u) ∧
    (∀ n : Fin 8, who = .term n → refuseTrigger src who r s = onTerm n (fun t =>
      { t with assoc := none
               rearmAt := if t.state = .fired ∧ (s.settings.terms[n]).rearm ≠ 0
                 then some (after s.time (1000000 * (s.settings.terms[n]).rearm)) else t.rearmAt }) u) := by
  intro u
  refine ⟨fun h => by subst h; rfl, fun p h => by subst h; rfl, fun n h => ?_⟩
  subst h
  show startRearm n (onTerm n (fun t => { t with assoc := none }) u) = _
  rw [startRearm, onTerm_onTerm]
  refine onTerm_congr u fun t => ?_
  show (if (decide (t.state = .fired) && decide ((s.settings.terms[n]).rearm ≠ 0)) = true then
    { t with assoc := none, rearmAt := secondsFrom s.time (s.settings.terms[n]).rearm } else { t with assoc := none }) = _
  by_cases hfired : t.state = .fired ∧ (s.settings.terms[n]).rearm ≠ 0
  · rw [if_pos (by simpa using hfired), if_pos hfired, secondsFrom, if_neg hfired.2]
    rfl
  · rw [if_neg (by simpa using hfired), if_neg hfired]

theorem trigger_erasing (src : Nat) (who : Sender) {s : State} (h : s.engine.state = .erasing) :
    trigger src who s = refuseTrigger src who .erasing s := by
  simp only [trigger, h]

theorem trigger_refused (src : Nat) (who : Sender) {s : State} {r : Refuse} (h : s.engine.state = .idle) (hready : s.ready = true)
    (hr : refusalReason s = some r) : trigger src who s = refuseTrigger src who r s := by
  simp only [trigger, h, hready, hr, Bool.not_true, Bool.false_eq_true, if_false]

theorem inProgress_of_idle {s : State} (h : s.engine.state = .idle) : inProgress s = false := by
  simp only [inProgress, h]

/-- Settles O23: the reasons in the order of R79. -/
theorem triggerIsRefusedForTheFirstReason : Obligations.TriggerIsRefusedForTheFirstReason := by
  intro src who s refused spare numbers power slot block
  refine ⟨fun herasing => ?_, fun hidle hready => ?_⟩
  · have htells := refuseTrigger_tells src who .erasing s
    rw [← trigger_erasing src who herasing] at htells
    exact htells
  · have hrefused : ∀ r : Refuse, refusalReason s = some r → refused r.code r.status (countRefusal r) := by
      intro r hr
      have htells := refuseTrigger_tells src who r s
      rw [← trigger_refused src who hidle hready hr] at htells
      exact htells
    have hspare : ∀ e, (e ∈ entriesOf s.dir ∧ isReclaimable s e = true) ↔ spare e := fun e =>
      and_congr_right fun _ => isReclaimable_iff (inProgress_of_idle hidle) e
    have hpower : (!isNormal s && decide (s.monitor.remaining < openingPrograms)) = true ↔ power := by
      rw [isNormal, Bool.and_eq_true, Bool.not_eq_true', decide_eq_false_iff_not, decide_eq_true_eq]
      rfl
    have hslot : (!slotToHave s) = true ↔ ¬ slot := by
      rw [Bool.not_eq_true', ← Bool.not_eq_true, slotToHave_iff]
      simp only [hspare]
      rfl
    have hblock : (!blockToHave s) = true ↔ ¬ block := by
      rw [Bool.not_eq_true', ← Bool.not_eq_true, blockToHave_iff]
      simp only [hspare]
      exact not_congr (or_congr Iff.rfl (exists_congr fun e => exists_and_left.symm))
    have hslotOk : slot → ¬ (!slotToHave s) = true := fun h hno => hslot.mp hno h
    have hblockOk : block → ¬ (!blockToHave s) = true := fun h hno => hblock.mp hno h
    have hnumbers : numbers → refusalReason s = some .numbers := fun h => if_pos h
    have hpowerReason : ¬ numbers → power → refusalReason s = some .power := fun hn h =>
      (if_neg hn).trans (if_pos (hpower.mpr h))
    have hslotReason : ¬ numbers → ¬ power → ¬ slot → refusalReason s = some .full := fun hn hp h =>
      (if_neg hn).trans ((if_neg (mt hpower.mp hp)).trans (if_pos (hslot.mpr h)))
    have hblockReason : ¬ numbers → ¬ power → slot → ¬ block → refusalReason s = some .full := fun hn hp hs h =>
      (if_neg hn).trans ((if_neg (mt hpower.mp hp)).trans ((if_neg (hslotOk hs)).trans (if_pos (hblock.mpr h))))
    refine ⟨fun h => hrefused _ (hnumbers h), fun hn h => hrefused _ (hpowerReason hn h),
      fun hn hp h => hrefused _ (hslotReason hn hp h), fun hn hp hs h => hrefused _ (hblockReason hn hp hs h), fun hnone => ?_,
      fun ⟨hn, hp, hs, hb⟩ => ?_⟩
    · have hn : ¬ numbers := fun h => by simp [hnumbers h] at hnone
      have hp : ¬ power := fun h => by simp [hpowerReason hn h] at hnone
      have hs : slot := by_contra fun h => by simp [hslotReason hn hp h] at hnone
      have hb : block := by_contra fun h => by simp [hblockReason hn hp hs h] at hnone
      exact ⟨hn, hp, hs, hb⟩
    · exact (if_neg hn).trans ((if_neg (mt hpower.mp hp)).trans ((if_neg (hslotOk hs)).trans (if_neg (hblockOk hb))))

end Sys2Proof.Machine
end

