-- ==== Sys2Proof/Proofs/Openings.lean ====
section
/-! PROOFS. Sys2Proof/Proofs/Openings.lean: the order of walk entries, what opening and joining a capture do to each block, and the
triggers that are admitted (R44, R74, R75, R80, R83, R98). -/

namespace Sys2Proof.Machine

/-! ## The order of walk entries (R74) -/

/-- The sort key of an entry: class rank, order field, index. -/
def sortKey (p : Plan) (a : Fin 48) : Nat ×ₗ Nat ×ₗ Nat := toLex (p.entries[a].cls.rank, toLex (p.entries[a].order, a.val))

theorem keyLess_iff (p : Plan) (a b : Fin 48) : keyLess p a b = true ↔ sortKey p a < sortKey p b := by
  simp [keyLess, sortKey, Prod.Lex.toLex_lt_toLex]

theorem keyLess_trans {p : Plan} {a b c : Fin 48} (hab : keyLess p a b = true) (hbc : keyLess p b c = true) :
    keyLess p a c = true :=
  (keyLess_iff p a c).mpr (((keyLess_iff p a b).mp hab).trans ((keyLess_iff p b c).mp hbc))

theorem keyLess_of_not {p : Plan} {a b : Fin 48} (hne : b ≠ a) (h : ¬ keyLess p a b = true) : keyLess p b a = true := by
  rw [keyLess_iff] at h ⊢
  refine lt_of_le_of_ne (not_lt.mp h) fun heq => hne ?_
  have hval : b.val = a.val := congrArg (fun k : Nat ×ₗ Nat ×ₗ Nat => (ofLex (ofLex k).2).2) heq
  exact Fin.ext hval

theorem mem_insertByKey (p : Plan) (i : WalkItem) (w : List WalkItem) (x : WalkItem) :
    x ∈ insertByKey p i w ↔ x = i ∨ x ∈ w := by
  induction w with
  | nil => simp [insertByKey]
  | cons y ys ih =>
    rw [insertByKey]
    split
    · rw [List.mem_cons]
    · rw [List.mem_cons, ih, List.mem_cons]
      exact or_left_comm

theorem pairwise_insertByKey (p : Plan) (i : WalkItem) (w : List WalkItem)
    (hw : w.Pairwise fun x y => keyLess p x.entry y.entry = true) (hi : ∀ x ∈ w, x.entry ≠ i.entry) :
    (insertByKey p i w).Pairwise fun x y => keyLess p x.entry y.entry = true := by
  induction w with
  | nil => exact List.pairwise_singleton _ _
  | cons y ys ih =>
    obtain ⟨hy, hys⟩ := List.pairwise_cons.mp hw
    rw [insertByKey]
    split
    · rename_i hless
      refine List.pairwise_cons.mpr ⟨fun x hx => ?_, hw⟩
      rcases List.mem_cons.mp hx with rfl | hx
      · exact hless
      · exact keyLess_trans hless (hy x hx)
    · rename_i hnot
      refine List.pairwise_cons.mpr ⟨fun x hx => ?_, ih hys fun x hx => hi x (List.mem_cons_of_mem y hx)⟩
      rcases (mem_insertByKey p i ys x).mp hx with rfl | hx
      · exact keyLess_of_not (hi y List.mem_cons_self) hnot
      · exact hy x hx

theorem insertByKey_eq (p : Plan) (i : WalkItem) (w : List WalkItem) :
    insertByKey p i w = w.takeWhile (fun y => !keyLess p i.entry y.entry) ++
      i :: w.dropWhile (fun y => !keyLess p i.entry y.entry) := by
  induction w with
  | nil => rfl
  | cons y ys ih =>
    rw [insertByKey]
    cases hless : keyLess p i.entry y.entry with
    | true => simp [hless]
    | false => simp [hless, ih]

theorem mem_sortEntries (p : Plan) (is : List (Fin 48)) (x : WalkItem) : x ∈ sortEntries p is ↔ ∃ i ∈ is, freshItem i = x := by
  unfold sortEntries
  induction is with
  | nil => simp
  | cons i is ih => rw [List.map_cons, List.foldr_cons, mem_insertByKey, ih, List.exists_mem_cons_iff, eq_comm]

theorem pairwise_sortEntries (p : Plan) (is : List (Fin 48)) (h : is.Nodup) :
    (sortEntries p is).Pairwise fun x y => keyLess p x.entry y.entry = true := by
  induction is with
  | nil => exact List.Pairwise.nil
  | cons i is ih =>
    obtain ⟨hi, his⟩ := List.nodup_cons.mp h
    refine pairwise_insertByKey p (freshItem i) _ (ih his) fun x hx => ?_
    obtain ⟨j, hj, rfl⟩ := (mem_sortEntries p is x).mp hx
    rintro rfl
    exact hi hj

theorem entry_sortEntries (p : Plan) (is : List (Fin 48)) (i : Fin 48) : (∃ x ∈ sortEntries p is, x.entry = i) ↔ i ∈ is := by
  simp only [mem_sortEntries]
  constructor
  · rintro ⟨_, ⟨j, hj, rfl⟩, rfl⟩
    exact hj
  · intro hi
    exact ⟨_, ⟨i, hi, rfl⟩, rfl⟩

theorem selected_iff (p : Plan) {src : Nat} (hsrc : src < 11) (i : Fin 48) :
    selected p (sourceSet src) i = true ↔ p.entries[i].enabled = true ∧ p.entries[i].trig.getLsbD src = true := by
  have hbit : (p.entries[i].trig &&& BitVec.twoPow 11 src ≠ 0) ↔ p.entries[i].trig.getLsbD src = true := by
    rw [BitVec.and_twoPow]
    cases p.entries[i].trig.getLsbD src with
    | false => simp
    | true =>
      simp only [if_true, iff_true]
      intro hzero
      have := congrArg (fun v => v.getLsbD src) hzero
      simp [hsrc] at this
  rw [selected, Bool.and_eq_true, decide_eq_true_eq]
  exact and_congr_right fun _ => hbit

/-! ## The blocks that an opening and a join change -/

/-- The claims of the STREAM entries among `items` (R44). -/
def claimed (c : Capture) (items : List WalkItem) (ch : Fin 4) (x : StreamChan) : StreamChan :=
  if streamCount c items ch = 0 then x
  else { x with claim := match x.claim with
    | none => some { capture := c.number, count := streamCount c items ch }
    | some y => some { y with count := y.count + streamCount c items ch } }

/-- What is done to channels one by one is done to each once. -/
theorem forEach_onStream (f : Fin 4 → StreamChan → StreamChan) (chs : List (Fin 4)) (s : State) (h : chs.Nodup) :
    ∃ v : Vector StreamChan 4, forEach chs (fun ch s => s.onStream ch (f ch)) s = { s with streams := v } ∧
      ∀ ch : Fin 4, v[ch] = if ch ∈ chs then f ch s.streams[ch] else s.streams[ch] := by
  induction chs generalizing s with
  | nil => exact ⟨s.streams, rfl, fun ch => rfl⟩
  | cons i chs ih =>
    obtain ⟨hi, hchs⟩ := List.nodup_cons.mp h
    obtain ⟨v, hv, hget⟩ := ih (s.onStream i (f i)) hchs
    refine ⟨v, hv, fun ch => (hget ch).trans ?_⟩
    by_cases hch : ch = i
    · subst hch
      rw [if_neg hi, if_pos List.mem_cons_self]
      exact vmod_get_same s.streams ch (f ch)
    · have hother : (s.onStream i (f i)).streams[ch] = s.streams[ch] := vmod_get_other s.streams i ch (f i) hch
      rw [hother]
      simp [hch]

theorem claimFor_eq (c : Capture) (items : List WalkItem) (s : State) :
    ∃ v : Vector StreamChan 4, claimFor c items s = { s with streams := v } ∧
      ∀ ch : Fin 4, v[ch] = claimed c items ch s.streams[ch] := by
  have hstep : ∀ (ch : Fin 4) (t : State), (if streamCount c items ch = 0 then t else t.onStream ch fun x =>
      { x with claim := match x.claim with
        | none => some { capture := c.number, count := streamCount c items ch }
        | some y => some { y with count := y.count + streamCount c items ch } }) = t.onStream ch (claimed c items ch) := by
    intro ch t
    by_cases hzero : streamCount c items ch = 0
    · rw [if_pos hzero]
      have hid : claimed c items ch = id := by
        funext x
        exact if_pos hzero
      rw [hid]
      show t = { t with streams := vmod t.streams ch id }
      rw [vmod_id]
    · rw [if_neg hzero]
      refine congrArg (fun f => t.onStream ch f) ?_
      funext x
      exact (if_neg hzero).symm
  obtain ⟨v, hv, hget⟩ := forEach_onStream (claimed c items) allChannels s (List.nodup_finRange 4)
  refine ⟨v, Eq.trans ?_ hv, fun ch => (hget ch).trans (if_pos (List.mem_finRange ch))⟩
  exact congrArg (fun f => forEach allChannels f s) (funext fun ch => funext fun t => hstep ch t)

theorem claimed_of_none {c : Capture} {items : List WalkItem} {ch : Fin 4} {x : StreamChan} (h : 0 < streamCount c items ch)
    (hx : x.claim = none) : claimed c items ch x = { x with claim := some { capture := c.number, count := streamCount c items ch } } := by
  rw [claimed, if_neg (Nat.pos_iff_ne_zero.mp h), hx]

/-- The pin that a trigger sequence and a pre-count set (R24, R25). -/
def Ring.pinnedAt (f : BitVec 32) (preCount : Nat) (r : Ring) : Ring :=
  if r.pin.isNone then { r with pin := some (r.pinAt (f - BitVec.ofNat 32 preCount + 1)) } else r

theorem setPin_eq (f : BitVec 32) (preCount : Nat) (s : State) : setPin f preCount s = s.onRing (Ring.pinnedAt f preCount) := by
  unfold setPin Ring.pinnedAt State.onRing
  cases h : s.ring.pin <;> simp [h]

/-- RETAIN_ASSERTED for the lines that were not asserted (R80, R83). -/
def assertedRing (time : PartTime) (cap : Nat) (newly : BitVec 8) (r : Ring) : Ring :=
  if newly = 0 then r else r.post time .engine 0x08 [BitVec.ofNat 32 cap, BitVec.ofNat 32 newly.toNat]

theorem assertLines_eq (cap : Nat) (lines : BitVec 8) (s : State) :
    assertLines cap lines s =
      (s.onEngine fun e => { e with retain := e.retain ||| (lines &&& ~~~ s.engine.retain) }).onRing
        (assertedRing s.time cap (lines &&& ~~~ s.engine.retain)) := by
  rw [assertLines]
  by_cases h : lines &&& ~~~ s.engine.retain = 0
  · rw [if_pos h, h]
    show s = { s with engine := { s.engine with retain := s.engine.retain ||| 0 }, ring := s.ring }
    rw [show s.engine.retain ||| 0 = s.engine.retain from BitVec.or_zero]
  · rw [if_neg h]
    have hring : assertedRing s.time cap (lines &&& ~~~ s.engine.retain) = fun r => r.post s.time .engine 0x08
        [BitVec.ofNat 32 cap, BitVec.ofNat 32 (lines &&& ~~~ s.engine.retain).toNat] := funext fun r => if_neg h
    rw [hring]
    rfl

theorem getLsbD_namedLines (c : Capture) (items : List WalkItem) (k : Fin 8) :
    (namedLines c items).getLsbD k.val = decide (0 < lineCount c items k) := by
  have hfold : ∀ (ks : List (Fin 8)) (v : BitVec 8),
      (ks.foldl (fun v k => if lineCount c items k = 0 then v else setBit v k.val true) v).getLsbD k.val =
        (v.getLsbD k.val || (decide (k ∈ ks) && decide (0 < lineCount c items k))) := by
    intro ks
    induction ks with
    | nil => simp
    | cons j ks ih =>
      intro v
      rw [List.foldl_cons, ih]
      by_cases hzero : lineCount c items j = 0
      · rw [if_pos hzero]
        by_cases hj : k = j
        · subst hj
          simp [hzero]
        · simp [hj]
      · rw [if_neg hzero, getLsbD_setBit v j.val k.val true j.isLt]
        by_cases hj : k = j
        · subst hj
          simp [Nat.pos_iff_ne_zero.mpr hzero]
        · have hval : k.val ≠ j.val := fun h => hj (Fin.ext h)
          simp [hj, hval]
  rw [namedLines, hfold]
  simp [allLines]

/-- The lines that are asserted newly. -/
theorem getLsbD_newLines (c : Capture) (items : List WalkItem) (held : BitVec 8) (k : Fin 8) :
    (namedLines c items &&& ~~~ held).getLsbD k.val = (decide (0 < lineCount c items k) && !held.getLsbD k.val) := by
  rw [BitVec.getLsbD_and, BitVec.getLsbD_not, getLsbD_namedLines]
  simp

/-- The sender of a taken trigger is told at its port or its term. -/
theorem tellTaken_eq (who : Sender) (mark : Byte) (cap : Nat) (s : State) :
    tellTaken who mark cap s = { s with trig := (tellTaken who mark cap s).trig, link := (tellTaken who mark cap s).link } := by
  cases who <;> rfl

/-- The pin of a walk that holds a HISTORY entry. -/
def Ring.pinnedFor (history : Bool) (f : BitVec 32) (preCount : Nat) (r : Ring) : Ring :=
  if history then r.pinnedAt f preCount else r

theorem setPin_if (history : Bool) (f : BitVec 32) (preCount : Nat) (s : State) :
    (if history then setPin f preCount s else s) = s.onRing (Ring.pinnedFor history f preCount) := by
  cases history with
  | true => exact setPin_eq f preCount s
  | false => rfl

theorem setPhase_tellTaken (ph : Phase) (who : Sender) (mark : Byte) (cap : Nat) (s : State) :
    setPhase ph (tellTaken who mark cap s) = tellTaken who mark cap (setPhase ph s) := by
  cases who <;> rfl

/-- The retain lines and the sender of an opening (R80 steps 6 and 7). -/
def finishOpening (c : Capture) (s : State) : State :=
  let t := assertLines c.number (namedLines c c.walk) (countLines c c.walk s)
  setPhase .openRecord (tellTaken c.sender 0 c.number
    (t.onEngine fun e => { e with retainTimer := .running (after t.time (usPerS * c.retainTime)) }))

theorem finishOpening_eq (c : Capture) (s : State) :
    finishOpening c s = tellTaken c.sender 0 c.number { s with
      ring := assertedRing s.time c.number (namedLines c c.walk &&& ~~~ s.engine.retain) s.ring
      engine := { s.engine with
        phase := .openRecord
        retain := s.engine.retain ||| (namedLines c c.walk &&& ~~~ s.engine.retain)
        retainCount := Vector.ofFn fun k => s.engine.retainCount[k] + lineCount c c.walk k
        retainTimer := .running (after s.time (usPerS * c.retainTime)) } } := by
  rw [finishOpening, setPhase_tellTaken, assertLines_eq]
  refine congrArg (tellTaken c.sender 0 c.number) ?_
  simp only [setPhase, countLines, State.onEngine, State.onRing]

theorem onCapture_of_some {s : State} {c : Capture} (f : Capture → Capture) (h : s.engine.capture = some c) :
    s.onCapture f = { s with engine := { s.engine with capture := some (f c) } } := by
  rw [State.onCapture, State.onEngine, h, Option.map_some]

/-- The directory slot, the event and the pin of an opening (R80 steps 2 to 4). -/
def slottedOpening (slot : Nat) (c : Capture) (s : State) : State :=
  let opened := s.ring.post s.time .engine evCaptureOpened
    [BitVec.ofNat 32 c.number, BitVec.ofNat 32 c.first, BitVec.ofNat 32 c.trigOpen.toNat]
  { raise .captureOpened s with
    dir := setSlot slot (.reserved c.number) { s.dir with lastCap := c.number }
    ring := Ring.pinnedFor (hasHistory c c.walk) (opened.counter - 1) c.preCount opened
    engine := { s.engine with
      capture := some { c with slot := some slot, openTime := s.time, asked := false, noReclaim := false
                               epoch := if s.epochValid then some s.epoch else none, trigSeq := opened.counter - 1 } } }

theorem openCapture_steps (slot : Nat) {s : State} {c : Capture} (h : s.engine.capture = some c) :
    openCapture slot s = finishOpening c (claimFor c c.walk (slottedOpening slot c s)) := by
  have hslot : (s.onDir fun d => setSlot slot (.reserved c.number) { d with lastCap := c.number }).engine.capture = some c := h
  simp only [openCapture, h, setPin_if]
  rw [onCapture_of_some _ hslot, onCapture_of_some _ rfl]
  rfl

/-- What an opening that has its directory slot makes of each block (R80). -/
theorem openCapture_eq (slot : Nat) {s : State} {c : Capture} (h : s.engine.capture = some c) :
    let opened := s.ring.post s.time .engine evCaptureOpened
      [BitVec.ofNat 32 c.number, BitVec.ofNat 32 c.first, BitVec.ofNat 32 c.trigOpen.toNat]
    let newly := namedLines c c.walk &&& ~~~ s.engine.retain
    ∃ v : Vector StreamChan 4, (∀ ch : Fin 4, v[ch] = claimed c c.walk ch s.streams[ch]) ∧
      openCapture slot s = tellTaken c.sender 0 c.number { raise .captureOpened s with
        dir := setSlot slot (.reserved c.number) { s.dir with lastCap := c.number }
        streams := v
        ring := assertedRing s.time c.number newly (Ring.pinnedFor (hasHistory c c.walk) (opened.counter - 1) c.preCount opened)
        engine := { s.engine with
          phase := .openRecord
          capture := some { c with slot := some slot, openTime := s.time, asked := false, noReclaim := false
                                   epoch := if s.epochValid then some s.epoch else none, trigSeq := opened.counter - 1 }
          retain := s.engine.retain ||| newly
          retainCount := Vector.ofFn fun k => s.engine.retainCount[k] + lineCount c c.walk k
          retainTimer := .running (after s.time (usPerS * c.retainTime)) } } := by
  intro opened newly
  obtain ⟨v, hv, hget⟩ := claimFor_eq c c.walk (slottedOpening slot c s)
  refine ⟨v, hget, (openCapture_steps slot h).trans ?_⟩
  rw [hv, finishOpening_eq]
  rfl

end Sys2Proof.Machine
end

