-- ==== Sys2Proof/Proofs/TakenTriggers.lean ====
section
/-! PROOFS. Sys2Proof/Proofs/TakenTriggers.lean: a trigger that opens a capture, one that joins it, and the POWER trigger kept through
STARTING (R75, R78, R80, R83). -/

namespace Sys2Proof.Machine

/-! ## The walk of an opening (R75) -/

theorem entry_walkFor (p : Plan) {src : Nat} (hsrc : src < 11) (i : Fin 48) :
    (∃ x ∈ walkFor p (sourceSet src), x.entry = i) ↔ p.entries[i].enabled = true ∧ p.entries[i].trig.getLsbD src = true := by
  rw [walkFor, entry_sortEntries, List.mem_filter, selected_iff p hsrc]
  exact and_iff_right (List.mem_finRange i)

theorem pairwise_walkFor (p : Plan) (x : TrigSet) : (walkFor p x).Pairwise fun x y => keyLess p x.entry y.entry = true :=
  pairwise_sortEntries p _ ((List.nodup_finRange 48).filter _)

theorem fresh_walkFor {p : Plan} {x : TrigSet} {i : WalkItem} (h : i ∈ walkFor p x) : i.secIdx = none ∧ i.lapsed = false := by
  obtain ⟨j, -, rfl⟩ := (mem_sortEntries p _ i).mp h
  exact ⟨rfl, rfl⟩

/-! ## The directory slot of an opening -/

theorem lowestFreeSlot_of_first {d : Directory} {slot : Fin 32} (hfree : d.slots[slot] = .free)
    (hfirst : ∀ j : Fin 32, j < slot → d.slots[j] ≠ .free) : lowestFreeSlot d = some slot.val := by
  rw [lowestFreeSlot, List.findIdx?_eq_some_iff_getElem]
  refine ⟨by simp, ?_, fun j hj => ?_⟩
  · rw [slotIsFree_iff, Vector.getElem_toList]
    exact hfree
  · rw [slotIsFree_iff, Vector.getElem_toList]
    exact hfirst ⟨j, hj.trans slot.isLt⟩ hj

theorem lowestFreeSlot_of_none {d : Directory} (h : ∀ i : Fin 32, d.slots[i] ≠ .free) : lowestFreeSlot d = none := by
  rw [← Option.not_isSome_iff_eq_none, lowestFreeSlot_isSome]
  rintro ⟨i, hi⟩
  exact h i hi

theorem setSlot_fin (slot : Fin 32) (x : DirSlot) (d : Directory) :
    setSlot slot.val x d = { d with slots := vset d.slots slot x } := by
  rw [setSlot, dif_pos slot.isLt]

/-! ## The sender of a taken trigger -/

theorem tellTaken_terms (who : Sender) (mark : Byte) (cap : Nat) (s : State) (m : Fin 8) :
    (tellTaken who mark cap s).trig.terms[m] =
      if who = .term m then { s.trig.terms[m] with assoc := some cap } else s.trig.terms[m] := by
  cases who with
  | term n =>
    by_cases hn : m = n
    · subst hn
      rw [if_pos rfl]
      exact vmod_get_same _ _ _
    · rw [if_neg (by simpa using Ne.symm hn)]
      exact vmod_get_other _ _ _ _ hn
  | monitor => rfl
  | port p => rfl

theorem tellTaken_notices (who : Sender) (mark : Byte) (cap : Nat) (s : State) (p : PortId) :
    ((tellTaken who mark cap s).port p).notices = (s.port p).notices := by
  cases who with
  | term n => rfl
  | monitor => rfl
  | port q =>
    show ((answer q .ok false (mark :: leBytes 4 cap) s).port p).notices = _
    by_cases hq : p = q
    · subst hq
      rw [answer, port_onPort_same]
      cases (s.port p).service <;> rfl
    · rw [answer, port_onPort_other q p _ s hq]

@[simp] theorem tellTaken_dir (who : Sender) (mark : Byte) (cap : Nat) (s : State) : (tellTaken who mark cap s).dir = s.dir := by
  cases who <;> rfl

@[simp] theorem tellTaken_engine (who : Sender) (mark : Byte) (cap : Nat) (s : State) :
    (tellTaken who mark cap s).engine = s.engine := by
  cases who <;> rfl

@[simp] theorem tellTaken_ring (who : Sender) (mark : Byte) (cap : Nat) (s : State) : (tellTaken who mark cap s).ring = s.ring := by
  cases who <;> rfl

@[simp] theorem tellTaken_streams (who : Sender) (mark : Byte) (cap : Nat) (s : State) :
    (tellTaken who mark cap s).streams = s.streams := by
  cases who <;> rfl

theorem tellTaken_others (who : Sender) (mark : Byte) (cap : Nat) (s : State) :
    (tellTaken who mark cap s).monitor = s.monitor ∧ (tellTaken who mark cap s).store = s.store ∧
      (tellTaken who mark cap s).fetches = s.fetches ∧ (tellTaken who mark cap s).integ = s.integ := by
  cases who <;> exact ⟨rfl, rfl, rfl, rfl⟩

/-- A port whose request is in service is answered. -/
theorem port_answer {p : PortId} {s : State} {r : InService} (st : Status) (b : Bool) (fields : List Byte)
    (h : (s.port p).service = some r) :
    (answer p st b fields s).port p = { s.port p with service := none, tx := (s.port p).tx ++ [mkReply r.kind r.tag st b fields] } := by
  rw [answer, port_onPort_same, h]

/-! ## Opening (R80) -/

theorem trigger_opens (src : Nat) (who : Sender) {s : State} (hidle : s.engine.state = .idle) (hready : s.ready = true)
    (hr : refusalReason s = none) : trigger src who s = beginOpening src who s := by
  simp only [trigger, hidle, hready, hr, Bool.not_true, Bool.false_eq_true, if_false]

/-- The opening as it stands before its directory slot is known. -/
def openingOf (src : Nat) (who : Sender) (s : State) : State := s.onEngine fun e =>
  { e with state := .opening, phase := .openSlot, capture := some (newCapture src who s), cause := .none, stall := false }

theorem beginOpening_of_slot (src : Nat) (who : Sender) {s : State} {slot : Nat} (h : lowestFreeSlot s.dir = some slot) :
    beginOpening src who s = openCapture slot (openingOf src who s) := by
  have hdir : lowestFreeSlot (openingOf src who s).dir = some slot := h
  simp only [beginOpening]
  rw [show lowestFreeSlot (s.onEngine fun e => { e with state := .opening, phase := .openSlot, capture := some (newCapture src who s), cause := .none, stall := false }).dir = some slot from h]
  rfl

theorem beginOpening_of_none (src : Nat) (who : Sender) {s : State} (h : lowestFreeSlot s.dir = none) :
    beginOpening src who s = openingOf src who s := by
  simp only [beginOpening]
  rw [show lowestFreeSlot (s.onEngine fun e => { e with state := .opening, phase := .openSlot, capture := some (newCapture src who s), cause := .none, stall := false }).dir = none from h]
  rfl

/-- The port of a CAPTURE is answered with the mark and the number. -/
theorem tellTaken_port {p : PortId} {r : InService} (mark : Byte) (cap : Nat) {s : State} (h : (s.port p).service = some r) :
    ((tellTaken (.port p) mark cap s).port p).service = none ∧
      ((tellTaken (.port p) mark cap s).port p).tx = (s.port p).tx ++ [mkReply r.kind r.tag .ok false (mark :: leBytes 4 cap)] := by
  rw [show tellTaken (.port p) mark cap s = answer p .ok false (mark :: leBytes 4 cap) s from rfl, port_answer _ _ _ h]
  exact ⟨rfl, rfl⟩

theorem Ring.pinAt_eq (r : Ring) (want : BitVec 32) :
    r.pinAt want = if (want - r.oldest).toNat < r.records.length then want else r.oldest := by
  rw [Ring.pinAt, Ring.holds, Ring.distance]
  by_cases h : (want - r.oldest).toNat < r.records.length
  · rw [if_pos h, if_pos (decide_eq_true h)]
  · rw [if_neg h, if_neg (by rw [decide_eq_false h]; decide)]

theorem pinnedFor_eq (history : Bool) (f : BitVec 32) (preCount : Nat) (r : Ring) :
    Ring.pinnedFor history f preCount r =
      let want := f - BitVec.ofNat 32 preCount + 1
      if history && r.pin.isNone then
        { r with pin := some (if (want - r.oldest).toNat < r.records.length then want else r.oldest) }
      else r := by
  cases history with
  | false => rfl
  | true =>
    simp only [Ring.pinnedFor, Ring.pinnedAt, Ring.pinAt_eq, if_true, Bool.true_and]

theorem rank_eq (k : SecClass) : k.rank = match k with
    | .critical => 0
    | .essential => 1
    | .extended => 2 := by
  cases k <;> rfl

theorem keyLess_spec (p : Plan) (a b : Fin 48) : keyLess p a b = true ↔
    p.entries[a].cls.rank < p.entries[b].cls.rank ∨ (p.entries[a].cls.rank = p.entries[b].cls.rank ∧
      (p.entries[a].order < p.entries[b].order ∨ (p.entries[a].order = p.entries[b].order ∧ a.val < b.val))) := by
  simp [keyLess]

/-- Settles O24: the walk in its order, and the blocks after the opening. -/
theorem admittedTriggerOpensACapture : Obligations.AdmittedTriggerOpensACapture := by
  refine ⟨fun p a b => ?_, fun src who s hsrc hready hidle hreason => ?_⟩
  · intro x y rank
    have hrank : ∀ k : SecClass, k.rank = rank k := rank_eq
    rw [keyLess_spec, hrank, hrank]
  · intro u n bit opened first
    have hu : u = beginOpening src who s := trigger_opens src who hidle hready hreason
    refine ⟨walkFor s.plan (sourceSet src), entry_walkFor s.plan hsrc, pairwise_walkFor s.plan _, fun x hx => fresh_walkFor hx, ?_⟩
    intro fresh naming claims want pinned
    refine ⟨fun slot hfree hfirst => ?_, fun hnone => ?_⟩
    · obtain ⟨v, hv, hopen⟩ := openCapture_eq slot.val (s := openingOf src who s) (c := newCapture src who s) rfl
      rw [hu, beginOpening_of_slot src who (lowestFreeSlot_of_first hfree hfirst), hopen]
      refine ⟨?_, ⟨namedLines fresh fresh.walk &&& ~~~ s.engine.retain, getLsbD_newLines fresh fresh.walk s.engine.retain, ?_, ?_⟩,
        fun ch => ⟨fun hclaims => ?_, fun hclaims hfreeChan => ?_⟩, fun p => ?_, fun m => ?_, fun p r hwho hservice => ?_, ?_⟩
      · rw [tellTaken_dir]
        exact setSlot_fin slot _ _
      · rw [tellTaken_engine]
        rfl
      · rw [tellTaken_ring]
        refine congrArg (assertedRing s.time n (namedLines fresh fresh.walk &&& ~~~ s.engine.retain)) ?_
        exact pinnedFor_eq _ _ _ _
      · rw [tellTaken_streams]
        exact (hv ch).trans (if_pos hclaims)
      · rw [tellTaken_streams]
        exact (hv ch).trans (claimed_of_none hclaims hfreeChan)
      · rw [tellTaken_notices]
        exact congrArg Port.notices (port_raise .captureOpened p s)
      · exact tellTaken_terms who 0 n _ m
      · subst hwho
        have hport : (raise .captureOpened (openingOf src (.port p) s)).port p =
            { s.port p with notices := setBit (s.port p).notices Notice.captureOpened.bit true } := port_raise .captureOpened p s
        have htold := tellTaken_port (r := r) 0 n (s := raise .captureOpened (openingOf src (.port p) s))
          ((congrArg Port.service hport).trans hservice)
        rw [hport] at htold
        exact htold
      · exact tellTaken_others who 0 n _
    · rw [hu, beginOpening_of_none src who (lowestFreeSlot_of_none hnone)]
      rfl

/-! ## Joining (R83) -/

theorem entry_addedItems (c : Capture) {src : Nat} (s : State) (hsrc : src < 11) (i : Fin 48) :
    (∃ x ∈ addedItems c src s, x.entry = i) ↔ (c.snapshot.entries[i]).enabled = true ∧
      (c.snapshot.entries[i]).trig.getLsbD src = true ∧ ∀ w ∈ c.walk, w.entry ≠ i := by
  have hmap : (∃ x ∈ addedItems c src s, x.entry = i) ↔
      ∃ x ∈ sortEntries c.snapshot (addedEntries c.snapshot c.walk src), x.entry = i := by
    constructor
    · rintro ⟨x, hx, hi⟩
      obtain ⟨y, hy, rfl⟩ := List.mem_map.mp hx
      exact ⟨y, hy, hi⟩
    · rintro ⟨y, hy, hi⟩
      exact ⟨_, List.mem_map.mpr ⟨y, hy, rfl⟩, hi⟩
  have hwalk : (!(c.walk.any fun w => w.entry = i)) = true ↔ ∀ w ∈ c.walk, w.entry ≠ i := by simp
  rw [hmap, entry_sortEntries, addedEntries, List.mem_filter, Bool.and_eq_true, selected_iff _ hsrc, hwalk, and_assoc]
  exact and_iff_right (List.mem_finRange i)

theorem pairwise_addedItems (c : Capture) (src : Nat) (s : State) :
    (addedItems c src s).Pairwise fun x y => keyLess c.snapshot x.entry y.entry = true := by
  rw [addedItems, List.pairwise_map]
  exact pairwise_sortEntries c.snapshot _ ((List.nodup_finRange 48).filter _)

theorem marks_addedItems {c : Capture} {src : Nat} {s : State} {x : WalkItem} (h : x ∈ addedItems c src s) :
    x.secIdx = none ∧ x.lapsed = (decide (s.engine.retainTimer = .ranOut) && (c.snapshot.entries[x.entry]).retain.isSome) := by
  obtain ⟨y, hy, rfl⟩ := List.mem_map.mp h
  obtain ⟨j, -, rfl⟩ := (mem_sortEntries _ _ y).mp hy
  exact ⟨rfl, rfl⟩

theorem growWalk_eq (p : Plan) (walk : List WalkItem) (cursor : Option Nat) (added : List WalkItem) :
    let insert := fun (w : List WalkItem) (x : WalkItem) =>
      w.takeWhile (fun y => !keyLess p x.entry y.entry) ++ x :: w.dropWhile (fun y => !keyLess p x.entry y.entry)
    growWalk p walk cursor added = match cursor with
      | none => added.foldl insert walk
      | some k => match walk[k]? with
        | none => walk ++ added
        | some here =>
          walk.take (k + 1) ++
            (added.filter fun x => keyLess p here.entry x.entry).foldl insert (walk.drop (k + 1)) ++
            added.filter fun x => !keyLess p here.entry x.entry := by
  have hinsert : (fun w x => insertByKey p x w) = fun (w : List WalkItem) (x : WalkItem) =>
      w.takeWhile (fun y => !keyLess p x.entry y.entry) ++ x :: w.dropWhile (fun y => !keyLess p x.entry y.entry) :=
    funext fun w => funext fun x => insertByKey_eq p x w
  intro insert
  rw [show insert = fun w x => insertByKey p x w from hinsert.symm]
  rfl

/-- A capture with its walk grown. -/
def Capture.grown (c : Capture) (added : List WalkItem) : Capture :=
  { c with walk := growWalk c.snapshot c.walk c.cursor added }

/-- The state with the capture's walk grown. -/
def walkGrown (c : Capture) (added : List WalkItem) (s : State) : State :=
  { s with engine := { s.engine with capture := some (c.grown added) } }

theorem onCapture_grow {s : State} {c : Capture} (added : List WalkItem) (h : s.engine.capture = some c) :
    (s.onCapture fun c => { c with walk := growWalk c.snapshot c.walk c.cursor added }) = walkGrown c added s :=
  onCapture_of_some _ h

theorem extendWalk_waiting (src : Nat) {s : State} {c : Capture} (h : s.engine.capture = some c) (hphase : s.engine.phase = .openSlot) :
    extendWalk src s = { s with engine := { s.engine with capture := some (c.grown (addedItems c src s)) } } := by
  simp only [extendWalk, h]
  rw [onCapture_grow _ h]
  exact if_pos hphase

/-- A join whose retain timer does not run: the walk, the claims and the pin. -/
theorem extendWalk_still (src : Nat) {s : State} {c : Capture} (h : s.engine.capture = some c) (hphase : s.engine.phase ≠ .openSlot)
    (hstill : s.engine.retainTimer = .stopped ∨ s.engine.retainTimer = .ranOut) :
    ∃ v : Vector StreamChan 4, (∀ ch : Fin 4, v[ch] = claimed c (addedItems c src s) ch s.streams[ch]) ∧
      extendWalk src s = { s with
        streams := v
        ring := Ring.pinnedFor (hasHistory c (addedItems c src s)) c.trigSeq c.preCount s.ring
        engine := { s.engine with capture := some (c.grown (addedItems c src s)) } } := by
  obtain ⟨v, hv, hget⟩ := claimFor_eq c (addedItems c src s) (walkGrown c (addedItems c src s) s)
  refine ⟨v, hget, ?_⟩
  have htimer : (walkGrown c (addedItems c src s) s).engine.retainTimer = .stopped ∨
      (walkGrown c (addedItems c src s) s).engine.retainTimer = .ranOut := hstill
  simp only [extendWalk, h, setPin_if]
  rw [onCapture_grow _ h]
  refine (if_neg hphase).trans ?_
  rw [hv]
  rcases htimer with htimer | htimer <;> simp only [htimer] <;> rfl

/-- A join whose retain timer runs: the lines of the added entries too. -/
theorem extendWalk_running (src : Nat) {s : State} {c : Capture} {t : PartTime} (h : s.engine.capture = some c)
    (hphase : s.engine.phase ≠ .openSlot) (hrunning : s.engine.retainTimer = .running t) :
    let newly := namedLines c (addedItems c src s) &&& ~~~ s.engine.retain
    ∃ v : Vector StreamChan 4, (∀ ch : Fin 4, v[ch] = claimed c (addedItems c src s) ch s.streams[ch]) ∧
      extendWalk src s = { s with
        streams := v
        ring := Ring.pinnedFor (hasHistory c (addedItems c src s)) c.trigSeq c.preCount (assertedRing s.time c.number newly s.ring)
        engine := { s.engine with
          capture := some (c.grown (addedItems c src s)), retain := s.engine.retain ||| newly
          retainCount := Vector.ofFn fun k => s.engine.retainCount[k] + lineCount c (addedItems c src s) k } } := by
  intro newly
  obtain ⟨v, hv, hget⟩ := claimFor_eq c (addedItems c src s) (walkGrown c (addedItems c src s) s)
  refine ⟨v, hget, ?_⟩
  have htimer : (walkGrown c (addedItems c src s) s).engine.retainTimer = .running t := hrunning
  simp only [extendWalk, h, setPin_if]
  rw [onCapture_grow _ h]
  refine (if_neg hphase).trans ?_
  rw [hv]
  simp only [htimer, assertLines_eq]
  rfl

/-- The trigger's mark and event in a capture that a trigger joins. -/
def joinMarked (src : Nat) (c : Capture) (s : State) : State :=
  { s with
    ring := s.ring.post s.time .engine 0x02
      [BitVec.ofNat 32 c.number, BitVec.ofNat 32 src, BitVec.ofNat 32 (c.trig ||| BitVec.twoPow 11 src).toNat]
    engine := { s.engine with capture := some { c with trig := c.trig ||| BitVec.twoPow 11 src } } }

theorem joinCapture_eq (src : Nat) (who : Sender) {s : State} {c : Capture} (h : s.engine.capture = some c) :
    joinCapture src who s = tellTaken who 1 c.number
      (if s.engine.state = .closing then joinMarked src c s else extendWalk src (joinMarked src c s)) := by
  simp only [joinCapture, h]
  rw [onCapture_of_some _ h]
  rfl

theorem trigger_joins (src : Nat) (who : Sender) {s : State}
    (h : s.engine.state = .opening ∨ s.engine.state = .gathering ∨ s.engine.state = .closing) :
    trigger src who s = joinCapture src who s := by
  rcases h with h | h | h <;> simp only [trigger, h]

/-- What a join leaves to its sender. -/
theorem joined_link (src : Nat) (s : State) (c : Capture) :
    ∃ (v : Vector StreamChan 4) (r : Ring) (e : Engine),
      (if s.engine.state = .closing then joinMarked src c s else extendWalk src (joinMarked src c s)) =
        { s with streams := v, ring := r, engine := e } := by
  split
  · exact ⟨_, _, _, rfl⟩
  · have hc : (joinMarked src c s).engine.capture = some { c with trig := c.trig ||| BitVec.twoPow 11 src } := rfl
    by_cases hphase : (joinMarked src c s).engine.phase = .openSlot
    · exact ⟨_, _, _, extendWalk_waiting src hc hphase⟩
    · cases hr : (joinMarked src c s).engine.retainTimer with
      | running t =>
        obtain ⟨v, -, hv⟩ := extendWalk_running src hc hphase hr
        exact ⟨_, _, _, hv⟩
      | stopped =>
        obtain ⟨v, -, hv⟩ := extendWalk_still src hc hphase (.inl hr)
        exact ⟨_, _, _, hv⟩
      | ranOut =>
        obtain ⟨v, -, hv⟩ := extendWalk_still src hc hphase (.inr hr)
        exact ⟨_, _, _, hv⟩

/-- Settles O25: the walk that grows and the blocks after the join. -/
theorem joiningTriggerExtendsTheCapture : Obligations.JoiningTriggerExtendsTheCapture := by
  refine ⟨fun src who c s hsrc hc hstate => ?_, fun s hready hidle => ?_, fun s => ?_⟩
  · intro u trig joined
    have hu : u = _ := (trigger_joins src who hstate).trans (joinCapture_eq src who hc)
    have hothers : u.dir = s.dir ∧ u.store = s.store ∧ u.fetches = s.fetches ∧ u.monitor = s.monitor ∧ u.integ = s.integ ∧
        (who = .monitor → u.link = s.link ∧ u.trig = s.trig) ∧
        (∀ m : Fin 8, who = .term m → u.link = s.link ∧
          u.trig = { s.trig with terms := vmod s.trig.terms m fun t => { t with assoc := some c.number } }) ∧
        (∀ p : PortId, who = .port p → u.trig = s.trig ∧ u.link = (answer p .ok false (1 :: leBytes 4 c.number) s).link) := by
      obtain ⟨v, r, e, hjoined⟩ := joined_link src s c
      rw [hu, hjoined]
      refine ⟨?_, ?_, ?_, ?_, ?_, fun hwho => ?_, fun m hwho => ?_, fun p hwho => ?_⟩
      · exact tellTaken_dir who _ _ _
      · exact (tellTaken_others who _ _ _).2.1
      · exact (tellTaken_others who _ _ _).2.2.1
      · exact (tellTaken_others who _ _ _).1
      · exact (tellTaken_others who _ _ _).2.2.2
      · subst hwho
        exact ⟨rfl, rfl⟩
      · subst hwho
        exact ⟨rfl, rfl⟩
      · subst hwho
        exact ⟨rfl, rfl⟩
    obtain ⟨hdir, hstore, hfetches, hmonitor, hinteg, htold⟩ := hothers
    refine ⟨hdir, hstore, hfetches, hmonitor, hinteg, htold.1, htold.2.1, htold.2.2, fun hclosing => ?_, fun hopen => ?_⟩
    · rw [hu, if_pos hclosing, tellTaken_ring, tellTaken_streams, tellTaken_engine]
      exact ⟨rfl, rfl, rfl⟩
    · rw [if_neg hopen] at hu
      refine ⟨addedItems c src s, entry_addedItems c s hsrc, pairwise_addedItems c src s, fun x hx => marks_addedItems hx, ?_⟩
      intro insert walk grown naming claims want pinned
      have hwalk : growWalk c.snapshot c.walk c.cursor (addedItems c src s) = walk := growWalk_eq _ _ _ _
      have hgrown : ({ c with trig := trig } : Capture).grown (addedItems c src s) = grown := by
        rw [Capture.grown, show grown = { c with trig := trig, walk := walk } from rfl, ← hwalk]
      have hpinned : ∀ r, Ring.pinnedFor (hasHistory c (addedItems c src s)) c.trigSeq c.preCount r = pinned r :=
        fun r => pinnedFor_eq _ _ _ r
      have hmarked : (joinMarked src c s).engine.capture = some { c with trig := trig } := rfl
      refine ⟨fun hwaiting => ?_, fun hslotted => ?_⟩
      · rw [hu, extendWalk_waiting src hmarked hwaiting, tellTaken_ring, tellTaken_streams, tellTaken_engine, ← hgrown]
        exact ⟨rfl, rfl, rfl⟩
      · have hstill : (∀ t : PartTime, s.engine.retainTimer ≠ .running t) →
            s.engine.retainTimer = .stopped ∨ s.engine.retainTimer = .ranOut := by
          intro h
          cases ht : s.engine.retainTimer with
          | running t => exact absurd ht (h t)
          | stopped => exact .inl rfl
          | ranOut => exact .inr rfl
        refine ⟨fun ch => ?_, fun hno => ?_, fun t ht => ?_⟩
        · rw [hu, tellTaken_streams]
          cases ht : s.engine.retainTimer with
          | running t =>
            obtain ⟨v, hv, hextend⟩ := extendWalk_running src hmarked hslotted ht
            rw [hextend]
            exact hv ch
          | stopped =>
            obtain ⟨v, hv, hextend⟩ := extendWalk_still src hmarked hslotted (.inl ht)
            rw [hextend]
            exact hv ch
          | ranOut =>
            obtain ⟨v, hv, hextend⟩ := extendWalk_still src hmarked hslotted (.inr ht)
            rw [hextend]
            exact hv ch
        · obtain ⟨v, hv, hextend⟩ := extendWalk_still src hmarked hslotted (hstill hno)
          rw [hu, hextend, tellTaken_ring, tellTaken_engine, ← hpinned, ← hgrown]
          exact ⟨rfl, rfl⟩
        · obtain ⟨v, hv, hextend⟩ := extendWalk_running src hmarked hslotted ht
          refine ⟨_, getLsbD_newLines c (addedItems c src s) s.engine.retain, ?_⟩
          rw [hu, hextend, tellTaken_ring, tellTaken_engine, ← hpinned, ← hgrown]
          exact ⟨rfl, rfl⟩
  · simp only [trigger, hidle, hready, Bool.not_false, if_true]
    rfl
  · intro t
    refine ⟨fun hpending => ?_, fun hpending => ?_⟩
    · rw [endReplay, if_pos hpending]
      rfl
    · rw [endReplay, if_neg (Bool.eq_false_iff.mp hpending)]

end Sys2Proof.Machine
end

