-- ==== Sys2Proof/Proofs/SettingsItems.lean ====
section
/-! PROOFS. Sys2Proof/Proofs/SettingsItems.lean: what the items of a WRITE_SETTINGS do to the blocks (R3, R7, R9, R46, R64, R174). -/

namespace Sys2Proof.Machine

theorem vector_ofFn_eq {α : Type} {n : Nat} {v : Vector α n} {f : Fin n → α} (h : ∀ i : Fin n, v[i] = f i) : v = Vector.ofFn f := by
  apply Vector.ext
  intro i hi
  rw [Vector.getElem_ofFn]
  exact h ⟨i, hi⟩

/-! ## Stream and fetch channels -/

/-- A stream channel is left, reset to its receiver's state, or reset to DISABLED (R46). -/
theorem applyStream_eq (a b : StreamCfg) (sync : Bool) (c : StreamChan) :
    applyStream a b sync c =
      if b.enabled then
        (if a.enabled && a.mode = b.mode && a.wordLen = b.wordLen && a.packing = b.packing then c
          else StreamChan.start (if sync then .waitRelease else .idle) c.claim)
      else if a.enabled then StreamChan.start .disabled c.claim else c := by
  unfold applyStream
  cases hb : b.enabled with
  | true =>
    by_cases hsame : a = b
    · subst hsame
      simp [hb]
    · have hfields : ¬ (a.enabled && a.mode = b.mode && a.wordLen = b.wordLen && a.packing = b.packing) = true := by
        intro h
        simp only [Bool.and_eq_true, decide_eq_true_eq] at h
        obtain ⟨⟨⟨henabled, hmode⟩, hlen⟩, hpacking⟩ := h
        refine hsame ?_
        cases a
        cases b
        simp_all
      rw [if_neg hsame, if_pos rfl, if_neg hfields, rxEnabled, if_pos rfl]
      simp
  | false =>
    by_cases hsame : a = b
    · subst hsame
      simp [hb]
    · cases ha : a.enabled <;> simp [hsame]

/-! ## Terms -/

/-- An ARMED term that is re-armed is qualified by its condition and cannot fire (R7, R9). -/
theorem rearm_of_ready (n : Fin 8) {s : State} (hr : s.ready = true) :
    rearm n s = onTerm n (fun t => { t with state := .armed, qualified := !termCondition n s }) s := by
  have harmed : ((onTerm n (fun t => { t with state := .armed, qualified := false }) s).trig.terms[n]).state = .armed := by
    rw [terms_onTerm_same]
  have hqualified : ((onTerm n (fun t => { t with state := .armed, qualified := false }) s).trig.terms[n]).qualified = false := by
    rw [terms_onTerm_same]
  have hcondition : termCondition n (onTerm n (fun t => { t with state := .armed, qualified := false }) s) = termCondition n s := rfl
  have hready : (onTerm n (fun t => { t with state := .armed, qualified := false }) s).ready = true := hr
  rw [rearm, evaluate_of_armed hready harmed, hqualified, hcondition]
  cases termCondition n s with
  | true => rfl
  | false => exact onTerm_onTerm n _ _ s

/-- What is done to terms one by one is done to each once. -/
theorem forEach_onTerm (f : Fin 8 → Term → Term) (ns : List (Fin 8)) (s : State) (h : ns.Nodup) :
    ∃ v : Vector Term 8, forEach ns (fun n s => onTerm n (f n) s) s = { s with trig := { s.trig with terms := v } } ∧
      ∀ n : Fin 8, v[n] = if n ∈ ns then f n s.trig.terms[n] else s.trig.terms[n] := by
  induction ns generalizing s with
  | nil => exact ⟨s.trig.terms, rfl, fun n => rfl⟩
  | cons i ns ih =>
    obtain ⟨hi, hns⟩ := List.nodup_cons.mp h
    obtain ⟨v, hv, hget⟩ := ih (onTerm i (f i) s) hns
    refine ⟨v, hv, fun n => (hget n).trans ?_⟩
    by_cases hn : n = i
    · subst hn
      rw [if_neg hi, if_pos List.mem_cons_self]
      exact vmod_get_same s.trig.terms n (f n)
    · have hother : (onTerm i (f i) s).trig.terms[n] = s.trig.terms[n] := vmod_get_other s.trig.terms i n (f i) hn
      rw [hother]
      simp [hn]

/-- A term as a write of its settings leaves it (R7, R9). -/
def rewritten (a b : TermDef) (filtered latches : BitVec 16) (t : Term) : Term :=
  if t.state = .armed ∧ ¬ (a.mask = b.mask ∧ a.polarity = b.polarity ∧ a.source = b.source ∧ a.combine = b.combine) then
    { t with qualified := !condition b filtered latches } else t

theorem conditionChanged_iff (a b : TermDef) : conditionChanged a b = true ↔
    ¬ (a.mask = b.mask ∧ a.polarity = b.polarity ∧ a.source = b.source ∧ a.combine = b.combine) := by
  simp only [conditionChanged, Bool.or_eq_true_iff, decide_eq_true_eq, not_and_or, or_assoc, ne_eq]

theorem onTerm_eq_self {n : Fin 8} {f : Term → Term} {s : State} (h : f s.trig.terms[n] = s.trig.terms[n]) : onTerm n f s = s := by
  have hv : vmod s.trig.terms n f = s.trig.terms := (vmod_congr _ n f id h).trans (vmod_id _ n)
  rw [onTerm, State.onTrig, hv]

/-- A term's part of a write. -/
def applyTermAt (old : Settings) (n : Fin 8) (s : State) : State :=
  if conditionChanged old.terms[n] s.settings.terms[n] && (s.trig.terms[n]).state = .armed then rearm n s else s

theorem applyTermAt_eq (old : Settings) (n : Fin 8) {s : State} (hr : s.ready = true) :
    applyTermAt old n s = onTerm n (rewritten old.terms[n] s.settings.terms[n] s.trig.filtered s.trig.latches) s := by
  rw [applyTermAt]
  by_cases hterm : (s.trig.terms[n]).state = .armed ∧ conditionChanged old.terms[n] s.settings.terms[n] = true
  · obtain ⟨harmed, hchanged⟩ := hterm
    have hboth := (conditionChanged_iff _ _).mp hchanged
    rw [if_pos (by simp only [hchanged, harmed, decide_true, Bool.and_self]), rearm_of_ready n hr]
    have hv : vmod s.trig.terms n (fun t => { t with state := .armed, qualified := !termCondition n s }) =
        vmod s.trig.terms n (rewritten old.terms[n] s.settings.terms[n] s.trig.filtered s.trig.latches) := by
      refine vmod_congr _ n _ _ ?_
      rw [rewritten, if_pos ⟨harmed, hboth⟩, ← harmed]
      rfl
    rw [onTerm, State.onTrig, hv, onTerm, State.onTrig]
  · rw [if_neg (by simpa only [Bool.and_eq_true, decide_eq_true_eq, and_comm] using hterm)]
    refine (onTerm_eq_self (if_neg ?_)).symm
    rwa [← conditionChanged_iff]

theorem applyTerms_forEach (old : Settings) (s : State) (ns : List (Fin 8)) {t : State} (hready : t.ready = true)
    (hsettings : t.settings = s.settings) (hfiltered : t.trig.filtered = s.trig.filtered) (hlatches : t.trig.latches = s.trig.latches) :
    forEach ns (applyTermAt old) t =
      forEach ns (fun n => onTerm n (rewritten old.terms[n] s.settings.terms[n] s.trig.filtered s.trig.latches)) t := by
  induction ns generalizing t with
  | nil => rfl
  | cons n ns ih =>
    have hstep := applyTermAt_eq old n hready
    rw [hsettings, hfiltered, hlatches] at hstep
    show forEach ns (applyTermAt old) (applyTermAt old n t) = forEach ns _ (onTerm n _ t)
    rw [hstep]
    exact ih hready hsettings hfiltered hlatches

theorem applyTerms_eq (old : Settings) (s : State) (hr : s.ready = true) :
    applyTerms old s = { s with trig := { s.trig with
      terms := Vector.ofFn fun n : Fin 8 =>
        rewritten old.terms[n] s.settings.terms[n] s.trig.filtered s.trig.latches s.trig.terms[n] } } := by
  obtain ⟨v, hv, hget⟩ := forEach_onTerm
    (fun n => rewritten old.terms[n] s.settings.terms[n] s.trig.filtered s.trig.latches) allLines s (List.nodup_finRange 8)
  have hterms : v = Vector.ofFn _ := vector_ofFn_eq fun n => (hget n).trans (if_pos (List.mem_finRange n))
  rw [← hterms, ← hv]
  exact applyTerms_forEach old s allLines hr rfl rfl rfl

/-! ## Lines -/

theorem settings_of_frame {s t : State} (h : frameOf s = frameOf t) : s.settings = t.settings := by
  simp only [frameOf, Prod.mk.injEq] at h
  obtain ⟨-, -, -, -, -, -, -, hsettings, -, -⟩ := h
  exact hsettings

theorem takeCandidate_eq (i : Fin 16) (s : State) :
    takeCandidate i s = match s.trig.cands[i] with
      | some c => if reached s.time (after c.start s.settings.filterWidth[i]) then filteredChange i c.level s else s
      | none => s := by
  unfold takeCandidate
  cases hc : s.trig.cands[i] with
  | none => simp only [candidateDue_of_none hc]
  | some c =>
    cases hr : reached s.time (after c.start s.settings.filterWidth[i]) with
    | true =>
      simp only [candidateDue_of_reached hc hr]
      exact (if_pos hr).symm
    | false =>
      simp only [candidateDue_of_running hc hr]
      exact (if_neg (Bool.eq_false_iff.mp hr)).symm

/-- A line's part of a write (R3). -/
def applyFilterAt (old new : Settings) (s : State) (i : Fin 16) : State :=
  if old.filterWidth[i] = new.filterWidth[i] then s else takeCandidate i s

theorem applyFilters_eq (old : Settings) (s : State) :
    applyFilters old s = (List.finRange 16).foldl (applyFilterAt old s.settings) s := by
  have hlines : ∀ (is : List (Fin 16)) (t : State), t.settings = s.settings →
      forEach is (fun i s => if old.filterWidth[i] = s.settings.filterWidth[i] then s else takeCandidate i s) t =
        is.foldl (applyFilterAt old s.settings) t := by
    intro is
    induction is with
    | nil => exact fun t _ => rfl
    | cons i is ih =>
      intro t ht
      have hstep : (if old.filterWidth[i] = t.settings.filterWidth[i] then t else takeCandidate i t) =
          applyFilterAt old s.settings t i := by
        rw [ht, applyFilterAt]
      have hsettings : (applyFilterAt old s.settings t i).settings = s.settings := by
        rw [applyFilterAt]
        split
        · exact ht
        · exact (settings_of_frame (frameOf_takeCandidate i t)).trans ht
      show forEach is _ (if old.filterWidth[i] = t.settings.filterWidth[i] then t else takeCandidate i t) = _
      rw [hstep]
      exact ih _ hsettings
  exact hlines _ s rfl

theorem applyFilters_unchanged {old : Settings} {s : State} (h : ∀ i : Fin 16, old.filterWidth[i] = s.settings.filterWidth[i]) :
    applyFilters old s = s := by
  rw [applyFilters_eq]
  have hline : ∀ t i, applyFilterAt old s.settings t i = t := fun t i => if_pos (h i)
  generalize List.finRange 16 = is
  induction is with
  | nil => rfl
  | cons i is ih => rw [List.foldl_cons, hline, ih]

/-- The blocks as the items leave them before the lines take their widths. -/
def itemsWritten (items : List Item) (s : State) : State :=
  let new := s.settings.withItems items
  { s with
    settings := new
    streams := Vector.ofFn fun i : Fin 4 => applyStream s.settings.stream[i] new.stream[i] (s.pins.sync.getLsbD i.val) s.streams[i]
    fetches := Vector.ofFn fun i : Fin 4 => applyFetch s.settings.fetch[i] new.fetch[i] s.fetches[i]
    trig := { s.trig with
      terms := Vector.ofFn fun n : Fin 8 =>
        rewritten s.settings.terms[n] new.terms[n] s.trig.filtered s.trig.latches s.trig.terms[n] } }

theorem applyItems_eq (items : List Item) (s : State) (hr : s.ready = true) :
    applyItems items s = applyFilters s.settings (itemsWritten items s) :=
  congrArg (applyFilters s.settings) (applyTerms_eq s.settings
    (applyFetches s.settings (applyStreams s.settings { s with settings := s.settings.withItems items })) hr)

/-- Settles O51: the channels and terms each once, then the lines in order. -/
theorem writtenItemsReachTheBlocks : Obligations.WrittenItemsReachTheBlocks := by
  intro items s hr old new stream fetch term written line
  have hwritten : itemsWritten items s = written := by
    have hstreams : ∀ i : Fin 4, applyStream old.stream[i] new.stream[i] (s.pins.sync.getLsbD i.val) s.streams[i] = stream i :=
      fun i => applyStream_eq _ _ _ _
    have hfetches : ∀ i : Fin 4, applyFetch old.fetch[i] new.fetch[i] s.fetches[i] = fetch i := fun i => rfl
    have hterms : ∀ n : Fin 8, rewritten old.terms[n] new.terms[n] s.trig.filtered s.trig.latches s.trig.terms[n] = term n :=
      fun n => rfl
    have hsame : ∀ f g h, f = stream → g = fetch → h = term → ({ s with
        settings := new
        streams := Vector.ofFn f
        fetches := Vector.ofFn g
        trig := { s.trig with terms := Vector.ofFn h } } : State) = written := by
      rintro _ _ _ rfl rfl rfl
      rfl
    exact hsame _ _ _ (funext hstreams) (funext hfetches) (funext hterms)
  have hline : applyFilterAt old new = line := funext fun u => funext fun i => by rw [applyFilterAt, takeCandidate_eq] <;> rfl
  rw [applyItems_eq items s hr, hwritten]
  refine ⟨?_, fun hwidths => applyFilters_unchanged hwidths⟩
  rw [applyFilters_eq, ← hline]

end Sys2Proof.Machine
end

