-- ==== Sys2Proof/Proofs/SettingsWrites.lean ====
section
/-! PROOFS. Sys2Proof/Proofs/SettingsWrites.lean: the items of a WRITE_SETTINGS, their clamps, and the request (R45, R55, R174). -/

namespace Sys2Proof.Machine

/-! ## The items with their indices (11.7) -/

theorem itemCount_of_large {code : Nat} (h : 31 ≤ code) : itemCount code = none := by
  unfold itemCount
  split
  case h_31 => rfl
  all_goals omega

theorem itemKnown_iff (code index : Nat) : itemKnown code index = true ↔
    (code = 1 ∧ index < 16) ∨ (2 ≤ code ∧ code ≤ 7 ∧ index < 8) ∨ (8 ≤ code ∧ code ≤ 10 ∧ index = 0) ∨
    (11 ≤ code ∧ code ≤ 17 ∧ index < 4) ∨ (18 ≤ code ∧ code ≤ 22 ∧ index < 16) ∨
    (23 ≤ code ∧ code ≤ 28 ∧ index = 0) ∨ (code = 29 ∧ index < 3) ∨ (code = 30 ∧ index = 0) := by
  rcases Nat.lt_or_ge code 31 with h | h
  · interval_cases code <;> simp [itemKnown, itemCount]
  · rw [itemKnown, itemCount_of_large h]
    simp
    omega

theorem itemLegal_iff (code v : Nat) : itemLegal code v = true ↔
    (code ∈ [4, 5, 7, 11, 12, 14, 15, 18, 22] → v ≤ 1) ∧ (code = 19 → v ≤ 3) := by
  unfold itemLegal
  split <;> simp_all

/-! ## Clamps -/

theorem clampTo_eq {lo hi : Nat} (h : lo ≤ hi) (v : Nat) : clampTo lo hi v = if v < lo then lo else if hi < v then hi else v := by
  unfold clampTo
  split
  · omega
  · split <;> omega

theorem min_eq_within (hi v : Nat) : min v hi = if v < 0 then 0 else if hi < v then hi else v := by
  rw [if_neg (Nat.not_lt_zero v)]
  split <;> omega

theorem clampWordLen_spec (v : Nat) :
    clampWordLen v ∈ [8, 12, 16, 20, 24, 32] ∧
      (v ≤ 32 → v ≤ clampWordLen v ∧ ∀ n ∈ [8, 12, 16, 20, 24, 32], v ≤ n → clampWordLen v ≤ n) ∧
      (32 < v → clampWordLen v = 32) := by
  unfold clampWordLen
  simp only [List.mem_cons, List.not_mem_nil, or_false, forall_eq_or_imp, forall_eq]
  split_ifs <;> omega

/-- How far a rate lies from the value asked for. -/
def rateGap (v r : Nat) : Nat := (r - v) + (v - r)

theorem distanceTo_eq (r v : Nat) : distanceTo r v = rateGap v r := by
  unfold distanceTo rateGap
  split <;> omega

/-- A rate is nearer than another, or as near and not below it. -/
def nearer (v a b : Nat) : Prop := rateGap v a < rateGap v b ∨ (rateGap v a = rateGap v b ∧ b ≤ a)

theorem nearer_trans {v a b c : Nat} (hab : nearer v a b) (hbc : nearer v b c) : nearer v a c := by
  unfold nearer at *
  omega

theorem nearest_spec (v : Nat) (rs : List Nat) (best : Nat) (h : (best :: rs).Pairwise (· ≤ ·)) :
    let near := rs.foldl (fun best r => if distanceTo r v ≤ distanceTo best v then r else best) best
    near ∈ best :: rs ∧ ∀ r ∈ best :: rs, nearer v near r := by
  induction rs generalizing best with
  | nil =>
    refine ⟨List.mem_singleton_self _, fun r hr => ?_⟩
    rw [List.mem_singleton.mp hr]
    exact .inr ⟨rfl, Nat.le_refl _⟩
  | cons x rs ih =>
    obtain ⟨hbest, hrest⟩ := List.pairwise_cons.mp h
    obtain ⟨hx, hrs⟩ := List.pairwise_cons.mp hrest
    have hle : best ≤ x := hbest x List.mem_cons_self
    rw [List.foldl_cons, distanceTo_eq, distanceTo_eq]
    by_cases hnear : rateGap v x ≤ rateGap v best
    · rw [if_pos hnear]
      obtain ⟨hmem, hall⟩ := ih x hrest
      have hbestFar : nearer v x best := by
        unfold nearer
        omega
      refine ⟨List.mem_cons_of_mem _ hmem, fun r hr => ?_⟩
      rcases List.mem_cons.mp hr with rfl | hr
      · exact nearer_trans (hall x List.mem_cons_self) hbestFar
      · exact hall r hr
    · rw [if_neg hnear]
      obtain ⟨hmem, hall⟩ := ih best (List.pairwise_cons.mpr ⟨fun r hr => hle.trans (hx r hr), hrs⟩)
      have hxFar : nearer v best x := .inl (Nat.not_le.mp hnear)
      refine ⟨?_, fun r hr => ?_⟩
      · rcases List.mem_cons.mp hmem with hmem | hmem
        · exact List.mem_cons.mpr (.inl hmem)
        · exact List.mem_cons_of_mem _ (List.mem_cons_of_mem _ hmem)
      · rcases List.mem_cons.mp hr with rfl | hr
        · exact hall _ List.mem_cons_self
        · rcases List.mem_cons.mp hr with rfl | hr
          · exact nearer_trans (hall best List.mem_cons_self) hxFar
          · exact hall r (List.mem_cons_of_mem _ hr)

theorem nearestRate_spec (v : Nat) : nearestRate v ∈ legalRates ∧ ∀ r ∈ legalRates, nearer v (nearestRate v) r := by
  have h := nearest_spec v legalRates 9600 (by decide)
  refine ⟨?_, fun r hr => h.2 r (List.mem_cons_of_mem _ hr)⟩
  rcases List.mem_cons.mp h.1 with hfirst | hmem
  · have : nearestRate v = 9600 := hfirst
    rw [this]
    decide
  · exact hmem

/-! ## Items set and read back -/

theorem vgetD_vmodNat_same {α : Type} {n : Nat} (v : Vector α n) {i : Nat} (f : α → α) (d : α) (h : i < n) :
    vgetD (vmodNat v i f) i d = f (vgetD v i d) := by
  simp [vgetD, vmodNat, vmod, vset, h]

theorem vgetD_vmodNat_other {α : Type} {n : Nat} (v : Vector α n) {i j : Nat} (f : α → α) (d : α) (h : j ≠ i) :
    vgetD (vmodNat v i f) j d = vgetD v j d := by
  unfold vgetD vmodNat
  split
  · split
    · rename_i hj hi
      exact vmod_get_other v ⟨i, hi⟩ ⟨j, hj⟩ f (by simpa [Fin.ext_iff] using h)
    · rfl
  · rfl

/-! ## What setting an item leaves of the parts that its code does not name -/

theorem setItem_filterWidth {code : Nat} (st : Settings) (i v : Nat) (h : code ≠ 1) : (st.setItem code i v).filterWidth = st.filterWidth := by
  unfold Settings.setItem
  split
  case h_1 => exact absurd rfl h
  all_goals rfl

theorem setItem_terms {code : Nat} (st : Settings) (i v : Nat) (h : ¬ (2 ≤ code ∧ code ≤ 7)) :
    (st.setItem code i v).terms = st.terms := by
  unfold Settings.setItem
  split
  case h_2 | h_3 | h_4 | h_5 | h_6 | h_7 => exact absurd (by decide) h
  all_goals rfl

theorem setItem_stream {code : Nat} (st : Settings) (i v : Nat) (h : ¬ (11 ≤ code ∧ code ≤ 14)) :
    (st.setItem code i v).stream = st.stream := by
  unfold Settings.setItem
  split
  case h_11 | h_12 | h_13 | h_14 => exact absurd (by decide) h
  all_goals rfl

theorem setItem_fetch {code : Nat} (st : Settings) (i v : Nat) (h : ¬ (15 ≤ code ∧ code ≤ 22)) :
    (st.setItem code i v).fetch = st.fetch := by
  unfold Settings.setItem
  split
  case h_15 | h_16 | h_17 | h_18 | h_19 | h_20 | h_21 | h_22 => exact absurd (by decide) h
  all_goals rfl

theorem setItem_lineRate {code : Nat} (st : Settings) (i v : Nat) (h : code ≠ 29) : (st.setItem code i v).lineRate = st.lineRate := by
  unfold Settings.setItem
  split
  case h_29 => exact absurd rfl h
  all_goals rfl

/-- The settings that are numbers of their own, by their codes. -/
def Settings.numbers (s : Settings) : Nat → Nat
  | 8 => s.hostHoldoff
  | 9 => s.preCount
  | 10 => s.postCount
  | 23 => s.retainTime
  | 24 => s.cuf
  | 25 => s.vmin
  | 26 => s.eff
  | 27 => s.epage
  | 28 => s.debounce
  | 30 => s.noticeMask.toNat
  | _ => 0

theorem setItem_numbers {code c : Nat} (st : Settings) (i v : Nat) (h : code ≠ c) :
    (st.setItem code i v).numbers c = st.numbers c := by
  unfold Settings.setItem
  split
  case h_8 | h_9 | h_10 | h_23 | h_24 | h_25 | h_26 | h_27 | h_28 | h_30 =>
    unfold Settings.numbers
    split <;> simp_all
  all_goals rfl

/-! ## The parts by their index -/

theorem term_onTerm_same (st : Settings) {i : Nat} (f : TermDef → TermDef) (h : i < 8) : (st.onTerm i f).term i = f (st.term i) :=
  vgetD_vmodNat_same _ f _ h

theorem term_setItem_other {code i j : Nat} (st : Settings) (v : Nat) (h : j ≠ i) :
    (st.setItem code i v).term j = st.term j := by
  unfold Settings.setItem
  split
  case h_2 | h_3 | h_4 | h_5 | h_6 | h_7 => exact vgetD_vmodNat_other _ _ _ h
  all_goals rfl

theorem streamCfg_onStreamCfg_same (st : Settings) {i : Nat} (f : StreamCfg → StreamCfg) (h : i < 4) :
    (st.onStreamCfg i f).streamCfg i = f (st.streamCfg i) := vgetD_vmodNat_same _ f _ h

theorem streamCfg_setItem_other {code i j : Nat} (st : Settings) (v : Nat) (h : j ≠ i) :
    (st.setItem code i v).streamCfg j = st.streamCfg j := by
  unfold Settings.setItem
  split
  case h_11 | h_12 | h_13 | h_14 => exact vgetD_vmodNat_other _ _ _ h
  all_goals rfl

theorem fetchCfg_onFetchCfg_same (st : Settings) {i : Nat} (f : FetchCfg → FetchCfg) (h : i < 4) :
    (st.onFetchCfg i f).fetchCfg i = f (st.fetchCfg i) := vgetD_vmodNat_same _ f _ h

theorem fetchCfg_onFetchCfg_other (st : Settings) {i j : Nat} (f : FetchCfg → FetchCfg) (h : j ≠ i) :
    (st.onFetchCfg i f).fetchCfg j = st.fetchCfg j := vgetD_vmodNat_other _ f _ h

/-- A change that keeps a part of every channel's configuration keeps it in each. -/
theorem fetchCfg_onFetchCfg_keeps {α : Type} (g : FetchCfg → α) (st : Settings) (i j : Nat) {f : FetchCfg → FetchCfg}
    (h : ∀ c, g (f c) = g c) : g ((st.onFetchCfg i f).fetchCfg j) = g (st.fetchCfg j) := by
  by_cases hj : j = i
  · subst hj
    by_cases hlt : j < 4
    · rw [fetchCfg_onFetchCfg_same st f hlt, h]
    · simp [Settings.fetchCfg, vgetD, hlt]
  · rw [fetchCfg_onFetchCfg_other st f hj]

/-- A channel's configuration but for its windows. -/
def FetchCfg.head (c : FetchCfg) : Bool × Nat × Nat := (c.enabled, c.timeout, c.retries)

theorem fetchHead_onWindow (st : Settings) (i j : Nat) (f : Window → Window) :
    ((st.onWindow i f).fetchCfg j).head = (st.fetchCfg j).head := fetchCfg_onFetchCfg_keeps FetchCfg.head st _ _ fun _ => rfl

theorem windowAt_onFetchCfg (st : Settings) (i j : Nat) {f : FetchCfg → FetchCfg} (h : ∀ c, (f c).windows = c.windows) :
    (st.onFetchCfg i f).windowAt j = st.windowAt j := by
  rw [Settings.windowAt, fetchCfg_onFetchCfg_keeps FetchCfg.windows st _ _ h, Settings.windowAt]

theorem windowAt_onWindow_same (st : Settings) {i : Nat} (f : Window → Window) (h : i < 16) :
    (st.onWindow i f).windowAt i = f (st.windowAt i) := by
  rw [Settings.windowAt, Settings.onWindow, fetchCfg_onFetchCfg_same st _ (by omega)]
  exact vgetD_vmodNat_same _ f _ (Nat.mod_lt _ (by decide))

theorem windowAt_onWindow_other (st : Settings) {i j : Nat} (f : Window → Window) (h : j ≠ i) :
    (st.onWindow i f).windowAt j = st.windowAt j := by
  by_cases hchan : j / 4 = i / 4
  · have hwin : j % 4 ≠ i % 4 := by omega
    by_cases hlt : i / 4 < 4
    · rw [Settings.windowAt, Settings.onWindow, hchan, fetchCfg_onFetchCfg_same st _ hlt, Settings.windowAt, hchan]
      exact vgetD_vmodNat_other _ f _ hwin
    · simp [Settings.windowAt, Settings.fetchCfg, vgetD, hchan, hlt]
  · rw [Settings.windowAt, Settings.onWindow, fetchCfg_onFetchCfg_other st _ hchan, Settings.windowAt]

theorem fetchHead_setItem {code i j : Nat} (st : Settings) (v : Nat) (h : ¬ (15 ≤ code ∧ code ≤ 17) ∨ j ≠ i) :
    ((st.setItem code i v).fetchCfg j).head = (st.fetchCfg j).head := by
  unfold Settings.setItem
  split
  case h_15 | h_16 | h_17 => rw [fetchCfg_onFetchCfg_other st _ (h.resolve_left (by decide))]
  case h_18 | h_19 | h_20 | h_21 | h_22 => exact fetchHead_onWindow st i j _
  all_goals rfl

theorem windowAt_setItem {code i j : Nat} (st : Settings) (v : Nat) (h : ¬ (18 ≤ code ∧ code ≤ 22) ∨ j ≠ i) :
    (st.setItem code i v).windowAt j = st.windowAt j := by
  unfold Settings.setItem
  split
  case h_15 | h_16 | h_17 => exact windowAt_onFetchCfg st i j fun _ => rfl
  case h_18 | h_19 | h_20 | h_21 | h_22 => exact windowAt_onWindow_other st _ (h.resolve_left (by decide))
  all_goals rfl

/-! ## What an item reads -/

theorem item_of_term {s t : Settings} {c i : Nat} (hc : 2 ≤ c ∧ c ≤ 7) (h : s.term i = t.term i) : s.item c i = t.item c i := by
  obtain ⟨hlo, hhi⟩ := hc
  interval_cases c <;> simp [Settings.item, h]

theorem item_of_streamCfg {s t : Settings} {c i : Nat} (hc : 11 ≤ c ∧ c ≤ 14) (h : s.streamCfg i = t.streamCfg i) :
    s.item c i = t.item c i := by
  obtain ⟨hlo, hhi⟩ := hc
  interval_cases c <;> simp [Settings.item, h]

theorem item_of_fetchHead {s t : Settings} {c i : Nat} (hc : 15 ≤ c ∧ c ≤ 17) (h : (s.fetchCfg i).head = (t.fetchCfg i).head) :
    s.item c i = t.item c i := by
  obtain ⟨hlo, hhi⟩ := hc
  simp only [FetchCfg.head, Prod.mk.injEq] at h
  obtain ⟨henabled, htimeout, hretries⟩ := h
  interval_cases c <;> simp [Settings.item, henabled, htimeout, hretries]

theorem item_of_windowAt {s t : Settings} {c i : Nat} (hc : 18 ≤ c ∧ c ≤ 22) (h : s.windowAt i = t.windowAt i) :
    s.item c i = t.item c i := by
  obtain ⟨hlo, hhi⟩ := hc
  interval_cases c <;> simp [Settings.item, h]

theorem item_number {c : Nat} (s : Settings) (i : Nat) (hc : (8 ≤ c ∧ c ≤ 10) ∨ (23 ≤ c ∧ c ≤ 28) ∨ c = 30) :
    s.item c i = s.numbers c := by
  rcases hc with ⟨hlo, hhi⟩ | ⟨hlo, hhi⟩ | rfl
  · interval_cases c <;> rfl
  · interval_cases c <;> rfl
  · rfl

/-- Setting an item leaves what its own part holds beside it. -/
theorem item_setItem_term {code c i : Nat} (st : Settings) (v : Nat) (hcode : 2 ≤ code ∧ code ≤ 7) (hc : 2 ≤ c ∧ c ≤ 7)
    (hne : c ≠ code) (hi : i < 8) : (st.setItem code i v).item c i = st.item c i := by
  obtain ⟨hlo, hhi⟩ := hcode
  obtain ⟨hclo, hchi⟩ := hc
  interval_cases code <;> interval_cases c <;> simp [Settings.item, Settings.setItem, term_onTerm_same st _ hi] at hne ⊢

theorem item_setItem_streamCfg {code c i : Nat} (st : Settings) (v : Nat) (hcode : 11 ≤ code ∧ code ≤ 14) (hc : 11 ≤ c ∧ c ≤ 14)
    (hne : c ≠ code) (hi : i < 4) : (st.setItem code i v).item c i = st.item c i := by
  obtain ⟨hlo, hhi⟩ := hcode
  obtain ⟨hclo, hchi⟩ := hc
  interval_cases code <;> interval_cases c <;> simp [Settings.item, Settings.setItem, streamCfg_onStreamCfg_same st _ hi] at hne ⊢

theorem item_setItem_fetchCfg {code c i : Nat} (st : Settings) (v : Nat) (hcode : 15 ≤ code ∧ code ≤ 17) (hc : 15 ≤ c ∧ c ≤ 17)
    (hne : c ≠ code) (hi : i < 4) : (st.setItem code i v).item c i = st.item c i := by
  obtain ⟨hlo, hhi⟩ := hcode
  obtain ⟨hclo, hchi⟩ := hc
  interval_cases code <;> interval_cases c <;> simp [Settings.item, Settings.setItem, fetchCfg_onFetchCfg_same st _ hi] at hne ⊢

theorem item_setItem_windowAt {code c i : Nat} (st : Settings) (v : Nat) (hcode : 18 ≤ code ∧ code ≤ 22) (hc : 18 ≤ c ∧ c ≤ 22)
    (hne : c ≠ code) (hi : i < 16) : (st.setItem code i v).item c i = st.item c i := by
  obtain ⟨hlo, hhi⟩ := hcode
  obtain ⟨hclo, hchi⟩ := hc
  interval_cases code <;> interval_cases c <;> simp [Settings.item, Settings.setItem, windowAt_onWindow_same st _ hi] at hne ⊢

/-- A setting that is a number of its own. -/
def isNumber (c : Nat) : Prop := (8 ≤ c ∧ c ≤ 10) ∨ (23 ≤ c ∧ c ≤ 28) ∨ c = 30

theorem index_of_number {c i : Nat} (hc : isNumber c) (h : itemKnown c i = true) : i = 0 := by
  unfold isNumber at hc
  have := (itemKnown_iff c i).mp h
  omega

theorem item_setItem_number {code index c i : Nat} (st : Settings) (v : Nat) (hnumber : isNumber c)
    (hcode : itemKnown code index = true) (hc : itemKnown c i = true) (hne : (c, i) ≠ (code, index)) :
    (st.setItem code index v).item c i = st.item c i := by
  have hother : code ≠ c := by
    rintro rfl
    exact hne (by rw [index_of_number hnumber hc, index_of_number hnumber hcode])
  rw [item_number _ i hnumber, item_number _ i hnumber, setItem_numbers st index v hother]

theorem item_setItem_other {code index c i : Nat} (st : Settings) (v : Nat) (hcode : itemKnown code index = true)
    (hc : itemKnown c i = true) (hne : (c, i) ≠ (code, index)) : (st.setItem code index v).item c i = st.item c i := by
  have hsame : i = index → c ≠ code := fun hi hcc => hne (by rw [hi, hcc])
  rcases (itemKnown_iff c i).mp hc with ⟨rfl, hi⟩ | ⟨hlo, hhi, hi⟩ | ⟨hlo, hhi, rfl⟩ | ⟨hlo, hhi, hi⟩ | ⟨hlo, hhi, hi⟩ |
    ⟨hlo, hhi, rfl⟩ | ⟨rfl, hi⟩ | ⟨rfl, rfl⟩
  · show vgetD (st.setItem code index v).filterWidth i 0 = vgetD st.filterWidth i 0
    by_cases h : code = 1
    · subst h
      exact vgetD_vmodNat_other _ _ _ fun hi => hsame hi rfl
    · rw [setItem_filterWidth st index v h]
  · by_cases hi' : i = index
    · by_cases h : 2 ≤ code ∧ code ≤ 7
      · exact hi' ▸ item_setItem_term st v h ⟨hlo, hhi⟩ (hsame hi') hi
      · exact item_of_term ⟨hlo, hhi⟩ (by rw [Settings.term, setItem_terms st index v h, Settings.term])
    · exact item_of_term ⟨hlo, hhi⟩ (term_setItem_other st v hi')
  · exact item_setItem_number st v (.inl ⟨hlo, hhi⟩) hcode hc hne
  · by_cases hstream : c ≤ 14
    · by_cases hi' : i = index
      · by_cases h : 11 ≤ code ∧ code ≤ 14
        · exact hi' ▸ item_setItem_streamCfg st v h ⟨hlo, hstream⟩ (hsame hi') hi
        · exact item_of_streamCfg ⟨hlo, hstream⟩ (by rw [Settings.streamCfg, setItem_stream st index v h, Settings.streamCfg])
      · exact item_of_streamCfg ⟨hlo, hstream⟩ (streamCfg_setItem_other st v hi')
    · by_cases h : (15 ≤ code ∧ code ≤ 17) ∧ i = index
      · obtain ⟨hcodes, rfl⟩ := h
        exact item_setItem_fetchCfg st v hcodes ⟨by omega, hhi⟩ (hsame rfl) hi
      · exact item_of_fetchHead ⟨by omega, hhi⟩ (fetchHead_setItem st v (not_and_or.mp h))
  · by_cases h : (18 ≤ code ∧ code ≤ 22) ∧ i = index
    · obtain ⟨hcodes, rfl⟩ := h
      exact item_setItem_windowAt st v hcodes ⟨hlo, hhi⟩ (hsame rfl) hi
    · exact item_of_windowAt ⟨hlo, hhi⟩ (windowAt_setItem st v (not_and_or.mp h))
  · exact item_setItem_number st v (.inr (.inl ⟨hlo, hhi⟩)) hcode hc hne
  · show vgetD (st.setItem code index v).lineRate i 0 = vgetD st.lineRate i 0
    by_cases h : code = 29
    · subst h
      exact vgetD_vmodNat_other _ _ _ fun hi => hsame hi rfl
    · rw [setItem_lineRate st index v h]
  · exact item_setItem_number st v (.inr (.inr rfl)) hcode hc hne

/-- An item reads as the value that it has been set to, where that is a legal and clamped one. -/
theorem item_setItem_same {code index : Nat} (st : Settings) (v : Nat) (hcode : itemKnown code index = true)
    (hlegal : itemLegal code v = true) : (st.setItem code index (clampItem code v)).item code index = clampItem code v := by
  obtain ⟨hone, hthree⟩ := (itemLegal_iff code v).mp hlegal
  rcases (itemKnown_iff code index).mp hcode with ⟨rfl, hi⟩ | ⟨hlo, hhi, hi⟩ | ⟨hlo, hhi, rfl⟩ | ⟨hlo, hhi, hi⟩ | ⟨hlo, hhi, hi⟩ |
    ⟨hlo, hhi, rfl⟩ | ⟨rfl, hi⟩ | ⟨rfl, rfl⟩
  · exact vgetD_vmodNat_same _ _ _ hi
  · interval_cases code <;> simp [Settings.item, Settings.setItem, clampItem, term_onTerm_same st _ hi, boolNat] at hone ⊢
    all_goals interval_cases v <;> rfl
  · interval_cases code <;> rfl
  · rcases Nat.lt_or_ge 14 code with hfetch | hstream
    · interval_cases code <;> simp [Settings.item, Settings.setItem, clampItem, fetchCfg_onFetchCfg_same st _ hi, boolNat] at hone ⊢
      all_goals interval_cases v <;> rfl
    · interval_cases code <;> simp [Settings.item, Settings.setItem, clampItem, streamCfg_onStreamCfg_same st _ hi, boolNat] at hone ⊢
      all_goals interval_cases v <;> rfl
  · interval_cases code <;> simp [Settings.item, Settings.setItem, clampItem, windowAt_onWindow_same st _ hi, boolNat] at hone hthree ⊢
    all_goals interval_cases v <;> rfl
  · interval_cases code <;> rfl
  · exact vgetD_vmodNat_same _ _ _ hi
  · simp [Settings.item, Settings.setItem, clampItem]

/-! ## The settings after all items -/

theorem packed_eq (c : StreamCfg) : (if 16 < c.wordLen then { c with packing := false } else c) =
    { c with packing := c.packing && decide (c.wordLen ≤ 16) } := by
  by_cases h : 16 < c.wordLen
  · rw [if_pos h, decide_eq_false (Nat.not_le.mpr h), Bool.and_false]
  · rw [if_neg h, decide_eq_true (Nat.not_lt.mp h), Bool.and_true]

theorem withItems_eq (s : Settings) (items : List Item) :
    let set := items.foldl (fun t it => t.setItem it.code it.index (clampItem it.code it.value)) s
    s.withItems items = { set with stream := Vector.ofFn fun i : Fin 4 =>
      { set.stream[i] with packing := (set.stream[i]).packing && decide ((set.stream[i]).wordLen ≤ 16) } } := by
  intro set
  have hstream : vmap (fun c => if 16 < c.wordLen then { c with packing := false } else c) set.stream =
      Vector.ofFn fun i : Fin 4 => { set.stream[i] with packing := (set.stream[i]).packing && decide ((set.stream[i]).wordLen ≤ 16) } :=
    congrArg Vector.ofFn (funext fun i => packed_eq set.stream[i])
  exact congrArg (fun v => { set with stream := v }) hstream

theorem any_toList {α : Type} {n : Nat} (v : Vector α n) (f : α → Bool) :
    v.toList.any f = (List.finRange n).any fun i => f v[i] := by
  rw [Bool.eq_iff_iff, List.any_eq_true, List.any_eq_true]
  constructor
  · rintro ⟨x, hx, hf⟩
    obtain ⟨i, hi, rfl⟩ := Vector.mem_iff_getElem.mp (Vector.mem_toList_iff.mp hx)
    exact ⟨⟨i, hi⟩, List.mem_finRange _, hf⟩
  · rintro ⟨i, -, hf⟩
    exact ⟨_, Vector.mem_toList_iff.mpr (Vector.getElem_mem i.isLt), hf⟩

/-- The items leave what lies beside the blocks and the working settings. -/
theorem frameOf_applyItems (items : List Item) (s : State) :
    frameOf (applyItems items s) = frameOf { s with settings := s.settings.withItems items } := by
  unfold applyItems applyFilters applyTerms
  refine (frameOf_forEach _ _ (fun i s => ?_) _).trans ((frameOf_forEach _ _ (fun n s => ?_) _).trans rfl)
  · exact frameOf_ite _ _ _ _ rfl (frameOf_takeCandidate i s)
  · exact frameOf_ite _ _ _ _ (frameOf_rearm n s) rfl

theorem plan_of_frame {s t : State} (h : frameOf s = frameOf t) : s.plan = t.plan := by
  simp only [frameOf, Prod.mk.injEq] at h
  obtain ⟨-, -, -, -, -, -, -, -, hplan, -⟩ := h
  exact hplan

theorem takeWorking_of_beside {u s : State} (h : besideWorking u = besideWorking s) : takeWorking u (keeping (fun _ => u) s) = u := by
  simp only [besideWorking, Prod.mk.injEq] at h
  obtain ⟨hpending, hpowered, hready, htime, hepoch, hvalid, hpins, hflash⟩ := h
  rw [takeWorking, keeping, ← hpending, ← hpowered, ← hready, ← htime, ← hepoch, ← hvalid, ← hpins, ← hflash]

/-! ## The request -/

theorem writeSettings_of_length {p : PortId} {payload : List Byte} {s : State} (h : itemsLengthOk payload.length = false) :
    writeSettings p payload s = refuse p .badLength s := if_pos (by rw [h]; rfl)

theorem writeSettings_of_refused {p : PortId} {payload : List Byte} {s : State} {st : Status}
    (h : itemsLengthOk payload.length = true) (hr : itemsRefused (itemsOf payload) s = some st) :
    writeSettings p payload s = refuse p st s := by
  refine (if_neg (by rw [h]; decide)).trans ?_
  dsimp only
  rw [hr]

theorem writeSettings_of_taken {p : PortId} {payload : List Byte} {s : State}
    (h : itemsLengthOk payload.length = true) (hr : itemsRefused (itemsOf payload) s = none) :
    writeSettings p payload s = settle (answer p .ok (itemsClamped s.settings (itemsOf payload))
      (listField ((itemsOf payload).map fun it => (applyItems (itemsOf payload) s).settings.itemBytes it.code it.index))
      (applyItems (itemsOf payload) s)) := by
  refine (if_neg (by rw [h]; decide)).trans ?_
  dsimp only
  rw [hr]

theorem listField_itemBytes (items : List Item) (s : Settings) :
    listField (items.map fun it => s.itemBytes it.code it.index) =
      leBytes 2 items.length ++ (items.map fun it => leBytes 1 it.code ++ leBytes 1 it.index ++ leBytes 4 (s.item it.code it.index)).flatten := by
  rw [listField, List.length_map]
  rfl

theorem window_shaped_iff (w : Window) : w.shaped = true ↔ ¬ w.limit < w.base := by
  simp [Window.shaped]

theorem itemLegal_eq_false_iff (code v : Nat) : itemLegal code v = false ↔
    (code ∈ [4, 5, 7, 11, 12, 14, 15, 18, 22] ∧ 1 < v) ∨ (code = 19 ∧ 3 < v) := by
  rw [← Bool.not_eq_true, itemLegal_iff, not_and_or, Classical.not_imp, Classical.not_imp, Nat.not_le, Nat.not_le]

theorem some_illegal_iff (items : List Item) : (!(items.all fun it => itemLegal it.code it.value)) = true ↔
    ∃ it ∈ items, (it.code ∈ [4, 5, 7, 11, 12, 14, 15, 18, 22] ∧ 1 < it.value) ∨ (it.code = 19 ∧ 3 < it.value) := by
  rw [Bool.not_eq_true', List.all_eq_false]
  simp only [Bool.not_eq_true, itemLegal_eq_false_iff]

theorem some_shapeless_iff (s : Settings) (items : List Item) : (!windowsShaped s items) = true ↔
    ∃ it ∈ items, 18 ≤ it.code ∧ it.code ≤ 22 ∧
      ((s.withItems items).windowAt it.index).limit < ((s.withItems items).windowAt it.index).base := by
  rw [Bool.not_eq_true', windowsShaped, List.all_eq_false]
  refine exists_congr fun it => and_congr_right fun _ => ?_
  rw [Bool.not_eq_true, Bool.or_eq_false_iff, Bool.not_eq_false', Bool.and_eq_true, decide_eq_true_eq, decide_eq_true_eq, and_assoc,
    ← Bool.not_eq_true, window_shaped_iff, not_not]

/-- The checks of R174, in their order. -/
theorem itemsRefused_eq (items : List Item) (s : State) :
    itemsRefused items s =
      if (!(items.all fun it => itemKnown it.code it.index)) = true then some .badValue
      else if ((items.any fun it => isChannelItem it.code) && inProgress s) = true then some .refusedState
      else if (!(items.all fun it => itemLegal it.code it.value)) = true then some .badValue
      else if (!windowsShaped s.settings items) = true then some .badValue
      else none := rfl

/-- Settles O50: the items one by one, and the checks of the request in their order. -/
theorem writeSettingsTakesAllItemsOrNone : Obligations.WriteSettingsTakesAllItemsOrNone := by
  refine ⟨itemKnown_iff, fun v => ?_, fun st code index v hknown hone hthree => ?_, fun p tag payload s hs => ?_⟩
  · intro within
    refine ⟨clampTo_eq (by decide) v, rfl, rfl, min_eq_within _ v, min_eq_within _ v, clampTo_eq (by decide) v, min_eq_within _ v,
      clampTo_eq (by decide) v, min_eq_within _ v, clampTo_eq (by decide) v, clampTo_eq (by decide) v, clampTo_eq (by decide) v,
      clampTo_eq (by decide) v, clampTo_eq (by decide) v, clampTo_eq (by decide) v, rfl, clampWordLen_spec v, nearestRate_spec v, ?_⟩
    simp [clampItem]
  · intro t
    have hlegal : itemLegal code v = true := (itemLegal_iff code v).mpr ⟨hone, hthree⟩
    exact ⟨item_setItem_same st v hknown hlegal, fun c i hc hne => item_setItem_other st _ hknown hc hne⟩
  · intro ok items refused unknown locked illegal shapeless
    have hok : itemsLengthOk payload.length = true ↔ ok := by simp [itemsLengthOk, ok, and_assoc]
    have hunknown : (!(items.all fun it => itemKnown it.code it.index)) = true ↔ unknown := by simp [unknown]
    have hlocked : ((items.any fun it => isChannelItem it.code) && inProgress (accept p kWriteSettings tag s)) = true ↔ locked := by
      rw [show inProgress (accept p kWriteSettings tag s) = inProgress s from rfl, Bool.and_eq_true, and_comm]
      simp [locked, isChannelItem]
    have hillegal := some_illegal_iff items
    have hshapeless := some_shapeless_iff s.settings items
    have hchecks := itemsRefused_eq items (accept p kWriteSettings tag s)
    have hrefused : ∀ st, ok → itemsRefused items (accept p kWriteSettings tag s) = some st → refused st := fun st h hr =>
      requestBut_refused (take := takeWorking) (body := writeSettings p payload) (fun _ => rfl) hs
        (writeSettings_of_refused (hok.mpr h) hr)
    refine ⟨fun hno => ?_, fun h hu => ?_, fun h hu hl => ?_, fun h hu hl hbad => ?_, fun h hu hl hi hw => ?_⟩
    · exact requestBut_refused (take := takeWorking) (body := writeSettings p payload) (fun _ => rfl) hs
        (writeSettings_of_length (Bool.eq_false_iff.mpr (mt hok.mp hno)))
    · exact hrefused _ h (hchecks.trans (if_pos (hunknown.mpr hu)))
    · exact hrefused _ h (hchecks.trans ((if_neg (mt hunknown.mp hu)).trans (if_pos (hlocked.mpr hl))))
    · refine hrefused _ h (hchecks.trans ((if_neg (mt hunknown.mp hu)).trans ((if_neg (mt hlocked.mp hl)).trans ?_)))
      by_cases hi : illegal
      · exact if_pos (hillegal.mpr hi)
      · exact (if_neg (mt hillegal.mp hi)).trans (if_pos (hshapeless.mpr (hbad.resolve_left hi)))
    · intro set u
      have hnone : itemsRefused items (accept p kWriteSettings tag s) = none :=
        hchecks.trans ((if_neg (mt hunknown.mp hu)).trans ((if_neg (mt hlocked.mp hl)).trans
          ((if_neg (mt hillegal.mp hi)).trans (if_neg (mt hshapeless.mp hw)))))
      have hframe := frameOf_applyItems items (accept p kWriteSettings tag s)
      have hsettings : u.settings = s.settings.withItems items := settings_of_frame hframe
      have hbeside : besideWorking u = besideWorking s := (besideWorking_of_frame hframe).trans rfl
      have hclamped : itemsClamped s.settings items = ((items.any fun it => clampItem it.code it.value ≠ it.value) ||
          (List.finRange 4).any fun i => (set.stream[i]).packing && decide (16 < (set.stream[i]).wordLen)) :=
        congrArg (fun b => (items.any fun it => clampItem it.code it.value ≠ it.value) || b) (any_toList set.stream _)
      refine ⟨hsettings.trans (withItems_eq s.settings items), hsettings, (plan_of_frame hframe).trans rfl,
        congrArg (fun f => f.2.2.2.2.2.2.2) hbeside, ?_⟩
      have htaken := writeSettings_of_taken (p := p) (hok.mpr h) hnone
      rw [listField_itemBytes] at htaken
      have hafter : ∀ b fields, besideWorking (settle (answer p .ok b fields u)) = besideWorking s := fun b fields =>
        (besideWorking_of_frame (frameOf_settle _)).trans hbeside
      rw [← hclamped]
      exact requestBut_next (take := takeWorking) (body := writeSettings p payload) hs htaken (takeWorking_of_beside (hafter _ _))

end Sys2Proof.Machine
end

