-- ==== Sys2Proof/Proofs/StoreAndErase.lean ====
section
/-! PROOFS. Sys2Proof/Proofs/StoreAndErase.lean: STORE_SETTINGS and ERASE_ALL, their requests and their steps (R150, R163, R176). -/

namespace Sys2Proof.Machine

/-! ## STORE_SETTINGS (R176) -/

theorem storeSettings_eq (p : PortId) (s : State) :
    storeSettings p [] s =
      if !isNormal s then refuse p .holdup s
      else if s.dir.eraseAll.isSome || s.link.store.isSome then refuse p .inProgress s
      else enqueue (.erase .settings settingsBlock) ((setWait p .settings s).onLink fun l =>
        { l with store := some { port := p, image := settingsImage s.settings s.plan, step := .erasing, failed := false } }) := by
  rw [storeSettings, withLength_of_eq (n := 0) rfl]
  rfl

/-- The lowest position none of whose pages is retired. -/
theorem lowestPosition_of_first {retired : List Nat} {k : Nat} (hk : k < 32) (husable : ∀ j : Nat, j < 4 → 256 + 4 * k + j ∉ retired)
    (hfirst : ∀ i : Nat, i < k → ¬ ∀ j : Nat, j < 4 → 256 + 4 * i + j ∉ retired) : lowestPosition retired = some k := by
  have hpages : ∀ i, ((List.range positionPages).all fun j => !retired.contains (blockPages * settingsBlock + positionPages * i + j)) = true ↔
      ∀ j : Nat, j < 4 → 256 + 4 * i + j ∉ retired := by
    intro i
    simp [positionPages, blockPages, settingsBlock]
  rw [lowestPosition, List.find?_range_eq_some]
  refine ⟨(hpages k).mpr husable, List.mem_range.mpr hk, fun i hi => ?_⟩
  rw [Bool.not_eq_true', ← Bool.not_eq_true, hpages i]
  exact hfirst i hi

theorem lowestPosition_of_none {retired : List Nat} (h : ∀ k : Nat, k < 32 → ¬ ∀ j : Nat, j < 4 → 256 + 4 * k + j ∉ retired) :
    lowestPosition retired = none := by
  rw [lowestPosition, List.find?_range_eq_none]
  intro k hk
  have := h k hk
  simpa [positionPages, blockPages, settingsBlock] using this

theorem storeErased_of_position {s : State} {op : StoreOp} {k : Nat} (hop : s.link.store = some op)
    (hk : lowestPosition s.store.retPages = some k) :
    storeErased s = enqueue .settings (s.onLink fun l => { l with store := some { op with step := .programming (256 + 4 * k) 0 } }) := by
  simp only [storeErased, hop, hk]
  rfl

theorem storeErased_of_full {s : State} {op : StoreOp} (hop : s.link.store = some op)
    (hk : lowestPosition s.store.retPages = none) : storeErased s = endStore .refusedState [] s := by
  simp only [storeErased, hop, hk]

theorem storePageAccepted_eq {s : State} {op : StoreOp} {first k : Nat} (hop : s.link.store = some op)
    (hstep : op.step = .programming first k) :
    storePageAccepted s = if k + 1 < positionPages then
        enqueue .settings (s.onLink fun l => { l with store := some { op with step := .programming first (k + 1) } })
      else endStore .ok (leBytes 1 ((first - 256) / 4)) (post (.port op.port) evSettingsStored [] s) := by
  simp only [storePageAccepted, hop, hstep]
  rfl

theorem storeFailed_eq {s : State} {op : StoreOp} (hop : s.link.store = some op) :
    storeFailed s = if op.failed then endStore .refusedState [] s
      else if !isNormal s then endStore .holdup [] s
      else enqueue (.erase .settings settingsBlock)
        (s.onLink fun l => { l with store := some { op with step := .erasing, failed := true } }) := by
  simp only [storeFailed, hop]

/-! ## ERASE_ALL (R150) -/

theorem eraseEverything_eq (p : PortId) (s : State) :
    eraseEverything p [] s =
      if !isNormal s then refuse p .holdup s
      else if inProgress s then refuse p .inProgress s
      else settle (((setWait p .eraseAll s).onEngine fun e => { e with state := .erasing }).onDir fun d =>
        { d with eraseAll := some { port := p, step := .waiting, blocks := [], captures := 0, erased := 0 } }) := by
  rw [eraseEverything, withLength_of_eq (n := 0) rfl]
  rfl

theorem erasing_iff (s : State) (cap : Nat) : erasing s cap = true ↔
    (∃ x ∈ s.dir.slotted, x.who = .eraseAll ∧ x.record = .delete cap .eraseAll) ∨
      (JRec.delete cap .eraseAll, Who.eraseAll) ∈ s.dir.pending := by
  have hpending : (s.dir.pending.any fun x => x.2 = .eraseAll && x.1 = .delete cap .eraseAll) = true ↔
      (JRec.delete cap .eraseAll, Who.eraseAll) ∈ s.dir.pending := by
    rw [List.any_eq_true]
    constructor
    · rintro ⟨⟨r, w⟩, hx, h⟩
      simp only [Bool.and_eq_true, decide_eq_true_eq] at h
      obtain ⟨rfl, rfl⟩ := h
      exact hx
    · exact fun h => ⟨_, h, by simp⟩
  rw [erasing, Bool.or_eq_true_iff, hpending, List.any_eq_true]
  simp only [Bool.and_eq_true, decide_eq_true_eq]

theorem anyCommit_iff (s : State) : anyCommit s = true ↔ ∃ p : PortId, committing p s ≠ none := by
  rw [anyCommit, List.any_eq_true]
  simp only [Option.isSome_iff_ne_none]
  exact ⟨fun ⟨p, _, h⟩ => ⟨p, h⟩, fun ⟨p, h⟩ => ⟨p, by cases p <;> decide, h⟩⟩

theorem eraseAllStep_waiting {s : State} {e : EraseAll} (he : s.dir.eraseAll = some e) (h : e.step = .waiting) :
    eraseAllStep s = if s.dir.comp.state = .none && !anyCommit s then .did (setEraseStep .deleting s) else .wait := by
  simp only [eraseAllStep, he, h]

theorem eraseAllStep_deleting {s : State} {e : EraseAll} (he : s.dir.eraseAll = some e) (h : e.step = .deleting) :
    eraseAllStep s = if (entriesOf s.dir).isEmpty then .did (setEraseStep .pool s)
      else ((entriesByCap s.dir).find? fun x => !erasing s x.cap).elim .wait fun x =>
        if journalRoom s && ordinaryOk s then .did (hand (.delete x.cap .eraseAll) .eraseAll s) else .wait := by
  simp only [eraseAllStep, he, h]
  cases (entriesByCap s.dir).find? fun x => !erasing s x.cap <;> rfl

theorem eraseAllStep_pool {s : State} {e : EraseAll} (he : s.dir.eraseAll = some e) (h : e.step = .pool) :
    eraseAllStep s = if (awaitErase 3 (setEraseStep .checkpoint s)).integ.poolErase = .none then
        .did (enqueue (.erase .pool 3)
          ((awaitErase 3 (setEraseStep .checkpoint s)).onInteg fun g => { g with poolErase := .queued }))
      else .did (awaitErase 3 (setEraseStep .checkpoint s)) := by
  simp only [eraseAllStep, he, h]

theorem eraseAllStep_checkpoint {s : State} {e : EraseAll} (he : s.dir.eraseAll = some e) (h : e.step = .checkpoint) :
    eraseAllStep s = if s.dir.comp.state = .none then
        .did (awaitErase (otherBlock s.dir)
          (s.onDir fun d => { d with comp := { Compaction.initial with state := .clearing, all := true } }))
      else .wait := by
  simp only [eraseAllStep, he, h]

theorem eraseAllStep_erases {s : State} {e : EraseAll} (he : s.dir.eraseAll = some e) (h : e.step = .erases) :
    eraseAllStep s = if e.blocks.isEmpty then
        .did (answer e.port .ok false (leBytes 4 e.captures ++ leBytes 4 e.erased)
          (setEngState .idle (s.onDir fun d => { d with eraseAll := none })))
      else .wait := by
  simp only [eraseAllStep, he, h]

theorem setEraseStep_of_some {s : State} {e : EraseAll} (k : EraseStep) (he : s.dir.eraseAll = some e) :
    setEraseStep k s = { s with dir := { s.dir with eraseAll := some { e with step := k } } } := by
  rw [setEraseStep, State.onDir, he, Option.map_some]

theorem awaitErase_of_some {s : State} {e : EraseAll} (block : Nat) (he : s.dir.eraseAll = some e) :
    awaitErase block s = { s with dir := { s.dir with eraseAll := some { e with blocks := e.blocks ++ [block] } } } := by
  rw [awaitErase, State.onDir, he, Option.map_some]

/-! ## What leaves ERASE_ALL as it stands -/

@[simp] theorem eraseAll_hand (r : JRec) (who : Who) (s : State) : (hand r who s).dir.eraseAll = s.dir.eraseAll := by
  rw [hand_tables]

@[simp] theorem eraseAll_handRetirement (r : JRec) (s : State) : (handRetirement r s).dir.eraseAll = s.dir.eraseAll := by
  unfold handRetirement
  split
  · exact eraseAll_hand r _ s
  · rfl

@[simp] theorem eraseAll_retirePage (page : Nat) (s : State) : (retirePage page s).dir.eraseAll = s.dir.eraseAll :=
  eraseAll_handRetirement _ _

@[simp] theorem eraseAll_setBlock (block : Nat) (b : BlockState) (s : State) : (setBlock block b s).dir.eraseAll = s.dir.eraseAll := by
  unfold setBlock
  split <;> rfl

@[simp] theorem eraseAll_retireBlock (block : Nat) (cause : RetireCause) (s : State) :
    (retireBlock block cause s).dir.eraseAll = s.dir.eraseAll :=
  (eraseAll_handRetirement _ _).trans (eraseAll_setBlock _ _ _)

theorem eraseAll_forEach {α : Type} (xs : List α) (f : α → State → State) (h : ∀ x s, (f x s).dir.eraseAll = s.dir.eraseAll)
    (s : State) : (forEach xs f s).dir.eraseAll = s.dir.eraseAll := by
  induction xs generalizing s with
  | nil => rfl
  | cons x xs ih => exact (ih (f x s)).trans (h x s)

@[simp] theorem eraseAll_retireForErase (pages : List Nat) (s : State) :
    (retireForErase pages s).dir.eraseAll = s.dir.eraseAll := by
  refine eraseAll_forEach pages _ (fun p s => ?_) s
  split
  · exact eraseAll_retirePage p s
  · rfl

@[simp] theorem eraseAll_reportEraseFail (page word : Nat) (s : State) :
    (reportEraseFail page word s).dir.eraseAll = s.dir.eraseAll := by
  unfold reportEraseFail offerError
  split <;> rfl

@[simp] theorem eraseAll_endStore (st : Status) (fields : List Byte) (s : State) :
    (endStore st fields s).dir.eraseAll = s.dir.eraseAll := by
  unfold endStore
  split <;> rfl

@[simp] theorem eraseAll_storeErased (s : State) : (storeErased s).dir.eraseAll = s.dir.eraseAll := by
  unfold storeErased
  split
  · rfl
  · exact eraseAll_endStore _ _ s
  · rfl

@[simp] theorem eraseAll_storeFailed (s : State) : (storeFailed s).dir.eraseAll = s.dir.eraseAll := by
  unfold storeFailed
  split
  · rfl
  · split
    · exact eraseAll_endStore _ _ s
    · split
      · exact eraseAll_endStore _ _ s
      · rfl

theorem eraseAll_givePending (n : Nat) (d : Directory) : (givePending n d).eraseAll = d.eraseAll := by
  induction n generalizing d with
  | zero => rfl
  | succ n ih =>
    unfold givePending
    split
    · rfl
    · split
      · exact ih _
      · rfl

theorem eraseAll_abandonCompaction (d : Directory) : (abandonCompaction d).eraseAll = d.eraseAll := eraseAll_givePending _ _

@[simp] theorem eraseAll_beginSnapshot (s : State) : (beginSnapshot s).dir.eraseAll = s.dir.eraseAll := by
  unfold beginSnapshot
  dsimp only [State.onDir]
  split
  · rfl
  · exact eraseAll_abandonCompaction s.dir

@[simp] theorem eraseAll_eraseHanded (who : Eraser) (done : Bool) (s : State) :
    (eraseHanded who done s).dir.eraseAll = s.dir.eraseAll := by
  cases who with
  | area => rfl
  | journal =>
    show (if s.dir.comp.state = .clearing then beginSnapshot s else s).dir.eraseAll = _
    split
    · exact eraseAll_beginSnapshot s
    · rfl
  | pool => rfl
  | settings =>
    cases done with
    | true => exact eraseAll_storeErased s
    | false => exact eraseAll_storeFailed s

theorem eraseAll_noteErase (block : Nat) (done : Bool) (s : State) :
    (noteErase block done s).dir.eraseAll = s.dir.eraseAll.map (EraseAll.ended block done) := rfl

theorem eraseAll_eraseEnded (who : Eraser) (block : Nat) (bad : List Nat) (s : State) :
    (eraseEnded who block bad s).dir.eraseAll = s.dir.eraseAll.map (EraseAll.ended block bad.isEmpty) := by
  unfold eraseEnded
  cases bad with
  | nil =>
    rw [eraseAll_noteErase, eraseAll_eraseHanded]
    split
    · rw [eraseAll_setBlock]
      rfl
    · rfl
  | cons p ps =>
    rw [eraseAll_noteErase, eraseAll_eraseHanded]
    split
    · rw [eraseAll_retireBlock, eraseAll_reportEraseFail]
      rfl
    · rw [eraseAll_retireForErase, eraseAll_reportEraseFail]
      rfl

theorem EraseAll.ended_eq (block : Nat) (bad : List Nat) (e : EraseAll) :
    e.ended block bad.isEmpty = if block ∈ e.blocks then
      { e with blocks := e.blocks.filter (fun b => b ≠ block), erased := if bad = [] then e.erased + 1 else e.erased }
    else e := by
  simp only [EraseAll.ended, List.contains_iff_mem, List.isEmpty_iff]

/-- A DELETE record of ERASE_ALL is accepted. -/
theorem recordAccepted_eraseAll {x : Slotted} {cap : Nat} {why : DeleteReason} {s : State} (hwho : x.who = .eraseAll)
    (hrecord : x.record = .delete cap why) :
    recordAccepted x s = (findEntry s.dir cap).elim s fun d =>
      post .directory evDeleted [cap, (liveBlocks s d).length] ((removeCapture d s).onDir fun y =>
        { y with eraseAll := y.eraseAll.map fun e => { e with captures := e.captures + 1, blocks := e.blocks ++ liveBlocks s d } }) := by
  simp only [recordAccepted, hwho, hrecord, deleteAccepted]
  cases findEntry s.dir cap <;> rfl

/-! ## The next pool page (R163) -/

theorem poolFrom_of_first {retired : List Nat} {k : Nat} (hk : k < 128) (hfree : 384 + k ∉ retired)
    (hfirst : ∀ j : Nat, j < k → 384 + j ∈ retired) : poolFrom retired 0 = k := by
  have hfind : (List.range blockPages).find? (fun i => 0 ≤ i && !retired.contains (poolBase + i)) = some k := by
    rw [List.find?_range_eq_some]
    refine ⟨?_, List.mem_range.mpr hk, fun j hj => ?_⟩
    · simpa [poolBase, blockPages] using hfree
    · simpa [poolBase, blockPages] using hfirst j hj
  rw [poolFrom, hfind]
  rfl

theorem poolFrom_of_full {retired : List Nat} (h : ∀ k : Nat, k < 128 → 384 + k ∈ retired) : poolFrom retired 0 = 128 := by
  have hfind : (List.range blockPages).find? (fun i => 0 ≤ i && !retired.contains (poolBase + i)) = none := by
    rw [List.find?_range_eq_none]
    intro k hk
    simpa [poolBase, blockPages] using h k hk
  rw [poolFrom, hfind]
  rfl

/-- Settles O52: each request by its checks, each step by what stands. -/
theorem storeSettingsAndEraseAllWait : Obligations.StoreSettingsAndEraseAllWait := by
  refine ⟨fun p tag s hs => ?_, fun op page s hop => ?_, fun p tag s hs => ⟨fun h => ?_, fun h hprog => ?_, fun h hprog => ?_⟩,
    fun e s he => ?_, fun x cap why d s hwho hrecord hd => ?_, fun done s => ?_, fun who block bad s => ?_⟩
  · intro refused
    have hbody := storeSettings_eq p (accept p kStoreSettings tag s)
    have hnormal : s.monitor.state = .normal → ¬ (!isNormal (accept p kStoreSettings tag s)) = true := fun h => by
      rw [show isNormal (accept p kStoreSettings tag s) = true from decide_eq_true h]
      decide
    have hbusy : ((accept p kStoreSettings tag s).dir.eraseAll.isSome || (accept p kStoreSettings tag s).link.store.isSome) = true ↔
        s.dir.eraseAll ≠ none ∨ s.link.store ≠ none := by
      rw [Bool.or_eq_true_iff, Option.isSome_iff_ne_none, Option.isSome_iff_ne_none]
      rfl
    refine ⟨fun h => ?_, fun h hstanding => ?_, fun h herase hstore => ?_⟩
    · exact request_refused (body := storeSettings p []) hs
        (hbody.trans (if_pos (by rw [show isNormal (accept p kStoreSettings tag s) = false from decide_eq_false h]; rfl)))
    · exact request_refused (body := storeSettings p []) hs (hbody.trans ((if_neg (hnormal h)).trans (if_pos (hbusy.mpr hstanding))))
    · intro op
      have hfree : ¬ (s.dir.eraseAll ≠ none ∨ s.link.store ≠ none) := fun hno => hno.elim (· herase) (· hstore)
      refine request_next (body := storeSettings p []) hs
        (hbody.trans ((if_neg (hnormal h)).trans ((if_neg (mt hbusy.mp hfree)).trans ?_))) rfl
      rw [setWait_accept]
      rfl
  · intro ended goesOn usable fails
    have hended : ∀ st fields t, t.link.store = some op → endStore st fields t = ended st fields t :=
      fun st fields t ht => endStore_of_some st fields ht
    have hfails : fails (storeFailed s) := by
      have hfailed := storeFailed_eq hop
      refine ⟨fun h => ?_, fun h hpower => ?_, fun h hpower => ?_⟩
      · exact (hfailed.trans (if_pos h)).trans (hended _ _ s hop)
      · exact (hfailed.trans ((if_neg (Bool.eq_false_iff.mp h)).trans
          (if_pos (by rw [isNormal_eq_false hpower]; rfl)))).trans (hended _ _ s hop)
      · exact hfailed.trans ((if_neg (Bool.eq_false_iff.mp h)).trans
          (if_neg (by rw [show isNormal s = true from decide_eq_true hpower]; decide)))
    refine ⟨fun k hk husable hfirst => ?_, fun hfull => ?_, fun first k hstep => ⟨fun hk => ?_, fun hk => ?_⟩, hfails, hfails⟩
    · exact storeErased_of_position hop (lowestPosition_of_first hk husable hfirst)
    · exact (storeErased_of_full hop (lowestPosition_of_none hfull)).trans (hended _ _ s hop)
    · exact (storePageAccepted_eq hop hstep).trans (if_pos (Nat.succ_lt_succ hk))
    · exact ((storePageAccepted_eq hop hstep).trans (if_neg (Nat.not_lt.mpr (Nat.succ_le_succ hk)))).trans
        (hended _ _ (post (.port op.port) evSettingsStored [] s) hop)
  · exact request_refused (body := eraseEverything p []) hs ((eraseEverything_eq p _).trans
      (if_pos (by rw [show isNormal (accept p kEraseAll tag s) = false from decide_eq_false h]; rfl)))
  · exact request_refused (body := eraseEverything p []) hs ((eraseEverything_eq p _).trans
      ((if_neg (by rw [show isNormal (accept p kEraseAll tag s) = true from decide_eq_true h]; decide)).trans (if_pos hprog)))
  · refine request_next (body := eraseEverything p []) hs ((eraseEverything_eq p _).trans
      ((if_neg (by rw [show isNormal (accept p kEraseAll tag s) = true from decide_eq_true h]; decide)).trans
        ((if_neg (Bool.eq_false_iff.mp hprog)).trans ?_))) (frameOf_settle _)
    rw [setWait_accept]
  · intro became onWay left
    have honWay : ∀ cap, erasing s cap = true ↔ onWay cap := fun cap => erasing_iff s cap
    refine ⟨fun hstep => ⟨fun hcomp hcommit => ?_, fun hwait => ?_⟩, fun hstep => ⟨fun hnone => ?_, fun d hd hmin => ?_, fun hsome hno => ?_⟩,
      fun hstep => ?_, fun hstep hcomp => ?_, fun hstep => ⟨fun hblocks => ?_, fun hblocks => ?_⟩⟩
    · have hnone : ¬ anyCommit s = true := fun h => by
        obtain ⟨p, hp⟩ := (anyCommit_iff s).mp h
        exact hp (hcommit p)
      refine (eraseAllStep_waiting he hstep).trans ((if_pos ?_).trans (congrArg Act.did (setEraseStep_of_some .deleting he)))
      rw [Bool.and_eq_true, decide_eq_true_eq, Bool.not_eq_true']
      exact ⟨hcomp, Bool.eq_false_iff.mpr hnone⟩
    · refine (eraseAllStep_waiting he hstep).trans (if_neg ?_)
      rw [Bool.and_eq_true, decide_eq_true_eq, Bool.not_eq_true', ← Bool.not_eq_true, anyCommit_iff]
      exact fun ⟨hcomp, hcommit⟩ => hwait.elim (· hcomp) hcommit
    · refine (eraseAllStep_deleting he hstep).trans ((if_pos ?_).trans (congrArg Act.did (setEraseStep_of_some .pool he)))
      rw [hnone, List.isEmpty_nil]
    · have hentries : ¬ (entriesOf s.dir).isEmpty = true := fun h => by
        have hmem := hd.1
        rw [List.isEmpty_iff.mp h] at hmem
        exact absurd hmem List.not_mem_nil
      have hleft : ∀ y : DirEntry, y ∈ entriesByCap s.dir → (!erasing s y.cap) = true → left y := fun y hy hno =>
        ⟨(mem_entriesByCap s.dir y).mp hy, fun h => by simp [(honWay y.cap).mpr h] at hno⟩
      obtain ⟨y, hy, hcap⟩ := find?_lowest (entriesByCap s.dir) (fun x => !erasing s x.cap) (pairwise_entriesByCap s.dir) d
        ((mem_entriesByCap s.dir d).mpr hd.1)
        (by rw [Bool.not_eq_true', ← Bool.not_eq_true, honWay]; exact hd.2) fun y hy hno => hmin y (hleft y hy hno)
      refine (eraseAllStep_deleting he hstep).trans ((if_neg hentries).trans ?_)
      rw [hy, Option.elim_some, hcap]
    · have hfind : (entriesByCap s.dir).find? (fun x => !erasing s x.cap) = none := by
        rw [List.find?_eq_none]
        intro y hy hleft
        refine hno y ⟨(mem_entriesByCap s.dir y).mp hy, fun h => ?_⟩
        simp [(honWay y.cap).mpr h] at hleft
      refine (eraseAllStep_deleting he hstep).trans ((if_neg (mt List.isEmpty_iff.mp hsome)).trans ?_)
      rw [hfind, Option.elim_none]
    · intro next
      have hnext : awaitErase 3 (setEraseStep .checkpoint s) = next := by
        rw [setEraseStep_of_some .checkpoint he, awaitErase_of_some 3 rfl]
      have hpool := eraseAllStep_pool he hstep
      rw [hnext] at hpool
      exact ⟨fun hfree => hpool.trans (if_pos hfree), fun hbusy => hpool.trans (if_neg hbusy)⟩
    · exact (eraseAllStep_checkpoint he hstep).trans (if_neg hcomp)
    · rw [eraseAllStep_erases he hstep, hblocks]
      rfl
    · refine (eraseAllStep_erases he hstep).trans (if_neg ?_)
      rwa [List.isEmpty_iff]
  · intro live
    rw [recordAccepted_eraseAll hwho hrecord, hd]
    rfl
  · intro u
    exact ⟨rfl, fun k => poolFrom_of_first, poolFrom_of_full⟩
  · intro counted
    rw [eraseAll_eraseEnded]
    refine congrArg (fun f => s.dir.eraseAll.map f) (funext fun e => ?_)
    exact EraseAll.ended_eq block bad e

end Sys2Proof.Machine
end

