-- ==== Sys2Proof/Proofs/HeadPages.lean ====
section
/-! PROOFS. Sys2Proof/Proofs/HeadPages.lean: captures that the directory does not hold, READ_HEAD, pages read through the map and the
classes of their words (R129, R152, R153, R155, R158). -/

namespace Sys2Proof.Machine

/-! ## Finding a capture (R155) -/

/-- The status of a number that the directory does not hold. -/
def missing (cap : Nat) (s : State) : Status := if cap = 0 ∨ s.dir.lastCap < cap then .notFound else .gone

theorem lookUp_of_none {cap : Nat} {s : State} (h : findEntry s.dir cap = none) : lookUp cap s = .error (missing cap s) := by
  simp only [lookUp, h, missing, Bool.or_eq_true, decide_eq_true_eq]

theorem lookUp_of_some {cap : Nat} {s : State} {e : DirEntry} (h : findEntry s.dir cap = some e) : lookUp cap s = .ok (shown s e) := by
  simp only [lookUp, h]

theorem withCapture_of_none {p : PortId} {payload : List Byte} {s : State} (f : DirEntry → State → State) (hlen : payload.length = 4)
    (h : findEntry s.dir (leNat payload) = none) :
    withLength 4 p payload (withCapture p payload f) s = refuse p (missing (leNat payload) s) s := by
  rw [withLength_of_eq hlen, withCapture, fieldAt_all payload 4 hlen, lookUp_of_none h]

theorem withCapture_of_some {p : PortId} {payload : List Byte} {s : State} {e : DirEntry} (f : DirEntry → State → State)
    (hlen : payload.length = 4) (h : findEntry s.dir (leNat payload) = some e) :
    withLength 4 p payload (withCapture p payload f) s = f (shown s e) s := by
  rw [withLength_of_eq hlen, withCapture, fieldAt_all payload 4 hlen, lookUp_of_some h]

theorem readSection_of_none {p : PortId} {num4 rest : List Byte} {s : State} (hlen : num4.length = 4) (hrest : rest.length = 7)
    (h : findEntry s.dir (leNat num4) = none) :
    readSection p (num4 ++ rest) s = setAhead p none (refuse p (missing (leNat num4) s) s) := by
  rw [readSection, if_pos (by rw [List.length_append, hlen, hrest]), fieldAt_prefix rest hlen, lookUp_of_none h]

/-! ## READ_HEAD (R158) -/

theorem shown_cap (s : State) (e : DirEntry) : (shown s e).cap = e.cap := by
  unfold shown
  split
  · rfl
  · split <;> rfl

theorem listField_num (xs : List Nat) : listField (xs.map num) = leBytes 2 xs.length ++ (xs.map (leBytes 4)).flatten := by
  rw [listField, List.length_map]
  rfl

theorem headReply_eq (e : DirEntry) (ws : List WordRead) :
    headReply e ws = leBytes 4 e.cap ++ (ws.flatMap fun w => wordBytes w.data) ++ leBytes 4 (countClass .corrected ws) ++
      leBytes 2 (poisonOffsets ws).length ++ ((poisonOffsets ws).map (leBytes 4)).flatten := by
  rw [headReply, listField_num, ← List.append_assoc]
  rfl

theorem readHeadPage_of_head {s : State} {e : DirEntry} {src : Nat} (h : e.head.bind (physOf e.blocks) = some src) :
    readHeadPage s e = some { source := some src, phys := mapped s.dir.map src, words := readMapped s src } := by
  rw [readHeadPage, h, Option.map_some]

theorem readHeadPage_of_none {s : State} {e : DirEntry} (h : e.head.bind (physOf e.blocks) = none) : readHeadPage s e = none := by
  rw [readHeadPage, h, Option.map_none]

theorem headFlying_of_none {s : State} {e : DirEntry} (h : e.head.bind (physOf e.blocks) = none) : headFlying s e = false := by
  rw [headFlying, h, Option.any_none]

theorem headFlying_iff (s : State) (e : DirEntry) : headFlying s e = true ↔
    ∃ src : Nat, e.head.bind (physOf e.blocks) = some src ∧ pageBusy s (mapped s.dir.map src) = true := by
  rw [headFlying, Option.any_eq_true]

theorem takeRead_of_source (src phys : Nat) (ws : List WordRead) (s : State) :
    takeRead { source := some src, phys := phys, words := ws } s = takePage .retrieve src phys ws s := rfl

theorem deliverHead_of_page {p : PortId} {s : State} {e : DirEntry} {r : PageRead} (h : readHeadPage s e = some r) :
    deliverHead p e s = answer p .ok false (headReply e r.words) (takeRead r s) := by
  rw [deliverHead, h]

theorem deliverHead_of_head {p : PortId} {s : State} {e : DirEntry} {src : Nat} (h : e.head.bind (physOf e.blocks) = some src) :
    deliverHead p e s = answer p .ok false (headReply e (readMapped s src))
      (takePage .retrieve src (mapped s.dir.map src) (readMapped s src) s) := by
  rw [deliverHead_of_page (readHeadPage_of_head h), takeRead_of_source]

theorem deliverHead_of_none {p : PortId} {s : State} {e : DirEntry} (h : e.head.bind (physOf e.blocks) = none) :
    deliverHead p e s = refuse p .refusedState s := by
  rw [deliverHead, readHeadPage_of_none h]

theorem resumeRead_head {p : PortId} {s : State} {tag : Byte} {level : Level} {payload : List Byte} {e : DirEntry}
    (h : (s.port p).service = some { kind := kReadHead, tag := tag, level := level, wait := .read payload })
    (he : findEntry s.dir (leNat (payload.take 4)) = some e) :
    resumeRead p s = deliverHead p (shown s e) (setWait p .none s) := by
  have hfind : findEntry (setWait p .none s).dir (fieldAt payload 0 4) = some e := he
  have hsection : ¬ kReadHead = kReadSection := by decide
  rw [resumeRead, h]
  dsimp only
  rw [if_neg hsection, hfind]
  exact if_pos rfl

/-! ## Pages through the map (R152) -/

theorem readMapped_length (s : State) (p : Nat) : (readMapped s p).length = 64 := by
  simp [readMapped, readPhys]

theorem readMapped_get (s : State) (p : Nat) {i : Nat} (hi : i < 64) :
    let set := match s.dir.map.find? fun m => m.source = p with
      | some m => m.poisoned
      | none => 0
    let w := (storedPage s.flash (mapped s.dir.map p)).getD i Stored.erased
    (readMapped s p)[i]? = some (if set.getLsbD i then { data := w.data, cls := .poisoned } else classify w) := by
  intro set w
  have hw : (storedPage s.flash (mapped s.dir.map p))[i]? = some w := by
    have hlen : i < (storedPage s.flash (mapped s.dir.map p)).length := by
      rw [storedPage_length]
      exact hi
    rw [List.getElem?_eq_getElem hlen, ← List.getD_eq_getElem _ Stored.erased hlen]
  show (List.mapIdx _ (readPhys s.flash (mapped s.dir.map p)))[i]? = _
  rw [List.getElem?_mapIdx, readPhys, List.getElem?_map, hw]
  rfl

/-! ## The classes of words (R153) -/

theorem oneBit_iff (b : Byte) : oneBit b = true ↔ ((List.range 8).filter fun i => b.getLsbD i).length = 1 := decide_eq_true_iff

theorem classify_clean {w : Stored} (h : w.diff = 0) : classify w = { data := w.data, cls := .clean } := if_pos h

theorem classify_check {w : Stored} (h : oneBit w.diff = true) : classify w = { data := w.data, cls := .corrected } := by
  have hne : w.diff ≠ 0 := by
    intro hzero
    rw [hzero] at h
    exact absurd h (by decide)
  exact (if_neg hne).trans (if_pos h)

/-- A pair that is no codeword and no codeword but for its check byte. -/
theorem classify_far {w : Stored} (h : w.diff ≠ 0) (hone : ¬ oneBit w.diff = true) :
    classify w = match fixingBit w.data (checkByte w.data ^^^ w.diff) with
      | some i => { data := w.data ^^^ BitVec.twoPow 64 i, cls := .corrected }
      | none =>
        if twoBitsOff w.data (checkByte w.data ^^^ w.diff) then { data := w.data, cls := .poisoned }
        else match Config.farClass w.data (checkByte w.data ^^^ w.diff) with
          | 0 => { data := w.data, cls := .clean }
          | 1 => { data := Config.farData w.data (checkByte w.data ^^^ w.diff), cls := .corrected }
          | 2 => { data := w.data, cls := .poisoned } :=
  (if_neg h).trans (if_neg hone)

theorem fixingBit_eq_some {d : BitVec 64} {c : Byte} {i : Nat} (hi : i < 64) (hfix : checkByte (d ^^^ BitVec.twoPow 64 i) = c)
    (hfirst : ∀ j : Nat, j < i → ¬ checkByte (d ^^^ BitVec.twoPow 64 j) = c) : fixingBit d c = some i := by
  rw [fixingBit, List.find?_range_eq_some]
  refine ⟨decide_eq_true hfix, List.mem_range.mpr hi, fun j hj => ?_⟩
  rw [decide_eq_false (hfirst j hj)]
  rfl

theorem fixingBit_eq_none {d : BitVec 64} {c : Byte} (h : ∀ i : Nat, i < 64 → ¬ checkByte (d ^^^ BitVec.twoPow 64 i) = c) :
    fixingBit d c = none := by
  rw [fixingBit, List.find?_range_eq_none]
  intro i hi
  rw [decide_eq_false (h i hi)]
  rfl

theorem twoBitsOff_iff (d : BitVec 64) (c : Byte) : twoBitsOff d c = true ↔
    ((List.range 8).filter fun i => (checkByte d ^^^ c).getLsbD i).length = 2 ∨
      (∃ i : Nat, i < 64 ∧ ((List.range 8).filter fun k => (checkByte (d ^^^ BitVec.twoPow 64 i) ^^^ c).getLsbD k).length = 1) ∨
      ∃ i j : Nat, j < i ∧ i < 64 ∧ checkByte (d ^^^ BitVec.twoPow 64 i ^^^ BitVec.twoPow 64 j) = c := by
  rw [twoBitsOff, Bool.or_eq_true, decide_eq_true_eq, List.any_eq_true]
  refine or_congr Iff.rfl ⟨?_, ?_⟩
  · rintro ⟨i, hi, h⟩
    rw [Bool.or_eq_true, oneBit_iff, List.any_eq_true] at h
    rcases h with h | ⟨j, hj, h⟩
    · exact .inl ⟨i, List.mem_range.mp hi, h⟩
    · exact .inr ⟨i, j, List.mem_range.mp hj, List.mem_range.mp hi, of_decide_eq_true h⟩
  · rintro (⟨i, hi, h⟩ | ⟨i, j, hj, hi, h⟩)
    · exact ⟨i, List.mem_range.mpr hi, by rw [Bool.or_eq_true, oneBit_iff]; exact .inl h⟩
    · exact ⟨i, List.mem_range.mpr hi, by
        rw [Bool.or_eq_true, List.any_eq_true]
        exact .inr ⟨j, List.mem_range.mpr hj, decide_eq_true h⟩⟩

/-- Settles O55: a missing capture, READ_HEAD by its head page, the map, and the search over the code. -/
theorem headPageIsReadOrRefused : Obligations.HeadPageIsReadOrRefused := by
  refine ⟨fun p tag payload s hlen hnone => ?_, fun p tag payload e s hs hlen he => ?_, fun e s => headFlying_iff s e,
    fun page s => pageBusy_iff s page, fun p tag level payload e s hservice he => resumeRead_head hservice he, fun s p => ?_,
    fun w => ?_⟩
  · intro st
    refine ⟨fun hs => ?_, fun hs => ?_, fun rest hs hrest => ?_⟩
    · exact request_refused (body := readCapture p payload) hs (withCapture_of_none _ hlen hnone)
    · exact request_refused (body := readHead p payload) hs (withCapture_of_none _ hlen hnone)
    · refine request_next (body := readSection p (payload ++ rest)) hs
        (readSection_of_none (s := accept p kReadSection tag s) hlen hrest hnone) rfl |>.trans ?_
      rw [refuse_accept]
      rfl
  · intro head
    have hhead : (shown s e).head.bind (physOf (shown s e).blocks) = head := by rw [shown_blocks]
    have hbody : readHead p payload (accept p kReadHead tag s) = _ :=
      withCapture_of_some (s := accept p kReadHead tag s) _ hlen he
    refine ⟨fun src hsrc hflying => ?_, fun src hsrc hstill => ?_, fun hnone => ?_⟩
    · exact request_next (body := readHead p payload) hs (hbody.trans ((if_pos hflying).trans (setWait_accept p kReadHead tag _ s))) rfl
    · intro ws
      refine request_next (body := readHead p payload) hs (hbody.trans ((if_neg (Bool.eq_false_iff.mp hstill)).trans ?_)) (by simp)
      refine (deliverHead_of_head (s := accept p kReadHead tag s) (hhead.trans hsrc)).trans ?_
      rw [headReply_eq, shown_cap]
      rfl
    · have hstill : headFlying s (shown s e) = false := headFlying_of_none (hhead.trans hnone)
      exact request_refused (body := readHead p payload) hs (hbody.trans ((if_neg (Bool.eq_false_iff.mp hstill)).trans
        (deliverHead_of_none (hhead.trans hnone))))
  · intro map at' set
    have hmapped : mapped s.dir.map p = at' := rfl
    refine ⟨hmapped, readMapped_length s p, fun i hi => ?_⟩
    exact readMapped_get s p hi
  · intro check c flip ones fixes two
    have hcheck : ∀ d, check d = checkByte d := fun d => rfl
    refine ⟨classify_clean, fun h => classify_check ((oneBit_iff _).mpr h), fun hdiff hones => ?_⟩
    have hfar := classify_far hdiff (mt (oneBit_iff _).mp hones)
    have hnone (hno : ∀ i, ¬ fixes i) : fixingBit w.data (checkByte w.data ^^^ w.diff) = none :=
      fixingBit_eq_none fun i hi hfix => hno i ⟨hi, hfix⟩
    refine ⟨fun i ⟨hi, hfix⟩ hfirst => ?_, fun hno htwo => ?_, fun hno htwo => ?_⟩
    · have hsome : fixingBit w.data (checkByte w.data ^^^ w.diff) = some i :=
        fixingBit_eq_some hi hfix fun j hj hjfix => hfirst j hj ⟨hj.trans hi, hjfix⟩
      exact hfar.trans (by rw [hsome])
    · rw [hfar, hnone hno]
      exact if_pos ((twoBitsOff_iff _ _).mpr htwo)
    · rw [hfar, hnone hno]
      exact if_neg (mt (twoBitsOff_iff _ _).mp htwo)

end Sys2Proof.Machine
end

