-- ==== Sys2Proof/Proofs/SectionImages.lean ====
section
/-! PROOFS. Sys2Proof/Proofs/SectionImages.lean: image lengths, image pages and READ_SECTION (R152, R159, R160). -/

namespace Sys2Proof.Machine

/-! ## Image lengths (R152, R157) -/

/-- The outcomes of sections that ended early: each whose trailer the room in its pages decides. -/
def endedEarly (st : OutcomeCode) : Prop :=
  st = .skippedSpace ∨ st = .skippedBudget ∨ st = .skippedPower ∨ st = .skippedAbort ∨ st = .aborted

/-- The image with its trailer. -/
def wholeImage (x : SecEntry) : Nat := 48 + x.len + 8 * min x.gaps 16

theorem trailerSize_eq (gaps : Nat) : trailerSize gaps = 16 + 8 * min gaps 16 := by
  rw [trailerSize, gapsListed, Nat.min_comm]

theorem body_add_trailer (x : SecEntry) : 32 + x.len + trailerSize x.gaps = wholeImage x := by
  rw [trailerSize_eq, wholeImage]
  omega

theorem imageLength_of_full (e : DirEntry) {x : SecEntry} (s : State)
    (h : x.status = .complete ∨ x.status = .limited ∨ x.status = .sourceSilent ∨ x.status = .deniedAll) :
    imageLength s e x = wholeImage x := by
  rw [← body_add_trailer]
  rcases h with h | h | h | h <;> rw [imageLength, h]

theorem imageLength_of_storeFault (e : DirEntry) {x : SecEntry} (s : State) (h : x.status = .storeFault) :
    imageLength s e x = 32 + x.len := by rw [imageLength, h]

theorem imageLength_of_interrupted (e : DirEntry) {x : SecEntry} (s : State) (h : x.status = .interrupted) :
    imageLength s e x = 0 := by rw [imageLength, h]

theorem imageLength_of_early (e : DirEntry) {x : SecEntry} (s : State) (h : endedEarly x.status) :
    imageLength s e x = if skippedSection x = true then 0 else if trailerWritten s e x = true then wholeImage x else 32 + x.len := by
  rw [← body_add_trailer]
  rcases h with h | h | h | h | h <;> rw [imageLength, h]

theorem skippedSection_of_skipped {x : SecEntry} (hp : x.pages = 0) (h : x.status ≠ .aborted) : skippedSection x = true := by
  simp [skippedSection, hp, h]

theorem skippedSection_of_given {x : SecEntry} (h : x.pages ≠ 0 ∨ x.status = .aborted) : ¬ skippedSection x = true := by
  rw [skippedSection, Bool.and_eq_true, decide_eq_true_eq, decide_eq_true_eq]
  exact fun hboth => h.elim (fun hp => hp hboth.1) hboth.2

theorem imageLength_of_given (e : DirEntry) {x : SecEntry} (s : State) (h : endedEarly x.status)
    (hgiven : x.pages ≠ 0 ∨ x.status = .aborted) :
    imageLength s e x = if trailerWritten s e x = true then wholeImage x else 32 + x.len :=
  (imageLength_of_early e s h).trans (if_neg (skippedSection_of_given hgiven))

theorem trailerWritten_of_known {s : State} {x : SecEntry} {m : TrailerMark} (e : DirEntry)
    (h : (s.dir.trailers.find? fun m => m.cap = x.cap && m.index = x.index) = some m) : trailerWritten s e x = m.written := by
  rw [trailerWritten, trailerKnown, h]
  rfl

theorem trailerWritten_of_unknown {s : State} {x : SecEntry} (e : DirEntry)
    (h : (s.dir.trailers.find? fun m => m.cap = x.cap && m.index = x.index) = none) :
    trailerWritten s e x = trailerDerived s e x := by
  rw [trailerWritten, trailerKnown, h]
  rfl

/-- An ABORTED section has a header where it has a page. -/
theorem headerWritten_of_aborted {x : SecEntry} (s : State) (e : DirEntry) (h : x.status = .aborted) :
    headerWritten s e x = decide (0 < x.pages) := if_pos h

theorem trailerDerived_of_part {x : SecEntry} (s : State) (e : DirEntry) (h : (32 + x.len) % 512 ≠ 0) :
    trailerDerived s e x = if (32 + x.len) % 512 + 16 + 8 * min x.gaps 16 ≤ 512 then decide (x.len ≠ 0) || headerWritten s e x else false := by
  refine (if_neg h).trans ?_
  rw [trailerSize_eq, ← Nat.add_assoc]
  rfl

theorem trailerDerived_of_fullPages {x : SecEntry} (s : State) (e : DirEntry) (h : (32 + x.len) % 512 = 0)
    (hst : x.status ≠ .skippedPower) : trailerDerived s e x = false := by
  refine (if_pos h).trans ?_
  rw [trailerPage, decide_eq_false hst, Bool.false_and]

theorem imageLength_of_shortAborted (e : DirEntry) {x : SecEntry} (s : State) (hp : x.pages = 0) (h : x.status = .aborted)
    (hlen : x.len = 0) (hno : (s.dir.trailers.find? fun m => m.cap = x.cap && m.index = x.index) = none) :
    imageLength s e x = 32 := by
  have hheader : headerWritten s e x = false := by
    rw [headerWritten_of_aborted s e h, hp]
    rfl
  have hderived : trailerDerived s e x = false := by
    rw [trailerDerived_of_part s e (by rw [hlen]; decide), hheader, hlen, ite_eq_right_iff]
    exact fun _ => rfl
  rw [imageLength_of_given e s (.inr (.inr (.inr (.inr h)))) (.inr h), trailerWritten_of_unknown e hno, hderived, hlen]
  rfl

theorem trailer_unknown {s : State} {x : SecEntry} (h : ∀ m ∈ s.dir.trailers, m.cap ≠ x.cap ∨ m.index ≠ x.index) :
    (s.dir.trailers.find? fun m => m.cap = x.cap && m.index = x.index) = none := by
  rw [List.find?_eq_none]
  intro m hm hboth
  rw [Bool.and_eq_true, decide_eq_true_eq, decide_eq_true_eq] at hboth
  exact (h m hm).elim (fun hcap => hcap hboth.1) (fun hindex => hindex hboth.2)

/-- With a page and a header, its data end decides whether a trailer was written. -/
theorem imageLength_of_part (e : DirEntry) {x : SecEntry} (s : State) (h : endedEarly x.status) (hp : x.pages ≠ 0)
    (hno : (s.dir.trailers.find? fun m => m.cap = x.cap && m.index = x.index) = none) (hused : (32 + x.len) % 512 ≠ 0)
    (hheader : x.len ≠ 0 ∨ x.status = .aborted) :
    imageLength s e x = if (32 + x.len) % 512 + 16 + 8 * min x.gaps 16 ≤ 512 then wholeImage x else 32 + x.len := by
  have hwritten : (decide (x.len ≠ 0) || headerWritten s e x) = true := by
    rw [Bool.or_eq_true, decide_eq_true_eq]
    refine hheader.imp_right fun hab => ?_
    rw [headerWritten_of_aborted s e hab]
    exact decide_eq_true (Nat.pos_of_ne_zero hp)
  rw [imageLength_of_given e s h (.inl hp), trailerWritten_of_unknown e hno, trailerDerived_of_part s e hused, hwritten]
  by_cases hfit : (32 + x.len) % 512 + 16 + 8 * min x.gaps 16 ≤ 512
  · rw [if_pos hfit, if_pos rfl, if_pos hfit]
  · rw [if_neg hfit, if_neg Bool.false_ne_true, if_neg hfit]

theorem imageLength_of_fullPages (e : DirEntry) {x : SecEntry} (s : State) (h : endedEarly x.status) (hp : x.pages ≠ 0)
    (hno : (s.dir.trailers.find? fun m => m.cap = x.cap && m.index = x.index) = none) (hused : (32 + x.len) % 512 = 0)
    (hst : x.status ≠ .skippedPower) : imageLength s e x = 32 + x.len := by
  rw [imageLength_of_given e s h (.inl hp), trailerWritten_of_unknown e hno, trailerDerived_of_fullPages s e hused hst]
  exact if_neg Bool.false_ne_true

/-! ## Image pages (R152) -/

/-- The block at a position of a block list. -/
def blockAt (e : DirEntry) (n : Nat) : Option Nat := (e.blocks[n / 128]?).join

theorem blockAt_eq (e : DirEntry) (n : Nat) : e.blocks.getD (n / blockPages) none = blockAt e n := by
  rw [List.getD_eq_getElem?_getD, blockAt, blockPages]
  cases e.blocks[n / 128]? <;> rfl

theorem pageInTable_eq (s : State) (e : DirEntry) (n : Nat) :
    (!pageInTable s e n) = (blockAt e n).elim true fun b => !s.store.retPages.contains (128 * b + n % 128) := by
  rw [pageInTable, physOf, blockAt_eq]
  cases blockAt e n <;> rfl

theorem inRetiredBlock_iff (s : State) (e : DirEntry) (n : Nat) :
    inRetiredBlock s e n = true ↔ ∃ i : Fin 60, blockAt e n = some (4 + i.val) ∧ s.store.blocks[i] = .retired := by
  rw [inRetiredBlock, blockAt_eq]
  cases hb : blockAt e n with
  | none => simp
  | some b => simp only [blockRetired_iff, Option.some.injEq]

theorem inRetiredBlock_first (s : State) (e : DirEntry) (n : Nat) :
    inRetiredBlock s e (blockPages * (n / 128)) = inRetiredBlock s e n := by
  rw [inRetiredBlock, inRetiredBlock, blockPages, Nat.mul_div_cancel_left _ (by decide)]

/-- The positions of RETIRED blocks are those of the pages in them. -/
theorem mem_retiredPositions (s : State) (e : DirEntry) (n : Nat) :
    n / 128 ∈ retiredPositions s e ↔ inRetiredBlock s e n = true := by
  rw [retiredPositions, List.mem_reverse, List.mem_filter, inRetiredBlock_first, List.mem_range, and_iff_right_iff_imp]
  intro h
  obtain ⟨i, hi, -⟩ := (inRetiredBlock_iff s e n).mp h
  by_contra hlt
  rw [blockAt, List.getElem?_eq_none (Nat.not_lt.mp hlt)] at hi
  exact absurd hi nofun

theorem sectionRange_pairwise (x : SecEntry) : (sectionRange x).Pairwise (· < ·) := by
  rw [sectionRange, List.pairwise_map]
  exact List.pairwise_lt_range.imp fun h => Nat.add_lt_add_left h _

theorem length_good_le (x : SecEntry) (f : Nat → Bool) : ((sectionRange x).filter f).length ≤ x.pages := by
  refine (List.length_filter_le _ _).trans ?_
  rw [sectionRange, List.length_map, List.length_range]

/-- The image pages: of those left, all but the last ones in RETIRED blocks that the image does not need. -/
theorem imagePages_eq (s : State) (e : DirEntry) (x : SecEntry) :
    let good := (sectionRange x).filter fun n => !pageInTable s e n
    let k := (imageLength s e x + 511) / 512
    let bad := good.filter fun n => inRetiredBlock s e n
    let tail := bad.drop (bad.length - (good.length - k))
    imagePages s e x = (good.filter fun n => n ∉ tail).take k := by
  intro good k bad tail
  have hcount : x.pages - k - (x.pages - good.length) = good.length - k := by
    have : good.length ≤ x.pages := length_good_le x _
    omega
  have hbad : (good.filter fun n => decide (n / 128 ∈ retiredPositions s e)) = bad :=
    List.filter_congr fun n _ => by rw [Bool.eq_iff_iff, decide_eq_true_eq, mem_retiredPositions]
  have hfold := dropTail_foldl (retiredPositions s e) (x.pages - k - (x.pages - good.length)) good
    ((sectionRange_pairwise x).filter _) (retiredPositions_desc s e)
  rw [hcount, hbad] at hfold
  have hmodel : imagePages s e x =
      (((retiredPositions s e).foldl (fun st i => dropTail i st) (x.pages - k - (x.pages - good.length), good)).2).take k := rfl
  rw [hmodel, hcount, hfold]
  refine congrArg (List.take k) (List.filter_congr fun n _ => ?_)
  rw [Bool.eq_iff_iff, decide_eq_true_eq, Bool.not_eq_true', ← Bool.not_eq_true, List.contains_iff_mem]
  rfl

end Sys2Proof.Machine
end

