-- ==== Sys2Proof/Proofs/SectionReads.lean ====
section
/-! PROOFS. Sys2Proof/Proofs/SectionReads.lean: READ_SECTION: its refusals, its waits, and the image bytes served with the next page read
ahead (R129, R159, R160). -/

namespace Sys2Proof.Machine

/-! ## What a read of a page changes: the ledgers of errors and the notices (R154) -/

/-- Two states that differ in the ledgers of errors, the event ring and the ports' notices alone. -/
structure LedgersAlone (s t : State) : Prop where
  flash : t.flash = s.flash
  dir : t.dir = s.dir
  store : t.store = s.store
  port : ∀ p, ∃ n, t.port p = { s.port p with notices := n }

theorem LedgersAlone.refl (s : State) : LedgersAlone s s := ⟨rfl, rfl, rfl, fun _ => ⟨_, rfl⟩⟩

theorem LedgersAlone.raise {s t : State} (h : LedgersAlone s t) (n : Notice) : LedgersAlone s (raise n t) :=
  ⟨h.flash, h.dir, h.store, fun p => by
    obtain ⟨m, hm⟩ := h.port p
    exact ⟨_, by rw [port_raise, hm]⟩⟩

theorem LedgersAlone.post {s t : State} (h : LedgersAlone s t) (o : Origin) (k : Byte) (args : List Nat) :
    LedgersAlone s (post o k args t) := ⟨h.flash, h.dir, h.store, h.port⟩

theorem LedgersAlone.onInteg {s t : State} (h : LedgersAlone s t) (f : Integrity → Integrity) : LedgersAlone s (t.onInteg f) :=
  ⟨h.flash, h.dir, h.store, h.port⟩

theorem LedgersAlone.offerError {s t : State} (h : LedgersAlone s t) (k : ErrKind) (page word : Nat) (op : Operation) :
    LedgersAlone s (offerError k page word op t) := by
  unfold Machine.offerError
  split
  · exact h.onInteg _
  · exact (h.onInteg _).raise _

theorem LedgersAlone.offerScrub {s t : State} (h : LedgersAlone s t) (page : Nat) : LedgersAlone s (offerScrub page t) := by
  unfold Machine.offerScrub
  split
  · exact h
  · split
    · exact h.onInteg _
    · exact (h.onInteg _).post _ _ _

theorem LedgersAlone.ite {s t u : State} {c : Prop} [Decidable c] (ht : LedgersAlone s t) (hu : LedgersAlone s u) :
    LedgersAlone s (if c then t else u) := by
  split
  · exact ht
  · exact hu

theorem LedgersAlone.takePage {s t : State} (h : LedgersAlone s t) (op : Operation) (src phys : Nat) (ws : List WordRead) :
    LedgersAlone s (takePage op src phys ws t) := by
  have hcorrected (u : State) (hu : LedgersAlone s u) (c : WordClass) (k : ErrKind) :
      LedgersAlone s (match ws.findIdx? fun w => w.cls = c with
        | some i => Machine.offerError k phys i op u
        | none => u) := by
    split
    · exact hu.offerError _ _ _ _
    · exact hu
  have hcounted := h.onInteg fun g => { g with
    corrected := satAdd g.corrected (countClass .corrected ws)
    poisoned := satAdd g.poisoned (countClass .poisoned ws) }
  have hposted := (hcounted.ite (c := countClass .corrected ws = 0)
    (hcounted.post .integrity evErrorCorrected [phys, countClass .corrected ws, op.code.toNat]))
  have hboth := (hposted.ite (c := countClass .poisoned ws = 0)
    (hposted.post .integrity evErrorPoisoned [phys, countClass .poisoned ws, op.code.toNat]))
  have hoffered := hcorrected _ (hcorrected _ hboth .corrected .corrected) .poisoned .poisoned
  exact (hoffered.offerScrub src).ite hoffered

theorem LedgersAlone.takeRead {s t : State} (h : LedgersAlone s t) (r : PageRead) : LedgersAlone s (takeRead r t) := by
  unfold Machine.takeRead
  split
  · exact h.takePage _ _ _ _
  · exact h

/-- Two states with the same ledgers of errors. -/
structure SameLedgers (s t : State) : Prop where
  integ : t.integ = s.integ
  ring : t.ring = s.ring
  time : t.time = s.time

theorem SameLedgers.post {s t : State} (h : SameLedgers s t) (o : Origin) (k : Byte) (args : List Nat) :
    SameLedgers (post o k args s) (post o k args t) :=
  ⟨h.integ, by simp only [Machine.post, State.onRing, h.ring, h.time], h.time⟩

theorem SameLedgers.onInteg {s t : State} (h : SameLedgers s t) (f : Integrity → Integrity) : SameLedgers (s.onInteg f) (t.onInteg f) :=
  ⟨congrArg f h.integ, h.ring, h.time⟩

theorem SameLedgers.raise {s t : State} (h : SameLedgers s t) (n : Notice) : SameLedgers (raise n s) (raise n t) :=
  ⟨h.integ, h.ring, h.time⟩

theorem SameLedgers.offerError {s t : State} (h : SameLedgers s t) (k : ErrKind) (page word : Nat) (op : Operation) :
    SameLedgers (offerError k page word op s) (offerError k page word op t) := by
  unfold Machine.offerError
  rw [h.integ, h.time]
  split
  · exact h.onInteg _
  · exact (h.onInteg _).raise _

theorem SameLedgers.offerScrub {s t : State} (h : SameLedgers s t) (page : Nat) :
    SameLedgers (offerScrub page s) (offerScrub page t) := by
  unfold Machine.offerScrub
  rw [h.integ]
  split
  · exact h
  · split
    · exact h.onInteg _
    · exact (h.onInteg _).post _ _ _

theorem SameLedgers.ite {s t s' t' : State} {c : Prop} [Decidable c] (h : SameLedgers s t) (h' : SameLedgers s' t') :
    SameLedgers (if c then s else s') (if c then t else t') := by
  split
  · exact h
  · exact h'

theorem SameLedgers.takePage {s t : State} (h : SameLedgers s t) (op : Operation) (src phys : Nat) (ws : List WordRead) :
    SameLedgers (takePage op src phys ws s) (takePage op src phys ws t) := by
  have hcorrected (u v : State) (hu : SameLedgers u v) (c : WordClass) (k : ErrKind) :
      SameLedgers (match ws.findIdx? fun w => w.cls = c with
        | some i => Machine.offerError k phys i op u
        | none => u) (match ws.findIdx? fun w => w.cls = c with
        | some i => Machine.offerError k phys i op v
        | none => v) := by
    split
    · exact hu.offerError _ _ _ _
    · exact hu
  have hcounted := h.onInteg fun g => { g with
    corrected := satAdd g.corrected (countClass .corrected ws)
    poisoned := satAdd g.poisoned (countClass .poisoned ws) }
  have hposted := (hcounted.ite (c := countClass .corrected ws = 0)
    (hcounted.post .integrity evErrorCorrected [phys, countClass .corrected ws, op.code.toNat]))
  have hboth := (hposted.ite (c := countClass .poisoned ws = 0)
    (hposted.post .integrity evErrorPoisoned [phys, countClass .poisoned ws, op.code.toNat]))
  have hoffered := hcorrected _ _ (hcorrected _ _ hboth .corrected .corrected) .poisoned .poisoned
  exact (hoffered.offerScrub src).ite hoffered

theorem SameLedgers.takeRead {s t : State} (h : SameLedgers s t) (r : PageRead) : SameLedgers (takeRead r s) (takeRead r t) := by
  unfold Machine.takeRead
  split
  · exact h.takePage _ _ _ _
  · exact h

/-! ## Pages from the buffer and from the store (R159) -/

theorem fetchImagePage_eq (p : PortId) (s : State) (e : DirEntry) (x : SecEntry) (k : Nat) :
    fetchImagePage p s e x k = match (s.port p).ahead, (imagePages s e x)[k]? with
      | some a, some n =>
        if a.cap = e.cap ∧ a.sec = x.index ∧ a.lpage = n then
          { source := physOf e.blocks n, phys := a.ppage, words := a.words } else readImagePage s e x k
      | _, _ => readImagePage s e x k := by
  cases ha : (s.port p).ahead with
  | none =>
    have hnot : heldAhead p s e x k = none := by rw [heldAhead, ha, Option.filter_none]
    rw [fetchImagePage, hnot]
  | some a =>
    cases hn : (imagePages s e x)[k]? with
    | none =>
      have hnot : heldAhead p s e x k = none := by
        rw [heldAhead, hn, Option.filter_eq_none_iff]
        intro b _
        simp
      rw [fetchImagePage, hnot]
    | some n =>
      by_cases h : a.cap = e.cap ∧ a.sec = x.index ∧ a.lpage = n
      · obtain ⟨hcap, hsec, hpage⟩ := h
        have hheld : heldAhead p s e x k = some a := by
          rw [heldAhead_eq_some_iff, hn, hpage]
          exact ⟨ha, hcap, hsec, rfl⟩
        rw [fetchImagePage, hheld]
        refine Eq.trans ?_ (if_pos ⟨hcap, hsec, hpage⟩).symm
        rw [← hpage]
      · have hnot : heldAhead p s e x k = none := by
          rw [Option.eq_none_iff_forall_ne_some]
          intro b hb
          rw [heldAhead_eq_some_iff, ha, hn] at hb
          obtain ⟨hab, hcap, hsec, hpage⟩ := hb
          cases hab
          exact h ⟨hcap, hsec, (Option.some.inj hpage).symm⟩
        rw [fetchImagePage, hnot]
        exact (if_neg h).symm

/-- An image page is buffered exactly where its port's buffer holds a page of its capture, section and number. -/
theorem heldAhead_eq_none_iff (p : PortId) (s : State) (e : DirEntry) (x : SecEntry) (k : Nat) :
    heldAhead p s e x k = none ↔ ¬ ∃ a : ReadAhead, (s.port p).ahead = some a ∧ a.cap = e.cap ∧ a.sec = x.index ∧
      (imagePages s e x)[k]? = some a.lpage := by
  rw [Option.eq_none_iff_forall_ne_some, not_exists]
  exact forall_congr' fun a => not_congr (heldAhead_eq_some_iff p s e x k a)

theorem pickWords_touched (ws : List WordRead) (off len : Nat) :
    pickWords ws (touched off len) = (List.range ((off % 8 + len + 7) / 8)).filterMap fun i =>
      (ws[off % 512 / 8 + i]?).map fun w => (off % 512 / 8 + i, w) := by
  rw [pickWords, touched, List.filterMap_map]
  rfl

/-! ## Reading ahead (R160) -/

/-- What the read-ahead buffer holds after image page `k` was served. -/
def nextAhead (e : DirEntry) (x : SecEntry) (k : Nat) (s : State) : Option ReadAhead :=
  ((imagePages s e x)[k + 1]?).map fun n =>
    { cap := e.cap, sec := x.index, lpage := n, ppage := (readImagePage s e x (k + 1)).phys
      words := (readImagePage s e x (k + 1)).words }

theorem port_readAhead (p : PortId) (e : DirEntry) (x : SecEntry) (k : Nat) (s : State) :
    (readAhead p e x k s).port p = { s.port p with ahead := nextAhead e x k s } := by
  unfold readAhead nextAhead
  cases (imagePages s e x)[k + 1]? <;> exact port_onPort_same _ _ _

theorem readAhead_leaves (p : PortId) (e : DirEntry) (x : SecEntry) (k : Nat) (s : State) :
    (readAhead p e x k s).flash = s.flash ∧ (readAhead p e x k s).dir = s.dir ∧ (readAhead p e x k s).store = s.store ∧
      (readAhead p e x k s).ring = s.ring := by
  unfold readAhead
  split <;> exact ⟨rfl, rfl, rfl, rfl⟩

theorem integ_readAhead (p : PortId) (e : DirEntry) (x : SecEntry) (k : Nat) (s : State) :
    (readAhead p e x k s).integ = if (imagePages s e x)[k + 1]? = none then s.integ
      else { s.integ with
        correctedAhead := satAdd s.integ.correctedAhead (countClass .corrected (readImagePage s e x (k + 1)).words) } := by
  unfold readAhead
  split
  · next h => rw [if_pos h]; rfl
  · next h =>
    rw [if_neg (by rw [h]; exact Option.some_ne_none _)]
    rfl

/-- What the image pages and a read of them look at. -/
theorem nextAhead_congr {s t : State} (e : DirEntry) (x : SecEntry) (k : Nat) (hflash : t.flash = s.flash) (hdir : t.dir = s.dir)
    (hstore : t.store = s.store) : imagePages t e x = imagePages s e x ∧ readImagePage t e x k = readImagePage s e x k := by
  have himage : imagePages t e x = imagePages { s with flash := t.flash, dir := t.dir, store := t.store } e x := rfl
  have hread : readImagePage t e x k = readImagePage { s with flash := t.flash, dir := t.dir, store := t.store } e x k := rfl
  rw [himage, hread, hflash, hdir, hstore]
  exact ⟨rfl, rfl⟩

/-! ## The bytes served (R159) -/

/-- The pages from `k0` to `k1`, which are one page or two, are taken. -/
def takeImagePages (r0 r1 : PageRead) (one : Prop) [Decidable one] (s : State) : State :=
  if one then takeRead r1 s else takeRead r1 (takeRead r0 s)

theorem takeImagePages_ledgers (r0 r1 : PageRead) (one : Prop) [Decidable one] (s : State) :
    LedgersAlone s (takeImagePages r0 r1 one s) :=
  ((LedgersAlone.refl s).takeRead r1).ite (((LedgersAlone.refl s).takeRead r0).takeRead r1)

theorem takeImagePages_same {s t : State} (h : SameLedgers s t) (r0 r1 : PageRead) (one : Prop) [Decidable one] :
    SameLedgers (takeImagePages r0 r1 one s) (takeImagePages r0 r1 one t) :=
  (h.takeRead r1).ite ((h.takeRead r0).takeRead r1)

/-- The words of the pages from which a request is served. -/
def imageWords (r0 r1 : PageRead) (one : Prop) [Decidable one] : List WordRead := if one then r1.words else r0.words ++ r1.words

theorem serveSection_eq (p : PortId) (e : DirEntry) (x : SecEntry) (off asked : Nat) (s : State) :
    let last := (off + servedLength s e x off asked - 1) / 512
    let r0 := fetchImagePage p s e x (off / 512)
    let r1 := fetchImagePage p s e x last
    serveSection p e x off asked s = readAhead p e x last (answer p .ok (decide (servedLength s e x off asked ≠ asked))
      (sectionReply s e x off (servedLength s e x off asked) (imageWords r0 r1 (off / 512 = last)))
      (takeImagePages r0 r1 (off / 512 = last) s)) := by
  intro last r0 r1
  have hserve : serveSection p e x off asked s = readAhead p e x last (answer p .ok (decide (servedLength s e x off asked ≠ asked))
      (sectionReply s e x off (servedLength s e x off asked) (if off / 512 = last then r0.words else r0.words ++ r1.words))
      (if off / 512 = last then takeRead r0 s else takeRead r1 (takeRead r0 s))) := rfl
  rw [hserve, takeImagePages, imageWords]
  by_cases hone : off / 512 = last
  · have hsame : r0 = r1 := congrArg (fetchImagePage p s e x) hone
    rw [if_pos hone, if_pos hone, if_pos hone, if_pos hone, hsame]
  · rw [if_neg hone, if_neg hone, if_neg hone, if_neg hone]

theorem sectionReply_eq (s : State) (e : DirEntry) (x : SecEntry) (off len : Nat) (ws : List WordRead) :
    let held := (List.range ((off % 8 + len + 7) / 8)).filterMap fun i =>
      (ws[off % 512 / 8 + i]?).map fun w => (off % 512 / 8 + i, w)
    let poisoned := held.filter fun w => w.2.cls = .poisoned
    let list := poisoned.take 64
    sectionReply s e x off len ws =
      leBytes 4 e.cap ++ leBytes 1 x.index ++ leBytes 4 off ++ leBytes 4 len ++ leBytes 4 (imageLength s e x) ++
        leBytes 4 (held.filter fun w => w.2.cls = .corrected).length ++ leBytes 4 poisoned.length ++
        leBytes 2 list.length ++ (list.map fun w => leBytes 4 (8 * w.1 - off % 512)).flatten ++
        (((ws.flatMap fun w => wordBytes w.data).drop (off % 512)).take len) := by
  intro held poisoned list
  have hused : pickWords ws (touched off len) = held := pickWords_touched ws off len
  rw [sectionReply, hused, listField, List.length_map, ← List.append_assoc]
  rfl

/-! ## A request that has been taken -/

theorem readImagePage_accept (p : PortId) (kind tag : Byte) (s : State) (e : DirEntry) (x : SecEntry) (k : Nat) :
    imagePages (accept p kind tag s) e x = imagePages s e x ∧ readImagePage (accept p kind tag s) e x k = readImagePage s e x k :=
  nextAhead_congr e x k rfl rfl rfl

theorem imageLength_accept (p : PortId) (kind tag : Byte) (s : State) (e : DirEntry) (x : SecEntry) :
    imageLength (accept p kind tag s) e x = imageLength s e x := rfl

theorem ahead_accept (p : PortId) (tag : Byte) (s : State) : ((accept p kReadSection tag s).port p).ahead = (s.port p).ahead := by
  rw [accept, port_onPort_same]
  rfl

theorem port_answer_of_service {p : PortId} {s : State} {r : InService} (st : Status) (b : Bool) (fields : List Byte)
    (h : (s.port p).service = some r) : (answer p st b fields s).port p =
      { s.port p with
        service := none
        tx := (s.port p).tx ++ [mkReply r.kind r.tag st b fields] } := by
  rw [answer, port_onPort_same, h]

theorem sameLedgers_accept (p : PortId) (kind tag : Byte) (s : State) : SameLedgers s (accept p kind tag s) := ⟨rfl, rfl, rfl⟩

theorem service_accept (p : PortId) (kind tag : Byte) (s : State) : ((accept p kind tag s).port p).service =
    some { kind := kind, tag := tag, level := portLevel p s, wait := .none } := by
  rw [accept, port_onPort_same]

theorem tx_accept (p : PortId) (kind tag : Byte) (s : State) : ((accept p kind tag s).port p).tx = (s.port p).tx := by
  rw [accept, port_onPort_same]

theorem lookUp_section {num4 : List Byte} {e : DirEntry} {s : State} (p : PortId) (rest : List Byte) (hlen : num4.length = 4)
    (hrest : rest.length = 7) (he : findEntry s.dir (leNat num4) = some e) :
    readSection p (num4 ++ rest) s = readSectionOf p (num4 ++ rest) (shown s e) s := by
  rw [readSection, if_pos (by rw [List.length_append, hlen, hrest]), fieldAt_prefix rest hlen, lookUp_of_some he]

theorem sectionNumbered_shown (d : Directory) (s : State) (e : DirEntry) (i : Nat) :
    sectionNumbered d (shown s e) i = sectionNumbered d e i := by
  have hsections : (shown s e).sections = e.sections := by
    unfold shown
    split
    · rfl
    · split <;> rfl
  rw [sectionNumbered, sectionsOf, hsections]
  rfl

theorem readSectionOf_of_none {p : PortId} {payload : List Byte} {e : DirEntry} {s : State}
    (h : sectionNumbered s.dir e (fieldAt payload 4 1) = none) :
    readSectionOf p payload e s = setAhead p none (refuse p .notFound s) := by
  rw [readSectionOf, h]

theorem readSectionOf_of_some {p : PortId} {payload : List Byte} {e : DirEntry} {s : State} {x : SecEntry}
    (h : sectionNumbered s.dir e (fieldAt payload 4 1) = some x) :
    readSectionOf p payload e s =
      if x.status = .inProgress then setAhead p none (refuse p .inProgress s)
      else if imageLength s e x ≤ fieldAt payload 5 4 then setAhead p none (refuse p .badValue s)
      else if sectionWaits p e x (fieldAt payload 5 4) (fieldAt payload 9 2) s = true then setWait p (.read payload) s
      else serveSection p e x (fieldAt payload 5 4) (fieldAt payload 9 2) s := by
  rw [readSectionOf, h]

theorem resumeRead_section {p : PortId} {tag : Byte} {level : Level} {payload : List Byte} {s : State}
    (h : (s.port p).service = some { kind := kReadSection, tag := tag, level := level, wait := .read payload }) :
    resumeRead p s = readSection p payload (setWait p .none s) := by
  rw [resumeRead, h]
  exact if_pos rfl

/-- A request that is served: its reply, the page read ahead and the ledgers. -/
theorem serveSection_leaves (p : PortId) (e : DirEntry) (x : SecEntry) (off asked : Nat) {s : State} {r : InService}
    (hr : (s.port p).service = some r) :
    let t := serveSection p e x off asked s
    let len := servedLength s e x off asked
    let last := (off + len - 1) / 512
    let r0 := fetchImagePage p s e x (off / 512)
    let r1 := fetchImagePage p s e x last
    let took := takeImagePages r0 r1 (off / 512 = last) s
    (t.port p).service = none ∧
      (t.port p).tx = (s.port p).tx ++ [mkReply r.kind r.tag .ok (decide (len ≠ asked))
        (sectionReply s e x off len (imageWords r0 r1 (off / 512 = last)))] ∧
      (t.port p).ahead = nextAhead e x last s ∧ t.ring = took.ring ∧
      t.integ = (if (imagePages s e x)[last + 1]? = none then took.integ else { took.integ with
        correctedAhead := satAdd took.integ.correctedAhead (countClass .corrected (readImagePage s e x (last + 1)).words) }) ∧
      t.flash = s.flash ∧ t.dir = s.dir ∧ t.store = s.store := by
  intro t len last r0 r1 took
  have htook : LedgersAlone s took := takeImagePages_ledgers _ _ _ s
  obtain ⟨n, hport⟩ := htook.port p
  have hservice : (took.port p).service = some r := by rw [hport, hr]
  have ht : t = readAhead p e x last (answer p .ok (decide (len ≠ asked))
      (sectionReply s e x off len (imageWords r0 r1 (off / 512 = last))) took) := serveSection_eq p e x off asked s
  obtain ⟨himage, hread⟩ := nextAhead_congr (s := s) (t := answer p .ok (decide (len ≠ asked))
    (sectionReply s e x off len (imageWords r0 r1 (off / 512 = last))) took) e x (last + 1) htook.flash htook.dir htook.store
  have hleaves := readAhead_leaves p e x last (answer p .ok (decide (len ≠ asked))
    (sectionReply s e x off len (imageWords r0 r1 (off / 512 = last))) took)
  obtain ⟨hflash, hdir, hstore, hring⟩ := hleaves
  rw [ht, port_readAhead, port_answer_of_service _ _ _ hservice, integ_readAhead, hflash, hdir, hstore, hring, himage, hread,
    nextAhead, himage, hread, hport]
  exact ⟨rfl, rfl, rfl, rfl, rfl, htook.flash, htook.dir, htook.store⟩

/-! ## O56 by its parts -/

theorem fieldAt_index {num4 off4 len2 : List Byte} (idx : Byte) (hnum : num4.length = 4) :
    fieldAt (num4 ++ idx :: off4 ++ len2) 4 1 = idx.toNat := by
  have h := fieldAt_after (idx :: off4 ++ len2) 0 hnum
  rw [← List.append_assoc] at h
  exact h

theorem fieldAt_offset {num4 off4 len2 : List Byte} (idx : Byte) (hnum : num4.length = 4) (hoff : off4.length = 4) :
    fieldAt (num4 ++ idx :: off4 ++ len2) 5 4 = leNat off4 := by
  have hdrop : (num4 ++ idx :: off4 ++ len2).drop 5 = off4 ++ len2 := by
    rw [List.append_assoc]
    exact drop_after idx (off4 ++ len2) hnum
  rw [fieldAt, hdrop, ← hoff, List.take_left]

theorem fieldAt_count {num4 off4 len2 : List Byte} (idx : Byte) (hnum : num4.length = 4) (hoff : off4.length = 4)
    (hlen : len2.length = 2) : fieldAt (num4 ++ idx :: off4 ++ len2) 9 2 = leNat len2 := by
  have hdrop : (num4 ++ idx :: off4 ++ len2).drop 9 = len2 :=
    List.drop_left' (by rw [List.length_append, List.length_cons, hnum, hoff])
  rw [fieldAt, hdrop, ← hlen, List.take_length]

theorem servedLength_eq (s : State) (e : DirEntry) (x : SecEntry) (off asked : Nat) : servedLength s e x off asked =
    min (if asked = 0 then 1 else if 512 < asked then 512 else asked) (imageLength s e x - off) := by
  rw [servedLength, clampTo_eq (by decide)]
  simp only [Nat.lt_one_iff]

theorem imageBusy_accept (p : PortId) (kind tag : Byte) (s : State) (e : DirEntry) (x : SecEntry) (k : Nat) :
    imageBusy (accept p kind tag s) (shown s e) x k = true ↔ ∃ n src : Nat, (imagePages s (shown s e) x)[k]? = some n ∧
      physOf e.blocks n = some src ∧ pageBusy s (mapped s.dir.map src) = true := by
  rw [imageBusy_iff, shown_blocks, (readImagePage_accept p kind tag s (shown s e) x k).1]
  exact Iff.rfl

theorem heldAhead_accept (p : PortId) (tag : Byte) (s : State) (e : DirEntry) (x : SecEntry) (k : Nat) :
    heldAhead p (accept p kReadSection tag s) (shown s e) x k = none ↔
      ¬ ∃ a : ReadAhead, (s.port p).ahead = some a ∧ a.cap = e.cap ∧ a.sec = x.index ∧
        (imagePages s (shown s e) x)[k]? = some a.lpage := by
  rw [heldAhead_eq_none_iff, ahead_accept, shown_cap, (readImagePage_accept p kReadSection tag s (shown s e) x k).1]

theorem fetchImagePage_accept (p : PortId) (tag : Byte) (s : State) (e : DirEntry) (x : SecEntry) (k : Nat) :
    fetchImagePage p (accept p kReadSection tag s) (shown s e) x k = match (s.port p).ahead, (imagePages s (shown s e) x)[k]? with
      | some a, some n =>
        if a.cap = e.cap ∧ a.sec = x.index ∧ a.lpage = n then
          { source := physOf e.blocks n, phys := a.ppage, words := a.words } else readImagePage s (shown s e) x k
      | _, _ => readImagePage s (shown s e) x k := by
  obtain ⟨himage, hread⟩ := readImagePage_accept p kReadSection tag s (shown s e) x k
  refine (fetchImagePage_eq p (accept p kReadSection tag s) (shown s e) x k).trans ?_
  rw [ahead_accept, himage, hread, shown_cap, shown_blocks]

theorem readImagePage_of_block {s : State} {e : DirEntry} {x : SecEntry} {k n b : Nat} (hn : (imagePages s e x)[k]? = some n)
    (hb : e.blocks[n / 128]? = some (some b)) :
    readImagePage s e x k = { source := some (128 * b + n % 128), phys := mapped s.dir.map (128 * b + n % 128)
                              words := readMapped s (128 * b + n % 128) } := by
  have hphys : physOf e.blocks n = some (128 * b + n % 128) := by
    rw [physOf, blockAt_eq, blockAt, hb]
    rfl
  rw [readImagePage, hn]
  dsimp only
  rw [hphys]

/-- Settles O56: the length of an image, the pages that hold it, and READ_SECTION by what its pages wait for. -/
theorem readSectionServesTheImage : Obligations.ReadSectionServesTheImage := by
  refine ⟨fun e x s => ?_, fun p tag idx num4 off4 len2 e s hs hnum hoff hlen2 he => ?_, fun p tag level payload s => ?_,
    fun e x s => ?_, fun e x s => ?_, fun e x k s n b hn hb => ?_⟩
  · intro whole
    refine ⟨imageLength_of_full e s, imageLength_of_storeFault e s, imageLength_of_interrupted e s, fun hearly => ?_⟩
    intro known
    refine ⟨fun hp hst => ?_, fun m hgiven hm => ?_, fun hp hst hlen hno => imageLength_of_shortAborted e s hp hst hlen hno,
      fun hp hno => ?_⟩
    · exact (imageLength_of_early e s hearly).trans (if_pos (skippedSection_of_skipped hp hst))
    · rw [imageLength_of_given e s hearly hgiven, trailerWritten_of_known e hm]
      rfl
    · rw [imageLength_of_given e s hearly (.inl hp)]
      exact ite_eq_or_eq _ _ _
  · intro run refused off asked
    have hrest : (idx :: off4 ++ len2).length = 7 := by rw [List.length_append, List.length_cons, hoff, hlen2]
    have hbody : readSection p (num4 ++ idx :: off4 ++ len2) (accept p kReadSection tag s) =
        readSectionOf p (num4 ++ idx :: off4 ++ len2) (shown s e) (accept p kReadSection tag s) := by
      rw [List.append_assoc]
      exact lookUp_section (s := accept p kReadSection tag s) p (idx :: off4 ++ len2) hnum hrest he
    have hrefused (st : Status) (h : readSectionOf p (num4 ++ idx :: off4 ++ len2) (shown s e) (accept p kReadSection tag s) =
        setAhead p none (refuse p st (accept p kReadSection tag s))) : refused st := by
      refine request_next (body := readSection p (num4 ++ idx :: off4 ++ len2)) hs ((hbody.trans h).trans ?_) rfl
      rw [refuse_accept]
      rfl
    have hnumbered : sectionNumbered (accept p kReadSection tag s).dir (shown s e)
        (fieldAt (num4 ++ idx :: off4 ++ len2) 4 1) = sectionNumbered s.dir e idx.toNat := by
      rw [fieldAt_index idx hnum]
      exact sectionNumbered_shown s.dir s e idx.toNat
    refine ⟨fun hnone => hrefused _ (readSectionOf_of_none (hnumbered.trans hnone)), fun x hx => ?_⟩
    intro now img pages len last page words held poisoned list took next busy buffered waits ahead
    have hof := readSectionOf_of_some (p := p) (hnumbered.trans hx)
    rw [fieldAt_offset idx hnum hoff, fieldAt_count idx hnum hoff hlen2] at hof
    have hserved : servedLength (accept p kReadSection tag s) now x off asked = len := servedLength_eq s now x off asked
    have hwaiting : sectionWaits p now x off asked (accept p kReadSection tag s) = true ↔ waits := by
      rw [sectionWaits_iff p now x off asked last _ (by rw [hserved])]
      exact or_congr (and_congr (imageBusy_accept ..) (heldAhead_accept ..))
        (or_congr (and_congr (imageBusy_accept ..) (heldAhead_accept ..)) (imageBusy_accept ..))
    refine ⟨fun hprogress => ?_, fun hclosed hout => ?_, fun hclosed hin hwaits => ?_, fun hclosed hin hno => ?_⟩
    · exact hrefused _ (hof.trans (if_pos hprogress))
    · exact hrefused _ (hof.trans ((if_neg hclosed).trans (if_pos hout)))
    · refine request_next (body := readSection p (num4 ++ idx :: off4 ++ len2)) hs (hbody.trans (hof.trans ?_)) rfl
      exact (if_neg hclosed).trans ((if_neg (Nat.not_le.mpr hin)).trans ((if_pos (hwaiting.mpr hwaits)).trans
        (setWait_accept p kReadSection tag _ s)))
    · have hserve := hof.trans ((if_neg hclosed).trans ((if_neg (Nat.not_le.mpr hin)).trans (if_neg (mt hwaiting.mp hno))))
      have hleaves := serveSection_leaves p now x off asked (service_accept p kReadSection tag s)
      refine ⟨_, request_next (body := readSection p (num4 ++ idx :: off4 ++ len2)) hs (hbody.trans hserve)
        (frameOf_serveSection p now x off asked (accept p kReadSection tag s)), ?_⟩
      obtain ⟨hservice, htx, hahead, hring, hinteg, hflash, hdir, hstore⟩ := hleaves
      rw [hserved] at htx hahead hring hinteg
      have hpage (k : Nat) : fetchImagePage p (accept p kReadSection tag s) now x k = page k := fetchImagePage_accept p tag s e x k
      have htook : SameLedgers took (takeImagePages (page (off / 512)) (page last) (off / 512 = last) (accept p kReadSection tag s)) :=
        takeImagePages_same (sameLedgers_accept p kReadSection tag s) _ _ _
      obtain ⟨himage, hread⟩ := readImagePage_accept p kReadSection tag s now x (last + 1)
      rw [hpage, hpage] at htx hring hinteg
      refine ⟨hservice, htx.trans ?_, hahead.trans ?_, hring.trans htook.ring, hinteg.trans ?_, hflash, hdir, hstore⟩
      · rw [tx_accept, sectionReply_eq, imageLength_accept, shown_cap]
        rfl
      · rw [nextAhead, himage, hread, shown_cap]
      · rw [himage, hread, htook.integ]
        rfl
  · refine ⟨fun hs => request_next (body := readSection p payload) hs rfl (frameOf_readSection _ _ _), resumeRead_section⟩
  · intro whole hearly hp hno used
    have hnone := trailer_unknown hno
    exact ⟨imageLength_of_part e s hearly hp hnone, imageLength_of_fullPages e s hearly hp hnone⟩
  · intro block good bad k tail
    have hgood : good = (sectionRange x).filter fun n => !pageInTable s e n :=
      List.filter_congr fun n _ => by
        rw [pageInTable_eq]
        change _ = (block n).elim _ _
        cases block n <;> rfl
    have hbad : bad = good.filter fun n => inRetiredBlock s e n :=
      List.filter_congr fun n _ => by
        rw [Bool.eq_iff_iff, inRetiredBlock_iff, List.any_eq_true]
        simp only [List.mem_finRange, true_and, Bool.and_eq_true, decide_eq_true_eq]
        exact Iff.rfl
    have himage := imagePages_eq s e x
    rw [← hgood] at himage
    dsimp only at himage
    rw [← hbad] at himage
    exact himage
  · intro src
    exact readImagePage_of_block hn hb

end Sys2Proof.Machine
end

