-- ==== Sys2Proof/Proofs/ReplyFields.lean ====
section
/-! PROOFS. Sys2Proof/Proofs/ReplyFields.lean: the fields that replies carry (R12, R48, R63, R104, R118, R133, R151, R156, R157, R165,
R171, R182). -/

namespace Sys2Proof.Machine

/-! ## Times that remain -/

theorem timerLeft_eq {us : Nat} (h : 0 < us) (now : PartTime) (o : Option PartTime) : timerLeft us now o =
    o.elim 0 fun t => if reached now t then 0 else ((t - now).toNat + us - 1) / us := by
  cases o with
  | none => rfl
  | some t =>
    have hzero : ceilDiv 0 us = 0 := Nat.div_eq_of_lt (by omega)
    rw [timerLeft, usLeft, Option.elim_some]
    by_cases hr : reached now t = true
    · rw [if_pos hr, if_pos hr, hzero]
    · rw [if_neg hr, if_neg hr, ceilDiv]

/-! ## The capture in progress -/

theorem captureNumber_eq (s : State) : captureNumber s = ((current s).map fun c => c.number).getD 0 := by
  rw [captureNumber, current]
  split
  · cases s.engine.capture <;> rfl
  · rfl

theorem inProgress_states (s : State) :
    inProgress s = (decide (s.engine.state = .opening) || decide (s.engine.state = .gathering) || decide (s.engine.state = .closing)) := by
  rw [inProgress]
  cases s.engine.state <;> rfl

/-! ## The groups of STATUS (R171) -/

theorem generalGroup_eq (p : PortId) (s : State) : generalGroup p s =
    [markByte s.ready, s.monitor.state.code, s.engine.state.code] ++ num (((current s).map fun c => c.number).getD 0) ++
      timeField s.time ++ leBytes 8 s.epoch.toNat ++
      [markByte s.epochValid, markByte s.link.svcStrap, BitVec.ofNat 8 (portLevel p s).code] := by
  rw [generalGroup, captureNumber_eq]
  rfl

/-- What the engine group says of the capture in progress. -/
def captureFields (c : Capture) : List Byte :=
  num c.number ++ setField c.trig ++ leBytes 1 (c.cursor.getD 0) ++
    leBytes 1 ((c.cursor.bind fun k => c.walk[k]?.map fun i => i.entry.val).getD 0) ++
    leBytes 1 ((c.current.map fun x => x.index).getD 0) ++ num c.nextPage ++ num c.snapshot.pageCap

/-- What it says where no capture is in progress. -/
def noCaptureFields : List Byte := num 0 ++ leBytes 2 0 ++ [0, 0, 0] ++ num 0 ++ num 0

theorem engineGroup_eq (s : State) : engineGroup s =
    [s.engine.state.code] ++ (current s).elim noCaptureFields captureFields ++ setField s.engine.retain ++ num (retainLeft s) ++
      s.engine.bufs.toList.flatMap bufGroup ++ [markByte s.engine.stall, s.engine.cause.code] ++ num s.engine.notes.length ++
      num s.engine.refFull ++ num s.engine.refNumbers ++ num s.engine.refPower ++ num s.engine.refErasing := by
  rw [engineGroup, captureNumber_eq]
  cases current s with
  | none => rfl
  | some c =>
    simp only [Option.elim_some, captureFields, Option.map_some, Option.getD_some, Option.bind_some, List.append_assoc]

/-! ## Blocks by their states -/

/-- The places of a list, from `c`, whose elements satisfy `q`. -/
def placesFrom {α : Type} (q : α → Bool) (c : Nat) (l : List α) : List Nat :=
  (List.range l.length).filterMap fun i =>
    match l[i]? with
    | some b => if q b then some (c + i) else none
    | none => none

theorem placesFrom_cons {α : Type} (q : α → Bool) (c : Nat) (b : α) (l : List α) :
    placesFrom q c (b :: l) = (if q b then [c] else []) ++ placesFrom q (c + 1) l := by
  rw [placesFrom, List.length_cons, List.range_succ_eq_map, List.filterMap_cons, List.filterMap_map]
  have hrest : List.filterMap ((fun i => match (b :: l)[i]? with
      | some b => if q b then some (c + i) else none
      | none => none) ∘ Nat.succ) (List.range l.length) = placesFrom q (c + 1) l := by
    refine List.filterMap_congr fun i _ => ?_
    have hplace : c + (i + 1) = c + 1 + i := by omega
    rw [Function.comp_apply, Nat.succ_eq_add_one, List.getElem?_cons_succ, hplace]
  rw [hrest]
  by_cases h : q b = true <;> simp [h]

theorem length_placesFrom {α : Type} (q : α → Bool) (c : Nat) (l : List α) :
    (placesFrom q c l).length = (l.filter q).length := by
  induction l generalizing c with
  | nil => rfl
  | cons b l ih =>
    rw [placesFrom_cons, List.length_append, ih, List.filter_cons]
    split
    · exact Nat.add_comm 1 _
    · exact Nat.zero_add _

theorem head?_placesFrom {α : Type} (q : α → Bool) (c : Nat) (l : List α) :
    (placesFrom q c l).head? = (l.findIdx? q).map fun i => c + i := by
  induction l generalizing c with
  | nil => rfl
  | cons b l ih =>
    rw [placesFrom_cons, List.head?_append, ih, List.findIdx?_cons]
    split
    · rfl
    · rw [Option.map_map]
      refine congrArg (fun f => Option.map f (l.findIdx? q)) (funext fun i => ?_)
      exact (Nat.add_right_comm c 1 i).trans rfl

theorem blocksWhere_eq (q : BlockState → Bool) (s : State) : blocksWhere q s = placesFrom q 4 s.store.blocks.toList := by
  rw [placesFrom, Vector.length_toList, blocksWhere]
  refine List.filterMap_congr fun i _ => ?_
  cases s.store.blocks.toList[i]? <;> rfl

theorem blocksIn_eq (q : BlockState → Bool) (s : State) : blocksIn q s = (s.store.blocks.toList.filter q).length := by
  rw [blocksIn, blocksWhere_eq, length_placesFrom]

theorem lowestFreeBlock_eq (s : State) :
    lowestFreeBlock s = (s.store.blocks.toList.findIdx? fun b => decide (b = .free)).map fun i => 4 + i := by
  rw [lowestFreeBlock, blocksWhere_eq, head?_placesFrom]

/-- A block that belongs to a capture. -/
def isAllotted : BlockState → Bool
  | .allotted _ => true
  | _ => false

theorem isAllotted_eq (b : BlockState) : isAllotted b =
    (decide (b ≠ .free) && decide (b ≠ .dirty) && decide (b ≠ .erasing) && decide (b ≠ .retired)) := by
  cases b <;> rfl

/-! ## Lists of fields -/

theorem listField_map {α : Type} (f : α → List Byte) (xs : List α) : listField (xs.map f) = leBytes 2 xs.length ++ xs.flatMap f := by
  rw [listField, List.length_map, List.flatMap_def]

theorem padFields_eq (d : Pad) : padFields d = num ((d.target.map fun t => t.1).getD 0) ++ leBytes 1 ((d.target.map fun t => t.2).getD 0) ++
    leBytes 1 (d.text.length - 1) ++ [BitVec.ofNat 8 ((if d.pf then 1 else 0) + (if d.locked then 2 else 0) + if d.aa then 4 else 0)] := by
  rw [padFields]
  cases d.target <;> rfl

theorem streamGroup_eq (g : StreamCfg) (c : StreamChan) : streamGroup g c =
    [markByte g.enabled, markByte (decide (g.mode = .paired))] ++ num g.wordLen ++ [markByte g.packing, c.rx.code] ++
      num c.bytesHeld ++ num c.fifo.length ++ num c.pendDrops ++ [markByte c.claim.isSome] ++
      num ((c.claim.map fun x => x.capture).getD 0) ++ num ((c.claim.map fun x => x.count).getD 0) ++ num c.received ++
      num c.taken ++ num c.aged ++ num c.overrun ++ num c.syncErrors ++ num c.truncated := by
  rw [streamGroup]
  cases g.mode <;> rfl

theorem fetchGroup_eq (g : FetchCfg) (c : FetchChan) :
    let next := match c.txn, c.region with
      | some t, _ => t.addr
      | none, some r => ((r.runs.find? fun x => x.permit = .read).map fun x => x.start).getD (r.base + r.len)
      | none, none => 0
    fetchGroup g c = [markByte g.enabled] ++ num g.timeout ++ num g.retries ++ [c.state.code, markByte c.region.isSome] ++
      num next ++ num c.failures ++ [markByte c.silent.isSome] ++ num (c.silent.getD 0) ++ num c.transactions ++
      num c.attempts ++ num c.timeouts ++ num c.naks ++ num c.failed ++ num c.abandoned ++ num c.stale ++ num c.badAnswers ++
      num c.silents ++ num c.bytesRead := by
  intro next
  have hnext : next = nextFetch c := by
    dsimp only [next]
    rw [nextFetch]
    cases c.txn with
    | some t => rfl
    | none =>
      cases c.region with
      | none => rfl
      | some r =>
        dsimp only
        cases r.runs.find? fun x => decide (x.permit = .read) <;> rfl
  rw [fetchGroup, hnext, optNum]

theorem storeGroup_eq (s : State) : storeGroup s =
    num (s.store.blocks.toList.filter fun b => decide (b = .free)).length ++
      num (s.store.blocks.toList.filter fun b =>
        decide (b ≠ .free) && decide (b ≠ .dirty) && decide (b ≠ .erasing) && decide (b ≠ .retired)).length ++
      num (s.store.blocks.toList.filter fun b => decide (b = .dirty)).length ++
      num (s.store.blocks.toList.filter fun b => decide (b = .erasing)).length ++
      num (s.store.blocks.toList.filter fun b => decide (b = .retired)).length ++
      num (((s.store.blocks.toList.findIdx? fun b => decide (b = .free)).map fun i => 4 + i).getD 0) ++
      num s.store.retPages.length ++ num s.store.retBlocks.length ++ num (unjournaledCount s) ++ flightFields s.store.flight ++
      num (waitingFor 0 s) ++ num (waitingFor 1 s) ++ num (waitingFor 2 s) ++ num (waitingFor 3 s) ++ num (waitingFor 4 s) ++
      num (waitingFor 5 s) := by
  have hwaiting : ((List.range 6).flatMap fun k => num (waitingFor k s)) = num (waitingFor 0 s) ++ (num (waitingFor 1 s) ++
      (num (waitingFor 2 s) ++ (num (waitingFor 3 s) ++ (num (waitingFor 4 s) ++ (num (waitingFor 5 s) ++ []))))) := rfl
  rw [storeGroup]
  change num _ ++ num (blocksIn isAllotted s) ++ _ ++ _ ++ _ ++ _ ++ _ ++ _ ++ _ ++ _ ++ _ = _
  rw [hwaiting, List.append_nil, blocksIn_eq, blocksIn_eq, blocksIn_eq, blocksIn_eq, blocksIn_eq, lowestFreeBlock_eq,
    funext isAllotted_eq]
  simp only [← List.append_assoc]
  rfl

/-! ## O57 -/

/-- Settles O57: each reply's fields, in order. -/
theorem repliesCarryTheirFields : Obligations.RepliesCarryTheirFields := by
  unfold Obligations.RepliesCarryTheirFields
  intro num set time mark code left
  have hseconds (now : PartTime) (o : Option PartTime) : left 1000000 now o = timerLeft usPerS now o := by
    rw [timerLeft_eq (by decide)]
    cases o <;> rfl
  have hmillis (now : PartTime) (o : Option PartTime) : left 1000 now o = timerLeft usPerMs now o := by
    rw [timerLeft_eq (by decide)]
    cases o <;> rfl
  refine ⟨by decide, fun s => ?_, fun p s => ?_, fun p s => ?_, fun p s => ?_, fun p s => ?_, fun p s => ?_, fun p s => ?_,
    fun p s => ?_, fun p s => ?_, fun s => ?_, fun d => padFields_eq d, fun s e => ?_, fun s => ?_⟩
  · simp only [hseconds]
    rfl
  · exact congrArg some (generalGroup_eq p s)
  · exact congrArg some rfl
  · exact congrArg some (List.flatMap_congr fun ch _ => streamGroup_eq _ _)
  · exact congrArg some (List.flatMap_congr fun ch _ => fetchGroup_eq _ _)
  · intro e here retain
    have hhere : here = (current s).elim noCaptureFields captureFields := by
      dsimp only [here]
      cases current s <;> rfl
    have hretain : retain = retainLeft s := by
      dsimp only [retain]
      rw [retainLeft]
      cases s.engine.retainTimer
      case running t => exact hseconds s.time (some t)
      all_goals rfl
    refine congrArg some ((engineGroup_eq s).trans ?_)
    rw [hhere, hretain]
    rfl
  · intro m
    rw [hmillis]
    exact congrArg some rfl
  · intro blocks eraser flight waiting
    have hflight : flight = flightFields s.store.flight := by
      dsimp only [flight]
      unfold flightFields
      cases s.store.flight with
      | none => rfl
      | some f =>
        cases f with
        | program who => cases who <;> rfl
        | erase who => cases who <;> rfl
    have hwaiting (k : Nat) : num (waitingFor k s) = waiting k := by
      dsimp only [waiting]
      rw [waitingFor]
      refine congrArg num (congrArg (· + _) (congrArg List.length (List.filter_congr fun q hq => ?_)))
      clear hq
      rw [decide_eq_decide, eq_comm]
      cases q
      case erase who block => cases who <;> exact Iff.rfl
      all_goals exact Iff.rfl
    refine congrArg some ((storeGroup_eq s).trans ?_)
    simp only [← hwaiting, hflight]
    rfl
  · intro d
    refine congrArg some ?_
    rw [directoryGroup, captureNumber_eq]
    rfl
  · rw [hseconds, reducedStatus, inProgress_states]
    rfl
  · intro outcome opened
    refine ⟨rfl, fun x hx => List.mem_filterMap.mp hx, ?_⟩
    rw [captureReply, listField_map, listField_map, listField_map]
    simp only [← List.append_assoc]
    rfl
  · intro g record
    have hrecord : errorFields g = record ++ [mark g.overflow] := by
      dsimp only [record]
      rw [errorFields]
      cases g.error <;> rfl
    refine ⟨hrecord, ?_⟩
    rw [errorsReply, hrecord]
    rfl

end Sys2Proof.Machine
end

