-- ==== Sys2Proof/Proofs/StoredCells.lean ====
section
/-! PROOFS. Sys2Proof/Proofs/StoredCells.lean: the words of the store by their cells, what an operation leaves outside its pages, and what
power loss leaves of one (R121, R122, R127, R131). -/

namespace Sys2Proof.Machine

/-! ## A page by its cells -/

/-- A word by its bytes and its check byte. -/
def cellWord (f : Flash) (p i : Nat) : Stored :=
  { data := BitVec.ofNat 64 (leNat ((List.range 8).map fun j => readByte f (512 * p + 8 * i + j)))
    diff := readCheck f (64 * p + i) }

theorem storedPage_eq (f : Flash) (p : Nat) : storedPage f p = (List.range 64).map (cellWord f p) := by
  refine List.ext_getElem (by simp) fun i hi _ => ?_
  have hi : i < 64 := by rwa [storedPage_length] at hi
  have hbytes : ((readRange 0xFF f.data (512 * p) 512).drop (8 * i)).take 8 =
      (List.range 8).map fun j => readByte f (512 * p + 8 * i + j) := by
    refine List.ext_getElem ?_ fun j hj _ => ?_
    · rw [List.length_take, List.length_drop, readRange_length, List.length_map, List.length_range]
      omega
    · rw [List.getElem_take, List.getElem_drop, readRange_getElem, List.getElem_map, List.getElem_range, readByte, Nat.add_assoc]
  simp only [storedPage, List.getElem_zipWith, wordsOf, List.getElem_map, List.getElem_range, fieldAt, pageBytes, hbytes,
    readRange_getElem, pageWords]
  rfl

theorem storedPage_get (f : Flash) (p : Nat) {i : Nat} (hi : i < 64) : (storedPage f p)[i]? = some (cellWord f p i) := by
  rw [storedPage_eq, List.getElem?_map, List.getElem?_range hi, Option.map_some]

theorem wordAt_eq (f : Flash) (p : Nat) {i : Nat} (hi : i < 64) : (storedPage f p).getD i Stored.erased = cellWord f p i := by
  rw [List.getD_eq_getElem?_getD, storedPage_get f p hi, Option.getD_some]

/-- A word whose cells stand as erased. -/
theorem cellWord_erased {f : Flash} {p i : Nat} (hbyte : ∀ j : Nat, j < 8 → readByte f (512 * p + 8 * i + j) = 0xFF)
    (hcheck : readCheck f (64 * p + i) = 0) : cellWord f p i = Stored.erased := by
  have hbytes : ((List.range 8).map fun j => readByte f (512 * p + 8 * i + j)) = (List.range 8).map fun _ => (0xFF : Byte) :=
    List.map_congr_left fun j hj => hbyte j (List.mem_range.mp hj)
  rw [cellWord, hbytes, hcheck]
  decide

/-! ## What stands outside some pages -/

/-- Outside the pages from `first` up to, but not including, `last` every cell reads as before. -/
structure LeavesOutside (first last : Nat) (f g : Flash) : Prop where
  byte : ∀ a : Nat, a < 512 * first ∨ 512 * last ≤ a → readByte g a = readByte f a
  check : ∀ w : Nat, w < 64 * first ∨ 64 * last ≤ w → readCheck g w = readCheck f w

theorem LeavesOutside.refl (first last : Nat) (f : Flash) : LeavesOutside first last f f := ⟨fun _ _ => rfl, fun _ _ => rfl⟩

theorem LeavesOutside.trans {first last : Nat} {f g h : Flash} (hfg : LeavesOutside first last f g)
    (hgh : LeavesOutside first last g h) : LeavesOutside first last f h :=
  ⟨fun a ha => (hgh.byte a ha).trans (hfg.byte a ha), fun w hw => (hgh.check w hw).trans (hfg.check w hw)⟩

theorem LeavesOutside.wider {first last first' last' : Nat} {f g : Flash} (h : LeavesOutside first last f g)
    (hfirst : first' ≤ first) (hlast : last ≤ last') : LeavesOutside first' last' f g :=
  ⟨fun a ha => h.byte a (by omega), fun w hw => h.check w (by omega)⟩

theorem LeavesOutside.cellWord {first last p i : Nat} {f g : Flash} (h : LeavesOutside first last f g)
    (hp : p < first ∨ last ≤ p) (hi : i < 64) : cellWord g p i = cellWord f p i := by
  have hbytes : ((List.range 8).map fun j => readByte g (512 * p + 8 * i + j)) =
      (List.range 8).map fun j => readByte f (512 * p + 8 * i + j) :=
    List.map_congr_left fun j hj => by
      have := List.mem_range.mp hj
      exact h.byte _ (by omega)
  rw [Machine.cellWord, Machine.cellWord, hbytes, h.check _ (by omega)]

theorem storePage_leaves {ws : List Stored} (p : Nat) (f : Flash) (hw : ws.length = 64) :
    LeavesOutside p (p + 1) f (storePage p ws f) := by
  refine ⟨fun a ha => storePage_frame p ws f hw a ha, fun w hout => ?_⟩
  unfold storePage
  split
  · refine writeRange_frame _ _ _ _ _ ?_
    rw [List.length_map, hw, pageWords]
    omega
  · rfl

/-- The words of a stored page. -/
theorem cellWord_storePage {ws : List Stored} {p i : Nat} (f : Flash) (hp : p < 8192) (hw : ws.length = 64) (hi : i < 64) :
    some (cellWord (storePage p ws f) p i) = ws[i]? := by
  rw [← storedPage_get _ _ hi, storedPage_storePage p ws f hp hw]

/-- Cells unlisted again. -/
def clearPages (first count : Nat) (f : Flash) : Flash :=
  { data := clearRange f.data (512 * first) (512 * count), check := clearRange f.check (64 * first) (64 * count) }

theorem clearPages_leaves (first count : Nat) (f : Flash) : LeavesOutside first (first + count) f (clearPages first count f) :=
  ⟨fun a ha => clearRange_frame _ _ _ _ _ (by omega), fun w hw => clearRange_frame _ _ _ _ _ (by omega)⟩

theorem readByte_clearPages {first count a : Nat} (f : Flash) (h : 512 * first ≤ a ∧ a < 512 * (first + count)) :
    readByte (clearPages first count f) a = 0xFF :=
  clearRange_get _ _ _ _ _ (by omega)

theorem readCheck_clearPages {first count w : Nat} (f : Flash) (h : 64 * first ≤ w ∧ w < 64 * (first + count)) :
    readCheck (clearPages first count f) w = 0 :=
  clearRange_get _ _ _ _ _ (by omega)

theorem cellWord_clearPages {first count p i : Nat} (f : Flash) (hp : first ≤ p ∧ p < first + count) (hi : i < 64) :
    cellWord (clearPages first count f) p i = Stored.erased :=
  cellWord_erased (fun j hj => readByte_clearPages f (by omega)) (readCheck_clearPages f (by omega))

theorem clearPosition_eq (k : Nat) (f : Flash) : clearPosition k f = clearPages (256 + 4 * k) 4 f := rfl

theorem eraseBlock_nil (b : Nat) (f : Flash) : eraseBlock b [] f = clearPages (128 * b) 128 f := by
  have hbytes : 512 * 128 * b = 512 * (128 * b) := Nat.mul_assoc ..
  have hchecks : 64 * 128 * b = 64 * (128 * b) := Nat.mul_assoc ..
  change ({ data := clearRange f.data (512 * 128 * b) (512 * 128), check := clearRange f.check (64 * 128 * b) (64 * 128) } : Flash) = _
  rw [hbytes, hchecks]
  rfl

/-! ## Operations and their own cells (R121, R122, R127) -/

theorem programPage_leaves (p : Nat) (content : List Byte) (faults : List WordFault) (f : Flash) :
    LeavesOutside p (p + 1) f (programPage p content faults f) :=
  storePage_leaves p f (by rw [withProgramFaults_length, List.length_zipWith, storedPage_length, wordsOf_length]; rfl)

theorem wordsOf_get (bs : List Byte) {n i : Nat} (hi : i < n) : (wordsOf n bs)[i]? = some ((wordsOf n bs).getD i 0) := by
  have hlen : i < (wordsOf n bs).length := by rwa [wordsOf_length]
  rw [List.getD_eq_getElem _ _ hlen, List.getElem?_eq_getElem hlen]

theorem cellWord_programPage (p : Nat) (content : List Byte) (f : Flash) {i : Nat} (hp : p < 8192) (hi : i < 64) :
    cellWord (programPage p content [] f) p i = programWord (cellWord f p i) ((wordsOf 64 content).getD i 0) := by
  have hpage := storedPage_programPage p content f hp
  have hword : (storedPage (programPage p content [] f) p)[i]? =
      some (programWord (cellWord f p i) ((wordsOf 64 content).getD i 0)) := by
    rw [hpage, List.getElem?_zipWith, storedPage_get f p hi, pageWords, wordsOf_get content hi]
  rw [storedPage_get _ _ hi] at hword
  exact Option.some.inj hword

/-- The store after a completion is the one that the operation left. -/
theorem flash_programComplete {s t : State} {who : Programmer} {page : Nat} {content : List Byte} {faults : List WordFault}
    (hp : s.powered = true) (hf : s.store.flight = some (.program who page content))
    (h : exec (.programComplete faults) s = .next t) : t.flash = programPage page content faults s.flash := by
  have ht : whenPoweredBut takeFlash (programCompleted faults) s = t := Host.Outcome.next.inj h
  have hdone : (programCompleted faults s).flash = programPage page content faults s.flash := by
    unfold programCompleted
    rw [hf]
    rfl
  rw [← ht, whenPoweredBut, if_pos hp, ← hdone]
  rfl

theorem flash_eraseComplete {s t : State} {who : Eraser} {block : Nat} {faults : List BlockFault}
    (hp : s.powered = true) (hf : s.store.flight = some (.erase who block))
    (h : exec (.eraseComplete faults) s = .next t) : t.flash = eraseBlock block faults s.flash := by
  have ht : whenPoweredBut takeFlash (eraseCompleted faults) s = t := Host.Outcome.next.inj h
  have hdone : (eraseCompleted faults s).flash = eraseBlock block faults s.flash := by
    unfold eraseCompleted
    rw [hf]
    rfl
  rw [← ht, whenPoweredBut, if_pos hp, ← hdone]
  rfl

/-- Settles O35: programs and erases by the cells they change. -/
theorem operationsChangeTheirOwnCells : Obligations.OperationsChangeTheirOwnCells := by
  refine ⟨fun who page content s t hp hf h => ?_, fun who block s t hp hf h => ?_⟩
  · have hleaves := programPage_leaves page content [] s.flash
    rw [flash_programComplete hp hf h]
    refine ⟨fun hpage i hi => ?_, hleaves.byte, hleaves.check⟩
    intro old new
    have hold : old = cellWord s.flash page i := wordAt_eq s.flash page hi
    rw [wordAt_eq _ _ hi, cellWord_programPage page content s.flash hpage hi, hold]
    rfl
  · have hleaves := clearPages_leaves (128 * block) 128 s.flash
    rw [flash_eraseComplete hp hf h, eraseBlock_nil]
    exact ⟨fun a hlow hhigh => readByte_clearPages _ (by omega), fun w hlow hhigh => readCheck_clearPages _ (by omega),
      fun a ha => hleaves.byte a (by omega), fun w hw => hleaves.check w (by omega)⟩

/-! ## What power loss leaves (R131) -/

/-- A torn program's words. -/
def tornWords (torn : List BlockFault) (old : List Stored) (content : List Byte) : List Stored :=
  List.zipWith (fun (iw : Nat × Stored) new =>
    match torn.find? fun t => t.fault.word.val = iw.1 with
    | some t => tornProgram iw.2 new t.fault
    | none => iw.2) (old.mapIdx fun i w => (i, w)) (wordsOf 64 content)

theorem tearFlash_program (who : Programmer) (page : Nat) (content : List Byte) (torn : List BlockFault) (f : Flash) :
    tearFlash (some (.program who page content)) torn f = storePage page (tornWords torn (storedPage f page) content) f := rfl

theorem length_tornWords {torn : List BlockFault} {old : List Stored} {content : List Byte} (h : old.length = 64) :
    (tornWords torn old content).length = 64 := by
  rw [tornWords, List.length_zipWith, List.length_mapIdx, wordsOf_length, h]
  rfl

/-- A word lies between its old content and the AND of old and new. -/
def Between (old new r : BitVec 64) : Prop := (old &&& new) &&& r = old &&& new ∧ r &&& old = r

theorem between_old (old new : BitVec 64) : Between old new old :=
  ⟨by rw [BitVec.and_comm old new, BitVec.and_assoc, BitVec.and_self], BitVec.and_self⟩

theorem between_torn (old new t : BitVec 64) : Between old new (old &&& new ||| old &&& t) := by
  refine ⟨?_, ?_⟩ <;>
  · ext i hi
    simp only [BitVec.getElem_and, BitVec.getElem_or]
    cases old[i] <;> cases new[i] <;> simp

theorem between_tornProgram (old : Stored) (new : BitVec 64) (t : WordFault) : Between old.data new (tornProgram old new t).data := by
  unfold tornProgram
  split
  · exact between_old _ _
  · exact between_torn _ _ _

theorem between_tornWords {torn : List BlockFault} {old : List Stored} {content : List Byte} {i : Nat} {w r : Stored} (hi : i < 64)
    (hw : old[i]? = some w) (hr : (tornWords torn old content)[i]? = some r) :
    Between w.data ((wordsOf 64 content).getD i 0) r.data := by
  rw [tornWords, List.getElem?_zipWith, List.getElem?_mapIdx, hw, wordsOf_get content hi] at hr
  have hr := Option.some.inj hr
  dsimp only at hr
  rw [← hr]
  split
  · exact between_tornProgram _ _ _
  · exact between_old _ _

/-- A store after a program was torn: its words lie between, and nothing else changed. -/
structure TornProgram (page : Nat) (content : List Byte) (f g : Flash) : Prop where
  leaves : LeavesOutside page (page + 1) f g
  word : page < 8192 → ∀ i : Nat, i < 64 → Between (cellWord f page i).data ((wordsOf 64 content).getD i 0) (cellWord g page i).data

theorem tornProgram_refl (page : Nat) (content : List Byte) (f : Flash) : TornProgram page content f f :=
  ⟨.refl _ _ _, fun _ _ _ => between_old _ _⟩

theorem tornProgram_tearFlash (who : Programmer) (page : Nat) (content : List Byte) (torn : List BlockFault) (f : Flash) :
    TornProgram page content f (tearFlash (some (.program who page content)) torn f) := by
  have hlen : (tornWords torn (storedPage f page) content).length = 64 := length_tornWords (storedPage_length f page)
  rw [tearFlash_program]
  exact ⟨storePage_leaves page f hlen, fun hp i hi =>
    between_tornWords hi (storedPage_get f page hi) (cellWord_storePage f hp hlen hi).symm⟩

/-- Which of the two a torn program leaves. -/
theorem storeAfterLoss_program (who : Programmer) (page : Nat) (content : List Byte) (torn : List BlockFault) (f : Flash) :
    let fl : Option Flight := some (.program who page content)
    storeAfterLoss fl torn f = tearFlash fl torn f ∨ storeAfterLoss fl torn f = f := by
  unfold storeAfterLoss
  cases who
  case settings =>
    dsimp only
    split
    · exact .inr rfl
    · exact .inl rfl
  all_goals exact .inl rfl

theorem tornProgram_storeAfterLoss (who : Programmer) (page : Nat) (content : List Byte) (torn : List BlockFault) (f : Flash) :
    TornProgram page content f (storeAfterLoss (some (.program who page content)) torn f) := by
  rcases storeAfterLoss_program who page content torn f with h | h <;> rw [h]
  · exact tornProgram_tearFlash who page content torn f
  · exact tornProgram_refl page content f

/-- A store after an erase was torn: the block's words keep every 1 bit, and nothing else changed. -/
structure TornErase (block : Nat) (f g : Flash) : Prop where
  leaves : LeavesOutside (128 * block) (128 * (block + 1)) f g
  word : ∀ page i : Nat, page < 8192 → i < 64 → (cellWord f page i).data &&& (cellWord g page i).data = (cellWord f page i).data

theorem tornErase_refl (block : Nat) (f : Flash) : TornErase block f f := ⟨.refl _ _ _, fun _ _ _ _ => BitVec.and_self⟩

theorem TornErase.trans {block : Nat} {f g h : Flash} (hfg : TornErase block f g) (hgh : TornErase block g h) : TornErase block f h :=
  ⟨hfg.leaves.trans hgh.leaves, fun page i hp hi => by
    rw [← hfg.word page i hp hi, BitVec.and_assoc, hgh.word page i hp hi]⟩

theorem tornErase_foldl {α : Type} {block : Nat} (step : Flash → α → Flash) (xs : List α) (P : α → Prop)
    (hstep : ∀ x g, P x → TornErase block g (step g x)) (hP : ∀ x ∈ xs, P x) (f : Flash) : TornErase block f (xs.foldl step f) := by
  induction xs generalizing f with
  | nil => exact tornErase_refl block f
  | cons x xs ih =>
    exact (hstep x f (hP x List.mem_cons_self)).trans (ih (fun y hy => hP y (List.mem_cons_of_mem _ hy)) _)

/-- A torn word of an erase. -/
theorem tornErase_word (block : Nat) (x : BlockFault) (g : Flash) : TornErase block g
    (storePage (128 * block + x.page.val)
      ((storedPage g (128 * block + x.page.val)).mapIdx fun i w => if i = x.fault.word.val then tornErase w x.fault else w) g) := by
  have hpage := x.page.isLt
  have hlen : ((storedPage g (128 * block + x.page.val)).mapIdx fun i w =>
      if i = x.fault.word.val then tornErase w x.fault else w).length = 64 := by
    rw [List.length_mapIdx, storedPage_length]
  have hleaves := storePage_leaves (128 * block + x.page.val) g hlen
  refine ⟨hleaves.wider (by omega) (by omega), fun page i hp hi => ?_⟩
  by_cases h : page = 128 * block + x.page.val
  · have hword := cellWord_storePage g (h ▸ hp) hlen hi
    rw [List.getElem?_mapIdx, storedPage_get _ _ hi, Option.map_some] at hword
    rw [h, Option.some.inj hword]
    split
    · rw [tornErase]
      ext k hk
      simp only [BitVec.getElem_and, BitVec.getElem_or]
      cases (cellWord g (128 * block + x.page.val) i).data[k] <;> rfl
    · exact BitVec.and_self
  · rw [hleaves.cellWord (by omega) hi]
    exact BitVec.and_self

theorem tornErase_tearFlash (who : Eraser) (block : Nat) (torn : List BlockFault) (f : Flash) :
    TornErase block f (tearFlash (some (.erase who block)) torn f) :=
  tornErase_foldl _ torn (fun _ => True) (fun x g _ => tornErase_word block x g) (fun _ _ => trivial) f

/-- A position of block 2 that no longer holds a good image. -/
theorem tornErase_clearPosition {k : Nat} (hk : k < 32) (g : Flash) : TornErase 2 g (clearPosition k g) := by
  have hleaves := clearPages_leaves (256 + 4 * k) 4 g
  rw [clearPosition_eq]
  refine ⟨hleaves.wider (by omega) (by omega), fun page i hp hi => ?_⟩
  by_cases h : 256 + 4 * k ≤ page ∧ page < 256 + 4 * k + 4
  · rw [cellWord_clearPages g h hi]
    exact BitVec.and_allOnes
  · rw [hleaves.cellWord (by omega) hi]
    exact BitVec.and_self

theorem tornErase_storeAfterLoss (who : Eraser) (block : Nat) (torn : List BlockFault) (f : Flash) :
    TornErase block f (storeAfterLoss (some (.erase who block)) torn f) := by
  have htear := tornErase_tearFlash who block torn f
  cases who
  case settings =>
    by_cases hblock : block = settingsBlock
    · have hclear : storeAfterLoss (some (.erase .settings block)) torn f =
          ((List.range 32).filter (positionGood (tearFlash (some (.erase .settings block)) torn f))).foldl
            (fun g k => clearPosition k g) (tearFlash (some (.erase .settings block)) torn f) := if_pos hblock
      rw [hclear]
      refine htear.trans (hblock ▸ tornErase_foldl _ _ (fun k => k < 32) (fun k g hk => tornErase_clearPosition hk g)
        (fun k hk => List.mem_range.mp (List.mem_filter.mp hk).1) _)
    · have hkeep : storeAfterLoss (some (.erase .settings block)) torn f = tearFlash (some (.erase .settings block)) torn f :=
        if_neg hblock
      rw [hkeep]
      exact htear
  all_goals exact htear

/-- Settles O40: power loss by the operation in flight; everything volatile stands as at its start. -/
theorem powerLossTearsWithinBounds : Obligations.PowerLossTearsWithinBounds := by
  intro torn s hp
  have hlost : powerLost torn s =
      { resetClock (resetBlocks false (s.onFlash (storeAfterLoss s.store.flight torn))) with powered := false } :=
    if_neg (by rw [hp]; decide)
  refine ⟨_, congrArg Host.Outcome.next hlost, rfl, rfl, rfl, rfl, rfl, rfl, rfl, rfl, rfl, rfl, rfl, rfl, rfl, rfl, rfl, rfl, rfl, rfl,
    rfl, fun hf => ?_, fun who page content hf => ?_, fun who block hf => ?_⟩
  · change storeAfterLoss s.store.flight torn s.flash = s.flash
    rw [hf]
    rfl
  · have htorn := tornProgram_storeAfterLoss who page content torn s.flash
    rw [← hf] at htorn
    refine ⟨fun hpage i hi => ?_, htorn.leaves.byte, htorn.leaves.check⟩
    intro old new r
    have hbetween := htorn.word hpage i hi
    rw [← wordAt_eq _ _ hi, ← wordAt_eq _ _ hi] at hbetween
    exact hbetween
  · have htorn := tornErase_storeAfterLoss who block torn s.flash
    rw [← hf] at htorn
    refine ⟨fun page i _ _ hpage hi => ?_, fun a ha => htorn.leaves.byte a (by omega), fun w hw => htorn.leaves.check w (by omega)⟩
    intro old
    have hword := htorn.word page i hpage hi
    rw [← wordAt_eq _ _ hi, ← wordAt_eq _ _ hi] at hword
    exact hword

end Sys2Proof.Machine
end

