-- ==== Sys2Proof/Proofs/PageReads.lean ====
section
/-! PROOFS. Sys2Proof/Proofs/PageReads.lean: what taking pages changes where no relocation follows: the counters, the error capture
record, its notice, and one event for each class (R154, R164). -/

namespace Sys2Proof.Machine

theorem pin_post (r : Ring) (t : PartTime) (o : Origin) (k : Byte) (args : List (BitVec 32)) : (r.post t o k args).pin = r.pin := by
  unfold Ring.post
  split
  · unfold Ring.markLost
    split <;> rfl
  · rfl

/-- From `s` to `t` pages were taken. -/
structure PagesTaken (s t : State) : Prop where
  shape : t = { s with ring := t.ring, integ := t.integ, link := t.link }
  integ : t.integ = { s.integ with
    error := t.integ.error
    overflow := t.integ.overflow
    corrected := t.integ.corrected
    poisoned := t.integ.poisoned }
  link : t.link = { s.link with ports := t.link.ports }
  port : ∀ p, t.port p = { s.port p with notices := (t.port p).notices }
  bit : ∀ p i, i ≠ 3 → (t.port p).notices.getLsbD i = (s.port p).notices.getLsbD i
  error : (∀ p, (s.port p).notices.getLsbD 3 = s.integ.error.isSome) → ∀ p, (t.port p).notices.getLsbD 3 = t.integ.error.isSome
  pin : t.ring.pin = s.ring.pin

theorem PagesTaken.refl (s : State) : PagesTaken s s := ⟨rfl, rfl, rfl, fun _ => rfl, fun _ _ _ => rfl, id, rfl⟩

theorem PagesTaken.trans {s t u : State} (h : PagesTaken s t) (h' : PagesTaken t u) : PagesTaken s u where
  shape := h'.shape.trans (congrArg (fun x : State => { x with ring := u.ring, integ := u.integ, link := u.link }) h.shape)
  integ := h'.integ.trans (congrArg (fun x : Integrity => { x with
    error := u.integ.error
    overflow := u.integ.overflow
    corrected := u.integ.corrected
    poisoned := u.integ.poisoned }) h.integ)
  link := h'.link.trans (congrArg (fun x : Link => { x with ports := u.link.ports }) h.link)
  port p := (h'.port p).trans (congrArg (fun x : Port => { x with notices := (u.port p).notices }) (h.port p))
  bit p i hi := (h'.bit p i hi).trans (h.bit p i hi)
  error hs := h'.error (h.error hs)
  pin := h'.pin.trans h.pin

theorem PagesTaken.flash {s t : State} (h : PagesTaken s t) : t.flash = s.flash :=
  (congrArg State.flash h.shape :)

theorem PagesTaken.time {s t : State} (h : PagesTaken s t) : t.time = s.time :=
  (congrArg State.time h.shape :)

theorem pagesTaken_post (o : Origin) (k : Byte) (args : List Nat) (s : State) : PagesTaken s (post o k args s) :=
  ⟨rfl, rfl, rfl, fun _ => rfl, fun _ _ _ => rfl, id, pin_post _ _ _ _ _⟩

theorem pagesTaken_offerError (k : ErrKind) (page word : Nat) (op : Operation) (s : State) :
    PagesTaken s (offerError k page word op s) := by
  unfold offerError
  split
  · next r h =>
    exact ⟨rfl, rfl, rfl, fun _ => rfl, fun _ _ _ => rfl, id, rfl⟩
  · refine ⟨rfl, rfl, rfl, fun p => ?_, fun p i hi => ?_, fun _ p => ?_, rfl⟩
    · rw [port_raise]
      rfl
    · rw [port_raise]
      exact (getLsbD_setBit _ _ _ _ (by decide)).trans (if_neg hi)
    · rw [port_raise]
      exact (getLsbD_setBit _ _ _ _ (by decide)).trans (if_pos rfl)

theorem PagesTaken.ite {s t u : State} {c : Prop} [Decidable c] (ht : PagesTaken s t) (hu : PagesTaken s u) :
    PagesTaken s (if c then t else u) := by
  split
  · exact ht
  · exact hu

/-- The counters with the words of a page. -/
def countWords (ws : List WordRead) (s : State) : State :=
  s.onInteg fun g => { g with
    corrected := satAdd g.corrected (countClass .corrected ws)
    poisoned := satAdd g.poisoned (countClass .poisoned ws) }

/-- The event of a page's words of one class. -/
def tellClass (kind : Byte) (phys n : Nat) (op : Operation) (s : State) : State :=
  if n = 0 then s else post .integrity kind [phys, n, op.code.toNat] s

/-- The first word of a class is offered to the error capture record. -/
def offerClass (c : WordClass) (kind : ErrKind) (phys : Nat) (op : Operation) (ws : List WordRead) (s : State) : State :=
  match ws.findIdx? fun w => w.cls = c with
  | some i => offerError kind phys i op s
  | none => s

theorem takePage_eq {op : Operation} (h : op ≠ .retrieve) (src phys : Nat) (ws : List WordRead) (s : State) :
    takePage op src phys ws s = offerClass .poisoned .poisoned phys op ws (offerClass .corrected .corrected phys op ws
      (tellClass evErrorPoisoned phys (countClass .poisoned ws) op (tellClass evErrorCorrected phys (countClass .corrected ws) op
        (countWords ws s)))) := by
  refine (if_neg ?_).trans rfl
  rw [Bool.and_eq_true, decide_eq_true_eq]
  exact fun hboth => h hboth.1

theorem pagesTaken_offerClass (c : WordClass) (kind : ErrKind) (phys : Nat) (op : Operation) (ws : List WordRead) (s : State) :
    PagesTaken s (offerClass c kind phys op ws s) := by
  unfold offerClass
  split
  · exact pagesTaken_offerError _ _ _ _ _
  · exact .refl s

theorem pagesTaken_tellClass (kind : Byte) (phys n : Nat) (op : Operation) (s : State) :
    PagesTaken s (tellClass kind phys n op s) :=
  (PagesTaken.refl s).ite (pagesTaken_post _ _ _ s)

theorem pagesTaken_takePage {op : Operation} (h : op ≠ .retrieve) (src phys : Nat) (ws : List WordRead) (s : State) :
    PagesTaken s (takePage op src phys ws s) := by
  have hcount : PagesTaken s (countWords ws s) := ⟨rfl, rfl, rfl, fun _ => rfl, fun _ _ _ => rfl, id, rfl⟩
  rw [takePage_eq h]
  exact (((hcount.trans (pagesTaken_tellClass ..)).trans (pagesTaken_tellClass ..)).trans (pagesTaken_offerClass ..)).trans
    (pagesTaken_offerClass ..)

/-! ## The events of the pages (R154) -/

/-- The ring with the event of a page's words of one class. -/
def classEvent (time : PartTime) (kind : Byte) (phys n : Nat) (op : Operation) (r : Ring) : Ring :=
  if n = 0 then r else r.post time .integrity kind [BitVec.ofNat 32 phys, BitVec.ofNat 32 n, BitVec.ofNat 32 op.code.toNat]

/-- The ring with the events of a page. -/
def pageEvents (time : PartTime) (op : Operation) (phys : Nat) (ws : List WordRead) (r : Ring) : Ring :=
  classEvent time evErrorPoisoned phys (countClass .poisoned ws) op
    (classEvent time evErrorCorrected phys (countClass .corrected ws) op r)

theorem ring_tellClass (kind : Byte) (phys n : Nat) (op : Operation) (s : State) :
    (tellClass kind phys n op s).ring = classEvent s.time kind phys n op s.ring := by
  unfold tellClass classEvent
  split <;> rfl

theorem time_tellClass (kind : Byte) (phys n : Nat) (op : Operation) (s : State) : (tellClass kind phys n op s).time = s.time := by
  unfold tellClass
  split <;> rfl

theorem ring_offerError (k : ErrKind) (page word : Nat) (op : Operation) (s : State) : (offerError k page word op s).ring = s.ring := by
  unfold offerError
  split <;> rfl

theorem ring_offerClass (c : WordClass) (kind : ErrKind) (phys : Nat) (op : Operation) (ws : List WordRead) (s : State) :
    (offerClass c kind phys op ws s).ring = s.ring := by
  unfold offerClass
  split
  · exact ring_offerError _ _ _ _ _
  · rfl

theorem ring_takePage {op : Operation} (h : op ≠ .retrieve) (src phys : Nat) (ws : List WordRead) (s : State) :
    (takePage op src phys ws s).ring = pageEvents s.time op phys ws s.ring := by
  rw [takePage_eq h, ring_offerClass, ring_offerClass, ring_tellClass, ring_tellClass, time_tellClass]
  rfl

/-- Pages taken in turn, each as it reads. -/
def takePages (op : Operation) (ps : List Nat) (s : State) : State :=
  forEach ps (fun p s => takePage op p p (readPhys s.flash p) s) s

theorem takePages_cons (op : Operation) (p : Nat) (ps : List Nat) (s : State) :
    takePages op (p :: ps) s = takePages op ps (takePage op p p (readPhys s.flash p) s) := rfl

theorem takePages_append (op : Operation) (ps qs : List Nat) (s : State) :
    takePages op (ps ++ qs) s = takePages op qs (takePages op ps s) := forEach_append ps qs _ s

theorem pagesTaken_takePages {op : Operation} (h : op ≠ .retrieve) (ps : List Nat) (s : State) : PagesTaken s (takePages op ps s) := by
  induction ps generalizing s with
  | nil => exact .refl s
  | cons p ps ih => exact (pagesTaken_takePage h p p (readPhys s.flash p) s).trans (ih _)

theorem ring_takePages {op : Operation} (h : op ≠ .retrieve) (ps : List Nat) (s : State) : (takePages op ps s).ring =
    ps.foldl (fun r p => pageEvents s.time op p (readPhys s.flash p) r) s.ring := by
  induction ps generalizing s with
  | nil => rfl
  | cons p ps ih =>
    have htaken := pagesTaken_takePage h p p (readPhys s.flash p) s
    rw [takePages_cons, ih, ring_takePage h, htaken.flash, htaken.time]
    rfl

end Sys2Proof.Machine
end

