-- ==== Sys2Proof/Proofs/StartUps.lean ====
section
/-! PROOFS. Sys2Proof/Proofs/StartUps.lean: the settings load, and what power coming on and RESTART_EFFECT leave (R16, R31, R47, R65, R77,
R105, R119, R165, R176). -/

namespace Sys2Proof.Machine

/-! ## The positions that the load reads (R176) -/

/-- The positions of those listed that are read: each that does not read erased, up to the first good image. -/
def positionsRead (f : Flash) : List Nat → List Nat
  | [] => []
  | k :: ks =>
    if positionErased f k then positionsRead f ks
    else if imageGood (positionBytes f k) then [k]
    else k :: positionsRead f ks

/-- The pages of the positions read. -/
def pagesRead (f : Flash) (ks : List Nat) : List Nat := (positionsRead f ks).flatMap positionPageList

theorem takePosition_eq (k : Nat) (s : State) : takePosition k s = takePages .settings (positionPageList k) s := rfl

theorem positionGood_of_erased {f : Flash} {k : Nat} (h : positionErased f k = true) : positionGood f k = false := by
  rw [positionGood, h]
  rfl

theorem positionGood_of_unerased {f : Flash} {k : Nat} (h : positionErased f k = false) :
    positionGood f k = imageGood (positionBytes f k) := by
  rw [positionGood, h, Bool.not_false, Bool.true_and]

/-- The load: its pages are taken, and the first good image is adopted. -/
theorem loadFrom_eq (ks : List Nat) (s : State) : loadFrom ks s =
    (ks.find? (positionGood s.flash)).elim (settingsLost (takePages .settings (pagesRead s.flash ks) s))
      fun k => adoptImage (positionBytes s.flash k) (takePages .settings (pagesRead s.flash ks) s) := by
  induction ks generalizing s with
  | nil => rfl
  | cons k ks ih =>
    by_cases herased : positionErased s.flash k = true
    · have hload : loadFrom (k :: ks) s = loadFrom ks s := if_pos herased
      have hread : pagesRead s.flash (k :: ks) = pagesRead s.flash ks :=
        congrArg (List.flatMap positionPageList) (if_pos herased)
      rw [hload, hread, ih, List.find?_cons_of_neg (by rw [positionGood_of_erased herased]; decide)]
    · have herased := Bool.eq_false_iff.mpr herased
      have htaken : (takePosition k s).flash = s.flash := (pagesTaken_takePages (by decide) (positionPageList k) s).flash
      by_cases hgood : imageGood (positionBytes s.flash k) = true
      · have hload : loadFrom (k :: ks) s = adoptImage (positionBytes s.flash k) (takePosition k s) :=
          (if_neg (Bool.eq_false_iff.mp herased)).trans (if_pos hgood)
        have hpos : positionsRead s.flash (k :: ks) = [k] := (if_neg (Bool.eq_false_iff.mp herased)).trans (if_pos hgood)
        rw [hload, List.find?_cons_of_pos ((positionGood_of_unerased herased).trans hgood), pagesRead, hpos, takePosition_eq,
          List.flatMap_singleton, Option.elim_some]
      · have hload : loadFrom (k :: ks) s = loadFrom ks (takePosition k s) :=
          (if_neg (Bool.eq_false_iff.mp herased)).trans (if_neg hgood)
        have hpos : positionsRead s.flash (k :: ks) = k :: positionsRead s.flash ks :=
          (if_neg (Bool.eq_false_iff.mp herased)).trans (if_neg hgood)
        have hpages : pagesRead s.flash (k :: ks) = positionPageList k ++ pagesRead s.flash ks := by
          rw [pagesRead, hpos, List.flatMap_cons, pagesRead]
        rw [hload, ih, htaken, hpages, takePages_append, ← takePosition_eq,
          List.find?_cons_of_neg (by rw [positionGood_of_unerased herased]; exact hgood)]

/-- Of a run of positions from `n`, with none good before, those read are the ones that no good image precedes. -/
theorem positionsRead_range (f : Flash) (m n : Nat) (h : ∀ j : Nat, j < n → positionGood f j = false) :
    positionsRead f (List.range' n m) =
      (List.range' n m).filter fun k => !positionErased f k && (List.range k).all fun j => !positionGood f j := by
  induction m generalizing n with
  | zero => rfl
  | succ m ih =>
    have hbefore : ((List.range n).all fun j => !positionGood f j) = true := by
      rw [List.all_eq_true]
      intro j hj
      rw [h j (List.mem_range.mp hj)]
      rfl
    have hnext (hn : positionGood f n = false) : ∀ j : Nat, j < n + 1 → positionGood f j = false := fun j hj =>
      (Nat.lt_succ_iff_lt_or_eq.mp hj).elim (h j) fun heq => heq ▸ hn
    rw [List.range'_succ, List.filter_cons, hbefore, Bool.and_true]
    by_cases herased : positionErased f n = true
    · have hread : positionsRead f (n :: List.range' (n + 1) m) = positionsRead f (List.range' (n + 1) m) := if_pos herased
      rw [hread, ih (n + 1) (hnext (positionGood_of_erased herased)), herased]
      rfl
    · have herased := Bool.eq_false_iff.mpr herased
      rw [herased]
      by_cases hgood : imageGood (positionBytes f n) = true
      · have hread : positionsRead f (n :: List.range' (n + 1) m) = [n] :=
          (if_neg (Bool.eq_false_iff.mp herased)).trans (if_pos hgood)
        have hrest : ((List.range' (n + 1) m).filter fun k => !positionErased f k && (List.range k).all fun j => !positionGood f j) =
            [] := by
          rw [List.filter_eq_nil_iff]
          intro k hk hall
          rw [Bool.and_eq_true, List.all_eq_true] at hall
          have hlt : n < k := by
            have := (List.mem_range'_1.mp hk).1
            omega
          have := hall.2 n (List.mem_range.mpr hlt)
          rw [positionGood_of_unerased herased, hgood] at this
          exact absurd this (by decide)
        rw [hread, hrest]
        rfl
      · have hread : positionsRead f (n :: List.range' (n + 1) m) = n :: positionsRead f (List.range' (n + 1) m) :=
          (if_neg (Bool.eq_false_iff.mp herased)).trans (if_neg hgood)
        have hbad : positionGood f n = false := (positionGood_of_unerased herased).trans (Bool.eq_false_iff.mpr hgood)
        rw [hread, ih (n + 1) (hnext hbad)]
        rfl

/-- The pages that the load reads of block 2. -/
def loadPages (f : Flash) : List Nat :=
  ((List.range 32).filter fun k => !positionErased f k && (List.range k).all fun j => !positionGood f j).flatMap fun k =>
    [256 + 4 * k, 257 + 4 * k, 258 + 4 * k, 259 + 4 * k]

theorem positionPageList_eq (k : Nat) : positionPageList k = [256 + 4 * k, 257 + 4 * k, 258 + 4 * k, 259 + 4 * k] := by
  have h : positionPageList k = [256 + 4 * k + 0, 256 + 4 * k + 1, 256 + 4 * k + 2, 256 + 4 * k + 3] := rfl
  rw [h, Nat.add_right_comm 256 _ 1, Nat.add_right_comm 256 _ 2, Nat.add_right_comm 256 _ 3]
  rfl

theorem pagesRead_range (f : Flash) : pagesRead f (List.range 32) = loadPages f := by
  rw [pagesRead, loadPages, List.range_eq_range', positionsRead_range f 32 0 (fun j hj => absurd hj (Nat.not_lt_zero j)),
    ← List.range_eq_range', funext positionPageList_eq]

/-! ## The load (R176) -/

theorem find?_range_eq_some {f : Nat → Bool} {k : Nat} (hk : k < 32) (h : f k = true) (hfirst : ∀ j : Nat, j < k → f j = false) :
    (List.range 32).find? f = some k := by
  rw [List.find?_range_eq_some]
  refine ⟨h, List.mem_range.mpr hk, fun j hj => ?_⟩
  rw [hfirst j hj]
  rfl

theorem find?_range_eq_none {f : Nat → Bool} (h : ∀ k : Nat, k < 32 → f k = false) : (List.range 32).find? f = none := by
  rw [List.find?_range_eq_none]
  intro k hk
  rw [h k hk]
  rfl

/-- The pages of the load, taken. -/
def searched (s : State) : State := takePages .settings (loadPages s.flash) s

theorem searched_taken (s : State) : PagesTaken s (searched s) := pagesTaken_takePages (by decide) _ s

theorem loadSettings_eq (s : State) : loadSettings s = ((List.range 32).find? (positionGood s.flash)).elim
    (settingsLost (searched s)) fun k => adoptImage (positionBytes s.flash k) (searched s) := by
  rw [loadSettings, loadFrom_eq, pagesRead_range]
  rfl

/-- What a load leaves of a state. -/
structure SettingsLoaded (s l : State) : Prop where
  shape : l = { s with ring := l.ring, integ := l.integ, link := l.link, settings := l.settings, plan := l.plan }
  integ : l.integ = { s.integ with
    error := l.integ.error
    overflow := l.integ.overflow
    corrected := l.integ.corrected
    poisoned := l.integ.poisoned }
  link : l.link = { s.link with ports := l.link.ports }
  port : ∀ p, l.port p = { s.port p with notices := (l.port p).notices }
  bit : ∀ p i, i ≠ 3 → i ≠ 6 → (l.port p).notices.getLsbD i = (s.port p).notices.getLsbD i
  error : (∀ p, (s.port p).notices.getLsbD 3 = s.integ.error.isSome) → ∀ p, (l.port p).notices.getLsbD 3 = l.integ.error.isSome
  pin : l.ring.pin = s.ring.pin

theorem settingsLoaded_given {s t : State} (h : PagesTaken s t) (g : Settings) (q : Plan) :
    SettingsLoaded s { t with settings := g, plan := q } where
  shape := congrArg (fun x : State => { x with settings := g, plan := q }) h.shape
  integ := h.integ
  link := h.link
  port := h.port
  bit p i hi _ := h.bit p i hi
  error := h.error
  pin := h.pin

theorem settingsLoaded_adopt {s t : State} (h : PagesTaken s t) (bs : List Byte) : SettingsLoaded s (adoptImage bs t) :=
  settingsLoaded_given h _ _

/-- SETTINGS_LOST is posted with its cause and noticed. -/
def tellLost (cause : Nat) (s : State) : State := raise .settingsLost (post .store evSettingsLost [cause] s)

/-- Why no settings were found: 1 where every page of block 2 reads erased. -/
def lostCause (f : Flash) : Nat := if (blockPageList settingsBlock).all (pageErased f) then 1 else 0

theorem settingsLost_eq (s : State) : settingsLost s = tellLost (lostCause s.flash) s := rfl

theorem port_tellLost (cause : Nat) (p : PortId) (s : State) :
    (tellLost cause s).port p = { s.port p with notices := setBit (s.port p).notices 6 true } := port_raise _ _ _

theorem settingsLoaded_lost {s t : State} (h : PagesTaken s t) (cause : Nat) : SettingsLoaded s (tellLost cause t) where
  shape := congrArg (fun x : State => { x with
    ring := (tellLost cause t).ring
    link := (tellLost cause t).link
    settings := t.settings
    plan := t.plan }) h.shape
  integ := h.integ
  link := congrArg (fun x : Link => { x with ports := (tellLost cause t).link.ports }) h.link
  port p := by
    rw [port_tellLost]
    exact congrArg (fun x : Port => { x with notices := setBit (t.port p).notices 6 true }) (h.port p)
  bit p i hi hlost := by
    rw [port_tellLost]
    exact ((getLsbD_setBit _ _ _ _ (by decide)).trans (if_neg hlost)).trans (h.bit p i hi)
  error hs p := by
    rw [port_tellLost]
    exact ((getLsbD_setBit _ _ _ _ (by decide)).trans (if_neg (by decide))).trans (h.error hs p)
  pin := (pin_post _ _ _ _ _).trans h.pin

theorem loadSettings_loaded (s : State) : SettingsLoaded s (loadSettings s) := by
  rw [loadSettings_eq]
  cases (List.range 32).find? (positionGood s.flash) with
  | some k => exact settingsLoaded_adopt (searched_taken s) _
  | none => exact settingsLoaded_lost (searched_taken s) _

theorem loadSettings_good {s : State} {k : Nat} (hk : k < 32) (h : positionGood s.flash k = true)
    (hfirst : ∀ j : Nat, j < k → positionGood s.flash j = false) :
    loadSettings s = adoptImage (positionBytes s.flash k) (searched s) := by
  rw [loadSettings_eq, find?_range_eq_some hk h hfirst, Option.elim_some]

theorem loadSettings_bad {s : State} (h : ∀ k : Nat, k < 32 → positionGood s.flash k = false) :
    loadSettings s = settingsLost (searched s) := by
  rw [loadSettings_eq, find?_range_eq_none h, Option.elim_none]

/-- The ring with the events of the pages that the load reads from flash `f`. -/
def searchEvents (time : PartTime) (f : Flash) (r : Ring) : Ring :=
  (loadPages f).foldl (fun r p => pageEvents time .settings p (readPhys f p) r) r

/-- The ring with SETTINGS_LOST. -/
def lostEvent (time : PartTime) (f : Flash) (r : Ring) : Ring :=
  r.post time .store 0x1F [if (List.range 128).all fun i => pageErased f (256 + i) then 1 else 0]

theorem ring_searched (s : State) : (searched s).ring = searchEvents s.time s.flash s.ring :=
  ring_takePages (by decide) (loadPages s.flash) s

theorem ofNat_lostCause (f : Flash) :
    BitVec.ofNat 32 (lostCause f) = if (List.range 128).all fun i => pageErased f (256 + i) then 1 else 0 := by
  have hpages : (blockPageList settingsBlock).all (pageErased f) = (List.range 128).all fun i => pageErased f (256 + i) := by
    rw [blockPageList, List.all_map]
    rfl
  rw [lostCause, hpages]
  split <;> rfl

theorem ring_tellLost (cause : Nat) (s : State) :
    (tellLost cause s).ring = s.ring.post s.time .store 0x1F [BitVec.ofNat 32 cause] := rfl

theorem ring_adoptImage (bs : List Byte) (s : State) : (adoptImage bs s).ring = s.ring := by
  rw [adoptImage]

theorem ring_loadSettings (s : State) : (loadSettings s).ring =
    if (List.range 32).any (positionGood s.flash) then searchEvents s.time s.flash s.ring
    else lostEvent s.time s.flash (searchEvents s.time s.flash s.ring) := by
  have htaken := searched_taken s
  rw [loadSettings_eq]
  cases hfind : (List.range 32).find? (positionGood s.flash) with
  | some k =>
    have hany : (List.range 32).any (positionGood s.flash) = true :=
      List.any_eq_true.mpr ⟨k, List.mem_of_find?_eq_some hfind, List.find?_some hfind⟩
    rw [if_pos hany, Option.elim_some, ring_adoptImage, ring_searched]
  | none =>
    have hnone : ¬ (List.range 32).any (positionGood s.flash) = true := fun hany => by
      obtain ⟨k, hk, hgood⟩ := List.any_eq_true.mp hany
      exact List.find?_eq_none.mp hfind k hk hgood
    rw [if_neg hnone, Option.elim_none, settingsLost_eq, ring_tellLost, ring_searched, htaken.time, htaken.flash, ofNat_lostCause,
      lostEvent]

theorem settings_loadSettings_good {s : State} {k : Nat} (hk : k < 32) (h : positionGood s.flash k = true)
    (hfirst : ∀ j : Nat, j < k → positionGood s.flash j = false) :
    (loadSettings s).settings = imageSettings (positionBytes s.flash k) ∧
      (loadSettings s).plan = imagePlan (positionBytes s.flash k) ∧
      ∀ p, ((loadSettings s).port p).notices.getLsbD 6 = (s.port p).notices.getLsbD 6 := by
  have hport (p : PortId) : (adoptImage (positionBytes s.flash k) (searched s)).port p = (searched s).port p := by
    rw [adoptImage, State.port, State.port]
  rw [loadSettings_good hk h hfirst]
  refine ⟨by rw [adoptImage], by rw [adoptImage], fun p => ?_⟩
  rw [hport, (searched_taken s).bit p 6 (by decide)]

theorem settings_loadSettings_bad {s : State} (h : ∀ k : Nat, k < 32 → positionGood s.flash k = false) :
    (loadSettings s).settings = s.settings ∧ (loadSettings s).plan = s.plan ∧
      ∀ p, ((loadSettings s).port p).notices.getLsbD 6 = true := by
  have hshape := (searched_taken s).shape
  rw [loadSettings_bad h, settingsLost_eq]
  refine ⟨(congrArg State.settings hshape :), (congrArg State.plan hshape :), fun p => ?_⟩
  rw [port_tellLost]
  exact (getLsbD_setBit _ _ _ _ (by decide)).trans (if_pos rfl)

/-! ## The state that a start leaves -/

/-- A start, before the monitor looks at PFAIL. -/
def started (args : List Nat) (strap : Bool) (x : State) : State :=
  takeSettings (keepingBut takeWorking loadSettings (post .ring evRestarted args (resetBlocks strap x)))

theorem startUp_eq (args : List Nat) (vhold : Nat) (strap : Bool) (x : State) : startUp args vhold (resetBlocks strap x) =
    if x.pins.pfail then keeping (beginEpisode vhold) (started args strap x) else started args strap x := rfl

/-- What the load starts from. -/
def unloaded (args : List Nat) (strap : Bool) (x : State) : State := post .ring evRestarted args (resetBlocks strap x)

theorem port_unloaded (args : List Nat) (strap : Bool) (x : State) (p : PortId) :
    (unloaded args strap x).port p = Port.initial (Settings.initial.lineRate[portIndex p]) := by
  change (Vector.ofFn fun i : Fin 3 => Port.initial Settings.initial.lineRate[i])[portIndex p] = _
  rw [Fin.getElem_fin, Vector.getElem_ofFn]

theorem notices_unloaded (args : List Nat) (strap : Bool) (x : State) (p : PortId) :
    ((unloaded args strap x).port p).notices = 0x80 := by
  rw [port_unloaded, Port.initial]

theorem port_takeSettings (s : State) (p : PortId) :
    (takeSettings s).port p = { s.port p with rate := s.settings.lineRate[portIndex p] } := by
  change (Vector.ofFn fun i : Fin 3 => { s.link.ports[i] with rate := s.settings.lineRate[i] })[portIndex p] = _
  rw [Fin.getElem_fin, Vector.getElem_ofFn, State.port]

theorem port_started (args : List Nat) (strap : Bool) (x : State) (p : PortId) : (started args strap x).port p =
    { (loadSettings (unloaded args strap x)).port p with
      rate := (loadSettings (unloaded args strap x)).settings.lineRate[portIndex p] } :=
  port_takeSettings (keepingBut takeWorking loadSettings (unloaded args strap x)) p

/-- A state as a start leaves it, with pins `levels` and strap `strap`. -/
structure FreshStart (levels : Pins) (strap : Bool) (u : State) : Prop where
  ready : u.ready = false
  pins : u.pins = levels
  trig : u.trig = TrigUnit.start levels.raw u.settings
  streams : u.streams = Vector.ofFn fun i => StreamChan.start
    (rxEnabled (u.settings.stream[i]).enabled (levels.sync.getLsbD i.val)) none
  fetches : u.fetches = Vector.ofFn fun i => FetchChan.start (u.settings.fetch[i]).enabled
  engine : u.engine = Engine.initial
  monitor : u.monitor = Monitor.initial
  store : u.store = StoreCtl.initial
  dir : u.dir = Directory.initial
  integ : u.integ = { Integrity.initial with
    error := u.integ.error
    overflow := u.integ.overflow
    corrected := u.integ.corrected
    poisoned := u.integ.poisoned }
  link : u.link = { (Link.start Settings.initial strap) with ports := u.link.ports }
  port : ∀ p, u.port p = { Port.initial (u.settings.lineRate[portIndex p]) with notices := (u.port p).notices }
  restarted : ∀ p, (u.port p).notices.getLsbD 7 = true
  captured : ∀ p, (u.port p).notices.getLsbD 3 = u.integ.error.isSome
  silent : ∀ p, ∀ i ∈ [0, 1, 2, 4, 5], (u.port p).notices.getLsbD i = false

theorem started_fresh (args : List Nat) (strap : Bool) (x : State) : FreshStart x.pins strap (started args strap x) := by
  have hload := loadSettings_loaded (unloaded args strap x)
  have hshape := hload.shape
  refine ⟨rfl, rfl, rfl, rfl, rfl, ?_, ?_, ?_, ?_, hload.integ, ?_, fun p => ?_, fun p => ?_, fun p => ?_, fun p i hi => ?_⟩
  · exact (congrArg State.engine hshape :)
  · exact (congrArg State.monitor hshape :)
  · exact (congrArg State.store hshape :)
  · exact (congrArg State.dir hshape :)
  · exact congrArg (fun l : Link => { l with ports := (started args strap x).link.ports }) hload.link
  · rw [port_started, hload.port, port_unloaded]
    rfl
  · rw [port_started, hload.bit p 7 (by decide) (by decide), notices_unloaded]
    decide
  · refine (congrArg (fun q : Port => q.notices.getLsbD 3) (port_started args strap x p)).trans (hload.error (fun q => ?_) p)
    rw [notices_unloaded]
    rfl
  · have hne : i ≠ 3 ∧ i ≠ 6 := by
      revert i
      decide
    rw [port_started, hload.bit p i hne.1 hne.2, notices_unloaded]
    revert i
    decide

theorem notices_started (args : List Nat) (strap : Bool) (x : State) (p : PortId) :
    ((started args strap x).port p).notices = ((loadSettings (unloaded args strap x)).port p).notices := by
  rw [port_started]

/-- The working settings and plan, and whether SETTINGS_LOST is noticed. -/
theorem started_good {f : Flash} {k : Nat} (args : List Nat) (strap : Bool) {x : State} (hx : x.flash = f) (hk : k < 32)
    (h : positionGood f k = true) (hfirst : ∀ j : Nat, j < k → positionGood f j = false) :
    (started args strap x).settings = imageSettings (positionBytes f k) ∧ (started args strap x).plan = imagePlan (positionBytes f k) ∧
      ∀ p, ((started args strap x).port p).notices.getLsbD 6 = false := by
  subst hx
  obtain ⟨hsettings, hplan, hbit⟩ := settings_loadSettings_good (s := unloaded args strap x) hk h hfirst
  refine ⟨hsettings, hplan, fun p => ?_⟩
  rw [notices_started, hbit, notices_unloaded]
  decide

theorem started_bad {f : Flash} (args : List Nat) (strap : Bool) {x : State} (hx : x.flash = f)
    (h : ∀ k : Nat, k < 32 → positionGood f k = false) :
    (started args strap x).settings = Settings.initial ∧ (started args strap x).plan = Plan.initial ∧
      ∀ p, ((started args strap x).port p).notices.getLsbD 6 = true := by
  subst hx
  obtain ⟨hsettings, hplan, hbit⟩ := settings_loadSettings_bad (s := unloaded args strap x) h
  refine ⟨hsettings, hplan, fun p => ?_⟩
  rw [notices_started, hbit]

theorem ring_started (args : List Nat) (strap : Bool) (x : State) : (started args strap x).ring =
    if (List.range 32).any (positionGood x.flash) then
      searchEvents x.time x.flash (x.ring.post x.time .ring 0x20 (args.map fun n => BitVec.ofNat 32 n))
    else lostEvent x.time x.flash (searchEvents x.time x.flash
      (x.ring.post x.time .ring 0x20 (args.map fun n => BitVec.ofNat 32 n))) :=
  ring_loadSettings (unloaded args strap x)

theorem pin_started (args : List Nat) (strap : Bool) (x : State) : (started args strap x).ring.pin = x.ring.pin :=
  (loadSettings_loaded (unloaded args strap x)).pin.trans (pin_post _ _ _ _ _)

theorem svcStrap_started (args : List Nat) (strap : Bool) (x : State) : (started args strap x).link.svcStrap = strap :=
  congrArg Link.svcStrap (started_fresh args strap x).link

/-! ## O41 -/

/-- What power-on resets before the load. -/
def poweredFresh (worn : List StoreFault) (s : State) : State :=
  { resetClock ((powerLost [] s).onFlash (wearFlash worn)) with powered := true }

theorem pins_powerLost (torn : List BlockFault) (s : State) : (powerLost torn s).pins = s.pins := by
  unfold powerLost
  split <;> rfl

theorem powerLost_of_off {torn : List BlockFault} {s : State} (h : s.powered = false) : powerLost torn s = s :=
  if_pos (by rw [h]; rfl)

theorem poweredOn_eq (vhold : Nat) (worn : List StoreFault) (s : State) : poweredOn vhold worn s =
    if s.pins.pfail then keeping (beginEpisode vhold) (started [0] false (poweredFresh worn s))
    else started [0] false (poweredFresh worn s) := by
  rw [← pins_powerLost [] s]
  exact startUp_eq [0] vhold false (poweredFresh worn s)

theorem poweredOn_of_released (vhold : Nat) (worn : List StoreFault) {s : State} (h : s.pins.pfail = false) :
    poweredOn vhold worn s = started [0] false (poweredFresh worn s) := by
  rw [poweredOn_eq, h]
  rfl

/-- Power comes on in a part with an erased store and inputs at rest. -/
theorem poweredOn_erased : poweredOn 0 [] { State.reset with powered := false } = State.reset := by decide +kernel

theorem restarted_eq {vhold : Nat} {r : RestartOp} {s : State} (hp : s.powered = true) (hr : s.link.restart = some r)
    (hsent : r.sent = true) (hf : s.store.flight = none) : restarted vhold s =
    if s.pins.pfail then
      keeping (beginEpisode vhold) (started [1, (portIndex r.port).val, boolNat r.force] s.link.svcStrap (releasePin s))
    else started [1, (portIndex r.port).val, boolNat r.force] s.link.svcStrap (releasePin s) := by
  rw [restarted, hr, hf]
  refine (if_pos (by rw [hp, hsent]; rfl)).trans ?_
  exact startUp_eq [1, (portIndex r.port).val, boolNat r.force] vhold s.link.svcStrap (releasePin s)

theorem restarted_of_none {vhold : Nat} {s : State} (h : s.link.restart = none ∨ s.store.flight ≠ none) : restarted vhold s = s := by
  rw [restarted]
  split
  · next r hr hf => exact (h.elim (fun hnone => absurd (hr.symm.trans hnone) (Option.some_ne_none r)) fun hsome => absurd hf hsome)
  · rfl

theorem restarted_of_unsent {vhold : Nat} {r : RestartOp} {s : State} (hr : s.link.restart = some r) (h : r.sent = false) :
    restarted vhold s = s := by
  rw [restarted, hr]
  split
  · next r' hr' _ =>
    cases hr'
    rw [h, Bool.and_false]
    rfl
  · rfl

/-- Settles O41: the load, its events, and the reset values of each block. -/
theorem startUpTakesTheResetValues : Obligations.StartUpTakesTheResetValues := by
  intro vhold worn s fresh loaded told
  have hloaded (args : List Nat) (strap : Bool) (x : State) : loaded (started args strap x) :=
    ⟨fun k hk h hfirst => started_good args strap rfl hk h hfirst, fun h => started_bad args strap rfl h⟩
  have hfresh (args : List Nat) (strap : Bool) (x : State) (hx : x.pins = s.pins) : fresh (started args strap x) := by
    have h := started_fresh args strap x
    rw [hx] at h
    exact ⟨h.ready, h.pins, h.trig, h.streams, h.fetches, h.engine, h.monitor, h.store, h.dir, h.integ,
      (congrArg Link.restart h.link :), (congrArg Link.store h.link :),
      fun p => ⟨h.port p, h.restarted p, h.captured p, h.silent p⟩⟩
  have htold (args : List Nat) (strap : Bool) (x : State) :
      told (started args strap x) (x.ring.post x.time .ring 0x20 (args.map fun n => BitVec.ofNat 32 n)) :=
    ring_started args strap x
  refine ⟨?_, fun r hp hr hsent hf => ?_, fun h => ?_, fun r hr hsent => ?_, ?_⟩
  · refine ⟨started [0] false (poweredFresh worn s), hfresh _ _ _ (pins_powerLost [] s), hloaded _ _ _, htold _ _ _, rfl, rfl, rfl,
      rfl, svcStrap_started _ _ _, pin_started _ _ _, fun hoff => ?_, congrArg Host.Outcome.next (poweredOn_eq vhold worn s)⟩
    change wearFlash worn (powerLost [] s).flash = _
    rw [powerLost_of_off hoff]
  · refine ⟨started [1, (portIndex r.port).val, boolNat r.force] s.link.svcStrap (releasePin s), hfresh _ _ _ rfl, hloaded _ _ _,
      ?_, hp, rfl, rfl, rfl, svcStrap_started _ _ _, pin_started _ _ _, rfl,
      congrArg Host.Outcome.next (restarted_eq hp hr hsent hf)⟩
    have hargs : [1, (portIndex r.port).val, boolNat r.force].map (fun n => BitVec.ofNat 32 n) =
        [1, BitVec.ofNat 32 (portIndex r.port).val, if r.force then 1 else 0] := by
      cases r.force <;> rfl
    have h := htold [1, (portIndex r.port).val, boolNat r.force] s.link.svcStrap (releasePin s)
    rw [hargs] at h
    exact h
  · exact congrArg Host.Outcome.next (restarted_of_none h)
  · exact congrArg Host.Outcome.next (restarted_of_unsent hr hsent)
  · exact congrArg Host.Outcome.next ((poweredOn_of_released vhold [] rfl).trans
      ((poweredOn_of_released 0 [] rfl).symm.trans poweredOn_erased))

end Sys2Proof.Machine
end

