-- ==== Sys2Proof/Proofs/ReplaysAndFormats.lean ====
section
/-! PROOFS. Sys2Proof/Proofs/ReplaysAndFormats.lean: REPLAY_END and the format of an empty journal (R5, R134, R142, R144). -/

namespace Sys2Proof.Machine

/-! ## REPLAY_END (R144) -/

theorem keepingBut_congr {take : State → State → State} {f g : State → State} {s : State} (h : f s = g s) :
    keepingBut take f s = keepingBut take g s := by
  simp only [keepingBut, keeping, h]

theorem exec_replayEnd {s : State} (hp : s.powered = true) : exec .replayEnd s = .next (keepingBut takeReady replayEnded s) :=
  congrArg Host.Outcome.next (if_pos hp)

theorem exec_replayEnd_of_eq {f : State → State} {s : State} (hp : s.powered = true) (h : replayEnded s = f s) :
    exec .replayEnd s = .next (keepingBut takeReady f s) :=
  (exec_replayEnd hp).trans (congrArg Host.Outcome.next (keepingBut_congr h))

theorem replayEnded_of_ready {s : State} (h : s.ready = true) : replayEnded s = s := if_pos h

theorem replayEnded_of_formatted {s : State} (h : s.ready = false) (hf : formatted s = true) : replayEnded s = endReplay s :=
  (if_neg (Bool.eq_false_iff.mp h)).trans (if_pos hf)

theorem replayEnded_of_starting {s : State} (h : s.ready = false) (hf : formatted s = false) : replayEnded s =
    (chosenBlock s.flash).elim s fun x => endReplay (replayBlock x.1 x.2 s) := by
  refine ((if_neg (Bool.eq_false_iff.mp h)).trans (if_neg (Bool.eq_false_iff.mp hf))).trans ?_
  cases chosenBlock s.flash <;> rfl

theorem ready_of_frame {s t : State} (h : frameOf s = frameOf t) : s.ready = t.ready :=
  (congrArg (fun x => x.2.2.1) h :)

/-- A POWER trigger that waited for the end of replay is taken (R78). -/
def takePendingPower (s : State) : State :=
  if s.engine.pendingPower then trigger sourcePower .monitor (s.onEngine fun e => { e with pendingPower := false }) else s

theorem frameOf_takePendingPower (s : State) : frameOf (takePendingPower s) = frameOf s := by
  unfold takePendingPower
  split
  · exact frameOf_trigger _ _ _
  · rfl

/-- Every ARMED term is evaluated, and then a pending POWER trigger is taken. -/
def afterReplay (s : State) : State := takePendingPower (forEach allLines evaluate s)

theorem ready_afterReplay (s : State) : (settle (afterReplay s)).ready = s.ready :=
  ready_of_frame ((frameOf_settle _).trans ((frameOf_takePendingPower _).trans (frameOf_forEach allLines evaluate frameOf_evaluate s)))

/-- The part is READY with its blocks rebuilt. -/
def becomeReady (s : State) : State := { scanPool (rebuildBlocks s) with ready := true }

theorem endReplay_eq (s : State) : endReplay s = settle (afterReplay (becomeReady s)) := by
  unfold endReplay afterReplay takePendingPower becomeReady
  dsimp only

theorem ready_endReplay (s : State) : (endReplay s).ready = true := by
  rw [endReplay_eq, ready_afterReplay, becomeReady]

/-! ## The format of an empty journal (R142) -/

theorem whenPoweredBut_takeFlash_of_frame {f : State → State} {s : State} (hp : s.powered = true)
    (h : frameOf { f s with flash := s.flash } = frameOf s) : whenPoweredBut takeFlash f s = f s := by
  simp only [frameOf, Prod.mk.injEq] at h
  obtain ⟨hpending, hpowered, hready, htime, hepoch, hvalid, hpins, hsettings, hplan, -⟩ := h
  rw [whenPoweredBut, if_pos hp]
  simp only [keepingBut, keeping, takeFlash, ← hpending, ← hpowered, ← hready, ← htime, ← hepoch, ← hvalid, ← hpins, ← hsettings,
    ← hplan]

theorem searchReads_eq (block : Nat) (s : State) : searchReads block s = takePages .replay (writtenPages s.flash block) s := rfl

theorem searchReads_taken (block : Nat) (s : State) : PagesTaken s (searchReads block s) := pagesTaken_takePages (by decide) _ s

theorem pageErased_clearPages {first count p : Nat} (f : Flash) (h : first ≤ p ∧ p < first + count) :
    pageErased (clearPages first count f) p = true := by
  have hnone (m : List Host.Cell) (base n lo hi : Nat) (hlo : base ≤ lo) (hhi : hi ≤ base + n) :
      cellsIn (clearRange m base n) lo hi = [] := by
    rw [cellsIn, clearRange, List.filter_filter, List.filter_eq_nil_iff]
    intro c _ hc
    rw [Bool.and_eq_true, Bool.and_eq_true, Bool.or_eq_true, decide_eq_true_eq, decide_eq_true_eq, decide_eq_true_eq,
      decide_eq_true_eq] at hc
    omega
  rw [pageErased, pageBytes, pageWords]
  rw [clearPages, hnone _ _ _ _ _ (by omega) (by omega), hnone _ _ _ _ _ (by omega) (by omega)]
  rfl

theorem unerasedPages_erased (retired : List Nat) (b : Nat) (f : Flash) : unerasedPages retired b (eraseBlock b [] f) = [] := by
  rw [unerasedPages, List.filter_eq_nil_iff, eraseBlock_nil]
  intro p hp
  obtain ⟨i, hi, rfl⟩ := List.mem_map.mp hp
  have hi := List.mem_range.mp hi
  rw [pageErased_clearPages f (by rw [blockPages] at *; omega)]
  simp

theorem eraseInFormat_clean (b : Nat) (s : State) : eraseInFormat b [] s = s.onFlash (eraseBlock b []) := by
  have h : unerasedPages (s.onFlash (eraseBlock b [])).store.retPages b (s.onFlash (eraseBlock b [])).flash = [] :=
    unerasedPages_erased _ b s.flash
  unfold eraseInFormat
  dsimp only
  rw [h]

/-- The words of the checkpoint's page. -/
theorem formatContent_words : ∀ i : Nat, i < 64 → (wordsOf 64 formatContent).getD i 0 =
    if i < 8 then (wordsOf 64 (slotBytes 0 (.checkpointBegin 1 0) ++ slotBytes 1 (.checkpointEnd 1 0))).getD i 0
    else BitVec.allOnes 64 := by
  decide +kernel

theorem programWord_erased (new : BitVec 64) : programWord Stored.erased new = { data := new, diff := 0 } := by
  unfold programWord
  split
  · next h => rw [h]; rfl
  · rw [Stored.erased, erasedWord, BitVec.allOnes_and]

/-- A program into erased words is read back. -/
theorem verifyFails_of_erased {p : Nat} {f : Flash} (content : List Byte) (hp : p < 8192)
    (h : ∀ i : Nat, i < 64 → cellWord f p i = Stored.erased) : verifyFails p content (programPage p content [] f) = none := by
  rw [verifyFails, List.findIdx?_eq_none_iff]
  rintro ⟨w, new⟩ hmem
  obtain ⟨i, hi⟩ := List.mem_iff_getElem?.mp hmem
  rw [List.getElem?_zip_eq_some] at hi
  obtain ⟨hw, hnew⟩ := hi
  have hlt : i < 64 := by
    have := (List.getElem?_eq_some_iff.mp hw).1
    rwa [storedPage_length] at this
  rw [storedPage_get _ _ hlt, cellWord_programPage p content f hp hlt, h i hlt, programWord_erased] at hw
  have hnew : new = (wordsOf 64 content).getD i 0 := (Option.some.inj ((wordsOf_get content hlt).symm.trans hnew)).symm
  have hw : w = { data := new, diff := 0 } := by rw [hnew]; exact (Option.some.inj hw).symm
  have hclean : classify w = { data := new, cls := .clean } := by rw [hw, classify_clean rfl]
  dsimp only
  rw [hclean, decide_eq_true rfl, Bool.not_true, Bool.and_false]

/-- The store after the format of blocks 0 and 1. -/
def formattedFlash (f : Flash) : Flash := programPage 0 formatContent [] (clearPages 128 128 (clearPages 0 128 f))

theorem blankAfterErases (f : Flash) {i : Nat} (hi : i < 64) :
    cellWord (clearPages 128 128 (clearPages 0 128 f)) 0 i = Stored.erased := by
  rw [(clearPages_leaves 128 128 (clearPages 0 128 f)).cellWord (.inl (by decide)) hi, cellWord_clearPages f (by decide) hi]

theorem cellWord_formattedFlash (f : Flash) {i : Nat} (hi : i < 64) : cellWord (formattedFlash f) 0 i =
    if i < 8 then
      { data := (wordsOf 64 (slotBytes 0 (.checkpointBegin 1 0) ++ slotBytes 1 (.checkpointEnd 1 0))).getD i 0, diff := 0 }
    else Stored.erased := by
  rw [formattedFlash, cellWord_programPage 0 formatContent _ (by decide) hi, blankAfterErases f hi, programWord_erased,
    formatContent_words i hi]
  split <;> rfl

theorem readByte_formattedFlash (f : Flash) {a : Nat} (h : 512 ≤ a) :
    readByte (formattedFlash f) a = if a < 131072 then 0xFF else readByte f a := by
  rw [formattedFlash, (programPage_leaves 0 formatContent [] _).byte a (by omega)]
  split
  · by_cases ha : a < 65536
    · rw [(clearPages_leaves 128 128 _).byte a (by omega), readByte_clearPages f (by omega)]
    · rw [readByte_clearPages _ (by omega)]
  · rw [(clearPages_leaves 128 128 _).byte a (by omega), (clearPages_leaves 0 128 f).byte a (by omega)]

theorem readCheck_formattedFlash (f : Flash) {w : Nat} (h : 16384 ≤ w) : readCheck (formattedFlash f) w = readCheck f w := by
  rw [formattedFlash, (programPage_leaves 0 formatContent [] _).check w (by omega), (clearPages_leaves 128 128 _).check w (by omega),
    (clearPages_leaves 0 128 f).check w (by omega)]

/-- What the format starts from: the search's reads taken, and the retirement tables empty. -/
def formatStart (s : State) : State :=
  (searchReads 1 (searchReads 0 s)).onStore fun t => { t with retPages := [], retBlocks := [], unjournaled := [] }

theorem formatStart_taken (s : State) : PagesTaken s (searchReads 1 (searchReads 0 s)) :=
  (searchReads_taken 0 s).trans (searchReads_taken 1 _)

theorem formatPages_clean {page : Nat} {pages : List Nat} {s : State} (hret : s.store.retPages.contains page = false)
    (h : verifyFails page formatContent (programPage page formatContent [] s.flash) = none) :
    formatPages (page :: pages) [] s = formatDone page (s.onFlash (programPage page formatContent [])) := by
  rw [formatPages, if_neg (Bool.eq_false_iff.mp hret)]
  dsimp only [List.headD_nil]
  rw [onFlash_flash, h]

theorem journalFormatted_clean {s : State} (hready : s.ready = false) (hf : formatted s = false) (hc : chosenBlock s.flash = none)
    (hm : s.monitor.state = .normal) :
    journalFormatted [] [] [] s = settle (formatDone 0 ((formatStart s).onFlash formattedFlash)) := by
  have hcond : ¬ (s.ready || formatted s || (chosenBlock s.flash).isSome || !isNormal s) = true := by
    rw [hready, hf, hc, (isNormal_iff s).mpr hm]
    decide
  refine (if_neg hcond).trans (congrArg settle ?_)
  change formatPages (0 :: _) [] (eraseInFormat 1 [] (eraseInFormat 0 [] (formatStart s))) = _
  rw [eraseInFormat_clean, eraseInFormat_clean]
  have herase (f : Flash) : eraseBlock 1 [] (eraseBlock 0 [] f) = clearPages 128 128 (clearPages 0 128 f) := by
    rw [eraseBlock_nil, eraseBlock_nil]
  refine (formatPages_clean rfl ?_).trans ?_
  · rw [onFlash_flash, onFlash_flash, herase]
    exact verifyFails_of_erased _ (by decide) fun i hi => blankAfterErases _ hi
  · refine congrArg (formatDone 0) ?_
    rw [State.onFlash, State.onFlash, State.onFlash, State.onFlash]
    dsimp only
    rw [herase, formattedFlash]

/-- The part after a format: the state that settles. -/
def formatEnd (s : State) : State := formatDone 0 ((formatStart s).onFlash formattedFlash)

theorem beside_formatDone (g : Flash → Flash) (f : Flash) (t : State) :
    frameOf { settle (formatDone 0 (t.onFlash g)) with flash := f } = frameOf { t with flash := f } := rfl

theorem formatDone_leaves (g : Flash → Flash) (t : State) :
    (formatDone 0 (t.onFlash g)).flash = g t.flash ∧ (formatDone 0 (t.onFlash g)).ready = t.ready ∧
      (formatDone 0 (t.onFlash g)).store = t.store ∧
      (formatDone 0 (t.onFlash g)).ring = (post .directory 0x21 [1, 0] t).ring ∧
      (formatDone 0 (t.onFlash g)).dir = { Directory.initial with gen := 1, nextSlot := 2, nextSeq := 2 } :=
  ⟨rfl, rfl, rfl, rfl, rfl⟩

theorem beside_formatStart (f : Flash) (s : State) : frameOf { formatStart s with flash := f } = frameOf { s with flash := f } :=
  (congrArg (fun t : State => frameOf { t with flash := f }) (formatStart_taken s).shape :)

theorem exec_journalFormat_clean {s : State} (hp : s.powered = true) (hready : s.ready = false) (hf : formatted s = false)
    (hc : chosenBlock s.flash = none) (hm : s.monitor.state = .normal) :
    exec (.journalFormat [] [] []) s = .next (settle (formatEnd s)) := by
  have hdone : journalFormatted [] [] [] s = settle (formatEnd s) := journalFormatted_clean hready hf hc hm
  have hframe : frameOf { journalFormatted [] [] [] s with flash := s.flash } = frameOf s := by
    rw [hdone, formatEnd, beside_formatDone, beside_formatStart]
  exact congrArg Host.Outcome.next ((whenPoweredBut_takeFlash_of_frame hp hframe).trans hdone)

theorem flash_formatStart (s : State) : (formatStart s).flash = s.flash := (formatStart_taken s).flash

theorem ready_formatStart (s : State) : (formatStart s).ready = s.ready := (congrArg State.ready (formatStart_taken s).shape :)

theorem formatEnd_leaves (s : State) : (formatEnd s).flash = formattedFlash s.flash ∧ (formatEnd s).ready = s.ready ∧
    (formatEnd s).store.retPages = [] ∧ (formatEnd s).store.retBlocks = [] ∧
    (formatEnd s).ring = (post .directory 0x21 [1, 0] (searchReads 1 (searchReads 0 s))).ring ∧
    (formatEnd s).dir = { Directory.initial with gen := 1, nextSlot := 2, nextSeq := 2 } := by
  obtain ⟨hflash, hstarting, hstore, hring, hdir⟩ := formatDone_leaves formattedFlash (formatStart s)
  rw [flash_formatStart] at hflash
  rw [ready_formatStart] at hstarting
  rw [formatEnd, hflash, hstarting, hstore, hring, hdir]
  exact ⟨rfl, rfl, rfl, rfl, rfl, rfl⟩

/-- Settles O42: REPLAY_END by what it finds, and the format of an empty journal cell by cell. -/
theorem startUpReplaysOrFormatsTheJournal : Obligations.StartUpReplaysOrFormatsTheJournal := by
  refine ⟨fun s hp => ⟨fun hready => ?_, fun hready => ⟨fun hf => ?_, fun block c hf hc => ?_, fun hend => ?_, fun hf hc => ?_⟩⟩,
    fun s hp hready hf hc hm => ?_⟩
  · exact exec_replayEnd_of_eq (f := id) hp (replayEnded_of_ready hready)
  · exact exec_replayEnd_of_eq hp (replayEnded_of_formatted hready hf)
  · have hstart := replayEnded_of_starting hready hf
    rw [hc, Option.elim_some] at hstart
    exact exec_replayEnd_of_eq (f := fun u => endReplay (replayBlock block c u)) hp hstart
  · refine ⟨_, exec_replayEnd hp, ?_⟩
    change (replayEnded s).ready = true
    by_cases hf : formatted s = true
    · rw [replayEnded_of_formatted hready hf, ready_endReplay]
    · obtain ⟨x, hx⟩ := Option.ne_none_iff_exists'.mp (hend.resolve_left hf)
      rw [replayEnded_of_starting hready (Bool.eq_false_iff.mpr hf), hx, Option.elim_some, ready_endReplay]
  · have hstart := replayEnded_of_starting hready hf
    rw [hc, Option.elim_none] at hstart
    exact exec_replayEnd_of_eq (f := id) hp hstart
  · obtain ⟨hflash, hstarting, hpages, hblocks, hring, hdir⟩ := formatEnd_leaves s
    refine ⟨formatEnd s, exec_journalFormat_clean hp hready hf hc hm, hdir, hpages, hblocks, hring, hstarting.trans hready,
      fun i hi => ?_, fun a hlow hhigh => ?_, fun a ha => ?_, fun w hw => ?_⟩
    · rw [hflash, wordAt_eq _ _ hi, cellWord_formattedFlash _ hi]
    · rw [hflash, readByte_formattedFlash _ hlow, if_pos hhigh]
    · rw [hflash, readByte_formattedFlash _ (by omega), if_neg (Nat.not_lt.mpr ha)]
    · rw [hflash, readCheck_formattedFlash _ hw]

end Sys2Proof.Machine
end

