-- ==== Sys2Proof/Proofs/JournalSlots.lean ====
section
/-! PROOFS. Sys2Proof/Proofs/JournalSlots.lean: what replay reads of a journal block's slots (R143, R180). -/

namespace Sys2Proof.Machine

/-! ## Erased pages read as all ones -/

theorem cellGet_of_all {d : Byte} {m : List Host.Cell} {lo hi a : Nat} (h : (cellsIn m lo hi).all (fun c => c.2 = d) = true)
    (ha : lo ≤ a ∧ a < hi) : cellGet d m a = d := by
  induction m with
  | nil => rfl
  | cons c m ih =>
    rw [cellsIn, List.filter_cons] at h
    have hrest : (cellsIn m lo hi).all (fun c => c.2 = d) = true := by
      split at h
      · rw [List.all_cons, Bool.and_eq_true] at h
        exact h.2
      · exact h
    by_cases hc : c.1 = a
    · have hin : (decide (lo ≤ c.1) && decide (c.1 < hi)) = true := by
        rw [hc, decide_eq_true ha.1, decide_eq_true ha.2]
        rfl
      rw [if_pos hin, List.all_cons, Bool.and_eq_true] at h
      exact (if_pos hc).trans (of_decide_eq_true h.1)
    · exact (if_neg hc).trans (ih hrest)

theorem cellWord_of_pageErased {f : Flash} {p i : Nat} (h : pageErased f p = true) (hi : i < 64) : cellWord f p i = Stored.erased := by
  rw [pageErased, Bool.and_eq_true, pageBytes, pageWords] at h
  exact cellWord_erased (fun j hj => cellGet_of_all h.1 (by omega)) (cellGet_of_all h.2 (by omega))

theorem readPhys_of_pageErased {f : Flash} {p : Nat} (h : pageErased f p = true) {w : WordRead} (hw : w ∈ readPhys f p) :
    w = { data := erasedWord, cls := .clean } := by
  rw [readPhys, storedPage_eq, List.map_map] at hw
  obtain ⟨i, hi, rfl⟩ := List.mem_map.mp hw
  rw [Function.comp_apply, cellWord_of_pageErased h (List.mem_range.mp hi)]
  exact classify_clean rfl

theorem wordBytes_erased : ∀ b ∈ wordBytes erasedWord, b = 0xFF := by decide

/-! ## Slots (R143, R180) -/

theorem mem_slotWords {ws : List WordRead} {i : Nat} {w : WordRead} (h : w ∈ slotWords ws i) : w ∈ ws :=
  List.mem_of_mem_drop (List.mem_of_mem_take h)

theorem readsErased_iff (bs : List Byte) : readsErased bs = false ↔ ∃ b ∈ bs, b ≠ 0xFF := by
  rw [readsErased, List.all_eq_false]
  simp only [decide_eq_true_eq, ne_eq]

/-- A slot of an erased page reads erased. -/
theorem readsErased_of_pageErased {f : Flash} {p : Nat} (i : Nat) (h : pageErased f p = true) :
    readsErased (bytesOfWords (slotWords (readPhys f p) i)) = true := by
  rw [readsErased, List.all_eq_true]
  intro b hb
  obtain ⟨w, hw, hbw⟩ := List.mem_flatMap.mp hb
  rw [readPhys_of_pageErased h (mem_slotWords hw)] at hbw
  exact decide_eq_true (wordBytes_erased b hbw)

/-- A slot that does not read erased. -/
def slotRead (ws : List WordRead) (slot i : Nat) : SlotRead :=
  { slot := slot, bytes := bytesOfWords (slotWords ws i)
    good := slotGood (bytesOfWords (slotWords ws i)) && decide (countClass .poisoned (slotWords ws i) = 0) }

theorem readSlot_eq_some_iff (ws : List WordRead) (slot i : Nat) (x : SlotRead) : readSlot ws slot i = some x ↔
    readsErased (bytesOfWords (slotWords ws i)) = false ∧ x = slotRead ws slot i := by
  rw [readSlot]
  by_cases h : readsErased (bytesOfWords (slotWords ws i)) = true
  · rw [if_pos h, h]
    simp
  · rw [if_neg h, Bool.eq_false_iff.mpr h]
    refine ⟨fun hx => ⟨rfl, (Option.some.inj hx).symm⟩, fun hx => ?_⟩
    rw [hx.2, slotRead]

theorem mem_pageSlots (ws : List WordRead) (j : Nat) (x : SlotRead) : x ∈ pageSlots ws j ↔
    ∃ i : Nat, i < 16 ∧ readsErased (bytesOfWords (slotWords ws i)) = false ∧ x = slotRead ws (16 * j + i) i := by
  rw [pageSlots, List.mem_filterMap]
  refine exists_congr fun i => ?_
  rw [readSlot_eq_some_iff, List.mem_range]
  rfl

theorem mem_writtenPages (f : Flash) (block p : Nat) :
    p ∈ writtenPages f block ↔ ∃ j : Nat, j < 128 ∧ p = 128 * block + j ∧ pageErased f p = false := by
  rw [writtenPages, List.mem_filter, blockPageList, List.mem_map, Bool.not_eq_true']
  constructor
  · rintro ⟨⟨j, hj, rfl⟩, he⟩
    exact ⟨j, List.mem_range.mp hj, rfl, he⟩
  · rintro ⟨j, hj, rfl, he⟩
    exact ⟨⟨j, List.mem_range.mpr hj, rfl⟩, he⟩

theorem mod_blockPages {block j : Nat} (h : j < 128) : (128 * block + j) % blockPages = j := by
  rw [blockPages]
  omega

theorem mem_blockSlots (f : Flash) (block : Nat) (x : SlotRead) : x ∈ blockSlots f block ↔
    ∃ j i : Nat, j < 128 ∧ i < 16 ∧ readsErased (bytesOfWords (slotWords (readPhys f (128 * block + j)) i)) = false ∧
      x = slotRead (readPhys f (128 * block + j)) (16 * j + i) i := by
  rw [blockSlots, List.mem_flatMap]
  constructor
  · rintro ⟨p, hp, hx⟩
    obtain ⟨j, hj, rfl, he⟩ := (mem_writtenPages f block p).mp hp
    rw [mod_blockPages hj] at hx
    obtain ⟨i, hi, hread, rfl⟩ := (mem_pageSlots _ _ _).mp hx
    exact ⟨j, i, hj, hi, hread, rfl⟩
  · rintro ⟨j, i, hj, hi, hread, rfl⟩
    refine ⟨128 * block + j, (mem_writtenPages f block _).mpr ⟨j, hj, rfl, ?_⟩, ?_⟩
    · rw [Bool.eq_false_iff]
      intro he
      rw [readsErased_of_pageErased i he] at hread
      exact absurd hread (by decide)
    · rw [mod_blockPages hj]
      exact (mem_pageSlots _ _ _).mpr ⟨i, hi, hread, rfl⟩

theorem pageSlots_pairwise (ws : List WordRead) (j : Nat) : (pageSlots ws j).Pairwise fun x y => x.slot < y.slot := by
  rw [pageSlots]
  refine List.Pairwise.filterMap _ ?_ List.pairwise_lt_range
  intro a b hab x hx y hy
  rw [((readSlot_eq_some_iff _ _ _ _).mp hx).2, ((readSlot_eq_some_iff _ _ _ _).mp hy).2]
  exact Nat.add_lt_add_left hab _

theorem blockSlots_pairwise (f : Flash) (block : Nat) : (blockSlots f block).Pairwise fun x y => x.slot < y.slot := by
  rw [blockSlots, List.pairwise_flatMap]
  refine ⟨fun p _ => pageSlots_pairwise _ _, ?_⟩
  have hpages : (writtenPages f block).Pairwise (· < ·) := by
    rw [writtenPages, blockPageList]
    refine List.Pairwise.filter _ (List.pairwise_map.mpr ?_)
    exact List.pairwise_lt_range.imp fun h => Nat.add_lt_add_left h _
  refine hpages.imp_of_mem fun {p q} hp hq hpq x hx y hy => ?_
  obtain ⟨j, hj, rfl, -⟩ := (mem_writtenPages f block p).mp hp
  obtain ⟨k, hk, rfl, -⟩ := (mem_writtenPages f block q).mp hq
  rw [mod_blockPages hj] at hx
  rw [mod_blockPages hk] at hy
  obtain ⟨i, hi, -, rfl⟩ := (mem_pageSlots _ _ _).mp hx
  obtain ⟨l, hl, -, rfl⟩ := (mem_pageSlots _ _ _).mp hy
  change 16 * j + i < 16 * k + l
  omega

theorem good_slotRead_iff (ws : List WordRead) (slot i : Nat) : (slotRead ws slot i).good = true ↔
    (slotRead ws slot i).bytes.drop 30 = leBytes 2 (crc16 ((slotRead ws slot i).bytes.take 30)).toNat ∧
      ∀ w ∈ slotWords ws i, w.cls ≠ .poisoned := by
  change (slotGood _ && decide (countClass _ _ = 0)) = true ↔ _
  rw [Bool.and_eq_true, slotGood, decide_eq_true_eq, decide_eq_true_eq, countClass, List.length_eq_zero_iff, List.filter_eq_nil_iff]
  simp only [decide_eq_true_eq]
  exact Iff.rfl

theorem slotRead_eq {x y : SlotRead} (hslot : x.slot = y.slot) (hbytes : x.bytes = y.bytes) (hgood : x.good = y.good) : x = y := by
  cases x
  cases y
  cases hslot
  cases hbytes
  cases hgood
  rfl

/-- A slot of the block by its number. -/
theorem mem_blockSlots_iff (f : Flash) (block : Nat) (x : SlotRead) :
    let words := fun i : Nat => slotWords (readPhys f (128 * block + i / 16)) (i % 16)
    x ∈ blockSlots f block ↔ x.slot < 2048 ∧ x.bytes = bytesOfWords (words x.slot) ∧ (∃ b ∈ x.bytes, b ≠ 0xFF) ∧
      (x.good = true ↔ x.bytes.drop 30 = leBytes 2 (crc16 (x.bytes.take 30)).toNat ∧ ∀ w ∈ words x.slot, w.cls ≠ .poisoned) := by
  intro words
  rw [mem_blockSlots]
  constructor
  · rintro ⟨j, i, hj, hi, hread, rfl⟩
    have hwords : words (16 * j + i) = slotWords (readPhys f (128 * block + j)) i := by
      dsimp only [words]
      rw [show (16 * j + i) / 16 = j by omega, show (16 * j + i) % 16 = i by omega]
    refine ⟨?_, ?_, (readsErased_iff _).mp hread, ?_⟩
    · change 16 * j + i < 2048
      omega
    · exact (congrArg bytesOfWords hwords).symm
    · rw [good_slotRead_iff]
      change _ ∧ _ ↔ _ ∧ ∀ w ∈ words (16 * j + i), _
      rw [hwords]
  · rintro ⟨hslot, hbytes, hwritten, hgood⟩
    have hnumber : 16 * (x.slot / 16) + x.slot % 16 = x.slot := Nat.div_add_mod _ _
    refine ⟨x.slot / 16, x.slot % 16, by omega, by omega, ?_, ?_⟩
    · rw [readsErased_iff]
      rw [hbytes] at hwritten
      exact hwritten
    · rw [hnumber]
      have hread := good_slotRead_iff (readPhys f (128 * block + x.slot / 16)) x.slot (x.slot % 16)
      have hsame : (slotRead (readPhys f (128 * block + x.slot / 16)) x.slot (x.slot % 16)).bytes = x.bytes := hbytes.symm
      rw [hsame] at hread
      have hmark : x.good = (slotRead (readPhys f (128 * block + x.slot / 16)) x.slot (x.slot % 16)).good :=
        Bool.eq_iff_iff.mpr (hgood.trans hread.symm)
      exact slotRead_eq rfl hsame.symm hmark

end Sys2Proof.Machine
end

