-- ==== Sys2Proof/Proofs/KeptRecords.lean ====
section
/-! PROOFS. Sys2Proof/Proofs/KeptRecords.lean: complete checkpoints, the block that replay uses, and the slots kept (R142, R143). -/

namespace Sys2Proof.Machine

/-! ## Generations (R142) -/

theorem laterGen_iff (a b : BitVec 32) : laterGen a b = true ↔ 1 ≤ (a - b).toNat ∧ (a - b).toNat ≤ 2147483647 := by
  rw [laterGen, Bool.and_eq_true, decide_eq_true_eq, decide_eq_true_eq]

theorem laterGen_self (a : BitVec 32) : laterGen a a = false := by
  rw [Bool.eq_false_iff, ne_eq, laterGen_iff, BitVec.sub_self]
  decide

/-- Of two generations at most one is later than the other. -/
theorem laterGen_asymm {a b : BitVec 32} (h : laterGen a b = true) : laterGen b a = false := by
  rw [laterGen_iff, BitVec.toNat_sub] at h
  rw [Bool.eq_false_iff, ne_eq, laterGen_iff, BitVec.toNat_sub]
  have ha := a.isLt
  have hb := b.isLt
  omega

/-! ## Complete checkpoints (R142) -/

/-- A complete checkpoint among slots: its begin before its end. -/
def CompleteAmong (xs : List SlotRead) (c : Checkpoint) : Prop :=
  ∃ (i j n : Nat) (x y : SlotRead), i < j ∧ xs[i]? = some x ∧ xs[j]? = some y ∧ x.good = true ∧ y.good = true ∧
    x.record = some (.checkpointBegin c.gen c.last) ∧ y.record = some (.checkpointEnd c.gen n) ∧ c.slot = x.slot ∧ c.seq = x.seq

/-- A checkpoint's end among slots. -/
theorem endsCheckpoint_iff (gen : BitVec 32) (xs : List SlotRead) : endsCheckpoint gen xs = true ↔
    ∃ (j n : Nat) (y : SlotRead), xs[j]? = some y ∧ y.good = true ∧ y.record = some (.checkpointEnd gen n) := by
  rw [endsCheckpoint, List.any_eq_true]
  constructor
  · rintro ⟨y, hy, h⟩
    obtain ⟨j, hj⟩ := List.mem_iff_getElem?.mp hy
    rw [Bool.and_eq_true] at h
    obtain ⟨hgood, hrecord⟩ := h
    split at hrecord
    · next g n hend =>
      rw [of_decide_eq_true hrecord] at hend
      exact ⟨j, n, y, hj, hgood, hend⟩
    · exact absurd hrecord Bool.false_ne_true
  · rintro ⟨j, n, y, hj, hgood, hend⟩
    refine ⟨y, List.mem_of_getElem? hj, ?_⟩
    rw [hgood, hend]
    exact decide_eq_true rfl

/-- A slot begins a checkpoint that the slots after it end. -/
structure BegunBy (x : SlotRead) (xs : List SlotRead) (c : Checkpoint) : Prop where
  good : x.good = true
  record : x.record = some (.checkpointBegin c.gen c.last)
  ends : endsCheckpoint c.gen xs = true
  slot : c.slot = x.slot
  seq : c.seq = x.seq

theorem checkpoints_of_begin {x : SlotRead} {gen : BitVec 32} {last : Nat} (xs : List SlotRead) (hgood : x.good = true)
    (hrecord : x.record = some (.checkpointBegin gen last)) : checkpoints (x :: xs) =
      if endsCheckpoint gen xs then { gen := gen, slot := x.slot, seq := x.seq, last := last } :: checkpoints xs
      else checkpoints xs := by
  rw [checkpoints, hgood, hrecord]

theorem checkpoints_of_other {x : SlotRead} (xs : List SlotRead)
    (h : ¬ ∃ gen last, x.good = true ∧ x.record = some (.checkpointBegin gen last)) : checkpoints (x :: xs) = checkpoints xs := by
  rw [checkpoints]
  split
  · next gen last hgood hrecord => exact absurd ⟨gen, last, hgood, hrecord⟩ h
  · rfl

theorem mem_checkpoints_cons (x : SlotRead) (xs : List SlotRead) (c : Checkpoint) :
    c ∈ checkpoints (x :: xs) ↔ BegunBy x xs c ∨ c ∈ checkpoints xs := by
  by_cases h : ∃ gen last, x.good = true ∧ x.record = some (.checkpointBegin gen last)
  · obtain ⟨gen, last, hgood, hrecord⟩ := h
    rw [checkpoints_of_begin xs hgood hrecord]
    split
    · next hends =>
      rw [List.mem_cons]
      refine or_congr_left ⟨fun hc => ?_, fun hc => ?_⟩
      · rw [hc]
        exact ⟨hgood, hrecord, hends, rfl, rfl⟩
      · obtain ⟨g, slot, seq, l⟩ := c
        obtain ⟨-, hrec, -, rfl, rfl⟩ := hc
        cases hrecord.symm.trans hrec
        rfl
    · next hends =>
      refine (or_iff_right fun hc => hends ?_).symm
      cases hrecord.symm.trans hc.record
      exact hc.ends
  · rw [checkpoints_of_other xs h]
    exact (or_iff_right fun hc => h ⟨c.gen, c.last, hc.good, hc.record⟩).symm

theorem completeAmong_cons (x : SlotRead) (xs : List SlotRead) (c : Checkpoint) :
    CompleteAmong (x :: xs) c ↔ BegunBy x xs c ∨ CompleteAmong xs c := by
  constructor
  · rintro ⟨i, j, n, b, e, hij, hb, he, hbgood, hegood, hbegin, hend, hslot, hseq⟩
    cases j with
    | zero => exact absurd hij (Nat.not_lt_zero i)
    | succ j =>
      rw [List.getElem?_cons_succ] at he
      cases i with
      | zero =>
        rw [List.getElem?_cons_zero] at hb
        cases hb
        exact .inl ⟨hbgood, hbegin, (endsCheckpoint_iff _ _).mpr ⟨j, n, e, he, hegood, hend⟩, hslot, hseq⟩
      | succ i =>
        rw [List.getElem?_cons_succ] at hb
        exact .inr ⟨i, j, n, b, e, Nat.lt_of_succ_lt_succ hij, hb, he, hbgood, hegood, hbegin, hend, hslot, hseq⟩
  · rintro (h | ⟨i, j, n, b, e, hij, hb, he, hbgood, hegood, hbegin, hend, hslot, hseq⟩)
    · obtain ⟨j, n, e, he, hegood, hend⟩ := (endsCheckpoint_iff _ _).mp h.ends
      exact ⟨0, j + 1, n, x, e, Nat.succ_pos j, rfl, he, h.good, hegood, h.record, hend, h.slot, h.seq⟩
    · exact ⟨i + 1, j + 1, n, b, e, Nat.succ_lt_succ hij, hb, he, hbgood, hegood, hbegin, hend, hslot, hseq⟩

theorem mem_checkpoints (xs : List SlotRead) (c : Checkpoint) : c ∈ checkpoints xs ↔ CompleteAmong xs c := by
  induction xs with
  | nil =>
    refine ⟨fun h => absurd h List.not_mem_nil, ?_⟩
    rintro ⟨i, j, n, b, e, -, hb, -⟩
    rw [List.getElem?_nil] at hb
    exact absurd hb nofun
  | cons x xs ih => rw [mem_checkpoints_cons, completeAmong_cons, ih]

/-! ## The latest checkpoint (R142) -/

/-- The later of the best so far and the next one. -/
def laterOf (best : Option Checkpoint) (c : Checkpoint) : Option Checkpoint :=
  best.elim (some c) fun b => if laterGen b.gen c.gen then some b else some c

theorem latestCheckpoint_eq (cs : List Checkpoint) : latestCheckpoint cs = cs.foldl laterOf none := by
  rw [latestCheckpoint]
  refine congrArg (fun f => List.foldl f none cs) (funext fun best => funext fun c => ?_)
  cases best <;> rfl

theorem foldl_laterOf_some (cs : List Checkpoint) (b : Checkpoint) :
    ∃ d, cs.foldl laterOf (some b) = some d ∧ (d = b ∨ d ∈ cs) := by
  induction cs generalizing b with
  | nil => exact ⟨b, rfl, .inl rfl⟩
  | cons c cs ih =>
    by_cases h : laterGen b.gen c.gen = true
    · obtain ⟨d, hd, hmem⟩ := ih b
      refine ⟨d, ?_, hmem.imp_right (List.mem_cons_of_mem c)⟩
      rw [List.foldl_cons, laterOf, Option.elim_some, if_pos h, hd]
    · obtain ⟨d, hd, hmem⟩ := ih c
      refine ⟨d, ?_, .inr (List.mem_cons.mpr hmem)⟩
      rw [List.foldl_cons, laterOf, Option.elim_some, if_neg h, hd]

theorem latestCheckpoint_eq_none_iff (cs : List Checkpoint) : latestCheckpoint cs = none ↔ cs = [] := by
  rw [latestCheckpoint_eq]
  cases cs with
  | nil => exact iff_of_true rfl rfl
  | cons c cs =>
    obtain ⟨d, hd, -⟩ := foldl_laterOf_some cs c
    rw [List.foldl_cons, laterOf, Option.elim_none, hd]
    exact iff_of_false (Option.some_ne_none d) (List.cons_ne_nil c cs)

theorem latestCheckpoint_mem {cs : List Checkpoint} {d : Checkpoint} (h : latestCheckpoint cs = some d) : d ∈ cs := by
  rw [latestCheckpoint_eq] at h
  cases cs with
  | nil => exact absurd h nofun
  | cons c cs =>
    obtain ⟨d', hd', hmem⟩ := foldl_laterOf_some cs c
    rw [List.foldl_cons, laterOf, Option.elim_none, hd'] at h
    cases h
    exact List.mem_cons.mpr hmem

/-- A generation that every other one precedes stays. -/
theorem foldl_laterOf_gen {g : BitVec 32} {cs : List Checkpoint} (hall : ∀ b ∈ cs, b.gen = g ∨ laterGen g b.gen = true)
    {best d : Checkpoint} (hbest : best.gen = g) (h : cs.foldl laterOf (some best) = some d) : d.gen = g := by
  induction cs generalizing best with
  | nil =>
    cases h
    exact hbest
  | cons c cs ih =>
    have hrest := fun b hb => hall b (List.mem_cons_of_mem c hb)
    rw [List.foldl_cons, laterOf, Option.elim_some] at h
    split at h
    · exact ih hrest hbest h
    · next hlater =>
      refine ih hrest ((hall c List.mem_cons_self).resolve_right ?_) h
      rw [← hbest]
      exact hlater

theorem latestCheckpoint_gen {g : BitVec 32} {cs : List Checkpoint} (hall : ∀ b ∈ cs, b.gen = g ∨ laterGen g b.gen = true)
    {best : Option Checkpoint} (hbest : ∀ b, best = some b → b.gen = g ∨ laterGen g b.gen = true) {c d : Checkpoint} (hc : c ∈ cs)
    (hgen : c.gen = g) (h : cs.foldl laterOf best = some d) : d.gen = g := by
  induction cs generalizing best with
  | nil => exact absurd hc List.not_mem_nil
  | cons x cs ih =>
    have hrest := fun b hb => hall b (List.mem_cons_of_mem x hb)
    rw [List.foldl_cons] at h
    by_cases hx : x.gen = g
    · obtain ⟨b, hb, hbg⟩ : ∃ b, laterOf best x = some b ∧ b.gen = g := by
        cases best with
        | none => exact ⟨x, rfl, hx⟩
        | some b =>
          by_cases hl : laterGen b.gen x.gen = true
          · refine ⟨b, if_pos hl, (hbest b rfl).resolve_right fun hgb => ?_⟩
            rw [hx, laterGen_asymm hgb] at hl
            exact absurd hl (by decide)
          · exact ⟨x, if_neg hl, hx⟩
      rw [hb] at h
      exact foldl_laterOf_gen hrest hbg h
    · have hmem : c ∈ cs := (List.mem_cons.mp hc).resolve_left fun heq => hx (heq ▸ hgen)
      refine ih hrest (fun b hb => ?_) hmem h
      cases best with
      | none =>
        cases hb
        exact hall x List.mem_cons_self
      | some b' =>
        rw [laterOf, Option.elim_some] at hb
        split at hb
        · cases hb
          exact hbest _ rfl
        · cases hb
          exact hall x List.mem_cons_self

/-! ## The block that replay uses (R142) -/

theorem chosenBlock_of_both {f : Flash} {a b : Checkpoint} (ha : blockCheckpoint f 0 = some a) (hb : blockCheckpoint f 1 = some b) :
    chosenBlock f = if laterGen b.gen a.gen = true then some (1, b) else some (0, a) := by
  rw [chosenBlock, ha, hb]

/-! ## The slots kept (R143) -/

theorem seqDistance_inj (c : Checkpoint) (x y : SlotRead) : seqDistance c x = seqDistance c y ↔ x.seq = y.seq := by
  rw [seqDistance, seqDistance]
  refine ⟨fun h => ?_, fun h => by rw [h]⟩
  exact (BitVec.sub_left_inj _).mp (BitVec.eq_of_toNat_eq h)

/-- In the order of the distances. -/
def InOrder (c : Checkpoint) (ks : List SlotRead) : Prop := ks.Pairwise fun x y => seqDistance c x < seqDistance c y

theorem mem_keepSlot {c : Checkpoint} {x z : SlotRead} {ks : List SlotRead} (h : InOrder c ks) :
    z ∈ keepSlot c x ks ↔ z = x ∨ z ∈ ks ∧ z.seq ≠ x.seq := by
  induction ks with
  | nil => simp [keepSlot]
  | cons y ys ih =>
    obtain ⟨hy, hys⟩ := List.pairwise_cons.mp h
    rw [keepSlot]
    split
    · next hlt =>
      have hne : ∀ w ∈ y :: ys, w.seq ≠ x.seq := fun w hw heq => by
        have hle : seqDistance c y ≤ seqDistance c w := (List.mem_cons.mp hw).elim (fun he => he ▸ Nat.le_refl _) fun hm => (hy w hm).le
        rw [(seqDistance_inj c w x).mpr heq] at hle
        omega
      rw [List.mem_cons]
      exact or_congr_right ⟨fun hz => ⟨hz, hne z hz⟩, And.left⟩
    · split
      · next heq =>
        have hsame : x.seq = y.seq := (seqDistance_inj c x y).mp heq
        have hne : ∀ w ∈ ys, w.seq ≠ x.seq := fun w hw hwx => by
          have := hy w hw
          rw [(seqDistance_inj c w x).mpr hwx] at this
          omega
        rw [List.mem_cons, List.mem_cons]
        refine or_congr_right ⟨fun hz => ⟨.inr hz, hne z hz⟩, fun ⟨hz, hzx⟩ => hz.resolve_left fun hzy => hzx ?_⟩
        rw [hzy, hsame]
      · next hlt heq =>
        have hyx : y.seq ≠ x.seq := fun h' => heq ((seqDistance_inj c x y).mpr h'.symm)
        rw [List.mem_cons, ih hys, List.mem_cons]
        constructor
        · rintro (rfl | rfl | ⟨hz, hzx⟩)
          · exact .inr ⟨.inl rfl, hyx⟩
          · exact .inl rfl
          · exact .inr ⟨.inr hz, hzx⟩
        · rintro (rfl | ⟨rfl | hz, hzx⟩)
          · exact .inr (.inl rfl)
          · exact .inl rfl
          · exact .inr (.inr ⟨hz, hzx⟩)

theorem keepSlot_inOrder {c : Checkpoint} {x : SlotRead} {ks : List SlotRead} (h : InOrder c ks) : InOrder c (keepSlot c x ks) := by
  induction ks with
  | nil => exact List.pairwise_singleton _ _
  | cons y ys ih =>
    obtain ⟨hy, hys⟩ := List.pairwise_cons.mp h
    rw [keepSlot]
    split
    · next hlt =>
      refine List.pairwise_cons.mpr ⟨fun w hw => ?_, h⟩
      exact (List.mem_cons.mp hw).elim (fun he => he ▸ hlt) fun hm => hlt.trans (hy w hm)
    · split
      · next heq => exact List.pairwise_cons.mpr ⟨fun w hw => heq ▸ hy w hw, hys⟩
      · next hlt heq =>
        refine List.pairwise_cons.mpr ⟨fun w hw => ?_, ih hys⟩
        rcases (mem_keepSlot hys).mp hw with rfl | ⟨hm, -⟩
        · omega
        · exact hy w hm

theorem keptSlots_append (c : Checkpoint) (xs : List SlotRead) (x : SlotRead) :
    keptSlots c (xs ++ [x]) = keepSlot c x (keptSlots c xs) := by
  rw [keptSlots, List.foldl_append]
  rfl

theorem keptSlots_spec (c : Checkpoint) (xs : List SlotRead) (h : xs.Pairwise fun x y => x.slot < y.slot) :
    InOrder c (keptSlots c xs) ∧ ∀ x : SlotRead, x ∈ keptSlots c xs ↔ x ∈ xs ∧ ∀ y ∈ xs, x.slot < y.slot → y.seq ≠ x.seq := by
  induction xs using List.reverseRecOn with
  | nil => exact ⟨List.Pairwise.nil, fun x => iff_of_false List.not_mem_nil fun hx => List.not_mem_nil hx.1⟩
  | append_singleton xs last ih =>
    obtain ⟨hxs, -, hlast⟩ := List.pairwise_append.mp h
    have hlast (y : SlotRead) (hy : y ∈ xs) : y.slot < last.slot := hlast y hy last (List.mem_singleton_self last)
    obtain ⟨horder, hmem⟩ := ih hxs
    rw [keptSlots_append]
    refine ⟨keepSlot_inOrder horder, fun x => ?_⟩
    rw [mem_keepSlot horder, hmem, List.mem_append, List.mem_singleton]
    simp only [List.mem_append, List.mem_singleton]
    constructor
    · rintro (rfl | ⟨⟨hx, hlater⟩, hne⟩)
      · refine ⟨.inr rfl, fun y hy hslot => ?_⟩
        rcases hy with hy | rfl
        · exact absurd (hlast y hy) (Nat.lt_asymm hslot)
        · exact absurd hslot (Nat.lt_irrefl _)
      · refine ⟨.inl hx, fun y hy hslot => ?_⟩
        rcases hy with hy | rfl
        · exact hlater y hy hslot
        · exact Ne.symm hne
    · rintro ⟨hx | rfl, hlater⟩
      · exact .inr ⟨⟨hx, fun y hy => hlater y (.inl hy)⟩, Ne.symm (hlater last (.inr rfl) (hlast x hx))⟩
      · exact .inl rfl

end Sys2Proof.Machine
end

