-- ==== Sys2Proof/Proofs/ReplayedTables.lean ====
section
/-! PROOFS. Sys2Proof/Proofs/ReplayedTables.lean: the records applied at replay, the directory as it is completed, the block states and
the pool (R134, R138, R143, R144, R163). -/

namespace Sys2Proof.Machine

/-! ## The reads of the chosen block (R143) -/

/-- From `s` to `t` pages were taken and `n` torn slots reported. -/
structure TornTold (n : Nat) (s t : State) : Prop where
  dir : t.dir = { s.dir with torn := satInc^[n] s.dir.torn }
  store : t.store = s.store
  engine : t.engine = s.engine
  flash : t.flash = s.flash

theorem TornTold.refl (s : State) : TornTold 0 s s := ⟨rfl, rfl, rfl, rfl⟩

theorem TornTold.trans {m n : Nat} {s t u : State} (h : TornTold m s t) (h' : TornTold n t u) : TornTold (m + n) s u where
  dir := by
    rw [h'.dir, h.dir, Nat.add_comm m n, Function.iterate_add_apply]
  store := h'.store.trans h.store
  engine := h'.engine.trans h.engine
  flash := h'.flash.trans h.flash

theorem TornTold.of_taken {s t : State} (h : PagesTaken s t) : TornTold 0 s t :=
  ⟨(congrArg State.dir h.shape :), (congrArg State.store h.shape :), (congrArg State.engine h.shape :), h.flash⟩

theorem offerError_tables (k : ErrKind) (page word : Nat) (op : Operation) (s : State) :
    (offerError k page word op s).dir = s.dir ∧ (offerError k page word op s).store = s.store ∧
      (offerError k page word op s).engine = s.engine ∧ (offerError k page word op s).flash = s.flash := by
  unfold offerError
  split <;> exact ⟨rfl, rfl, rfl, rfl⟩

theorem tornTold_reportTorn (block : Nat) (x : SlotRead) (s : State) : TornTold 1 s (reportTorn block x s) := by
  obtain ⟨hdir, hstore, hengine, hflash⟩ := offerError_tables .journalTorn (slotPage block x.slot) (4 * (x.slot % slotsPerPage)) .replay
    ((s.onInteg fun g => { g with torn := satInc g.torn }).onDir fun d => { d with torn := satInc d.torn })
  exact ⟨hdir, hstore, hengine, hflash⟩

theorem tornTold_forEach (block : Nat) (xs : List SlotRead) (s : State) : TornTold xs.length s (forEach xs (reportTorn block) s) := by
  induction xs generalizing s with
  | nil => exact .refl s
  | cons x xs ih =>
    rw [List.length_cons, Nat.add_comm]
    exact (tornTold_reportTorn block x s).trans (ih _)

/-- The slots of a page whose CRC fails. -/
def tornSlots (f : Flash) (p : Nat) : List SlotRead := (pageSlots (readPhys f p) (p % blockPages)).filter fun x => !x.good

theorem tornTold_replayPage (block p : Nat) (s : State) : TornTold (tornSlots s.flash p).length s (replayPage block p s) := by
  have htake := TornTold.of_taken (pagesTaken_takePage (op := .replay) (by decide) p p (readPhys s.flash p) s)
  have h := htake.trans (tornTold_forEach block (tornSlots s.flash p) _)
  rw [Nat.zero_add] at h
  exact h

theorem tornTold_pages (block : Nat) (ps : List Nat) (s : State) :
    TornTold ((ps.flatMap (tornSlots s.flash)).length) s (forEach ps (replayPage block) s) := by
  induction ps generalizing s with
  | nil => exact .refl s
  | cons p ps ih =>
    have hpage := tornTold_replayPage block p s
    have hrest := ih (replayPage block p s)
    rw [hpage.flash] at hrest
    rw [List.flatMap_cons, List.length_append]
    exact hpage.trans hrest

theorem filter_blockSlots (f : Flash) (block : Nat) :
    ((blockSlots f block).filter fun x => !x.good) = (writtenPages f block).flatMap (tornSlots f) := by
  rw [blockSlots, List.filter_flatMap]
  rfl

theorem tornTold_replayReads (block : Nat) (s : State) :
    TornTold ((blockSlots s.flash block).filter fun x => !x.good).length s (replayReads block s) := by
  rw [filter_blockSlots]
  exact tornTold_pages block _ s

theorem iterate_satInc {n : Nat} (h : n ≤ 4294967295) : satInc^[n] 0 = n := by
  induction n with
  | zero => rfl
  | succ n ih =>
    rw [Function.iterate_succ_apply', ih (by omega), satInc, satAdd, counterMax]
    omega

theorem length_blockSlots_le (f : Flash) (block : Nat) : (blockSlots f block).length ≤ 2048 := by
  have hnodup : ((blockSlots f block).map SlotRead.slot).Nodup := by
    refine List.Pairwise.imp (fun h => Nat.ne_of_lt h) (List.pairwise_map.mpr (blockSlots_pairwise f block))
  have hsub : (blockSlots f block).map SlotRead.slot ⊆ List.range 2048 := by
    intro i hi
    obtain ⟨x, hx, rfl⟩ := List.mem_map.mp hi
    exact List.mem_range.mpr ((mem_blockSlots_iff f block x).mp hx).1
  have hle := (hnodup.subperm hsub).length_le
  rwa [List.length_map, List.length_range] at hle

/-! ## The records applied (R138, R143) -/

/-- A retirement record's effect on the store's tables. -/
def retireEffect (r : JRec) (t : StoreCtl) : StoreCtl :=
  match r with
  | .retirePage ps => { t with retPages := ps.foldl addRetiredPage t.retPages }
  | .retireBlock b cause => { t with retBlocks := addRetiredBlock b cause t.retBlocks }
  | _ => t

theorem applyRecord_eq (r : JRec) (s : State) :
    applyRecord r s = { s with store := retireEffect r s.store, dir := recordEffect r s.dir } := by
  cases r <;> rfl

theorem modEntry_torn (cap : Nat) (f : DirEntry → DirEntry) (n : Nat) (d : Directory) :
    modEntry cap f { d with torn := n } = { modEntry cap f d with torn := n } := rfl

theorem putSection_torn (i : Nat) (e : SecEntry) (n : Nat) (d : Directory) :
    putSection i e { d with torn := n } = { putSection i e d with torn := n } := rfl

theorem recordEffect_torn (r : JRec) (n : Nat) (d : Directory) :
    recordEffect r { d with torn := n } = { recordEffect r d with torn := n } := by
  cases r
  case captureOpen cap trig first valid openTime epoch =>
    have hslot : slotForOpen { d with torn := n } cap = slotForOpen d cap := rfl
    rw [recordEffect, recordEffect, hslot]
    cases slotForOpen d cap <;> rfl
  case sectionBegin cap index entry kind first start head =>
    have hentry : findEntry { d with torn := n } cap = findEntry d cap := rfl
    have hplace : sectionPlace { d with torn := n } cap index = sectionPlace d cap index := rfl
    rw [recordEffect, recordEffect, hentry, hplace]
    cases findEntry d cap with
    | none => rfl
    | some _ =>
      cases sectionPlace d cap index with
      | none => rfl
      | some i => exact (congrArg (putSection i _) (modEntry_torn cap _ n d)).trans (putSection_torn i _ n _)
  case sectionDone cap index entry kind outcome len first pages gaps head =>
    have hentry : findEntry { d with torn := n } cap = findEntry d cap := rfl
    have hplace : sectionPlace { d with torn := n } cap index = sectionPlace d cap index := rfl
    rw [recordEffect, recordEffect, hentry, hplace]
    cases findEntry d cap with
    | none => rfl
    | some _ =>
      cases sectionPlace d cap index with
      | none => rfl
      | some i => exact (congrArg (putSection i _) (modEntry_torn cap _ n d)).trans (putSection_torn i _ n _)
  case delete cap why =>
    have hentry : findEntry { d with torn := n } cap = findEntry d cap := rfl
    rw [recordEffect, recordEffect, dropCapture, dropCapture, hentry]
    cases findEntry d cap <;> rfl
  case relocate source pool poisoned =>
    have howner : ownerOf { d with torn := n } source = ownerOf d source := rfl
    rw [recordEffect, recordEffect, putMap, putMap, howner]
    cases ownerOf d source <;> rfl
  all_goals rfl

/-- The records applied to a state and to its directory with another count of torn slots. -/
theorem forEach_applyRecord_torn {n : Nat} (rs : List JRec) {s t : State} (hdir : t.dir = { s.dir with torn := n })
    (hstore : t.store = s.store) : (forEach rs applyRecord t).dir = { (forEach rs applyRecord s).dir with torn := n } ∧
      (forEach rs applyRecord t).store = (forEach rs applyRecord s).store := by
  induction rs generalizing s t with
  | nil => exact ⟨hdir, hstore⟩
  | cons r rs ih =>
    refine ih (s := applyRecord r s) (t := applyRecord r t) ?_ ?_
    · rw [applyRecord_eq, applyRecord_eq, hdir]
      exact recordEffect_torn r n s.dir
    · rw [applyRecord_eq, applyRecord_eq, hstore]

theorem forEach_applyRecord_leaves (rs : List JRec) (s : State) :
    (forEach rs applyRecord s).engine = s.engine ∧ (forEach rs applyRecord s).flash = s.flash := by
  induction rs generalizing s with
  | nil => exact ⟨rfl, rfl⟩
  | cons r rs ih =>
    obtain ⟨hengine, hflash⟩ := ih (applyRecord r s)
    rw [applyRecord_eq] at hengine hflash
    rw [← applyRecord_eq] at hengine hflash
    exact ⟨hengine.trans (by rw [applyRecord_eq]), hflash.trans (by rw [applyRecord_eq])⟩

/-! ## The directory completed (R144) -/

theorem renumber_congr {d d' : Directory} (h : d'.sections = d.sections) (n : Nat) (es : List DirEntry) :
    renumber d' n es = renumber d n es := by
  have hsections : sectionsOf d' = sectionsOf d := by
    funext e
    rw [sectionsOf, sectionsOf]
    refine List.filterMap_congr fun i _ => ?_
    rw [sectionOf, sectionOf, h]
  induction es generalizing n with
  | nil => rfl
  | cons e es ih => rw [renumber, renumber, hsections, ih]

theorem completeDirectory_torn (rs : List JRec) (t : StoreCtl) (n : Nat) (d : Directory) :
    completeDirectory rs t { d with torn := n } = { completeDirectory rs t d with torn := n } := by
  have hentries : entriesByCap { d with torn := n } = entriesByCap d := rfl
  have hrenumber (es : List DirEntry) : renumber { d with torn := n } 0 es = renumber d 0 es :=
    renumber_congr (d := d) (d' := { d with torn := n }) rfl 0 es
  rw [completeDirectory, completeDirectory, hentries, hrenumber]

theorem renumber_get (d : Directory) (n : Nat) (es : List DirEntry) (i : Nat) : (renumber d n es).1[i]? = es[i]?.map fun e =>
    { e with sections := (List.range (sectionsOf d e).length).map fun k =>
        n + ((es.take i).map fun y => (sectionsOf d y).length).sum + k } := by
  induction es generalizing n i with
  | nil => rfl
  | cons e es ih =>
    rw [renumber]
    cases i with
    | zero => simp
    | succ i =>
      simp only [List.getElem?_cons_succ, ih, List.length_map, List.take_succ_cons, List.map_cons, List.sum_cons]
      cases es[i]? with
      | none => rfl
      | some y => simp only [Option.map_some, Nat.add_assoc]

theorem renumber_sections (d : Directory) (n : Nat) (es : List DirEntry) :
    (renumber d n es).2 = ((es.flatMap (sectionsOf d)).map interruptSection).mapIdx fun k x => (n + k, SecSlot.entry x) := by
  induction es generalizing n with
  | nil => rfl
  | cons e es ih =>
    rw [renumber, List.flatMap_cons, List.map_append, List.mapIdx_append]
    dsimp only
    rw [ih, List.length_map]
    refine congrArg (_ ++ ·) (congrArg (fun f => List.mapIdx f _) (funext fun k => funext fun x => ?_))
    rw [Nat.add_assoc, Nat.add_comm k]

end Sys2Proof.Machine
end

