-- ==== Sys2Proof/Proofs/ReplayedBlocks.lean ====
section
/-! PROOFS. Sys2Proof/Proofs/ReplayedBlocks.lean: the replayed block as a whole, interrupted captures, the block states, the queued erases
and the next pool page (R134, R142 to R144, R163). -/

namespace Sys2Proof.Machine

/-! ## The replayed block (R142, R143) -/

theorem highestCapture_eq (last : Nat) (rs : List JRec) : highestCapture last rs = rs.foldl (fun n r => match r with
    | .captureOpen cap .. => if n < cap then cap else n
    | _ => n) last := by
  rw [highestCapture]
  refine congrArg (fun f => List.foldl f last rs) (funext fun n => funext fun r => ?_)
  cases r
  case captureOpen cap trig first valid openTime epoch =>
    change max n cap = if n < cap then cap else n
    split <;> omega
  all_goals rfl

/-- The figures that replay leaves in the directory. -/
def replayFigures (block : Nat) (c : Checkpoint) (all : List SlotRead) (d : Directory) : Directory :=
  let taken := all.filter (slotTaken c)
  let kept := keptSlots c taken
  { d with
    active := block
    gen := c.gen
    taken := taken.length
    nextSlot := (all.getLast?.map fun x => x.slot + 1).getD 0
    nextSeq := (kept.getLast?.map fun x => x.seq + 1).getD (c.seq + 1)
    lastCap := highestCapture c.last (kept.filterMap SlotRead.record) }

/-- The records that replay applies. -/
def replayRecords (c : Checkpoint) (all : List SlotRead) : List JRec := (keptSlots c (all.filter (slotTaken c))).filterMap SlotRead.record

/-- The state after the reads of both blocks and the records. -/
def recordsApplied (block : Nat) (c : Checkpoint) (s : State) : State :=
  forEach (replayRecords c (blockSlots s.flash block)) applyRecord (replayReads block (searchReads (1 - block) s))

theorem replayBlock_eq (block : Nat) (c : Checkpoint) (s : State) : replayBlock block c s =
    (recordsApplied block c s).onDir fun d => replayFigures block c (blockSlots s.flash block)
      (completeDirectory (replayRecords c (blockSlots s.flash block)) (recordsApplied block c s).store d) := by
  have hslot (all : List SlotRead) : (match all.getLast? with | some x => x.slot + 1 | none => 0) =
      (all.getLast?.map fun x => x.slot + 1).getD 0 := by
    cases all.getLast? <;> rfl
  have hseq (kept : List SlotRead) : (match kept.getLast? with | some x => x.seq + 1 | none => c.seq + 1) =
      (kept.getLast?.map fun x => x.seq + 1).getD (c.seq + 1) := by
    cases kept.getLast? <;> rfl
  simp only [replayFigures, ← hslot, ← hseq]
  rfl

theorem tornTold_reads (block : Nat) (s : State) : TornTold ((blockSlots s.flash block).filter fun x => !x.good).length s
    (replayReads block (searchReads (1 - block) s)) := by
  have hsearch := TornTold.of_taken (searchReads_taken (1 - block) s)
  have hreads := tornTold_replayReads block (searchReads (1 - block) s)
  rw [hsearch.flash] at hreads
  have h := hsearch.trans hreads
  rwa [Nat.zero_add] at h

theorem recordsApplied_leaves (block : Nat) (c : Checkpoint) {s : State} (htorn : s.dir.torn = 0) :
    (recordsApplied block c s).dir = { (forEach (replayRecords c (blockSlots s.flash block)) applyRecord s).dir with
      torn := ((blockSlots s.flash block).filter fun x => !x.good).length } ∧
    (recordsApplied block c s).store = (forEach (replayRecords c (blockSlots s.flash block)) applyRecord s).store ∧
    (recordsApplied block c s).engine = s.engine ∧ (recordsApplied block c s).flash = s.flash := by
  have hreads := tornTold_reads block s
  have hcount : ((blockSlots s.flash block).filter fun x => !x.good).length ≤ 4294967295 :=
    (List.length_filter_le _ _).trans ((length_blockSlots_le s.flash block).trans (by decide))
  have hdir := hreads.dir
  rw [htorn, iterate_satInc hcount] at hdir
  rw [recordsApplied]
  generalize replayRecords c (blockSlots s.flash block) = rs
  obtain ⟨hdirs, hstores⟩ := forEach_applyRecord_torn rs hdir hreads.store
  obtain ⟨hengine, hflash⟩ := forEach_applyRecord_leaves rs (replayReads block (searchReads (1 - block) s))
  exact ⟨hdirs, hstores, hengine.trans hreads.engine, hflash.trans hreads.flash⟩

theorem replayFigures_torn (block : Nat) (c : Checkpoint) (all : List SlotRead) (n : Nat) (d : Directory) :
    replayFigures block c all { d with torn := n } = { replayFigures block c all d with torn := n } := rfl

theorem replayBlock_leaves (block : Nat) (c : Checkpoint) {s : State} (htorn : s.dir.torn = 0) :
    (replayBlock block c s).dir = { replayFigures block c (blockSlots s.flash block)
        (completeDirectory (replayRecords c (blockSlots s.flash block))
          (forEach (replayRecords c (blockSlots s.flash block)) applyRecord s).store
          (forEach (replayRecords c (blockSlots s.flash block)) applyRecord s).dir) with
        torn := ((blockSlots s.flash block).filter fun x => !x.good).length } ∧
      (replayBlock block c s).store = (forEach (replayRecords c (blockSlots s.flash block)) applyRecord s).store ∧
      (replayBlock block c s).engine = s.engine ∧ (replayBlock block c s).flash = s.flash := by
  obtain ⟨hdir, hstore, hengine, hflash⟩ := recordsApplied_leaves block c htorn
  rw [replayBlock_eq, onDir_dir, onDir_store, onDir_engine, onDir_flash, hdir, hstore, completeDirectory_torn, replayFigures_torn]
  exact ⟨rfl, rfl, hengine, hflash⟩

/-! ## A retirement at replay (R138) -/

theorem addRetiredPage_eq (xs : List Nat) (p : Nat) : addRetiredPage xs p = if p ∈ xs ∨ 256 ≤ xs.length then xs else xs ++ [p] := by
  refine if_congr ?_ rfl rfl
  rw [Bool.or_eq_true, List.contains_iff_mem, decide_eq_true_eq]
  rfl

theorem addRetiredBlock_eq (b : Nat) (cause : RetireCause) (bs : List (Nat × RetireCause)) :
    addRetiredBlock b cause bs = if ∃ x ∈ bs, x.1 = b then bs else bs ++ [(b, cause)] := by
  simp only [addRetiredBlock, List.any_eq_true, decide_eq_true_eq]

/-! ## Interrupted captures (R144) -/

theorem sectionsOf_interruptEntry (d : Directory) (rs : List JRec) (t : StoreCtl) (e : DirEntry) :
    sectionsOf d (interruptEntry rs t e) = sectionsOf d e := by
  rw [interruptEntry]
  split <;> rfl

theorem interruptEntry_of_closed {e : DirEntry} (rs : List JRec) (t : StoreCtl) (h : e.state = .closed) : interruptEntry rs t e = e :=
  if_pos h

theorem interruptEntry_of_open {e : DirEntry} (rs : List JRec) (t : StoreCtl) (h : e.state ≠ .closed) : interruptEntry rs t e =
    { e with state := .interrupted, outcome := none, closeTime := none, head := interruptedHead t.retPages t.retBlocks rs e } :=
  if_neg h

theorem interruptedHead_of_carried {retPages : List Nat} {retBlocks : List (Nat × RetireCause)} {rs : List JRec} {e : DirEntry} {h : Nat}
    (hc : (rs.filterMap (carriedHead e.cap)).getLast? = some h) : interruptedHead retPages retBlocks rs e = some h := by
  rw [interruptedHead, hc]

theorem interruptedHead_of_page {retPages : List Nat} {retBlocks : List (Nat × RetireCause)} {rs : List JRec} {e : DirEntry}
    (hc : (rs.filterMap (carriedHead e.cap)).getLast? = none) : interruptedHead retPages retBlocks rs e =
      (physOf e.blocks 0).elim none fun p => if p ∉ retPages ∧ ∀ b ∈ retBlocks, b.1 ≠ p / 128 then some 0 else none := by
  rw [interruptedHead, hc]
  cases physOf e.blocks 0 with
  | none => rfl
  | some p =>
    have hiff : (retPages.contains p || retBlocks.any fun b => decide (b.1 = p / blockPages)) = true ↔
        ¬ (p ∉ retPages ∧ ∀ b ∈ retBlocks, b.1 ≠ p / 128) := by
      rw [Bool.or_eq_true, List.contains_iff_mem, List.any_eq_true, not_and_or, not_not, not_forall]
      simp only [decide_eq_true_eq, Classical.not_imp, ne_eq, not_not]
      exact Iff.rfl
    change (if _ then none else some 0) = if _ then some 0 else none
    by_cases h : p ∉ retPages ∧ ∀ b ∈ retBlocks, b.1 ≠ p / 128
    · rw [if_pos h, if_neg fun hc => (hiff.mp hc) h]
    · rw [if_neg h, if_pos (hiff.mpr h)]

/-- The slots of a completed directory. -/
theorem slots_completeDirectory (rs : List JRec) (t : StoreCtl) (d : Directory) (i : Fin 32) :
    (completeDirectory rs t d).slots[i] = ((entriesByCap d)[i.val]?).elim .free fun e => .entry { interruptEntry rs t e with
      sections := (List.range (sectionsOf d e).length).map fun k =>
        (((entriesByCap d).take i.val).map fun y => (sectionsOf d y).length).sum + k } := by
  have hget := renumber_get d 0 ((entriesByCap d).map (interruptEntry rs t)) i.val
  have hlengths : ((((entriesByCap d).map (interruptEntry rs t)).take i.val).map fun y => (sectionsOf d y).length) =
      ((entriesByCap d).take i.val).map fun y => (sectionsOf d y).length := by
    rw [← List.map_take, List.map_map]
    exact List.map_congr_left fun e _ => congrArg List.length (sectionsOf_interruptEntry d rs t e)
  rw [hlengths, List.getElem?_map] at hget
  have hslot : (completeDirectory rs t d).slots[i] =
      ((renumber d 0 ((entriesByCap d).map (interruptEntry rs t))).1[i.val]?).elim .free .entry := by
    rw [completeDirectory, Fin.getElem_fin, Vector.getElem_ofFn]
    cases (renumber d 0 ((entriesByCap d).map (interruptEntry rs t))).1[i.val]? <;> rfl
  rw [hslot, hget]
  cases (entriesByCap d)[i.val]? with
  | none => rfl
  | some e =>
    simp only [Option.map_some, Option.elim_some, sectionsOf_interruptEntry, Nat.zero_add]

theorem sections_completeDirectory (rs : List JRec) (t : StoreCtl) (d : Directory) : (completeDirectory rs t d).sections =
    (((entriesByCap d).flatMap (sectionsOf d)).map interruptSection).mapIdx fun k x => (k, SecSlot.entry x) := by
  have hsections : ((entriesByCap d).map (interruptEntry rs t)).flatMap (sectionsOf d) = (entriesByCap d).flatMap (sectionsOf d) := by
    rw [List.flatMap_map]
    exact List.flatMap_congr fun e _ => sectionsOf_interruptEntry d rs t e
  rw [completeDirectory]
  dsimp only
  rw [renumber_sections, hsections]
  simp only [Nat.zero_add]

theorem mem_entriesOf (d : Directory) (e : DirEntry) : e ∈ entriesOf d ↔ ∃ i : Fin 32, d.slots[i] = .entry e := by
  rw [entriesOf, List.mem_filterMap]
  constructor
  · rintro ⟨x, hx, he⟩
    cases x with
    | free => exact absurd he nofun
    | reserved c => exact absurd he nofun
    | entry y =>
      cases he
      obtain ⟨i, hi, hget⟩ := List.mem_iff_getElem.mp hx
      have hlt : i < 32 := by rwa [Vector.length_toList] at hi
      exact ⟨⟨i, hlt⟩, hget⟩
  · rintro ⟨i, hi⟩
    refine ⟨.entry e, ?_, rfl⟩
    rw [← hi]
    exact Vector.mem_toList_iff.mpr (Vector.getElem_mem i.isLt)

/-! ## The block states and the queued erases (R134) -/

theorem filterMap_ite {α β : Type} (l : List α) (q : α → Bool) (f : α → β) :
    (l.filterMap fun x => if q x then some (f x) else none) = (l.filter q).map f := by
  induction l with
  | nil => rfl
  | cons x l ih =>
    rw [List.filterMap_cons, List.filter_cons, ih]
    by_cases h : q x = true
    · rw [if_pos h, if_pos h, List.map_cons]
    · rw [if_neg h, if_neg h]

theorem blocksWhere_finRange (q : BlockState → Bool) (s : State) :
    blocksWhere q s = ((List.finRange 60).filter fun i => q s.store.blocks[i]).map fun i => 4 + i.val := by
  rw [← filterMap_ite, blocksWhere, ← List.map_coe_finRange_eq_range, List.filterMap_map]
  refine List.filterMap_congr fun i _ => ?_
  have hget : s.store.blocks.toList[i.val]? = some s.store.blocks[i] := by simp
  rw [Function.comp_apply, hget]
  rfl

theorem enqueueErases_eq (who : Eraser) (bs : List Nat) (s : State) : enqueueErases who bs s =
    s.onStore fun t => { t with queue := t.queue ++ bs.map fun b => .erase who b } := by
  induction bs generalizing s with
  | nil =>
    change s = { s with store := { s.store with queue := s.store.queue ++ [] } }
    rw [List.append_nil]
  | cons b bs ih =>
    refine (ih (enqueue (.erase who b) s)).trans ?_
    change ({ s with store := { s.store with queue := (s.store.queue ++ [.erase who b]) ++ _ } } : State) = _
    rw [List.append_assoc]
    rfl

/-- The block states at a start. -/
def rebuiltBlocks (s : State) : Vector BlockState 60 := Vector.ofFn fun i => rebuiltBlock s (4 + i.val)

def withRebuiltBlocks (s : State) : State := s.onStore fun c => { c with blocks := rebuiltBlocks s }

/-- The erases queued at a start. -/
def dirtyErases (s : State) : List QReq :=
  (blocksWhere (fun b => decide (b = .dirty)) (withRebuiltBlocks s)).map fun b => .erase .area b

theorem onStore_blocks_queue (s : State) (v : Vector BlockState 60) (es : List QReq) :
    (s.onStore fun c => { c with blocks := v }).onStore (fun t => { t with queue := t.queue ++ es }) =
      { s with store := { s.store with blocks := v, queue := s.store.queue ++ es } } := rfl

theorem rebuildBlocks_eq (s : State) : rebuildBlocks s =
    { s with store := { s.store with blocks := rebuiltBlocks s, queue := s.store.queue ++ dirtyErases s } } := by
  have h : rebuildBlocks s = enqueueErases .area (blocksWhere (fun b => decide (b = .dirty)) (withRebuiltBlocks s))
      (withRebuiltBlocks s) := rfl
  rw [h, enqueueErases_eq, ← onStore_blocks_queue, dirtyErases, withRebuiltBlocks]

theorem blocks_rebuildBlocks (s : State) (i : Fin 60) : (rebuildBlocks s).store.blocks[i] = rebuiltBlock s (4 + i.val) := by
  rw [rebuildBlocks_eq]
  change (rebuiltBlocks s)[i] = _
  rw [rebuiltBlocks, Fin.getElem_fin, Vector.getElem_ofFn]

theorem rebuiltBlock_of_retired {s : State} {b : Nat} (h : ∃ x ∈ s.store.retBlocks, x.1 = b) : rebuiltBlock s b = .retired := by
  refine if_pos (List.any_eq_true.mpr ?_)
  obtain ⟨x, hx, hb⟩ := h
  exact ⟨x, hx, decide_eq_true hb⟩

/-- A block that is not retired. -/
theorem rebuiltBlock_of_unretired {s : State} {b : Nat} (h : ¬ ∃ x ∈ s.store.retBlocks, x.1 = b) : rebuiltBlock s b =
    ((entriesByCap s.dir).find? fun e => e.blocks.contains (some b)).elim
      (if (unerasedPages s.store.retPages b s.flash).isEmpty then .free else .dirty) fun e => .allotted e.cap := by
  refine (if_neg fun hany => h ?_).trans ?_
  · obtain ⟨x, hx, hb⟩ := List.any_eq_true.mp hany
    exact ⟨x, hx, of_decide_eq_true hb⟩
  · cases (entriesByCap s.dir).find? fun e => e.blocks.contains (some b) <;> rfl

theorem unerasedPages_isEmpty_iff (retired : List Nat) (b : Nat) (f : Flash) : (unerasedPages retired b f).isEmpty = true ↔
    ∀ k : Nat, k < 128 → 128 * b + k ∉ retired → pageErased f (128 * b + k) = true := by
  rw [List.isEmpty_iff, unerasedPages, List.filter_eq_nil_iff, blockPageList]
  constructor
  · intro h k hk hret
    have hpage := h (128 * b + k) (List.mem_map.mpr ⟨k, List.mem_range.mpr hk, rfl⟩)
    rw [Bool.and_eq_true, Bool.not_eq_true', ← Bool.not_eq_true, List.contains_iff_mem] at hpage
    by_contra herased
    exact hpage ⟨hret, by rw [Bool.eq_false_iff.mpr herased]; rfl⟩
  · intro h p hp hboth
    obtain ⟨k, hk, rfl⟩ := List.mem_map.mp hp
    rw [Bool.and_eq_true, Bool.not_eq_true', ← Bool.not_eq_true, List.contains_iff_mem, Bool.not_eq_true'] at hboth
    have herased := h k (List.mem_range.mp hk) hboth.1
    exact absurd (herased.symm.trans hboth.2) (by decide)

theorem find?_owner_eq_none_iff (s : State) (b : Nat) : ((entriesByCap s.dir).find? fun e => e.blocks.contains (some b)) = none ↔
    ¬ ∃ e ∈ entriesOf s.dir, some b ∈ e.blocks := by
  rw [List.find?_eq_none, not_exists]
  refine forall_congr' fun e => ?_
  rw [mem_entriesByCap, List.contains_iff_mem, not_and]

/-! ## The pool (R163) -/

/-- The positions of the pool whose pages do not read erased. -/
def poolWritten (f : Flash) : List Nat := (List.range 128).filter fun i => !pageErased f (384 + i)

theorem scannedPool_eq (f : Flash) : scannedPool f = (poolWritten f).foldl (fun _ i => i + 1) 0 := rfl

theorem mem_poolWritten (f : Flash) (k : Nat) : k ∈ poolWritten f ↔ k < 128 ∧ pageErased f (384 + k) = false := by
  rw [poolWritten, List.mem_filter, List.mem_range, Bool.not_eq_true']

theorem foldl_last (l : List Nat) (n : Nat) : l.foldl (fun _ i => i + 1) n = l.getLast?.elim n (· + 1) := by
  induction l using List.reverseRecOn with
  | nil => rfl
  | append_singleton l k _ =>
    rw [List.foldl_append, List.getLast?_append]
    rfl

theorem scannedPool_of_none {f : Flash} (h : ∀ k : Nat, k < 128 → pageErased f (384 + k) = true) : scannedPool f = 0 := by
  have hnil : poolWritten f = [] := List.filter_eq_nil_iff.mpr fun k hk => by
    rw [h k (List.mem_range.mp hk)]
    decide
  rw [scannedPool_eq, hnil]
  rfl

/-- The last written page of the pool. -/
theorem scannedPool_of_last {f : Flash} {k : Nat} (hk : k < 128) (hpage : pageErased f (384 + k) = false)
    (hafter : ∀ j : Nat, k < j → j < 128 → pageErased f (384 + j) = true) : scannedPool f = k + 1 := by
  have hmem : k ∈ poolWritten f := (mem_poolWritten f k).mpr ⟨hk, hpage⟩
  have hlast : (poolWritten f).getLast? = some k := by
    have hsome : (poolWritten f).getLast?.isSome := by
      rw [List.getLast?_isSome]
      exact List.ne_nil_of_mem hmem
    obtain ⟨j, hj⟩ := Option.isSome_iff_exists.mp hsome
    obtain ⟨hlt, hwritten⟩ := (mem_poolWritten f j).mp (List.mem_of_getLast? hj)
    have hle : k ≤ j := by
      have hsorted : (poolWritten f).Pairwise (· < ·) := List.pairwise_lt_range.filter _
      obtain ⟨l, hl⟩ := List.getLast?_eq_some_iff.mp hj
      rw [hl] at hmem hsorted
      rcases List.mem_append.mp hmem with hm | hm
      · exact ((List.pairwise_append.mp hsorted).2.2 k hm j (List.mem_singleton_self j)).le
      · exact (List.mem_singleton.mp hm).le
    rcases hle.eq_or_lt with rfl | hkj
    · exact hj
    · exact absurd ((hafter j hkj hlt).symm.trans hwritten) (by decide)
  rw [scannedPool_eq, foldl_last, hlast]
  rfl

end Sys2Proof.Machine
end

