-- ==== Sys2Proof/Proofs/ChosenBlocks.lean ====
section
/-! PROOFS. Sys2Proof/Proofs/ChosenBlocks.lean: what replay takes of the chosen block, by its parts (R134, R138, R142 to R144, R163). -/

namespace Sys2Proof.Machine

theorem blockCheckpoint_complete {f : Flash} {block : Nat} {c : Checkpoint} (h : blockCheckpoint f block = some c) :
    CompleteAmong (blockSlots f block) c := (mem_checkpoints _ _).mp (latestCheckpoint_mem h)

theorem blockCheckpoint_eq_none_iff (f : Flash) (block : Nat) :
    blockCheckpoint f block = none ↔ ∀ c, ¬ CompleteAmong (blockSlots f block) c := by
  rw [blockCheckpoint, latestCheckpoint_eq_none_iff, List.eq_nil_iff_forall_not_mem]
  exact forall_congr' fun c => not_congr (mem_checkpoints _ c)

theorem blockCheckpoint_gen {f : Flash} {block : Nat} {c d : Checkpoint} (h : blockCheckpoint f block = some d)
    (hc : CompleteAmong (blockSlots f block) c)
    (hall : ∀ b, CompleteAmong (blockSlots f block) b → b.gen = c.gen ∨ laterGen c.gen b.gen = true) : d.gen = c.gen := by
  rw [blockCheckpoint, latestCheckpoint_eq] at h
  exact latestCheckpoint_gen (best := none) (fun b hb => hall b ((mem_checkpoints _ _).mp hb)) (fun b hb => absurd hb nofun)
    ((mem_checkpoints _ _).mpr hc) rfl h

theorem slotTaken_iff (c : Checkpoint) (x : SlotRead) :
    slotTaken c x = true ↔ x.good = true ∧ c.slot ≤ x.slot ∧ (x.seq - c.seq).toNat < 2048 := by
  rw [slotTaken, Bool.and_eq_true, Bool.and_eq_true, decide_eq_true_eq, decide_eq_true_eq, and_assoc]
  rfl

theorem carriedHead_eq (cap : Nat) (rs : List JRec) :
    let carried := fun r : JRec => match r with
      | .sectionBegin c _ _ _ _ _ head => if c = cap then head else none
      | .sectionDone c _ _ _ _ _ _ _ _ head => if c = cap then head else none
      | .captureClose c _ _ _ head => if c = cap then head else none
      | .captureSummary c _ _ _ _ head _ _ => if c = cap then head else none
      | _ => none
    rs.filterMap (carriedHead cap) = rs.filterMap carried := by
  intro carried
  exact List.filterMap_congr fun r _ => by cases r <;> rfl

theorem map_completeDirectory (rs : List JRec) (t : StoreCtl) (d : Directory) : (completeDirectory rs t d).map = d.map := by
  rw [completeDirectory]

theorem store_rebuildBlocks (s : State) : (rebuildBlocks s).store.blocks = rebuiltBlocks s := by rw [rebuildBlocks_eq]

theorem rebuildBlocks_blocks (s : State) : rebuildBlocks s = { s with store := { s.store with
    blocks := (rebuildBlocks s).store.blocks, queue := s.store.queue ++ dirtyErases s } } := by
  rw [store_rebuildBlocks, ← rebuildBlocks_eq]

theorem dirtyErases_eq (s : State) : dirtyErases s =
    ((List.finRange 60).filter fun i => decide (rebuiltBlock s (4 + i.val) = .dirty)).map fun i => .erase .area (4 + i.val) := by
  have hblocks (i : Fin 60) : (withRebuiltBlocks s).store.blocks[i] = rebuiltBlock s (4 + i.val) := by
    change (rebuiltBlocks s)[i] = _
    rw [rebuiltBlocks, Fin.getElem_fin, Vector.getElem_ofFn]
  rw [dirtyErases, blocksWhere_finRange, List.map_map]
  simp only [hblocks]
  rfl

/-- Settles O43: slots, checkpoints, kept records, and the tables rebuilt from them. -/
theorem replayTakesTheChosenBlock : Obligations.ReplayTakesTheChosenBlock := by
  refine ⟨fun f block _ => ?_, fun f block => ?_, laterGen_iff, fun f => ?_, slotTaken_iff, fun c xs h => keptSlots_spec c xs h,
    fun block c s _ htorn => ?_, fun r s => ?_, fun rs t d => ?_, fun s => ?_, fun s => ?_⟩
  · intro words bytes
    exact ⟨blockSlots_pairwise f block, fun x => mem_blockSlots_iff f block x⟩
  · intro xs complete
    exact ⟨blockCheckpoint_eq_none_iff f block, fun c => blockCheckpoint_complete, fun c d hd hc hall => blockCheckpoint_gen hd hc hall⟩
  · refine ⟨fun ha hb => ?_, fun a ha hb => ?_, fun b ha hb => ?_, fun a b ha hb => ⟨fun hlater => ?_, fun hlater => ?_⟩⟩
    · rw [chosenBlock, ha, hb]
    · rw [chosenBlock, ha, hb]
    · rw [chosenBlock, ha, hb]
    · rw [chosenBlock_of_both ha hb, if_neg (by rw [laterGen_asymm hlater]; decide)]
    · rw [chosenBlock_of_both ha hb, if_pos hlater]
  · obtain ⟨hdir, hstore, hengine, hflash⟩ := replayBlock_leaves block c htorn
    intro u all taken kept rs t
    have hu : u = replayBlock block c s := rfl
    have hrs : rs = replayRecords c all := rfl
    have ht : t = forEach (replayRecords c all) applyRecord s := rfl
    rw [hu, hdir, hstore, hengine, hflash, ht, hrs]
    refine ⟨?_, rfl, rfl, rfl⟩
    rw [replayFigures, highestCapture_eq]
    generalize completeDirectory (replayRecords c all) _ _ = v
    rfl
  · rw [applyRecord_eq]
    cases r
    case retirePage ps =>
      refine congrArg (fun xs => ({ s with store := { s.store with retPages := xs } } : State)) ?_
      exact congrArg (fun f => List.foldl f s.store.retPages ps) (funext fun xs => funext fun p => addRetiredPage_eq xs p)
    case retireBlock b cause =>
      exact congrArg (fun bs => ({ s with store := { s.store with retBlocks := bs } } : State)) (addRetiredBlock_eq b cause _)
    all_goals rfl
  · intro u carried usable settled es lasting
    refine ⟨pairwise_entriesByCap d, fun e => (mem_entriesByCap d e).trans (mem_entriesOf d e), sections_completeDirectory rs t d,
      map_completeDirectory rs t d,
      fun i => ⟨fun hnone => ?_, fun e he => ⟨interruptEntry rs t e, ?_, ?_⟩⟩⟩
    · have hslot := slots_completeDirectory rs t d i
      rw [hnone] at hslot
      exact hslot
    · have hcarried : carried e.cap = (rs.filterMap (carriedHead e.cap)).getLast? :=
        congrArg List.getLast? (carriedHead_eq e.cap rs).symm
      refine ⟨interruptEntry_of_closed rs t, fun hopen => ⟨_, interruptEntry_of_open rs t hopen, fun h hh => ?_, fun hnone p hp huse => ?_,
        fun hnone huse => ?_⟩⟩
      · exact interruptedHead_of_carried (hcarried.symm.trans hh)
      · rw [interruptedHead_of_page (hcarried.symm.trans hnone), hp]
        exact if_pos huse
      · rw [interruptedHead_of_page (hcarried.symm.trans hnone)]
        cases hp : physOf e.blocks 0 with
        | none => rfl
        | some p => exact if_neg (huse p hp)
    · have hslot := slots_completeDirectory rs t d i
      rw [he] at hslot
      exact hslot
  · have hblocks := blocks_rebuildBlocks s
    have hrebuilt := rebuildBlocks_blocks s
    generalize rebuildBlocks s = v at hblocks hrebuilt ⊢
    intro u dirty
    have herases : dirtyErases s = dirty.map fun i => .erase .area (4 + i.val) := by
      rw [dirtyErases_eq]
      simp only [← hblocks]
      rfl
    refine ⟨?_, fun i => ?_⟩
    · rw [herases] at hrebuilt
      exact hrebuilt
    · intro b retired owned blank
      rw [hblocks]
      refine ⟨rebuiltBlock_of_retired, fun hret hown => ?_, fun hret hown hblank => ?_, fun hret hown hblank => ?_⟩
      · rw [rebuiltBlock_of_unretired hret]
        cases hfind : (entriesByCap s.dir).find? fun e => e.blocks.contains (some b) with
        | none => exact absurd hown ((find?_owner_eq_none_iff s b).mp hfind)
        | some e =>
          have hmem := List.mem_of_find?_eq_some hfind
          have hholds : e.blocks.contains (some b) = true := List.find?_some (p := fun e : DirEntry => e.blocks.contains (some b)) hfind
          exact ⟨e, (mem_entriesByCap s.dir e).mp hmem, List.contains_iff_mem.mp hholds, rfl⟩
      · rw [rebuiltBlock_of_unretired hret, (find?_owner_eq_none_iff s b).mpr hown]
        exact if_pos ((unerasedPages_isEmpty_iff _ _ _).mpr hblank)
      · rw [rebuiltBlock_of_unretired hret, (find?_owner_eq_none_iff s b).mpr hown]
        exact if_neg (mt (unerasedPages_isEmpty_iff _ _ _).mp hblank)
  · exact ⟨scannedPool s.flash, rfl, scannedPool_of_none, fun k hk hpage hafter => scannedPool_of_last hk hpage hafter⟩

end Sys2Proof.Machine
end

