-- ==== Sys2Proof/Proofs/DirectoryEntries.lean ====
section
/-! PROOFS. Sys2Proof/Proofs/DirectoryEntries.lean: the entries of the directory after one of them is modified. -/

namespace Sys2Proof.Machine

theorem vmap_eq_map {α β : Type} {n : Nat} (f : α → β) (v : Vector α n) : vmap f v = v.map f := by
  ext i hi
  rw [vmap, Vector.getElem_ofFn, Vector.getElem_map]
  rfl

/-- What `modEntry` makes of an entry. -/
def modified (cap : Nat) (f : DirEntry → DirEntry) (e : DirEntry) : DirEntry := if e.cap = cap then f e else e

theorem entriesOf_modEntry (cap : Nat) (f : DirEntry → DirEntry) (d : Directory) :
    entriesOf (modEntry cap f d) = (entriesOf d).map (modified cap f) := by
  simp only [entriesOf, modEntry, vmap_eq_map, Vector.toList_map, List.filterMap_map, List.map_filterMap]
  refine List.filterMap_congr fun x _ => ?_
  cases x with
  | entry e =>
    by_cases h : e.cap = cap <;> simp [modified, h]
  | free => rfl
  | reserved c => rfl

theorem modified_cap {cap : Nat} {f : DirEntry → DirEntry} (hf : ∀ e, (f e).cap = e.cap) (e : DirEntry) :
    (modified cap f e).cap = e.cap := by
  unfold modified
  split
  · exact hf e
  · rfl

/-- Every entry stands where it stood, changed or as it was. -/
theorem findEntry_modEntry {f : DirEntry → DirEntry} (hf : ∀ e, (f e).cap = e.cap) (cap c : Nat) (d : Directory) :
    findEntry (modEntry cap f d) c = (findEntry d c).map (modified cap f) := by
  rw [findEntry, entriesOf_modEntry, List.find?_map]
  refine congrArg (fun p => ((entriesOf d).find? p).map _) (funext fun e => ?_)
  rw [Function.comp, modified_cap hf]

theorem cap_of_findEntry {d : Directory} {c : Nat} {e : DirEntry} (h : findEntry d c = some e) : e.cap = c :=
  of_decide_eq_true (List.find?_some (p := fun e : DirEntry => decide (e.cap = c)) h)

theorem findEntry_modEntry_same {f : DirEntry → DirEntry} (hf : ∀ e, (f e).cap = e.cap) {d : Directory} {c : Nat} {e : DirEntry}
    (h : findEntry d c = some e) : findEntry (modEntry c f d) c = some (f e) := by
  rw [findEntry_modEntry hf, h]
  exact congrArg some (if_pos (cap_of_findEntry h))

theorem findEntry_modEntry_other {f : DirEntry → DirEntry} (hf : ∀ e, (f e).cap = e.cap) {cap c : Nat} (hne : c ≠ cap)
    (d : Directory) : findEntry (modEntry cap f d) c = findEntry d c := by
  rw [findEntry_modEntry hf]
  cases h : findEntry d c with
  | none => rfl
  | some e => exact congrArg some (if_neg fun hcap => hne ((cap_of_findEntry h).symm.trans hcap))

theorem findEntry_map (d : Directory) (ms : List MapEntry) (c : Nat) : findEntry { d with map := ms } c = findEntry d c := rfl

/-! ## Map entries (R162) -/

/-- The damaged words that the map counts for a page. -/
def mappedSize (d : Directory) (source : Nat) : Nat :=
  (d.map.find? fun x => x.source = source).elim 0 fun x => setSize x.poisoned

theorem putMap_eq (m : MapEntry) (d : Directory) : putMap m d =
    { (ownerOf d m.source).elim d fun e =>
        modEntry e.cap (fun c => { c with damaged := min (c.damaged - mappedSize d m.source + setSize m.poisoned) counterMax }) d with
      map := d.map.filter (fun x => x.source ≠ m.source) ++ [m] } := by
  unfold putMap mappedSize
  cases ownerOf d m.source <;> cases d.map.find? fun x => x.source = m.source <;> dsimp only [Option.elim, modEntry]

theorem findEntry_putMap_owner {m : MapEntry} {d : Directory} {e : DirEntry} (howner : ownerOf d m.source = some e)
    (he : findEntry d e.cap = some e) : findEntry (putMap m d) e.cap =
      some { e with damaged := min (e.damaged - mappedSize d m.source + setSize m.poisoned) counterMax } := by
  rw [putMap_eq, howner, findEntry_map]
  exact findEntry_modEntry_same
    (f := fun c => { c with damaged := min (c.damaged - mappedSize d m.source + setSize m.poisoned) counterMax }) (fun _ => rfl) he

end Sys2Proof.Machine
end

