-- ==== Sys2Proof/Proofs/TakenPages.lean ====
section
/-! PROOFS. Sys2Proof/Proofs/TakenPages.lean: taking the words of a page, and an accepted RELOCATE record (R154, R161, R162, R164). -/

namespace Sys2Proof.Machine

/-! ## The error capture record -/

theorem offerError_of_some {s : State} {r : ErrRec} (h : s.integ.error = some r) (kind : ErrKind) (page word : Nat) (op : Operation) :
    offerError kind page word op s = s.onInteg fun g => { g with overflow := true } := by
  rw [offerError, h]

theorem offerError_of_none {s : State} (h : s.integ.error = none) (kind : ErrKind) (page word : Nat) (op : Operation) :
    offerError kind page word op s = raise .errorCaptured (s.onInteg fun g =>
      { g with error := some { kind := kind, page := page, word := word, op := op, time := s.time } }) := by
  rw [offerError, h]

theorem offerClass_of_some {c : WordClass} {ws : List WordRead} {i : Nat} (h : (ws.findIdx? fun w => w.cls = c) = some i)
    (kind : ErrKind) (phys : Nat) (op : Operation) (s : State) : offerClass c kind phys op ws s = offerError kind phys i op s := by
  rw [offerClass, h]

theorem offerClass_of_none {c : WordClass} {ws : List WordRead} (h : (ws.findIdx? fun w => w.cls = c) = none)
    (kind : ErrKind) (phys : Nat) (op : Operation) (s : State) : offerClass c kind phys op ws s = s := by
  rw [offerClass, h]

theorem countClass_eq_zero (c : WordClass) (ws : List WordRead) : countClass c ws = 0 ↔ (ws.findIdx? fun w => w.cls = c) = none := by
  rw [countClass, List.length_eq_zero_iff, List.filter_eq_nil_iff, List.findIdx?_eq_none_iff]
  exact forall₂_congr fun w _ => Bool.not_eq_true _ ▸ Iff.rfl

theorem first_of_countClass {c : WordClass} {ws : List WordRead} (h : countClass c ws ≠ 0) :
    ∃ i, (ws.findIdx? fun w => w.cls = c) = some i :=
  Option.ne_none_iff_exists'.mp fun hnone => h ((countClass_eq_zero c ws).mpr hnone)

/-- The first word of a class. -/
def firstOf (c : WordClass) (ws : List WordRead) (i : Nat) : Prop :=
  (∃ w : WordRead, ws[i]? = some w ∧ w.cls = c) ∧ ∀ (j : Nat) (w : WordRead), j < i → ws[j]? = some w → w.cls ≠ c

theorem findIdx?_of_firstOf {c : WordClass} {ws : List WordRead} {i : Nat} (h : firstOf c ws i) :
    (ws.findIdx? fun w => w.cls = c) = some i := by
  obtain ⟨⟨w, hw, hcls⟩, hbefore⟩ := h
  obtain ⟨hi, rfl⟩ := List.getElem?_eq_some_iff.mp hw
  refine List.findIdx?_eq_some_iff_getElem.mpr ⟨hi, decide_eq_true hcls, fun j hj hword => ?_⟩
  exact hbefore j _ hj (List.getElem?_eq_getElem (hj.trans hi)) (of_decide_eq_true hword)

theorem countClass_of_firstOf {c : WordClass} {ws : List WordRead} {i : Nat} (h : firstOf c ws i) : countClass c ws ≠ 0 := by
  rw [Ne, countClass_eq_zero, findIdx?_of_firstOf h]
  exact Option.some_ne_none i

/-! ## The words of a page before the page is offered to the scrub queue -/

/-- A page's words counted and told of. -/
def tellPage (op : Operation) (phys : Nat) (ws : List WordRead) (s : State) : State :=
  tellClass evErrorPoisoned phys (countClass .poisoned ws) op
    (tellClass evErrorCorrected phys (countClass .corrected ws) op (countWords ws s))

/-- A page's words taken, before the page is offered to the scrub queue. -/
def takeWords (op : Operation) (phys : Nat) (ws : List WordRead) (s : State) : State :=
  offerClass .poisoned .poisoned phys op ws (offerClass .corrected .corrected phys op ws (tellPage op phys ws s))

theorem takePage_offers (op : Operation) (src phys : Nat) (ws : List WordRead) (s : State) : takePage op src phys ws s =
    if op = .retrieve && (countClass .corrected ws ≠ 0 || countClass .poisoned ws ≠ 0) then offerScrub src (takeWords op phys ws s)
    else takeWords op phys ws s := rfl

theorem pagesTaken_takeWords (op : Operation) (phys : Nat) (ws : List WordRead) (s : State) : PagesTaken s (takeWords op phys ws s) := by
  have hcount : PagesTaken s (countWords ws s) := ⟨rfl, rfl, rfl, fun _ => rfl, fun _ _ _ => rfl, id, rfl⟩
  exact (((hcount.trans (pagesTaken_tellClass ..)).trans (pagesTaken_tellClass ..)).trans (pagesTaken_offerClass ..)).trans
    (pagesTaken_offerClass ..)

theorem ring_takeWords (op : Operation) (phys : Nat) (ws : List WordRead) (s : State) :
    (takeWords op phys ws s).ring = pageEvents s.time op phys ws s.ring := by
  rw [takeWords, tellPage, ring_offerClass, ring_offerClass, ring_tellClass, ring_tellClass, time_tellClass]
  rfl

theorem integ_tellClass (kind : Byte) (phys n : Nat) (op : Operation) (s : State) : (tellClass kind phys n op s).integ = s.integ := by
  unfold tellClass
  split <;> rfl

theorem link_tellClass (kind : Byte) (phys n : Nat) (op : Operation) (s : State) : (tellClass kind phys n op s).link = s.link := by
  unfold tellClass
  split <;> rfl

theorem integ_tellPage (op : Operation) (phys : Nat) (ws : List WordRead) (s : State) :
    (tellPage op phys ws s).integ = (countWords ws s).integ := by
  rw [tellPage, integ_tellClass, integ_tellClass]

theorem link_tellPage (op : Operation) (phys : Nat) (ws : List WordRead) (s : State) : (tellPage op phys ws s).link = s.link := by
  rw [tellPage, link_tellClass, link_tellClass]
  rfl

theorem time_tellPage (op : Operation) (phys : Nat) (ws : List WordRead) (s : State) : (tellPage op phys ws s).time = s.time := by
  rw [tellPage, time_tellClass, time_tellClass]
  rfl

theorem counts_offerError (k : ErrKind) (page word : Nat) (op : Operation) (s : State) :
    (offerError k page word op s).integ.corrected = s.integ.corrected ∧
      (offerError k page word op s).integ.poisoned = s.integ.poisoned := by
  unfold offerError
  split <;> exact ⟨rfl, rfl⟩

theorem counts_offerClass (c : WordClass) (kind : ErrKind) (phys : Nat) (op : Operation) (ws : List WordRead) (s : State) :
    (offerClass c kind phys op ws s).integ.corrected = s.integ.corrected ∧
      (offerClass c kind phys op ws s).integ.poisoned = s.integ.poisoned := by
  unfold offerClass
  split
  · exact counts_offerError _ _ _ _ _
  · exact ⟨rfl, rfl⟩

theorem counts_takeWords (op : Operation) (phys : Nat) (ws : List WordRead) (s : State) :
    (takeWords op phys ws s).integ.corrected = min (s.integ.corrected + countClass .corrected ws) 4294967295 ∧
      (takeWords op phys ws s).integ.poisoned = min (s.integ.poisoned + countClass .poisoned ws) 4294967295 := by
  have hlast := counts_offerClass .poisoned .poisoned phys op ws (offerClass .corrected .corrected phys op ws (tellPage op phys ws s))
  have hfirst := counts_offerClass .corrected .corrected phys op ws (tellPage op phys ws s)
  rw [integ_tellPage] at hfirst
  exact ⟨hlast.1.trans hfirst.1, hlast.2.trans hfirst.2⟩

/-- A page without CORRECTED and POISONED words offers nothing. -/
theorem takeWords_clean {op : Operation} {phys : Nat} {ws : List WordRead} {s : State} (hc : countClass .corrected ws = 0)
    (hp : countClass .poisoned ws = 0) : takeWords op phys ws s = tellPage op phys ws s := by
  rw [takeWords, offerClass_of_none ((countClass_eq_zero _ _).mp hc), offerClass_of_none ((countClass_eq_zero _ _).mp hp)]

/-! ## What is offered to the error capture record -/

/-- Something is offered to the error capture record where it holds a record. -/
theorem offerClass_held {s : State} {r : ErrRec} (h : s.integ.error = some r) (c : WordClass) (kind : ErrKind) (phys : Nat)
    (op : Operation) (ws : List WordRead) :
    (offerClass c kind phys op ws s).integ.error = some r ∧ (offerClass c kind phys op ws s).link = s.link ∧
      (offerClass c kind phys op ws s).integ.overflow = (s.integ.overflow || decide (countClass c ws ≠ 0)) := by
  by_cases hnone : countClass c ws = 0
  · rw [offerClass_of_none ((countClass_eq_zero _ _).mp hnone), decide_eq_false (not_not_intro hnone), Bool.or_false]
    exact ⟨h, rfl, rfl⟩
  · obtain ⟨i, hi⟩ := first_of_countClass hnone
    rw [offerClass_of_some hi, offerError_of_some h, decide_eq_true hnone, Bool.or_true]
    exact ⟨h, rfl, rfl⟩

/-- Something is offered to the error capture record where it is free. -/
theorem offerClass_free {s : State} (h : s.integ.error = none) {c : WordClass} {ws : List WordRead} {i : Nat}
    (hi : (ws.findIdx? fun w => w.cls = c) = some i) (kind : ErrKind) (phys : Nat) (op : Operation) :
    (offerClass c kind phys op ws s).integ.error = some { kind := kind, page := phys, word := i, op := op, time := s.time } ∧
      (offerClass c kind phys op ws s).integ.overflow = s.integ.overflow ∧
      ∀ p, ((offerClass c kind phys op ws s).port p).notices = setBit (s.port p).notices 3 true := by
  rw [offerClass_of_some hi, offerError_of_none h]
  refine ⟨rfl, rfl, fun p => ?_⟩
  rw [port_raise]
  rfl

theorem takeWords_held {s : State} {r : ErrRec} (h : s.integ.error = some r) (op : Operation) (phys : Nat) (ws : List WordRead) :
    (takeWords op phys ws s).integ.error = some r ∧ (takeWords op phys ws s).link = s.link ∧
      (countClass .corrected ws ≠ 0 ∨ countClass .poisoned ws ≠ 0 → (takeWords op phys ws s).integ.overflow = true) := by
  have htold : (tellPage op phys ws s).integ.error = some r := by rw [integ_tellPage]; exact h
  obtain ⟨hfirst, hfirstlink, hfirstover⟩ := offerClass_held htold .corrected .corrected phys op ws
  obtain ⟨hlast, hlastlink, hlastover⟩ := offerClass_held hfirst .poisoned .poisoned phys op ws
  refine ⟨hlast, (hlastlink.trans hfirstlink).trans (link_tellPage op phys ws s), fun hany => ?_⟩
  rw [takeWords, hlastover, hfirstover, Bool.or_eq_true, Bool.or_eq_true, decide_eq_true_eq, decide_eq_true_eq]
  rcases hany with hc | hp
  · exact .inl (.inr hc)
  · exact .inr hp

theorem port_of_link {s t : State} (h : t.link = s.link) (p : PortId) : t.port p = s.port p := by
  rw [State.port, State.port, h]

theorem takeWords_corrected {s : State} (h : s.integ.error = none) {op : Operation} {phys : Nat} {ws : List WordRead} {i : Nat}
    (hi : (ws.findIdx? fun w => w.cls = .corrected) = some i) :
    (takeWords op phys ws s).integ.error = some { kind := .corrected, page := phys, word := i, op := op, time := s.time } ∧
      (takeWords op phys ws s).integ.overflow = (s.integ.overflow || decide (countClass .poisoned ws ≠ 0)) ∧
      ∀ p, ((takeWords op phys ws s).port p).notices = setBit (s.port p).notices 3 true := by
  have htold : (tellPage op phys ws s).integ.error = none := by rw [integ_tellPage]; exact h
  obtain ⟨hfirst, hfirstover, hnotices⟩ := offerClass_free htold hi .corrected phys op
  obtain ⟨hlast, hlastlink, hlastover⟩ := offerClass_held hfirst .poisoned .poisoned phys op ws
  rw [time_tellPage] at hlast
  refine ⟨hlast, ?_, fun p => ?_⟩
  · rw [takeWords, hlastover, hfirstover, integ_tellPage]
    rfl
  · rw [takeWords, port_of_link hlastlink, hnotices, port_of_link (link_tellPage op phys ws s)]

theorem takeWords_poisoned {s : State} (h : s.integ.error = none) {op : Operation} {phys : Nat} {ws : List WordRead} {i : Nat}
    (hc : countClass .corrected ws = 0) (hi : (ws.findIdx? fun w => w.cls = .poisoned) = some i) :
    (takeWords op phys ws s).integ.error = some { kind := .poisoned, page := phys, word := i, op := op, time := s.time } ∧
      (takeWords op phys ws s).integ.overflow = s.integ.overflow ∧
      ∀ p, ((takeWords op phys ws s).port p).notices = setBit (s.port p).notices 3 true := by
  have htold : (tellPage op phys ws s).integ.error = none := by rw [integ_tellPage]; exact h
  obtain ⟨herror, hover, hnotices⟩ := offerClass_free htold hi .poisoned phys op
  rw [takeWords, offerClass_of_none ((countClass_eq_zero _ _).mp hc)]
  refine ⟨?_, ?_, fun p => ?_⟩
  · rw [herror, time_tellPage]
  · rw [hover, integ_tellPage]
    rfl
  · rw [hnotices, port_of_link (link_tellPage op phys ws s)]

/-! ## The scrub queue (R161) -/

theorem offerScrub_leaves (page : Nat) (s : State) :
    (offerScrub page s).integ =
        { s.integ with scrub := (offerScrub page s).integ.scrub, scrubDropped := (offerScrub page s).integ.scrubDropped } ∧
      (offerScrub page s).link = s.link := by
  unfold offerScrub
  split
  · exact ⟨rfl, rfl⟩
  · split <;> exact ⟨rfl, rfl⟩

theorem offerScrub_known {page : Nat} {s : State} (h : page ∈ s.integ.scrub) : offerScrub page s = s :=
  if_pos (List.contains_iff_mem.mpr h)

theorem offerScrub_room {page : Nat} {s : State} (hnew : page ∉ s.integ.scrub) (hroom : ¬ 8 ≤ s.integ.scrub.length) :
    offerScrub page s = s.onInteg fun g => { g with scrub := g.scrub ++ [page] } :=
  (if_neg fun h => hnew (List.contains_iff_mem.mp h)).trans (if_pos (Nat.lt_of_not_le hroom))

theorem offerScrub_full {page : Nat} {s : State} (hnew : page ∉ s.integ.scrub) (hfull : 8 ≤ s.integ.scrub.length) :
    offerScrub page s = post .integrity evScrubDropped [page, satInc s.integ.scrubDropped]
      (s.onInteg fun g => { g with scrubDropped := satInc s.integ.scrubDropped }) :=
  (if_neg fun h => hnew (List.contains_iff_mem.mp h)).trans (if_neg (Nat.not_lt.mpr hfull))

theorem takePage_leaves (op : Operation) (src phys : Nat) (ws : List WordRead) (s : State) :
    (takePage op src phys ws s).integ = { (takeWords op phys ws s).integ with
        scrub := (takePage op src phys ws s).integ.scrub
        scrubDropped := (takePage op src phys ws s).integ.scrubDropped } ∧
      (takePage op src phys ws s).link = (takeWords op phys ws s).link := by
  rw [takePage_offers]
  split
  · exact offerScrub_leaves _ _
  · exact ⟨rfl, rfl⟩

/-- The page taken is offered to the scrub queue, which does not hold it. -/
def offersScrub (op : Operation) (src : Nat) (ws : List WordRead) (s : State) : Prop :=
  op = .retrieve ∧ (countClass .corrected ws ≠ 0 ∨ countClass .poisoned ws ≠ 0) ∧ src ∉ s.integ.scrub

theorem takePage_unoffered {op : Operation} {src : Nat} {ws : List WordRead} {s : State} (h : ¬ offersScrub op src ws s) (phys : Nat) :
    takePage op src phys ws s = takeWords op phys ws s := by
  rw [takePage_offers]
  split
  · next hasks =>
    rw [Bool.and_eq_true, decide_eq_true_eq, Bool.or_eq_true, decide_eq_true_eq, decide_eq_true_eq] at hasks
    refine offerScrub_known ?_
    rw [(congrArg Integrity.scrub (pagesTaken_takeWords op phys ws s).integ :)]
    exact not_not.mp fun hnew => h ⟨hasks.1, hasks.2, hnew⟩
  · rfl

theorem takePage_offered {op : Operation} {src : Nat} {ws : List WordRead} {s : State} (h : offersScrub op src ws s) (phys : Nat) :
    takePage op src phys ws s = offerScrub src (takeWords op phys ws s) := by
  obtain ⟨hop, hany, -⟩ := h
  rw [takePage_offers]
  refine if_pos ?_
  rw [Bool.and_eq_true, decide_eq_true_eq, Bool.or_eq_true, decide_eq_true_eq, decide_eq_true_eq]
  exact ⟨hop, hany⟩

/-- What taking a page does where it is not offered to the scrub queue, where the queue takes it, and where it is full. -/
theorem takePage_scrub (op : Operation) (src phys : Nat) (ws : List WordRead) (s : State) :
    (¬ offersScrub op src ws s → (takePage op src phys ws s).integ.scrub = s.integ.scrub ∧
        (takePage op src phys ws s).ring = pageEvents s.time op phys ws s.ring ∧
        (takePage op src phys ws s).integ.scrubDropped = s.integ.scrubDropped) ∧
      (offersScrub op src ws s → ¬ 8 ≤ s.integ.scrub.length →
        (takePage op src phys ws s).integ.scrub = s.integ.scrub ++ [src] ∧
          (takePage op src phys ws s).ring = pageEvents s.time op phys ws s.ring ∧
          (takePage op src phys ws s).integ.scrubDropped = s.integ.scrubDropped) ∧
      (offersScrub op src ws s → 8 ≤ s.integ.scrub.length →
        (takePage op src phys ws s).integ.scrub = s.integ.scrub ∧
          (takePage op src phys ws s).integ.scrubDropped = min (s.integ.scrubDropped + 1) 4294967295 ∧
          (takePage op src phys ws s).ring = (pageEvents s.time op phys ws s.ring).post s.time .integrity 0x17
            [BitVec.ofNat 32 src, BitVec.ofNat 32 (min (s.integ.scrubDropped + 1) 4294967295)]) := by
  have htaken := pagesTaken_takeWords op phys ws s
  have hring := ring_takeWords op phys ws s
  have htime := htaken.time
  have hscrub : (takeWords op phys ws s).integ.scrub = s.integ.scrub := (congrArg Integrity.scrub htaken.integ :)
  have hdropped : (takeWords op phys ws s).integ.scrubDropped = s.integ.scrubDropped :=
    (congrArg Integrity.scrubDropped htaken.integ :)
  refine ⟨fun h => ?_, fun h hroom => ?_, fun h hfull => ?_⟩
  · rw [takePage_unoffered h]
    exact ⟨hscrub, hring, hdropped⟩
  · rw [takePage_offered h]
    generalize takeWords op phys ws s = t at hscrub hring hdropped
    rw [offerScrub_room (hscrub ▸ h.2.2) (hscrub ▸ hroom)]
    exact ⟨congrArg (· ++ [src]) hscrub, hring, hdropped⟩
  · rw [takePage_offered h]
    generalize takeWords op phys ws s = t at hscrub hring hdropped htime
    rw [offerScrub_full (hscrub ▸ h.2.2) (hscrub ▸ hfull), hdropped, ← hring, ← htime]
    exact ⟨hscrub, rfl, rfl⟩

/-! ## Relocated pages (R162) -/

/-- An accepted RELOCATE record. -/
theorem recordAccepted_relocate {x : Slotted} {m : MapEntry} (hwho : x.who = .relocation)
    (hrecord : x.record = .relocate m.source m.pool m.poisoned) (s : State) : recordAccepted x s = relocateAccepted m s := by
  rw [recordAccepted, hwho, hrecord]

theorem relocateAccepted_eq (m : MapEntry) (s : State) : relocateAccepted m s = { s with
    dir := putMap m s.dir
    integ := { s.integ with
      scrub := s.integ.scrub.filter fun p => p ≠ m.source
      reloc := none }
    ring := s.ring.post s.time .integrity evScrubDone [BitVec.ofNat 32 m.source, BitVec.ofNat 32 m.pool] } := rfl

theorem dir_relocateAccepted (m : MapEntry) (s : State) : (relocateAccepted m s).dir = putMap m s.dir := by
  rw [relocateAccepted_eq]

theorem map_putMap (m : MapEntry) (d : Directory) : (putMap m d).map = d.map.filter (fun y => y.source ≠ m.source) ++ [m] := by
  rw [putMap_eq]

theorem takePage_counts (op : Operation) (src phys : Nat) (ws : List WordRead) (s : State) :
    (takePage op src phys ws s).integ.corrected = min (s.integ.corrected + countClass .corrected ws) 4294967295 ∧
      (takePage op src phys ws s).integ.poisoned = min (s.integ.poisoned + countClass .poisoned ws) 4294967295 ∧
      (takePage op src phys ws s).integ.reloc = s.integ.reloc := by
  have htaken := (takePage_leaves op src phys ws s).1
  have hcounts := counts_takeWords op phys ws s
  exact ⟨(congrArg Integrity.corrected htaken :).trans hcounts.1, (congrArg Integrity.poisoned htaken :).trans hcounts.2,
    (congrArg Integrity.reloc htaken :).trans (congrArg Integrity.reloc (pagesTaken_takeWords op phys ws s).integ :)⟩

theorem takePage_captures (op : Operation) (src phys : Nat) (ws : List WordRead) (s : State) :
    (takePage op src phys ws s).integ.error = (takeWords op phys ws s).integ.error ∧
      (takePage op src phys ws s).integ.overflow = (takeWords op phys ws s).integ.overflow :=
  have htaken := (takePage_leaves op src phys ws s).1
  ⟨(congrArg Integrity.error htaken :), (congrArg Integrity.overflow htaken :)⟩

/-- Settles O39: a page's words are counted, told of, offered to the error capture record in the order of their classes, and the page
to the scrub queue; a RELOCATE record puts its map entry. -/
theorem pagesAreTakenAndRelocated : Obligations.PagesAreTakenAndRelocated := by
  refine ⟨fun op source phys ws s => ?_, fun x m s hwho hrecord => ?_⟩
  · intro u count nc np event told firstOf' full offered
    obtain ⟨herror, hover⟩ := takePage_captures op source phys ws s
    have hlink : u.link = (takeWords op phys ws s).link := (takePage_leaves op source phys ws s).2
    have hport : ∀ p, u.port p = (takeWords op phys ws s).port p := port_of_link hlink
    obtain ⟨hcorrected, hpoisoned, hreloc⟩ := takePage_counts op source phys ws s
    obtain ⟨hkept, hqueued, hdropped⟩ := takePage_scrub op source phys ws s
    refine ⟨hcorrected, hpoisoned, hreloc, fun hc hp => ?_, fun hfree => ⟨fun i hi => ?_, fun i hc hi => ?_, fun hany p => ?_⟩,
      fun r hheld => ?_, hkept, hqueued, hdropped⟩
    · rw [herror, hover, hlink, takeWords_clean hc hp, integ_tellPage, link_tellPage]
      exact ⟨rfl, rfl, rfl⟩
    · obtain ⟨he, ho, -⟩ := takeWords_corrected hfree (op := op) (phys := phys) (findIdx?_of_firstOf hi)
      exact ⟨herror.trans he, hover.trans ho⟩
    · obtain ⟨he, ho, -⟩ := takeWords_poisoned hfree (op := op) (phys := phys) hc (findIdx?_of_firstOf hi)
      exact ⟨herror.trans he, hover.trans ho⟩
    · rw [hport]
      by_cases hc : countClass .corrected ws = 0
      · have hp : countClass .poisoned ws ≠ 0 := hany.resolve_left fun h => h hc
        obtain ⟨i, hi⟩ := first_of_countClass hp
        exact (takeWords_poisoned hfree hc hi).2.2 p
      · obtain ⟨i, hi⟩ := first_of_countClass hc
        exact (takeWords_corrected hfree hi).2.2 p
    · obtain ⟨he, hl, ho⟩ := takeWords_held hheld op phys ws
      exact ⟨herror.trans he, hlink.trans hl, fun hany => hover.trans (ho hany)⟩
  · intro u size old
    have hold : old = mappedSize s.dir m.source := by
      unfold old mappedSize
      cases s.dir.map.find? fun y => y.source = m.source <;> rfl
    have hu : u = relocateAccepted m s := recordAccepted_relocate hwho hrecord s
    rw [hold, hu, dir_relocateAccepted]
    exact ⟨map_putMap m s.dir, fun e howner he => findEntry_putMap_owner howner he, rfl, rfl⟩

end Sys2Proof.Machine
end

