-- ==== Sys2Proof/Proofs/Retirements.lean ====
section
/-! PROOFS. Sys2Proof/Proofs/Retirements.lean: the block states, the retirement of pages and blocks, and ended erases (R124, R125, R127,
R128). -/

namespace Sys2Proof.Machine

/-! ## Block states -/

theorem areaBlock_area (i : Fin 60) : areaBlock (4 + i.val) = true := by
  rw [areaBlock, Bool.and_eq_true, decide_eq_true_eq, decide_eq_true_eq]
  omega

theorem areaBlock_fixed {block : Nat} (h : block < 4 ∨ 64 ≤ block) : areaBlock block = false := by
  rw [areaBlock, Bool.and_eq_false_iff, decide_eq_false_iff_not, decide_eq_false_iff_not]
  omega

theorem setBlock_area (i : Fin 60) (b : BlockState) (s : State) :
    setBlock (4 + i.val) b s = { s with store := { s.store with blocks := vset s.store.blocks i b } } := by
  have hindex : areaIndex (4 + i.val) = i.val := Nat.add_sub_cancel_left 4 i.val
  have hin : (areaBlock (4 + i.val) && areaIndex (4 + i.val) < 60) = true := by
    rw [areaBlock_area, hindex, Bool.true_and]
    exact decide_eq_true i.isLt
  have hfin : ∀ h, (⟨areaIndex (4 + i.val), h⟩ : Fin 60) = i := fun _ => Fin.ext hindex
  rw [setBlock, dif_pos hin, hfin]
  rfl

theorem setBlock_fixed {block : Nat} (h : block < 4 ∨ 64 ≤ block) (b : BlockState) (s : State) : setBlock block b s = s := by
  refine dif_neg fun hin => ?_
  rw [areaBlock_fixed h, Bool.false_and] at hin
  exact Bool.false_ne_true hin

theorem blockState_area (i : Fin 60) (s : State) : blockState s (4 + i.val) = some s.store.blocks[i] := by
  rw [blockState, areaBlock_area, areaIndex, firstAreaBlock, Nat.add_sub_cancel_left]
  simp

/-- The capture that a block state names, or 0. -/
def ownerIn (b : BlockState) : Nat :=
  match b with
  | .allotted cap => cap
  | _ => 0

theorem ownerNumber_area (i : Fin 60) (s : State) : ownerNumber s (4 + i.val) = ownerIn s.store.blocks[i] := by
  rw [ownerNumber, blockState_area]
  cases s.store.blocks[i] <;> rfl

theorem lowestFreeBlock_of_first {i : Fin 60} {s : State} (hfree : s.store.blocks[i] = .free)
    (hfirst : ∀ j : Fin 60, j < i → s.store.blocks[j] ≠ .free) : lowestFreeBlock s = some (4 + i.val) := by
  rw [lowestFreeBlock, blocksWhere_finRange, List.head?_map, List.head?_filter]
  have hfound : (List.finRange 60).find? (fun j => decide (s.store.blocks[j] = .free)) = some i := by
    refine List.find?_eq_some_iff_getElem.mpr ⟨decide_eq_true hfree, i.val, ?_, ?_, fun j hj => ?_⟩
    · rw [List.length_finRange]
      exact i.isLt
    · rw [List.getElem_finRange]
      rfl
    · rw [List.getElem_finRange, Bool.not_eq_true', decide_eq_false_iff_not]
      exact hfirst _ hj
  rw [hfound]
  rfl

/-! ## Retirement records -/

/-- A retirement record on its way, or kept until there is room. -/
theorem handRetirement_eq (r : JRec) (s : State) : handRetirement r s = { s with
    dir := if journalRoom s then (hand r .retirement s).dir else s.dir
    store := { s.store with
      unjournaled := if journalRoom s then s.store.unjournaled else s.store.unjournaled ++ [(r, false)] } } := by
  unfold handRetirement
  split <;> rfl

theorem retirePage_eq (page : Nat) (s : State) : retirePage page s = { s with
    dir := if journalRoom s then (hand (.retirePage [page]) .retirement s).dir else s.dir
    store := { s.store with
      retPages := s.store.retPages ++ [page]
      unjournaled := if journalRoom s then s.store.unjournaled else s.store.unjournaled ++ [(.retirePage [page], false)] }
    ring := s.ring.post s.time .store evPageRetired
      [BitVec.ofNat 32 page, BitVec.ofNat 32 (s.store.retPages ++ [page]).length] } := by
  rw [retirePage, handRetirement_eq]
  rfl

theorem retireBlock_eq (i : Fin 60) (cause : RetireCause) (s : State) : retireBlock (4 + i.val) cause s = { s with
    dir := if journalRoom s then (hand (.retireBlock (4 + i.val) cause) .retirement s).dir else s.dir
    store := { s.store with
      blocks := vset s.store.blocks i .retired
      retBlocks := s.store.retBlocks ++ [(4 + i.val, cause)]
      unjournaled := if journalRoom s then s.store.unjournaled
        else s.store.unjournaled ++ [(.retireBlock (4 + i.val) cause, false)] }
    ring := s.ring.post s.time .store evBlockRetired [BitVec.ofNat 32 (4 + i.val), BitVec.ofNat 32 cause.code.toNat,
      BitVec.ofNat 32 (ownerIn s.store.blocks[i])] } := by
  rw [retireBlock, handRetirement_eq, setBlock_area, ownerNumber_area]
  rfl

/-- The record of a retirement, handed over where there is room and kept where there is none. -/
theorem handed_or_kept {r : JRec} {s u : State}
    (hdir : u.dir = if journalRoom s then (hand r .retirement s).dir else s.dir)
    (hkept : u.store.unjournaled =
      if journalRoom s then s.store.unjournaled else s.store.unjournaled ++ [(r, false)]) :
    (journalRoom s = true → u.dir = (hand r .retirement s).dir ∧ u.store.unjournaled = s.store.unjournaled) ∧
      (journalRoom s = false → u.dir = s.dir ∧ u.store.unjournaled = s.store.unjournaled ++ [(r, false)]) := by
  refine ⟨fun h => ?_, fun h => ?_⟩
  · rw [hdir, hkept, h]
    exact ⟨rfl, rfl⟩
  · rw [hdir, hkept, h]
    exact ⟨rfl, rfl⟩

/-! ## A program that failed its verify -/

theorem retireForProgram_known {page : Nat} {s : State} (h : page ∈ s.store.retPages) : retireForProgram page s = s :=
  if_pos (List.contains_iff_mem.mpr h)

theorem retireForProgram_room {page : Nat} {s : State} (h : page ∉ s.store.retPages) (hroom : s.store.retPages.length < 256) :
    retireForProgram page s = retirePage page s :=
  (if_neg fun hin => h (List.contains_iff_mem.mp hin)).trans (if_pos hroom)

theorem retireForProgram_full {page : Nat} {s : State} (h : page ∉ s.store.retPages) (hfull : 256 ≤ s.store.retPages.length) :
    retireForProgram page s = if areaBlock (page / 128) then retireBlock (page / 128) .programFail s else s :=
  (if_neg fun hin => h (List.contains_iff_mem.mp hin)).trans (if_neg (Nat.not_lt.mpr hfull))

theorem retireForProgram_fixed {page : Nat} {s : State} (h : page ∉ s.store.retPages) (hfull : 256 ≤ s.store.retPages.length)
    (hfixed : page / 128 < 4 ∨ 64 ≤ page / 128) : retireForProgram page s = s := by
  rw [retireForProgram_full h hfull, areaBlock_fixed hfixed]
  rfl

theorem retireForProgram_block {page : Nat} {s : State} {i : Fin 60} (h : page ∉ s.store.retPages)
    (hfull : 256 ≤ s.store.retPages.length) (hi : page / 128 = 4 + i.val) :
    retireForProgram page s = retireBlock (4 + i.val) .programFail s := by
  rw [retireForProgram_full h hfull, hi, areaBlock_area]
  rfl

/-! ## Ended erases -/

/-- From `s` to `t` the store's states and tables but for its queue and the ring stand as they were. -/
structure StoreStands (s t : State) : Prop where
  blocks : t.store.blocks = s.store.blocks
  retPages : t.store.retPages = s.store.retPages
  retBlocks : t.store.retBlocks = s.store.retBlocks
  ring : t.ring = s.ring

theorem StoreStands.refl (s : State) : StoreStands s s := ⟨rfl, rfl, rfl, rfl⟩

theorem StoreStands.trans {s t u : State} (h : StoreStands s t) (h' : StoreStands t u) : StoreStands s u :=
  ⟨h'.blocks.trans h.blocks, h'.retPages.trans h.retPages, h'.retBlocks.trans h.retBlocks, h'.ring.trans h.ring⟩

theorem storeStands_noteErase (block : Nat) (done : Bool) (s : State) : StoreStands s (noteErase block done s) := ⟨rfl, rfl, rfl, rfl⟩

theorem storeStands_endStore (st : Status) (fields : List Byte) (s : State) : StoreStands s (endStore st fields s) := by
  unfold endStore
  split
  · exact .refl s
  · exact ⟨rfl, rfl, rfl, rfl⟩

theorem storeStands_storeErased (s : State) : StoreStands s (storeErased s) := by
  unfold storeErased
  split
  · exact ⟨rfl, rfl, rfl, rfl⟩
  · exact storeStands_endStore _ _ s
  · exact .refl s

theorem storeStands_storeFailed (s : State) : StoreStands s (storeFailed s) := by
  unfold storeFailed
  split
  · exact .refl s
  · split
    · exact storeStands_endStore _ _ s
    · split
      · exact storeStands_endStore _ _ s
      · exact ⟨rfl, rfl, rfl, rfl⟩

theorem storeStands_eraseHanded (who : Eraser) (done : Bool) (s : State) : StoreStands s (eraseHanded who done s) := by
  cases who with
  | area => exact .refl s
  | journal =>
    show StoreStands s (if s.dir.comp.state = .clearing then beginSnapshot s else s)
    split
    · exact ⟨rfl, rfl, rfl, rfl⟩
    · exact .refl s
  | pool => exact ⟨rfl, rfl, rfl, rfl⟩
  | settings =>
    cases done with
    | true => exact storeStands_storeErased s
    | false => exact storeStands_storeFailed s

theorem storeStands_reportEraseFail (page word : Nat) (s : State) : StoreStands s (reportEraseFail page word s) := by
  unfold reportEraseFail offerError
  split <;> exact ⟨rfl, rfl, rfl, rfl⟩

theorem reportEraseFail_leaves (page word : Nat) (s : State) :
    (reportEraseFail page word s).time = s.time ∧ (reportEraseFail page word s).integ.eraseFail = satInc s.integ.eraseFail := by
  unfold reportEraseFail offerError
  split <;> exact ⟨rfl, rfl⟩

theorem eraseEnded_done (who : Eraser) (block : Nat) (s : State) : eraseEnded who block [] s =
    noteErase block true (eraseHanded who true (if areaBlock block then setBlock block .free s else s)) := rfl

theorem eraseEnded_failed (who : Eraser) (block p : Nat) (ps : List Nat) (s : State) : eraseEnded who block (p :: ps) s =
    noteErase block false (eraseHanded who false
      (if areaBlock block then retireBlock block .eraseFail (reportEraseFail p (firstUnerased s.flash p) s)
        else retireForErase (p :: ps) (reportEraseFail p (firstUnerased s.flash p) s))) := rfl

/-- The pages of a fixed block are retired while the table has room. -/
theorem retireForErase_tables (pages : List Nat) (s : State) :
    (retireForErase pages s).store.retPages = s.store.retPages ++ pages.take (256 - s.store.retPages.length) ∧
      (retireForErase pages s).store.retBlocks = s.store.retBlocks := by
  induction pages generalizing s with
  | nil =>
    rw [List.take_nil, List.append_nil]
    exact ⟨rfl, rfl⟩
  | cons p ps ih =>
    have hstep : retireForErase (p :: ps) s =
        retireForErase ps (if s.store.retPages.length < 256 then retirePage p s else s) := rfl
    rw [hstep]
    obtain ⟨hpages, hblocks⟩ := ih (if s.store.retPages.length < 256 then retirePage p s else s)
    rw [hpages, hblocks]
    by_cases hroom : s.store.retPages.length < 256
    · have hlength : 256 - s.store.retPages.length = 256 - (s.store.retPages.length + 1) + 1 := by omega
      rw [if_pos hroom, retirePage_eq, hlength, List.take_succ_cons]
      refine ⟨?_, rfl⟩
      rw [List.length_append, List.append_assoc]
      rfl
    · have hlength : 256 - s.store.retPages.length = 0 := by omega
      rw [if_neg hroom, hlength]
      exact ⟨rfl, rfl⟩

/-- An erase of a fixed block. -/
theorem eraseEnded_fixed (who : Eraser) {block : Nat} (bad : List Nat) (s : State) (h : block < 4 ∨ 64 ≤ block) :
    (eraseEnded who block bad s).store.retPages = s.store.retPages ++ bad.take (256 - s.store.retPages.length) ∧
      (eraseEnded who block bad s).store.retBlocks = s.store.retBlocks := by
  cases bad with
  | nil =>
    rw [eraseEnded_done, areaBlock_fixed h, List.take_nil, List.append_nil]
    have hstands := (storeStands_eraseHanded who true s).trans (storeStands_noteErase block true _)
    exact ⟨hstands.retPages, hstands.retBlocks⟩
  | cons p ps =>
    rw [eraseEnded_failed, areaBlock_fixed h, if_neg Bool.false_ne_true]
    have hreport := storeStands_reportEraseFail p (firstUnerased s.flash p) s
    obtain ⟨hpages, hblocks⟩ := retireForErase_tables (p :: ps) (reportEraseFail p (firstUnerased s.flash p) s)
    rw [hreport.retPages] at hpages
    rw [hreport.retBlocks] at hblocks
    generalize retireForErase (p :: ps) (reportEraseFail p (firstUnerased s.flash p) s) = t at hpages hblocks
    have hstands := (storeStands_eraseHanded who false t).trans (storeStands_noteErase block false _)
    exact ⟨hstands.retPages.trans hpages, hstands.retBlocks.trans hblocks⟩

/-- An erase of a capture-area block that ended well. -/
theorem eraseEnded_area_done (i : Fin 60) (s : State) :
    (eraseEnded .area (4 + i.val) [] s).store.blocks = vset s.store.blocks i .free ∧
      (eraseEnded .area (4 + i.val) [] s).ring = s.ring ∧
      (eraseEnded .area (4 + i.val) [] s).store.retBlocks = s.store.retBlocks ∧
      (eraseEnded .area (4 + i.val) [] s).integ = s.integ := by
  rw [eraseEnded_done, areaBlock_area, if_pos rfl, setBlock_area]
  exact ⟨rfl, rfl, rfl, rfl⟩

/-- An erase of a capture-area block that failed. -/
theorem eraseEnded_area_failed (i : Fin 60) {bad : List Nat} {s : State} (hbad : bad ≠ []) (hstate : s.store.blocks[i] = .erasing) :
    (eraseEnded .area (4 + i.val) bad s).store.blocks = vset s.store.blocks i .retired ∧
      (eraseEnded .area (4 + i.val) bad s).store.retBlocks = s.store.retBlocks ++ [(4 + i.val, .eraseFail)] ∧
      (eraseEnded .area (4 + i.val) bad s).ring = s.ring.post s.time .store 0x13 [BitVec.ofNat 32 (4 + i.val), 1, 0] ∧
      (eraseEnded .area (4 + i.val) bad s).integ.eraseFail = satInc s.integ.eraseFail := by
  obtain ⟨p, ps, rfl⟩ := List.exists_cons_of_ne_nil hbad
  rw [eraseEnded_failed, areaBlock_area, if_pos rfl]
  obtain ⟨htime, hfail⟩ := reportEraseFail_leaves p (firstUnerased s.flash p) s
  obtain ⟨hblocks, -, hret, hring⟩ := storeStands_reportEraseFail p (firstUnerased s.flash p) s
  generalize reportEraseFail p (firstUnerased s.flash p) s = t at htime hfail hblocks hret hring
  rw [retireBlock_eq, hblocks, hret, hring, htime, hstate, ← hfail]
  exact ⟨rfl, rfl, rfl, rfl⟩

end Sys2Proof.Machine
end

