-- ==== Sys2Proof/Proofs/RemovedCaptures.lean ====
section
/-! PROOFS. Sys2Proof/Proofs/RemovedCaptures.lean: what the removal of a capture and the allotment of a block do to the block states
and the tables, and a journal program that failed its verify (R124, R139, R145). -/

namespace Sys2Proof.Machine

/-! ## The store in a close for power -/

theorem storeStands_dropBufs (is : List (Fin 4)) (s : State) : StoreStands s (dropBufs is s) := by
  rw [dropBufs_eq]
  exact ⟨rfl, rfl, rfl, rfl⟩

theorem storeStands_withdrawFor (c : Capture) (s : State) : StoreStands s (withdrawFor c s) := by
  rw [withdrawFor_eq]
  exact ⟨rfl, rfl, rfl, rfl⟩

theorem storeStands_reformClose (s : State) : StoreStands s (reformClose s) := by
  cases h : s.engine.capture with
  | none =>
    rw [reformClose_of_none h]
    exact .refl s
  | some c =>
    rw [reformClose_of_some h]
    exact ⟨rfl, rfl, rfl, rfl⟩

theorem storeStands_closeForPower (s : State) : StoreStands s (closeForPower s) :=
  StoreStands.trans (t := setEngState .closing (setCause .power s)) ⟨rfl, rfl, rfl, rfl⟩ (storeStands_reformClose _)

theorem storeStands_flushForPower (c : Capture) (s : State) : StoreStands s (flushForPower c s) := by
  unfold flushForPower
  dsimp only
  generalize lowestBuf (((bufList s).filter fun x => x.2.unstarted).filter fun x => !c.unallotted x.2) = pick
  generalize (((bufList s).filter fun x => x.2.unstarted).filter fun x => decide (some x.1 ≠ pick.map (·.1))) = dropped
  have hleft := (storeStands_dropBufs (dropped.map (·.1)) s).trans (storeStands_withdrawFor c _)
  generalize withdrawFor c (dropBufs (dropped.map (·.1)) s) = left at hleft
  refine StoreStands.trans ?_ ⟨rfl, rfl, rfl, rfl⟩
  cases pick <;> cases (lowestBuf dropped).map (·.2) <;> exact hleft.trans ⟨rfl, rfl, rfl, rfl⟩

theorem storeStands_powerClose (s : State) : StoreStands s (powerClose s) := by
  unfold powerClose
  split
  · exact .refl s
  · split
    · exact storeStands_closeForPower s
    · next c _ _ =>
      exact ((storeStands_flushForPower c s).trans (storeStands_closeForPower _)).trans ⟨rfl, rfl, rfl, rfl⟩

/-- A refused BLOCK_ALLOT record leaves the block FREE. -/
theorem blocks_refuseAllot (i : Fin 60) (s : State) : (refuseAllot (4 + i.val) s).store.blocks = vset s.store.blocks i .free := by
  rw [refuseAllot, setBlock_area]
  exact (storeStands_powerClose _).blocks

theorem store_startErase_area (i : Fin 60) (s : State) : (startErase .area (4 + i.val) s).store =
    { s.store with
      blocks := vset s.store.blocks i .erasing
      flight := some (.erase .area (4 + i.val)) } := by
  have hstart : startErase .area (4 + i.val) s =
      setBlock (4 + i.val) .erasing (s.onStore fun t => { t with flight := some (.erase .area (4 + i.val)) }) := rfl
  rw [hstart, setBlock_area]
  rfl

/-- The lowest FREE block is allotted. -/
theorem allotBlock_free {dry : State → State} {c : Capture} {i : Fin 60} {s : State} (hc : s.engine.capture = some c)
    (hordinary : ordinaryOk s = true) (hroom : journalRoom s = true) (hfree : lowestFreeBlock s = some (4 + i.val)) :
    allotBlock dry s = .did (hand (.blockAllot c.number (4 + i.val)) .engine { s with
      store := { s.store with blocks := vset s.store.blocks i (.allotted c.number) }
      engine := { s.engine with
        capture := some { c with
          blocks := c.blocks ++ [4 + i.val]
          asked := false
          noReclaim := false } } }) := by
  have hneed : needMet (s.onCapture fun c => { c with blocks := c.blocks ++ [4 + i.val] }) = { s with
      engine := { s.engine with
        capture := some { c with
          blocks := c.blocks ++ [4 + i.val]
          asked := false
          noReclaim := false } } } := by
    rw [needMet, onCapture_of_some _ hc, onCapture_of_some _ rfl]
  rw [allotBlock]
  simp only [hc, hordinary, hfree, hroom, Bool.not_true, Bool.false_eq_true, if_false, if_true]
  rw [hneed, setBlock_area]

/-! ## A capture leaves the directory -/

/-- The block is one of the capture's that are not RETIRED. -/
def liveBlock (e : DirEntry) (s : State) (i : Fin 60) : Bool :=
  s.store.blocks[i] = .allotted e.cap && e.blocks.contains (some (4 + i.val))

theorem liveBlocks_eq (s : State) (e : DirEntry) :
    liveBlocks s e = ((List.finRange 60).filter (liveBlock e s)).map fun i => 4 + i.val := by
  rw [liveBlocks, blocksWhere_finRange, List.filter_map, List.filter_filter]
  refine congrArg _ (List.filter_congr fun i _ => ?_)
  exact Bool.and_comm _ _

theorem forEach_setBlock (is : List (Fin 60)) (b : BlockState) (s : State) :
    forEach (is.map fun i => 4 + i.val) (fun k => setBlock k b) s =
      { s with store := { s.store with blocks := Vector.ofFn fun i => if i ∈ is then b else s.store.blocks[i] } } := by
  induction is generalizing s with
  | nil =>
    have hsame : (Vector.ofFn fun i : Fin 60 => if i ∈ ([] : List (Fin 60)) then b else s.store.blocks[i]) = s.store.blocks := by
      ext i hi
      simp
    rw [hsame]
    rfl
  | cons i is ih =>
    have hstep : forEach ((i :: is).map fun i => 4 + i.val) (fun k => setBlock k b) s =
        forEach (is.map fun i => 4 + i.val) (fun k => setBlock k b) (setBlock (4 + i.val) b s) := rfl
    have hset : ∀ j : Fin 60, (vset s.store.blocks i b)[j] = if j = i then b else s.store.blocks[j] := fun j => by
      by_cases hj : j = i
      · rw [hj, if_pos rfl, vset, Fin.getElem_fin, Vector.getElem_set_self]
      · rw [if_neg hj, vset, Fin.getElem_fin, Vector.getElem_set_ne _ _ fun h => hj (Fin.ext h.symm)]
        rfl
    rw [hstep, ih, setBlock_area]
    refine congrArg (fun v => { s with store := { s.store with blocks := v } }) ?_
    refine congrArg Vector.ofFn (funext fun j => ?_)
    by_cases hj : j ∈ is
    · rw [if_pos hj, if_pos (List.mem_cons_of_mem i hj)]
    · rw [if_neg hj, hset]
      exact if_congr (by rw [List.mem_cons, or_iff_left hj]) rfl rfl

theorem dirtied_eq (e : DirEntry) (s : State) :
    forEach (liveBlocks s e) (fun b => setBlock b .dirty) (s.onDir (dropCapture e.cap)) = { s with
      dir := dropCapture e.cap s.dir
      store := { s.store with
        blocks := Vector.ofFn fun i => if liveBlock e s i then .dirty else s.store.blocks[i] } } := by
  rw [liveBlocks_eq, forEach_setBlock]
  refine congrArg (fun v => { s with
    dir := dropCapture e.cap s.dir
    store := { s.store with blocks := v } }) ?_
  refine congrArg Vector.ofFn (funext fun i => if_congr ?_ rfl rfl)
  rw [List.mem_filter]
  exact and_iff_right (List.mem_finRange i)

/-- What the Integrity Unit's queue and the store's queue become where a capture's pages leave. -/
theorem dropScrub_leaves (blocks : List (Option Nat)) (s : State) :
    dropScrub blocks s = { s with
        store := { s.store with queue := (dropScrub blocks s).store.queue }
        integ := (dropScrub blocks s).integ } ∧
      ((dropScrub blocks s).store.queue = s.store.queue ∨
        (dropScrub blocks s).store.queue = s.store.queue.filter fun q => q ≠ .relocation) ∧
      (s.integ.reloc = none →
        (dropScrub blocks s).integ.scrub = s.integ.scrub.filter fun p => !blocks.contains (some (p / 128))) := by
  unfold dropScrub
  split
  · exact ⟨rfl, .inl rfl, fun _ => rfl⟩
  · next r hr =>
    refine ⟨?_, ?_, fun hnone => absurd (hr.symm.trans hnone) (Option.some_ne_none r)⟩
    · split
      · rfl
      · split <;> rfl
    · split
      · exact .inl rfl
      · split
        · exact .inr rfl
        · exact .inl rfl

/-- The directory and the store without a capture. -/
def withoutCapture (e : DirEntry) (s : State) : State :=
  { s with
    dir := dropCapture e.cap s.dir
    store := { s.store with
      blocks := Vector.ofFn fun i => if liveBlock e s i then .dirty else s.store.blocks[i]
      queue := s.store.queue ++ (liveBlocks s e).map fun b => .erase .area b } }

theorem removeCapture_eq (e : DirEntry) (s : State) :
    removeCapture e s = dropAhead e.cap (dropScrub e.blocks (withoutCapture e s)) := by
  rw [removeCapture, enqueueErases_eq, dirtied_eq]
  rfl

/-! ### The directory without the capture -/

theorem entriesOf_dropCapture {e : DirEntry} {d : Directory} (h : findEntry d e.cap = some e) :
    entriesOf (dropCapture e.cap d) = (entriesOf d).filter fun y => y.cap ≠ e.cap := by
  rw [dropCapture, h]
  dsimp only
  rw [entriesOf, entriesOf, vmap_eq_map, Vector.toList_map, List.filterMap_map, List.filter_filterMap]
  refine List.filterMap_congr fun x _ => ?_
  cases x with
  | entry y =>
    by_cases hy : y.cap = e.cap
    · simp [Option.filter, hy]
    · simp [Option.filter, hy]
  | free => rfl
  | reserved c => rfl

theorem findEntry_dropCapture {e : DirEntry} {d : Directory} (h : findEntry d e.cap = some e) :
    findEntry (dropCapture e.cap d) e.cap = none := by
  rw [findEntry, entriesOf_dropCapture h, List.find?_eq_none]
  intro y hy
  rw [List.mem_filter] at hy
  rw [decide_eq_true_eq]
  exact of_decide_eq_true hy.2

/-- The table entry is none of the capture's. -/
def notOfCapture (cap : Nat) (x : SecSlot) : Bool :=
  match x with
  | .entry y => y.cap ≠ cap
  | .reserved c => c ≠ cap

theorem sections_dropCapture {e : DirEntry} {d : Directory} (h : findEntry d e.cap = some e) :
    (dropCapture e.cap d).sections = d.sections.filter fun x => notOfCapture e.cap x.2 := by
  rw [dropCapture, h]
  refine List.filter_congr fun x _ => ?_
  cases x.2 <;> rfl

theorem map_dropCapture {e : DirEntry} {d : Directory} (h : findEntry d e.cap = some e) :
    (dropCapture e.cap d).map = d.map.filter fun m => !e.blocks.contains (some (m.source / 128)) := by
  rw [dropCapture, h]
  rfl

theorem trailers_dropCapture {e : DirEntry} {d : Directory} (h : findEntry d e.cap = some e) :
    (dropCapture e.cap d).trailers = d.trailers.filter fun m => m.cap ≠ e.cap := by
  rw [dropCapture, h]

theorem mem_sections_of_sectionOf {d : Directory} {j : Nat} {y : SecEntry} (h : sectionOf d j = some y) :
    (j, .entry y) ∈ d.sections := by
  unfold sectionOf at h
  split at h
  · next k z hfind =>
    cases h
    have hmem := List.mem_of_find?_eq_some hfind
    have hkey := of_decide_eq_true (List.find?_some hfind :)
    exact hkey ▸ hmem
  · exact absurd h (Option.some_ne_none y).symm
  · exact absurd h (Option.some_ne_none y).symm

theorem sectionOf_dropCapture {e : DirEntry} {d : Directory} (h : findEntry d e.cap = some e) {j : Nat} {y : SecEntry}
    (hy : sectionOf (dropCapture e.cap d) j = some y) : y.cap ≠ e.cap := by
  have hmem := mem_sections_of_sectionOf hy
  rw [sections_dropCapture h, List.mem_filter] at hmem
  exact of_decide_eq_true hmem.2

theorem ahead_dropAhead {cap : Nat} {s : State} {p : PortId} {a : ReadAhead} (h : ((dropAhead cap s).port p).ahead = some a) :
    a.cap ≠ cap := by
  have hport : (dropAhead cap s).port p = (s.port p).withoutAhead cap := by
    simp only [dropAhead, State.port, onLink_link, vmap_get]
  rw [hport, Port.withoutAhead] at h
  split at h
  · next b hb =>
    split at h
    · exact absurd h (Option.some_ne_none a).symm
    · next hne => exact (Option.some.inj (hb.symm.trans h)) ▸ hne
  · next hb => exact absurd (hb.symm.trans h) (Option.some_ne_none a).symm

end Sys2Proof.Machine
end

