-- ==== Sys2Proof/Proofs/FailedPrograms.lean ====
section
/-! PROOFS. Sys2Proof/Proofs/FailedPrograms.lean: what is handed to a program's requester, and a journal program that failed its verify
(R123, R124, R139). -/

namespace Sys2Proof.Machine

/-! ## Results handed to a requester (R123, R124) -/

theorem commitAccepted_of_target {p : PortId} {s : State} {cap slot : Nat} {r : InService}
    (htarget : (s.port p).pad.target = some (cap, slot)) (hservice : (s.port p).service = some r) (page : Nat) :
    programAccepted (.commit p) page s = s.onPort p fun q =>
      { q with service := some { r with wait := .record (.annotate cap slot (s.port p).pad.text.length) false } } := by
  have hstart : programAccepted (.commit p) page s = commitAccepted p s := rfl
  rw [hstart, commitAccepted, htarget]
  dsimp only
  rw [setWait]
  refine onPort_congr p _ _ s ?_
  rw [hservice]
  rfl

theorem relocFlying_iff (page : Nat) (s : State) : relocFlying page s = true ↔
    ∃ r, s.integ.reloc = some r ∧ r.step = .programming ∧ 384 + r.pool = page := by
  unfold relocFlying
  cases s.integ.reloc with
  | none => simp
  | some r =>
    dsimp only
    rw [Bool.and_eq_true, decide_eq_true_eq, decide_eq_true_eq]
    exact ⟨fun h => ⟨r, rfl, h⟩, fun ⟨_, hr, h⟩ => Option.some.inj hr ▸ h⟩

theorem setRelocStep_of_some {s : State} {r : Reloc} (h : s.integ.reloc = some r) (k : RelocStep) :
    setRelocStep k s = { s with integ := { s.integ with reloc := some { r with step := k } } } := by
  rw [setRelocStep, State.onInteg, h, Option.map_some]

/-- The relocation whose program was in flight goes on; any other result of a relocation's program changes nothing. -/
theorem relocation_results (page : Nat) (s : State) :
    (∀ r : Reloc, s.integ.reloc = some r → r.step = .programming → 384 + r.pool = page →
      programAccepted .relocation page s = { s with integ := { s.integ with reloc := some { r with step := .record false } } } ∧
        programFailed .relocation page s = { s with integ := { s.integ with reloc := some { r with step := .needPage } } }) ∧
      ((∀ r : Reloc, s.integ.reloc = some r → r.step ≠ .programming ∨ 384 + r.pool ≠ page) →
        programAccepted .relocation page s = s ∧ programFailed .relocation page s = s) := by
  have haccepted : programAccepted .relocation page s = if relocFlying page s then setRelocStep (.record false) s else s := rfl
  have hfailed : programFailed .relocation page s = if relocFlying page s then setRelocStep .needPage s else s := rfl
  rw [haccepted, hfailed]
  refine ⟨fun r hr hstep hpage => ?_, fun hother => ?_⟩
  · have hflying := (relocFlying_iff page s).mpr ⟨r, hr, hstep, hpage⟩
    rw [if_pos hflying, if_pos hflying, setRelocStep_of_some hr, setRelocStep_of_some hr]
    exact ⟨rfl, rfl⟩
  · have hstill : ¬ relocFlying page s = true := fun h => by
      obtain ⟨r, hr, hstep, hpage⟩ := (relocFlying_iff page s).mp h
      exact (hother r hr).elim (fun hne => hne hstep) fun hne => hne hpage
    rw [if_neg hstill, if_neg hstill]
    exact ⟨rfl, rfl⟩

/-! ## A compaction that slots start (R139, R140) -/

theorem compactionDue_iff (s : State) : compactionDue s = true ↔ s.dir.comp.state = .none ∧ s.ready = true ∧
    s.monitor.state = .normal ∧ s.dir.eraseAll = none ∧ 2048 - s.dir.nextSlot < 64 ∧
      (s.dir.comp.paused = false ∨ 2048 ≤ s.dir.nextSlot) := by
  simp only [compactionDue, Bool.and_eq_true, Bool.or_eq_true, decide_eq_true_eq, isNormal_iff, Option.isNone_iff_eq_none,
    Bool.not_eq_true', and_assoc]
  exact Iff.rfl

theorem startCompaction_of_iff {s : State} {P : Prop} [Decidable P] (h : compactionDue s = true ↔ P) : startCompaction s =
    { s with dir := if P then { s.dir with comp := { Compaction.initial with state := .clearing } } else s.dir } := by
  rw [startCompaction_eq]
  by_cases hp : P
  · rw [if_pos (h.mpr hp), if_pos hp]
  · rw [if_neg fun hd => hp (h.mp hd), if_neg hp]

theorem reformClose_leaves (s : State) : reformClose s = { s with dir := (reformClose s).dir } := by
  cases h : s.engine.capture with
  | none => rw [reformClose_of_none h]
  | some c => rw [reformClose_of_some h, State.onDir]

theorem programFailed_journal (page : Nat) (s : State) : programFailed .journal page s =
    reformClose (startCompaction { s with dir := moveOn s.store.retPages page s.dir }) := rfl

theorem verifyFailed_journal (page word : Nat) (s : State) : verifyFailed .journal page word s =
    reportProgramFail .verify page word (if leftSlots s (programFailed .journal page s)
      then retireBehind s.dir.slotted.length page (programFailed .journal page s)
      else retireForProgram page (programFailed .journal page s)) := rfl

theorem leftSlots_iff (s t : State) : leftSlots s t = true ↔
    s.dir.comp.state ≠ .writing ∧ s.dir.slotted ≠ [] ∧ t.dir.slotted = [] := by
  simp [leftSlots, and_assoc]

theorem retireBehind_of_not {k page : Nat} {s : State} (h : ¬ (page ∉ s.store.retPages ∧ s.store.retPages.length < 256)) :
    retireBehind k page s = s := by
  refine if_pos ?_
  rw [Bool.or_eq_true, decide_eq_true_eq, List.contains_iff_mem, retiredMax]
  by_cases hin : page ∈ s.store.retPages
  · exact .inl hin
  · exact .inr (Nat.le_of_not_lt fun hlt => h ⟨hin, hlt⟩)

theorem retireBehind_eq {k page : Nat} {s : State} (h : page ∉ s.store.retPages ∧ s.store.retPages.length < 256) :
    retireBehind k page s = post .store 0x12 [page, s.store.retPages.length + 1] { s with
      store := { s.store with retPages := s.store.retPages ++ [page] }
      dir := { s.dir with
        pending := s.dir.pending.take k ++ [(.retirePage [page], .retirement)] ++ s.dir.pending.drop k } } := by
  have hcond : ¬ (s.store.retPages.contains page || decide (retiredMax ≤ s.store.retPages.length)) = true := by
    rw [Bool.or_eq_true, decide_eq_true_eq, List.contains_iff_mem, retiredMax]
    exact fun hor => hor.elim h.1 (Nat.not_le.mpr h.2)
  refine (if_neg hcond).trans ?_
  have hlength : s.store.retPages.length + 1 = (s.store.retPages ++ [page]).length :=
    (List.length_append (as := s.store.retPages) (bs := [page])).symm
  rw [hlength]
  rfl

/-- Settles O37: one equation for each operation of the store, by the tables that it leaves. -/
theorem retirementsAndBlockStates : Obligations.RetirementsAndBlockStates := by
  refine ⟨fun page s => ?_, fun who page word s => ?_, fun block bad s => ?_, fun who block bad s h => ?_, fun i s => ?_,
    fun e s he => ?_, fun p page s => ?_, fun page word s => ?_⟩
  · intro u b onItsWay
    refine ⟨fun h => retireForProgram_known h, fun h hroom => ?_, fun i h hfull hi => ?_, fun h hfull hfixed => ?_⟩
    · have hu : u = retirePage page s := retireForProgram_room h hroom
      rw [retirePage_eq] at hu
      refine ⟨(congrArg (fun t : State => t.store.retPages) hu :), (congrArg (fun t : State => t.store.retBlocks) hu :),
        (congrArg (fun t : State => t.store.blocks) hu :), handed_or_kept (congrArg State.dir hu)
          (congrArg (fun t : State => t.store.unjournaled) hu), (congrArg State.ring hu).trans ?_⟩
      rw [List.length_append]
      rfl
    · have hb : 4 + i.val = b := hi.symm
      have hu : u = retireBlock (4 + i.val) .programFail s := retireForProgram_block h hfull hi
      rw [retireBlock_eq] at hu
      intro owner
      have howner : owner = ownerIn s.store.blocks[i] := by
        unfold owner
        cases s.store.blocks[i] <;> rfl
      rw [howner, ← hb]
      exact ⟨(congrArg (fun t : State => t.store.retPages) hu :), (congrArg (fun t : State => t.store.retBlocks) hu :),
        (congrArg (fun t : State => t.store.blocks) hu :), handed_or_kept (congrArg State.dir hu)
          (congrArg (fun t : State => t.store.unjournaled) hu), congrArg State.ring hu⟩
    · exact retireForProgram_fixed h hfull hfixed
  · refine ⟨fun hwho => ?_, rfl⟩
    cases who with
    | journal => exact absurd rfl hwho
    | buf i => rfl
    | relocation => rfl
    | commit p => rfl
    | settings => rfl
  · refine ⟨fun i hi hbad => ?_, fun i hi hbad hstate => ?_⟩
    · subst hi hbad
      exact eraseEnded_area_done i s
    · subst hi
      exact eraseEnded_area_failed i hbad hstate
  · exact eraseEnded_fixed who bad s h
  · refine ⟨store_startErase_area i s, blocks_refuseAllot i s, fun dry c hc hordinary hroom hfree hfirst => ?_⟩
    refine ⟨_, allotBlock_free hc hordinary hroom (lowestFreeBlock_of_first hfree hfirst), ?_, ?_, ?_⟩
    · rw [hand_tables]
    · rfl
    · rw [hand_tables]
  · intro u live erases
    have herases : (liveBlocks s e).map (fun b => QReq.erase .area b) = erases := by
      rw [liveBlocks_eq, List.map_map]
      rfl
    obtain ⟨hkeeps, hqueue, hscrub⟩ := dropScrub_leaves e.blocks (withoutCapture e s)
    have hu : u = dropAhead e.cap (dropScrub e.blocks (withoutCapture e s)) := removeCapture_eq e s
    have hdir : u.dir = dropCapture e.cap s.dir :=
      (congrArg State.dir hu).trans (congrArg State.dir hkeeps)
    have hblocks : u.store.blocks = (withoutCapture e s).store.blocks :=
      (congrArg (fun t : State => t.store.blocks) hu).trans (congrArg (fun t : State => t.store.blocks) hkeeps :)
    have hstore : u.store.queue = (dropScrub e.blocks (withoutCapture e s)).store.queue :=
      (congrArg (fun t : State => t.store.queue) hu :)
    have hinteg : u.integ = (dropScrub e.blocks (withoutCapture e s)).integ := (congrArg State.integ hu :)
    rw [hdir, hblocks, hstore, hinteg]
    refine ⟨rfl, ?_, findEntry_dropCapture he, fun j y => sectionOf_dropCapture he, map_dropCapture he, trailers_dropCapture he,
      fun p a ha => ?_, hscrub⟩
    · rw [← herases]
      refine hqueue.imp id fun hq => hq.trans ?_
      refine (List.filter_append ..).trans (congrArg (_ ++ ·) (List.filter_eq_self.mpr fun q hq => ?_))
      obtain ⟨b, -, rfl⟩ := List.mem_map.mp hq
      rfl
    · rw [hu] at ha
      exact ahead_dropAhead ha
  · exact ⟨fun cap slot r htarget hservice => commitAccepted_of_target htarget hservice page, rfl,
      (relocation_results page s).1, (relocation_results page s).2, rfl⟩
  · intro report d starts moved left retirable n
    have hmoved : programFailed .journal page s = moved := by
      have hdue : compactionDue { s with dir := d } = true ↔ starts := compactionDue_iff _
      rw [programFailed_journal, startCompaction_of_iff hdue]
    have hstore : moved.store = s.store := (congrArg State.store (reformClose_leaves _) :)
    have hleft : leftSlots s moved = true ↔ left := leftSlots_iff s moved
    rw [verifyFailed_journal, hmoved]
    refine ⟨fun hnot => ?_, fun hl hfull => ?_, fun hl hroom => ?_⟩
    · rw [if_neg fun h => hnot (hleft.mp h)]
    · rw [if_pos (hleft.mpr hl), retireBehind_of_not (by rw [hstore]; exact hfull)]
    · rw [if_pos (hleft.mpr hl), retireBehind_eq (by rw [hstore]; exact hroom), hstore]

end Sys2Proof.Machine
end

