-- ==== Sys2Proof/Proofs/RecordEffects.lean ====
section
/-! PROOFS. Sys2Proof/Proofs/RecordEffects.lean: where a record that is handed over stands, and the effect of the records on the
directory's entries and sections (R138, R139, R140). -/

namespace Sys2Proof.Machine

/-! ## Records handed over (R139, R140) -/

/-- A compaction starts with the slot given next. -/
def slotStarts (s : State) : Prop :=
  s.ready = true ∧ s.monitor.state = .normal ∧ s.dir.eraseAll = none ∧ 2048 - (s.dir.nextSlot + 1) < 64

theorem compactionDue_giveSlot {s : State} (h : s.dir.comp.state = .none) (r : JRec) (who : Who) :
    compactionDue { s with dir := giveSlot r who s.dir } = true ↔ slotStarts s := by
  rw [compactionDue_iff]
  exact ⟨fun ⟨_, hready, hnormal, hall, hfew, _⟩ => ⟨hready, hnormal, hall, hfew⟩,
    fun ⟨hready, hnormal, hall, hfew⟩ => ⟨h, hready, hnormal, hall, hfew, .inl rfl⟩⟩

/-- The directory in which a record has the next slot. -/
def slotGiven (r : JRec) (who : Who) (comp : Compaction) (d : Directory) : Directory :=
  { d with
    slotted := d.slotted ++
      [{ block := d.active, slot := d.nextSlot, seq := d.nextSeq, record := r, who := who, flying := false }]
    nextSlot := d.nextSlot + 1
    nextSeq := d.nextSeq + 1
    comp := comp }

theorem hand_starts {s : State} (h : s.dir.comp.state = .none) (hstarts : slotStarts s) (r : JRec) (who : Who) :
    hand r who s = { s with dir := slotGiven r who { Compaction.initial with state := .clearing } s.dir } := by
  rw [hand_slot r who s h, startCompaction_eq, if_pos ((compactionDue_giveSlot h r who).mpr hstarts)]
  rfl

theorem hand_waits {s : State} (h : s.dir.comp.state = .none) (hstarts : ¬ slotStarts s) (r : JRec) (who : Who) :
    hand r who s = { s with dir := slotGiven r who { s.dir.comp with paused := false } s.dir } := by
  rw [hand_slot r who s h, startCompaction_eq, if_neg fun hdue => hstarts ((compactionDue_giveSlot h r who).mp hdue)]
  rfl

/-! ## Sections -/

theorem sections_modEntry (cap : Nat) (f : DirEntry → DirEntry) (d : Directory) : (modEntry cap f d).sections = d.sections := by
  rw [modEntry]

theorem sections_putSection (i : Nat) (y : SecEntry) (d : Directory) :
    (putSection i y d).sections = d.sections.filter (fun x => x.1 ≠ i) ++ [(i, .entry y)] := by
  rw [putSection, sections_modEntry]

theorem sectionOf_putSection_same (i : Nat) (y : SecEntry) (d : Directory) : sectionOf (putSection i y d) i = some y := by
  have hnone : (d.sections.filter fun x => x.1 ≠ i).find? (fun x => x.1 = i) = none := by
    rw [List.find?_eq_none]
    intro x hx
    rw [List.mem_filter] at hx
    rw [decide_eq_true_eq]
    exact of_decide_eq_true hx.2
  rw [sectionOf, sections_putSection, List.find?_append, hnone, Option.none_or,
    List.find?_cons_of_pos (p := fun x : Nat × SecSlot => decide (x.1 = i)) (decide_eq_true rfl)]

theorem sectionOf_putSection_other {i j : Nat} (hj : j ≠ i) (y : SecEntry) (d : Directory) :
    sectionOf (putSection i y d) j = sectionOf d j := by
  have hfind : (putSection i y d).sections.find? (fun x => x.1 = j) = d.sections.find? fun x => x.1 = j := by
    rw [sections_putSection, List.find?_append, List.find?_cons_of_neg (by rw [decide_eq_true_eq]; exact hj.symm), List.find?_nil,
      Option.or_none, List.find?_filter]
    refine congrArg (fun p => d.sections.find? p) (funext fun x => ?_)
    by_cases hx : x.1 = j
    · simp [hx, hj]
    · simp [hx]
  rw [sectionOf, sectionOf, hfind]

/-- The entry with a section in its list. -/
def withSection (i : Nat) (e : DirEntry) : DirEntry :=
  { e with sections := if i ∈ e.sections then e.sections else e.sections ++ [i] }

theorem findEntry_putSection (i : Nat) (y : SecEntry) (d : Directory) (c : Nat) :
    findEntry (putSection i y d) c = (findEntry d c).map (modified y.cap (withSection i)) := by
  have hput : putSection i y d =
      modEntry y.cap (withSection i) { d with sections := d.sections.filter (fun x => x.1 ≠ i) ++ [(i, .entry y)] } := by
    refine congrArg (fun f => modEntry y.cap f { d with sections := d.sections.filter (fun x => x.1 ≠ i) ++ [(i, .entry y)] }) ?_
    funext e
    unfold withSection
    by_cases hi : i ∈ e.sections
    · rw [if_pos hi, if_pos (List.contains_iff_mem.mpr hi)]
    · rw [if_neg hi, if_neg fun hin => hi (List.contains_iff_mem.mp hin)]
  rw [hput, findEntry_modEntry (f := withSection i) fun _ => rfl]
  rfl

/-- The entry with a head page. -/
def withHead (head : Option Nat) (e : DirEntry) : DirEntry := { e with head := head }

/-- A section's record puts its table entry and the capture's head page. -/
def recordSection (i : Nat) (y : SecEntry) (head : Option Nat) (d : Directory) : Directory :=
  putSection i y (modEntry y.cap (withHead head) d)

theorem findEntry_recordSection_same {y : SecEntry} {d : Directory} {e : DirEntry} (h : findEntry d y.cap = some e) (i : Nat)
    (head : Option Nat) : findEntry (recordSection i y head d) y.cap = some
      { e with
        head := head
        sections := if i ∈ e.sections then e.sections else e.sections ++ [i] } := by
  have hcap : e.cap = y.cap := cap_of_findEntry h
  rw [recordSection, findEntry_putSection, findEntry_modEntry_same (f := withHead head) (fun _ => rfl) h, Option.map_some, modified,
    if_pos (show (withHead head e).cap = y.cap from hcap)]
  rfl

theorem findEntry_recordSection_other {y : SecEntry} {c : Nat} (hne : c ≠ y.cap) (i : Nat) (head : Option Nat) (d : Directory) :
    findEntry (recordSection i y head d) c = findEntry d c := by
  rw [recordSection, findEntry_putSection, findEntry_modEntry_other (f := withHead head) (fun _ => rfl) hne]
  cases h : findEntry d c with
  | none => rfl
  | some e => exact congrArg some (if_neg fun hcap => hne ((cap_of_findEntry h).symm.trans hcap))

theorem sectionOf_recordSection (i : Nat) (y : SecEntry) (head : Option Nat) (d : Directory) :
    sectionOf (recordSection i y head d) i = some y ∧
      ∀ j : Nat, j ≠ i → sectionOf (recordSection i y head d) j = sectionOf d j := by
  refine ⟨sectionOf_putSection_same i y _, fun j hj => (sectionOf_putSection_other hj y _).trans ?_⟩
  rw [sectionOf, sections_modEntry, sectionOf]

/-! ## The effect of each record (R138) -/

theorem recordEffect_sectionBegin {d : Directory} {cap index i : Nat} {e : DirEntry} (he : findEntry d cap = some e)
    (hi : sectionPlace d cap index = some i) (entry : Nat) (kind : SecKind) (first : Nat) (start : PartTime) (head : Option Nat) :
    recordEffect (.sectionBegin cap index entry kind first start head) d = recordSection i
      { cap := cap, index := index, entry := entry, kind := kind, status := .inProgress, len := 0, first := first, pages := 0
        gaps := 0, start := start } head d := by
  rw [recordEffect, he, hi]
  rfl

/-- The start that a section's table entry keeps. -/
def keptStart (d : Directory) (i : Nat) : PartTime := (sectionOf d i).elim 0 SecEntry.start

theorem recordEffect_sectionDone {d : Directory} {cap index i : Nat} {e : DirEntry} (he : findEntry d cap = some e)
    (hi : sectionPlace d cap index = some i) (entry : Nat) (kind : SecKind) (outcome : OutcomeCode) (len first pages gaps : Nat)
    (head : Option Nat) :
    recordEffect (.sectionDone cap index entry kind outcome len first pages gaps head) d = recordSection i
      { cap := cap, index := index, entry := entry, kind := kind, status := outcome, len := len, first := first, pages := pages
        gaps := min gaps 65535, start := keptStart d i } head d := by
  rw [recordEffect, he, hi, keptStart]
  dsimp only
  cases sectionOf d i <;> rfl

theorem recordEffect_section_none {d : Directory} {cap index : Nat} (h : findEntry d cap = none ∨ sectionPlace d cap index = none) :
    (∀ (entry : Nat) (kind : SecKind) (first : Nat) (start : PartTime) (head : Option Nat),
      recordEffect (.sectionBegin cap index entry kind first start head) d = d) ∧
      ∀ (entry : Nat) (kind : SecKind) (outcome : OutcomeCode) (len first pages gaps : Nat) (head : Option Nat),
        recordEffect (.sectionDone cap index entry kind outcome len first pages gaps head) d = d := by
  rcases h with h | h
  · refine ⟨fun _ _ _ _ _ => ?_, fun _ _ _ _ _ _ _ _ => ?_⟩ <;> rw [recordEffect, h]
  · refine ⟨fun _ _ _ _ _ => ?_, fun _ _ _ _ _ _ _ _ => ?_⟩ <;> rw [recordEffect, h] <;> cases findEntry d cap <;> rfl

/-- What a record that changes its capture's entry alone makes of it. -/
def entryEffect (r : JRec) (e : DirEntry) : DirEntry :=
  match r with
  | .blockAllot _ b => { e with blocks := e.blocks ++ [some b] }
  | .blockList _ position bl => { e with blocks := placeBlocks e.blocks position bl }
  | .captureClose _ outcome closeTime trig head =>
    { e with
      state := .closed
      outcome := some outcome
      closeTime := some closeTime
      trig := trig
      head := head }
  | .captureSummary _ true outcome trig closeTime head held slots =>
    { e with
      state := .closed
      outcome := outcome
      closeTime := some closeTime
      trig := trig
      head := head
      held := held
      slots := slots }
  | .captureSummary _ false _ trig _ head held slots => { e with trig := trig, head := head, held := held, slots := slots }
  | .hold _ => { e with held := true }
  | .release _ => { e with held := false }
  | .annotate _ slot _ => { e with slots := setBit e.slots slot true }
  | _ => e

theorem entryEffect_cap (r : JRec) (e : DirEntry) : (entryEffect r e).cap = e.cap := by
  unfold entryEffect
  split <;> rfl

/-- The record has a part beyond its capture's entry: a section's, or the removal of the capture. -/
def beyondEntry : JRec → Bool
  | .sectionBegin .. | .sectionDone .. | .delete .. => true
  | _ => false

theorem recordEffect_entry {r : JRec} {cap : Nat} (hnames : r.names = some cap) (halone : beyondEntry r = false) (d : Directory) :
    recordEffect r d = modEntry cap (entryEffect r) d := by
  cases r
  case sectionBegin => exact absurd halone Bool.noConfusion
  case sectionDone => exact absurd halone Bool.noConfusion
  case delete => exact absurd halone Bool.noConfusion
  case captureSummary c closed o g t hd held slots =>
    cases hnames
    cases closed <;> rw [recordEffect] <;> rfl
  case blockAllot => cases hnames; rw [recordEffect]; rfl
  case blockList => cases hnames; rw [recordEffect]; rfl
  case captureClose => cases hnames; rw [recordEffect]; rfl
  case hold => cases hnames; rw [recordEffect]; rfl
  case release => cases hnames; rw [recordEffect]; rfl
  case annotate => cases hnames; rw [recordEffect]; rfl
  all_goals exact absurd hnames (Option.some_ne_none cap).symm

theorem findEntry_recordEffect {r : JRec} {cap : Nat} {d : Directory} {e : DirEntry} (hnames : r.names = some cap)
    (halone : beyondEntry r = false) (he : findEntry d cap = some e) : findEntry (recordEffect r d) cap = some (entryEffect r e) := by
  rw [recordEffect_entry hnames halone]
  exact findEntry_modEntry_same (f := entryEffect r) (entryEffect_cap r) he

/-! ### Records of a capture that the directory does not hold -/

theorem findEntry_eq_none {d : Directory} {cap : Nat} : findEntry d cap = none ↔ ∀ i : Fin 32, ∀ e, d.slots[i] = .entry e → e.cap ≠ cap := by
  rw [findEntry, List.find?_eq_none]
  refine ⟨fun h i e hi => ?_, fun h e he => ?_⟩
  · exact fun hcap => h e ((mem_entriesOf d e).mpr ⟨i, hi⟩) (decide_eq_true hcap)
  · obtain ⟨i, hi⟩ := (mem_entriesOf d e).mp he
    exact fun hcap => h i e hi (of_decide_eq_true hcap)

theorem modEntry_of_none {d : Directory} {cap : Nat} (h : findEntry d cap = none) (f : DirEntry → DirEntry) : modEntry cap f d = d := by
  refine congrArg (fun v => { d with slots := v }) (Vector.ext fun i hi => ?_)
  rw [vmap, Vector.getElem_ofFn]
  have hother := findEntry_eq_none.mp h ⟨i, hi⟩
  rw [Fin.getElem_fin] at hother ⊢
  dsimp only at hother ⊢
  cases hx : d.slots[i] with
  | entry e => exact if_neg (hother e hx)
  | free => rfl
  | reserved c => rfl

theorem findEntry_dropCapture_other {d : Directory} {cap c : Nat} (hne : c ≠ cap) :
    findEntry (dropCapture cap d) c = findEntry d c := by
  cases h : findEntry d cap with
  | none => rw [dropCapture, h]
  | some e =>
    have hcap : e.cap = cap := cap_of_findEntry h
    subst hcap
    rw [findEntry, entriesOf_dropCapture h, List.find?_filter, findEntry]
    refine congrArg (fun p => (entriesOf d).find? p) (funext fun y => ?_)
    by_cases hy : y.cap = c
    · simp [hy, hne]
    · simp [hy]

/-- A record of a capture that the directory does not hold has no effect. -/
theorem recordEffect_of_absent {r : JRec} {cap : Nat} {d : Directory} (hnames : r.names = some cap) (h : findEntry d cap = none) :
    recordEffect r d = d := by
  by_cases halone : beyondEntry r = false
  · rw [recordEffect_entry hnames halone, modEntry_of_none h]
  · cases r
    case sectionBegin => cases hnames; exact (recordEffect_section_none (.inl h)).1 ..
    case sectionDone => cases hnames; exact (recordEffect_section_none (.inl h)).2 ..
    case delete => cases hnames; rw [recordEffect, dropCapture, h]
    all_goals exact absurd rfl halone

/-- A capture's record leaves the entries of the others. -/
theorem findEntry_recordEffect_other {r : JRec} {cap other : Nat} (hnames : r.names = some cap) (hne : other ≠ cap) (d : Directory) :
    findEntry (recordEffect r d) other = findEntry d other := by
  cases he : findEntry d cap with
  | none => rw [recordEffect_of_absent hnames he]
  | some e =>
    by_cases halone : beyondEntry r = false
    · rw [recordEffect_entry hnames halone, findEntry_modEntry_other (f := entryEffect r) (entryEffect_cap r) hne]
    · cases r
      case sectionBegin c index entry kind first start head =>
        cases hnames
        cases hi : sectionPlace d cap index with
        | none => rw [(recordEffect_section_none (.inr hi)).1]
        | some i => rw [recordEffect_sectionBegin he hi, findEntry_recordSection_other hne]
      case sectionDone c index entry kind o len first pages gaps head =>
        cases hnames
        cases hi : sectionPlace d cap index with
        | none => rw [(recordEffect_section_none (.inr hi)).2]
        | some i => rw [recordEffect_sectionDone he hi, findEntry_recordSection_other hne]
      case delete c why =>
        cases hnames
        rw [recordEffect, findEntry_dropCapture_other hne]
      all_goals exact absurd rfl halone

/-! ### CAPTURE_OPEN -/

theorem recordEffect_captureOpen {d : Directory} {cap : Nat} {i : Fin 32} (hslot : slotForOpen d cap = some i.val) (trig : TrigSet)
    (first : Nat) (valid : Bool) (openTime : PartTime) (epoch : BitVec 64) :
    recordEffect (.captureOpen cap trig first valid openTime epoch) d =
      { d with slots := vset d.slots i (.entry (freshEntry cap trig first valid openTime epoch)) } := by
  rw [recordEffect, hslot]
  exact setSlot_fin i _ d

theorem slotForOpen_reserved {d : Directory} {cap : Nat} {i : Fin 32} (hi : d.slots[i] = .reserved cap)
    (hfirst : ∀ j : Fin 32, j < i → d.slots[j] ≠ .reserved cap) : slotForOpen d cap = some i.val := by
  have hfind : d.slots.toList.findIdx? (fun x => x = .reserved cap) = some i.val := by
    rw [List.findIdx?_eq_some_iff_getElem]
    refine ⟨by simp, ?_, fun j hj => ?_⟩
    · rw [Vector.getElem_toList]
      exact decide_eq_true hi
    · rw [Vector.getElem_toList, decide_eq_true_eq]
      exact hfirst ⟨j, hj.trans i.isLt⟩ hj
  rw [slotForOpen, hfind]

theorem slotForOpen_unreserved {d : Directory} {cap : Nat} (h : ∀ j : Fin 32, d.slots[j] ≠ .reserved cap) :
    slotForOpen d cap = lowestFreeSlot d := by
  have hfind : d.slots.toList.findIdx? (fun x => x = .reserved cap) = none := by
    rw [List.findIdx?_eq_none_iff]
    intro x hx
    obtain ⟨j, hj, rfl⟩ := List.getElem_of_mem hx
    rw [Vector.getElem_toList]
    exact decide_eq_false (h ⟨j, by simpa using hj⟩)
  rw [slotForOpen, hfind]

end Sys2Proof.Machine
end

