-- ==== Sys2Proof/Proofs/ReturnedRecords.lean ====
section
/-! PROOFS. Sys2Proof/Proofs/ReturnedRecords.lean: accepted records, and what the records of a refused journal program are returned to
(R112, R139). -/

namespace Sys2Proof.Machine

/-! ## Accepted records (R139) -/

theorem recordAccepted_engine {x : Slotted} (hwho : x.who = .engine) (hclose : ∀ cap o t g h, x.record ≠ .captureClose cap o t g h)
    (s : State) : recordAccepted x s = { s with dir := recordEffect x.record s.dir } := by
  rw [recordAccepted, hwho]
  cases hr : x.record
  case captureClose cap o t g h => exact absurd hr (hclose cap o t g h)
  all_goals rfl

theorem recordAccepted_snapshot {x : Slotted} (hwho : x.who = .snapshot) (hend : ∀ gen n, x.record ≠ .checkpointEnd gen n)
    (s : State) : recordAccepted x s = s := by
  rw [recordAccepted, hwho]
  cases hr : x.record
  case checkpointEnd gen n => exact absurd hr (hend gen n)
  all_goals rfl

theorem recordAccepted_retirement {x : Slotted} (hwho : x.who = .retirement) (s : State) : recordAccepted x s = s := by
  rw [recordAccepted, hwho]

theorem recordAccepted_port {x : Slotted} {p : PortId} (hwho : x.who = .port p) (s : State) :
    recordAccepted x s = portRecordAccepted p x.record s := by
  rw [recordAccepted, hwho]

theorem portRecordAccepted_delete {p : PortId} {cap : Nat} {s : State} {e : DirEntry} (he : findEntry s.dir cap = some e)
    (reason : DeleteReason) : portRecordAccepted p (.delete cap reason) s = answer p .ok false (leBytes 4 cap)
      (post .directory 0x1B [cap, (liveBlocks s e).length] (removeCapture e s)) := by
  rw [portRecordAccepted, deleteAccepted, he]
  rfl

theorem portRecordAccepted_annotate (p : PortId) (cap slot len : Nat) (s : State) :
    portRecordAccepted p (.annotate cap slot len) s = answer p .ok false [4]
      ((post .directory 0x1C [cap, slot, len] { s with dir := recordEffect (.annotate cap slot len) s.dir }).onPort p fun q =>
        { q with pad := { target := none, text := [], pf := false, locked := false, aa := true } }) := by
  rw [portRecordAccepted]
  dsimp only [onPad]
  rw [port_onPort_same]
  rfl

/-! ## Slots given back (R139) -/

/-- The places of the slotted records. -/
def places (d : Directory) : List (Nat × BitVec 32) := d.slotted.map fun x => (x.slot, x.seq)

/-- The place that the record at a position takes. -/
def placeAt (d : Directory) (i : Nat) : Nat × BitVec 32 := (places d).getD i (d.nextSlot, d.nextSeq)

theorem repack_places {keep : List Slotted} {d : Directory} (h : keep.length ≤ d.slotted.length) :
    repack (places d) keep =
      keep.mapIdx fun i x => { x with slot := (placeAt d i).1, seq := (placeAt d i).2, flying := false } := by
  have hlength : (places d).length = d.slotted.length := List.length_map _
  rw [repack_eq _ _ (hlength ▸ h)]
  refine List.ext_getElem (by rw [List.length_mapIdx, List.length_mapIdx]) fun i hi hi' => ?_
  rw [List.length_mapIdx] at hi
  have hin : i < (places d).length := hlength ▸ hi.trans_le h
  rw [List.getElem_mapIdx, List.getElem_mapIdx, placeAt, List.getD_eq_getElem _ _ hin, List.getD_eq_getElem _ _ hin]

theorem giveBack_eq {keep : List Slotted} {d : Directory} (h : keep.length ≤ d.slotted.length) : giveBack keep d = { d with
    slotted := keep.mapIdx fun i x => { x with slot := (placeAt d i).1, seq := (placeAt d i).2, flying := false }
    nextSlot := if keep = [] then (placeAt d 0).1 else (placeAt d (keep.length - 1)).1 + 1
    nextSeq := if keep = [] then (placeAt d 0).2 else (placeAt d (keep.length - 1)).2 + 1 } := by
  have hgive : giveBack keep d = { d with
      slotted := repack (places d) keep
      nextSlot := ((repack (places d) keep).getLast?.elim ((places d).headD (d.nextSlot, d.nextSeq)) fun x =>
        (x.slot + 1, x.seq + 1)).1
      nextSeq := ((repack (places d) keep).getLast?.elim ((places d).headD (d.nextSlot, d.nextSeq)) fun x =>
        (x.slot + 1, x.seq + 1)).2 } := by
    rw [giveBack, places]
    cases (repack (d.slotted.map fun x => (x.slot, x.seq)) keep).getLast? <;> rfl
  rw [hgive, repack_places h]
  cases keep using List.reverseRecOn with
  | nil =>
    have hhead : (places d).headD (d.nextSlot, d.nextSeq) = placeAt d 0 := by
      rw [placeAt]
      cases places d <;> rfl
    rw [if_pos rfl, if_pos rfl, ← hhead]
    rfl
  | append_singleton keep x =>
    have hne : keep ++ [x] ≠ [] := List.append_ne_nil_of_right_ne_nil keep (List.cons_ne_nil x [])
    rw [if_neg hne, if_neg hne, List.mapIdx_append, List.length_append]
    simp

theorem journalRefused_eq {page : Nat} {s : State} (h : s.dir.comp.state ≠ .writing) :
    journalRefused page s = (carried page s.dir).foldl (fun u x => recordRefused x u)
      { s with dir := giveBack (s.dir.slotted.filter fun x => !inPage page x) s.dir } :=
  if_neg h

/-! ## Records returned (R112) -/

theorem recordRefused_port {x : Slotted} {p : PortId} (hwho : x.who = .port p) (hnote : ∀ cap slot len, x.record ≠ .annotate cap slot len)
    (s : State) : recordRefused x s = answer p .holdup false [] s := by
  rw [recordRefused, hwho]
  cases hr : x.record
  case annotate cap slot len => exact absurd hr (hnote cap slot len)
  all_goals rfl

theorem refuseAllot_eq {c : Capture} {s : State} (hc : s.engine.capture = some c) (i : Fin 60) :
    refuseAllot (4 + i.val) s = powerClose { s with
      store := { s.store with blocks := vset s.store.blocks i .free }
      engine := { s.engine with capture := some { c with blocks := c.blocks.filter fun b => b ≠ 4 + i.val } } } := by
  rw [refuseAllot, setBlock_area]
  exact congrArg powerClose (onCapture_of_some (c := c) _ hc)

/-! ### A section whose SECTION_BEGIN record is returned -/

theorem unstarted_buf (b : Buf) : b.unstarted = true ↔ b.state = .filling ∨ b.state = .queued := by
  rw [Buf.unstarted, Bool.or_eq_true, decide_eq_true_eq, decide_eq_true_eq]

/-- The staging buffers that are such. -/
def bufsWhere (p : Buf → Bool) (s : State) : List (Fin 4 × Buf) := (bufList s).filter fun x => p x.2

/-- The staging buffers that are such dropped, and the section's region withdrawn. -/
def droppedWhere (p : Buf → Bool) (c : Capture) (s : State) : State :=
  { s with
    store := { s.store with
      queue := s.store.queue.filter fun q => decide (∀ j : Fin 4, p s.engine.bufs[j] = true → q ≠ .buf j) }
    fetches := (withdrawFor c s).fetches
    engine := { s.engine with
      bufs := Vector.ofFn fun j =>
        if p s.engine.bufs[j] = true then { s.engine.bufs[j] with state := .empty } else s.engine.bufs[j] } }

theorem withdrawFor_dropBufs (p : Buf → Bool) (c : Capture) (s : State) :
    withdrawFor c (dropBufs ((bufsWhere p s).map (·.1)) s) = droppedWhere p c s := by
  have hfetches : (withdrawFor c (dropBufs ((bufsWhere p s).map (·.1)) s)).fetches = (withdrawFor c s).fetches :=
    withdrawFor_fetches c _ _ (by rw [dropBufs_eq])
  rw [withdrawFor_eq, hfetches, dropBufs_eq, bufsWhere, withdrawn_queue]
  refine congrArg (fun v : Vector Buf 4 => ({ droppedWhere p c s with engine := { s.engine with bufs := v } } : State)) ?_
  exact congrArg Vector.ofFn (funext fun j => if_congr (mem_filter_bufList s p j) rfl rfl)

theorem lowestBuf_bufsWhere_none {p : Buf → Bool} {s : State} (h : ∀ j : Fin 4, ¬ p s.engine.bufs[j] = true) :
    lowestBuf (bufsWhere p s) = none := by
  rw [bufsWhere, filter_bufList_nil s _ fun j => Bool.eq_false_iff.mpr (h j)]
  rfl

theorem lowestBuf_bufsWhere {p : Buf → Bool} {s : State} {l : Fin 4} (hl : p s.engine.bufs[l] = true)
    (h : ∀ j : Fin 4, j ≠ l → p s.engine.bufs[j] = true → (s.engine.bufs[l]).page < (s.engine.bufs[j]).page) :
    lowestBuf (bufsWhere p s) = some (l, s.engine.bufs[l]) :=
  lowestBuf_filter s _ l hl h

theorem queue_droppedWhere {p : Buf → Bool} {q : Fin 4 → Prop} [DecidablePred q] {s : State}
    (h : ∀ j, p s.engine.bufs[j] = true ↔ q j) (queue : List QReq) :
    (queue.filter fun r => decide (∀ j : Fin 4, p s.engine.bufs[j] = true → r ≠ .buf j)) =
      queue.filter fun r => ∀ j : Fin 4, q j → r ≠ .buf j :=
  List.filter_congr fun _ _ => decide_eq_decide.mpr (forall_congr' fun j => imp_congr_left (h j))

theorem bufs_droppedWhere {p : Buf → Bool} {q : Fin 4 → Prop} [DecidablePred q] {s : State}
    (h : ∀ j, p s.engine.bufs[j] = true ↔ q j) :
    (Vector.ofFn fun j : Fin 4 => if p s.engine.bufs[j] = true then { s.engine.bufs[j] with state := .empty } else s.engine.bufs[j]) =
      Vector.ofFn fun j : Fin 4 => if q j then { s.engine.bufs[j] with state := .empty } else s.engine.bufs[j] :=
  congrArg Vector.ofFn (funext fun j => if_congr (h j) rfl rfl)

/-- The section that a returned SECTION_BEGIN record leaves. -/
def refusedSection (ph : Phase) (x : Section) : Section :=
  { x.cut ph .skippedPower 0 (some 0) with
    gaps := []
    records := 0 }

/-- The state in which the capture closes for the returned record of its section. -/
def sectionRefused (c : Capture) (x : Section) (next : Nat) (s : State) : State :=
  { droppedWhere Buf.unstarted c s with
    engine := { (droppedWhere Buf.unstarted c s).engine with
      state := .closing
      phase := .drain
      cause := if s.engine.cause = .none then .power else s.engine.cause
      capture := some { c with
        nextPage := next
        current := some (refusedSection s.engine.phase x) } } }

theorem setPhase_reformClose (ph : Phase) (s : State) : setPhase ph (reformClose s) = reformClose (setPhase ph s) := by
  cases h : s.engine.capture with
  | none =>
    have h' : (setPhase ph s).engine.capture = none := h
    rw [reformClose_of_none h, reformClose_of_none h']
  | some c =>
    have h' : (setPhase ph s).engine.capture = some c := h
    rw [reformClose_of_some h, reformClose_of_some h']
    rfl

theorem refuseSectionBegin_ends {index : Nat} {c : Capture} {x : Section} {s : State} (hc : s.engine.capture = some c)
    (hgoing : s.engine.phase.recording = false) (hx : c.current = some x) (hindex : x.index = index) :
    refuseSectionBegin index s =
      reformClose (sectionRefused c x ((lowestBuf (bufsWhere Buf.unstarted s)).elim c.nextPage fun b => b.2.page) s) := by
  have hcond : ¬ (s.engine.phase.recording || (c.current.map fun x => x.index) ≠ some index) = true := by
    rw [hgoing, hx, Option.map_some, hindex, Bool.false_or, decide_eq_true_eq]
    exact not_not_intro rfl
  have hwaiting : ((bufList s).filter fun x => x.2.unstarted) = bufsWhere Buf.unstarted s := rfl
  have hcapture : (droppedWhere Buf.unstarted c s).engine.capture = some c := hc
  rw [refuseSectionBegin, hc]
  dsimp only
  rw [if_neg hcond, hwaiting, withdrawFor_dropBufs, closeForPower, setPhase_reformClose]
  refine congrArg reformClose ?_
  cases lowestBuf (bufsWhere Buf.unstarted s) with
  | none =>
    dsimp only
    rw [State.onSection, onCapture_of_some _ hcapture, hx]
    rfl
  | some b =>
    dsimp only
    rw [onCapture_of_some _ hcapture, State.onSection, onCapture_of_some _ rfl, hx]
    rfl

theorem refuseSectionBegin_else {index : Nat} {c : Capture} {s : State} (hc : s.engine.capture = some c)
    (hother : s.engine.phase.recording = true ∨ ∀ x, c.current = some x → x.index ≠ index) :
    refuseSectionBegin index s = powerClose s := by
  rw [refuseSectionBegin, hc]
  refine if_pos ?_
  rw [Bool.or_eq_true, decide_eq_true_eq]
  refine hother.imp id fun hne heq => ?_
  obtain ⟨x, hx, hindex⟩ := Option.map_eq_some_iff.mp heq
  exact hne x hx hindex

theorem not_recording_iff (ph : Phase) : ph.recording = false ↔
    ph ≠ .secRecord ∧ ph ≠ .skips ∧ ph ≠ .closeRecord ∧ ph ≠ .closeWait := by
  cases ph <;> simp [Phase.recording]

/-- Settles O44: `hand` by the compaction's state, each record's effect through its capture's entry, and each refusal by its
requester. -/
theorem journalRecordsTakeEffect : Obligations.JournalRecordsTakeEffect := by
  refine ⟨fun r who s => ?_, fun x s => ?_, fun cap d e he => ?_, fun cap first trig valid openTime epoch i d => ?_,
    fun r cap d hnames => ?_, fun x p cap s hwho => ?_, fun page s h => ?_, fun x s => ?_,
    fun i c s hc => refuseAllot_eq hc i, fun index c s hc => ?_⟩
  · exact ⟨fun hidle hstarts => hand_starts hidle hstarts r who, fun hidle hstarts => hand_waits hidle hstarts r who,
      fun hbusy => hand_busy r who s hbusy⟩
  · exact ⟨fun hwho hclose => recordAccepted_engine hwho hclose s, fun hwho => recordAccepted_retirement hwho s,
      fun hwho hend => recordAccepted_snapshot hwho hend s⟩
  · have hcap : e.cap = cap := cap_of_findEntry he
    refine ⟨fun b => findEntry_recordEffect rfl rfl he, fun o t g h => findEntry_recordEffect rfl rfl he,
      findEntry_recordEffect rfl rfl he, findEntry_recordEffect rfl rfl he, fun slot len => findEntry_recordEffect rfl rfl he,
      fun reason => ?_, fun index entry first i kind start h hi => ?_, fun index entry len first pages gaps i kind o h hi => ?_,
      fun position blocks => ?_,
      fun o g t h held slots => ⟨findEntry_recordEffect rfl rfl he, findEntry_recordEffect rfl rfl he⟩⟩
    · subst hcap
      exact findEntry_dropCapture he
    · intro r
      have hr : recordEffect r d = recordSection i _ h d := recordEffect_sectionBegin he hi entry kind first start h
      dsimp only
      rw [hr]
      exact ⟨findEntry_recordSection_same he i h, sectionOf_recordSection i _ h d⟩
    · intro r
      have hr : recordEffect r d = recordSection i _ h d := recordEffect_sectionDone he hi entry kind o len first pages gaps h
      dsimp only
      rw [hr]
      obtain ⟨hsame, hother⟩ := sectionOf_recordSection i
        { cap := cap, index := index, entry := entry, kind := kind, status := o, len := len, first := first, pages := pages
          gaps := min gaps 65535, start := keptStart d i } h d
      exact ⟨findEntry_recordSection_same he i h, ⟨_, hsame⟩, hother⟩
    · exact ⟨placeBlocks e.blocks position blocks, findEntry_recordEffect rfl rfl he, placeBlocks_length _ _ _,
        placeBlocks_placed _ _ _, placeBlocks_kept _ _ _, placeBlocks_between _ _ _⟩
  · refine ⟨fun hi hfirst => ?_, fun hnone hi hfirst => ?_, fun hnone hfull => ?_⟩
    · exact recordEffect_captureOpen (slotForOpen_reserved hi hfirst) trig first valid openTime epoch
    · exact recordEffect_captureOpen ((slotForOpen_unreserved hnone).trans (lowestFreeSlot_of_first hi hfirst)) trig first valid
        openTime epoch
    · rw [recordEffect, slotForOpen_unreserved hnone, lowestFreeSlot_of_none hfull]
  · exact ⟨fun h => recordEffect_of_absent hnames h, fun other hne => findEntry_recordEffect_other hnames hne d⟩
  · intro u held
    have hport := recordAccepted_port hwho s
    refine ⟨fun hr => ?_, fun hr => ?_, fun reason e hr he => ?_, fun slot len hr => ?_⟩
    · unfold held u
      rw [hport, hr]
      rfl
    · unfold held u
      rw [hport, hr]
      rfl
    · rw [hport, hr, portRecordAccepted_delete he]
    · unfold u
      rw [hport, hr, portRecordAccepted_annotate]
  · exact (journalRefused_eq h).trans
      (congrArg (fun d => (carried page s.dir).foldl (fun u x => recordRefused x u) { s with dir := d })
        (giveBack_eq (List.length_filter_le _ _)))
  · intro stalled u
    refine ⟨fun hwho => ⟨fun cap block hr => ?_, fun cap index entry first kind start h hr => ?_, fun cap o t g h hr => ?_,
      fun cap first trig valid t epoch hr => ?_, fun cap index entry len first pages gaps kind o h hr => ?_⟩, fun hwho => ?_,
      fun p hwho => ⟨fun cap slot len hr => ?_, fun hnote => recordRefused_port hwho hnote s⟩, fun hwho => ?_, fun hwho => ?_,
      fun hwho => ?_⟩
    · unfold u
      rw [recordRefused, hwho, hr]
    · unfold u
      rw [recordRefused, hwho, hr]
    · unfold u
      rw [recordRefused, hwho, hr]
      rfl
    · unfold u
      rw [recordRefused, hwho, hr]
      rfl
    · unfold u
      rw [recordRefused, hwho, hr]
      rfl
    · unfold u
      rw [recordRefused, hwho]
      rfl
    · unfold u
      rw [recordRefused, hwho, hr]
      rfl
    · unfold u
      rw [recordRefused, hwho]
      rfl
    · unfold u
      rw [recordRefused, hwho]
      rfl
    · unfold u
      rcases hwho with hwho | hwho <;> rw [recordRefused, hwho]
  · intro going page waits
    have hwaits : ∀ j, (s.engine.bufs[j]).unstarted = true ↔ waits j := fun j => unstarted_buf _
    refine ⟨fun x hgoing hx hindex => ?_, fun hother => refuseSectionBegin_else hc (hother.imp (fun hnot => ?_) id)⟩
    · intro ends
      have hrecording : s.engine.phase.recording = false := (not_recording_iff _).mpr hgoing
      have hends : ∀ next, (lowestBuf (bufsWhere Buf.unstarted s)).elim c.nextPage (fun b => b.2.page) = next → ends next := fun next hnext => by
        have hrefused := refuseSectionBegin_ends hc hrecording hx hindex
        rw [hnext] at hrefused
        refine hrefused.trans (congrArg reformClose ?_)
        rw [sectionRefused, droppedWhere, queue_droppedWhere hwaits, bufs_droppedWhere hwaits]
        rfl
      refine ⟨fun hnone => hends _ ?_, fun l hl hlow => hends _ ?_⟩
      · rw [lowestBuf_bufsWhere_none fun j h => hnone j ((hwaits j).mp h)]
        rfl
      · rw [lowestBuf_bufsWhere ((hwaits l).mpr hl) fun j hj hw => hlow j hj ((hwaits j).mp hw)]
        rfl
    · rw [← Bool.not_eq_false]
      exact fun h => hnot ((not_recording_iff _).mp h)

end Sys2Proof.Machine
end

