-- ==== Sys2Proof/Proofs/CompletedOperations.lean ====
section
/-! PROOFS. Sys2Proof/Proofs/CompletedOperations.lean: what a completed program and a completed erase hand on (R123, R127, R129). -/

namespace Sys2Proof.Machine

theorem keeping_eq_self {f : State → State} {s : State} (h : frameOf (f s) = frameOf s) : keeping f s = f s := by
  simp only [frameOf, Prod.mk.injEq] at h
  obtain ⟨hpending, hpowered, hready, htime, hepoch, hvalid, hpins, hsettings, hplan, hflash⟩ := h
  simp only [keeping, ← hpending, ← hpowered, ← hready, ← htime, ← hepoch, ← hvalid, ← hpins, ← hsettings, ← hplan, ← hflash]

theorem frameOf_programResult (who : Programmer) (page : Nat) (content : List Byte) (s : State) :
    frameOf (programResult who page content s) = frameOf s := by
  unfold programResult
  split
  · exact (frameOf_settle _).trans (frameOf_programAccepted _ _ _)
  · exact (frameOf_settle _).trans (frameOf_verifyFailed _ _ _ _)

theorem frameOf_eraseResult (who : Eraser) (block : Nat) (s : State) : frameOf (eraseResult who block s) = frameOf s :=
  (frameOf_settle _).trans (frameOf_eraseEnded _ _ _ _)

theorem beside_landed (f : Flash → Flash) (s : State) : frameOf { landed f s with flash := s.flash } = frameOf s := rfl

theorem frameOf_withFlash {t u : State} (h : frameOf t = frameOf u) (f : Flash) :
    frameOf { t with flash := f } = frameOf { u with flash := f } := by
  simp only [frameOf, Prod.mk.injEq] at h ⊢
  simp only [h, and_self]

/-- The blocks' answer to an operation that has landed. -/
theorem handedOn {f : State → State} {g : Flash → Flash} {s : State} (hp : s.powered = true)
    (hf : ∀ t, frameOf (f t) = frameOf t) {h : State → State} (hh : h s = keeping (fun t => resumeReads (f t)) (landed g s)) :
    whenPoweredBut takeFlash h s = resumeReads (f (landed g s)) := by
  have hframe : frameOf (resumeReads (f (landed g s))) = frameOf (landed g s) := (frameOf_resumeReads _).trans (hf _)
  have hdone : h s = resumeReads (f (landed g s)) := hh.trans (keeping_eq_self hframe)
  refine (whenPoweredBut_takeFlash_of_frame hp ?_).trans hdone
  rw [hdone]
  exact (frameOf_withFlash hframe s.flash).trans (beside_landed g s)

/-! ## Programs (R123) -/

theorem exec_programComplete {s : State} {who : Programmer} {page : Nat} {content : List Byte} (hp : s.powered = true)
    (hflight : s.store.flight = some (.program who page content)) (faults : List WordFault) :
    exec (.programComplete faults) s =
      .next (resumeReads (programResult who page content (landed (programPage page content faults) s))) := by
  refine congrArg Host.Outcome.next (handedOn hp (frameOf_programResult who page content) ?_)
  rw [programCompleted, hflight]

theorem exec_programComplete_idle {s : State} (hp : s.powered = true)
    (hflight : ∀ who page content, s.store.flight ≠ some (.program who page content)) (faults : List WordFault) :
    exec (.programComplete faults) s = .next s := by
  have hnone : programCompleted faults s = s := by
    unfold programCompleted
    split
    · next who page content h => exact absurd h (hflight who page content)
    · rfl
  refine congrArg Host.Outcome.next ((whenPoweredBut_takeFlash_of_frame hp ?_).trans hnone)
  rw [hnone]

/-- The word at a place of a page fails the verify of a program. -/
def wrongWord (page : Nat) (content : List Byte) (f : Flash) (i : Nat) : Prop :=
  (wordsOf 64 content).getD i 0 ≠ BitVec.allOnes 64 ∧
    classify ((storedPage f page).getD i Stored.erased) ≠ { data := (wordsOf 64 content).getD i 0, cls := .clean }

/-- The test of the verify. -/
def failsVerify (x : Stored × BitVec 64) : Bool := x.2 ≠ erasedWord && !(classify x.1 = { data := x.2, cls := .clean })

theorem verifyFails_eq (page : Nat) (content : List Byte) (f : Flash) :
    verifyFails page content f = ((storedPage f page).zip (wordsOf 64 content)).findIdx? failsVerify := rfl

theorem zip_get {page i : Nat} (hi : i < 64) (content : List Byte) (f : Flash) :
    ((storedPage f page).zip (wordsOf 64 content))[i]? =
      some ((storedPage f page).getD i Stored.erased, (wordsOf 64 content).getD i 0) := by
  rw [List.getElem?_zip_eq_some, wordAt_eq f page hi]
  exact ⟨storedPage_get f page hi, wordsOf_get content hi⟩

theorem length_zip_words (page : Nat) (content : List Byte) (f : Flash) :
    ((storedPage f page).zip (wordsOf 64 content)).length = 64 := by
  rw [List.length_zip, storedPage_length, wordsOf_length]
  rfl

theorem failsVerify_iff {page i : Nat} {content : List Byte} {f : Flash} {x : Stored × BitVec 64} (hi : i < 64)
    (hx : ((storedPage f page).zip (wordsOf 64 content))[i]? = some x) : failsVerify x = true ↔ wrongWord page content f i := by
  rw [zip_get hi] at hx
  rw [← Option.some.inj hx, failsVerify, Bool.and_eq_true, decide_eq_true_eq, Bool.not_eq_true', decide_eq_false_iff_not]
  exact Iff.rfl

theorem verifyFails_of_right {page : Nat} {content : List Byte} {f : Flash} (h : ∀ i : Nat, i < 64 → ¬ wrongWord page content f i) :
    verifyFails page content f = none := by
  rw [verifyFails_eq, List.findIdx?_eq_none_iff]
  intro x hx
  obtain ⟨i, hi⟩ := List.mem_iff_getElem?.mp hx
  have hlt : i < 64 := length_zip_words page content f ▸ (List.getElem?_eq_some_iff.mp hi).1
  exact Bool.eq_false_iff.mpr fun hfails => h i hlt ((failsVerify_iff hlt hi).mp hfails)

theorem verifyFails_of_first {page i : Nat} {content : List Byte} {f : Flash} (hi : i < 64) (hwrong : wrongWord page content f i)
    (hfirst : ∀ j : Nat, j < i → ¬ wrongWord page content f j) : verifyFails page content f = some i := by
  have hlength := length_zip_words page content f
  rw [verifyFails_eq, List.findIdx?_eq_some_iff_getElem]
  refine ⟨hlength.symm ▸ hi, (failsVerify_iff hi (List.getElem?_eq_getElem _)).mpr hwrong, fun j hj => ?_⟩
  have hj64 : j < 64 := hj.trans hi
  exact fun hfails => hfirst j hj ((failsVerify_iff hj64 (List.getElem?_eq_getElem (hlength.symm ▸ hj64))).mp hfails)

/-! ## Erases (R127) -/

theorem exec_eraseComplete {s : State} {who : Eraser} {block : Nat} (hp : s.powered = true)
    (hflight : s.store.flight = some (.erase who block)) (faults : List BlockFault) :
    exec (.eraseComplete faults) s = .next (resumeReads (eraseResult who block (landed (eraseBlock block faults) s))) := by
  refine congrArg Host.Outcome.next (handedOn hp (frameOf_eraseResult who block) ?_)
  rw [eraseCompleted, hflight]

theorem exec_eraseComplete_idle {s : State} (hp : s.powered = true)
    (hflight : ∀ who block, s.store.flight ≠ some (.erase who block)) (faults : List BlockFault) :
    exec (.eraseComplete faults) s = .next s := by
  have hnone : eraseCompleted faults s = s := by
    unfold eraseCompleted
    split
    · next who block h => exact absurd h (hflight who block)
    · rfl
  refine congrArg Host.Outcome.next ((whenPoweredBut_takeFlash_of_frame hp ?_).trans hnone)
  rw [hnone]

end Sys2Proof.Machine
end

