-- ==== Sys2Proof/Proofs/BufferResults.lean ====
section
/-! PROOFS. Sys2Proof/Proofs/BufferResults.lean: what an accepted and a failed program of a staging buffer do, and a section that is
cut (R59, R81, R92, R94). -/

namespace Sys2Proof.Machine

/-! ## Accepted programs -/

theorem bufAccepted_data {i : Fin 4} {s : State} (h : (s.engine.bufs[i]).isHead = false) : bufAccepted i s =
    (s.onBuf i fun x => { x with state := .empty, accepted := true }).onSection fun x =>
      { x with done := x.done ++ [(s.engine.bufs[i]).placed] } :=
  if_neg (Bool.eq_false_iff.mp h)

theorem bufAccepted_head {i : Fin 4} {s : State} (h : (s.engine.bufs[i]).isHead = true) : bufAccepted i s =
    headSettled (some (s.engine.bufs[i]).page) (s.onBuf i fun x => { x with state := .empty, accepted := true }) :=
  if_pos h

/-- The head page settled, and where the opening goes on. -/
def settledHead (head : Option Nat) (c : Capture) (st : EngState) (ph : Phase) (cursor : Option Nat) (s : State) : State :=
  { s with
    engine := { s.engine with
      state := st
      phase := ph
      capture := some { c with
        head := head
        cursor := cursor } } }

theorem headSettled_waits {head : Option Nat} {c : Capture} {s : State} (hc : s.engine.capture = some c)
    (hphase : s.engine.phase = .headWait) : headSettled head s =
      if s.engine.state = .closing then settledHead head c .closing .skips (some 0) s
      else if c.walk.isEmpty then settledHead head c .closing .closeRecord c.cursor s
      else settledHead head c .gathering .secBegin (some 0) s := by
  unfold headSettled
  rw [onCapture_of_some _ hc]
  dsimp only
  rw [hphase]
  dsimp only
  rw [onCapture_of_some _ rfl]
  split
  · next h =>
    unfold settledHead
    rw [← h]
    rfl
  · split <;> rfl

theorem headSettled_else {head : Option Nat} {c : Capture} {s : State} (hc : s.engine.capture = some c)
    (hphase : s.engine.phase ≠ .headWait) :
    headSettled head s = settledHead head c s.engine.state s.engine.phase c.cursor s := by
  unfold headSettled
  rw [onCapture_of_some _ hc]
  dsimp only
  split
  · next hwait _ => exact absurd hwait hphase
  · rfl

/-! ## Regions withdrawn (R59) -/

/-- A fetch channel whose region is abandoned. -/
def regionGone (f : FetchChan) : FetchChan := { f with state := .idle, region := none, txn := none, piece := none }

theorem withdrawRegion_eq (ch : Fin 4) (s : State) : withdrawRegion ch s = s.onFetch ch fun f =>
    if f.state = .asking then { regionGone f with abandoned := satInc f.abandoned }
    else if f.state = .delivering then regionGone f else f := by
  refine congrArg (fun g => s.onFetch ch g) (funext fun f => ?_)
  cases hf : f.state <;> simp [regionGone]

/-- The fetch channel of the walk entry at the cursor. -/
def fetchesHere (c : Capture) (ch : Fin 4) : Prop :=
  ∃ item : WalkItem, c.walk[c.cursor.getD 0]? = some item ∧ (c.snapshot.entries[item.entry]).kind = .fetch ∧
    (c.snapshot.entries[item.entry]).chan = some ch

theorem entryChannel_iff (c : Capture) (ch : Fin 4) : c.entryHere.bind entryChannel = some ch ↔ fetchesHere c ch := by
  unfold Capture.entryHere Capture.itemHere Capture.position fetchesHere
  cases c.walk[c.cursor.getD 0]? with
  | none => simp
  | some item =>
    rw [Option.map_some, Option.bind_some, entryChannel, Capture.entryOf]
    simp

theorem withdrawFor_here {c : Capture} {ch : Fin 4} (h : fetchesHere c ch) (s : State) : withdrawFor c s = withdrawRegion ch s := by
  rw [withdrawFor, (entryChannel_iff c ch).mpr h]

theorem withdrawFor_nowhere {c : Capture} (h : ∀ ch, ¬ fetchesHere c ch) (s : State) : withdrawFor c s = s := by
  cases hch : c.entryHere.bind entryChannel with
  | none => rw [withdrawFor, hch]
  | some ch => exact absurd ((entryChannel_iff c ch).mp hch) (h ch)

/-! ## The page after a failed one -/

theorem retryPage_eq (c : Capture) (page : Nat) (s : State) : retryPage c page s =
    if (c.blocks[page / 128]?).bind (blockState s) = some .retired then 128 * (page / 128 + 1) else page + 1 := by
  unfold retryPage
  have hblock : blockPages = 128 := rfl
  rw [hblock]
  cases c.blocks[page / 128]? with
  | none => rfl
  | some block => exact if_congr (decide_eq_true_iff) rfl rfl

theorem lt_retryPage (c : Capture) (page : Nat) (s : State) : page < retryPage c page s := by
  rw [retryPage_eq]
  split <;> omega

theorem retryPage_congr {s t : State} (h : t.store.blocks = s.store.blocks) (c : Capture) (page : Nat) :
    retryPage c page t = retryPage c page s := by
  have hstate : blockState t = blockState s := by
    funext b
    rw [blockState, blockState, h]
  rw [retryPage_eq, retryPage_eq, hstate]

/-! ## A section that is cut (R94) -/

/-- The buffers that a cut drops. -/
def cutPick (drop : Buf → Bool) (b : Buf) : Bool := b.unstarted && drop b

theorem cutPick_iff (drop : Buf → Bool) (b : Buf) :
    cutPick drop b = true ↔ (b.state = .filling ∨ b.state = .queued) ∧ drop b = true := by
  rw [cutPick, Bool.and_eq_true, unstarted_buf]

theorem cutSection_eq {k : CloseCause} {o : OutcomeCode} {drop : Buf → Bool} {c : Capture} {s : State}
    (hc : s.engine.capture = some c) : cutSection k o drop s =
      setPhase .drain ((lowestBuf (bufsWhere (cutPick drop) s)).elim
        (setEngState .closing (setCause k ((droppedWhere (cutPick drop) c s).onCapture fun c =>
          { c with nextPage := c.capped c.nextPage })))
        fun b => ((setEngState .closing (setCause k ((droppedWhere (cutPick drop) c s).onCapture fun c =>
          { c with nextPage := c.capped c.nextPage }))).onCapture (Capture.headDropped b.2)).onSection fun x =>
            x.cut s.engine.phase o
              (dataIn (dataEnd s.engine.phase x) (x.kept (droppedWhere (cutPick drop) c s)))
              (some (pageAfter (x.kept (droppedWhere (cutPick drop) c s)) (c.capped b.2.page) - x.first))) := by
  have hgone : ((bufList s).filter fun x => x.2.unstarted && drop x.2) = bufsWhere (cutPick drop) s := rfl
  unfold cutSection
  rw [hc]
  dsimp only
  rw [hgone, withdrawFor_dropBufs]
  cases lowestBuf (bufsWhere (cutPick drop) s) <;> rfl

/-- The state in which a cut section's capture closes. -/
def cutEnds (p : Buf → Bool) (k : CloseCause) (c d : Capture) (s : State) : State :=
  { droppedWhere p c s with
    engine := { (droppedWhere p c s).engine with
      state := .closing
      phase := .drain
      cause := if s.engine.cause = .none then k else s.engine.cause
      capture := some d } }

theorem cutSection_none {k : CloseCause} {o : OutcomeCode} {drop : Buf → Bool} {c : Capture} {s : State}
    (hc : s.engine.capture = some c) (hlow : lowestBuf (bufsWhere (cutPick drop) s) = none) :
    cutSection k o drop s = cutEnds (cutPick drop) k c { c with nextPage := c.capped c.nextPage } s := by
  have hcapture : (droppedWhere (cutPick drop) c s).engine.capture = some c := hc
  rw [cutSection_eq hc, hlow, Option.elim_none, onCapture_of_some _ hcapture]
  rfl

theorem cutSection_head {k : CloseCause} {o : OutcomeCode} {drop : Buf → Bool} {c : Capture} {s : State} {b : Fin 4 × Buf}
    (hc : s.engine.capture = some c) (hlow : lowestBuf (bufsWhere (cutPick drop) s) = some b) (hx : c.current = none) :
    cutSection k o drop s = cutEnds (cutPick drop) k c { c with nextPage := c.capped b.2.page } s := by
  have hcapture : (droppedWhere (cutPick drop) c s).engine.capture = some c := hc
  have hdropped : Capture.headDropped b.2 { c with nextPage := c.capped c.nextPage } = { c with nextPage := c.capped b.2.page } :=
    if_pos (Option.isNone_iff_eq_none.mpr hx)
  rw [cutSection_eq hc, hlow, Option.elim_some, onCapture_of_some _ hcapture, onCapture_of_some _ rfl, hdropped, State.onSection,
    onCapture_of_some _ rfl, hx]
  rfl

/-- The section as a cut leaves it. -/
def cutSectionBy (o : OutcomeCode) (drop : Buf → Bool) (c : Capture) (page : Nat) (x : Section) (s : State) : Section :=
  x.cut s.engine.phase o (dataIn (dataEnd s.engine.phase x) (x.kept (droppedWhere (cutPick drop) c s)))
    (some (pageAfter (x.kept (droppedWhere (cutPick drop) c s)) (c.capped page) - x.first))

theorem cutSection_data {k : CloseCause} {o : OutcomeCode} {drop : Buf → Bool} {c : Capture} {x : Section} {s : State}
    {b : Fin 4 × Buf} (hc : s.engine.capture = some c) (hlow : lowestBuf (bufsWhere (cutPick drop) s) = some b)
    (hx : c.current = some x) : cutSection k o drop s = cutEnds (cutPick drop) k c
      { c with
        nextPage := c.capped c.nextPage
        current := some (cutSectionBy o drop c b.2.page x s) } s := by
  have hcapture : (droppedWhere (cutPick drop) c s).engine.capture = some c := hc
  have hkept : Capture.headDropped b.2 { c with nextPage := c.capped c.nextPage } = { c with nextPage := c.capped c.nextPage } :=
    if_neg fun h => Option.some_ne_none x (hx.symm.trans (Option.isNone_iff_eq_none.mp h))
  rw [cutSection_eq hc, hlow, Option.elim_some, onCapture_of_some _ hcapture, onCapture_of_some _ rfl, hkept, State.onSection,
    onCapture_of_some _ rfl, hx]
  rfl

end Sys2Proof.Machine
end

