-- ==== Sys2Proof/Proofs/FailedBuffers.lean ====
section
/-! PROOFS. Sys2Proof/Proofs/FailedBuffers.lean: the first and the second failure of a staging buffer's content (R92, R94). -/

namespace Sys2Proof.Machine

theorem vector_ext_fin {α : Type} {n : Nat} {v w : Vector α n} (h : ∀ k : Fin n, v[k] = w[k]) : v = w :=
  Vector.ext fun i hi => h ⟨i, hi⟩

theorem get_ofFn {α : Type} {n : Nat} (f : Fin n → α) (k : Fin n) : (Vector.ofFn f)[k] = f k := by
  rw [Fin.getElem_fin, Vector.getElem_ofFn]

/-! ## The first failure -/

/-- A later target moves on. -/
def shiftedBuf (page shift : Nat) (x : Buf) : Buf :=
  if x.unstarted && decide (page < x.page) then { x with page := x.page + shift } else x

/-- A failed content that waits to be programmed again. -/
def requeuedBuf (next : Nat) (x : Buf) : Buf :=
  { x with
    state := .queued
    accepted := false
    retried := true
    page := next }

/-- The staging buffers after a failure that is retried. -/
def retryBufs (i : Fin 4) (next : Nat) (s : State) : Vector Buf 4 :=
  Vector.ofFn fun j =>
    if j = i then requeuedBuf next s.engine.bufs[j]
    else shiftedBuf (s.engine.bufs[i]).page (next - (s.engine.bufs[i]).page) s.engine.bufs[j]

/-- The state in which a failed content waits to be programmed again. -/
def retryQueued (i : Fin 4) (next : Nat) (c : Capture) (s : State) : State :=
  { s with
    store := { s.store with queue := s.store.queue ++ [.buf i] }
    engine := { s.engine with
      bufs := retryBufs i next s
      capture := some { c with
        nextPage := c.nextPage + (next - (s.engine.bufs[i]).page)
        current := c.current.map (Section.movePages (next - (s.engine.bufs[i]).page) c) } } }

/-- The state in which the later targets have moved on. -/
def laterShifted (i : Fin 4) (next : Nat) (s : State) : State :=
  { s with
    engine := { s.engine with
      bufs := Vector.ofFn fun j =>
        shiftedBuf (s.engine.bufs[i]).page (next - (s.engine.bufs[i]).page) s.engine.bufs[j] } }

theorem forEach_shiftedBuf (i : Fin 4) (next : Nat) (s : State) :
    forEach (List.finRange 4) (fun j s' => s'.onBuf j (shiftedBuf (s.engine.bufs[i]).page (next - (s.engine.bufs[i]).page))) s =
      laterShifted i next s :=
  onBuf_forEach (fun _ => shiftedBuf (s.engine.bufs[i]).page (next - (s.engine.bufs[i]).page)) s

theorem vmod_laterShifted {i : Fin 4} {next : Nat} {s : State} (hnext : (s.engine.bufs[i]).page ≤ next) :
    vmod (laterShifted i next s).engine.bufs i
      (fun x => requeuedBuf (x.page + (next - (s.engine.bufs[i]).page)) x) = retryBufs i next s := by
  refine vector_ext_fin fun k => ?_
  rw [retryBufs, laterShifted]
  dsimp only
  rw [get_ofFn]
  by_cases hk : k = i
  · subst hk
    have hself : shiftedBuf (s.engine.bufs[k]).page (next - (s.engine.bufs[k]).page) s.engine.bufs[k] = s.engine.bufs[k] := by
      refine if_neg fun h => ?_
      rw [Bool.and_eq_true, decide_eq_true_eq] at h
      exact Nat.lt_irrefl _ h.2
    rw [vmod_get_same, get_ofFn, if_pos rfl, hself, Nat.add_sub_cancel' hnext]
  · rw [vmod_get_other _ _ _ _ hk, get_ofFn, if_neg hk]

/-- Some unstarted buffer's target is at or past the page cap. -/
def pastCap (c : Capture) (s : State) : Bool :=
  (bufList s).any fun x => x.2.unstarted && decide (c.snapshot.pageCap ≤ x.2.page)

theorem pastCap_iff (c : Capture) (s : State) : pastCap c s = true ↔
    ∃ j : Fin 4, (s.engine.bufs[j]).unstarted = true ∧ c.snapshot.pageCap ≤ (s.engine.bufs[j]).page := by
  rw [pastCap, any_bufList s fun b => b.unstarted && decide (c.snapshot.pageCap ≤ b.page)]
  simp only [Bool.and_eq_true, decide_eq_true_eq]

theorem retryBuf_eq {i : Fin 4} {c : Capture} {s : State} (hc : s.engine.capture = some c) : retryBuf i c s =
    if pastCap c (retryQueued i (retryPage c (s.engine.bufs[i]).page s) c s) then
      cutSection .budget .skippedBudget (fun x => c.snapshot.pageCap ≤ x.page)
        (retryQueued i (retryPage c (s.engine.bufs[i]).page s) c s)
    else retryQueued i (retryPage c (s.engine.bufs[i]).page s) c s := by
  have hle := (lt_retryPage c (s.engine.bufs[i]).page s).le
  unfold retryBuf
  dsimp only
  generalize retryPage c (s.engine.bufs[i]).page s = next at hle ⊢
  have hcapture : (laterShifted i next s).engine.capture = some c := hc
  have hqueued : enqueue (.buf i) ((((laterShifted i next s).onCapture fun c =>
      { c with nextPage := c.nextPage + (next - (s.engine.bufs[i]).page) }).onSection
        (Section.movePages (next - (s.engine.bufs[i]).page) c)).onBuf i fun x =>
          requeuedBuf (x.page + (next - (s.engine.bufs[i]).page)) x) = retryQueued i next c s := by
    rw [onCapture_of_some _ hcapture, State.onSection, onCapture_of_some _ rfl, enqueue, State.onBuf, State.onEngine, retryQueued,
      ← vmod_laterShifted hle]
    rfl
  rw [← hqueued, ← forEach_shiftedBuf]
  rfl

/-! ## The second failure -/

/-- The state without the failed content. -/
def contentFailed (i : Fin 4) (s : State) : State :=
  { s with
    engine := { s.engine with
      bufs := vset s.engine.bufs i { s.engine.bufs[i] with state := .empty, accepted := false } } }

theorem get_contentFailed (i j : Fin 4) (s : State) : (contentFailed i s).engine.bufs[j] =
    if j = i then { s.engine.bufs[i] with state := .empty, accepted := false } else s.engine.bufs[j] := by
  rw [contentFailed]
  dsimp only
  generalize ({ s.engine.bufs[i] with state := .empty, accepted := false } : Buf) = b
  by_cases hj : j = i
  · rw [if_pos hj, hj, vset, Fin.getElem_fin, Vector.getElem_set_self]
  · rw [if_neg hj, vset, Fin.getElem_fin, Vector.getElem_set_ne _ _ fun h => hj (Fin.ext h.symm)]
    rfl

theorem faultBuf_head {i : Fin 4} {c : Capture} {s : State} (hc : s.engine.capture = some c)
    (h : (s.engine.bufs[i]).isHead = true) : faultBuf i c s = headSettled none { contentFailed i s with
      engine := { (contentFailed i s).engine with
        capture := some { c with nextPage := c.capped (max c.nextPage (retryPage c (s.engine.bufs[i]).page s)) } } } := by
  have hnext : retryPage c (s.engine.bufs[i]).page (contentFailed i s) = retryPage c (s.engine.bufs[i]).page s :=
    retryPage_congr (by rw [contentFailed]) _ _
  have hfailed : (s.onBuf i fun x => { x with state := .empty, accepted := false }) = contentFailed i s := rfl
  unfold faultBuf
  dsimp only
  have hcapture : (contentFailed i s).engine.capture = some c := hc
  rw [if_pos h, hfailed, hnext, onCapture_of_some _ hcapture]

/-- The section as a second failure leaves it. -/
def faultSection (b : Buf) (last : Nat) (c : Capture) (ph : Phase) (x : Section) : Section :=
  { x.cut ph .storeFault (dataIn (dataEnd ph x) (x.done.filter fun p => p.start < b.start))
      (some (c.capped (pageAfter x.done last) - x.first)) with
    done := x.done.filter fun p => p.start < b.start }

theorem faultBuf_data {i : Fin 4} {c : Capture} {x : Section} {s : State} (hc : s.engine.capture = some c)
    (hx : c.current = some x) (h : (s.engine.bufs[i]).isHead = false) : faultBuf i c s =
      { droppedWhere Buf.unstarted c (contentFailed i s) with
        engine := { (droppedWhere Buf.unstarted c (contentFailed i s)).engine with
          phase := .secEnd
          capture := some { c with
            nextPage := c.capped (max c.nextPage (retryPage c (s.engine.bufs[i]).page s))
            current := some (faultSection s.engine.bufs[i]
              ((lowestBuf (bufsWhere Buf.unstarted (contentFailed i s))).elim
                (max c.nextPage (retryPage c (s.engine.bufs[i]).page s))
                fun b => max b.2.page (retryPage c (s.engine.bufs[i]).page s)) c s.engine.phase x) } } } := by
  have hnext : retryPage c (s.engine.bufs[i]).page (contentFailed i s) = retryPage c (s.engine.bufs[i]).page s :=
    retryPage_congr (by rw [contentFailed]) _ _
  have hfailed : (s.onBuf i fun x => { x with state := .empty, accepted := false }) = contentFailed i s := rfl
  have hgone : ((bufList (contentFailed i s)).filter fun x => x.2.unstarted) = bufsWhere Buf.unstarted (contentFailed i s) := rfl
  have hcapture : (droppedWhere Buf.unstarted c (contentFailed i s)).engine.capture = some c := hc
  have hphase : (droppedWhere Buf.unstarted c (contentFailed i s)).engine.phase = s.engine.phase := rfl
  unfold faultBuf
  dsimp only
  rw [if_neg (Bool.eq_false_iff.mp h), hfailed, hnext, hgone, withdrawFor_dropBufs, onCapture_of_some _ hcapture, State.onSection,
    onCapture_of_some _ rfl, hx]
  dsimp only
  rw [hphase]
  cases lowestBuf (bufsWhere Buf.unstarted (contentFailed i s)) <;> rfl

/-! ## The results of a buffer's program -/

theorem programFailed_retry {i : Fin 4} {c : Capture} {s : State} (hc : s.engine.capture = some c)
    (h : (s.engine.bufs[i]).retried = false) (page : Nat) : programFailed (.buf i) page s = retryBuf i c s := by
  have hfailed : programFailed (.buf i) page s = bufFailed i s := rfl
  rw [hfailed, bufFailed, hc]
  exact if_neg (Bool.eq_false_iff.mp h)

theorem programFailed_fault {i : Fin 4} {c : Capture} {s : State} (hc : s.engine.capture = some c)
    (h : (s.engine.bufs[i]).retried = true) (page : Nat) : programFailed (.buf i) page s = faultBuf i c s := by
  have hfailed : programFailed (.buf i) page s = bufFailed i s := rfl
  rw [hfailed, bufFailed, hc]
  exact if_pos h

theorem unstarted_contentFailed (i j : Fin 4) (s : State) : ((contentFailed i s).engine.bufs[j]).unstarted = true ↔
    j ≠ i ∧ ((s.engine.bufs[j]).state = .filling ∨ (s.engine.bufs[j]).state = .queued) := by
  rw [get_contentFailed, unstarted_buf]
  by_cases hj : j = i
  · rw [if_pos hj]
    exact ⟨fun h => h.elim BufState.noConfusion BufState.noConfusion, fun h => absurd hj h.1⟩
  · rw [if_neg hj, and_iff_right hj]

/-- Settles O36: the completions by the verify's answer, and the results of the staging buffers by what their capture keeps. -/
theorem completionsHandOnTheVerify : Obligations.CompletionsHandOnTheVerify := by
  refine ⟨fun faults s hp => ⟨fun who page content hflight => ?_, fun who block hflight => ?_, fun hflight => ?_⟩,
    fun faults s hp => ⟨fun who block hflight => ?_, fun who page content hflight => ?_, fun hflight => ?_⟩,
    fun i page s => ?_, fun head c s hc => ?_, fun i page c s hc hretried => ?_, fun i page' c s hc hretried => ?_,
    fun k o drop c s hc => ?_, fun c s => ?_⟩
  · intro u wrong
    have hu : landed (programPage page content faults) s = u := rfl
    have hdone := exec_programComplete hp hflight faults
    rw [hu, programResult] at hdone
    refine ⟨fun hright => ?_, fun i hi hwrong hfirst => ?_⟩
    · rw [verifyFails_of_right hright] at hdone
      exact hdone
    · rw [verifyFails_of_first hi hwrong hfirst] at hdone
      exact hdone
  · exact exec_programComplete_idle hp (fun who' page content h => by rw [hflight] at h; cases h) faults
  · exact exec_programComplete_idle hp (fun who' page content h => by rw [hflight] at h; cases h) faults
  · exact exec_eraseComplete hp hflight faults
  · exact exec_eraseComplete_idle hp (fun who' block h => by rw [hflight] at h; cases h) faults
  · exact exec_eraseComplete_idle hp (fun who' block h => by rw [hflight] at h; cases h) faults
  · exact ⟨fun h => bufAccepted_data h, fun h => bufAccepted_head h⟩
  · intro settled waits
    refine ⟨fun hwaits hclosing => ?_, fun hwaits hopen hwalk => ?_, fun hwaits hopen hwalk => ?_, fun hnot => headSettled_else hc hnot⟩
    · rw [headSettled_waits hc hwaits, if_pos hclosing]
      rfl
    · rw [headSettled_waits hc hwaits, if_neg hopen, if_pos (List.isEmpty_iff.mpr hwalk)]
      rfl
    · rw [headSettled_waits hc hwaits, if_neg hopen, if_neg fun h => hwalk (List.isEmpty_iff.mp h)]
      rfl
  · intro b waits next moved t
    have hnext : retryPage c b.page s = next := retryPage_eq c b.page s
    have hmoved : retryBufs i next s = moved := by
      refine congrArg Vector.ofFn (funext fun j => ?_)
      by_cases hj : j = i
      · rw [if_pos hj]
        exact (if_pos hj).symm
      · rw [if_neg hj]
        refine Eq.trans (if_congr ?_ rfl rfl) (if_neg hj).symm
        rw [Bool.and_eq_true, decide_eq_true_eq]
        exact Iff.rfl
    have ht : retryQueued i next c s = t := by
      rw [retryQueued, hmoved]
      rfl
    have hfailed := (programFailed_retry hc hretried page).trans (retryBuf_eq hc)
    rw [hnext, ht] at hfailed
    have hpast : pastCap c t = true ↔ ∃ j : Fin 4, waits moved[j] = true ∧ c.snapshot.pageCap ≤ (moved[j]).page := pastCap_iff c t
    refine ⟨fun hall => hfailed.trans (if_neg fun h => ?_), fun hex => hfailed.trans (if_pos (hpast.mpr hex))⟩
    obtain ⟨j, hw, hcap⟩ := hpast.mp h
    exact Nat.not_le.mpr (hall j hw) hcap
  · intro u b cap next failed nextPage
    have hnext : retryPage c b.page s = next := retryPage_eq c b.page s
    have hu : u = faultBuf i c s := programFailed_fault hc hretried page'
    refine ⟨fun hhead => ?_, fun x hhead hx => ?_⟩
    · rw [hu, faultBuf_head hc hhead, hnext]
      rfl
    · intro page gone stop before ends
      have hgone : ∀ j, Buf.unstarted (contentFailed i s).engine.bufs[j] = true ↔ gone j := fun j => unstarted_contentFailed i j s
      have hfetches : (withdrawFor c (contentFailed i s)).fetches = (withdrawFor c s).fetches := withdrawFor_fetches c _ _ rfl
      have hbufs : (Vector.ofFn fun j : Fin 4 => if Buf.unstarted (contentFailed i s).engine.bufs[j] = true
            then { (contentFailed i s).engine.bufs[j] with state := .empty } else (contentFailed i s).engine.bufs[j]) =
          Vector.ofFn fun j : Fin 4 =>
            if j = i then failed else if gone j then { s.engine.bufs[j] with state := .empty } else s.engine.bufs[j] := by
        refine congrArg Vector.ofFn (funext fun j => ?_)
        rw [if_congr (hgone j) rfl rfl, get_contentFailed]
        by_cases hj : j = i
        · rw [if_pos hj, if_pos hj, if_neg fun h : gone j => h.1 hj]
        · rw [if_neg hj, if_neg hj]
      have hends : ∀ last, ((lowestBuf (bufsWhere Buf.unstarted (contentFailed i s))).elim (max c.nextPage next)
          fun b => max b.2.page next) = last → ends last := fun last hlast => by
        refine (hu.trans (faultBuf_data hc hx hhead)).trans ?_
        rw [hnext, hlast, faultSection, pageAfter_eq, droppedWhere, queue_droppedWhere hgone, hfetches, hbufs]
        rfl
      refine ⟨fun hnone => hends _ ?_, fun l hl hlow => hends _ ?_⟩
      · rw [lowestBuf_bufsWhere_none fun j h => hnone j ((hgone j).mp h)]
        rfl
      · have hpage : ∀ j, gone j → ((contentFailed i s).engine.bufs[j]).page = page j := fun j hj => by
          rw [get_contentFailed, if_neg hj.1]
        rw [lowestBuf_bufsWhere ((hgone l).mpr hl) fun j hj hw => by
          rw [hpage l hl, hpage j ((hgone j).mp hw)]
          exact hlow j hj ((hgone j).mp hw)]
        exact congrArg (max · next) (hpage l hl)
  · intro u cap page gone bufs kept ends
    have hgone : ∀ j, cutPick drop s.engine.bufs[j] = true ↔ gone j := fun j => cutPick_iff drop _
    have hends : ∀ d, u = cutEnds (cutPick drop) k c d s → ends d := fun d hd => by
      refine hd.trans ?_
      rw [cutEnds, droppedWhere, queue_droppedWhere hgone, bufs_droppedWhere hgone]
    refine ⟨fun hnone => hends _ ?_, fun i hi hlow => ⟨fun hx => hends _ ?_, fun x hx => ?_⟩⟩
    · exact cutSection_none hc (lowestBuf_bufsWhere_none fun j h => hnone j ((hgone j).mp h))
    · exact cutSection_head hc (lowestBuf_bufsWhere ((hgone i).mpr hi) fun j hj hw => hlow j hj ((hgone j).mp hw)) hx
    · intro stop held
      refine hends _ ?_
      have hcut := cutSection_data (k := k) (o := o) hc
        (lowestBuf_bufsWhere ((hgone i).mpr hi) fun j hj hw => hlow j hj ((hgone j).mp hw)) hx
      have hheld : x.kept (droppedWhere (cutPick drop) c s) = held := by
        rw [Section.kept_eq, droppedWhere, bufs_droppedWhere hgone]
      rw [cutSectionBy, pageAfter_eq, hheld] at hcut
      exact hcut
  · intro gone
    refine ⟨fun ch item hitem hkind hchan => ?_, fun hnone => withdrawFor_nowhere (fun ch h => ?_) s⟩
    · rw [withdrawFor_here ⟨item, hitem, hkind, hchan⟩, withdrawRegion_eq]
      rfl
    · obtain ⟨item, hitem, hkind, hchan⟩ := h
      exact hnone ch item hitem hkind hchan

end Sys2Proof.Machine
end

