-- ==== Sys2Proof/Proofs/StoreChoices.lean ====
section
/-! PROOFS. Sys2Proof/Proofs/StoreChoices.lean: the operation that the Store Controller chooses next, what each waiting request would
program, and which of them may start (R116, R123, R126, R129, R132). -/

namespace Sys2Proof.Machine

/-! ## What starting an operation leaves -/

theorem frameOf_markStarted (who : Programmer) (page : Nat) (s : State) : frameOf (markStarted who page s) = frameOf s := by
  cases who with
  | relocation => exact frameOf_takePoolPage _ _
  | buf i => rfl
  | journal => rfl
  | commit p => rfl
  | settings => rfl

theorem frameOf_startProgram (j : Job) (s : State) : frameOf (startProgram j s) = frameOf s :=
  (frameOf_drawProgram _).trans ((frameOf_markStarted _ _ _).trans (frameOf_onStore _ _))

theorem frameOf_startErase (who : Eraser) (block : Nat) (s : State) : frameOf (startErase who block s) = frameOf s := by
  cases who with
  | area => exact (frameOf_setBlock _ _ _).trans (frameOf_onStore _ _)
  | pool => rfl
  | journal => rfl
  | settings => rfl

theorem frameOf_programRefused (who : Programmer) (s : State) : frameOf (programRefused who s) = frameOf s := by
  cases who with
  | buf i => exact frameOf_bufRefused _ _
  | journal => rfl
  | relocation => rfl
  | commit p => exact frameOf_refuse _ _ _
  | settings => exact frameOf_endStore _ _ _

theorem frameOf_journalRefused (page : Nat) (s : State) : frameOf (journalRefused page s) = frameOf s := by
  unfold journalRefused
  split
  · dsimp only
    split
    · exact (frameOf_setStall _).trans (frameOf_onDir _ _)
    · exact frameOf_onDir _ _
  · exact (frameOf_forEach _ _ (fun x t => frameOf_recordRefused x t) _).trans (frameOf_onDir _ _)

theorem frameOf_targetFailed (who : Programmer) (page : Nat) (s : State) : frameOf (targetFailed who page s) = frameOf s :=
  (frameOf_programFailed _ _ _).trans (frameOf_reportProgramFail _ _ _ _)

/-- The state that a choice leaves. -/
def Chosen.state : Chosen → State
  | .started s => s
  | .again s => s

theorem frameOf_tryJob (j : Job) {refused : State → State} (h : ∀ t, frameOf (refused t) = frameOf t) (s : State) :
    frameOf (tryJob j refused s).state = frameOf s := by
  unfold tryJob
  split
  · exact frameOf_targetFailed _ _ _
  · split
    · exact frameOf_startProgram _ _
    · exact h s

theorem frameOf_tryRequest (q : QReq) (s : State) : frameOf (tryRequest q s).state = frameOf s := by
  have hjob : ∀ t, frameOf t = frameOf s → frameOf (match jobOf q s with
      | some j => tryJob j (programRefused j.who) t
      | none => Chosen.again t).state = frameOf s := fun t ht => by
    cases jobOf q s with
    | none => exact ht
    | some j => exact (frameOf_tryJob j (frameOf_programRefused j.who) t).trans ht
  have hwithdraw : frameOf (withdraw q s) = frameOf s := frameOf_withdraw q s
  cases q with
  | erase who block => exact (frameOf_startErase who block _).trans hwithdraw
  | buf i => exact hjob _ hwithdraw
  | relocation => exact hjob _ hwithdraw
  | commit p => exact hjob _ hwithdraw
  | settings => exact hjob _ hwithdraw

/-- The Store Controller's choice. -/
def chosenNext (s : State) : Option Chosen :=
  (journalPage s.dir).elim ((s.store.queue.find? (startable s)).map fun q => tryRequest q s) fun page =>
    some (tryJob (journalJob page s) (journalRefused page) s)

/-- The choice made again where nothing has started. -/
def afterChoice (n : Nat) (s : State) (c : Option Chosen) : State :=
  match c with
  | some (.started t) => t
  | some (.again t) => startNext n t
  | none => s

theorem startNext_succ (n : Nat) (s : State) : startNext (n + 1) s = afterChoice n s (chosenNext s) := by
  rw [startNext, chosenNext]
  cases journalPage s.dir <;> rfl

theorem frameOf_chosenNext {s : State} {c : Chosen} (h : chosenNext s = some c) : frameOf c.state = frameOf s := by
  unfold chosenNext at h
  cases hpage : journalPage s.dir with
  | some page =>
    rw [hpage] at h
    exact Option.some.inj h ▸ frameOf_tryJob _ (frameOf_journalRefused page) s
  | none =>
    rw [hpage] at h
    obtain ⟨q, -, rfl⟩ := Option.map_eq_some_iff.mp h
    exact frameOf_tryRequest q s

theorem frameOf_startNext (n : Nat) (s : State) : frameOf (startNext n s) = frameOf s := by
  induction n generalizing s with
  | zero => rfl
  | succ n ih =>
    rw [startNext_succ]
    cases hc : chosenNext s with
    | none => rfl
    | some c =>
      have hframe := frameOf_chosenNext hc
      cases c with
      | started t => exact hframe
      | again t => exact (ih t).trans hframe

/-! ## The choice (R126, R129) -/

theorem startNext_journal {n page : Nat} {s : State} (hpage : journalPage s.dir = some page) :
    startNext (n + 1) s = afterChoice n s (some (tryJob (journalJob page s) (journalRefused page) s)) := by
  rw [startNext_succ, chosenNext, hpage, Option.elim_some]

theorem startNext_request {n : Nat} {s : State} {q : QReq} (hpage : journalPage s.dir = none)
    (hq : s.store.queue.find? (startable s) = some q) : startNext (n + 1) s = afterChoice n s (some (tryRequest q s)) := by
  rw [startNext_succ, chosenNext, hpage, Option.elim_none, hq, Option.map_some]

theorem startNext_idle {n : Nat} {s : State} (hpage : journalPage s.dir = none) (hq : s.store.queue.find? (startable s) = none) :
    startNext (n + 1) s = s := by
  rw [startNext_succ, chosenNext, hpage, Option.elim_none, hq, Option.map_none]
  rfl

theorem tryJob_failed {j : Job} {refused : State → State} {s : State} (h : targetRetired s j.page = true) :
    tryJob j refused s = .again (targetFailed j.who j.page s) := if_pos h

theorem tryJob_starts {j : Job} {refused : State → State} {s : State} (h : targetRetired s j.page = false)
    (hmay : programMayStart j.close s = true) : tryJob j refused s = .started (startProgram j s) :=
  (if_neg (Bool.eq_false_iff.mp h)).trans (if_pos hmay)

theorem tryJob_refused {j : Job} {refused : State → State} {s : State} (h : targetRetired s j.page = false)
    (hmay : programMayStart j.close s = false) : tryJob j refused s = .again (refused s) :=
  (if_neg (Bool.eq_false_iff.mp h)).trans (if_neg (Bool.eq_false_iff.mp hmay))

theorem tryRequest_job {q : QReq} {j : Job} {s : State} (h : jobOf q s = some j) :
    tryRequest q s = tryJob j (programRefused j.who) (withdraw q s) := by
  cases q with
  | erase who block => exact absurd h (Option.some_ne_none j).symm
  | buf i => rw [tryRequest, h]
  | relocation => rw [tryRequest, h]
  | commit p => rw [tryRequest, h]
  | settings => rw [tryRequest, h]

theorem targetRetired_withdraw (q : QReq) (page : Nat) (s : State) : targetRetired (withdraw q s) page = targetRetired s page := rfl

theorem programMayStart_withdraw (q : QReq) (close : Bool) (s : State) :
    programMayStart close (withdraw q s) = programMayStart close s := rfl

/-! ## The programs that waiting requests ask for (R123) -/

theorem jobOf_buf {c : Capture} {s : State} (hc : s.engine.capture = some c) (i : Fin 4) : jobOf (.buf i) s =
    c.blocks[(s.engine.bufs[i]).page / 128]?.map fun block =>
      { who := .buf i, page := mapped s.dir.map (128 * block + (s.engine.bufs[i]).page % 128)
        content := padTo 0xFF 512 (s.engine.bufs[i]).bytes, close := (s.engine.bufs[i]).flush } := by
  rw [jobOf, hc]
  dsimp only
  rw [physMapped, physOf, List.getD_eq_getElem?_getD, List.getElem?_map]
  have hsize : blockPages = 128 := rfl
  rw [hsize]
  cases c.blocks[(s.engine.bufs[i]).page / 128]? <;> rfl

theorem poolFrom_of_next {retired : List Nat} {n k : Nat} (hk : k < 128) (hn : n ≤ k) (hfree : 384 + k ∉ retired)
    (hfirst : ∀ j : Nat, n ≤ j → j < k → 384 + j ∈ retired) : poolFrom retired n = k := by
  have hfind : (List.range blockPages).find? (fun i => n ≤ i && !retired.contains (poolBase + i)) = some k := by
    rw [List.find?_range_eq_some]
    refine ⟨?_, List.mem_range.mpr hk, fun j hj => ?_⟩
    · rw [Bool.and_eq_true, decide_eq_true_eq, Bool.not_eq_true', ← Bool.not_eq_true, List.contains_iff_mem]
      exact ⟨hn, hfree⟩
    · rw [Bool.not_eq_true', ← Bool.not_eq_true, Bool.and_eq_true, decide_eq_true_eq, Bool.not_eq_true', ← Bool.not_eq_true,
        List.contains_iff_mem]
      exact fun h => h.2 (hfirst j h.1 hj)
  rw [poolFrom, hfind]
  rfl

theorem poolFrom_lt_iff (retired : List Nat) (n : Nat) :
    poolFrom retired n < 128 ↔ ∃ k : Nat, k < 128 ∧ n ≤ k ∧ 384 + k ∉ retired := by
  rw [poolFrom]
  have hsize : blockPages = 128 := rfl
  have hbase : poolBase = 384 := rfl
  rw [hsize, hbase]
  cases hfind : (List.range 128).find? fun i => decide (n ≤ i) && !retired.contains (384 + i) with
  | none =>
    refine ⟨fun h => absurd h (Nat.lt_irrefl 128), fun ⟨k, hk, hn, hfree⟩ => ?_⟩
    refine absurd ?_ (List.find?_eq_none.mp hfind k (List.mem_range.mpr hk))
    rw [Bool.and_eq_true, decide_eq_true_eq, Bool.not_eq_true', ← Bool.not_eq_true, List.contains_iff_mem]
    exact ⟨hn, hfree⟩
  | some k =>
    have hk : k < 128 := List.mem_range.mp (List.mem_of_find?_eq_some hfind)
    have hpick := List.find?_some hfind
    rw [Bool.and_eq_true, decide_eq_true_eq, Bool.not_eq_true', ← Bool.not_eq_true, List.contains_iff_mem] at hpick
    exact ⟨fun _ => ⟨k, hk, hpick⟩, fun _ => hk⟩

theorem jobOf_relocation {r : Reloc} {k : Nat} {s : State} (hr : s.integ.reloc = some r) (hk : k < 128)
    (hpool : poolFrom s.store.retPages s.integ.nextPool = k) :
    jobOf .relocation s = some { who := .relocation, page := 384 + k, content := r.content, close := false } := by
  rw [jobOf, hr]
  dsimp only
  rw [hpool]
  exact if_pos hk

theorem commitSource_of_target {p : PortId} {cap slot : Nat} {e : DirEntry} {s : State}
    (htarget : (s.port p).pad.target = some (cap, slot)) (he : findEntry s.dir cap = some e) :
    commitSource p s = e.head.bind (physOf e.blocks) := by
  rw [commitSource, htarget]
  dsimp only
  rw [he]
  rfl

theorem jobOf_commit {p : PortId} {cap slot src : Nat} {s : State} (htarget : (s.port p).pad.target = some (cap, slot))
    (hsource : commitSource p s = some src) : jobOf (.commit p) s = some
      { who := .commit p, page := mapped s.dir.map src, close := false
        content := padTo 0xFF 512 (List.replicate (32 + 120 * slot) 0xFF ++ (s.port p).pad.text) } := by
  rw [jobOf, htarget, hsource]
  rfl

theorem jobOf_settings_erasing {op : StoreOp} {s : State} (hop : s.link.store = some op) (hstep : op.step = .erasing) :
    jobOf .settings s = none := by
  rw [jobOf, hop]
  dsimp only
  rw [hstep]

theorem jobOf_settings {op : StoreOp} {page k : Nat} {s : State} (hop : s.link.store = some op) (hstep : op.step = .programming page k) :
    jobOf .settings s = some { who := .settings, page := page + k, content := padTo 0xFF 512 ((op.image.drop (512 * k)).take 512)
                               close := false } := by
  rw [jobOf, hop]
  dsimp only
  rw [hstep]
  rfl

/-! ## The requests that may start (R116, R129, R132) -/

theorem startable_commit (p : PortId) (s : State) : startable s (.commit p) = true ↔ jobOf (.commit p) s ≠ none ∧
    ∀ (r : Reloc) (src : Nat), s.integ.reloc = some r → commitSource p s = some src → r.page ≠ src := by
  have hstart : startable s (.commit p) = ((jobOf (.commit p) s).isSome && !commitWaits p s) := rfl
  rw [hstart, Bool.and_eq_true, Option.isSome_iff_ne_none, Bool.not_eq_true', commitWaits]
  refine and_congr_right fun _ => ?_
  cases s.integ.reloc with
  | none => simp
  | some r =>
    cases commitSource p s with
    | none => simp
    | some src => simp

theorem startable_buf (i : Fin 4) (s : State) : startable s (.buf i) = true ↔ jobOf (.buf i) s ≠ none ∧
    ∀ (c : Capture) (b : Nat), s.engine.capture = some c → c.blocks[(s.engine.bufs[i]).page / 128]? = some b →
      (∀ x ∈ s.dir.slotted, x.record ≠ .blockAllot c.number b) ∧ ∀ x ∈ s.dir.pending, x.1 ≠ .blockAllot c.number b := by
  have hstart : startable s (.buf i) = ((jobOf (.buf i) s).isSome && !allotOnWay i s) := rfl
  have hsize : blockPages = 128 := rfl
  rw [hstart, Bool.and_eq_true, Option.isSome_iff_ne_none, Bool.not_eq_true', allotOnWay, hsize]
  refine and_congr_right fun _ => ?_
  cases s.engine.capture with
  | none => simp
  | some c =>
    dsimp only
    cases hb : c.blocks[(s.engine.bufs[i]).page / 128]? with
    | none =>
      refine ⟨fun _ c' b hc' hb' => ?_, fun _ => rfl⟩
      cases hc'
      exact absurd (hb.symm.trans hb') (Option.some_ne_none b).symm
    | some b =>
      dsimp only
      rw [Bool.or_eq_false_iff, List.any_eq_false, List.any_eq_false]
      simp only [decide_eq_true_eq]
      refine ⟨fun h c' b' hc' hb' => ?_, fun h => h c b rfl hb⟩
      cases hc'
      cases hb.symm.trans hb'
      exact h

end Sys2Proof.Machine
end

