-- ==== Sys2Proof/Proofs/JournalPrograms.lean ====
section
/-! PROOFS. Sys2Proof/Proofs/JournalPrograms.lean: the content and the class of a journal program, and the start of a relocation (R111,
R129, R130, R162). -/

namespace Sys2Proof.Machine

/-! ## The content of a journal program -/

theorem slice_flatMap {α β : Type} {f : α → List β} {m : Nat} {xs : List α} (hf : ∀ x ∈ xs, (f x).length = m) {i : Nat} {x : α}
    (hx : xs[i]? = some x) : ((xs.flatMap f).drop (m * i)).take m = f x := by
  induction xs generalizing i with
  | nil => exact absurd hx (Option.some_ne_none x).symm
  | cons y ys ih =>
    have hy : (f y).length = m := hf y List.mem_cons_self
    rw [List.flatMap_cons]
    cases i with
    | zero =>
      cases hx
      rw [Nat.mul_zero, List.drop_zero, List.take_left' hy]
    | succ i =>
      rw [Nat.mul_succ, Nat.add_comm, ← List.drop_drop, List.drop_left' hy]
      exact ih (fun z hz => hf z (List.mem_cons_of_mem y hz)) hx

theorem length_flatMap_const {α β : Type} {f : α → List β} {m : Nat} {xs : List α} (hf : ∀ x ∈ xs, (f x).length = m) :
    (xs.flatMap f).length = m * xs.length := by
  induction xs with
  | nil => rfl
  | cons y ys ih =>
    rw [List.flatMap_cons, List.length_append, ih fun z hz => hf z (List.mem_cons_of_mem y hz), hf y List.mem_cons_self,
      List.length_cons, Nat.mul_succ, Nat.add_comm]

theorem length_padTo {n : Nat} (fill : Byte) (bs : List Byte) : (padTo fill n bs).length = n := by
  rw [padTo, List.length_append, List.length_take, List.length_replicate]
  omega

theorem length_slotBytes (seq : BitVec 32) (r : JRec) : (slotBytes seq r).length = 32 := by
  rw [slotBytes, withCrc, List.length_append, List.length_append, List.length_append, length_padTo]
  rfl

/-- The content of one slot of a journal program. -/
def slotContent (xs : List Slotted) (i : Nat) : List Byte :=
  (xs.find? fun x => x.slot % 16 = i).elim (List.replicate 32 0xFF) fun x => slotBytes x.seq x.record

theorem length_slotContent (xs : List Slotted) (i : Nat) : (slotContent xs i).length = 32 := by
  unfold slotContent
  cases xs.find? fun x => x.slot % 16 = i with
  | none => exact List.length_replicate
  | some x => exact length_slotBytes _ _

theorem journalContent_eq (xs : List Slotted) : journalContent xs = (List.range 16).flatMap (slotContent xs) := by
  refine List.flatMap_congr fun i _ => ?_
  unfold slotContent
  cases h : xs.find? fun x => x.slot % 16 = i with
  | none =>
    have h' : xs.find? (fun x => x.slot % slotsPerPage = i) = none := h
    rw [h']
    rfl
  | some x =>
    have h' : xs.find? (fun x => x.slot % slotsPerPage = i) = some x := h
    rw [h']
    rfl

theorem length_journalContent (xs : List Slotted) : (journalContent xs).length = 512 := by
  rw [journalContent_eq, length_flatMap_const fun i _ => length_slotContent xs i, List.length_range]

theorem journalContent_slot (xs : List Slotted) {i : Nat} (hi : i < 16) :
    ((journalContent xs).drop (32 * i)).take 32 = slotContent xs i := by
  rw [journalContent_eq]
  exact slice_flatMap (fun i _ => length_slotContent xs i) (List.getElem?_range hi)

theorem journalPage_eq (d : Directory) :
    journalPage d = if d.comp.held then none else d.slotted.head?.map fun x => 128 * x.block + x.slot / 16 := by
  unfold journalPage mayCarry
  cases d.comp.held <;> rfl

/-! ## Relocations -/

theorem mem_allPorts (p : PortId) : p ∈ allPorts := by
  cases p <;> decide

/-- A relocation may start on the head of the scrub queue. -/
def mayRelocate (page : Nat) (s : State) : Bool :=
  s.ready && isNormal s && s.integ.reloc.isNone && poolFrom s.store.retPages s.integ.nextPool < blockPages &&
    !(allPorts.any fun q => (committing q s).isSome && commitSource q s = some page)

theorem mayRelocate_iff (page : Nat) (s : State) : mayRelocate page s = true ↔
    s.ready = true ∧ s.monitor.state = .normal ∧ s.integ.reloc = none ∧
      (∃ k : Nat, k < 128 ∧ s.integ.nextPool ≤ k ∧ 384 + k ∉ s.store.retPages) ∧
      ∀ q : PortId, committing q s ≠ none → commitSource q s ≠ some page := by
  simp only [mayRelocate, Bool.and_eq_true, decide_eq_true_eq, isNormal_iff, Option.isNone_iff_eq_none, Bool.not_eq_true',
    List.any_eq_false, and_assoc]
  refine and_congr_right fun _ => and_congr_right fun _ => and_congr_right fun _ => and_congr (poolFrom_lt_iff _ _) ?_
  refine ⟨fun h q hq hsource => h q (mem_allPorts q) ?_, fun h q _ hboth => ?_⟩
  · exact ⟨Option.isSome_iff_ne_none.mpr hq, hsource⟩
  · exact h q (Option.isSome_iff_ne_none.mp hboth.1) hboth.2

theorem relocatable_iff (s : State) (page : Nat) : relocatable s = some page ↔
    s.integ.scrub.head? = some page ∧ s.ready = true ∧ s.monitor.state = .normal ∧ s.integ.reloc = none ∧
      (∃ k : Nat, k < 128 ∧ s.integ.nextPool ≤ k ∧ 384 + k ∉ s.store.retPages) ∧
      ∀ q : PortId, committing q s ≠ none → commitSource q s ≠ some page := by
  rw [← mayRelocate_iff, relocatable]
  cases s.integ.scrub with
  | nil => exact ⟨fun h => absurd h (Option.some_ne_none page).symm, fun h => absurd h.1 (Option.some_ne_none page).symm⟩
  | cons p ps =>
    rw [List.head?_cons]
    by_cases hmay : mayRelocate p s = true
    · refine (Eq.congr_left (if_pos hmay)).trans ⟨fun h => ⟨h, Option.some.inj h ▸ hmay⟩, fun h => h.1⟩
    · refine (Eq.congr_left (if_neg hmay)).trans ⟨fun h => absurd h (Option.some_ne_none page).symm, fun h => ?_⟩
      exact absurd (Option.some.inj h.1 ▸ h.2) hmay

theorem frameOf_relocationStarted (s : State) : frameOf (relocationStarted s) = frameOf s := by
  unfold relocationStarted
  split
  · rfl
  · refine (frameOf_settle _).trans ?_
    split
    · rfl
    · rw [readSource]
      exact (frameOf_onInteg _ _).trans (frameOf_takePage _ _ _ _ _)

theorem relocationStarted_of_some {s : State} {page : Nat} (h : relocatable s = some page) : relocationStarted s =
    settle (if pageBusy s (mapped s.dir.map page) then waitForSource page s else readSource page s) := by
  rw [relocationStarted, h]

theorem relocationStarted_of_none {s : State} (h : relocatable s = none) : relocationStarted s = s := by
  rw [relocationStarted, h]

theorem relocateStep_reading {s : State} {r : Reloc} (hr : s.integ.reloc = some r) (hstep : r.step = .reading) :
    relocateStep s = if pageBusy s (mapped s.dir.map r.page) then .wait else .did (readSource r.page s) := by
  rw [relocateStep, hr]
  dsimp only
  rw [hstep]

theorem exec_relocationStart {s : State} (hp : s.powered = true) : exec .relocationStart s = .next (relocationStarted s) :=
  congrArg Host.Outcome.next (whenPowered_of_frame _ s hp (frameOf_relocationStarted s))

end Sys2Proof.Machine
end

