-- ==== Sys2Proof/Proofs/FinalFlush.lean ====
section
/-! PROOFS. Sys2Proof/Proofs/FinalFlush.lean: what a close for power makes of the staging buffers and of the section that it ends
(R112). -/

namespace Sys2Proof.Machine

/-! ## The lowest of some buffers -/

/-- The lower of the best buffer so far and another. -/
def lowerBuf (best : Option (Fin 4 × Buf)) (x : Fin 4 × Buf) : Option (Fin 4 × Buf) :=
  best.elim (some x) fun y => if x.2.page < y.2.page then some x else some y

theorem lowestBuf_eq (xs : List (Fin 4 × Buf)) : lowestBuf xs = xs.foldl lowerBuf none := by
  refine congrArg (fun f => xs.foldl f none) (funext fun best => funext fun x => ?_)
  cases best <;> rfl

theorem lowerBuf_spec {best : Option (Fin 4 × Buf)} {x b : Fin 4 × Buf} (h : lowerBuf best x = some b) :
    (b = x ∨ best = some b) ∧ b.2.page ≤ x.2.page ∧ ∀ y, best = some y → b.2.page ≤ y.2.page := by
  cases best with
  | none =>
    cases h
    exact ⟨.inl rfl, le_refl _, fun y hy => absurd hy (Option.some_ne_none y).symm⟩
  | some y =>
    rw [lowerBuf, Option.elim_some] at h
    by_cases hlt : x.2.page < y.2.page
    · rw [if_pos hlt] at h
      cases h
      exact ⟨.inl rfl, le_refl _, fun z hz => Option.some.inj hz ▸ hlt.le⟩
    · rw [if_neg hlt] at h
      cases h
      exact ⟨.inr rfl, Nat.le_of_not_lt hlt, fun z hz => Option.some.inj hz ▸ le_refl _⟩

theorem lowerBuf_ne_none (best : Option (Fin 4 × Buf)) (x : Fin 4 × Buf) : ∃ b, lowerBuf best x = some b := by
  unfold lowerBuf
  cases best with
  | none => exact ⟨x, rfl⟩
  | some y =>
    rw [Option.elim_some]
    split
    · exact ⟨x, rfl⟩
    · exact ⟨y, rfl⟩

theorem foldl_lowerBuf_spec (xs : List (Fin 4 × Buf)) {best : Option (Fin 4 × Buf)} {b : Fin 4 × Buf}
    (h : xs.foldl lowerBuf best = some b) :
    (b ∈ xs ∨ best = some b) ∧ (∀ y ∈ xs, b.2.page ≤ y.2.page) ∧ ∀ y, best = some y → b.2.page ≤ y.2.page := by
  induction xs generalizing best with
  | nil => exact ⟨.inr h, fun y hy => absurd hy List.not_mem_nil, fun y hy => (Option.some.inj (hy.symm.trans h)) ▸ le_refl _⟩
  | cons x xs ih =>
    obtain ⟨hmem, hlow, hbest⟩ := ih h
    obtain ⟨next, hnext⟩ := lowerBuf_ne_none best x
    obtain ⟨hfrom, hx, hold⟩ := lowerBuf_spec hnext
    have hle := hbest next hnext
    refine ⟨?_, fun y hy => ?_, fun y hy => hle.trans (hold y hy)⟩
    · rcases hmem with hmem | hmem
      · exact .inl (List.mem_cons_of_mem x hmem)
      · have hb : next = b := Option.some.inj (hnext.symm.trans hmem)
        subst hb
        rcases hfrom with rfl | hfrom
        · exact .inl List.mem_cons_self
        · exact .inr hfrom
    · rcases List.mem_cons.mp hy with rfl | hy
      · exact hle.trans hx
      · exact hlow y hy

theorem lowestBuf_spec {xs : List (Fin 4 × Buf)} {b : Fin 4 × Buf} (h : lowestBuf xs = some b) :
    b ∈ xs ∧ ∀ y ∈ xs, b.2.page ≤ y.2.page := by
  rw [lowestBuf_eq] at h
  obtain ⟨hmem, hlow, -⟩ := foldl_lowerBuf_spec xs h
  exact ⟨hmem.resolve_right (Option.some_ne_none b).symm, hlow⟩

theorem foldl_lowerBuf_ne_none (xs : List (Fin 4 × Buf)) (b : Fin 4 × Buf) : xs.foldl lowerBuf (some b) ≠ none := by
  induction xs generalizing b with
  | nil => exact Option.some_ne_none b
  | cons x xs ih =>
    obtain ⟨next, hnext⟩ := lowerBuf_ne_none (some b) x
    rw [List.foldl_cons, hnext]
    exact ih next

theorem eq_nil_of_lowestBuf {xs : List (Fin 4 × Buf)} (h : lowestBuf xs = none) : xs = [] := by
  cases xs with
  | nil => rfl
  | cons x xs =>
    rw [lowestBuf_eq] at h
    exact absurd h (foldl_lowerBuf_ne_none xs x)

theorem mem_bufList (s : State) (x : Fin 4 × Buf) : x ∈ bufList s ↔ x.2 = s.engine.bufs[x.1] := by
  rw [bufList, List.mem_map]
  refine ⟨fun ⟨i, _, hx⟩ => hx ▸ rfl, fun h => ⟨x.1, List.mem_finRange _, ?_⟩⟩
  rw [← h]

/-! ## The buffers of a final flush -/

/-- The buffer may become the final flush. -/
def mayFlush (c : Capture) (b : Buf) : Bool := b.unstarted && !c.unallotted b

/-- The final flush. -/
def flushPick (c : Capture) (s : State) : Option (Fin 4 × Buf) := lowestBuf (bufsWhere (mayFlush c) s)

/-- The buffers that the close for power drops. -/
def flushDropped (c : Capture) (s : State) : List (Fin 4 × Buf) :=
  (bufsWhere Buf.unstarted s).filter fun x => some x.1 ≠ (flushPick c s).map (·.1)

theorem flushPick_eq (c : Capture) (s : State) :
    lowestBuf (((bufList s).filter fun x => x.2.unstarted).filter fun x => !c.unallotted x.2) = flushPick c s := by
  rw [List.filter_filter, flushPick, bufsWhere]
  refine congrArg lowestBuf (List.filter_congr fun x _ => ?_)
  exact Bool.and_comm _ _

theorem mem_bufsWhere (p : Buf → Bool) (s : State) (x : Fin 4 × Buf) :
    x ∈ bufsWhere p s ↔ x.2 = s.engine.bufs[x.1] ∧ p s.engine.bufs[x.1] = true := by
  rw [bufsWhere, List.mem_filter, mem_bufList]
  exact and_congr_right fun h => by rw [h]

theorem flushPick_spec {c : Capture} {s : State} {i : Fin 4} {b : Buf} (h : flushPick c s = some (i, b)) :
    b = s.engine.bufs[i] ∧ mayFlush c s.engine.bufs[i] = true ∧
      ∀ j : Fin 4, mayFlush c s.engine.bufs[j] = true → (s.engine.bufs[i]).page ≤ (s.engine.bufs[j]).page := by
  obtain ⟨hmem, hlow⟩ := lowestBuf_spec h
  obtain ⟨hb, hmay⟩ := (mem_bufsWhere _ _ _).mp hmem
  have hb : b = s.engine.bufs[i] := hb
  subst hb
  exact ⟨rfl, hmay, fun j hj => hlow (j, s.engine.bufs[j]) ((mem_bufsWhere _ _ _).mpr ⟨rfl, hj⟩)⟩

theorem flushPick_none {c : Capture} {s : State} (h : flushPick c s = none) (j : Fin 4) : ¬ mayFlush c s.engine.bufs[j] = true := by
  intro hj
  have hmem := (mem_bufsWhere (mayFlush c) s (j, s.engine.bufs[j])).mpr ⟨rfl, hj⟩
  rw [eq_nil_of_lowestBuf h] at hmem
  exact absurd hmem List.not_mem_nil

/-- The buffer's index is that of the final flush. -/
def isPick (c : Capture) (s : State) (j : Fin 4) : Prop := (flushPick c s).map (·.1) = some j

theorem mem_flushDropped (c : Capture) (s : State) (j : Fin 4) :
    j ∈ (flushDropped c s).map (·.1) ↔ (s.engine.bufs[j]).unstarted = true ∧ ¬ isPick c s j := by
  rw [flushDropped, List.mem_map]
  constructor
  · rintro ⟨x, hx, rfl⟩
    rw [List.mem_filter, mem_bufsWhere, decide_eq_true_eq] at hx
    exact ⟨hx.1.2, fun hpick => hx.2 hpick.symm⟩
  · rintro ⟨hj, hpick⟩
    refine ⟨(j, s.engine.bufs[j]), ?_, rfl⟩
    rw [List.mem_filter, mem_bufsWhere, decide_eq_true_eq]
    exact ⟨⟨rfl, hj⟩, fun h => hpick h.symm⟩

/-- The state without the buffers that the close for power drops. -/
def flushLeft (c : Capture) (s : State) : State := withdrawFor c (dropBufs ((flushDropped c s).map (·.1)) s)

theorem engine_flushLeft (c : Capture) (s : State) : (flushLeft c s).engine = { s.engine with
    bufs := Vector.ofFn fun j =>
      if j ∈ (flushDropped c s).map (·.1) then { s.engine.bufs[j] with state := .empty } else s.engine.bufs[j] } := by
  rw [flushLeft, withdrawFor_eq, dropBufs_eq]

/-- The bytes of data that the section keeps. -/
def flushLen (c : Capture) (x : Section) (s : State) : Nat := dataIn (dataEnd s.engine.phase x) (x.kept (flushLeft c s))

/-- The walk entry at the cursor had lapsed. -/
def lapsedHere (c : Capture) : Bool := c.itemHere.elim false WalkItem.lapsed

/-- The final flush of a section. -/
def flushedBuf (c : Capture) (x : Section) (s : State) (b : Buf) : Buf :=
  flushBuf (lapsedHere c) x (dataEnd s.engine.phase x) (flushLen c x s) b

/-- The section that a close for power ends. -/
def flushedSection (c : Capture) (x : Section) (s : State) : Section :=
  x.cut s.engine.phase .skippedPower (flushLen c x s)
    (x.pagesForPower (flushLeft c s) ((lowestBuf (flushDropped c s)).map (·.2)))

/-- The staging buffers after a close for power. -/
def flushedBufs (c : Capture) (x : Section) (s : State) : Vector Buf 4 :=
  (flushPick c s).elim (flushLeft c s).engine.bufs fun b => vset (flushLeft c s).engine.bufs b.1 (flushedBuf c x s b.2)

theorem engine_flushForPower {c : Capture} {x : Section} {s : State} (hc : s.engine.capture = some c) (hx : c.current = some x) :
    (flushForPower c s).engine = { s.engine with
      bufs := flushedBufs c x s
      capture := some { c with current := some (flushedSection c x s) } } := by
  have hdropped : ((bufList s).filter fun x => x.2.unstarted).filter (fun x => decide (some x.1 ≠ (flushPick c s).map (·.1))) =
      flushDropped c s := rfl
  have hleft : withdrawFor c (dropBufs ((flushDropped c s).map (·.1)) s) = flushLeft c s := rfl
  have hcapture : (flushLeft c s).engine.capture = some c := by rw [engine_flushLeft]; exact hc
  have hkept : ∀ o : Buf, Capture.headDropped o c = c := fun o =>
    if_neg fun h => Option.some_ne_none x (hx.symm.trans (Option.isNone_iff_eq_none.mp h))
  unfold flushForPower
  dsimp only
  rw [flushPick_eq, hdropped, hleft]
  have hends : ∀ (left : State) (f : Section → Section), left.engine = { s.engine with bufs := flushedBufs c x s } →
      f x = flushedSection c x s → ∀ cut : Option Buf,
      (State.onSection f (cut.elim left fun o => left.onCapture (Capture.headDropped o))).engine = { s.engine with
        bufs := flushedBufs c x s
        capture := some { c with current := some (flushedSection c x s) } } := fun left f hengine hf cut => by
    have hleftCapture : left.engine.capture = some c := by rw [hengine]; exact hc
    have hsame : cut.elim left (fun o => left.onCapture (Capture.headDropped o)) =
        { left with engine := { left.engine with capture := some c } } := by
      cases cut with
      | none => rw [Option.elim_none, ← hleftCapture]
      | some o => rw [Option.elim_some, onCapture_of_some _ hleftCapture, hkept]
    rw [hsame, State.onSection, onCapture_of_some _ rfl, hx, Option.map_some, hf, hengine]
  have hstay : (flushLeft c s).engine = { s.engine with bufs := (flushLeft c s).engine.bufs } := by
    rw [engine_flushLeft]
  have hsection : ∀ left : State, left.engine = { s.engine with bufs := flushedBufs c x s } →
      (State.onSection (fun x => x.cut s.engine.phase .skippedPower (dataIn (dataEnd s.engine.phase x) (x.kept (flushLeft c s)))
        (x.pagesForPower (flushLeft c s) ((lowestBuf (flushDropped c s)).map (·.2))))
        (((lowestBuf (flushDropped c s)).map (·.2)).elim left fun o => left.onCapture (Capture.headDropped o))).engine =
      { s.engine with
        bufs := flushedBufs c x s
        capture := some { c with current := some (flushedSection c x s) } } := fun left hengine =>
    hends left (fun x => x.cut s.engine.phase .skippedPower (dataIn (dataEnd s.engine.phase x) (x.kept (flushLeft c s)))
      (x.pagesForPower (flushLeft c s) ((lowestBuf (flushDropped c s)).map (·.2)))) hengine rfl _
  cases hpick : flushPick c s with
  | none =>
    have hbufs : flushedBufs c x s = (flushLeft c s).engine.bufs := by rw [flushedBufs, hpick, Option.elim_none]
    have hdone := hsection (flushLeft c s) (hstay.trans (by rw [hbufs]))
    cases hcut : (lowestBuf (flushDropped c s)).map (·.2) <;> rw [hcut] at hdone <;> exact hdone
  | some ib =>
    obtain ⟨i, b⟩ := ib
    have hbufs : flushedBufs c x s = vset (flushLeft c s).engine.bufs i (flushedBuf c x s b) := by
      rw [flushedBufs, hpick, Option.elim_some]
    have hdone := hsection (withdraw (.buf i) ((flushLeft c s).onBuf i fun _ => flushedBuf c x s b)) (by
      rw [hbufs]
      exact congrArg (fun e : Engine => { e with bufs := vset (flushLeft c s).engine.bufs i (flushedBuf c x s b) }) hstay)
    dsimp only
    rw [hx]
    rw [flushedBuf, lapsedHere] at hdone
    revert hdone
    cases c.itemHere <;> cases (lowestBuf (flushDropped c s)).map (·.2) <;> exact id

theorem engine_powerClose {c : Capture} {x : Section} {s : State} (hc : s.engine.capture = some c) (hx : c.current = some x)
    (hphase : s.engine.phase.recording = false) : (powerClose s).engine = { s.engine with
      state := .closing
      phase := .drain
      cause := if s.engine.cause = .none then .power else s.engine.cause
      bufs := flushedBufs c x s
      capture := some { c with current := some (flushedSection c x s) } } := by
  have hclose : powerClose s = setPhase .drain (closeForPower (flushForPower c s)) := by
    rw [powerClose, hc]
    exact if_neg (Bool.eq_false_iff.mp hphase)
  have hengine : (powerClose s).engine = { (flushForPower c s).engine with
      state := .closing
      phase := .drain
      cause := if (flushForPower c s).engine.cause = .none then .power else (flushForPower c s).engine.cause } := by
    rw [hclose, closeForPower, setPhase_reformClose, engine_reformClose]
    rfl
  rw [hengine, engine_flushForPower hc hx]

/-! ## Each buffer after the close -/

theorem get_flushLeft (c : Capture) (s : State) (j : Fin 4) : (flushLeft c s).engine.bufs[j] =
    if j ∈ (flushDropped c s).map (·.1) then { s.engine.bufs[j] with state := .empty } else s.engine.bufs[j] := by
  rw [engine_flushLeft]
  exact get_ofFn _ j

theorem get_flushedBufs_pick {c : Capture} {s : State} {j : Fin 4} (h : isPick c s j) (x : Section) :
    (flushedBufs c x s)[j] = flushedBuf c x s s.engine.bufs[j] := by
  obtain ⟨⟨i, b⟩, hpick, rfl⟩ := Option.map_eq_some_iff.mp h
  rw [flushedBufs, hpick, Option.elim_some, (flushPick_spec hpick).1, vset, Fin.getElem_fin, Vector.getElem_set_self]

theorem get_flushedBufs_other {c : Capture} {s : State} {j : Fin 4} (h : ¬ isPick c s j) (x : Section) :
    (flushedBufs c x s)[j] =
      if (s.engine.bufs[j]).unstarted = true then { s.engine.bufs[j] with state := .empty } else s.engine.bufs[j] := by
  have hleft : (flushedBufs c x s)[j] = (flushLeft c s).engine.bufs[j] := by
    cases hpick : flushPick c s with
    | none => rw [flushedBufs, hpick, Option.elim_none]
    | some b =>
      have hne : b.1 ≠ j := fun hj => h (by rw [isPick, hpick, Option.map_some, hj])
      rw [flushedBufs, hpick, Option.elim_some, vset, Fin.getElem_fin, Vector.getElem_set_ne _ _ fun hj => hne (Fin.ext hj)]
      rfl
  rw [hleft, get_flushLeft]
  refine if_congr ?_ rfl rfl
  rw [mem_flushDropped, and_iff_left h]

theorem mayFlush_of_isPick {c : Capture} {s : State} {j : Fin 4} (h : isPick c s j) : mayFlush c s.engine.bufs[j] = true := by
  obtain ⟨⟨i, b⟩, hpick, rfl⟩ := Option.map_eq_some_iff.mp h
  exact (flushPick_spec hpick).2.1

theorem mayFlush_iff (c : Capture) (b : Buf) : mayFlush c b = true ↔ (b.state = .filling ∨ b.state = .queued) ∧
    b.page / 128 < c.blocks.length := by
  rw [mayFlush, Bool.and_eq_true, unstarted_buf, Bool.not_eq_true', Capture.unallotted, decide_eq_false_iff_not, Nat.not_le]
  exact Iff.rfl

/-- The strictly lowest of the buffers that may become the final flush becomes it. -/
theorem isPick_of_first {c : Capture} {s : State} {i : Fin 4} (hi : mayFlush c s.engine.bufs[i] = true)
    (hfirst : ∀ j : Fin 4, j ≠ i → mayFlush c s.engine.bufs[j] = true → (s.engine.bufs[i]).page < (s.engine.bufs[j]).page) :
    isPick c s i := by
  cases hpick : flushPick c s with
  | none => exact absurd hi (flushPick_none hpick i)
  | some kb =>
    obtain ⟨k, b⟩ := kb
    obtain ⟨-, hk, hlow⟩ := flushPick_spec hpick
    have hki : k = i := by
      by_contra hne
      exact Nat.not_le.mpr (hfirst k hne hk) (hlow i hi)
    rw [isPick, hpick, Option.map_some, hki]

/-- No buffer that is not the lowest becomes the final flush. -/
theorem not_isPick {c : Capture} {s : State} {i : Fin 4} (h : ¬ mayFlush c s.engine.bufs[i] = true ∨
    ∃ j : Fin 4, mayFlush c s.engine.bufs[j] = true ∧ (s.engine.bufs[j]).page < (s.engine.bufs[i]).page) : ¬ isPick c s i := by
  intro hpick
  rcases h with h | ⟨j, hj, hlt⟩
  · exact h (mayFlush_of_isPick hpick)
  · obtain ⟨⟨k, b⟩, hk, rfl⟩ := Option.map_eq_some_iff.mp hpick
    exact Nat.not_le.mpr hlt ((flushPick_spec hk).2.2 j hj)

/-! ## The section that ends -/

/-- The buffers whose bytes the section keeps. -/
def keptBufs (c : Capture) (x : Section) (s : State) : List (Fin 4) :=
  (List.finRange 4).filter fun i => ((flushedBufs c x s)[i]).state ≠ .empty && !(s.engine.bufs[i]).isHead

theorem kept_flushLeft (c : Capture) (x : Section) (s : State) :
    x.kept (flushLeft c s) = x.done ++ (keptBufs c x s).map fun i => (s.engine.bufs[i]).placed := by
  have hbuf : ∀ j : Fin 4, ((flushLeft c s).engine.bufs[j]).isHead = (s.engine.bufs[j]).isHead ∧
      ((flushLeft c s).engine.bufs[j]).placed = (s.engine.bufs[j]).placed := fun j => by
    rw [get_flushLeft]
    split <;> exact ⟨rfl, rfl⟩
  have hstate : ∀ j : Fin 4, ((flushLeft c s).engine.bufs[j]).state = .empty ↔ ((flushedBufs c x s)[j]).state = .empty := fun j => by
    rw [get_flushLeft]
    by_cases hpick : isPick c s j
    · rw [get_flushedBufs_pick hpick, if_neg fun hmem => ((mem_flushDropped c s j).mp hmem).2 hpick]
      have hwaits := ((mayFlush_iff c _).mp (mayFlush_of_isPick hpick)).1
      refine ⟨fun h => ?_, fun h => absurd h BufState.noConfusion⟩
      rw [h] at hwaits
      exact hwaits.elim (fun h => absurd h BufState.noConfusion) fun h => absurd h BufState.noConfusion
    · rw [get_flushedBufs_other hpick, if_congr (by rw [mem_flushDropped, and_iff_left hpick]) rfl rfl]
  rw [Section.kept_eq, keptBufs]
  refine congrArg (x.done ++ ·) ?_
  have hfilter : (List.finRange 4).filter (fun j => ((flushLeft c s).engine.bufs[j]).state ≠ .empty &&
      !((flushLeft c s).engine.bufs[j]).isHead) = keptBufs c x s := by
    refine List.filter_congr fun j _ => ?_
    rw [(hbuf j).1]
    exact congrArg (· && !(s.engine.bufs[j]).isHead) (decide_eq_decide.mpr (not_congr (hstate j)))
  rw [hfilter]
  exact List.map_congr_left fun j _ => (hbuf j).2

theorem dropped_iff (c : Capture) (x : Section) (s : State) (i : Fin 4) :
    i ∈ (flushDropped c s).map (·.1) ↔ (s.engine.bufs[i]).unstarted = true ∧ ((flushedBufs c x s)[i]).state = .empty := by
  rw [mem_flushDropped]
  refine and_congr_right fun hwaits => ⟨fun hpick => ?_, fun hempty hpick => ?_⟩
  · rw [get_flushedBufs_other hpick, if_pos hwaits]
  · rw [get_flushedBufs_pick hpick] at hempty
    exact BufState.noConfusion hempty

theorem lowestBuf_flushDropped_none {c : Capture} {s : State} (h : ∀ i, (s.engine.bufs[i]).unstarted = true → isPick c s i) :
    lowestBuf (flushDropped c s) = none := by
  have hnil : flushDropped c s = [] := by
    refine List.eq_nil_iff_forall_not_mem.mpr fun y hy => ?_
    obtain ⟨hw, hp⟩ := (mem_flushDropped c s y.1).mp (List.mem_map.mpr ⟨y, hy, rfl⟩)
    exact hp (h _ hw)
  rw [hnil]
  rfl

/-- The lowest buffer dropped stands at the lowest page dropped. -/
theorem lowestBuf_flushDropped {c : Capture} {s : State} {i : Fin 4} (hi : i ∈ (flushDropped c s).map (·.1))
    (hlow : ∀ j ∈ (flushDropped c s).map (·.1), (s.engine.bufs[i]).page ≤ (s.engine.bufs[j]).page) :
    ∃ o : Fin 4 × Buf, lowestBuf (flushDropped c s) = some o ∧ o.2.page = (s.engine.bufs[i]).page := by
  have hbuf : ∀ y ∈ flushDropped c s, y.2 = s.engine.bufs[y.1] := fun y hy =>
    ((mem_bufsWhere _ _ _).mp (List.mem_filter.mp hy).1).1
  obtain ⟨y, hy, rfl⟩ := List.mem_map.mp hi
  cases ho : lowestBuf (flushDropped c s) with
  | none =>
    rw [eq_nil_of_lowestBuf ho] at hy
    exact absurd hy List.not_mem_nil
  | some o =>
    obtain ⟨hmem, hleast⟩ := lowestBuf_spec ho
    refine ⟨o, rfl, le_antisymm ?_ ?_⟩
    · rw [← hbuf y hy]
      exact hleast y hy
    · rw [hbuf o hmem]
      exact hlow o.1 (List.mem_map.mpr ⟨o, hmem, rfl⟩)

end Sys2Proof.Machine
end

