-- ==== Sys2Proof/Proofs/NextOperations.lean ====
section
/-! PROOFS. Sys2Proof/Proofs/NextOperations.lean: the Store Controller starts its next operation (R112, R129). -/

namespace Sys2Proof.Machine

theorem frameOf_queueStarted (s : State) : frameOf (queueStarted s) = frameOf s := by
  unfold queueStarted
  split
  · rfl
  · exact (frameOf_settle _).trans (frameOf_startNext _ _)

theorem exec_queueStart {s : State} (hp : s.powered = true) : exec .queueStart s = .next (queueStarted s) :=
  congrArg Host.Outcome.next (whenPowered_of_frame _ s hp (frameOf_queueStarted s))

theorem queueStarted_flying {s : State} (h : s.store.flight ≠ none) : queueStarted s = s := by
  refine if_pos ?_
  rw [Option.isSome_iff_ne_none.mpr h]
  rfl

theorem queueStarted_idle {s : State} (h : s.store.flight = none) (hsample : resampleDue s = false) (hrestart : restartDue s = false) :
    queueStarted s = settle (startNext 4096 s) := by
  refine if_neg ?_
  rw [h, hsample, hrestart]
  exact Bool.false_ne_true

/-! ## What a close for power leaves of a section -/

theorem pageCount_flushedSection {c d : Capture} {x : Section} {s : State} {o : Fin 4 × Buf}
    (ho : lowestBuf (flushDropped c s) = some o) :
    (flushedSection c x s).pageCount d = pageAfter (x.kept (flushLeft c s)) o.2.page - x.first := by
  rw [flushedSection, ho]
  rfl

theorem pageCount_flushedSection_whole {c : Capture} {s : State} (h : lowestBuf (flushDropped c s) = none) (x : Section) :
    (flushedSection c x s).pageCount { c with current := some (flushedSection c x s) } = x.pageCount c := by
  rw [flushedSection, h]
  rfl

theorem bytes_flushedBuf (c : Capture) (x : Section) (s : State) (b : Buf) : (flushedBuf c x s b).bytes =
    if (b.bytes.take (dataEnd s.engine.phase x - b.start)).length + 16 + 8 * min 16 x.gaps.length ≤ 512 then
      b.bytes.take (dataEnd s.engine.phase x - b.start) ++
        trailerBytes .skippedPower (lapsedHere c) (flushLen c x s) x.records x.gaps
    else b.bytes.take (dataEnd s.engine.phase x - b.start) := by
  refine if_congr ?_ rfl rfl
  rw [trailerSize, gapsListed, ← Nat.add_assoc]
  exact Iff.rfl

/-! ## The Store Controller's next operation -/

/-- The test of exhaustion leaves the engine, or stalls it. -/
theorem engine_applyExhaustion (s : State) :
    (applyExhaustion s).engine = s.engine ∨ (applyExhaustion s).engine = { s.engine with stall := true } := by
  by_cases h : s.monitor.state = .holdup ∨ s.monitor.state = .recovering
  · cases hholds : exhaustionHolds s with
    | false =>
      rw [applyExhaustion_fails h hholds]
      exact .inl rfl
    | true =>
      rw [applyExhaustion_holds h hholds]
      split
      · split
        · exact .inr rfl
        · exact .inl rfl
      · have hpost : ∀ args t, (post .holdup evHoldupExhausted args t).engine = t.engine := fun _ _ => rfl
        rw [hpost]
        split
        · exact .inr rfl
        · exact .inl rfl
  · rw [applyExhaustion_otherwise]
    · exact .inl rfl
    · cases hs : s.monitor.state with
      | normal => exact .inl rfl
      | exhausted => exact .inr rfl
      | holdup => exact absurd (.inl hs) h
      | recovering => exact absurd (.inr hs) h

theorem engine_setStall (s : State) : (setStall s).engine = { s.engine with stall := true } :=
  (engine_applyExhaustion (s.onEngine fun e => { e with stall := true })).elim id id

/-- The final flush returned with HOLDUP waits with the stall. -/
theorem bufRefused_flush {i : Fin 4} {s : State} (h : (s.engine.bufs[i]).flush = true) :
    (bufRefused i s).engine.stall = true ∧ ((bufRefused i s).engine.bufs[i]).state = .filling := by
  rw [bufRefused, if_pos h, engine_setStall]
  refine ⟨rfl, ?_⟩
  rw [State.onBuf, State.onEngine]
  dsimp only
  rw [vmod_get_same]

/-- Settles O38: the choice by the journal's page and the queue's head, each requester's refusal, and the close for power by the buffer
that becomes the final flush. -/
theorem storeStartsItsNextOperation : Obligations.StoreStartsItsNextOperation := by
  refine ⟨fun s hp => ⟨fun hflight => ?_, fun hflight hsample hrestart => ?_⟩,
    fun n s => ⟨fun page hpage => ?_, fun q hpage hq => ?_, fun hpage hq => startNext_idle hpage hq⟩, fun i p s => ?_,
    fun c x s hc hx hphase => ?_, fun q s => ?_, fun s => ?_, fun page s => ?_, fun s hp => ?_⟩
  · rw [exec_queueStart hp, queueStarted_flying hflight]
  · rw [exec_queueStart hp, queueStarted_idle hflight hsample hrestart]
  · intro starts
    have hchoice := startNext_journal (n := n) hpage
    refine ⟨fun hretired => ?_, fun hretired hstarts => ?_, fun hretired hstarts => ?_⟩
    · exact hchoice.trans (congrArg (fun c => afterChoice n s (some c)) (tryJob_failed hretired))
    · exact hchoice.trans (congrArg (fun c => afterChoice n s (some c)) (tryJob_starts hretired hstarts))
    · exact hchoice.trans (congrArg (fun c => afterChoice n s (some c)) (tryJob_refused hretired hstarts))
  · intro t
    have hchoice := startNext_request (n := n) hpage hq
    refine ⟨fun who block herase => ?_, fun j hj => ?_⟩
    · subst herase
      exact hchoice
    · rw [tryRequest_job hj] at hchoice
      refine ⟨fun hretired => ?_, fun hretired hmay => ?_, fun hretired hmay => ?_⟩
      · exact hchoice.trans (congrArg (fun c => afterChoice n s (some c)) (tryJob_failed (s := t) hretired))
      · exact hchoice.trans (congrArg (fun c => afterChoice n s (some c)) (tryJob_starts (s := t) hretired hmay))
      · exact hchoice.trans (congrArg (fun c => afterChoice n s (some c)) (tryJob_refused (s := t) hretired hmay))
  · have hbuf : programRefused (.buf i) s = bufRefused i s := rfl
    refine ⟨fun hflush => ?_, fun hflush => hbuf.trans (if_neg (Bool.eq_false_iff.mp hflush)), rfl, rfl, fun op hop => ?_⟩
    · exact bufRefused_flush hflush
    · exact endStore_of_some .holdup [] hop
  · intro u waits page may first gone
    have hengine : u.engine = _ := engine_powerClose hc hx hphase
    have hbufs : u.engine.bufs = flushedBufs c x s := by rw [hengine]
    have hwaits : ∀ i, (s.engine.bufs[i]).unstarted = true ↔ waits i := fun i => unstarted_buf _
    have hmay : ∀ i, mayFlush c s.engine.bufs[i] = true ↔ may i := fun i => mayFlush_iff c _
    have hfirst : ∀ i, first i → isPick c s i := fun i hi =>
      isPick_of_first ((hmay i).mpr hi.1) fun j hj hjmay => hi.2 j hj ((hmay j).mp hjmay)
    have hgone : ∀ i, gone i → ¬ isPick c s i := fun i hi => not_isPick (hi.2.imp (fun h hm => h ((hmay i).mp hm))
      fun ⟨j, hj, hlt⟩ => ⟨j, (hmay j).mpr hj, hlt⟩)
    refine ⟨by rw [hengine], by rw [hengine], by rw [hengine], fun i hi => ?_, fun i hi => ?_, fun i hi => ?_, ?_⟩
    · rw [hbufs, get_flushedBufs_pick (hfirst i hi)]
      exact ⟨rfl, rfl⟩
    · rw [hbufs, get_flushedBufs_other (hgone i hi), if_pos ((hwaits i).mpr hi.1)]
    · have hnot : ¬ isPick c s i := fun h => hi ((hmay i).mp (mayFlush_of_isPick h)).1
      rw [hbufs, get_flushedBufs_other hnot, if_neg fun h => hi ((hwaits i).mp h)]
    · intro stop data kept dropped
      have hkept : kept = keptBufs c x s := by
        unfold kept keptBufs
        rw [hbufs]
      have hdropped : ∀ i, i ∈ (flushDropped c s).map (·.1) ↔ dropped i := fun i => by
        rw [dropped_iff c x, hwaits, ← hbufs]
      have hlen : flushLen c x s = (x.done.map fun p => data p.start p.stop).sum + (kept.map fun i =>
          data (s.engine.bufs[i]).start ((s.engine.bufs[i]).start + (s.engine.bufs[i]).bytes.length)).sum := by
        rw [flushLen, kept_flushLeft, dataIn, List.map_append, List.sum_append, List.map_map, hkept]
        rfl
      refine ⟨{ c with current := some (flushedSection c x s) }, flushedSection c x s, by rw [hengine], rfl, rfl, rfl, rfl, rfl,
        hlen, fun i hi hlow => ?_, fun hall => ?_, fun i hi => ?_⟩
      · obtain ⟨o, ho, hpage⟩ := lowestBuf_flushDropped ((hdropped i).mpr hi) fun j hj => hlow j ((hdropped j).mp hj)
        rw [pageCount_flushedSection ho, hpage, kept_flushLeft, pageAfter_eq, List.map_append, List.map_map, ← hkept]
        rfl
      · exact pageCount_flushedSection_whole
          (lowestBuf_flushDropped_none fun i hw => hfirst i (hall i ((hwaits i).mp hw))) _
      · intro bytes lapsed
        have hlapsed : lapsedHere c = lapsed := by
          unfold lapsedHere lapsed
          cases c.itemHere <;> rfl
        rw [hbufs, get_flushedBufs_pick (hfirst i hi), bytes_flushedBuf, hlapsed]
        rfl
  · cases q with
    | erase who block => exact isNormal_iff s
    | relocation => exact Option.isSome_iff_ne_none
    | settings => exact Option.isSome_iff_ne_none
    | commit p => exact startable_commit p s
    | buf i => exact startable_buf i s
  · refine ⟨fun i c hc => jobOf_buf hc i, fun r k hr hk hn hfree hfirst => ?_, fun p cap slot src e htarget he hsource => ?_,
      fun op hop => ⟨fun hstep => jobOf_settings_erasing hop hstep, fun page k hstep => jobOf_settings hop hstep⟩⟩
    · exact jobOf_relocation hr hk (poolFrom_of_next hk hn hfree hfirst)
    · exact jobOf_commit htarget ((commitSource_of_target htarget he).trans hsource)
  · intro xs job
    refine ⟨journalPage_eq s.dir, rfl, rfl, rfl, length_journalContent xs, fun i hi => ?_, rfl⟩
    refine (journalContent_slot xs hi).trans ?_
    unfold slotContent
    cases xs.find? fun x => x.slot % 16 = i <;> rfl
  · refine ⟨fun page => relocatable_iff s page, fun page hpage => ?_, fun hnone => ?_, fun r hr hstep => relocateStep_reading hr hstep⟩
    · rw [exec_relocationStart hp, relocationStarted_of_some hpage]
      rfl
    · rw [exec_relocationStart hp, relocationStarted_of_none hnone]

end Sys2Proof.Machine
end

