-- ==== Sys2Proof/Proofs/SlotLayout.lean ====
section
/-! PROOFS. Sys2Proof/Proofs/SlotLayout.lean: the slots that records take, passing over retired pages or not, and those that pending
records are given (R139, R140, R141). -/

namespace Sys2Proof.Machine

/-! ## Runs of slots -/

/-- Each slot of a list is followed by the next one; the last by 2048. -/
def Runs (next : Nat → Nat) : List Nat → Prop
  | [] => True
  | a :: rest => a < 2048 ∧ next a = rest.headD 2048 ∧ Runs next rest

/-- Records placed in the slots of a list. -/
def placedIn (block : Nat) (slot : Nat → Nat) (xs : List Slotted) : List Slotted :=
  xs.mapIdx fun i x => { x with block := block, slot := slot i, flying := false }

theorem layOut_runs {retired : List Nat} {pass : Bool} {block : Nat} {slots : List Nat}
    (h : Runs (slotAfter retired pass block) slots) (xs : List Slotted) :
    layOut retired pass block (slots.headD 2048) xs =
      if xs.length ≤ slots.length then some (placedIn block (fun i => slots.getD i 0) xs) else none := by
  induction xs generalizing slots with
  | nil =>
    exact (if_pos (Nat.zero_le _)).symm
  | cons x xs ih =>
    cases slots with
    | nil => rfl
    | cons a rest =>
      obtain ⟨ha, hnext, hrest⟩ := h
      have hstep : layOut retired pass block a (x :: xs) =
          (layOut retired pass block (slotAfter retired pass block a) xs).map
            ({ x with block := block, slot := a, flying := false } :: ·) := if_pos ha
      rw [List.headD_cons, hstep, hnext, ih hrest]
      have hlength : (x :: xs).length ≤ (a :: rest).length ↔ xs.length ≤ rest.length := Nat.succ_le_succ_iff
      by_cases hle : xs.length ≤ rest.length
      · rw [if_pos hle, if_pos (hlength.mpr hle), Option.map_some, placedIn, placedIn, List.mapIdx_cons]
        rfl
      · rw [if_neg hle, if_neg fun hsucc => hle (hlength.mp hsucc)]
        rfl

/-! ### Without passing over retired pages -/

theorem runs_range' (retired : List Nat) (block slot n : Nat) (h : slot + n = 2048) :
    Runs (slotAfter retired false block) (List.range' slot n) := by
  induction n generalizing slot with
  | zero => trivial
  | succ n ih =>
    rw [List.range'_succ]
    refine ⟨by omega, ?_, ih (slot + 1) (by omega)⟩
    have hnext : slotAfter retired false block slot = slot + 1 := rfl
    rw [hnext]
    cases n with
    | zero => exact (by omega : slot + 1 = 2048)
    | succ n => rfl

theorem layOut_plain {retired : List Nat} {block slot : Nat} (h : slot ≤ 2048) {xs : List Slotted} (hxs : xs ≠ []) :
    layOut retired false block slot xs =
      if slot + xs.length ≤ 2048 then some (placedIn block (slot + ·) xs) else none := by
  have hruns := layOut_runs (runs_range' retired block slot (2048 - slot) (by omega)) xs
  rw [List.length_range'] at hruns
  have hpos : 0 < xs.length := List.length_pos_iff.mpr hxs
  have hhead : (List.range' slot (2048 - slot)).headD 2048 = slot := by
    cases hn : 2048 - slot with
    | zero => exact (by omega : 2048 = slot)
    | succ n => rfl
  rw [hhead] at hruns
  rw [hruns]
  by_cases hle : slot + xs.length ≤ 2048
  · rw [if_pos hle, if_pos (by omega)]
    refine congrArg some (List.ext_getElem (by rw [placedIn, placedIn, List.length_mapIdx, List.length_mapIdx]) fun i hi _ => ?_)
    rw [placedIn, List.length_mapIdx] at hi
    have hin : i < (List.range' slot (2048 - slot)).length := by
      rw [List.length_range']
      omega
    simp only [placedIn, List.getElem_mapIdx]
    rw [List.getD_eq_getElem _ _ hin, List.getElem_range', Nat.one_mul]
  · rw [if_neg hle, if_neg (by omega)]

/-! ### Passing over retired pages -/

/-- The pages of a block from one on that are not retired. -/
def pagesFrom (retired : List Nat) (block page : Nat) : List Nat :=
  (List.range 128).filter fun k => page ≤ k && !retired.contains (128 * block + k)

/-- Their slots. -/
def slotsFrom (retired : List Nat) (block page : Nat) : List Nat :=
  (pagesFrom retired block page).flatMap fun k => (List.range 16).map fun i => 16 * k + i

theorem firstSlotFrom_eq (retired : List Nat) (block page : Nat) :
    firstSlotFrom retired block page = (pagesFrom retired block page).head?.map (16 * ·) := by
  rw [pagesFrom, List.head?_filter]
  rfl

theorem head_slotsFrom (retired : List Nat) (block page : Nat) :
    (slotsFrom retired block page).head? = firstSlotFrom retired block page := by
  rw [firstSlotFrom_eq, slotsFrom]
  cases pagesFrom retired block page <;> rfl

theorem pagesFrom_tail {retired : List Nat} {block page k : Nat} {ks : List Nat} (h : pagesFrom retired block page = k :: ks) :
    ks = pagesFrom retired block (k + 1) ∧ k < 128 := by
  have hmem : k ∈ pagesFrom retired block page := h ▸ List.mem_cons_self
  have hsorted : (pagesFrom retired block page).Pairwise (· < ·) := List.pairwise_lt_range.filter _
  rw [h, List.pairwise_cons] at hsorted
  obtain ⟨hlt, hks⟩ := hsorted
  have hk : page ≤ k := by
    have := (List.mem_filter.mp hmem).2
    rw [Bool.and_eq_true, decide_eq_true_eq] at this
    exact this.1
  refine ⟨?_, List.mem_range.mp (List.mem_filter.mp hmem).1⟩
  have hfilter : pagesFrom retired block (k + 1) = (pagesFrom retired block page).filter fun j => k < j := by
    rw [pagesFrom, pagesFrom, List.filter_filter]
    refine List.filter_congr fun j _ => ?_
    by_cases hj : k < j
    · have hpage : page ≤ j := hk.trans hj.le
      simp [hj, hpage]
    · simp [hj]
  rw [hfilter, h, List.filter_cons, if_neg (by simp), List.filter_eq_self.mpr fun j hj => decide_eq_true (hlt j hj)]

theorem runs_pageSlots {next : Nat → Nat} {rest : List Nat} {k n s : Nat} (hk : k < 128) (hs : s + n = 16 * (k + 1)) (hn : n ≤ 16)
    (hwithin : ∀ a : Nat, (a + 1) % 16 ≠ 0 → next a = a + 1) (hlast : next (16 * k + 15) = rest.headD 2048)
    (hrest : Runs next rest) : Runs next (List.range' s n ++ rest) := by
  induction n generalizing s with
  | zero => exact hrest
  | succ n ih =>
    rw [List.range'_succ, List.cons_append]
    refine ⟨by omega, ?_, ih (by omega) (by omega)⟩
    cases n with
    | zero =>
      have hlow : s = 16 * k + 15 := by omega
      rw [hlow]
      exact hlast
    | succ n => exact hwithin s (by omega)

theorem runs_slotsFrom (retired : List Nat) (block page : Nat) :
    Runs (slotAfter retired true block) (slotsFrom retired block page) := by
  rw [slotsFrom]
  generalize hpages : pagesFrom retired block page = ks
  induction ks generalizing page with
  | nil => trivial
  | cons k ks ih =>
    obtain ⟨hks, hk⟩ := pagesFrom_tail hpages
    have hlastPage : (16 * k + 15 + 1) % 16 = 0 := by omega
    have hnextPage : (16 * k + 15 + 1) / 16 = k + 1 := by omega
    have hrange : (List.range 16).map (fun i => 16 * k + i) = List.range' (16 * k) 16 := List.range'_eq_map_range.symm
    rw [List.flatMap_cons, hrange]
    refine runs_pageSlots hk rfl (le_refl _) (fun a ha => if_neg fun h => ha (of_decide_eq_true h)) ?_ (ih (k + 1) hks.symm)
    have hafter : slotAfter retired true block (16 * k + 15) =
        (firstSlotFrom retired block ((16 * k + 15 + 1) / 16)).getD 2048 := if_pos (decide_eq_true hlastPage)
    rw [hafter, hnextPage, firstSlotFrom_eq, ← hks]
    cases ks <;> rfl

theorem layOut_passing (retired : List Nat) (block page : Nat) (xs : List Slotted) :
    layOut retired true block ((slotsFrom retired block page).headD 2048) xs =
      if xs.length ≤ (slotsFrom retired block page).length
      then some (placedIn block (fun i => (slotsFrom retired block page).getD i 0) xs) else none :=
  layOut_runs (runs_slotsFrom retired block page) xs

end Sys2Proof.Machine
end

