-- ==== Sys2Proof/Proofs/GivenSlots.lean ====
section
/-! PROOFS. Sys2Proof/Proofs/GivenSlots.lean: the slots that pending records receive, an abandoned compaction, and the records that a
failed journal program moves on (R139, R140, R141). -/

namespace Sys2Proof.Machine

/-! ## The pending records -/

/-- Records in slots one after another. -/
def inSlots (block slot : Nat) (seq : BitVec 32) (xs : List (JRec × Who)) : List Slotted :=
  xs.mapIdx fun i x =>
    { block := block, slot := slot + i, seq := seq + BitVec.ofNat 32 i, record := x.1, who := x.2, flying := false }

theorem inSlots_cons (block slot : Nat) (seq : BitVec 32) (x : JRec × Who) (xs : List (JRec × Who)) :
    inSlots block slot seq (x :: xs) =
      { block := block, slot := slot, seq := seq, record := x.1, who := x.2, flying := false } ::
        inSlots block (slot + 1) (seq + 1) xs := by
  have hseq : ∀ i : Nat, seq + BitVec.ofNat 32 (i + 1) = seq + 1 + BitVec.ofNat 32 i := fun i => by
    rw [BitVec.ofNat_add, BitVec.add_comm (BitVec.ofNat 32 i), ← BitVec.add_assoc]
    rfl
  have hslot : ∀ i : Nat, slot + (i + 1) = slot + 1 + i := fun i => by omega
  rw [inSlots, inSlots, List.mapIdx_cons]
  refine congrArg₂ List.cons ?_ (congrArg (fun f => List.mapIdx f xs) (funext fun i => funext fun y => ?_))
  · have hzero : seq + BitVec.ofNat 32 0 = seq := BitVec.add_zero seq
    rw [hzero, Nat.add_zero]
  · rw [hseq, hslot]

/-- The pending records that the block has slots for. -/
def givenCount (d : Directory) : Nat := min d.pending.length (2048 - d.nextSlot)

/-- The directory with its pending records in their slots. -/
def pendingGiven (d : Directory) : Directory :=
  { d with
    slotted := d.slotted ++ inSlots d.active d.nextSlot d.nextSeq (d.pending.take (2048 - d.nextSlot))
    pending := d.pending.drop (givenCount d)
    nextSlot := d.nextSlot + givenCount d
    nextSeq := d.nextSeq + BitVec.ofNat 32 (givenCount d) }

theorem pendingGiven_of_none {d : Directory} (h : givenCount d = 0) : pendingGiven d = d := by
  have htake : d.pending.take (2048 - d.nextSlot) = [] := by
    rw [List.take_eq_nil_iff, ← List.length_eq_zero_iff]
    unfold givenCount at h
    omega
  rw [pendingGiven, h, htake, List.drop_zero, Nat.add_zero]
  have hseq : d.nextSeq + BitVec.ofNat 32 0 = d.nextSeq := BitVec.add_zero _
  have hslotted : d.slotted ++ inSlots d.active d.nextSlot d.nextSeq [] = d.slotted := List.append_nil _
  rw [hseq, hslotted]

theorem pendingGiven_cons {d : Directory} {r : JRec} {who : Who} {rest : List (JRec × Who)} (hpending : d.pending = (r, who) :: rest)
    (hpaused : d.comp.paused = false) (hroom : d.nextSlot < 2048) :
    pendingGiven d = pendingGiven (giveSlot r who { d with pending := rest }) := by
  have hcomp : { d.comp with paused := false } = d.comp := by rw [← hpaused]
  have hleft : 2048 - d.nextSlot = 2048 - (d.nextSlot + 1) + 1 := by omega
  have hcount : givenCount d = min rest.length (2048 - (d.nextSlot + 1)) + 1 := by
    rw [givenCount, hpending, List.length_cons]
    omega
  have hseq : d.nextSeq + BitVec.ofNat 32 (min rest.length (2048 - (d.nextSlot + 1)) + 1) =
      d.nextSeq + 1 + BitVec.ofNat 32 (min rest.length (2048 - (d.nextSlot + 1))) := by
    rw [BitVec.ofNat_add, BitVec.add_comm (BitVec.ofNat 32 _), ← BitVec.add_assoc]
    rfl
  have hnext : d.nextSlot + (min rest.length (2048 - (d.nextSlot + 1)) + 1) =
      d.nextSlot + 1 + min rest.length (2048 - (d.nextSlot + 1)) := by omega
  rw [pendingGiven, hcount, hpending, hleft, List.take_succ_cons, inSlots_cons, List.drop_succ_cons, hseq, hnext, pendingGiven,
    givenCount, giveSlot]
  dsimp only
  rw [hcomp, List.append_assoc]
  rfl

theorem givePending_eq {n : Nat} {d : Directory} (hn : n = d.pending.length) (hpaused : d.comp.paused = false) :
    givePending n d = pendingGiven d := by
  induction n generalizing d with
  | zero =>
    have hnone : givenCount d = 0 := by rw [givenCount, ← hn, Nat.zero_min]
    exact (pendingGiven_of_none hnone).symm
  | succ n ih =>
    cases hpending : d.pending with
    | nil =>
      rw [hpending] at hn
      exact absurd hn (Nat.succ_ne_zero n)
    | cons x rest =>
      obtain ⟨r, who⟩ := x
      rw [hpending, List.length_cons, Nat.succ_inj] at hn
      rw [givePending, hpending]
      dsimp only
      by_cases hroom : d.nextSlot < 2048
      · rw [pendingGiven_cons hpending hpaused hroom]
        exact (if_pos hroom).trans (ih hn rfl)
      · refine (if_neg hroom).trans (pendingGiven_of_none ?_).symm
        unfold givenCount
        omega

theorem givePendingAll_eq {d : Directory} (hpaused : d.comp.paused = false) : givePendingAll d = pendingGiven d :=
  givePending_eq rfl hpaused

/-! ## An abandoned compaction (R141) -/

/-- The directory whose compaction is abandoned. -/
def compactionLeft (d : Directory) : Directory :=
  { d with
    slotted := d.slotted.filter (fun x => x.who ≠ .snapshot) ++
      inSlots d.active d.nextSlot d.nextSeq (d.pending.take (2048 - d.nextSlot))
    pending := d.pending.drop (givenCount d)
    nextSlot := d.nextSlot + givenCount d
    nextSeq := d.nextSeq + BitVec.ofNat 32 (givenCount d)
    comp := { Compaction.initial with paused := d.nextSlot + givenCount d < 2048 } }

theorem abandonCompaction_eq (d : Directory) : abandonCompaction d = compactionLeft d := by
  rw [abandonCompaction]
  dsimp only
  rw [givePendingAll_eq rfl]
  rfl

/-! ## Records that move on (R139) -/

/-- The first slot that the records of a failed program may have, in the pages after it. -/
def laterSlots (retired : List Nat) (page : Nat) : List Nat := slotsFrom retired (page / 128) (page % 128 + 1)

theorem firstSlotFrom_later (retired : List Nat) (page : Nat) :
    firstSlotFrom retired (page / 128) (page % 128 + 1) = (laterSlots retired page).head? := (head_slotsFrom _ _ _).symm

theorem layOut_later (retired : List Nat) (page : Nat) {slot : Nat} (h : (laterSlots retired page).head? = some slot)
    (xs : List Slotted) : layOut retired true (page / 128) slot xs =
      if xs.length ≤ (laterSlots retired page).length
      then some (placedIn (page / 128) (fun i => (laterSlots retired page).getD i 0) xs) else none := by
  have hhead : (laterSlots retired page).headD 2048 = slot := by rw [List.headD_eq_head?_getD, h, Option.getD_some]
  rw [← hhead]
  exact layOut_passing retired (page / 128) (page % 128 + 1) xs

/-- The records of a failed snapshot program that have later slots. -/
theorem moveOn_writing_room {retired : List Nat} {page : Nat} {d : Directory} (hstate : d.comp.state = .writing)
    (hne : d.slotted ≠ []) (hroom : d.slotted.length ≤ (laterSlots retired page).length) : moveOn retired page d =
      { d with slotted := placedIn (page / 128) (fun i => (laterSlots retired page).getD i 0) d.slotted } := by
  have hpos : 0 < d.slotted.length := List.length_pos_iff.mpr hne
  cases hhead : (laterSlots retired page).head? with
  | none =>
    rw [List.head?_eq_none_iff.mp hhead] at hroom
    exact absurd hroom (Nat.not_le.mpr hpos)
  | some slot =>
    rw [moveOn, hstate]
    have hfirst : firstSlotFrom retired (page / blockPages) (page % blockPages + 1) = some slot :=
      (firstSlotFrom_later retired page).trans hhead
    have hout : layOut retired true (page / blockPages) slot d.slotted = _ := layOut_later retired page hhead d.slotted
    rw [if_pos hroom] at hout
    dsimp only
    rw [hfirst]
    dsimp only
    rw [hout]

theorem moveOn_writing_full {retired : List Nat} {page : Nat} {d : Directory} (hstate : d.comp.state = .writing)
    (hfull : (laterSlots retired page).length < d.slotted.length) : moveOn retired page d = compactionLeft d := by
  rw [moveOn, hstate, ← abandonCompaction_eq]
  dsimp only
  cases hhead : (laterSlots retired page).head? with
  | none =>
    have hfirst : firstSlotFrom retired (page / blockPages) (page % blockPages + 1) = none :=
      (firstSlotFrom_later retired page).trans hhead
    rw [hfirst]
  | some slot =>
    have hfirst : firstSlotFrom retired (page / blockPages) (page % blockPages + 1) = some slot :=
      (firstSlotFrom_later retired page).trans hhead
    have hout : layOut retired true (page / blockPages) slot d.slotted = _ := layOut_later retired page hhead d.slotted
    rw [if_neg (Nat.not_le.mpr hfull)] at hout
    rw [hfirst]
    dsimp only
    rw [hout]

/-- The slotted records back at the head of the pending list. -/
def allPending (d : Directory) : Directory :=
  { d with
    slotted := []
    pending := d.slotted.map (fun x => (x.record, x.who)) ++ d.pending
    nextSlot := 2048 }

/-- Outside a snapshot the records of a failed program go to the slots from the first of the later pages, or to the pending list. -/
theorem moveOn_plain {retired : List Nat} {page : Nat} {d : Directory} (hstate : d.comp.state ≠ .writing) :
    moveOn retired page d = ((laterSlots retired page).head?.bind fun slot =>
      (layOut retired false (page / 128) slot d.slotted).map fun xs =>
        { d with
          slotted := xs
          nextSlot := slot + xs.length
          comp := { d.comp with paused := d.comp.paused && xs.isEmpty } }).getD (allPending d) := by
  have hfirst : firstSlotFrom retired (page / blockPages) (page % blockPages + 1) = (laterSlots retired page).head? :=
    firstSlotFrom_later retired page
  have hblock : page / 128 = page / blockPages := rfl
  rw [moveOn, ← hfirst, hblock]
  cases hcomp : d.comp.state with
  | writing => exact absurd hcomp hstate
  | none =>
    dsimp only
    cases firstSlotFrom retired (page / blockPages) (page % blockPages + 1) with
    | none => rfl
    | some slot =>
      rw [Option.bind_some]
      dsimp only
      cases layOut retired false (page / blockPages) slot d.slotted <;> rfl
  | clearing =>
    dsimp only
    cases firstSlotFrom retired (page / blockPages) (page % blockPages + 1) with
    | none => rfl
    | some slot =>
      rw [Option.bind_some]
      dsimp only
      cases layOut retired false (page / blockPages) slot d.slotted <;> rfl

theorem laterSlots_lt {retired : List Nat} {page slot : Nat} (h : (laterSlots retired page).head? = some slot) : slot < 2048 := by
  have hruns := runs_slotsFrom retired (page / 128) (page % 128 + 1)
  rw [laterSlots] at h
  cases hslots : slotsFrom retired (page / 128) (page % 128 + 1) with
  | nil =>
    rw [hslots] at h
    exact absurd h (Option.some_ne_none slot).symm
  | cons a rest =>
    rw [hslots] at h hruns
    exact Option.some.inj h ▸ hruns.1

theorem moveOn_plain_room {retired : List Nat} {page first : Nat} {d : Directory} (hstate : d.comp.state ≠ .writing)
    (hne : d.slotted ≠ []) (hfirst : (laterSlots retired page).head? = some first) (hroom : first + d.slotted.length ≤ 2048) :
    moveOn retired page d = { d with
      slotted := placedIn (page / 128) (first + ·) d.slotted
      nextSlot := first + d.slotted.length
      comp := { d.comp with paused := false } } := by
  have hlength : (placedIn (page / 128) (first + ·) d.slotted).length = d.slotted.length := List.length_mapIdx
  have hempty : (placedIn (page / 128) (first + ·) d.slotted).isEmpty = false := by
    rw [List.isEmpty_eq_false_iff, ← List.length_pos_iff, hlength]
    exact List.length_pos_iff.mpr hne
  rw [moveOn_plain hstate, hfirst, Option.bind_some, layOut_plain (laterSlots_lt hfirst).le hne, if_pos hroom, Option.map_some,
    Option.getD_some, hlength, hempty, Bool.and_false]

theorem moveOn_plain_full {retired : List Nat} {page : Nat} {d : Directory} (hstate : d.comp.state ≠ .writing) (hne : d.slotted ≠ [])
    (hfull : laterSlots retired page = [] ∨
      ∃ first : Nat, (laterSlots retired page).head? = some first ∧ 2048 < first + d.slotted.length) :
    moveOn retired page d = allPending d := by
  rw [moveOn_plain hstate]
  rcases hfull with hnone | ⟨first, hfirst, hover⟩
  · rw [hnone]
    rfl
  · rw [hfirst, Option.bind_some, layOut_plain (laterSlots_lt hfirst).le hne, if_neg (Nat.not_le.mpr hover)]
    rfl

end Sys2Proof.Machine
end

