-- ==== Sys2Proof/Proofs/Compactions.lean ====
section
/-! PROOFS. Sys2Proof/Proofs/Compactions.lean: a compaction's start, its snapshot and its end (R140, R141, R150). -/

namespace Sys2Proof.Machine

/-! ## The start -/

theorem journalRoom_idle {s : State} (h : s.dir.comp.state = .none) :
    journalRoom s = true ↔ s.dir.pending = [] ∧ s.dir.nextSlot < 2048 := by
  rw [journalRoom, h]
  dsimp only
  rw [Bool.and_eq_true, List.isEmpty_iff, decide_eq_true_eq]
  exact Iff.rfl

theorem journalRoom_busy {s : State} (h : s.dir.comp.state ≠ .none) : journalRoom s = true ↔ s.dir.pending.length < 16 := by
  rw [journalRoom]
  cases hc : s.dir.comp.state with
  | none => exact absurd hc h
  | clearing => exact decide_eq_true_iff
  | writing => exact decide_eq_true_iff

theorem compactStep_idle {s : State} (h : s.dir.comp.state = .none) :
    compactStep s = if compactionDue s then .did (startCompaction s) else .wait := by
  rw [compactStep, h]

theorem compactStep_clearing {s : State} (h : s.dir.comp.state = .clearing) : compactStep s =
    if s.dir.slotted.isEmpty && !s.dir.comp.eraseQueued then .did { s with
      dir := { s.dir with comp := { s.dir.comp with eraseQueued := true } }
      store := { s.store with queue := s.store.queue ++ [.erase .journal (1 - s.dir.active)] } }
    else .wait := by
  rw [compactStep, h]
  rfl

theorem compactStep_writing {s : State} (h : s.dir.comp.state = .writing) : compactStep s = .wait := by
  rw [compactStep, h]

theorem eraseAllStep_rewrites {s : State} {e : EraseAll} (hidle : s.dir.comp.state = .none) (he : s.dir.eraseAll = some e)
    (hstep : e.step = .checkpoint) : eraseAllStep s = .did { s with
      dir := { s.dir with
        comp := { Compaction.initial with state := .clearing, all := true }
        eraseAll := some { e with blocks := e.blocks ++ [1 - s.dir.active] } } } := by
  have hclearing : (s.onDir fun d =>
      { d with comp := { Compaction.initial with state := .clearing, all := true } }).dir.eraseAll = some e := he
  rw [eraseAllStep_checkpoint he hstep, if_pos hidle, awaitErase_of_some _ hclearing]
  rfl

/-! ## The snapshot -/

theorem sectionRecord_eq (head : Option Nat) (x : SecEntry) : sectionRecord head x =
    if x.status = .inProgress ∨ x.status = .interrupted
    then .sectionBegin x.cap x.index x.entry x.kind x.first x.start head
    else .sectionDone x.cap x.index x.entry x.kind x.status x.len x.first x.pages x.gaps head := by
  unfold sectionRecord
  split
  · next h => exact (if_pos (.inl h)).symm
  · next h => exact (if_pos (.inr h)).symm
  · next h h' => exact (if_neg fun hor => hor.elim h h').symm

theorem captureRecords_eq (s : State) (e : DirEntry) : captureRecords s e =
    [.captureOpen e.cap e.trig e.first e.epoch.isSome e.openTime (e.epoch.getD 0)] ++ blockLists e ++
      (sectionsOf s.dir e).map (fun x => if x.status = .inProgress ∨ x.status = .interrupted
        then .sectionBegin x.cap x.index x.entry x.kind x.first x.start (shown s e).head
        else .sectionDone x.cap x.index x.entry x.kind x.status x.len x.first x.pages x.gaps (shown s e).head) ++
      [.captureSummary e.cap (e.state = .closed) (if e.state = .closed then e.outcome else none) e.trig (e.closeTime.getD 0)
        (shown s e).head e.held e.slots] := by
  have hsections : sectionRecord (headNow s e) = fun x => if x.status = .inProgress ∨ x.status = .interrupted
      then .sectionBegin x.cap x.index x.entry x.kind x.first x.start (shown s e).head
      else .sectionDone x.cap x.index x.entry x.kind x.status x.len x.first x.pages x.gaps (shown s e).head :=
    funext (sectionRecord_eq (shown s e).head)
  have houtcome : (if decide (e.state = .closed) = true then e.outcome else none) = if e.state = .closed then e.outcome else none :=
    if_congr decide_eq_true_iff rfl rfl
  unfold captureRecords
  dsimp only
  rw [hsections, houtcome]
  rfl

/-- The snapshot's last capture number. -/
def snapshotLast (s : State) : Nat := if s.dir.comp.all then 0 else s.dir.lastCap

/-- All the records of a snapshot. -/
def snapshotRun (s : State) : List JRec :=
  [.checkpointBegin (s.dir.gen + 1) (snapshotLast s)] ++ snapshotRecords s ++
    [.checkpointEnd (s.dir.gen + 1) (snapshotRecords s).length]

/-- The other block's slots. -/
def snapshotSlots (s : State) : List Nat := slotsFrom s.store.retPages (1 - s.dir.active) 0

/-- The directory with its snapshot's records in their slots. -/
def snapshotTaken (s : State) : Directory :=
  { s.dir with
    slotted := (snapshotRun s).mapIdx fun i r =>
      { block := 1 - s.dir.active, slot := (snapshotSlots s).getD i 0, seq := s.dir.nextSeq + BitVec.ofNat 32 i, record := r
        who := .snapshot, flying := false }
    nextSeq := s.dir.nextSeq + BitVec.ofNat 32 (snapshotRun s).length
    comp := { s.dir.comp with
      state := .writing
      last := snapshotLast s
      count := (snapshotRecords s).length } }

/-- The snapshot's records laid out in the other block. -/
def snapshotLaid (s : State) : Option (List Slotted) :=
  (firstSlotFrom s.store.retPages (1 - s.dir.active) 0).bind fun slot =>
    layOut s.store.retPages true (1 - s.dir.active) slot (numbered s.dir.nextSeq (snapshotRun s))

theorem beginSnapshot_eq (s : State) : beginSnapshot s =
    { s with dir := (snapshotLaid s).elim (abandonCompaction s.dir) fun ys =>
      { s.dir with
        slotted := ys
        nextSeq := s.dir.nextSeq + BitVec.ofNat 32 (snapshotRun s).length
        comp := { s.dir.comp with
          state := .writing
          last := snapshotLast s
          count := (snapshotRecords s).length } } } := by
  have hlaid : snapshotLaid s = (firstSlotFrom s.store.retPages (otherBlock s.dir) 0).bind fun slot =>
    layOut s.store.retPages true (otherBlock s.dir) slot (numbered s.dir.nextSeq (snapshotRun s)) := rfl
  have hrun : [JRec.checkpointBegin (s.dir.gen + 1) (if s.dir.comp.all then 0 else s.dir.lastCap)] ++ snapshotRecords s ++
      [.checkpointEnd (s.dir.gen + 1) (snapshotRecords s).length] = snapshotRun s := rfl
  have hlast : (if s.dir.comp.all then 0 else s.dir.lastCap) = snapshotLast s := rfl
  rw [hlaid, beginSnapshot]
  dsimp only
  rw [hrun, hlast]
  cases firstSlotFrom s.store.retPages (otherBlock s.dir) 0 with
  | none => rfl
  | some slot =>
    rw [Option.bind_some]
    dsimp only
    cases layOut s.store.retPages true (otherBlock s.dir) slot (numbered s.dir.nextSeq (snapshotRun s)) <;> rfl

theorem placedIn_numbered (block : Nat) (slot : Nat → Nat) (seq : BitVec 32) (rs : List JRec) :
    placedIn block slot (numbered seq rs) = rs.mapIdx fun i r =>
      { block := block, slot := slot i, seq := seq + BitVec.ofNat 32 i, record := r, who := .snapshot, flying := false } := by
  rw [placedIn, numbered, List.mapIdx_mapIdx]
  rfl

theorem length_numbered (seq : BitVec 32) (rs : List JRec) : (numbered seq rs).length = rs.length := List.length_mapIdx

theorem snapshotLaid_eq (s : State) : snapshotLaid s =
    if (snapshotRun s).length ≤ (snapshotSlots s).length then some (snapshotTaken s).slotted else none := by
  have hlength : 0 < (snapshotRun s).length := by
    rw [snapshotRun, List.length_append, List.length_append]
    exact Nat.lt_of_lt_of_le Nat.zero_lt_one (Nat.le_add_left 1 _)
  have hlay := layOut_passing s.store.retPages (1 - s.dir.active) 0 (numbered s.dir.nextSeq (snapshotRun s))
  rw [length_numbered, placedIn_numbered] at hlay
  rw [snapshotLaid, ← head_slotsFrom]
  cases hhead : (slotsFrom s.store.retPages (1 - s.dir.active) 0).head? with
  | none =>
    have hnil : snapshotSlots s = [] := List.head?_eq_none_iff.mp hhead
    rw [hnil, List.length_nil, if_neg (Nat.not_le.mpr hlength)]
    rfl
  | some slot =>
    rw [List.headD_eq_head?_getD, hhead, Option.getD_some] at hlay
    exact hlay

theorem beginSnapshot_room {s : State} (h : (snapshotRun s).length ≤ (snapshotSlots s).length) :
    beginSnapshot s = { s with dir := snapshotTaken s } := by
  rw [beginSnapshot_eq, snapshotLaid_eq, if_pos h]
  rfl

theorem beginSnapshot_full {s : State} (h : (snapshotSlots s).length < (snapshotRun s).length) :
    beginSnapshot s = { s with dir := compactionLeft s.dir } := by
  rw [beginSnapshot_eq, snapshotLaid_eq, if_neg (Nat.not_le.mpr h), Option.elim_none, abandonCompaction_eq]

theorem eraseHanded_clearing {s : State} (h : s.dir.comp.state = .clearing) (done : Bool) :
    eraseHanded .journal done s = beginSnapshot s := if_pos h

/-! ## The end -/

/-- The directory at the end of a compaction. -/
def compactionDone (gen : BitVec 32) (slot : Nat) (d : Directory) : Directory :=
  pendingGiven { d with
    active := 1 - d.active
    gen := gen
    nextSlot := slot + 1
    comp := Compaction.initial }

theorem finishCompaction_eq (gen : BitVec 32) (slot : Nat) (s : State) : finishCompaction gen slot s =
    post .directory evJournalCompacted [gen.toNat, s.dir.comp.count] { s with dir := compactionDone gen slot s.dir } := by
  unfold finishCompaction
  dsimp only [State.onDir]
  rw [givePendingAll_eq rfl]
  rfl

/-- What ERASE_ALL's checkpoint forgets. -/
theorem forgetNumbers_tables (t : State) :
    (forgetNumbers t).ring = t.ring ∧ (forgetNumbers t).dir = { t.dir with lastCap := 0 } ∧
      (∀ p, (forgetNumbers t).port p = { t.port p with pad := { (t.port p).pad with gone := (t.port p).pad.target.isSome } }) ∧
      (∀ i : Fin 8, (forgetNumbers t).trig.terms[i] = { t.trig.terms[i] with assoc := none }) ∧
      ∀ ch : Fin 4, (forgetNumbers t).streams[ch] = { t.streams[ch] with noticed := 0 } := by
  refine ⟨rfl, rfl, fun p => ?_, fun i => ?_, fun ch => ?_⟩
  · have hports : (forgetNumbers t).link.ports = vmap (fun q => { q with pad := q.pad.forget }) t.link.ports := rfl
    rw [State.port, hports, vmap_get]
    rfl
  · have hterms : (forgetNumbers t).trig.terms = vmap (fun x => { x with assoc := none }) t.trig.terms := rfl
    rw [hterms, vmap_get]
  · have hstreams : (forgetNumbers t).streams = vmap (fun c => { c with noticed := 0 }) t.streams := rfl
    rw [hstreams, vmap_get]

theorem recordAccepted_checkpointEnd {x : Slotted} {gen : BitVec 32} {n : Nat} (hwho : x.who = .snapshot)
    (hrecord : x.record = .checkpointEnd gen n) (s : State) : recordAccepted x s = checkpointAccepted gen x.slot s := by
  rw [recordAccepted, hwho, hrecord]

theorem checkpointAccepted_some {s : State} (h : s.dir.comp.all = false) (gen : BitVec 32) (slot : Nat) :
    checkpointAccepted gen slot s = finishCompaction gen slot s := if_neg (Bool.eq_false_iff.mp h)

theorem checkpointAccepted_all {s : State} (h : s.dir.comp.all = true) (gen : BitVec 32) (slot : Nat) :
    checkpointAccepted gen slot s = (forgetNumbers (finishCompaction gen slot s)).onDir fun d =>
      { d with eraseAll := d.eraseAll.map fun e => { e with step := .erases } } := if_pos h

/-! ## Refused snapshot programs (R116) -/

theorem dir_applyExhaustion (s : State) : (applyExhaustion s).dir = s.dir := by
  by_cases h : s.monitor.state = .holdup ∨ s.monitor.state = .recovering
  · cases hholds : exhaustionHolds s with
    | false =>
      rw [applyExhaustion_fails h hholds]
      rfl
    | true =>
      have hpost : ∀ args t, (post .holdup evHoldupExhausted args t).dir = t.dir := fun _ _ => rfl
      rw [applyExhaustion_holds h hholds]
      split
      · split <;> rfl
      · rw [hpost]
        split <;> rfl
  · rw [applyExhaustion_otherwise]
    cases hs : s.monitor.state with
    | normal => exact .inl rfl
    | exhausted => exact .inr rfl
    | holdup => exact absurd (.inl hs) h
    | recovering => exact absurd (.inr hs) h

theorem dir_setStall (s : State) : (setStall s).dir = s.dir := dir_applyExhaustion _

/-- The snapshot's records wait for NORMAL. -/
theorem dir_journalRefused_writing {s : State} (h : s.dir.comp.state = .writing) (page : Nat) :
    (journalRefused page s).dir = { s.dir with comp := { s.dir.comp with held := true } } := by
  have hrefused : journalRefused page s = if s.engine.state = .closing then
      setStall (s.onDir fun d => { d with comp := { d.comp with held := true } })
    else s.onDir fun d => { d with comp := { d.comp with held := true } } := if_pos h
  rw [hrefused]
  split
  · exact dir_setStall _
  · rfl

/-! ## The obligation -/

theorem inSlots_eq (block slot : Nat) (d : Directory) : inSlots block slot d.nextSeq (d.pending.take (2048 - slot)) =
    (d.pending.take (2048 - slot)).mapIdx fun i x =>
      ({ block := block, slot := slot + i, seq := d.nextSeq + BitVec.ofNat 32 i, record := x.1, who := x.2
         flying := false } : Slotted) := rfl

theorem snapshotRun_eq (s : State) : snapshotRun s = .checkpointBegin (s.dir.gen + 1) (snapshotLast s) ::
    snapshotRecords s ++ [.checkpointEnd (s.dir.gen + 1) (snapshotRecords s).length] := rfl

/-- Settles O45: the runs of slots that records are laid out in, and the slots that the pending records are given. -/
theorem compactionRewritesTheJournal : Obligations.CompactionRewritesTheJournal := by
  unfold Obligations.CompactionRewritesTheJournal
  intro given slotsOf abandoned
  have habandoned : ∀ d, compactionLeft d = abandoned d := fun d => rfl
  refine ⟨fun s => ⟨fun hidle => ?_, fun hbusy => journalRoom_busy hbusy, fun hclearing => ?_, fun hwriting => compactStep_writing hwriting⟩,
    fun done s hclearing => ?_, fun e => ⟨fun bl h => blockLists_known e bl h, fun r hr => blockLists_sound e r hr,
      fun h i b hb => blockLists_complete e h i b hb⟩, fun x gen n s hwho hrecord => ?_, fun page s hwriting => ?_,
    fun retired page d hne => ?_⟩
  · intro starts
    have hdue : compactionDue s = true ↔ starts := by
      rw [compactionDue_iff, and_iff_right hidle]
    refine ⟨journalRoom_idle hidle, fun hstarts => ?_, fun hnot => ?_, fun e he hstep => eraseAllStep_rewrites hidle he hstep⟩
    · rw [compactStep_idle hidle, if_pos (hdue.mpr hstarts), startCompaction_eq, if_pos (hdue.mpr hstarts)]
    · rw [compactStep_idle hidle, if_neg fun h => hnot (hdue.mp h)]
  · rw [compactStep_clearing hclearing]
    refine ⟨fun hslotted hqueued => if_pos ?_, fun hother => if_neg fun h => ?_⟩
    · rw [hslotted, hqueued]
      rfl
    · rw [Bool.and_eq_true, List.isEmpty_iff, Bool.not_eq_true'] at h
      exact hother.elim (fun hne => hne h.1) fun hq => Bool.false_ne_true (h.2.symm.trans hq)
  · intro u slots last body rs
    have hu : u = beginSnapshot s := eraseHanded_clearing hclearing done
    have hbody : snapshotRecords s = body := by
      unfold body
      rw [snapshotRecords, retiredRecords, funext (captureRecords_eq s)]
    have hrs : snapshotRun s = rs := by
      rw [snapshotRun_eq, hbody]
      rfl
    have htaken : snapshotTaken s = { s.dir with
        slotted := rs.mapIdx fun i r =>
          { block := 1 - s.dir.active, slot := slots.getD i 0, seq := s.dir.nextSeq + BitVec.ofNat 32 i, record := r
            who := .snapshot, flying := false }
        nextSeq := s.dir.nextSeq + BitVec.ofNat 32 rs.length
        comp := { s.dir.comp with
          state := .writing
          last := last
          count := body.length } } := by
      rw [snapshotTaken, hrs, hbody]
      rfl
    refine ⟨fun hroom => ?_, fun hfull => ?_⟩
    · rw [hu, ← htaken]
      exact beginSnapshot_room (by rw [hrs]; exact hroom)
    · rw [hu, ← habandoned]
      exact beginSnapshot_full (by rw [hrs]; exact hfull)
  · intro u k now
    have hu : u = checkpointAccepted gen x.slot s := recordAccepted_checkpointEnd hwho hrecord s
    have hnow : compactionDone gen x.slot s.dir = now := rfl
    have hgen : BitVec.ofNat 32 gen.toNat = gen := by rw [BitVec.ofNat_toNat, BitVec.setWidth_eq]
    have hring : (post .directory evJournalCompacted [gen.toNat, s.dir.comp.count] { s with dir := now }).ring =
        s.ring.post s.time .directory 0x21 [gen, BitVec.ofNat 32 s.dir.comp.count] :=
      congrArg (fun g => s.ring.post s.time .directory 0x21 [g, BitVec.ofNat 32 s.dir.comp.count]) hgen
    cases hall : s.dir.comp.all with
    | false =>
      rw [hu, checkpointAccepted_some hall, finishCompaction_eq, hnow]
      exact ⟨hring, fun _ => ⟨rfl, rfl, rfl, rfl⟩, fun h => absurd h Bool.false_ne_true⟩
    | true =>
      rw [hu, checkpointAccepted_all hall, finishCompaction_eq, hnow]
      generalize ht : post .directory evJournalCompacted [gen.toNat, s.dir.comp.count] { s with dir := now } = t at hring ⊢
      have hdir : t.dir = now := by rw [← ht]; rfl
      have hlink : t.link = s.link := by rw [← ht]; rfl
      have htrig : t.trig = s.trig := by rw [← ht]; rfl
      have hstreams : t.streams = s.streams := by rw [← ht]; rfl
      obtain ⟨hfring, hfdir, hfport, hfterms, hfstreams⟩ := forgetNumbers_tables t
      refine ⟨hfring.trans hring, fun h => absurd h Bool.false_ne_true.symm, fun _ => ⟨?_, fun p => ?_, fun i => ?_, fun ch => ?_⟩⟩
      · rw [State.onDir, hfdir, hdir]
      · exact (hfport p).trans (by rw [port_of_link hlink])
      · exact (hfterms i).trans (by rw [htrig])
      · exact (hfstreams ch).trans (by rw [hstreams])
  · intro u
    have hu : u.dir = { s.dir with comp := { s.dir.comp with held := true } } := dir_journalRefused_writing hwriting page
    refine ⟨hu, ?_, ?_⟩
    · rw [hu, journalPage_eq]
      rfl
    · have hreleased : (releaseWaits u).dir = { u.dir with comp := { u.dir.comp with held := false } } := rfl
      rw [hreleased, hu]
  · intro u slots placed
    exact ⟨fun hwriting => ⟨fun hroom => moveOn_writing_room hwriting hne hroom, fun hfull => moveOn_writing_full hwriting hfull⟩,
      fun hplain => ⟨fun first hfirst hroom => moveOn_plain_room hplain hne hfirst hroom,
        fun hfull => moveOn_plain_full hplain hne hfull⟩⟩

end Sys2Proof.Machine
end

