-- ==== Sys2Proof/Proofs/WrappedRings.lean ====
section
/-! PROOFS. Sys2Proof/Proofs/WrappedRings.lean: a HISTORY section's records as a filter of the ring (R28), in a ring whose records
are fewer than the sequence numbers, and the ring in which two records have one number, which refutes O29. -/

namespace Sys2Proof.Machine

/-! ## Rings with fewer records than sequence numbers -/

/-- In a ring of consecutive numbers the record at a place lies that far from the oldest. -/
theorem Ring.distance_getElem {r : Ring} (hnumbers : r.consecutive) {i : Nat} (hi : i < r.records.length) :
    r.distance (r.records[i]).seq = i % 2 ^ 32 := by
  have holdest : r.oldest = r.counter - BitVec.ofNat 32 r.records.length := by
    unfold Ring.oldest
    split
    next hnil => rw [hnil] at hi; exact absurd hi (Nat.not_lt_zero i)
    next e rest hcons =>
      have hhead := hnumbers 0 (by omega)
      simpa only [hcons, List.getElem_cons_zero, Nat.sub_zero] using hhead
  have hsplit : BitVec.ofNat 32 r.records.length = BitVec.ofNat 32 (r.records.length - i) + BitVec.ofNat 32 i := by
    rw [← BitVec.ofNat_add]; congr 1; omega
  rw [Ring.distance, hnumbers i hi, holdest, hsplit]
  have hback : r.counter - BitVec.ofNat 32 (r.records.length - i) -
      (r.counter - (BitVec.ofNat 32 (r.records.length - i) + BitVec.ofNat 32 i)) = BitVec.ofNat 32 i := by ring
  rw [hback, BitVec.toNat_ofNat]

/-- The elements from one place to another, picked by their distance where each lies at the distance of its place. -/
theorem drop_take_eq_filter {α : Type} (f : α → Nat) (xs : List α) (k a b : Nat)
    (hplace : ∀ (i : Nat) (h : i < xs.length), f xs[i] = k + i) :
    (xs.take b).drop a = xs.filter fun x => decide (k + a ≤ f x) && decide (f x < k + b) := by
  induction xs generalizing k a b with
  | nil => simp
  | cons x xs ih =>
    have hhead : f x = k := hplace 0 (Nat.zero_lt_succ _)
    have htail : ∀ (i : Nat) (h : i < xs.length), f xs[i] = k + 1 + i := fun i h => by
      have := hplace (i + 1) (Nat.succ_lt_succ h)
      rw [List.getElem_cons_succ] at this
      omega
    cases b with
    | zero =>
      have hnone : ∀ y ∈ x :: xs, ¬ (decide (k + a ≤ f y) && decide (f y < k + 0)) = true := fun y hy => by
        obtain ⟨i, hi, rfl⟩ := List.getElem_of_mem hy
        rw [hplace i hi]
        simp
      rw [List.take_zero, List.drop_nil, List.filter_eq_nil_iff.mpr hnone]
    | succ b =>
      cases a with
      | zero =>
        rw [List.take_succ_cons, List.drop_zero, List.filter_cons, hhead, if_pos (by simp), ← List.drop_zero (l := xs.take b),
          ih (k + 1) 0 b htail]
        congr 1
        refine List.filter_congr fun y hy => ?_
        obtain ⟨i, hi, rfl⟩ := List.getElem_of_mem hy
        rw [htail i hi, Bool.eq_iff_iff]
        simp only [Bool.and_eq_true, decide_eq_true_eq]
        omega
      | succ a =>
        rw [List.take_succ_cons, List.drop_succ_cons, List.filter_cons, hhead, if_neg (by simp), ih (k + 1) a b htail]
        refine List.filter_congr fun y hy => ?_
        rw [show k + 1 + a = k + (a + 1) by omega, show k + 1 + b = k + (b + 1) by omega]

/-- R28: the records of a HISTORY section are those from the pin to the earlier of F + post-count and the newest, picked by their
numbers, where no two records held have one number: this is what O29 says of every ring. -/
theorem Ring.historyRange_eq_filter {r : Ring} {p : BitVec 32} (f : BitVec 32) (post : Nat) (hnumbers : r.consecutive)
    (hpin : r.pin = some p) (hfew : r.records.length ≤ 2 ^ 32) :
    r.historyRange f post = r.records.filter fun y =>
      (r.holds f || r.holds (f + BitVec.ofNat 32 post)) && decide (r.distance p ≤ r.distance y.seq) &&
        (!r.holds (f + BitVec.ofNat 32 post) || decide (r.distance y.seq ≤ r.distance (f + BitVec.ofNat 32 post))) := by
  have hplace : ∀ (i : Nat) (h : i < r.records.length), r.distance (r.records[i]).seq = 0 + i := fun i h => by
    rw [Ring.distance_getElem hnumbers h, Nat.mod_eq_of_lt (by omega), Nat.zero_add]
  have hrange := fun a b => drop_take_eq_filter (fun y : EventRec => r.distance y.seq) r.records 0 a b hplace
  rw [Ring.historyRange, hpin]
  dsimp only
  cases hlast : r.holds (f + BitVec.ofNat 32 post) with
  | true =>
    rw [Bool.not_true, Bool.and_false, if_neg Bool.false_ne_true, if_pos rfl, hrange]
    refine List.filter_congr fun y _ => ?_
    simp only [Nat.zero_add, Nat.lt_succ_iff, Bool.or_true, Bool.true_and, Bool.false_or]
  | false =>
    cases hf : r.holds f with
    | false => simp
    | true =>
      rw [Bool.not_true, Bool.false_and, if_neg Bool.false_ne_true, if_neg Bool.false_ne_true, hrange]
      refine List.filter_congr fun y hy => ?_
      obtain ⟨i, hi, rfl⟩ := List.getElem_of_mem hy
      simp [hplace i hi, hi]

/-! ## A ring whose numbers wrap -/

/-- The record at place `i` of a ring that began at sequence number 0. -/
def recordAt (i : Nat) : EventRec :=
  { seq := BitVec.ofNat 32 i, time := BitVec.ofNat 48 i, origin := .engine, kind := 0, args := [] }

/-- A ring that holds its first `n` records, pinned at sequence number 0. -/
def firstRecords (n : Nat) : Ring :=
  { records := (List.range n).map recordAt, counter := BitVec.ofNat 32 n, pin := some 0, lost := 0 }

theorem consecutive_firstRecords (n : Nat) : (firstRecords n).consecutive := by
  intro i hi
  have hlength : (firstRecords n).records.length = n := by simp [firstRecords]
  have hin : i < n := hlength ▸ hi
  have hseq : ((firstRecords n).records[i]).seq = BitVec.ofNat 32 i := by simp [firstRecords, recordAt]
  have hsplit : BitVec.ofNat 32 n = BitVec.ofNat 32 i + BitVec.ofNat 32 (n - i) := by
    rw [← BitVec.ofNat_add]; congr 1; omega
  rw [hseq, hlength, show (firstRecords n).counter = BitVec.ofNat 32 n from rfl, hsplit]
  ring

theorem records_firstRecords_succ (n : Nat) :
    (firstRecords (n + 1)).records = recordAt 0 :: (List.range n).map fun i => recordAt (i + 1) := by
  simp only [firstRecords, List.range_succ_eq_map, List.map_cons, List.map_map]
  rfl

theorem oldest_firstRecords_succ (n : Nat) : (firstRecords (n + 1)).oldest = 0 := by
  rw [Ring.oldest, records_firstRecords_succ]
  rfl

/-- A HISTORY section of the trigger with sequence number 0, without a post-count, takes the oldest record alone. -/
theorem historyRange_firstRecords_succ (n : Nat) : (firstRecords (n + 1)).historyRange 0 0 = [recordAt 0] := by
  have hdistance : (firstRecords (n + 1)).distance 0 = 0 := by rw [Ring.distance, oldest_firstRecords_succ]; rfl
  have hholds : (firstRecords (n + 1)).holds 0 = true := by
    rw [Ring.holds, hdistance, records_firstRecords_succ]
    simp
  have hrange : (firstRecords (n + 1)).historyRange 0 0 =
      ((firstRecords (n + 1)).records.take ((firstRecords (n + 1)).distance 0 + 1)).drop ((firstRecords (n + 1)).distance 0) := by
    rw [Ring.historyRange, show (firstRecords (n + 1)).pin = some 0 from rfl]
    dsimp only
    rw [show (0 : BitVec 32) + BitVec.ofNat 32 0 = 0 from rfl, hholds]
    rfl
  rw [hrange, hdistance, records_firstRecords_succ]
  rfl

/-- Where the newest record has sequence number 0 again, the clause's filter of O29 picks it. -/
theorem mem_filter_newest {n : Nat} (hwraps : BitVec.ofNat 32 n = 0) :
    let r := firstRecords (n + 1)
    let far := fun q : BitVec 32 => (q - r.oldest).toNat
    let held := fun q : BitVec 32 => decide (far q < r.records.length)
    let last : BitVec 32 := 0 + BitVec.ofNat 32 0
    recordAt n ∈ r.records.filter fun y =>
      (held 0 || held last) && decide (far 0 ≤ far y.seq) && (!held last || decide (far y.seq ≤ far last)) := by
  intro r far held last
  have hmem : recordAt n ∈ r.records := List.mem_map.mpr ⟨n, List.mem_range.mpr (Nat.lt_succ_self n), rfl⟩
  have hseq : (recordAt n).seq = 0 := hwraps
  have hlast : last = 0 := rfl
  have hfar : far 0 = 0 := by rw [show far 0 = (0 - r.oldest).toNat from rfl, oldest_firstRecords_succ]; rfl
  have hheld : held 0 = true := decide_eq_true (by rw [hfar]; exact List.length_pos_of_mem hmem)
  rw [List.mem_filter, hlast, hseq, hheld, hfar]
  exact ⟨hmem, rfl⟩

/-- Refutes O29: its clause on the records of a HISTORY section asks for consecutive numbers alone, and not for the ring's bound.
In a ring of 2^32 + 1 records the newest has the oldest's sequence number 0: the clause picks it by its number, where the section
of a trigger with sequence number 0 takes the oldest record alone. With at most 2^32 records, and so in every ring of at most
1,024 (R17), the clause holds (`Ring.historyRange_eq_filter`). -/
theorem not_sectionsBeginAndGather : ¬ Obligations.SectionsBeginAndGather := by
  unfold Obligations.SectionsBeginAndGather
  intro h
  obtain ⟨-, -, -, hhistory, -⟩ := h
  have htaken : recordAt (2 ^ 32) ∈ [recordAt 0] := by
    rw [← historyRange_firstRecords_succ (2 ^ 32), hhistory _ 0 0 0 (consecutive_firstRecords _) rfl]
    exact mem_filter_newest (by decide)
  exact absurd (congrArg EventRec.time (List.mem_singleton.mp htaken)) (by decide)

end Sys2Proof.Machine
end

