-- ==== Sys2Proof/Proofs/SectionEnds.lean ====
section
/-! PROOFS. Sys2Proof/Proofs/SectionEnds.lean: what the end of a section, its record and a skipped entry leave: claim, pin, ring,
retain lines and cursor (R82, R85, R96, R98, R102). -/

namespace Sys2Proof.Machine

/-- What gives the pin back: no HISTORY entry follows in the walk. -/
theorem lastHistory_eq (c : Capture) :
    lastHistory c = (c.walk.drop (c.position + 1)).all fun i => decide ((c.snapshot.entries[i.entry]).kind ≠ .history) := by
  rw [lastHistory, hasHistory, List.not_any_eq_all_not]
  refine congrArg (List.all _) (funext fun i => ?_)
  rw [decide_not]
  rfl

/-- The ring that the end of a section leaves before its event. -/
def unpinned (c : Capture) (e : PlanEntry) (r : Ring) : Ring :=
  let unpin : Bool := e.kind = .history &&
    (c.walk.drop (c.position + 1)).all fun i => (c.snapshot.entries[i.entry]).kind ≠ .history
  { r with pin := if unpin then none else r.pin }

theorem ring_releaseForEnd (c : Capture) (e : PlanEntry) (s : State) : (releaseForEnd c e s).ring = unpinned c e s.ring := by
  rw [releaseForEnd_eq, lastHistory_eq]
  rfl

theorem engine_releaseForEnd (c : Capture) (e : PlanEntry) (s : State) : (releaseForEnd c e s).engine = s.engine := by
  rw [releaseForEnd_eq]
  exact (unclaimOne_keeps e s).1

theorem dir_releaseForEnd (c : Capture) (e : PlanEntry) (s : State) : (releaseForEnd c e s).dir = s.dir := by
  rw [releaseForEnd_eq]
  exact (unclaimOne_keeps e s).2.2.1

theorem time_releaseForEnd (c : Capture) (e : PlanEntry) (s : State) : (releaseForEnd c e s).time = s.time := by
  rw [releaseForEnd_eq]
  exact (unclaimOne_keeps e s).2.2.2

theorem streams_releaseForEnd (c : Capture) (e : PlanEntry) (s : State) :
    (releaseForEnd c e s).streams = (unclaimOne e s).streams := by
  rw [releaseForEnd_eq]

theorem streams_unclaimOne_congr {s t : State} (e : PlanEntry) (h : s.streams = t.streams) :
    (unclaimOne e s).streams = (unclaimOne e t).streams := by
  unfold unclaimOne
  split <;> simp only [State.onStream, h]

/-- What the record that `hand` takes depends on beside the directory. -/
theorem dir_releaseForEnd_hand (r : JRec) (c : Capture) (e : PlanEntry) (s : State) (o : Origin) (k : Byte) (args : List Nat) :
    (hand r .engine (post o k args (releaseForEnd c e s))).dir = (hand r .engine s).dir := by
  have hunclaim : ∀ t : State, (hand r .engine (unclaimOne e t)).dir = (hand r .engine t).dir := fun t => by
    unfold unclaimOne
    split <;> rfl
  rw [releaseForEnd_eq, ← hunclaim s]
  rfl

/-! ## The end of a section -/

theorem sectionEnd_eq (c : Capture) (x : Section) (e : PlanEntry) (s : State) :
    let u := sectionEnd c x e s
    u.engine = { s.engine with phase := .secRecord } ∧ u.dir = s.dir ∧
    u.ring = (unpinned c e s.ring).post s.time .engine 0x06
      [BitVec.ofNat 32 x.index, BitVec.ofNat 32 x.outcome.code.toNat, BitVec.ofNat 32 x.len] ∧
    u.streams = (unclaimOne e s).streams := by
  have hu : sectionEnd c x e s = { releaseForEnd c e s with
      ring := (releaseForEnd c e s).ring.post (releaseForEnd c e s).time .engine 0x06
        [BitVec.ofNat 32 x.index, BitVec.ofNat 32 x.outcome.code.toNat, BitVec.ofNat 32 x.len]
      engine := { (releaseForEnd c e s).engine with phase := .secRecord } } := rfl
  rw [hu, ring_releaseForEnd, engine_releaseForEnd, time_releaseForEnd]
  exact ⟨rfl, dir_releaseForEnd c e s, rfl, streams_releaseForEnd c e s⟩

/-! ## Retain lines and the cursor -/

/-- What the retain line of an ended entry leaves: its count falls, and it is released at 0 (R98). -/
theorem releaseOne_line (n : Nat) (e : PlanEntry) (s : State) (l : Fin 8) (h : e.retain = some l) :
    let u := releaseOne n e s
    let left := s.engine.retainCount[l] - 1
    u.engine.retainCount = vset s.engine.retainCount l left ∧
    (left = 0 → s.engine.retain.getLsbD l.val = true → u.engine.retain = setBit s.engine.retain l.val false ∧
      u.ring = s.ring.post s.time .engine 0x09 [BitVec.ofNat 32 n, BitVec.ofNat 32 l.val]) ∧
    (left ≠ 0 ∨ s.engine.retain.getLsbD l.val = false → u.engine.retain = s.engine.retain ∧ u.ring = s.ring) := by
  intro u left
  have hu : u = releaseOne n e s := rfl
  rw [releaseOne_some n e s l h] at hu
  by_cases hreleased : (decide (s.engine.retainCount[l] - 1 = 0) && s.engine.retain.getLsbD l.val) = true
  · rw [if_pos hreleased] at hu
    rw [Bool.and_eq_true, decide_eq_true_eq] at hreleased
    obtain ⟨hzero, hline⟩ := hreleased
    rw [hu]
    refine ⟨rfl, fun _ _ => ⟨rfl, rfl⟩, ?_⟩
    rintro (hleft | hline')
    · exact absurd hzero hleft
    · rw [hline] at hline'; cases hline'
  · rw [if_neg hreleased] at hu
    rw [hu]
    refine ⟨rfl, fun hzero hline => absurd ?_ hreleased, fun _ => ⟨rfl, rfl⟩⟩
    rw [hline, Bool.and_true]
    exact decide_eq_true hzero

/-- A retain line released leaves the rest of the engine, the directory and the channels. -/
theorem releaseOne_keeps (n : Nat) (e : PlanEntry) (s : State) :
    let u := releaseOne n e s
    u.engine.capture = s.engine.capture ∧ u.engine.phase = s.engine.phase ∧ u.engine.state = s.engine.state ∧
      u.engine.bufs = s.engine.bufs ∧ u.dir = s.dir ∧ u.streams = s.streams := by
  unfold releaseOne
  split
  · exact ⟨rfl, rfl, rfl, rfl, rfl, rfl⟩
  · dsimp only
    split <;> exact ⟨rfl, rfl, rfl, rfl, rfl, rfl⟩

/-- R82: after a section the next one begins, the walk has ended, or the close goes on. -/
theorem afterSection_eq {c : Capture} {s : State} (hc : s.engine.capture = some c) :
    let ended := c.walk.length ≤ c.cursor.getD 0
    afterSection s = s.onEngine fun g => { g with
      phase := if g.state = .closing then .skips else if ended then .closeRecord else .secBegin
      state := if ended then .closing else g.state } := by
  intro ended
  have hended : ended ↔ c.walk.length ≤ c.position := Iff.rfl
  unfold afterSection
  rw [hc]
  dsimp only
  by_cases hstate : s.engine.state = .closing
  · rw [if_pos hstate]
    simp only [setPhase, State.onEngine, hstate, if_true, ite_self]
  · rw [if_neg hstate]
    by_cases h : ended
    · rw [if_pos (hended.mp h)]
      simp only [setPhase, setEngState, State.onEngine, if_neg hstate, if_pos h]
    · rw [if_neg (fun h' => h (hended.mpr h'))]
      simp only [setPhase, State.onEngine, if_neg hstate, if_neg h]

/-! ## Past an entry -/

theorem capture_onCapture_of_some {c : Capture} {s : State} (hc : s.engine.capture = some c) (f : Capture → Capture) :
    (s.onCapture f).engine.capture = some (f c) := congrArg (Option.map f) hc

/-- Steps 4 and 5 of R85: the retain line's count falls, and the cursor moves. -/
def pastEntry (n : Nat) (e : PlanEntry) (s : State) : State := advanceCursor (releaseOne n e s)

theorem pastEntry_leaves {c : Capture} {s : State} (hc : s.engine.capture = some c) (n : Nat) (e : PlanEntry) :
    let u := pastEntry n e s
    u.engine.capture = some { c with cursor := some (c.position + 1), current := none } ∧ u.dir = s.dir ∧
    u.engine.phase = s.engine.phase ∧ u.engine.state = s.engine.state ∧ u.engine.bufs = s.engine.bufs ∧ u.streams = s.streams := by
  obtain ⟨hcapture, hphase, hstate, hbufs, hdir, hstreams⟩ := releaseOne_keeps n e s
  exact ⟨capture_onCapture_of_some (hcapture.trans hc) _, hdir, hphase, hstate, hbufs, hstreams⟩

/-- What an entry without a retain line leaves of the ring and the lines, and one with the line `l` (R98). -/
def linesLeft (n : Nat) (e : PlanEntry) (s u : State) : Prop :=
  (e.retain = none → u.ring = s.ring ∧ u.engine.retain = s.engine.retain ∧ u.engine.retainCount = s.engine.retainCount) ∧
  ∀ l : Fin 8, e.retain = some l →
    let left := s.engine.retainCount[l] - 1
    u.engine.retainCount = vset s.engine.retainCount l left ∧
    (left = 0 → s.engine.retain.getLsbD l.val = true → u.engine.retain = setBit s.engine.retain l.val false ∧
      u.ring = s.ring.post s.time .engine 0x09 [BitVec.ofNat 32 n, BitVec.ofNat 32 l.val]) ∧
    (left ≠ 0 ∨ s.engine.retain.getLsbD l.val = false → u.engine.retain = s.engine.retain ∧ u.ring = s.ring)

theorem linesLeft_pastEntry (n : Nat) (e : PlanEntry) (s : State) : linesLeft n e s (pastEntry n e s) := by
  refine ⟨fun hnone => ?_, fun l hl => releaseOne_line n e s l hl⟩
  rw [pastEntry, releaseOne_none n e s hnone]
  exact ⟨rfl, rfl, rfl⟩

/-! ## The record of a section -/

theorem engine_hand (r : JRec) (who : Who) (s : State) : (hand r who s).engine = s.engine := rfl

/-- What the step past an entry leaves, and what follows it. -/
theorem afterSection_pastEntry {c : Capture} {s : State} (hc : s.engine.capture = some c) (n : Nat) (e : PlanEntry) :
    let u := afterSection (pastEntry n e s)
    let walkOver := c.walk.length ≤ c.position + 1
    u.dir = s.dir ∧ u.engine.capture = some { c with cursor := some (c.position + 1), current := none } ∧
    u.engine.phase = (if s.engine.state = .closing then .skips else if walkOver then .closeRecord else .secBegin) ∧
    u.engine.state = (if s.engine.state = .closing ∨ walkOver then .closing else s.engine.state) ∧ linesLeft n e s u := by
  intro u walkOver
  obtain ⟨hcapture, hdir, -, hstate, -, -⟩ := pastEntry_leaves hc n e
  have hlines := linesLeft_pastEntry n e s
  have hu : u = _ := afterSection_eq hcapture
  rw [hu]
  generalize pastEntry n e s = v at hcapture hdir hstate hlines ⊢
  refine ⟨hdir, hcapture, ?_, ?_, hlines⟩
  · rw [← hstate]
    rfl
  · rw [← hstate]
    by_cases hclosing : v.engine.state = .closing
    · rw [if_pos (Or.inl hclosing)]
      exact (congrArg (ite _ EngState.closing) hclosing).trans (ite_self _)
    · exact if_congr (or_iff_right hclosing).symm rfl rfl

/-- The capture that knows whether all its sections ended well. -/
def Capture.noteEnd (o : OutcomeCode) (c : Capture) : Capture := { c with clean := c.clean && endedWell o }

/-- The state after a section's record: its trailer noted, the record handed over. -/
def recordHanded (c : Capture) (x : Section) (item : WalkItem) (e : PlanEntry) (s : State) : State :=
  (hand (.sectionDone c.number x.index item.entry.val e.kind x.outcome x.len x.first (x.pageCount c) x.gaps.length c.head) .engine
    (s.onDir (noteTrailer c.number x.index x.trailerDone))).onCapture (Capture.noteEnd x.outcome)

theorem sectionRecordStep_eq (c : Capture) (x : Section) (item : WalkItem) (e : PlanEntry) (s : State) :
    sectionRecordStep c x item e s = afterSection (pastEntry c.number e (recordHanded c x item e s)) := by
  rw [sectionRecordStep, pastEntry, recordHanded]
  rfl

theorem capture_recordHanded {c : Capture} {s : State} (hc : s.engine.capture = some c) (x : Section) (item : WalkItem)
    (e : PlanEntry) : (recordHanded c x item e s).engine.capture = some (c.noteEnd x.outcome) := by
  rw [recordHanded]
  refine capture_onCapture_of_some ?_ _
  rw [engine_hand]
  exact hc

theorem linesLeft_congr {s t u : State} {n : Nat} {e : PlanEntry} (hring : s.ring = t.ring) (htime : s.time = t.time)
    (hretain : s.engine.retain = t.engine.retain) (hcounts : s.engine.retainCount = t.engine.retainCount)
    (h : linesLeft n e s u) : linesLeft n e t u := by
  unfold linesLeft at h ⊢
  rw [hring, htime, hretain, hcounts] at h
  exact h

/-- A record handed over, with the capture noted, leaves the lines, the ring and the engine's state. -/
theorem recordHanded_keeps (c : Capture) (x : Section) (item : WalkItem) (e : PlanEntry) (s : State) :
    let t := recordHanded c x item e s
    t.ring = s.ring ∧ t.time = s.time ∧ t.engine.retain = s.engine.retain ∧ t.engine.retainCount = s.engine.retainCount ∧
      t.engine.state = s.engine.state := by
  rw [recordHanded]
  generalize JRec.sectionDone _ _ _ _ _ _ _ _ _ _ = r
  exact ⟨rfl, rfl, rfl, rfl, rfl⟩

/-! ## A skipped entry -/

/-- The capture that has given its next index to the entry at its cursor. -/
def Capture.indexGiven (c : Capture) : Capture :=
  { c with nextIndex := c.nextIndex + 1, asked := false, noReclaim := false
           walk := c.walk.modify c.position fun i => { i with secIdx := some c.nextIndex } }

/-- The capture that has skipped the entry at its cursor. -/
def Capture.skipHere (c : Capture) : Capture :=
  { c with clean := false, nextIndex := c.nextIndex + 1
           walk := c.walk.modify c.position fun i => { i with secIdx := some c.nextIndex } }

theorem needMet_skipHere (c : Capture) :
    ({ c.skipHere with asked := false, noReclaim := false } : Capture) = { c.indexGiven with clean := false } := by
  rw [Capture.skipHere, Capture.indexGiven]

theorem capture_needMet {c : Capture} {s : State} (hc : s.engine.capture = some c) :
    (needMet s).engine.capture = some { c with asked := false, noReclaim := false } := by
  rw [needMet]
  exact capture_onCapture_of_some hc _

/-- A skipped entry's event posted, its record handed over, its index given. -/
def skipTold (o : OutcomeCode) (c : Capture) (r : JRec) (s : State) : State :=
  needMet ((hand r .engine (post .engine evSectionDone [c.nextIndex, o.code.toNat, 0] s)).onCapture Capture.skipHere)

/-- The record of a skipped entry. -/
def skipRecord (o : OutcomeCode) (c : Capture) (item : WalkItem) (e : PlanEntry) : JRec :=
  .sectionDone c.number c.nextIndex item.entry.val e.kind o 0 c.nextPage 0 0 c.head

/-- The state after a skipped entry's record: the table entry taken, and the claim and the pin given back. -/
def skipHanded (o : OutcomeCode) (c : Capture) (item : WalkItem) (e : PlanEntry) (s : State) : State :=
  skipTold o c (skipRecord o c item e) (releaseForEnd c e (s.onDir (reserveSection c.number)))

theorem skipEntry_eq (o : OutcomeCode) (c : Capture) (item : WalkItem) (e : PlanEntry) (s : State) :
    skipEntry o c item e s = pastEntry c.number e (skipHanded o c item e s) := by
  rw [skipEntry, pastEntry, skipHanded, skipTold, skipRecord]
  rfl

theorem capture_skipTold {c : Capture} {s : State} (hc : s.engine.capture = some c) (o : OutcomeCode) (r : JRec) :
    (skipTold o c r s).engine.capture = some { c.indexGiven with clean := false } := by
  have hhanded : (hand r .engine (post .engine evSectionDone [c.nextIndex, o.code.toNat, 0] s)).engine.capture = some c := by
    rw [engine_hand]
    exact hc
  rw [skipTold, capture_needMet (capture_onCapture_of_some hhanded Capture.skipHere), ← needMet_skipHere]

theorem skipTold_keeps (o : OutcomeCode) (c : Capture) (r : JRec) (s : State) :
    let u := skipTold o c r s
    u.time = s.time ∧ u.streams = s.streams ∧ u.engine.phase = s.engine.phase ∧ u.engine.state = s.engine.state ∧
    u.engine.bufs = s.engine.bufs ∧ u.engine.retain = s.engine.retain ∧ u.engine.retainCount = s.engine.retainCount := by
  simp only [skipTold, needMet, hand, startCompaction, post, State.onCapture, State.onDir, State.onRing, State.onEngine, and_self]

theorem dir_skipTold (o : OutcomeCode) (c : Capture) (r : JRec) (s : State) : (skipTold o c r s).dir =
    (hand r .engine (post .engine evSectionDone [c.nextIndex, o.code.toNat, 0] s)).dir := by
  rw [skipTold, needMet]
  rfl

theorem ring_skipTold (o : OutcomeCode) (c : Capture) (r : JRec) (s : State) : (skipTold o c r s).ring =
    s.ring.post s.time .engine 0x06 [BitVec.ofNat 32 c.nextIndex, BitVec.ofNat 32 o.code.toNat, 0] := by
  rw [skipTold]
  rfl

/-- What handing over a skipped entry's record leaves. -/
theorem skipHanded_leaves {c : Capture} {s : State} (hc : s.engine.capture = some c) (o : OutcomeCode) (item : WalkItem)
    (e : PlanEntry) :
    let u := skipHanded o c item e s
    u.engine.capture = some { c.indexGiven with clean := false } ∧
    u.dir = (hand (skipRecord o c item e) .engine (s.onDir (reserveSection c.number))).dir ∧
    u.ring = (unpinned c e s.ring).post s.time .engine 0x06
      [BitVec.ofNat 32 c.nextIndex, BitVec.ofNat 32 o.code.toNat, 0] ∧
    u.time = s.time ∧ u.streams = (unclaimOne e s).streams ∧
    u.engine.phase = s.engine.phase ∧ u.engine.state = s.engine.state ∧ u.engine.bufs = s.engine.bufs ∧
    u.engine.retain = s.engine.retain ∧ u.engine.retainCount = s.engine.retainCount := by
  intro u
  have hu : u = skipTold o c (skipRecord o c item e) (releaseForEnd c e (s.onDir (reserveSection c.number))) := rfl
  have hhanded : (skipTold o c (skipRecord o c item e) (releaseForEnd c e (s.onDir (reserveSection c.number)))).dir = _ :=
    (dir_skipTold o c _ _).trans (dir_releaseForEnd_hand _ c e (s.onDir (reserveSection c.number)) .engine _ _)
  have hring := ring_releaseForEnd c e (s.onDir (reserveSection c.number))
  have htime := time_releaseForEnd c e (s.onDir (reserveSection c.number))
  have hengine : (releaseForEnd c e (s.onDir (reserveSection c.number))).engine = s.engine := by
    rw [engine_releaseForEnd, State.onDir]
  have hclaims := (streams_releaseForEnd c e (s.onDir (reserveSection c.number))).trans
    (streams_unclaimOne_congr e (t := s) (by rw [State.onDir]))
  rw [hu]
  generalize releaseForEnd c e (s.onDir (reserveSection c.number)) = v at hhanded hring htime hengine hclaims ⊢
  obtain ⟨htime', hstreams', hphase, hstate, hbufs, hretain, hcounts⟩ := skipTold_keeps o c (skipRecord o c item e) v
  have hposted := ring_skipTold o c (skipRecord o c item e) v
  rw [hring, htime, State.onDir] at hposted
  exact ⟨capture_skipTold ((congrArg Engine.capture hengine).trans hc) o _, hhanded, hposted, htime'.trans (htime.trans (by rw [State.onDir])),
    hstreams'.trans hclaims, hphase.trans (congrArg Engine.phase hengine),
    hstate.trans (congrArg Engine.state hengine), hbufs.trans (congrArg Engine.bufs hengine),
    hretain.trans (congrArg Engine.retain hengine), hcounts.trans (congrArg Engine.retainCount hengine)⟩

end Sys2Proof.Machine
end

