-- ==== Sys2Proof/Proofs/ReclaimSearches.lean ====
section
/-! PROOFS. Sys2Proof/Proofs/ReclaimSearches.lean: what the engine does to have space reclaimed (R93, R145, log 13), and the steps
that need a section-table entry (R95, R96, R102, log 49). -/

namespace Sys2Proof.Machine

/-! ## The search for space -/

/-- What comes of a need of capture `c` that only a reclamation can meet: `dry` is done where nothing can be had, and `stillWaits`
where an erase that is pending may meet the need. -/
def Seeks (c : Capture) (s : State) (stillWaits : Bool) (dry run : Act) : Prop :=
  let pending := erasePending s = true
  (s.dir.reclaim ≠ none → run = .wait) ∧
  (s.dir.reclaim = none → c.asked = true → c.noReclaim = false → pending → run = .wait) ∧
  (s.dir.reclaim = none → c.asked = false ∨ c.noReclaim = true ∨ ¬ pending →
    (∀ d : DirEntry, c.noReclaim = false → reclaimable s = some d → run =
      if journalRoom s then .did (startReclaim d.cap (s.onCapture fun x => { x with asked := true })) else .wait) ∧
    (c.noReclaim = true ∨ reclaimable s = none →
      (stillWaits = true → pending → run = .wait) ∧ (stillWaits = false ∨ ¬ pending → run = dry)))

/-- The engine's act on what came of asking. -/
def Sought.act (dry : Act) : Sought → Act
  | .did t => .did t
  | .wait => .wait
  | .nothing => dry

/-- The capture found is reclaimed, or nothing can be had but by waiting. -/
def askReclaim (waits : Bool) (s : State) : Option DirEntry → Sought
  | some e => if journalRoom s then .did (startReclaim e.cap (s.onCapture fun c => { c with asked := true })) else .wait
  | none => if waits then .wait else .nothing

/-- The engine may ask for a reclamation: none is under way, and no erase is pending for a need it has asked for. -/
theorem seekReclaim_asks {c : Capture} {s : State} (hc : s.engine.capture = some c) (b : Bool) (hidle : s.dir.reclaim = none)
    (hasks : (c.asked && !c.noReclaim && erasePending s) = false) :
    seekReclaim b s = askReclaim (b && erasePending s) s (if c.noReclaim then none else reclaimable s) := by
  unfold seekReclaim
  rw [hc]
  dsimp only
  rw [hidle, Option.isSome_none, if_neg Bool.false_ne_true, hasks, if_neg Bool.false_ne_true]
  cases (if c.noReclaim = true then none else reclaimable s) <;> rfl

theorem seekReclaim_busy {c : Capture} {s : State} (hc : s.engine.capture = some c) (b : Bool) (h : s.dir.reclaim ≠ none) :
    seekReclaim b s = .wait := by
  unfold seekReclaim
  rw [hc]
  exact if_pos (Option.isSome_iff_ne_none.mpr h)

theorem seekReclaim_asked {c : Capture} {s : State} (hc : s.engine.capture = some c) (b : Bool) (hidle : s.dir.reclaim = none)
    (hasked : (c.asked && !c.noReclaim && erasePending s) = true) : seekReclaim b s = .wait := by
  unfold seekReclaim
  rw [hc]
  dsimp only
  rw [hidle, Option.isSome_none, if_neg Bool.false_ne_true, if_pos hasked]

/-- Log 13: the search for space. -/
theorem seeks_act {c : Capture} {s : State} (hc : s.engine.capture = some c) (b : Bool) (dry : Act) :
    Seeks c s b dry ((seekReclaim b s).act dry) := by
  refine ⟨fun hbusy => ?_, fun hidle hasked hmay hpending => ?_, fun hidle hneed => ?_⟩
  · rw [seekReclaim_busy hc b hbusy]
    rfl
  · rw [seekReclaim_asked hc b hidle (by rw [hasked, hmay, hpending]; rfl)]
    rfl
  · have hasks : (c.asked && !c.noReclaim && erasePending s) = false := by
      rcases hneed with h | h | h
      · rw [h]; rfl
      · rw [h, Bool.not_true, Bool.and_false, Bool.false_and]
      · rw [Bool.eq_false_iff.mpr h, Bool.and_false]
    rw [seekReclaim_asks hc b hidle hasks]
    refine ⟨fun d hmay hd => ?_, fun hnone => ?_⟩
    · rw [hmay, hd, if_neg Bool.false_ne_true, askReclaim]
      cases journalRoom s <;> rfl
    · have hnothing : (if c.noReclaim = true then none else reclaimable s) = none := by
        rcases hnone with h | h
        · exact if_pos h
        · rw [h, ite_self]
      rw [hnothing]
      refine ⟨fun hb hpending => ?_, fun hdry => ?_⟩
      · rw [hb, hpending, Bool.and_self]
        rfl
      · have htest : (b && erasePending s) = false := by
          rcases hdry with h | h
          · rw [h, Bool.false_and]
          · rw [Bool.eq_false_iff.mpr h, Bool.and_false]
        rw [htest]
        rfl

/-! ## A section-table entry -/

theorem withTableEntry_free {d : Directory} {s : State} (hd : s.dir = d) (hfree : lowestFreeSection d ≠ none)
    (f dry : State → State) : withTableEntry f dry s = if journalRoom s then .did (f s) else .wait := by
  subst hd
  unfold withTableEntry
  cases h : lowestFreeSection s.dir with
  | none => exact absurd h hfree
  | some i => rfl

theorem withTableEntry_full {s : State} (hfull : lowestFreeSection s.dir = none) (f dry : State → State) :
    withTableEntry f dry s = (seekReclaim false s).act (.did (dry s)) := by
  unfold withTableEntry
  rw [hfull]
  cases seekReclaim false s <;> rfl

/-- Log 49: what needs a table entry takes it with journal room, or space is sought. -/
theorem withTableEntry_seeks {c : Capture} {s : State} (hc : s.engine.capture = some c) (f dry : State → State) :
    (lowestFreeSection s.dir ≠ none → withTableEntry f dry s = if journalRoom s then .did (f s) else .wait) ∧
    (lowestFreeSection s.dir = none → Seeks c s false (.did (dry s)) (withTableEntry f dry s)) := by
  refine ⟨fun hfree => withTableEntry_free rfl hfree f dry, fun hfull => ?_⟩
  rw [withTableEntry_full hfull]
  exact seeks_act hc false _

/-- R102: the entries that the close skips. -/
theorem skipStep_none {c : Capture} {s : State} (h : c.walk[c.cursor.getD 0]? = none ∨ c.unrecorded = true) :
    skipStep c s = .did (s.onEngine fun g => { g with phase := .closeRecord }) := by
  unfold skipStep
  rcases h with h | h
  · rw [show c.itemHere = none from h]
    rfl
  · cases c.itemHere with
    | none => rfl
    | some item => exact if_pos h

theorem skipStep_some {c : Capture} {s : State} {item : WalkItem} (h : c.walk[c.cursor.getD 0]? = some item)
    (hrecorded : c.unrecorded = false) :
    skipStep c s = withTableEntry (skipEntry s.engine.cause.skip c item c.snapshot.entries[item.entry]) leaveUnrecorded s := by
  unfold skipStep
  rw [show c.itemHere = some item from h]
  exact if_neg (by rw [hrecorded]; exact Bool.false_ne_true)

end Sys2Proof.Machine
end

