-- ==== Sys2Proof/Proofs/CaptureCloses.lean ====
section
/-! PROOFS. Sys2Proof/Proofs/CaptureCloses.lean: what the acceptance of a CAPTURE_CLOSE record leaves of the engine, the ring, the
channels, the timers and the ports (R8, R11, R101 to R103). -/

namespace Sys2Proof.Machine

/-! ## Step by step over lines and ports -/

/-- Two loops agree where their steps agree in every state that they can reach. -/
theorem forEach_congr_of {α : Type} {f g : α → State → State} (P : State → Prop) (hstep : ∀ x t, P t → f x t = g x t)
    (hkeeps : ∀ x t, P t → P (g x t)) (xs : List α) {s : State} (h : P s) : forEach xs f s = forEach xs g s := by
  induction xs generalizing s with
  | nil => rfl
  | cons x xs ih =>
    show forEach xs f (f x s) = forEach xs g (g x s)
    rw [hstep x s h]
    exact ih (hkeeps x s h)

/-- A loop whose steps change the link alone. -/
theorem forEach_link {α : Type} {g : α → State → State} (hlink : ∀ x t, g x t = { t with link := (g x t).link }) (xs : List α)
    (s : State) : forEach xs g s = { s with link := (forEach xs g s).link } := by
  induction xs generalizing s with
  | nil => rfl
  | cons x xs ih =>
    show forEach xs g (g x s) = { s with link := (forEach xs g (g x s)).link }
    rw [ih (g x s)]
    generalize (forEach xs g (g x s)).link = l
    rw [hlink x s]

/-- A port sees its own step of a loop over the ports. -/
theorem port_forEach {g : PortId → State → State} (hother : ∀ q p t, p ≠ q → (g q t).port p = t.port p) (p : PortId) (s : State) :
    ∃ t : State, t.port p = s.port p ∧ (forEach allPorts g s).port p = (g p t).port p := by
  cases p with
  | host =>
    exact ⟨s, rfl, (hother .service .host _ (by decide)).trans (hother .management .host _ (by decide))⟩
  | management =>
    exact ⟨g .host s, hother .host .management _ (by decide), hother .service .management _ (by decide)⟩
  | service =>
    exact ⟨g .management (g .host s), (hother .management .service _ (by decide)).trans (hother .host .service _ (by decide)), rfl⟩

/-! ## Requests that wait for the close (R101, R177) -/

theorem answer_link (p : PortId) (st : Status) (b : Bool) (fields : List Byte) (s : State) :
    answer p st b fields s = { s with link := (answer p st b fields s).link } := rfl

theorem port_answer_other {p q : PortId} (h : p ≠ q) (st : Status) (b : Bool) (fields : List Byte) (s : State) :
    (answer q st b fields s).port p = s.port p := by
  rw [answer, port_onPort_other _ _ _ _ h]

theorem notices_answer (q p : PortId) (st : Status) (b : Bool) (fields : List Byte) (s : State) :
    ((answer q st b fields s).port p).notices = (s.port p).notices := by
  by_cases h : p = q
  · subst h
    rw [answer, port_onPort_same]
    split <;> rfl
  · rw [port_answer_other h]

theorem answerRestart_link (p : PortId) (force : Bool) (cap : Nat) (o : Byte) (s : State) :
    answerRestart p force cap o s = { s with link := (answerRestart p force cap o s).link } := by
  unfold answerRestart
  split <;> rfl

theorem port_answerRestart_other {p q : PortId} (h : p ≠ q) (force : Bool) (cap : Nat) (o : Byte) (s : State) :
    (answerRestart q force cap o s).port p = s.port p := by
  unfold answerRestart
  split
  · exact port_answer_other h _ _ _ s
  · exact port_onPort_other q p _ s h

theorem notices_answerRestart (q p : PortId) (force : Bool) (cap : Nat) (o : Byte) (s : State) :
    ((answerRestart q force cap o s).port p).notices = (s.port p).notices := by
  unfold answerRestart
  split
  · exact notices_answer q p _ _ _ s
  · by_cases h : p = q
    · subst h
      refine (congrArg Port.notices (port_onPort_same p _ s)).trans ?_
      split <;> rfl
    · exact congrArg Port.notices (port_onPort_other q p _ s h)

/-- What a port is told of the close of capture `cap` with outcome `o`. -/
def tellClose (cap : Nat) (o : OutcomeCode) (p : PortId) (s : State) : State :=
  match waitOf p s with
  | .close n => if n = cap then answer p .ok false (leBytes 4 cap ++ [o.code]) s else s
  | .restartClose n => if n = cap then answerRestart p true cap o.code s else s
  | _ => s

theorem answerClose_eq (cap : Nat) (o : OutcomeCode) (s : State) : answerClose cap o s = forEach allPorts (tellClose cap o) s := rfl

theorem tellClose_link (cap : Nat) (o : OutcomeCode) (p : PortId) (s : State) :
    tellClose cap o p s = { s with link := (tellClose cap o p s).link } := by
  unfold tellClose
  split
  · split
    · exact answer_link p _ _ _ s
    · rfl
  · split
    · exact answerRestart_link p _ _ _ s
    · rfl
  · rfl

theorem port_tellClose_other (cap : Nat) (o : OutcomeCode) (q p : PortId) (s : State) (h : p ≠ q) :
    (tellClose cap o q s).port p = s.port p := by
  unfold tellClose
  split
  · split
    · exact port_answer_other h _ _ _ s
    · rfl
  · split
    · exact port_answerRestart_other h _ _ _ s
    · rfl
  · rfl

theorem notices_tellClose (cap : Nat) (o : OutcomeCode) (q p : PortId) (s : State) :
    ((tellClose cap o q s).port p).notices = (s.port p).notices := by
  unfold tellClose
  split
  · split
    · exact notices_answer q p _ _ _ s
    · rfl
  · split
    · exact notices_answerRestart q p _ _ _ s
    · rfl
  · rfl

theorem notices_answerClose (cap : Nat) (o : OutcomeCode) (p : PortId) (s : State) :
    ((answerClose cap o s).port p).notices = (s.port p).notices := by
  obtain ⟨t, ht, hp⟩ := port_forEach (port_tellClose_other cap o) p s
  rw [answerClose_eq, hp, notices_tellClose, ht]

/-- R101: an ABORT_CAPTURE that waits for the close is answered. -/
theorem port_answerClose_waiting {cap : Nat} {p : PortId} {r : InService} {s : State} (o : OutcomeCode)
    (hr : (s.port p).service = some r) (hwait : r.wait = .close cap) : (answerClose cap o s).port p =
      { s.port p with
        service := none
        tx := (s.port p).tx ++ [mkReply r.kind r.tag .ok false (leBytes 4 cap ++ [o.code])] } := by
  obtain ⟨t, ht, hp⟩ := port_forEach (port_tellClose_other cap o) p s
  have hservice : (t.port p).service = some r := ht ▸ hr
  have hwaits : waitOf p t = .close cap := by rw [waitOf, hservice]; exact hwait
  rw [answerClose_eq, hp, tellClose, hwaits]
  dsimp only
  rw [if_pos rfl, port_answer_of_service .ok false _ hservice, ht]

/-! ## Lines (R98) -/

/-- A line released where it is asserted. -/
def releaseLine (cap : Nat) (k : Fin 8) (s : State) : State :=
  if s.engine.retain.getLsbD k.val then
    post .engine evRetainReleased [cap, k.val] (s.onEngine fun x => { x with retain := setBit x.retain k.val false })
  else s

theorem setBit_of_clear {w : Nat} {v : BitVec w} {i : Nat} (hi : i < w) (h : v.getLsbD i = false) : setBit v i false = v := by
  refine BitVec.eq_of_getLsbD_eq fun j _ => ?_
  rw [getLsbD_setBit v i j false hi]
  split
  next hj => rw [hj, h]
  next => rfl

/-- The event of a line's release. -/
def postRelease (cap : Nat) (time : PartTime) (r : Ring) (k : Fin 8) : Ring :=
  r.post time .engine 0x09 [BitVec.ofNat 32 cap, BitVec.ofNat 32 k.val]

/-- The lines asserted are released in order: each posts its event, and none is asserted after it. -/
theorem forEach_releaseLine (cap : Nat) (ks : List (Fin 8)) (s : State) (hks : ks.Nodup) :
    forEach ks (releaseLine cap) s = { s with
      ring := (ks.filter fun k => s.engine.retain.getLsbD k.val).foldl (postRelease cap s.time) s.ring
      engine := { s.engine with retain := ks.foldl (fun v k => setBit v k.val false) s.engine.retain } } := by
  induction ks generalizing s with
  | nil => rfl
  | cons k ks ih =>
    obtain ⟨hk, hrest⟩ := List.nodup_cons.mp hks
    show forEach ks (releaseLine cap) (releaseLine cap k s) = _
    have hsame : ∀ v : BitVec 8, ks.filter (fun j => (setBit v k.val false).getLsbD j.val) = ks.filter fun j => v.getLsbD j.val :=
      fun v => List.filter_congr fun j hj => by
        rw [getLsbD_setBit v k.val j.val false k.isLt, if_neg]
        exact fun h => hk (Fin.ext h ▸ hj)
    by_cases hline : s.engine.retain.getLsbD k.val = true
    · have hreleased : releaseLine cap k s = { s with
          ring := postRelease cap s.time s.ring k
          engine := { s.engine with retain := setBit s.engine.retain k.val false } } := by
        rw [releaseLine, if_pos hline]
        rfl
      rw [hreleased, ih _ hrest, List.filter_cons, if_pos hline, List.foldl_cons, List.foldl_cons]
      dsimp only
      rw [hsame]
    · have hclear : s.engine.retain.getLsbD k.val = false := Bool.eq_false_iff.mpr hline
      have hkept : releaseLine cap k s = s := by
        rw [releaseLine, if_neg hline]
      rw [hkept, ih s hrest, List.filter_cons, if_neg hline, List.foldl_cons, setBit_of_clear k.isLt hclear]

theorem clearLines (v : BitVec 8) : allLines.foldl (fun v k => setBit v k.val false) v = 0 := by
  refine BitVec.eq_of_getLsbD_eq fun j hj => ?_
  have hfold : ∀ (ks : List (Fin 8)) (v : BitVec 8),
      (ks.foldl (fun v k => setBit v k.val false) v).getLsbD j = (v.getLsbD j && decide ((⟨j, hj⟩ : Fin 8) ∉ ks)) := by
    intro ks
    induction ks with
    | nil => intro v; simp
    | cons k ks ih =>
      intro v
      rw [List.foldl_cons, ih, getLsbD_setBit v k.val j false k.isLt]
      by_cases h : j = k.val
      · simp [h]
      · have hout : (⟨j, hj⟩ : Fin 8) ≠ k := fun hin => h (congrArg Fin.val hin)
        simp [h, hout]
  rw [hfold, allLines]
  simp

/-- R98: every line still asserted is released. -/
theorem releaseAll_eq (cap : Nat) (s : State) : releaseAll cap s = { s with
    ring := ((List.finRange 8).filter fun k => s.engine.retain.getLsbD k.val).foldl (postRelease cap s.time) s.ring
    engine := { s.engine with retain := 0 } } := by
  rw [← clearLines s.engine.retain]
  exact forEach_releaseLine cap allLines s (List.nodup_finRange 8)

/-! ## Timers (R8, R11) -/

/-- A term of a capture that closes. -/
def rearmedTerm (cap : Nat) (st : Settings) (time : PartTime) (n : Fin 8) (y : Term) : Term :=
  if y.assoc = some cap ∧ y.state = .fired ∧ (st.terms[n]).rearm ≠ 0 then
    { y with rearmAt := some (after time (1000000 * (st.terms[n]).rearm)) } else y

/-- A term's re-arm timer starts where its trigger joined the capture. -/
def rearmStep (cap : Nat) (n : Fin 8) (s : State) : State :=
  if (s.trig.terms[n]).assoc = some cap then startRearm n s else s

theorem rearmStep_eq (cap : Nat) (n : Fin 8) (s : State) :
    rearmStep cap n s = onTerm n (rearmedTerm cap s.settings s.time n) s := by
  rw [rearmStep]
  by_cases hassoc : (s.trig.terms[n]).assoc = some cap
  · rw [if_pos hassoc, startRearm, onTerm, onTerm, State.onTrig, State.onTrig]
    have hterm : vmod s.trig.terms n (fun t =>
        if (decide (t.state = .fired) && decide ((s.settings.terms[n]).rearm ≠ 0)) = true then
          { t with rearmAt := secondsFrom s.time (s.settings.terms[n]).rearm } else t) =
        vmod s.trig.terms n (rearmedTerm cap s.settings s.time n) := by
      refine vmod_congr _ n _ _ ?_
      rw [rearmedTerm]
      by_cases hfired : (s.trig.terms[n]).state = .fired ∧ (s.settings.terms[n]).rearm ≠ 0
      · obtain ⟨hstate, hrearm⟩ := hfired
        rw [if_pos (by simp only [hstate, decide_true, Bool.true_and, decide_eq_true_eq]; exact hrearm),
          if_pos ⟨hassoc, hstate, hrearm⟩, secondsFrom, if_neg hrearm]
        rfl
      · rw [if_neg (by rw [Bool.and_eq_true, decide_eq_true_eq, decide_eq_true_eq]; exact hfired), if_neg fun h => hfired h.2]
    rw [hterm]
  · rw [if_neg hassoc]
    exact (onTerm_eq_self (if_neg fun h => hassoc h.1)).symm

/-- R8: the close starts the re-arm timers. -/
theorem rearmForClose_eq (cap : Nat) (s : State) : rearmForClose cap s = { s with trig := { s.trig with
    terms := Vector.ofFn fun n => rearmedTerm cap s.settings s.time n s.trig.terms[n] } } := by
  have hstep : ∀ (n : Fin 8) (t : State), t.settings = s.settings ∧ t.time = s.time →
      rearmStep cap n t = onTerm n (rearmedTerm cap s.settings s.time n) t := by
    rintro n t ⟨hsettings, htime⟩
    rw [rearmStep_eq, hsettings, htime]
  have hkeeps : ∀ (n : Fin 8) (t : State), t.settings = s.settings ∧ t.time = s.time →
      (onTerm n (rearmedTerm cap s.settings s.time n) t).settings = s.settings ∧
        (onTerm n (rearmedTerm cap s.settings s.time n) t).time = s.time := by
    rintro n t ⟨hsettings, htime⟩
    rw [onTerm, onTrig_settings, onTrig_time]
    exact ⟨hsettings, htime⟩
  have hsteps : rearmForClose cap s = forEach allLines (fun n t => onTerm n (rearmedTerm cap s.settings s.time n) t) s :=
    forEach_congr_of (f := rearmStep cap) (fun t => t.settings = s.settings ∧ t.time = s.time) hstep hkeeps _ ⟨rfl, rfl⟩
  obtain ⟨v, hv, hget⟩ := forEach_onTerm (rearmedTerm cap s.settings s.time) allLines s (List.nodup_finRange 8)
  have hterms : v = Vector.ofFn fun n => rearmedTerm cap s.settings s.time n s.trig.terms[n] := vector_ext_fin fun n => by
    rw [hget n, allLines, if_pos (List.mem_finRange n), get_ofFn]
  rw [hsteps, hv, hterms]

/-- R11: the close starts the host hold-off. -/
theorem holdoffForClose_eq (trig : TrigSet) (s : State) : holdoffForClose trig s = { s with trig := { s.trig with
    hostTimer := if trig.getLsbD 9 = true ∧ s.settings.hostHoldoff ≠ 0
      then some (after s.time (1000000 * s.settings.hostHoldoff)) else s.trig.hostTimer } } := by
  unfold holdoffForClose
  by_cases h : trig.getLsbD 9 = true ∧ s.settings.hostHoldoff ≠ 0
  · obtain ⟨htrig, hholdoff⟩ := h
    rw [if_pos (by rw [Bool.and_eq_true, decide_eq_true_eq]; exact ⟨htrig, hholdoff⟩), if_pos ⟨htrig, hholdoff⟩, secondsFrom,
      if_neg hholdoff]
    rfl
  · rw [if_neg (by rw [Bool.and_eq_true, decide_eq_true_eq]; exact h), if_neg h]

/-! ## The close (R102, R103) -/

/-- The ring with the pin and the lines released, and CAPTURE_CLOSED posted. -/
def closedRing (c : Capture) (o : OutcomeCode) (pages : Nat) (s : State) : Ring :=
  (((List.finRange 8).filter fun k => s.engine.retain.getLsbD k.val).foldl (postRelease c.number s.time)
    { s.ring with pin := none }).post s.time .engine 0x07
      [BitVec.ofNat 32 c.number, BitVec.ofNat 32 o.code.toNat, BitVec.ofNat 32 pages]

/-- The engine that is IDLE again. -/
def closedEngine (g : Engine) : Engine :=
  { g with
    state := .idle, phase := .rest, capture := none, cause := .none, stall := false, retain := 0
    retainTimer := .stopped, retainCount := Vector.replicate 8 0 }

/-- Triggers and timers as the close leaves them. -/
def closedTrig (c : Capture) (s : State) : TrigUnit :=
  { s.trig with
    terms := Vector.ofFn fun n => rearmedTerm c.number s.settings s.time n s.trig.terms[n]
    hostTimer := if c.trig.getLsbD 9 = true ∧ s.settings.hostHoldoff ≠ 0
      then some (after s.time (1000000 * s.settings.hostHoldoff)) else s.trig.hostTimer }

/-- The close noticed at every port. -/
def closeNoticed (s : State) : State := raise .captureClosed s

/-- The state after steps 4 to 6 of R102, but for the requests that wait for the close. -/
def closedState (c : Capture) (o : OutcomeCode) (pages : Nat) (s : State) : State :=
  { closeNoticed s with
    ring := closedRing c o pages s
    engine := closedEngine s.engine
    streams := vmap (fun x => { x with claim := none }) s.streams
    fetches := vmap (fun f => { f with silent := none }) s.fetches
    trig := closedTrig c s }

theorem finishClose_eq {c : Capture} {e : DirEntry} {o : OutcomeCode} {s : State} (hc : s.engine.capture = some c)
    (he : findEntry s.dir c.number = some e) (ho : e.outcome = some o) :
    finishClose s = answerClose c.number o (closedState c o (min (capturePages s e) c.snapshot.pageCap) s) := by
  unfold finishClose
  rw [hc]
  dsimp only
  rw [he]
  dsimp only
  rw [ho, Option.getD_some]
  refine congrArg (answerClose c.number o) ?_
  simp only [closedState, closedRing, closedEngine, closedTrig, closeNoticed, releaseAll_eq, rearmForClose_eq, holdoffForClose_eq,
    Capture.capped, releasePin, unclaimAll, clearSilent, raise, post, discardCapture, State.onRing, State.onEngine, State.onLink,
    evCaptureClosed, List.map_cons, List.map_nil]

end Sys2Proof.Machine
end

