-- ==== Sys2Proof/Proofs/CloseRecords.lean ====
section
/-! PROOFS. Sys2Proof/Proofs/CloseRecords.lean: the acceptance of a CAPTURE_CLOSE record (R102, R103, R138). -/

namespace Sys2Proof.Machine

/-- The directory entry of a capture that has closed. -/
def closedEntry (o : OutcomeCode) (t : PartTime) (g : TrigSet) (h : Option Nat) (e : DirEntry) : DirEntry :=
  { e with state := .closed, outcome := some o, closeTime := some t, trig := g, head := h }

theorem recordEffect_close (cap : Nat) (o : OutcomeCode) (t : PartTime) (g : TrigSet) (h : Option Nat) (d : Directory) :
    recordEffect (.captureClose cap o t g h) d = modEntry cap (closedEntry o t g h) d := rfl

theorem cap_closedEntry (o : OutcomeCode) (t : PartTime) (g : TrigSet) (h : Option Nat) (e : DirEntry) :
    (closedEntry o t g h e).cap = e.cap := by
  rw [closedEntry]

/-- A CAPTURE_CLOSE record that takes its effect closes the capture's entry, and the close goes on to its end. -/
theorem recordAccepted_close {x : Slotted} {cap : Nat} {o : OutcomeCode} {t : PartTime} {g : TrigSet}
    {h : Option Nat} (hwho : x.who = .engine) (hrecord : x.record = .captureClose cap o t g h) (s : State) :
    recordAccepted x s = finishClose (s.onDir (recordEffect x.record)) := by
  unfold recordAccepted
  rw [hwho, hrecord]

theorem findEntry_recordEffect_close {r : JRec} {cap : Nat} {e : DirEntry} {o : OutcomeCode} {t : PartTime} {g : TrigSet}
    {h : Option Nat} {d : Directory} (hrecord : r = .captureClose cap o t g h) (he : findEntry d cap = some e) :
    findEntry (recordEffect r d) cap = some (closedEntry o t g h e) := by
  rw [hrecord, recordEffect_close]
  exact findEntry_modEntry_same (cap_closedEntry o t g h) he

/-- A loop over the ports that answers requests changes the link alone. -/
theorem answerClose_link (cap : Nat) (o : OutcomeCode) (s : State) :
    answerClose cap o s = { s with link := (answerClose cap o s).link } :=
  forEach_link (fun p t => tellClose_link cap o p t) allPorts s

theorem port_closedState (c : Capture) (o : OutcomeCode) (pages : Nat) (s : State) (p : PortId) :
    (closedState c o pages s).port p = { s.port p with notices := setBit (s.port p).notices 1 true } := by
  refine Eq.trans (port_of_link ?_ p) (port_raise .captureClosed p s)
  rw [closedState, closeNoticed]

/-- What steps 4 to 6 of R102 leave, the requests that wait for the close answered. -/
theorem answerClose_closedState (c : Capture) (o : OutcomeCode) (pages : Nat) (s : State) :
    let u := answerClose c.number o (closedState c o pages s)
    u.dir = s.dir ∧ u.ring = closedRing c o pages s ∧ u.engine = closedEngine s.engine ∧
    (∀ ch : Fin 4, u.streams[ch] = { s.streams[ch] with claim := none }) ∧
    (∀ ch : Fin 4, u.fetches[ch] = { s.fetches[ch] with silent := none }) ∧
    (∀ p : PortId, (u.port p).notices = setBit (s.port p).notices 1 true) ∧
    u.trig = closedTrig c s ∧
    (∀ (p : PortId) (r : InService), (s.port p).service = some r → r.wait = .close c.number → (u.port p).service = none ∧
      (u.port p).tx = (s.port p).tx ++ [mkReply r.kind r.tag .ok false (leBytes 4 c.number ++ [o.code])]) := by
  intro u
  have hu : u = { closedState c o pages s with link := u.link } := answerClose_link c.number o _
  have hport := fun p => port_closedState c o pages s p
  have hdir : (closedState c o pages s).dir = s.dir := by rw [closedState, closeNoticed, raise, State.onLink]
  refine ⟨(congrArg State.dir hu :).trans hdir, (congrArg State.ring hu :), (congrArg State.engine hu :), fun ch => ?_, fun ch => ?_,
    fun p => ?_, (congrArg State.trig hu :), fun p r hservice hwait => ?_⟩
  · rw [(congrArg State.streams hu :)]
    exact vmap_get _ _ ch
  · rw [(congrArg State.fetches hu :)]
    exact vmap_get _ _ ch
  · rw [notices_answerClose, hport]
  · rw [port_answerClose_waiting o (r := r) (by rw [hport]; exact hservice) hwait, hport]
    exact ⟨rfl, rfl⟩

/-- R102, R103: what the acceptance of the CAPTURE_CLOSE record leaves. -/
theorem closeAccepted_leaves (x : Slotted) (c : Capture) (e : DirEntry) (o : OutcomeCode) (t : PartTime) (g : TrigSet)
    (h : Option Nat) (s : State) (hwho : x.who = .engine) (hrecord : x.record = .captureClose c.number o t g h)
    (hc : s.engine.capture = some c) (he : findEntry s.dir c.number = some e) :
    let u := recordAccepted x s
    let d := recordEffect x.record s.dir
    let closed : DirEntry := { e with state := .closed, outcome := some o, closeTime := some t, trig := g, head := h }
    let pages := min (capturePages { s with dir := d } closed) c.snapshot.pageCap
    u.dir = d ∧ findEntry d c.number = some closed ∧
    (∀ k : Nat, h = some k → capturePages { s with dir := d } closed =
      k + 1 + ((sectionsOf d closed).map fun y => y.pages).sum) ∧
    u.ring = (((List.finRange 8).filter fun k => s.engine.retain.getLsbD k.val).foldl
      (fun (r : Ring) (k : Fin 8) => r.post s.time .engine 0x09 [BitVec.ofNat 32 c.number, BitVec.ofNat 32 k.val])
      { s.ring with pin := none }).post s.time .engine 0x07
        [BitVec.ofNat 32 c.number, BitVec.ofNat 32 o.code.toNat, BitVec.ofNat 32 pages] ∧
    u.engine = { s.engine with
      state := .idle, phase := .rest, capture := none, cause := .none, stall := false, retain := 0
      retainTimer := .stopped, retainCount := Vector.replicate 8 0 } ∧
    (∀ ch : Fin 4, u.streams[ch] = { s.streams[ch] with claim := none }) ∧
    (∀ ch : Fin 4, u.fetches[ch] = { s.fetches[ch] with silent := none }) ∧
    (∀ p : PortId, (u.port p).notices = setBit (s.port p).notices 1 true) ∧
    u.trig.hostTimer = (if c.trig.getLsbD 9 = true ∧ s.settings.hostHoldoff ≠ 0
      then some (after s.time (1000000 * s.settings.hostHoldoff)) else s.trig.hostTimer) ∧
    (∀ n : Fin 8, u.trig.terms[n] =
      let y := s.trig.terms[n]
      if y.assoc = some c.number ∧ y.state = .fired ∧ (s.settings.terms[n]).rearm ≠ 0 then
        { y with rearmAt := some (after s.time (1000000 * (s.settings.terms[n]).rearm)) } else y) ∧
    (∀ (p : PortId) (r : InService), (s.port p).service = some r → r.wait = .close c.number → (u.port p).service = none ∧
      (u.port p).tx = (s.port p).tx ++ [mkReply r.kind r.tag .ok false (leBytes 4 c.number ++ [o.code])]) := by
  intro u d closed pages
  have hfound : findEntry d c.number = some closed := findEntry_recordEffect_close hrecord he
  have hu : u = answerClose c.number o (closedState c o pages (s.onDir (recordEffect x.record))) :=
    (recordAccepted_close hwho hrecord s).trans (finishClose_eq (s := s.onDir _) hc hfound rfl)
  obtain ⟨hdir, hring, hengine, hstreams, hfetches, hnotices, htrig, hports⟩ :=
    answerClose_closedState c o pages (s.onDir (recordEffect x.record))
  rw [← hu] at hdir hring hengine hstreams hfetches hnotices htrig hports
  refine ⟨hdir, hfound, fun k hk => ?_, hring, hengine, hstreams, hfetches, hnotices, congrArg TrigUnit.hostTimer htrig,
    fun n => ?_, hports⟩
  · subst hk
    rfl
  · rw [htrig]
    exact get_ofFn _ n

end Sys2Proof.Machine
end

