-- ==== Sys2Proof/Proofs/HeadPages.lean ====
section
/-! PROOFS. Sys2Proof/Proofs/HeadPages.lean: the record and the head page of an opening (R81, R92 to R94). -/

namespace Sys2Proof.Machine

/-! ## A page for a buffer -/

theorem giveBuffer_none {s : State} (h : ∀ i : Fin 4, (s.engine.bufs[i]).state ≠ .empty) (c : Capture) (start : Nat)
    (bytes : List Byte) (isHead : Bool) : giveBuffer c start bytes isHead s = .wait := by
  unfold giveBuffer
  rw [bufInState_none s .empty h]

/-- What the next page still needs comes before the buffer. -/
theorem giveBuffer_needs {s : State} {i : Fin 4} (h : (s.engine.bufs[i]).state = .empty)
    (hfirst : ∀ j : Fin 4, j < i → (s.engine.bufs[j]).state ≠ .empty) {c : Capture} {a : Act} (hneeds : pageNeeds c s = some a)
    (start : Nat) (bytes : List Byte) (isHead : Bool) : giveBuffer c start bytes isHead s = a := by
  unfold giveBuffer
  rw [bufInState_some s i .empty h hfirst]
  dsimp only
  rw [hneeds]

/-- The next page of the capture in a buffer that is being filled. -/
def givenBuf (c : Capture) (start : Nat) (bytes : List Byte) (isHead : Bool) : Buf :=
  { state := .filling, cap := c.number, page := c.nextPage, start := start, bytes := bytes, part := false
    accepted := false, isHead := isHead, retried := false, flush := false }

/-- The next page given. -/
def Capture.pageGiven (c : Capture) : Capture := { c with nextPage := c.nextPage + 1 }

theorem giveBuffer_gives {s : State} {i : Fin 4} (h : (s.engine.bufs[i]).state = .empty)
    (hfirst : ∀ j : Fin 4, j < i → (s.engine.bufs[j]).state ≠ .empty) {c : Capture} (hc : s.engine.capture = some c)
    (hneeds : pageNeeds c s = none) (start : Nat) (bytes : List Byte) (isHead : Bool) :
    giveBuffer c start bytes isHead s = .did { s with engine := { s.engine with
      capture := some c.pageGiven, bufs := vset s.engine.bufs i (givenBuf c start bytes isHead) } } := by
  unfold giveBuffer
  rw [bufInState_some s i .empty h hfirst]
  dsimp only
  rw [hneeds]
  dsimp only
  rw [onCapture_of_some _ hc]
  rfl

theorem pageNeeds_budget {c : Capture} (s : State) (h : c.snapshot.pageCap ≤ c.nextPage) :
    pageNeeds c s = some (.did (closeEarly .budget .skippedBudget s)) := if_pos h

theorem pageNeeds_block {c : Capture} (s : State) (hcap : c.nextPage < c.snapshot.pageCap)
    (hblocks : c.blocks.length ≤ c.nextPage / 128) :
    pageNeeds c s = some (allotBlock (closeEarly .space .skippedSpace) s) := by
  rw [pageNeeds, if_neg (Nat.not_le.mpr hcap)]
  exact if_pos hblocks

/-! ## What the search for a block leaves -/

/-- A step of the search for a block closes for power, does without, or leaves the buffers. -/
theorem allotBlock_did {dry : State → State} {s t : State} (h : allotBlock dry s = .did t) :
    t = powerClose s ∨ t = dry s ∨ t.engine.bufs = s.engine.bufs := by
  have hsought : ∀ v : State, seekReclaim true s = .did v → v.engine.bufs = s.engine.bufs := by
    intro v hv
    unfold seekReclaim at hv
    split at hv
    · cases hv
    · split at hv
      · cases hv
      · split at hv
        · cases hv
        · split at hv
          · split at hv
            · cases hv
              rfl
            · cases hv
          · split at hv <;> cases hv
  unfold allotBlock at h
  split at h
  · cases h
  · split at h
    · exact Or.inl (Act.did.inj h).symm
    · split at h
      · split at h
        · cases h
          refine Or.inr (Or.inr ?_)
          rw [engine_hand]
          unfold setBlock
          split <;> rfl
        · cases h
      · cases hv : seekReclaim true s with
        | did v =>
          rw [hv] at h
          obtain rfl := Act.did.inj h
          exact Or.inr (Or.inr (hsought _ hv))
        | wait => rw [hv] at h; cases h
        | nothing =>
          rw [hv] at h
          exact Or.inr (Or.inl (Act.did.inj h).symm)

/-! ## An early close -/

/-- The close decided: the first cause stands, and the engine is CLOSING (R102). -/
def closeDecided (k : CloseCause) (s : State) : State :=
  s.onEngine fun g => { g with state := .closing, cause := if g.cause = .none then k else g.cause }

/-- An opening whose early close is decided drains. -/
theorem closeEarly_opening {s : State} (k : CloseCause) (o : OutcomeCode)
    (h : s.engine.phase = .openSlot ∨ s.engine.phase = .openRecord ∨ s.engine.phase = .openHead ∨ s.engine.phase = .headWait) :
    closeEarly k o s = (closeDecided k s).onEngine fun g => { g with phase := .drain } := by
  have hphase : (setEngState .closing (setCause k s)).engine.phase = s.engine.phase := rfl
  unfold closeEarly
  dsimp only
  rw [hphase]
  rcases h with h | h | h | h <;> rw [h] <;> rfl

/-! ## The opening's record and head page (R81) -/

theorem openRecordStep_eq (c : Capture) (s : State) :
    openRecordStep c s = if journalRoom s then .did ((hand (.captureOpen c.number c.trigOpen c.first c.epoch.isSome c.openTime
      (c.epoch.getD 0)) .engine s).onEngine fun g => { g with phase := .openHead }) else .wait := rfl

/-- The step of the head page once a buffer has come of the search for one. -/
def headStep : Act → Act
  | .wait => .wait
  | .did t => if t.engine.phase = .openHead then
      (fillingBuf t).elim (.did t) fun i => .did (setPhase .headWait (queueBuf i t)) else .did t

theorem openHeadStep_eq (c : Capture) (s : State) : openHeadStep c s =
    headStep (giveBuffer c 0 (identityBlock c.number c.trigOpen c.first c.openTime c.epoch) true s) := by
  unfold openHeadStep headStep
  cases giveBuffer c 0 (identityBlock c.number c.trigOpen c.first c.openTime c.epoch) true s with
  | wait => rfl
  | did t =>
    dsimp only
    by_cases hphase : t.engine.phase = .openHead
    · rw [if_pos hphase, hphase]
      cases fillingBuf t <;> rfl
    · rw [if_neg hphase]
      split
      next hp _ => exact absurd hp hphase
      next => rfl

/-- A step that fills no buffer is taken as it is. -/
theorem headStep_unfilled {t : State} (h : t.engine.phase ≠ .openHead ∨ fillingBuf t = none) : headStep (.did t) = .did t := by
  rw [headStep]
  split
  next hphase => rw [h.resolve_left (not_not_intro hphase)]; rfl
  next => rfl

theorem fillingBuf_none {s : State} (h : ∀ i : Fin 4, (s.engine.bufs[i]).state ≠ .filling) : fillingBuf s = none :=
  bufInState_none s .filling h

/-- While no buffer is filled, the search for a block goes on as it does. -/
theorem headStep_allotBlock {c : Capture} {s : State} (hc : s.engine.capture = some c) (hphase : s.engine.phase = .openHead)
    (hfilling : ∀ i : Fin 4, (s.engine.bufs[i]).state ≠ .filling) :
    headStep (allotBlock (closeEarly .space .skippedSpace) s) = allotBlock (closeEarly .space .skippedSpace) s := by
  cases h : allotBlock (closeEarly .space .skippedSpace) s with
  | wait => rfl
  | did t =>
    refine headStep_unfilled ?_
    rcases allotBlock_did h with rfl | rfl | hbufs
    · left
      rw [powerClose_phase s c hc (by rw [hphase]; rfl)]
      decide
    · left
      rw [closeEarly_opening .space .skippedSpace (Or.inr (Or.inr (Or.inl hphase)))]
      exact Phase.noConfusion
    · right
      exact (bufWhere_congr _ s t hbufs).trans (fillingBuf_none hfilling)

/-- The bytes of a head page. -/
def headBytes (c : Capture) : List Byte := identityBlock c.number c.trigOpen c.first c.openTime c.epoch

theorem length_headBytes (c : Capture) : (headBytes c).length = 32 := by
  simp only [headBytes, identityBlock, leBits, List.length_append, leBytes_length, List.length_cons, List.length_nil,
    List.length_replicate]

/-- A head page that has its buffer is queued. -/
theorem headStep_given {s : State} {i : Fin 4} {b : Buf} {d : Capture} (hphase : s.engine.phase = .openHead)
    (hb : b.state = .filling) (hfilling : ∀ j : Fin 4, (s.engine.bufs[j]).state ≠ .filling) :
    headStep (.did { s with engine := { s.engine with capture := some d, bufs := vset s.engine.bufs i b } }) = .did { s with
      store := { s.store with queue := s.store.queue ++ [.buf i] }
      engine := { s.engine with
        phase := .headWait, capture := some d
        bufs := vset s.engine.bufs i { b with state := .queued, part := decide (b.bytes.length < 512) } } } := by
  have hget : ∀ j : Fin 4, (vset s.engine.bufs i b)[j] = if j = i then b else s.engine.bufs[j] := fun j => by
    by_cases hj : j = i
    · rw [if_pos hj, hj]
      exact vmod_get_same s.engine.bufs i fun _ => b
    · rw [if_neg hj]
      exact vmod_get_other s.engine.bufs i j (fun _ => b) hj
  have hfound : fillingBuf { s with engine := { s.engine with capture := some d, bufs := vset s.engine.bufs i b } } = some i := by
    refine bufInState_some _ i .filling ?_ fun j hj => ?_
    · show ((vset s.engine.bufs i b)[i]).state = .filling
      rw [hget, if_pos rfl, hb]
    · show ((vset s.engine.bufs i b)[j]).state ≠ .filling
      rw [hget, if_neg hj.ne]
      exact hfilling j
  have hqueued : vmod (vset s.engine.bufs i b) i (fun b => { b with state := .queued, part := decide (b.bytes.length < pageBytes) }) =
      vset s.engine.bufs i { b with state := .queued, part := decide (b.bytes.length < 512) } :=
    vmod_vmod s.engine.bufs i (fun _ => b) _
  rw [headStep, if_pos hphase, hfound, Option.elim_some, queueBuf, enqueue, State.onStore, State.onBuf, State.onEngine, setPhase,
    State.onEngine]
  dsimp only
  rw [hqueued]

/-- R81, R92: the head page is filled and queued. -/
theorem openHeadStep_given {c : Capture} {s : State} {i : Fin 4} (hc : s.engine.capture = some c)
    (hphase : s.engine.phase = .openHead) (hfilling : ∀ j : Fin 4, (s.engine.bufs[j]).state ≠ .filling)
    (hi : (s.engine.bufs[i]).state = .empty) (hfirst : ∀ j : Fin 4, j < i → (s.engine.bufs[j]).state ≠ .empty)
    (hcap : c.nextPage < c.snapshot.pageCap) (hblocks : c.nextPage / 128 < c.blocks.length) :
    openHeadStep c s = .did { s with
      store := { s.store with queue := s.store.queue ++ [.buf i] }
      engine := { s.engine with
        phase := .headWait, capture := some c.pageGiven
        bufs := vset s.engine.bufs i { givenBuf c 0 (headBytes c) true with state := .queued, part := true } } } := by
  have hshort : decide ((givenBuf c 0 (headBytes c) true).bytes.length < 512) = true :=
    decide_eq_true (lt_of_eq_of_lt (length_headBytes c) (by decide))
  rw [openHeadStep_eq, giveBuffer_gives hi hfirst hc (pageNeeds_none c s hcap hblocks)]
  refine (headStep_given hphase rfl hfilling).trans ?_
  rw [← headBytes, hshort]

end Sys2Proof.Machine
end

