-- ==== Sys2Proof/Proofs/EngineGates.lean ====
section
/-! PROOFS. Sys2Proof/Proofs/EngineGates.lean: the order of the engine's tests before a phase's own step (R89, R93, R96, R112, R113,
R115, logs 11, 16, 43 and 50). -/

namespace Sys2Proof.Machine

/-! ## The tests -/

/-- What holds up the close of capture `c`: a compaction that waits for NORMAL, before the close's record has its slot. -/
theorem closeHeld_iff (c : Capture) (s : State) : (compactionWaits s && !closeSlotted c s) = true ↔
    (s.monitor.state ≠ .normal ∧ (s.dir.comp.held = true ∨
      (s.dir.comp.state = .clearing ∧ ∀ b : Nat, s.store.flight ≠ some (.erase .journal b)))) ∧
    ¬ ∃ (x : Slotted) (o : OutcomeCode) (t : PartTime) (g : TrigSet) (h : Option Nat),
       x ∈ s.dir.slotted ∧ x.record = .captureClose c.number o t g h := by
  rw [Bool.and_eq_true, compactionWaits_iff, Bool.not_eq_true', ← closeSlotted_iff, Bool.not_eq_true]

/-- R113, R116: a close under holdup is tested once, and while a compaction is in its way. -/
theorem gateNeeded_iff (c : Capture) (s : State) : gateNeeded c s = true ↔
    s.monitor.state ≠ .normal ∧ (s.engine.state = .closing ∨ ¬ ordinaryOk s = true) ∧
      (c.closeOn = false ∨ (compactionWaits s && !closeSlotted c s) = true) := by
  rw [gateNeeded, mustClose, Bool.and_eq_true, Bool.and_eq_true, Bool.or_eq_true, Bool.or_eq_true, Bool.not_eq_true',
    Bool.not_eq_true', Bool.not_eq_true', decide_eq_true_eq, and_assoc, Bool.not_eq_true, ← Bool.not_eq_true (isNormal s), isNormal_iff]

/-- R93: the target of a buffer lies in a block still to be allotted. -/
theorem movedNeedsBlock_iff (c : Capture) (s : State) : movedNeedsBlock c s = true ↔
    ∃ i : Fin 4, ((s.engine.bufs[i]).state = .filling ∨ (s.engine.bufs[i]).state = .queued) ∧
      c.blocks.length ≤ (s.engine.bufs[i]).page / 128 := by
  rw [movedNeedsBlock, unstarted_iff s c.unallotted]
  simp only [Capture.unallotted, decide_eq_true_eq]
  exact Iff.rfl

theorem unallotted_eq (c : Capture) : c.unallotted = fun b => decide (c.blocks.length ≤ b.page / 128) := rfl

theorem closePaid_iff (c : Capture) (s : State) :
    (decide (s.monitor.remaining < closeReserve) || compactionWaits s && !closeSlotted c s) = true ↔
      s.monitor.remaining < 6 ∨ (compactionWaits s && !closeSlotted c s) = true := by
  rw [Bool.or_eq_true, decide_eq_true_eq]
  rfl

/-- R113: the test of a close. -/
theorem closeGate_unpaid {c : Capture} {s : State}
    (h : s.monitor.remaining < 6 ∨ (compactionWaits s && !closeSlotted c s) = true) :
    closeGate c s = applyExhaustion (s.onEngine fun g => { g with stall := true }) := by
  rw [closeGate, if_pos ((closePaid_iff c s).mpr h), setStall]

theorem closeGate_paid {c : Capture} {s : State}
    (h : ¬ (s.monitor.remaining < 6 ∨ (compactionWaits s && !closeSlotted c s) = true)) :
    closeGate c s = s.onCapture fun d => { d with closeOn := true } := by
  rw [closeGate, if_neg (mt (closePaid_iff c s).mp h)]

/-! ## The order of the tests -/

theorem engineStep_opens {c : Capture} {s : State} (hcurrent : current s = some c) (hends : endsAtOnce c s = none)
    (hphase : s.engine.phase = .openSlot) : engineStep s = openSlotStep c s := by
  rw [engineStep, hcurrent]
  dsimp only
  rw [hends]
  exact if_pos hphase

section Goes
variable {c : Capture} {s : State} (hcurrent : current s = some c) (hends : endsAtOnce c s = none)
  (hphase : s.engine.phase ≠ .openSlot)
include hcurrent hends hphase

theorem engineStep_stalled (hstall : s.engine.stall = true) : engineStep s = .wait := by
  rw [engineStep, hcurrent]
  dsimp only
  rw [hends]
  dsimp only
  rw [if_neg hphase, if_pos hstall]

theorem engineStep_owes (hstall : s.engine.stall = false) {r : JRec} {rest : List JRec} (howed : c.owed = r :: rest) :
    engineStep s =
      if journalRoom s then .did (hand r .engine (s.onCapture fun d => { d with owed := rest })) else .wait := by
  rw [engineStep, hcurrent]
  dsimp only
  rw [hends]
  dsimp only
  rw [if_neg hphase, hstall, if_neg Bool.false_ne_true, howed]

/-- Without owed records come the gate, the buffers refused, the moved targets, and at last the phase's own step. -/
theorem engineStep_goesOn (hstall : s.engine.stall = false) (howed : c.owed = []) : engineStep s =
    if gateNeeded c s then .did (closeGate c s)
    else if buffersRefused s then .did (powerClose s)
    else if movedNeedsBlock c s then allotBlock (cutSection .space .skippedSpace c.unallotted) s
    else phaseStep c s := by
  rw [engineStep, hcurrent]
  dsimp only
  rw [hends]
  dsimp only
  rw [if_neg hphase, hstall, if_neg Bool.false_ne_true, howed]

end Goes

/-! ## Gatherings that end at once -/

theorem capture_of_current {c : Capture} {s : State} (h : current s = some c) : s.engine.capture = some c := by
  rw [current] at h
  split at h
  · exact h
  · cases h

/-- The current section gathers. -/
theorem gathering_of {c : Capture} {x : Section} {item : WalkItem} {s : State} (hcurrent : current s = some c)
    (hphase : s.engine.phase = .gather) (hx : c.current = some x) (hitem : c.walk[c.cursor.getD 0]? = some item) :
    gathering s = some (c, x, c.snapshot.entries[item.entry]) := by
  have hentry : c.entryHere = some c.snapshot.entries[item.entry] := congrArg (Option.map c.entryOf) hitem
  rw [gathering, hcurrent]
  dsimp only
  rw [hx, hentry]
  exact if_pos hphase

theorem endsAtOnce_other {c : Capture} {s : State} (hcurrent : current s = some c)
    (h : s.engine.phase ≠ .gather ∨ c.current = none) : endsAtOnce c s = none := by
  have hextended : extendedEnds c s = false := by
    unfold extendedEnds
    rcases h with h | h
    · rw [decide_eq_false h, Bool.false_and, Bool.false_and, Bool.false_and]
    · rw [h, Option.isSome_none, Bool.and_false, Bool.false_and]
  have hgathering : gathering s = none := by
    rw [gathering, hcurrent]
    dsimp only
    split
    next x e hx _ =>
      refine if_neg fun hphase => ?_
      rcases h with h | h
      · exact h hphase
      · rw [h] at hx; cases hx
    next => rfl
  rw [endsAtOnce, hextended, if_neg Bool.false_ne_true, hgathering]

theorem extendedEnds_iff {c : Capture} {x : Section} {item : WalkItem} {s : State} (hphase : s.engine.phase = .gather)
    (hx : c.current = some x) (hitem : c.walk[c.cursor.getD 0]? = some item) :
    extendedEnds c s = true ↔ (c.snapshot.entries[item.entry]).cls = .extended ∧ s.monitor.state ≠ .normal := by
  have hentry : c.entryHere = some c.snapshot.entries[item.entry] := congrArg (Option.map c.entryOf) hitem
  rw [extendedEnds, hphase, hx, hentry]
  simp only [decide_true, Option.isSome_some, Bool.and_true, Bool.true_and, Bool.and_eq_true, Bool.not_eq_true', decide_eq_true_eq]
  rw [← Bool.not_eq_true, isNormal_iff, and_comm]

theorem fifoEmpty_iff (e : PlanEntry) (s : State) :
    fifoEmpty e s = true ↔ ∀ ch : Fin 4, e.chan = some ch → (s.streams[ch]).fifo = [] := by
  unfold fifoEmpty
  cases e.chan with
  | none => simp
  | some ch => simp

/-- R89, R115: outside NORMAL, past its window, or without one set, a section waits no quiet time. -/
theorem effectiveQuiet_eq_zero_iff (c : Capture) (e : PlanEntry) (s : State) : effectiveQuiet c e s = 0 ↔
    s.monitor.state ≠ .normal ∨ reached s.time (after c.openTime (1000000 * e.window.getD 0)) = true ∨ e.quiet.getD 0 = 0 := by
  have htest : (!isNormal s || reached s.time (after c.openTime (usPerS * e.window.getD 0))) = true ↔
      s.monitor.state ≠ .normal ∨ reached s.time (after c.openTime (1000000 * e.window.getD 0)) = true := by
    rw [Bool.or_eq_true, Bool.not_eq_true', ← Bool.not_eq_true, isNormal_iff]
    rfl
  rw [effectiveQuiet, ← or_assoc, ← htest]
  split
  next h => exact ⟨fun _ => Or.inl h, fun _ => rfl⟩
  next h => exact (or_iff_right h).symm

theorem endsQuiet_iff (c : Capture) (x : Section) (e : PlanEntry) (s : State) : endsQuiet c x e s = true ↔
    e.kind = .stream ∧ x.ended = none ∧ (∀ ch : Fin 4, e.chan = some ch → (s.streams[ch]).fifo = []) ∧
      (s.monitor.state ≠ .normal ∨ reached s.time (after c.openTime (1000000 * e.window.getD 0)) = true ∨ e.quiet.getD 0 = 0) := by
  rw [endsQuiet, Bool.and_eq_true, Bool.and_eq_true, Bool.and_eq_true, decide_eq_true_eq, decide_eq_true_eq, Option.isNone_iff_eq_none,
    fifoEmpty_iff, effectiveQuiet_eq_zero_iff, and_assoc, and_assoc]

/-- R96, R115: an EXTENDED section outside NORMAL. -/
theorem endsAtOnce_extended {c : Capture} {s : State} (h : extendedEnds c s = true) :
    endsAtOnce c s = some (endGathering .skippedPower true s) := by
  rw [endsAtOnce, if_pos h]

theorem endsAtOnce_eq {c : Capture} {x : Section} {item : WalkItem} {s : State} (hcurrent : current s = some c)
    (hphase : s.engine.phase = .gather) (hx : c.current = some x) (hitem : c.walk[c.cursor.getD 0]? = some item)
    (h : ¬ extendedEnds c s = true) : endsAtOnce c s =
      if endsQuiet c x c.snapshot.entries[item.entry] s then some (s.onSection fun y => { y with ended := some .complete })
      else if s.engine.stall && x.toPlace.isEmpty then x.ended.map fun o => endGathering o false s
      else none := by
  rw [endsAtOnce, if_neg h, gathering_of hcurrent hphase hx hitem]

/-! ## The step of a current section -/

theorem room_eq_zero_iff (b : Buf) : b.room = 0 ↔ 512 ≤ b.bytes.length := Nat.sub_eq_zero_iff_le

section Steps
variable {c : Capture} {x : Section} {item : WalkItem} {s : State} (hx : c.current = some x)
  (hitem : c.walk[c.cursor.getD 0]? = some item)
include hx hitem

theorem sectionStep_gather (hphase : s.engine.phase = .gather) : sectionStep c s = if ordinaryOk s = false then .did (powerClose s)
    else if x.toPlace ≠ [] then placeStep c x s
    else match fillingBuf s with
      | some i => if 512 ≤ (s.engine.bufs[i]).bytes.length then .did (queueData i s)
          else gatherStep c x c.snapshot.entries[item.entry] s
      | none => gatherStep c x c.snapshot.entries[item.entry] s := by
  rw [sectionStep, hx, show c.itemHere = some item from hitem]
  dsimp only
  rw [hphase]
  dsimp only
  rw [gatheringStep]
  refine if_congr (Bool.not_eq_true' _ ▸ Iff.rfl) rfl (if_congr ?_ rfl ?_)
  · rw [Bool.not_eq_true', List.isEmpty_eq_false_iff]
  · cases fillingBuf s with
    | none => rfl
    | some i => exact if_congr (room_eq_zero_iff _) rfl rfl

theorem sectionStep_trailer (hphase : s.engine.phase = .trailer) : sectionStep c s = trailerStep c x s := by
  rw [sectionStep, hx, show c.itemHere = some item from hitem]
  dsimp only
  rw [hphase]

theorem sectionStep_placeTrailer (hphase : s.engine.phase = .placeTrailer) : sectionStep c s =
    if x.toPlace = [] then .did (s.onEngine fun g => { g with phase := .drain }) else placeStep c x s := by
  rw [sectionStep, hx, show c.itemHere = some item from hitem]
  dsimp only
  rw [hphase]
  exact if_congr List.isEmpty_iff rfl rfl

theorem sectionStep_secRecord (hphase : s.engine.phase = .secRecord) : sectionStep c s = if journalRoom s
    then .did (sectionRecordStep c x item c.snapshot.entries[item.entry] s) else .wait := by
  rw [sectionStep, hx, show c.itemHere = some item from hitem]
  dsimp only
  rw [hphase]
  rfl

end Steps

/-! ## The step of a phase -/

theorem closeRecordStep_eq (c : Capture) (s : State) :
    closeRecordStep c s = if journalRoom s then .did ((hand
      (.captureClose c.number (captureOutcome s.engine.cause c) s.time c.trig c.head) .engine s).onEngine fun g =>
        { g with phase := .closeWait }) else .wait := rfl

/-- The step at an entry reached reads the entry alone. -/
theorem phaseStep_eq (c : Capture) (s : State) : phaseStep c s = match s.engine.phase with
    | .rest | .openSlot | .headWait | .closeWait => .wait
    | .openRecord => openRecordStep c s
    | .openHead => openHeadStep c s
    | .secBegin => match c.entryHere with
      | some e => .did (reachEntry e s)
      | none => .wait
    | .secSkip => match c.itemHere with
      | some item => sectionSkip c item c.snapshot.entries[item.entry] s
      | none => .wait
    | .secEnter => match c.itemHere with
      | some item => sectionStart c item c.snapshot.entries[item.entry] s
      | none => .wait
    | .gather | .trailer | .placeTrailer | .secRecord => sectionStep c s
    | .drain => drainStep s
    | .secEnd => sectionEndStep c s
    | .skips => skipStep c s
    | .closeRecord => closeRecordStep c s := by
  unfold phaseStep
  rw [Capture.entryHere]
  cases s.engine.phase <;> cases c.itemHere <;> rfl

/-! ## An opening without its directory slot -/

theorem openSlotStep_free {c : Capture} {s : State} {slot : Nat} (h : lowestFreeSlot s.dir = some slot) :
    openSlotStep c s = .did (openCapture slot s) := by
  rw [openSlotStep, h]

theorem openSlotStep_full {c : Capture} {s : State} (h : lowestFreeSlot s.dir = none) : openSlotStep c s =
    (seekReclaim false s).act (.did (refuseOpening (if c.noReclaim then .power else .full) s)) := by
  rw [openSlotStep, h]
  cases seekReclaim false s <;> rfl

end Sys2Proof.Machine
end

