-- ==== Sys2Proof/Proofs/RefusedOpenings.lean ====
section
/-! PROOFS. Sys2Proof/Proofs/RefusedOpenings.lean: an opening whose directory slot cannot be had is refused (R145, log 22). -/

namespace Sys2Proof.Machine

theorem forEach_eq_self {α : Type} {g : α → State → State} {s : State} (h : ∀ x, g x s = s) (xs : List α) :
    forEach xs g s = s := by
  induction xs with
  | nil => rfl
  | cons x xs ih =>
    show forEach xs g (g x s) = s
    rw [h x, ih]

/-- What a port is told of a capture that never opened. -/
def tellUnopened (cap : Nat) (p : PortId) (s : State) : State :=
  match waitOf p s with
  | .close n => if n = cap then refuse p .refusedState s else s
  | .restartClose n => if n = cap then answerRestart p true 0 0xFF s else s
  | _ => s

theorem answerUnopened_eq (cap : Nat) (s : State) : answerUnopened cap s = forEach allPorts (tellUnopened cap) s := rfl

theorem port_tellUnopened_other (cap : Nat) (q p : PortId) (s : State) (h : p ≠ q) : (tellUnopened cap q s).port p = s.port p := by
  unfold tellUnopened
  split
  · split
    · exact port_answer_other h _ _ _ s
    · rfl
  · split
    · exact port_answerRestart_other h _ _ _ s
    · rfl
  · rfl

/-- A port that waits for nothing of the capture is told nothing. -/
theorem tellUnopened_of_others {cap : Nat} {p : PortId} {s : State} (hclose : waitOf p s ≠ .close cap)
    (hrestart : waitOf p s ≠ .restartClose cap) : tellUnopened cap p s = s := by
  unfold tellUnopened
  split
  next n hn => exact if_neg fun h : n = cap => hclose (h ▸ hn)
  next n hn => exact if_neg fun h : n = cap => hrestart (h ▸ hn)
  next => rfl

/-! ## The refusal at the sender -/

theorem service_answer (q p : PortId) (st : Status) (b : Bool) (fields : List Byte) (s : State) :
    ((answer q st b fields s).port p).service = (s.port p).service ∨ ((answer q st b fields s).port p).service = none := by
  by_cases h : p = q
  · subst h
    right
    rw [answer, port_onPort_same]
    split
    next hnone => exact hnone
    next => rfl
  · left
    rw [port_answer_other h]

/-- The sender's own request is the only one that a refused trigger may answer. -/
theorem service_refuseTrigger (src : Nat) (who : Sender) (r : Refuse) (s : State) (p : PortId) :
    ((refuseTrigger src who r s).port p).service = (s.port p).service ∨ ((refuseTrigger src who r s).port p).service = none := by
  obtain ⟨hmonitor, hport, hterm⟩ := refuseTrigger_tells src who r s
  cases who with
  | monitor => rw [hmonitor rfl]; exact Or.inl rfl
  | port q => rw [hport q rfl]; exact service_answer q p _ _ _ _
  | term n => rw [hterm n rfl]; exact Or.inl rfl

theorem port_refuseTrigger {src : Nat} {who : Sender} {p : PortId} (h : who ≠ .port p) (r : Refuse) (s : State) :
    (refuseTrigger src who r s).port p = s.port p := by
  obtain ⟨hmonitor, hport, hterm⟩ := refuseTrigger_tells src who r s
  cases who with
  | monitor => rw [hmonitor rfl]; rfl
  | port q => rw [hport q rfl]; exact port_answer_other (fun hq : p = q => h (congrArg Sender.port hq.symm)) _ _ _ _
  | term n => rw [hterm n rfl]; rfl

/-! ## The refusal of the opening -/

theorem refuseOpening_eq {c : Capture} {s : State} (hc : s.engine.capture = some c) (r : Refuse) :
    refuseOpening r s = answerUnopened c.number (refuseTrigger c.first c.sender r (discardCapture s)) := by
  rw [refuseOpening, hc]

/-- Where no request waits for the capture's close, its sender alone is told. -/
theorem refuseOpening_unwaited {c : Capture} {s : State} (hc : s.engine.capture = some c) (r : Refuse)
    (h : ∀ p : PortId, (¬ ∃ v : InService, (s.port p).service = some v ∧ v.wait = .close c.number) ∧
      ¬ ∃ v : InService, (s.port p).service = some v ∧ v.wait = .restartClose c.number) :
    refuseOpening r s = refuseTrigger c.first c.sender r (discardCapture s) := by
  rw [refuseOpening_eq hc, answerUnopened_eq]
  refine forEach_eq_self (fun p => ?_) allPorts
  obtain ⟨hclose, hrestart⟩ := h p
  have hwaits : ∀ w : Wait, w ≠ .none → (¬ ∃ v : InService, (s.port p).service = some v ∧ v.wait = w) →
      waitOf p (refuseTrigger c.first c.sender r (discardCapture s)) ≠ w := by
    intro w hw hno hwait
    unfold waitOf at hwait
    rcases service_refuseTrigger c.first c.sender r (discardCapture s) p with hsame | hnone
    · rw [hsame] at hwait
      cases hv : (s.port p).service with
      | none => rw [show ((discardCapture s).port p).service = none from hv] at hwait; exact hw hwait.symm
      | some v => rw [show ((discardCapture s).port p).service = some v from hv] at hwait; exact hno ⟨v, hv, hwait⟩
    · rw [hnone] at hwait
      exact hw hwait.symm
  exact tellUnopened_of_others (hwaits _ Wait.noConfusion hclose) (hwaits _ Wait.noConfusion hrestart)

/-- Log 22: an ABORT_CAPTURE that waits for the close of a capture that never opened finds the engine in IDLE. -/
theorem port_refuseOpening {c : Capture} {s : State} {p : PortId} {v : InService} (hc : s.engine.capture = some c) (r : Refuse)
    (hsender : c.sender ≠ .port p) (hv : (s.port p).service = some v) (hwait : v.wait = .close c.number) :
    (refuseOpening r s).port p =
      { s.port p with service := none, tx := (s.port p).tx ++ [mkReply v.kind v.tag .refusedState false []] } := by
  have hport : (refuseTrigger c.first c.sender r (discardCapture s)).port p = s.port p := port_refuseTrigger hsender r _
  obtain ⟨t, ht, hp⟩ := port_forEach (port_tellUnopened_other c.number) p (refuseTrigger c.first c.sender r (discardCapture s))
  have hservice : (t.port p).service = some v := by rw [ht, hport, hv]
  have hwaits : waitOf p t = .close c.number := by rw [waitOf, hservice]; exact hwait
  rw [refuseOpening_eq hc, answerUnopened_eq, hp, tellUnopened, hwaits]
  dsimp only
  rw [if_pos rfl, refuse, port_answer_of_service .refusedState false _ hservice, ht, hport]

end Sys2Proof.Machine
end

