-- ==== Sys2Proof/Proofs/SectionsAndCloses.lean ====
section
/-! PROOFS. Sys2Proof/Proofs/SectionsAndCloses.lean: the ends of sections and captures, skipped entries, the opening, the close and
its gate (O30). -/

namespace Sys2Proof.Machine

/-! ## Sections, records and skipped entries -/

theorem openHeadStep_cases {c : Capture} {s : State} (hc : s.engine.capture = some c) (hphase : s.engine.phase = .openHead)
    (hfilling : ∀ i : Fin 4, (s.engine.bufs[i]).state ≠ .filling) :
    let empty := fun i : Fin 4 => (s.engine.bufs[i]).state = .empty
    ((∀ i : Fin 4, ¬ empty i) → openHeadStep c s = .wait) ∧
    (∀ i : Fin 4, empty i → (∀ j : Fin 4, j < i → ¬ empty j) →
      (c.snapshot.pageCap ≤ c.nextPage → openHeadStep c s = .did (closeEarly .budget .skippedBudget s)) ∧
      (c.nextPage < c.snapshot.pageCap → c.blocks.length ≤ c.nextPage / 128 →
        openHeadStep c s = allotBlock (closeEarly .space .skippedSpace) s) ∧
      (c.nextPage < c.snapshot.pageCap → c.nextPage / 128 < c.blocks.length → openHeadStep c s = .did { s with
        store := { s.store with queue := s.store.queue ++ [.buf i] }
        engine := { s.engine with
          phase := .headWait, capture := some c.pageGiven
          bufs := vset s.engine.bufs i { givenBuf c 0 (headBytes c) true with state := .queued, part := true } } })) := by
  refine ⟨fun hnone => ?_, fun i hi hfirst => ⟨fun hcap => ?_, fun hcap hblocks => ?_, fun hcap hblocks => ?_⟩⟩
  · rw [openHeadStep_eq, giveBuffer_none hnone]
    rfl
  · rw [openHeadStep_eq, giveBuffer_needs hi hfirst (pageNeeds_budget s hcap)]
    refine headStep_unfilled (Or.inl ?_)
    rw [closeEarly_opening .budget .skippedBudget (Or.inr (Or.inr (Or.inl hphase)))]
    exact Phase.noConfusion
  · rw [openHeadStep_eq, giveBuffer_needs hi hfirst (pageNeeds_block s hcap hblocks)]
    exact headStep_allotBlock hc hphase hfilling
  · exact openHeadStep_given hc hphase hfilling hi hfirst hcap hblocks

/-- Log 42: the whole trailer, of 16 bytes and 8 for each gap listed, stands behind the data. -/
theorem trailerDone_eq (x : Section) :
    x.trailerDone = x.done.any fun p => decide (x.stop + 16 + 8 * min 16 x.gaps.length ≤ p.stop) := by
  refine congrArg (List.any x.done) (funext fun p => decide_eq_decide.mpr ?_)
  rw [Nat.add_assoc]
  exact Iff.rfl

theorem dir_recordHanded (c : Capture) (x : Section) (item : WalkItem) (e : PlanEntry) (s : State) :
    (recordHanded c x item e s).dir =
      (hand (.sectionDone c.number x.index item.entry.val e.kind x.outcome x.len x.first
        (x.pages.getD (c.nextPage - x.first)) x.gaps.length c.head) .engine { s with dir := { s.dir with
          trailers := s.dir.trailers ++ [{ cap := c.number, index := x.index
                                           written := x.done.any fun p => x.stop + 16 + 8 * min 16 x.gaps.length ≤ p.stop }] } }).dir := by
  rw [recordHanded, onCapture_dir, State.onDir, noteTrailer, trailerDone_eq, Section.pageCount]

/-- R85: steps 3 to 5 of a section's end. -/
theorem sectionRecordStep_leaves {c : Capture} {s : State} (hc : s.engine.capture = some c) (x : Section) (item : WalkItem)
    (e : PlanEntry) :
    let u := sectionRecordStep c x item e s
    let walkOver := c.walk.length ≤ c.position + 1
    u.dir = (recordHanded c x item e s).dir ∧
    u.engine.capture = some { c with clean := c.clean && endedWell x.outcome, cursor := some (c.position + 1), current := none } ∧
    u.engine.phase = (if s.engine.state = .closing then .skips else if walkOver then .closeRecord else .secBegin) ∧
    u.engine.state = (if s.engine.state = .closing ∨ walkOver then .closing else s.engine.state) ∧ linesLeft c.number e s u := by
  intro u walkOver
  obtain ⟨hring, htime, hretain, hcounts, hstate⟩ := recordHanded_keeps c x item e s
  obtain ⟨hdir, hcapture, hphase', hstate', hlines⟩ := afterSection_pastEntry (capture_recordHanded hc x item e) c.number e
  rw [hstate] at hphase' hstate'
  rw [show u = _ from sectionRecordStep_eq c x item e s]
  exact ⟨hdir, hcapture, hphase', hstate', linesLeft_congr hring htime hretain hcounts hlines⟩

/-- The claims after the end of a section of entry `e`. -/
theorem streams_of_unclaimOne {e : PlanEntry} {s u : State} (h : u.streams = (unclaimOne e s).streams) (ch : Fin 4) :
    u.streams[ch] = if e.kind = .stream ∧ e.chan = some ch then
      { s.streams[ch] with claim := match (s.streams[ch]).claim with
          | none => none
          | some y => if y.count ≤ 1 then none else some { y with count := y.count - 1 } } else s.streams[ch] := by
  have hch : u.streams[ch] = (unclaimOne e s).streams[ch] := by rw [h]
  refine (hch.trans (unclaimOne_streams e s ch)).trans (if_congr Iff.rfl ?_ rfl)
  cases (s.streams[ch]).claim <;> rfl

/-- A capture that skips the entry at walk position `k`. -/
def Capture.skippedAt (k : Nat) (c : Capture) : Capture :=
  { c with
    clean := false, nextIndex := c.nextIndex + 1, cursor := some (k + 1), current := none, asked := false, noReclaim := false
    walk := c.walk.modify k fun y => { y with secIdx := some c.nextIndex } }

/-- The ring after the event of an entry skipped at walk position `k`. -/
def skipTellRing (o : OutcomeCode) (c : Capture) (e : PlanEntry) (k : Nat) (s : State) : Ring :=
  let unpin : Bool := e.kind = .history &&
    (c.walk.drop (k + 1)).all fun y => (c.snapshot.entries[y.entry]).kind ≠ .history
  ({ s.ring with pin := if unpin then none else s.ring.pin }).post s.time .engine 0x06
    [BitVec.ofNat 32 c.nextIndex, BitVec.ofNat 32 o.code.toNat, 0]

theorem skipEntry_cases {o : OutcomeCode} {c : Capture} {item : WalkItem} {k i : Nat} {s : State}
    (hc : s.engine.capture = some c) (hk : c.cursor.getD 0 = k) (hi : lowestFreeSection s.dir = some i) (e : PlanEntry) :
    let u := skipEntry o c item e s
    let told := skipTellRing o c e k s
    u.dir = (hand (.sectionDone c.number c.nextIndex item.entry.val e.kind o 0 c.nextPage 0 0 c.head) .engine
      (s.onDir fun d => { d with sections := d.sections ++ [(i, .reserved c.number)] })).dir ∧
    u.engine.capture = some (c.skippedAt k) ∧
    u.engine.phase = s.engine.phase ∧ u.engine.state = s.engine.state ∧ u.engine.bufs = s.engine.bufs ∧
    u.streams = (unclaimOne e s).streams ∧
    (e.retain = none → u.ring = told ∧ u.engine.retain = s.engine.retain ∧ u.engine.retainCount = s.engine.retainCount) ∧
    (∀ l : Fin 8, e.retain = some l →
      let n := s.engine.retainCount[l] - 1
      u.engine.retainCount = vset s.engine.retainCount l n ∧
      (n = 0 → s.engine.retain.getLsbD l.val = true → u.engine.retain = setBit s.engine.retain l.val false ∧
        u.ring = told.post s.time .engine 0x09 [BitVec.ofNat 32 c.number, BitVec.ofNat 32 l.val]) ∧
      (n ≠ 0 ∨ s.engine.retain.getLsbD l.val = false → u.engine.retain = s.engine.retain ∧ u.ring = told)) := by
  intro u told
  subst hk
  obtain ⟨hcapture, hdir, hring, htime, hstreams, hphase, hstate, hbufs, hretain, hcounts⟩ := skipHanded_leaves hc o item e
  obtain ⟨hcapture', hdir', hphase', hstate', hbufs', hstreams'⟩ := pastEntry_leaves hcapture c.number e
  have hlines := linesLeft_pastEntry c.number e (skipHanded o c item e s)
  have htold : (skipHanded o c item e s).ring = told := hring
  have htable : s.onDir (reserveSection c.number) = s.onDir fun d => { d with sections := d.sections ++ [(i, .reserved c.number)] } :=
    congrArg (fun d : Directory => { s with dir := d }) (reserveSection_eq c.number i s.dir hi)
  obtain ⟨hnone, hsome⟩ := hlines
  rw [htold, hretain, hcounts] at hnone
  rw [htold, hretain, hcounts, htime] at hsome
  rw [htable] at hdir
  rw [show u = _ from skipEntry_eq o c item e s]
  exact ⟨hdir'.trans hdir, hcapture', hphase'.trans hphase, hstate'.trans hstate, hbufs'.trans hbufs, hstreams'.trans hstreams,
    hnone, hsome⟩

/-! ## The engine's step -/

theorem engineStep_cases {c : Capture} {s : State} (hcurrent : current s = some c) (hphase : s.engine.phase ≠ .openSlot) :
    let normal := s.monitor.state = .normal
    let may := normal ∨ (s.monitor.state ≠ .exhausted ∧ 6 < s.monitor.remaining)
    let waits := ¬ normal ∧ (s.dir.comp.held = true ∨
      (s.dir.comp.state = .clearing ∧ ∀ b : Nat, s.store.flight ≠ some (.erase .journal b)))
    let slotted := ∃ (x : Slotted) (o : OutcomeCode) (t : PartTime) (g : TrigSet) (h : Option Nat),
      x ∈ s.dir.slotted ∧ x.record = .captureClose c.number o t g h
    let gate := ¬ normal ∧ (s.engine.state = .closing ∨ ¬ may) ∧ (c.closeOn = false ∨ (waits ∧ ¬ slotted))
    let unstarted := fun i : Fin 4 => (s.engine.bufs[i]).state = .filling ∨ (s.engine.bufs[i]).state = .queued
    let refused := s.engine.state ≠ .closing ∧ ¬ may ∧ ∃ i : Fin 4, unstarted i
    let moved := ∃ i : Fin 4, unstarted i ∧ c.blocks.length ≤ (s.engine.bufs[i]).page / 128
    (endsAtOnce c s = none →
      (s.engine.stall = true → engineStep s = .wait) ∧
      (s.engine.stall = false →
        (∀ (r : JRec) (rest : List JRec), c.owed = r :: rest → engineStep s =
          if journalRoom s then .did (hand r .engine (s.onCapture fun d => { d with owed := rest })) else .wait) ∧
        (c.owed = [] →
          (gate → engineStep s = .did (closeGate c s)) ∧
          (¬ gate → refused → engineStep s = .did (powerClose s)) ∧
          (¬ gate → ¬ refused → moved →
            engineStep s = allotBlock (cutSection .space .skippedSpace fun b => c.blocks.length ≤ b.page / 128) s) ∧
          (¬ gate → ¬ refused → ¬ moved → engineStep s = phaseStep c s)))) := by
  intro normal may waits slotted gate unstarted refused moved hends
  have hgate : gateNeeded c s = true ↔ gate := by
    rw [gateNeeded_iff, closeHeld_iff, ordinaryOk_iff]
  have hrefused : buffersRefused s = true ↔ refused := by
    rw [buffersRefused_iff, ordinaryOk_iff]
  have hmoved : movedNeedsBlock c s = true ↔ moved := movedNeedsBlock_iff c s
  refine ⟨engineStep_stalled hcurrent hends hphase, fun hstall =>
    ⟨fun r rest howed => engineStep_owes hcurrent hends hphase hstall howed, fun howed => ?_⟩⟩
  rw [engineStep_goesOn hcurrent hends hphase hstall howed]
  refine ⟨fun h => if_pos (hgate.mpr h), fun hg h => ?_, fun hg hr h => ?_, fun hg hr hm => ?_⟩
  · rw [if_neg (mt hgate.mp hg), if_pos (hrefused.mpr h)]
  · rw [if_neg (mt hgate.mp hg), if_neg (mt hrefused.mp hr), if_pos (hmoved.mpr h), unallotted_eq]
  · rw [if_neg (mt hgate.mp hg), if_neg (mt hrefused.mp hr), if_neg (mt hmoved.mp hm)]

theorem endsAtOnce_cases {c : Capture} {x : Section} {item : WalkItem} {s : State} (hcurrent : current s = some c)
    (hphase : s.engine.phase = .gather) (hx : c.current = some x) (hitem : c.walk[c.cursor.getD 0]? = some item) :
    let e := c.snapshot.entries[item.entry]
    let normal := s.monitor.state = .normal
    let extended := e.cls = .extended ∧ ¬ normal
    let dried := ∀ ch : Fin 4, e.chan = some ch → (s.streams[ch]).fifo = []
    let spent := ¬ normal ∨ reached s.time (after c.openTime (1000000 * e.window.getD 0)) = true ∨ e.quiet.getD 0 = 0
    let quiet := e.kind = .stream ∧ x.ended = none ∧ dried ∧ spent
    (extended → endsAtOnce c s = some (endGathering .skippedPower true s)) ∧
    (¬ extended → quiet → endsAtOnce c s = some (s.onSection fun y => { y with ended := some .complete })) ∧
    (¬ extended → ¬ quiet → s.engine.stall = true → x.toPlace = [] →
      endsAtOnce c s = x.ended.map fun o => endGathering o false s) ∧
    (¬ extended → ¬ quiet → s.engine.stall = false ∨ x.toPlace ≠ [] → endsAtOnce c s = none) := by
  intro e normal extended dried spent quiet
  have hextended : extendedEnds c s = true ↔ extended := extendedEnds_iff hphase hx hitem
  have hquiet : endsQuiet c x e s = true ↔ quiet := endsQuiet_iff c x e s
  have hgoes := fun h : ¬ extended => endsAtOnce_eq hcurrent hphase hx hitem (mt hextended.mp h)
  refine ⟨fun h => endsAtOnce_extended (hextended.mpr h), fun hno h => ?_, fun hno hloud hstall hplaced => ?_,
    fun hno hloud h => ?_⟩
  · rw [hgoes hno, if_pos (hquiet.mpr h)]
  · rw [hgoes hno, if_neg (mt hquiet.mp hloud), hstall, hplaced]
    rfl
  · rw [hgoes hno, if_neg (mt hquiet.mp hloud)]
    refine if_neg fun hboth => ?_
    rw [Bool.and_eq_true, List.isEmpty_iff] at hboth
    rcases h with h | h
    · rw [h] at hboth; exact Bool.false_ne_true hboth.1
    · exact h hboth.2

theorem openSlot_cases {c : Capture} {s : State} (hcurrent : current s = some c) (hphase : s.engine.phase = .openSlot) :
    (∀ i : Fin 32, s.dir.slots[i] = .free → (∀ j : Fin 32, j < i → s.dir.slots[j] ≠ .free) →
      engineStep s = .did (openCapture i.val s)) ∧
    ((∀ i : Fin 32, s.dir.slots[i] ≠ .free) → s.dir.reclaim = none → c.noReclaim = true →
      engineStep s = .did (refuseOpening .power s)) ∧
    ((∀ i : Fin 32, s.dir.slots[i] ≠ .free) → s.dir.reclaim = none → c.noReclaim = false →
      (c.asked = false ∨ erasePending s = false) →
      (reclaimable s = none → engineStep s = .did (refuseOpening .full s)) ∧
      (∀ d : DirEntry, reclaimable s = some d → engineStep s = if journalRoom s then
        .did (startReclaim d.cap (s.onCapture fun x => { x with asked := true })) else .wait)) := by
  have hends : endsAtOnce c s = none := endsAtOnce_other hcurrent (Or.inl (by rw [hphase]; exact Phase.noConfusion))
  rw [engineStep_opens hcurrent hends hphase]
  have hfull := fun h : ∀ i : Fin 32, s.dir.slots[i] ≠ .free => openSlotStep_full (c := c) (lowestFreeSlot_of_none h)
  have hseeks := seeks_act (capture_of_current hcurrent) false
    (.did (refuseOpening (if c.noReclaim then .power else .full) s))
  obtain ⟨-, -, hseeks⟩ := hseeks
  refine ⟨fun i hi hfirst => openSlotStep_free (lowestFreeSlot_of_first hi hfirst), fun hslots hidle hnever => ?_,
    fun hslots hidle hmay hasks => ?_⟩
  · obtain ⟨-, hdry⟩ := hseeks hidle (Or.inr (Or.inl hnever))
    rw [hfull hslots, (hdry (Or.inl hnever)).2 (Or.inl rfl), if_pos hnever]
  · have hneed : c.asked = false ∨ c.noReclaim = true ∨ ¬ erasePending s = true := by
      rcases hasks with h | h
      · exact Or.inl h
      · exact Or.inr (Or.inr (Bool.eq_false_iff.mp h))
    obtain ⟨htakes, hdry⟩ := hseeks hidle hneed
    rw [hfull hslots]
    refine ⟨fun hnone => ?_, fun d hd => htakes d hmay hd⟩
    rw [(hdry (Or.inr hnone)).2 (Or.inl rfl), hmay, if_neg Bool.false_ne_true]

end Sys2Proof.Machine
end

