-- ==== Sys2Proof/Proofs/SectionsAndCapturesEnd.lean ====
section
/-! PROOFS. Sys2Proof/Proofs/SectionsAndCapturesEnd.lean: O30, from the lemmas on sections, closes, openings and the engine's step. -/

namespace Sys2Proof.Machine

/-- Settles O30: each clause from the lemma that says what its operation leaves. -/
theorem sectionsAndCapturesEnd : Obligations.SectionsAndCapturesEnd := by
  unfold Obligations.SectionsAndCapturesEnd
  intro seeks
  refine ⟨fun c x e s => ?_, fun c x item e s hc => ?_, fun cause c => ?_, closeAccepted_leaves, openRecordStep_eq,
    fun c s hc hphase hfilling => openHeadStep_cases hc hphase hfilling, fun f dry c s hc => withTableEntry_seeks hc f dry,
    fun o c item k i s hc hk hi => ?_, fun c item e s => rfl, fun c s hc => afterSection_eq hc, fun c s => ?_, closeRecordStep_eq,
    fun c s => ?_, fun c s hcurrent hphase => ?_, fun c s hcurrent => ?_, fun c x item s hx hitem => ?_,
    fun c s hcurrent hphase => openSlot_cases hcurrent hphase, fun r c s hc => ?_⟩
  · obtain ⟨hengine, hdir, hring, hstreams⟩ := sectionEnd_eq c x e s
    exact ⟨hengine, hdir, hring, streams_of_unclaimOne hstreams⟩
  · obtain ⟨hdir, hcapture, hphase, hstate, hlines⟩ := sectionRecordStep_leaves hc x item e
    exact ⟨hdir.trans (dir_recordHanded c x item e s), hcapture, hphase, hstate, hlines⟩
  · cases cause <;> rfl
  · obtain ⟨hdir, hcapture, hphase, hstate, hbufs, hstreams, hnone, hsome⟩ :=
      skipEntry_cases (o := o) (item := item) hc hk hi c.snapshot.entries[item.entry]
    exact ⟨hdir, hcapture, hphase, hstate, hbufs, streams_of_unclaimOne hstreams, hnone, hsome⟩
  · refine ⟨skipStep_none, fun item hitem hrecorded => ?_⟩
    rw [skipStep_some hitem hrecorded]
    cases s.engine.cause <;> rfl
  · refine ⟨fun h => closeGate_unpaid ?_, fun h => closeGate_paid ?_⟩
    · rw [closeHeld_iff]
      exact h
    · rw [closeHeld_iff]
      exact h
  · intro normal may waits slotted gate unstarted refused moved hends
    obtain ⟨hstalled, hgoes⟩ := engineStep_cases hcurrent hphase hends
    refine ⟨hstalled, fun hstall => ?_⟩
    obtain ⟨howes, hnone⟩ := hgoes hstall
    refine ⟨howes, fun howed => ?_⟩
    obtain ⟨hgated, hrefused, hmoved, hstep⟩ := hnone howed
    exact ⟨hgated, hrefused, hmoved, fun hg hr hm => (hstep hg hr hm).trans (phaseStep_eq c s)⟩
  · refine ⟨endsAtOnce_other hcurrent, fun x item hphase hx hitem => ?_⟩
    obtain ⟨hextended, hquiet, hstalled, hnone⟩ := endsAtOnce_cases hcurrent hphase hx hitem
    exact ⟨hextended, hquiet, hstalled, hnone, sectionStep_gather hx hitem hphase⟩
  · exact ⟨sectionStep_trailer hx hitem, sectionStep_placeTrailer hx hitem, sectionStep_secRecord hx hitem⟩
  · exact ⟨refuseOpening_unwaited hc r, fun p v hsender hv hwait => port_refuseOpening hc r hsender hv hwait⟩

end Sys2Proof.Machine
end
